-- ==== Sys2Proof/Word.lean ====
section
/-! DEFINITION. The machine's word and byte types. -/
namespace Sys2Proof

/-- A 64-bit register, row or lane value (R10, R37, R38). -/
abbrev Word := BitVec 64

/-- A byte of memory (R5). -/
abbrev Byte := BitVec 8

end Sys2Proof
end

