-- ==== Sys2Proof/Config.lean ====
section
/-! DEFINITION. What an implementation fixes: the figures of the spec, and the free values the spec leaves open.
A free value is an opaque constant, so that no proof can see what it is. -/
namespace Sys2Proof.Config

/-- Cycles in a global tick (R6). -/
def tickCycles : Nat := 4096
/-- Sectors of the module (R3, R402). -/
def sectorCount : Nat := 160
/-- Weaves of the module (R3). -/
def weaveCount : Nat := 640
/-- Lanes of a weave (R3, R10). -/
def laneCount : Nat := 128
/-- Syllables of a program bank (R13, R37). -/
def bankSyllables : Nat := 16384
/-- In-flight latches (R31). -/
def latchCount : Nat := 16
/-- Rows of the phase buffer for sector-store data, and its global entries (R304). -/
def bufferRows : Nat := 4096
def bufferGlobals : Nat := 64
/-- The deck ceiling in DU (R218). -/
def deckCeiling : Nat := 1440
/-- Sector budget at reset (R218, R478). -/
def resetBudget : Nat := 16
/-- A term in launch words and in cycles (R225). -/
def termWords : Nat := 4096
def termCycles : Nat := 65536
/-- 64-byte requests that a weave holds outstanding (R240). -/
def requestLimit : Nat := 4096
/-- The eviction grace in cycles (R228). -/
def graceCycles : Nat := 512
/-- Cycles from a flag to its verdict (R373). -/
def verdictCycles : Nat := 40
/-- Cycles of a refresh blackout (R344). -/
def blackoutCycles : Nat := 64
/-- Ticks between two designated refreshes of one weave (R343). -/
def refreshPeriod : Nat := 262144
/-- Wall-clock units in a microsecond. One unit is 1 / (1.1 GHz x 252); at clock step n a cycle lasts `cycleUnits n`. -/
def usUnits : Nat := 277200
def msUnits : Nat := 277200000
def secUnits : Nat := 277200000000
/-- Wall-clock units in an arithmetic cycle at each clock step (R463): 1.1, 0.99, 0.88, 0.77 and 0.66 GHz. -/
def cycleUnits (step : Nat) : Nat := [252, 280, 315, 360, 420].getD step 420
/-- Minimum rail voltage of each step in mV (R463). -/
def stepVolts (step : Nat) : Nat := [675, 650, 630, 615, 600].getD step 600
/-- 64 flit times in wall-clock units: 64 × 256 B at 224 GB/s (R445, R448). -/
def creditUnits : Nat := 20276
/-- Weight of an engine kind in DU (R217). -/
def weight (kind : Nat) : Nat := [12, 4, 3, 4, 5, 4].getD kind 0
/-- Wake latency of an engine kind in cycles (R217). -/
def wake (kind : Nat) : Nat := [1536, 256, 192, 256, 384, 320].getD kind 0
/-- Units of an engine kind in a sector (R217). -/
def unitsOf (kind : Nat) : Nat := [1, 2, 2, 2, 2, 1].getD kind 0
/-- Cycles from the last arrival to a collective boundary's completion, by scope (R127). -/
def boundaryCycles (scope : Nat) : Nat := [0, 2, 14, 40, 72].getD scope 0

/-- Free words the spec leaves open (log 7). -/
opaque freeWord : Nat → BitVec 64
/-- Free durations in cycles: HBM, host and peer returns, page walks, command-processor stages (log 8, log 9). -/
opaque freeDelay : Nat → Nat
/-- SHA-384 of some bytes (R479, R482; log 15). -/
opaque sha384 : List (BitVec 8) → BitVec 384
/-- The identity key's signature over a nonce and digests (R482; log 15). -/
opaque signature : Nat → List (BitVec 384) → BitVec 768
/-- What the vendor key says of a staged image: it is signed, and its security version (R479; log 15). -/
opaque imageSigned : List (BitVec 8) → Bool
opaque imageVersion : List (BitVec 8) → Nat
/-- The ROM's content (R482; log 15). -/
opaque rom : List (BitVec 8)
/-- Expected signature of a unit's field test, which the configuration record's bytes hold (R392, R480; log 11). -/
opaque testSignature : List (BitVec 8) → Nat → BitVec 32

/-- The energy that a launch's own units have used since its start, in µJ (R40): the spec gives no figure for an
instruction or a cycle. Of its context, its start and now; it counts from 0 (log 33). -/
opaque ownEnergyAt : Nat → Nat → Nat → Nat
def ownEnergy (context start now : Nat) : Nat := if now ≤ start then 0 else ownEnergyAt context start now

/-- Where firmware has reserved the pairs' spill areas in HBM, in units of 64 MiB (R351; log 11). -/
opaque spillBlock : Nat

/-- Fraction bits of the fixed-point evaluation of transcendental functions (log 10). -/
def fracBits : Nat := 640

end Sys2Proof.Config
end

