-- ==== Sys2Proof/Syntax.lean ====
section
/-! DEFINITION. The abstract instructions: one constructor for each row of the opcode table: syllables with
operands first, then TXS instructions, then the rows that no word encodes, then the rows without operands.
Rows that no word encodes are steps of the hardware, the command processor, the host link, the fabric and the
governor; their arguments name the unit they act on. -/
namespace Sys2Proof

/-- A register number of the s or v file, 0 to 31 (R80). -/
abbrev Reg := BitVec 5
/-- A predicate register, k0 to k7 (R80). -/
abbrev KReg := BitVec 3
/-- A handle register, h0 to h15 (R80). -/
abbrev HReg := BitVec 4
/-- An engine port, p0 to p3 (R37). -/
abbrev Port := BitVec 2

/-- Element sizes of class V (R96, R159). -/
inductive Sz where | b | h | w | d
  deriving DecidableEq, Repr

/-- Format codes of class F (R97). -/
inductive FFmt where | d | s | h | bf | e4 | e5 | i
  deriving DecidableEq, Repr

/-- Integer sizes of the float and integer conversions (R97, R184). -/
inductive ISz where | b | h | w | d | q
  deriving DecidableEq, Repr

/-- The m field of lbrk (R117). -/
inductive LbrkCond where | always | nz | z
  deriving DecidableEq, Repr

/-- Access permissions of probe (R137). -/
inductive Perm where | r | w | rw
  deriving DecidableEq, Repr

/-- Operations of atm (R202). -/
inductive AtmOp where | add | and | or | xor | min | max | swp | fadds
  deriving DecidableEq, Repr

/-- Operations of twr and vred (R208). -/
inductive RedOp where | add | max | min | or | faddd | fadds | fmaxs | fmins
  deriving DecidableEq, Repr

/-- The windows lanes reach (R190, R201). -/
inductive Win where | loc | sec | pair
  deriving DecidableEq, Repr

/-- Edge modes of tws (R204). -/
inductive TwEdge where | z | w | h
  deriving DecidableEq, Repr

/-- A queue of jobs: a pool engine of a sector (R217), or the load or store queue that a copy engine keeps for a
weave (R234). -/
inductive EngId where
  | pool (sector kind idx : Nat)
  | copy (weave : Nat) (store : Bool)
  deriving DecidableEq, Repr

/-- A unit of the health table (R394): its TYPE, SECTOR and SUB fields. -/
structure UnitName where
  type : Nat
  sector : Nat
  sub : Nat
  deriving DecidableEq, Repr

/-- What a patrol finds at a group or request (R377, R380). -/
inductive PatrolFind where | clean | corrected | parityRow | uncorrectable
  deriving DecidableEq, Repr

/-- Who made a failed host or peer read (R442). -/
inductive ReadSource where
  | job (eng : EngId)
  | ldh (weave : Nat)
  | graphCopy (queue node : Nat)
  /-- The command processor's read of a word, by the number of its request. -/
  | cp (id : Nat)
  deriving DecidableEq, Repr

/-- A Porlen flit (R446). `rsv` are its reserved bits: [1:0] of bytes 2–3, [4:2] of byte 12. -/
structure Flit where
  dst : BitVec 12
  kind : BitVec 4
  src : BitVec 12
  vc : BitVec 2
  tag : BitVec 16
  addr : BitVec 44
  op : BitVec 4
  nw : BitVec 5
  seq : BitVec 8
  crc : BitVec 16
  payload : List Word
  rsv : BitVec 5
  deriving DecidableEq, Repr

/-- A firmware image in a slot of the package flash (R477, R479): its bytes, whether the vendor key has signed it, its security
version. -/
structure FirmwareImage where
  content : List (BitVec 8)
  signed : Bool
  version : Nat
  deriving DecidableEq, Repr
/-- The configuration record (R480): its bytes, whether the vendor key has signed it, its own version, the minimum firmware security
version, the units that it retires (R395), and the remap tables (by 9 × weave + physical cell), cell maps (by weave) and bus maps (by
pair) as far as they differ from identity. -/
structure ConfigRecord where
  content : List (BitVec 8)
  signed : Bool
  version : Nat
  minSecurity : Nat
  retired : List UnitName
  remap : List (Nat × List (Nat × BitVec 8))
  cellMaps : List (Nat × List Nat)
  busMaps : List (Nat × List Nat)
  deriving DecidableEq, Repr
/-- What a module reset meets: what the board's interface has written into the flash, by slot, and the record; and what its stages
find that the flash does not tell (R479, R480): the PUF's key, HBM training, the health area's signature. -/
structure BootInputs where
  images : List (Nat × FirmwareImage)
  record : Option ConfigRecord
  pufOk : Bool
  hbmOk : Bool
  healthOk : Bool
  deriving DecidableEq, Repr

/-- The instructions and steps of the opcode table. -/
inductive Instr where
  /-- ADD (R109): Scalar add: s[d] := x + y modulo 2^64. -/
  | add (d a b : Reg)
  /-- SUB (R109): Scalar subtract modulo 2^64. -/
  | sub (d a b : Reg)
  /-- AND (R109): Scalar bitwise AND. -/
  | and (d a b : Reg)
  /-- OR (R109): Scalar bitwise OR. -/
  | or (d a b : Reg)
  /-- XOR (R109): Scalar bitwise XOR. -/
  | xor (d a b : Reg)
  /-- ANDN (R109): Scalar x AND NOT y. -/
  | andn (d a b : Reg)
  /-- SHL (R109): Scalar shift left by Bits(y,5,0). -/
  | shl (d a b : Reg)
  /-- SHR (R109): Scalar logical shift right. -/
  | shr (d a b : Reg)
  /-- SAR (R109): Scalar arithmetic shift right. -/
  | sar (d a b : Reg)
  /-- ROT (R109): Scalar rotate left. -/
  | rot (d a b : Reg)
  /-- MUL (R109): Low 64 bits of the scalar product. -/
  | mul (d a b : Reg)
  /-- MULH (R109): High 64 bits of the signed scalar product. -/
  | mulh (d a b : Reg)
  /-- MULHU (R109): High 64 bits of the unsigned scalar product. -/
  | mulhu (d a b : Reg)
  /-- MIN (R109): Signed scalar minimum. -/
  | min (d a b : Reg)
  /-- MAX (R109): Signed scalar maximum. -/
  | max (d a b : Reg)
  /-- MINU (R109): Unsigned scalar minimum. -/
  | minu (d a b : Reg)
  /-- MAXU (R109): Unsigned scalar maximum. -/
  | maxu (d a b : Reg)
  /-- SLT (R109): 1 if x < y signed, else 0. -/
  | slt (d a b : Reg)
  /-- SLTU (R109): 1 if x < y unsigned, else 0. -/
  | sltu (d a b : Reg)
  /-- SEQ (R109): 1 if x = y, else 0. -/
  | seq (d a b : Reg)
  /-- SNE (R109): 1 if x differs from y, else 0. -/
  | sne (d a b : Reg)
  /-- SEL (R109): Selects x if s[c] is non-zero, otherwise y. -/
  | sel (d a b c : Reg)
  /-- CLZ (R109): Counts leading zeros of x. -/
  | clz (d a : Reg)
  /-- CTZ (R109): Counts trailing zeros of x. -/
  | ctz (d a : Reg)
  /-- POPC (R109): Counts set bits of x. -/
  | popc (d a : Reg)
  /-- BFX (R110): Extracts an unsigned bit field under a control word. -/
  | bfx (d a b : Reg)
  /-- BFXS (R110): Extracts a sign-extended bit field. -/
  | bfxs (d a b : Reg)
  /-- BFI (R110): Inserts a bit field into s[d]. -/
  | bfi (d a b : Reg)
  /-- FSH (R111): Funnel shift of x:y by Bits(s[c],5,0). -/
  | fsh (d a b c : Reg)
  /-- FSHI (R111): Funnel shift by an immediate amount. -/
  | fshi (d a b : Reg) (n : BitVec 6)
  /-- ADDI (R112): Adds a sign-extended (optionally lit-extended) immediate. -/
  | addi (d a : Reg) (imm : BitVec 11)
  /-- ANDI (R112): ANDs with a sign-extended immediate. -/
  | andi (d a : Reg) (imm : BitVec 11)
  /-- ORI (R112): ORs with a sign-extended immediate. -/
  | ori (d a : Reg) (imm : BitVec 11)
  /-- XORI (R112): XORs with a sign-extended immediate. -/
  | xori (d a : Reg) (imm : BitVec 11)
  /-- SHLI (R112): Shift left by an immediate. -/
  | shli (d a : Reg) (n : BitVec 6)
  /-- SHRI (R112): Logical shift right by an immediate. -/
  | shri (d a : Reg) (n : BitVec 6)
  /-- SARI (R112): Arithmetic shift right by an immediate. -/
  | sari (d a : Reg) (n : BitVec 6)
  /-- SLTI (R112): Signed compare with an immediate. -/
  | slti (d a : Reg) (imm : BitVec 11)
  /-- SLTIU (R112): Unsigned compare with a sign-extended immediate. -/
  | sltiu (d a : Reg) (imm : BitVec 11)
  /-- MOVI (R112): Loads a sign-extended immediate into s[d]. -/
  | movi (d : Reg) (imm : BitVec 16)
  /-- MOVHI (R112): Shifts s[d] left 16 and adds an unsigned imm16. -/
  | movhi (d : Reg) (imm : BitVec 16)
  /-- RDLI (R113): Reads the index of a loop level. -/
  | rdli (d : Reg) (level : BitVec 3)
  /-- RDLC (R113): Reads the remaining count of a loop level. -/
  | rdlc (d : Reg) (level : BitVec 3)
  /-- J (R114): Unconditional PC-relative jump. -/
  | j (off : BitVec 16)
  /-- CALL (R114): Jumps and writes the return PC into the link register. -/
  | call (a : Reg) (off : BitVec 16)
  /-- JR (R114): Jumps to s[a] plus an offset. -/
  | jr (a : Reg) (off : BitVec 16)
  /-- RET (R114): Jumps to s[a]. -/
  | ret (a : Reg)
  /-- BZ (R114): Branches if s[a] = 0. -/
  | bz (a : Reg) (off : BitVec 16)
  /-- BNZ (R114): Branches if s[a] is non-zero. -/
  | bnz (a : Reg) (off : BitVec 16)
  /-- BEQ (R114): Branches if s[d] = s[a]. -/
  | beq (d a : Reg) (off : BitVec 11)
  /-- BNE (R114): Branches if s[d] differs from s[a]. -/
  | bne (d a : Reg) (off : BitVec 11)
  /-- BLT (R114): Branches if s[d] < s[a] signed. -/
  | blt (d a : Reg) (off : BitVec 11)
  /-- BGE (R114): Branches if s[d] >= s[a] signed. -/
  | bge (d a : Reg) (off : BitVec 11)
  /-- BLTU (R114): Branches if s[d] < s[a] unsigned. -/
  | bltu (d a : Reg) (off : BitVec 11)
  /-- BGEU (R114): Branches if s[d] >= s[a] unsigned. -/
  | bgeu (d a : Reg) (off : BitVec 11)
  /-- LOOP (R115): Opens a hardware loop level with the count in s[a]. -/
  | loop (a : Reg) (off : BitVec 16)
  /-- LOOPI (R115): Opens a hardware loop level with an immediate count. -/
  | loopi (count : BitVec 10) (off : BitVec 11)
  /-- LBRK (R117): Leaves the innermost loop level when its condition holds. -/
  | lbrk (cond : LbrkCond) (a : Reg)
  /-- SWAIT (R120): Waits on a semaphore until served with amount s[a]. -/
  | swait (a : Reg) (sem : BitVec 8)
  /-- SSIG (R121): Adds s[a] to a semaphore count. -/
  | ssig (a : Reg) (sem : BitVec 8)
  /-- SINIT (R122): Sets a semaphore count and clears AB, OV and arms. -/
  | sinit (a : Reg) (sem : BitVec 8)
  /-- SNOTE (R124): Arms a semaphore for a user event. -/
  | snote (sem : BitVec 8)
  /-- SREAD (R123): Reads a semaphore's state word. -/
  | sread (d : Reg) (sem : BitVec 8)
  /-- PHASE (R126): Phase boundary at a scope with a double-buffer swap mask. -/
  | phase (scope : BitVec 3) (mask : BitVec 16)
  /-- REALIGN (R128): Advances TEXP and holds issue to cycle 0 of the target tick; .c marks it clock-safe. -/
  | realign (safe : Bool) (n : BitVec 16)
  /-- BARR (R131): Arrives at a barrier and waits for completion. -/
  | barr (bar : BitVec 6)
  /-- BARV (R131): Arrives at a barrier without waiting and returns the ordinal. -/
  | barv (d : Reg) (bar : BitVec 6)
  /-- BDROP (R132): Removes the weave from a barrier instance. -/
  | bdrop (bar : BitVec 6)
  /-- BINIT (R130): Sets a barrier object's scope and expected count. -/
  | binit (scope : BitVec 3) (a : Reg) (bar : BitVec 6)
  /-- LEASE (R133): Requests an engine of a kind for a port. -/
  | lease (port : Port) (kind : BitVec 3)
  /-- REL (R134): Ends a port's lease or withdraws its request. -/
  | rel (port : Port)
  /-- LQRY (R135): Reads the port's term and lease state. -/
  | lqry (d : Reg) (port : Port)
  /-- LWAIT (R136): Waits until the port holds a grant, is unbound or was evicted. -/
  | lwait (port : Port)
  /-- PROBE (R137): Starts a translation of a virtual range into a handle. -/
  | probe (perm : Perm) (d : Reg) (h : HReg) (a b : Reg)
  /-- PROBEW (R138): Waits for a handle walk and faults if the handle is invalid. -/
  | probew (d : Reg) (h : HReg)
  /-- HREL (R139): Invalidates a handle. -/
  | hrel (h : HReg)
  /-- LDH (R140): Reads a global row through a handle. -/
  | ldh (d : Reg) (h : HReg) (a : Reg)
  /-- STH (R140): Buffers a global row write through a handle. -/
  | sth (b : Reg) (h : HReg) (a : Reg)
  /-- SLD (R141): Sequencer load from a generic SECTOR or PAIR address. -/
  | sld (d a : Reg) (off : BitVec 11)
  /-- SST (R141): Sequencer buffered store to a generic address. -/
  | sst (d a : Reg) (off : BitVec 11)
  /-- LPATCH (R142): Writes a field of a launch record. -/
  | lpatch (a b : Reg) (field : BitVec 6)
  /-- LARM (R143): Arms a launch record onto its queue. -/
  | larm (a : Reg)
  /-- TRAP (R144): Raises TRAPI with a code. -/
  | trap (code : BitVec 16)
  /-- VANY (R146): Writes 1 if any lane has the predicate bit set. -/
  | vany (d : Reg) (k : KReg)
  /-- VALL (R146): Writes 1 if all lanes have the predicate bit set. -/
  | vall (d : Reg) (k : KReg)
  /-- CSRR (R147): Reads a CSR. -/
  | csrr (d : Reg) (csr : BitVec 12)
  /-- CSRW (R147): Writes a CSR, with field access and side effects such as SEED reload. -/
  | csrw (csr : BitVec 12) (a : Reg)
  /-- CSRS (R147): Sets CSR bits. -/
  | csrs (csr : BitVec 12) (a : Reg)
  /-- CSRC (R147): Clears CSR bits. -/
  | csrc (csr : BitVec 12) (a : Reg)
  /-- BKPT (R151): Breakpoint: trap or debugger halt. -/
  | bkpt (code : BitVec 16)
  /-- CLKDIV (R152): Sets a pending engine clock divisor. -/
  | clkdiv (unit div1 : BitVec 3)
  /-- FMTW (R153): Writes a format descriptor. -/
  | fmtw (idx : BitVec 6) (a : Reg)
  /-- REFDEFER (R154): Asks to defer the next tower refresh. -/
  | refdefer (n : BitVec 3)
  /-- HINV (R155): Marks a page whose cached translations drop at each holder's boundary. -/
  | hinv (a : Reg)
  /-- GAP (R86): Prefix setting the issue gap and the phase-mark flag. -/
  | gap (mark : Bool) (g : BitVec 8)
  /-- REP (R87): Prefix repeating the bundle's G word n times with strides. -/
  | rep (mask : BitVec 8) (n1 : BitVec 12)
  /-- SEG (R86): Prefix opening a segment with an expected cycle count. -/
  | seg (e : BitVec 20)
  /-- SIGL (R90): Prefix supplying the low half of the expected signature. -/
  | sigl (v : BitVec 16)
  /-- SIGH (R90): Prefix supplying the high half of the expected signature. -/
  | sigh (v : BitVec 16)
  /-- LIT (R89): Prefix extending the S syllable's immediate. -/
  | lit (v : BitVec 24)
  /-- VADD (R163): Lane element add. -/
  | vadd (sz : Sz) (d a b : Reg) (k : KReg)
  /-- VSUB (R163): Lane element subtract. -/
  | vsub (sz : Sz) (d a b : Reg) (k : KReg)
  /-- VMUL (R163): Lane element multiply, low half. -/
  | vmul (sz : Sz) (d a b : Reg) (k : KReg)
  /-- VMULH (R163): Lane signed multiply, high half. -/
  | vmulh (sz : Sz) (d a b : Reg) (k : KReg)
  /-- VMULHU (R163): Lane unsigned multiply, high half. -/
  | vmulhu (sz : Sz) (d a b : Reg) (k : KReg)
  /-- VAND (R163): Lane AND. -/
  | vand (sz : Sz) (d a b : Reg) (k : KReg)
  /-- VOR (R163): Lane OR. -/
  | vor (sz : Sz) (d a b : Reg) (k : KReg)
  /-- VXOR (R163): Lane XOR. -/
  | vxor (sz : Sz) (d a b : Reg) (k : KReg)
  /-- VANDN (R163): Lane AND NOT. -/
  | vandn (sz : Sz) (d a b : Reg) (k : KReg)
  /-- VSHL (R163): Lane shift left by register amount. -/
  | vshl (sz : Sz) (d a b : Reg) (k : KReg)
  /-- VSHR (R163): Lane logical shift right. -/
  | vshr (sz : Sz) (d a b : Reg) (k : KReg)
  /-- VSAR (R163): Lane arithmetic shift right. -/
  | vsar (sz : Sz) (d a b : Reg) (k : KReg)
  /-- VROT (R163): Lane rotate left. -/
  | vrot (sz : Sz) (d a b : Reg) (k : KReg)
  /-- VMIN (R163): Lane signed minimum. -/
  | vmin (sz : Sz) (d a b : Reg) (k : KReg)
  /-- VMAX (R163): Lane signed maximum. -/
  | vmax (sz : Sz) (d a b : Reg) (k : KReg)
  /-- VMINU (R163): Lane unsigned minimum. -/
  | vminu (sz : Sz) (d a b : Reg) (k : KReg)
  /-- VMAXU (R163): Lane unsigned maximum. -/
  | vmaxu (sz : Sz) (d a b : Reg) (k : KReg)
  /-- VABSD (R163): Lane absolute difference. -/
  | vabsd (sz : Sz) (d a b : Reg) (k : KReg)
  /-- VADDSAT (R163): Lane saturating add. -/
  | vaddsat (sz : Sz) (d a b : Reg) (k : KReg)
  /-- VSUBSAT (R163): Lane saturating subtract. -/
  | vsubsat (sz : Sz) (d a b : Reg) (k : KReg)
  /-- VCMPEQ (R165): Sets a predicate if all elements are equal. -/
  | vcmpeq (sz : Sz) (kd : KReg) (a b : Reg) (k : KReg)
  /-- VCMPLT (R165): Sets a predicate if all elements are signed less. -/
  | vcmplt (sz : Sz) (kd : KReg) (a b : Reg) (k : KReg)
  /-- VCMPLTU (R165): Sets a predicate if all elements are unsigned less. -/
  | vcmpltu (sz : Sz) (kd : KReg) (a b : Reg) (k : KReg)
  /-- VSEL (R166): Selects v[a] or v[b] per lane by predicate. -/
  | vsel (sz : Sz) (d a b : Reg) (k : KReg)
  /-- VBFX (R167): Lane unsigned bit-field extract. -/
  | vbfx (sz : Sz) (d a b : Reg) (k : KReg)
  /-- VBFXS (R167): Lane signed bit-field extract. -/
  | vbfxs (sz : Sz) (d a b : Reg) (k : KReg)
  /-- VBFI (R167): Lane bit-field insert. -/
  | vbfi (sz : Sz) (d a b : Reg) (k : KReg)
  /-- VFSH (R169): Lane funnel shift by amounts in v[d]. -/
  | vfsh (sz : Sz) (d a b : Reg) (k : KReg)
  /-- VCLZ (R170): Lane leading-zero count. -/
  | vclz (sz : Sz) (d a : Reg) (k : KReg)
  /-- VPOPC (R170): Lane population count. -/
  | vpopc (sz : Sz) (d a : Reg) (k : KReg)
  /-- VREV (R170): Lane bit reversal within elements. -/
  | vrev (sz : Sz) (d a : Reg) (k : KReg)
  /-- VBSWAP (R170): Lane byte reversal within elements. -/
  | vbswap (sz : Sz) (d a : Reg) (k : KReg)
  /-- VADDI (R164): Lane add of an immediate. -/
  | vaddi (sz : Sz) (d a : Reg) (imm : BitVec 9)
  /-- VANDI (R164): Lane AND with an immediate. -/
  | vandi (sz : Sz) (d a : Reg) (imm : BitVec 9)
  /-- VORI (R164): Lane OR with an immediate. -/
  | vori (sz : Sz) (d a : Reg) (imm : BitVec 9)
  /-- VXORI (R164): Lane XOR with an immediate. -/
  | vxori (sz : Sz) (d a : Reg) (imm : BitVec 9)
  /-- VSHLI (R164): Lane shift left by an immediate. -/
  | vshli (sz : Sz) (d a : Reg) (n : BitVec 6)
  /-- VSHRI (R164): Lane logical shift right by an immediate. -/
  | vshri (sz : Sz) (d a : Reg) (n : BitVec 6)
  /-- VSARI (R164): Lane arithmetic shift right by an immediate. -/
  | vsari (sz : Sz) (d a : Reg) (n : BitVec 6)
  /-- VBFXI (R168): Extracts an immediate bit field from the whole lane. -/
  | vbfxi (d a : Reg) (pos : BitVec 6) (len1 : BitVec 5)
  /-- VFSHI (R169): Lane 64-bit funnel shift by an immediate. -/
  | vfshi (d a b : Reg) (n : BitVec 6)
  /-- VMOVI (R171): Loads a sign-extended immediate into every lane. -/
  | vmovi (d : Reg) (imm : BitVec 16)
  /-- VLID (R171): Writes each lane's ID. -/
  | vlid (d : Reg)
  /-- VBCS (R171): Broadcasts a scalar element to every lane element. -/
  | vbcs (sz : Sz) (d a : Reg) (k : KReg)
  /-- KAND (R172): Predicate AND. -/
  | kand (kd ka kb : KReg)
  /-- KOR (R172): Predicate OR. -/
  | kor (kd ka kb : KReg)
  /-- KXOR (R172): Predicate XOR. -/
  | kxor (kd ka kb : KReg)
  /-- KNOT (R172): Predicate NOT. -/
  | knot (kd ka : KReg)
  /-- KMOV (R172): Predicate move. -/
  | kmov (kd ka : KReg)
  /-- KSET (R172): Sets a predicate to a constant. -/
  | kset (kd : KReg) (v : Bool)
  /-- VMASK (R172): Sets a predicate where v[a] is non-zero. -/
  | vmask (kd : KReg) (a : Reg)
  /-- VFADD (R174): Lane floating-point add. -/
  | vfadd (f : FFmt) (d a b : Reg) (k : KReg)
  /-- VFSUB (R174): Lane floating-point subtract. -/
  | vfsub (f : FFmt) (d a b : Reg) (k : KReg)
  /-- VFMUL (R174): Lane floating-point multiply. -/
  | vfmul (f : FFmt) (d a b : Reg) (k : KReg)
  /-- VFMA (R174): Lane fused multiply-add x*y + z. -/
  | vfma (f : FFmt) (d a b : Reg) (k : KReg)
  /-- VFMS (R174): Lane fused multiply-subtract x*y - z. -/
  | vfms (f : FFmt) (d a b : Reg) (k : KReg)
  /-- VFNMA (R174): Lane fused z - x*y. -/
  | vfnma (f : FFmt) (d a b : Reg) (k : KReg)
  /-- VFMIN (R175): Lane floating-point minimum. -/
  | vfmin (f : FFmt) (d a b : Reg) (k : KReg)
  /-- VFMAX (R175): Lane floating-point maximum. -/
  | vfmax (f : FFmt) (d a b : Reg) (k : KReg)
  /-- VFABS (R176): Lane absolute value. -/
  | vfabs (f : FFmt) (d a : Reg) (k : KReg)
  /-- VFNEG (R176): Lane negation. -/
  | vfneg (f : FFmt) (d a : Reg) (k : KReg)
  /-- VFCMPEQ (R177): Floating compare equal into a predicate. -/
  | vfcmpeq (f : FFmt) (kd : KReg) (a b : Reg) (k : KReg)
  /-- VFCMPLT (R177): Floating compare less into a predicate. -/
  | vfcmplt (f : FFmt) (kd : KReg) (a b : Reg) (k : KReg)
  /-- VFCMPLE (R177): Floating compare less-or-equal into a predicate. -/
  | vfcmple (f : FFmt) (kd : KReg) (a b : Reg) (k : KReg)
  /-- VFCMPUN (R177): Floating unordered test into a predicate. -/
  | vfcmpun (f : FFmt) (kd : KReg) (a b : Reg) (k : KReg)
  /-- VFCLASS (R178): Writes a one-hot class of each element. -/
  | vfclass (f : FFmt) (d a : Reg) (k : KReg)
  /-- VFRCP (R179): Correctly rounded reciprocal. -/
  | vfrcp (f : FFmt) (d a : Reg) (k : KReg)
  /-- VFRSQ (R179): Correctly rounded reciprocal square root. -/
  | vfrsq (f : FFmt) (d a : Reg) (k : KReg)
  /-- VFEXP2 (R179): Correctly rounded 2^x. -/
  | vfexp2 (f : FFmt) (d a : Reg) (k : KReg)
  /-- VFLOG2 (R179): Correctly rounded log2 x. -/
  | vflog2 (f : FFmt) (d a : Reg) (k : KReg)
  /-- VFSCL (R180): Applies two scale bytes to each element. -/
  | vfscl (f : FFmt) (d a b : Reg) (k : KReg)
  /-- VFSCLI (R181): Scales each element by 2^e. -/
  | vfscli (f : FFmt) (d a : Reg) (e : BitVec 9)
  /-- VFCVT (R183): Float-to-float conversion. -/
  | vfcvt (tgt src : FFmt) (sat : Bool) (d a : Reg) (k : KReg)
  /-- VFCVTI (R184): Float-to-integer conversion with clamping. -/
  | vfcvti (tgt : ISz) (src : FFmt) (sat : Bool) (d a : Reg) (k : KReg)
  /-- VFCVTF (R185): Integer-to-float conversion. -/
  | vfcvtf (tgt : FFmt) (src : ISz) (sat : Bool) (d a : Reg) (k : KReg)
  /-- VFDOT (R187): Packed dot product into two 32-bit accumulators. -/
  | vfdot (f : FFmt) (d a b : Reg) (k : KReg)
  /-- VFRND (R186): Rounds to an integral value in the same format. -/
  | vfrnd (f : FFmt) (mode : BitVec 3) (d a : Reg) (k : KReg)
  /-- LDR (R196): Lane load from the LOCAL window, per-lane address. -/
  | ldr (d a : Reg) (o : BitVec 5) (k : KReg)
  /-- LDRS (R196): Lane load from LOCAL at a scalar address. -/
  | ldrs (d a : Reg) (o : BitVec 5) (k : KReg)
  /-- STR (R196): Lane store to LOCAL, per-lane address. -/
  | str (d a : Reg) (o : BitVec 5) (k : KReg)
  /-- STRS (R196): Lane store to LOCAL at a scalar address. -/
  | strs (d a : Reg) (o : BitVec 5) (k : KReg)
  /-- LDS (R196): Lane load from the SECTOR window. -/
  | lds (d a : Reg) (o : BitVec 5) (k : KReg)
  /-- STS (R197): Lane buffered store to the SECTOR window. -/
  | sts (d a : Reg) (o : BitVec 5) (k : KReg)
  /-- LDP (R196): Lane load from the PAIR window. -/
  | ldp (d a : Reg) (o : BitVec 5) (k : KReg)
  /-- STP (R197): Lane buffered store to the PAIR window. -/
  | stp (d a : Reg) (o : BitVec 5) (k : KReg)
  /-- LDX (R196): Lane load from a generic address. -/
  | ldx (d a : Reg) (o : BitVec 5) (k : KReg)
  /-- STX (R196): Lane store to a generic address. -/
  | stx (d a : Reg) (o : BitVec 5) (k : KReg)
  /-- LDF (R198): Typed lane load converting through a format slot. -/
  | ldf (slot : BitVec 3) (d a : Reg) (o : BitVec 5) (k : KReg)
  /-- STF (R198): Typed lane store converting through a format slot. -/
  | stf (slot : BitVec 3) (d a : Reg) (o : BitVec 5) (k : KReg)
  /-- RMG (R200): Rotate-merge of two rows by an immediate byte shift. -/
  | rmg (d a : Reg) (n : BitVec 3) (k : KReg)
  /-- RMGV (R200): Rotate-merge by the low address bits in v[b]. -/
  | rmgv (d a b : Reg) (k : KReg)
  /-- ATM (R202): Sector atomic operation returning the old value. -/
  | atm (op : AtmOp) (d a b : Reg) (k : KReg)
  /-- ATMC (R202): Sector atomic compare-and-swap. -/
  | atmc (d a b : Reg) (k : KReg)
  /-- ATMZ (R202): Sector atomic fetch-and-zero. -/
  | atmz (d a : Reg) (k : KReg)
  /-- CVTA (R201): Converts a window offset to a generic address. -/
  | cvta (win : Win) (d a : Reg) (k : KReg)
  /-- CVTW (R201): Converts a generic address to a window offset. -/
  | cvtw (win : Win) (d a : Reg) (k : KReg)
  /-- ISW (R201): Tests window membership into a predicate. -/
  | isw (win : Win) (kd : KReg) (a : Reg) (k : KReg)
  /-- TWS (R204): Twill shift of v[a] by one cell. -/
  | tws (neg : Bool) (edge : TwEdge) (d a : Reg) (k : KReg)
  /-- TWSL (R205): Lane rotation within a cell. -/
  | twsl (d a : Reg) (n : BitVec 4) (k : KReg)
  /-- TWB (R206): Broadcasts a source cell's lanes to every cell. -/
  | twb (d a : Reg) (cell : BitVec 3) (k : KReg)
  /-- TWR (R207): Reduces along the weave per lane position. -/
  | twr (op : RedOp) (d a : Reg)
  /-- VTOS (R209): Extracts one lane's value to a scalar. -/
  | vtos (d a b : Reg)
  /-- VRED (R210): Reduces 128 lanes to a scalar by a fixed tree. -/
  | vred (op : RedOp) (d a : Reg) (k : KReg)
  /-- GZS (R212): Sends a Gauze message to a weave's channel. -/
  | gzs (ch : BitVec 3) (a b : Reg) (k : KReg)
  /-- GZR (R214): Receives a Gauze message from a channel. -/
  | gzr (ch : BitVec 3) (d b : Reg) (k : KReg)
  /-- GZP (R215): Polls a Gauze channel's message count. -/
  | gzp (ch : BitVec 3) (d b : Reg)
  /-- LPERM (R205): Permutes lanes within a cell by index. -/
  | lperm (d a b : Reg) (k : KReg)
  /-- PUSH (R92): Pushes a signed 14-bit value on the port stack. -/
  | push (port : Port) (imm : BitVec 14)
  /-- EXT (R92): Extends the top entry by 14 bits. -/
  | ext (port : Port) (imm : BitVec 14)
  /-- DUP (R92): Duplicates the top entry. -/
  | dup (port : Port)
  /-- DROP (R92): Drops the top entry. -/
  | drop (port : Port)
  /-- SWAP (R92): Swaps the top two entries. -/
  | swap (port : Port)
  /-- OVER (R92): Copies the second entry to the top. -/
  | over (port : Port)
  /-- STACK_ROT (R92): Rotates the top three entries. -/
  | stackRot (port : Port)
  /-- CLR (R92): Empties the port stack. -/
  | clr (port : Port)
  /-- PUSHS (R92): Pushes a scalar register. -/
  | pushs (port : Port) (n : Reg)
  /-- SETSTR (R92): Pops into stride register PSTD i. -/
  | setstr (port : Port) (i : BitVec 3)
  /-- MX_ZERO (R245): Clears MXA accumulators, kind and KACC. -/
  | mxZero (port : Port)
  /-- MX_LDA (R246): Sets operand stream A. -/
  | mxLda (port : Port)
  /-- MX_LDB (R246): Sets operand stream B. -/
  | mxLdb (port : Port)
  /-- MX_MM (R247): Accumulates a 48x48 tile over k. -/
  | mxMm (port : Port) (slotA slotB : BitVec 3) (sat : Bool)
  /-- MX_PS (R244): Sets the DX record emission base and stride. -/
  | mxPs (port : Port)
  /-- MX_ST (R250): Stores the accumulators. -/
  | mxSt (port : Port) (clr : Bool)
  /-- MX_SV (R251): Saves the MXA state image, immediately with NOW. -/
  | mxSv (port : Port) (now : Bool)
  /-- MX_RS (R251): Restores an MXA save image. -/
  | mxRs (port : Port)
  /-- MX_CHK (R254): Runs the MXA known-answer test. -/
  | mxChk (port : Port)
  /-- MX_RP (R253): Sets the resume point for the next mm. -/
  | mxRp (port : Port)
  /-- GX_CFG (R261): Configures the GXE table handle and row size. -/
  | gxCfg (port : Port) (slot : BitVec 3)
  /-- GX_GTH (R265): Gathers table rows by index. -/
  | gxGth (port : Port) (w64 : Bool)
  /-- GX_BAG (R265): Gathers and sums bags of rows. -/
  | gxBag (port : Port) (w64 : Bool)
  /-- GX_SCA (R266): Scatter-adds rows into the table. -/
  | gxSca (port : Port) (w64 : Bool)
  /-- GX_STAT (R268): Writes the GXE statistics record. -/
  | gxStat (port : Port) (clr : Bool)
  /-- CD_CMP (R272): Compresses blocks. -/
  | cdCmp (port : Port)
  /-- CD_EXP (R272): Expands compressed blocks. -/
  | cdExp (port : Port)
  /-- CD_HASH (R273): Hashes blocks with CRC-64. -/
  | cdHash (port : Port)
  /-- CD_DELTA (R274): Emits blocks whose hash changed. -/
  | cdDelta (port : Port) (upd : Bool)
  /-- SF_EXP (R277): Elementwise e^x. -/
  | sfExp (port : Port) (slot : BitVec 3)
  /-- SF_SMX (R278): Row softmax. -/
  | sfSmx (port : Port) (slot : BitVec 3)
  /-- SF_NRM (R279): Row normalisation. -/
  | sfNrm (port : Port) (slot : BitVec 3) (rms aff : Bool)
  /-- SF_RSQ (R277): Elementwise reciprocal square root. -/
  | sfRsq (port : Port) (slot : BitVec 3)
  /-- SF_GELU (R277): Elementwise GELU. -/
  | sfGelu (port : Port) (slot : BitVec 3)
  /-- KS_TOPK (R282): Selects the top K keys of each row. -/
  | ksTopk (port : Port) (slot : BitVec 3) (min : Bool)
  /-- KS_SORT (R282): Stable sort of keys with indices. -/
  | ksSort (port : Port) (slot : BitVec 3) (desc noidx : Bool)
  /-- TX_LOAD (R283): Loads TXS instruction memory. -/
  | txLoad (port : Port)
  /-- TX_GO (R283): Runs or resumes a TXS program. -/
  | txGo (port : Port) (res : Bool)
  /-- TX_STOP (R284): Stops a running TXS program, optionally saving. -/
  | txStop (port : Port) (save : Bool)
  /-- TLOOP_COUNT (R288): Pushes a TXS loop level with an immediate count. -/
  | tloopCount (c : BitVec 26)
  /-- TLOOP_WORD (R288): Pushes a TXS loop level with a count from a parameter word. -/
  | tloopWord (w : BitVec 5)
  /-- AGEN_IMM (R286): Writes an immediate into a generator field. -/
  | agenImm (g f : BitVec 3) (i : BitVec 20)
  /-- AGEN_WORD (R286): Writes a parameter word into a generator field. -/
  | agenWord (g f : BitVec 3) (w : BitVec 5)
  /-- MOV_LEN (R289): Copies an immediate number of bytes between generators. -/
  | movLen (d s : BitVec 3) (l : BitVec 20)
  /-- MOV_WORD (R289): Copies a word-given number of bytes between generators. -/
  | movWord (d s : BitVec 3) (w : BitVec 5)
  /-- MOVT (R289): Transposes an 8x8 element block. -/
  | movt (d s : BitVec 3) (z : BitVec 2)
  /-- MOVC_SL (R289): Converts elements from the slot's SF to its LF. -/
  | movcSl (d s f : BitVec 3) (n : BitVec 17)
  /-- MOVC_LS (R289): Converts elements from the slot's LF to its SF. -/
  | movcLs (d s f : BitVec 3) (n : BitVec 17)
  /-- PAD (R289): Fills rows with a parameter word. -/
  | pad (d : BitVec 3) (w : BitVec 5) (r : BitVec 19)
  /-- TWAIT (R290): TXS waits on a semaphore as an engine waiter. -/
  | twait (s : BitVec 8)
  /-- TSIG (R290): TXS signals a semaphore as a release. -/
  | tsig (s : BitVec 8)
  /-- TJMP (R288): TXS jump. -/
  | tjmp (t : BitVec 12)
  /-- SWAIT_SERVED (R119): A waiting swait or engine waiter is served and subtracts its amount. -/
  | swaitServed (sector sem : Nat)
  /-- COLLECTIVE_BOUNDARY_COMPLETION (R127): A collective phase boundary completes at K + C and releases participants. -/
  | collectiveBoundaryCompletion (launch scope unit : Nat)
  /-- BARRIER_COMPLETION (R131): A barrier instance completes and forms a boundary for its barr arrivals. -/
  | barrierCompletion (launch bar scope unit : Nat)
  /-- PROBE_WALK_COMPLETION (R137): A handle walk finishes, setting A/D and validating or failing the handle. -/
  | probeWalkCompletion (weave h : Nat)
  /-- REP_LAUNCH (R87): A later launch of a repeat issues with strided arguments. -/
  | repLaunch (weave port : Nat)
  /-- LANE_ATOMIC_APPLY (R203): A lane atomic applies at the store at issue + c + 2 in the fixed order. -/
  | laneAtomicApply (weave id cell : Nat)
  /-- GAUZE_MESSAGE_ARRIVAL (R213): A Gauze message completes at its receiver's channel. -/
  | gauzeMessageArrival (weave id : Nat)
  /-- LAUNCH_WORD_ENTRY (R230): A launch word enters the engine's job queue at issue + 8. -/
  | launchWordEntry (weave id : Nat)
  /-- JOB_START (R231): A queued job starts once head, predecessor, wait and ring lanes allow. -/
  | jobStart (eng : EngId)
  /-- JOB_COMPLETION (R231): A job completes and its signal semaphore gains 1 as a release. -/
  | jobCompletion (eng : EngId) (id : Nat)
  /-- RESULT_LANDING (R17): A register result lands at issue + L in each cell. -/
  | resultLanding (weave id cell : Nat)
  /-- WAVEFRONT_SKEW_EXECUTION (R15): Cell c executes the bundle's lane, memory and Twill syllables at issue + c. -/
  | wavefrontSkewExecution (weave id cell : Nat)
  /-- TRAP_ENTRY (R315): Trap entry writes the frame and latches and vectors to TVEC. -/
  | trapEntry (weave : Nat)
  /-- FATAL_CONTEXT_ERROR (R322): Stops every launch of the context and records the fault. -/
  | fatalContextError (weave : Nat)
  /-- USER_EVENT_ENTRY (R33): A pending user event is taken: frame, shadow swap, vector to UEVEC. -/
  | userEventEntry (weave sem : Nat)
  /-- LATCH_LANDING (R320): A re-injected latch lands after eret or evret. -/
  | latchLanding (weave id cell : Nat)
  /-- EVICT (R228): The holder weave takes EVICT at its first user-level bundle boundary. -/
  | evict (weave : Nat)
  /-- GRACE_END (R228): The eviction grace ends: engine stops, jobs dropped, port reset. -/
  | graceEnd (sector kind idx : Nat)
  /-- LEASE_GRANT (R224): A waking instance grants after its wake latency W. -/
  | leaseGrant (sector kind idx : Nat)
  /-- TERM_END (R225): A lease term ends; a new term starts or the port drains and requeues. -/
  | termEnd (sector kind idx : Nat)
  /-- DRAIN_END (R225): The jobs of an ended lease finish draining and charges fall. -/
  | drainEnd (sector kind idx : Nat)
  /-- LEASE_HANDOVER (R224): The instance is handed to the queue head 16 cycles after the drain. -/
  | leaseHandover (sector kind idx : Nat)
  /-- LEASE_PROMOTION (R219): A lease queue entry waiting 1 ms takes P = 8. -/
  | leasePromotion (sector kind idx weave port : Nat)
  /-- PREEMPTION_REQUEST (R35): The command processor requests pre-emption of a launch. -/
  | preemptionRequest (launch : Nat)
  /-- PREEMPT (R330): At its landing point the sequencer takes PREEMPT and runs the save routine. -/
  | preempt (weave : Nat)
  /-- PREEMPT_SAVE (R332): Once all parked, the CP copies system areas, save lists, barriers and semaphores. -/
  | preemptSave (launch : Nat)
  /-- PREEMPT_LANDING_TIMEOUT (R332): Sequencers not landed 10 ms after the request end the launch fatally. -/
  | preemptLandingTimeout (launch : Nat)
  /-- LAUNCH_RESUME (R333): The CP places, restores and restarts a parked launch. -/
  | launchResume (launch : Nat)
  /-- RECOVERY_VERDICT (R373): The recovery engine's verdict arrives 40 cycles after the flag. -/
  | recoveryVerdict (id : Nat)
  /-- PHASE_RERUN (R327): The bundle at the checkpoint PC issues again after cancellation. -/
  | phaseRerun (weave : Nat)
  /-- PATROL (R377): A recovery engine patrols its array in free cycles. -/
  | patrol (addr : Nat) (found : PatrolFind)
  /-- HBM_PATROL (R380): HBM controllers patrol every request once in 12 h. -/
  | hbmPatrol (addr : Nat) (found : PatrolFind)
  /-- COMPARE_POINT (R387): Redundant pair hashes are compared when the partner reaches the point. -/
  | comparePoint (weave : Nat)
  /-- REFRESH (R344): A designated refresh tick starts a 64-cycle bank-0 blackout. -/
  | refresh (weave : Nat)
  /-- REFRESH_BLACKOUT_END (R344): Held LOCAL accesses resume at cycle 64. -/
  | refreshBlackoutEnd (weave : Nat)
  /-- BANK_EVACUATION (R357): A hot bank is copied to its partner tower. -/
  | bankEvacuation (weave cell bank : Nat)
  /-- EVACUATION_COMMIT (R357): The redirection commits after the copy and required boundaries. -/
  | evacuationCommit (weave cell bank : Nat)
  /-- SPILL_COMMIT (R351): A spill write commits at the referencing launches' boundaries. -/
  | spillCommit (weave cell bank : Nat)
  /-- BANK_RETURN (R357): A cleared bank is copied home and commits. -/
  | bankReturn (weave cell bank : Nat)
  /-- FIELD_TEST_START (R390): The health scheduler starts a test on the unit with the oldest test. -/
  | fieldTestStart (unit : UnitName)
  /-- FIELD_TEST_COMPLETION (R392): A test completes and updates PASS, FAIL and state. -/
  | fieldTestCompletion (unit : UnitName) (signature : BitVec 32)
  /-- BUS_SPARE_TAKEOVER (R350): A spare bus takes over a retired bus at the next tick. -/
  | busSpareTakeover (pair bus : Nat)
  /-- TEST_OVERDUE (R390): A unit not tested for 24 h is marked OVERDUE. -/
  | testOverdue (unit : UnitName)
  /-- MONITOR_SAMPLE (R396): Path-delay and retention monitors are sampled each minute. -/
  | monitorSample (unit : UnitName) (margin : BitVec 16)
  /-- EOL_RECOMPUTE (R396): EOL is recomputed hourly. -/
  | eolRecompute (unit : UnitName) (months : BitVec 16)
  /-- LAUNCH (R404): Queue command launching a record. -/
  | launch (queue : Nat) (num : BitVec 12) (ord : Bool) (addr value : Word)
  /-- GRAPH (R404): Queue command running a graph. -/
  | graph (queue : Nat) (num : BitVec 12) (ord : Bool) (addr value : Word)
  /-- WAIT (R404): Queue command waiting on an event word. -/
  | wait (queue : Nat) (num : BitVec 12) (ord : Bool) (addr value : Word)
  /-- EVENT_WORD_POLL (R404): The CP re-reads a waited event word at most every 1 µs. -/
  | eventWordPoll (queue cmd : Nat)
  /-- SIGNAL (R404): Queue command adding to an event word. -/
  | signal (queue : Nat) (num : BitVec 12) (ord : Bool) (addr value : Word)
  /-- HEAD_PROMOTION (R406): A head eligible for 1 ms takes effective priority 8. -/
  | headPromotion (queue : Nat)
  /-- LAUNCH_START (R416): Sequencers issue ENTRY after initialisation or at the launch tick. -/
  | launchStart (launch : Nat)
  /-- LAUNCH_COMPLETION (R418): All weaves halted and jobs complete; event word incremented, sectors released. -/
  | launchCompletion (launch : Nat)
  /-- PRELOAD (R419): The next launch is preloaded onto the running launch's sectors. -/
  | preload (queue : Nat)
  /-- TLIMIT_OVERRUN (R420): A launch passing TLIMIT sets OVR and may be pre-empted. -/
  | tlimitOverrun (launch : Nat)
  /-- KERNEL_NODE (R426): A ready kernel node launches its record. -/
  | kernelNode (queue node : Nat)
  /-- COPY_NODE (R426): A ready copy node copies on the CP path. -/
  | copyNode (queue node : Nat)
  /-- FILL_NODE (R426): A ready fill node fills memory on the CP path. -/
  | fillNode (queue node : Nat)
  /-- EVENT_WAIT_NODE (R426): A node waiting on an event word. -/
  | eventWaitNode (queue node : Nat)
  /-- EVENT_SIGNAL_NODE (R426): A node adding to an event word. -/
  | eventSignalNode (queue node : Nat)
  /-- CONDITIONAL_NODE (R427): Reads a predicate and runs or skips its body. -/
  | conditionalNode (queue node : Nat)
  /-- LOOP_NODE (R427): Runs its body in iterations under a predicate and MAX. -/
  | loopNode (queue node : Nat)
  /-- LOOP_PREDICATE_READ (R427): After an iteration the predicate is read to repeat or complete. -/
  | loopPredicateRead (queue node : Nat)
  /-- GRAPH_COMPLETION (R427): All outer nodes complete; DONE is written. -/
  | graphCompletion (queue : Nat)
  /-- BAR2_WRITE (R437): Host write to HBM through the aperture, checked and atomic. -/
  | bar2Write (fn : Nat) (off : Nat) (data : List Byte)
  /-- BAR2_READ (R437): Host raw read of HBM through the aperture. -/
  | bar2Read (fn : Nat) (off len : Nat)
  /-- DOORBELL_TAIL_WRITE (R439): Host announces ring entries by writing TAIL. -/
  | doorbellTailWrite (fn queue : Nat) (v : Word)
  /-- SEMSIG (R439): Doorbell write adding an amount to a sector semaphore. -/
  | semsig (fn queue : Nat) (v : Word)
  /-- QSTAT_HALT_RESTART (R403): Writing 1 to QSTAT.HALT restarts a halted queue. -/
  | qstatHaltRestart (fn queue : Nat) (v : Word)
  /-- CONTEXT_ENTRY_WRITE (R401): Host writes a context entry, ignored while launches are live. -/
  | contextEntryWrite (fn ctx word : Nat) (v : Word)
  /-- DAMASK_ATTRIBUTE_WRITE (R363): Host write of a Damask entry, held while a launch runs. -/
  | damaskAttributeWrite (fn ctx entry : Nat) (v : BitVec 32)
  /-- COLLECTIVE_CANCEL (R462): Writing the CANCEL word ends a collective as a failure. -/
  | collectiveCancel (ctx : Nat) (v : Word)
  /-- FIRMWARE_STAGE (R477): UPDCMD.STAGE verifies the staged image and writes the inactive slot. -/
  | firmwareStage (flashOk : Bool)
  /-- FIRMWARE_ACTIVATE (R477): UPDCMD.ACT restarts Alapavor into the staged slot as a trial. -/
  | firmwareActivate (ready : Bool)
  /-- DEBUG_HALT_REQUEST (R334): DCTL.HALT requests a halt at the next bundle boundary. -/
  | debugHaltRequest (weave : Nat)
  /-- DEBUG_RESUME (R336): DCTL.RESUME resumes a halted weave or timed launch. -/
  | debugResume (weave : Nat)
  /-- DEBUG_STEP (R336): DCTL.STEP issues one bundle and halts again. -/
  | debugStep (weave : Nat)
  /-- DEBUG_DATA_ACCESS (R444): DDATA reads or writes the item DSEL selects while halted. -/
  | debugDataAccess (weave : Nat) (write : Option Word)
  /-- REGISTER_WRITE (R435): Write to a BAR0 register without its own row, with width and W1C rules. -/
  | registerWrite (fn off size : Nat) (v : Word)
  /-- ATOMICOP_REQUEST (R433): A host AtomicOp request to a BAR is completed with UR. -/
  | atomicopRequest (fn bar off : Nat)
  /-- HOST_READ_FAILURE (R442): A failed or 50 ms timed-out host or peer read is handled as FAULT poison. -/
  | hostReadFailure (src : ReadSource) (addr va : Nat)
  /-- KEY_EXCHANGE (R443): SPDM KEY_EXCHANGE setting the IDE keys. -/
  | keyExchange (session : Nat)
  /-- CHALLENGE (R482): SPDM CHALLENGE answered with an identity-key signature. -/
  | challenge (nonce : Nat)
  /-- MEASUREMENTS (R482): SPDM MEASUREMENTS returning signed digests. -/
  | measurements (nonce : Nat)
  /-- CREDIT_ACKNOWLEDGEMENT (R448): KIND 0 flit returning credits and acknowledging flits. -/
  | creditAcknowledgement (port : Nat) (flit : Flit)
  /-- CREDIT_RETURN (R448): The receiver sends credits once 8 are due or after 64 flit times. -/
  | creditReturn (port vc : Nat)
  /-- PORLEN_WRITE (R452): Write packet applied at the receiving sector or HBM. -/
  | porlenWrite (port : Nat) (flit : Flit)
  /-- PORT_RETIREMENT (R449): A flit replayed 8 times retires the port and moves its flows. -/
  | portRetirement (port : Nat)
  /-- READ_REQUEST (R454): Read request packet answered with a read response. -/
  | readRequest (port : Nat) (flit : Flit)
  /-- READ_RESPONSE (R454): Read response delivering data or an error. -/
  | readResponse (port : Nat) (flit : Flit)
  /-- REDUCE_WRITE (R453): Reduce-write combining elements atomically into a row. -/
  | reduceWrite (port : Nat) (flit : Flit)
  /-- SEMAPHORE_SIGNAL (R452): Porlen packet adding an amount to a semaphore. -/
  | semaphoreSignal (port : Nat) (flit : Flit)
  /-- COLLECTIVE_CONTROL (R460): KIND 6 collective step exchanging descriptors and data. -/
  | collectiveControl (port : Nat) (flit : Flit)
  /-- BILLING (R458): Received billing flit adds energy to the context's ENERGY. -/
  | billing (port : Nat) (flit : Flit)
  /-- BILLING_SEND (R458): A target sends a billing flit at 1 µJ or each tick. -/
  | billingSend (src : Nat) (tag : BitVec 16)
  /-- COLLECTIVE_START (R460): A write to REGION 4 starts a collective from its descriptor. -/
  | collectiveStart (sector off : Nat)
  /-- COLLECTIVE_COMPLETION (R461): Results are written and SEM signalled as a release. -/
  | collectiveCompletion (ctx : Nat)
  /-- CLOCK_STEP_CHANGE (R466): Firmware changes the clock step at a clock-safe tick. -/
  | clockStepChange (step : Nat)
  /-- THROTTLE_EVENT_ENTRY (R473): A pending throttle event is taken at a phase boundary. -/
  | throttleEventEntry (weave : Nat)
  /-- SECTOR_BUDGET_CHANGE (R469): A new sector budget takes effect at the next tick. -/
  | sectorBudgetChange (sector budget : Nat)
  /-- CURRENT_TRIP (R464): Current above 20,000 A stretches the reference clock. -/
  | currentTrip (asserted : Bool)
  /-- THERMAL_TRIP (R471): A junction at 115 °C forces step 4 and sets TRIP. -/
  | thermalTrip (sector temp : Nat)
  /-- COOLANT_SAMPLE (R470): Inlet, outlet and flow are measured each millisecond. -/
  | coolantSample (inlet outlet flow : Nat)
  /-- SHUTDOWN (R472): Decks stop and unpower on thermal, current or flow conditions. -/
  | shutdown (thermal current flow : Bool)
  /-- MODULE_RESET (R479): Module reset runs the boot stages to ready or recovery. -/
  | moduleReset (boot : BootInputs)
  /-- RAIL_VOLTAGE_SETTING (R463): Firmware sets the core-rail voltage in 5 mV steps, clamped by hardware to 600-780 mV, and a pending clock step applies only once the measured rail reaches its minimum. -/
  | railVoltageSetting (mv measured : Nat)
  /-- HOST_SECTOR_RELEASE (R322): The host releases the sectors that a context keeps after a fatal context error, ending their ownership and discarding any preload held on them. -/
  | hostSectorRelease (ctx : Nat)
  /-- EVRET (R145): Returns from a user event and re-injects latches. -/
  | evret
  /-- ERET (R149): Returns from a trap, restoring state and re-injecting latches. -/
  | eret
  /-- HALT (R150): Ends the weave's part of the launch after publishing at module scope. -/
  | halt
  /-- BSWAP (R156): Sets a pending program-bank exchange. -/
  | bswap
  /-- NOP (R157): No effect. -/
  | nop
  /-- WFE (R157): Holds issue until a user event is pending or pre-emption arrives. -/
  | wfe
  /-- CP_RR (R235): Copy on-module to on-module. -/
  | cpRr
  /-- CP_GT (R235): Copy global to tensor store, with optional deadline. -/
  | cpGt
  /-- CP_TR (R235): Copy tensor store to on-module. -/
  | cpTr
  /-- CP_RT (R235): Copy on-module to tensor store. -/
  | cpRt
  /-- CP_GS (R235): Copy global to on-module. -/
  | cpGs
  /-- CP_SG (R235): Copy on-module to global. -/
  | cpSg
  /-- CP_BC (R242): Broadcast global data to up to 16 tensor segments. -/
  | cpBc
  /-- CP_FILL (R235): Fill on-module rows with a 64-bit value. -/
  | cpFill
  /-- CP_SWP (R243): Exchange placement of two tensor regions. -/
  | cpSwp
  /-- TNOP (R285): TXS no-op. -/
  | tnop
  /-- TEND (R288): Steps the innermost TXS loop level. -/
  | tend
  /-- THALT (R283): Ends the TXS program; the job completes next cycle. -/
  | thalt
  /-- DISPATCH (R406): The CP selects an eligible queue head by effective priority. -/
  | dispatch
  /-- SUSTAINED_CURRENT_LIMIT (R464): 1 ms average above 13,000 A for 10 ms enters the safe state. -/
  | sustainedCurrentLimit
  /-- THERMAL_TRIP_CLEAR (R471): The trip clears when every sensor reads 105 °C or less. -/
  | thermalTripClear
  /-- WATCHDOG_EXPIRY (R475): The 50 ms Alapavor watchdog expires. -/
  | watchdogExpiry
  /-- SAFE_STATE (R476): Step 4 and 12 DU budgets apply from the next tick. -/
  | safeState
  deriving DecidableEq, Repr

end Sys2Proof
end

