-- ==== Sys2Proof/WellFormed.lean ====
section
/-! DEFINITION. Well-formed instructions: the operand values that the spec's forms admit, checked before decoding
or execution relies on them. Each check cites the rule that names the limit. -/
namespace Sys2Proof

/-- Element width in bits of a class V size (R159). -/
def Sz.width : Sz → Nat
  | .b => 8 | .h => 16 | .w => 32 | .d => 64

/-- Element width in bits of an integer size (R97, R184). -/
def ISz.width : ISz → Nat
  | .b => 8 | .h => 16 | .w => 32 | .d => 64 | .q => 4

/-- Element width in bits of a class F format (R159); `.i` is INT8. -/
def FFmt.width : FFmt → Nat
  | .d => 64 | .s => 32 | .h => 16 | .bf => 16 | .e4 => 8 | .e5 => 8 | .i => 8

/-- The formats .d .s .h .bf of lane arithmetic (R97). -/
def FFmt.arith : FFmt → Bool
  | .d | .s | .h | .bf => true
  | .e4 | .e5 | .i => false

/-- The formats .s .h .bf of the approximated functions (R97). -/
def FFmt.func : FFmt → Bool
  | .s | .h | .bf => true
  | .d | .e4 | .e5 | .i => false

/-- The formats .d .s of scaling (R97). -/
def FFmt.scales : FFmt → Bool
  | .d | .s => true
  | .h | .bf | .e4 | .e5 | .i => false

/-- The formats .h .bf .e4 .e5 .i of vfdot (R97). -/
def FFmt.dots : FFmt → Bool
  | .h | .bf | .e4 | .e5 | .i => true
  | .d | .s => false

/-- A conversion's float format, codes 0 to 5 (R97). -/
def FFmt.converts : FFmt → Bool
  | .i => false
  | .d | .s | .h | .bf | .e4 | .e5 => true

/-- The CSR numbers that the manual assigns (R40). -/
def csrAssigned (n : Nat) : Bool :=
  n ≤ 0x010 || n == 0x012 || (0x014 ≤ n && n ≤ 0x016) || n == 0x020 || n == 0x021 || (0x030 ≤ n && n ≤ 0x037)

/-- A module weave number (R3, R129). -/
def weaveOk (w : Nat) : Bool := w < Config.weaveCount
/-- A module sector number (R402). -/
def sectorOk (s : Nat) : Bool := s < Config.sectorCount
/-- A pool engine of a sector (R217). -/
def poolOk (s kind idx : Nat) : Bool := sectorOk s && kind < 6 && idx < Config.unitsOf kind
/-- A queue of jobs that exists (R217, R234). -/
def EngId.ok : EngId → Bool
  | .pool s kind idx => poolOk s kind idx
  | .copy w _ => weaveOk w
/-- A scope with participants (R26). -/
def scopeOk (n : Nat) : Bool := n ≤ 4
/-- A port that can be leased (R95). -/
def leasable (p : Port) : Bool := p.toNat < 3

/-- The instruction's operands lie within the limits of its entry. -/
def Instr.wf : Instr → Bool
  | .rdli _ level | .rdlc _ level => level.toNat < 6
  | .loop _ off => 1 ≤ off.toNat && off.toNat ≤ 32767
  | .loopi _ off => off ≠ 0
  | .phase scope _ => scopeOk scope.toNat
  | .binit scope _ _ => scopeOk scope.toNat
  | .realign _ n => n ≠ 0
  | .lease port kind => leasable port && kind.toNat < 6
  | .rel port | .lwait port | .lqry _ port => leasable port
  | .csrr _ csr => csrAssigned csr.toNat
  | .csrw csr _ | .csrs csr _ | .csrc csr _ => csrAssigned csr.toNat
  | .clkdiv unit _ => unit.toNat < 4
  | .refdefer n => 1 ≤ n.toNat && n.toNat ≤ 4
  | .vshli sz _ _ n | .vshri sz _ _ n | .vsari sz _ _ n => n.toNat < sz.width
  | .vbfxi _ _ pos len1 => pos.toNat + len1.toNat + 1 ≤ 64
  | .vfadd f .. | .vfsub f .. | .vfmul f .. | .vfma f .. | .vfms f .. | .vfnma f .. | .vfmin f .. | .vfmax f .. => f.arith
  | .vfabs f .. | .vfneg f .. | .vfclass f .. => f.arith
  | .vfcmpeq f .. | .vfcmplt f .. | .vfcmple f .. | .vfcmpun f .. => f.arith
  | .vfrcp f .. | .vfrsq f .. | .vfexp2 f .. | .vflog2 f .. => f.func
  | .vfscl f .. | .vfscli f .. => f.scales
  | .vfcvt tgt src .. => tgt.converts && src.converts
  | .vfcvti _ src .. => src.converts
  | .vfcvtf tgt .. => tgt.converts
  | .vfdot f .. => f.dots
  | .vfrnd f mode .. => f.arith && mode.toNat ≠ 5 && mode.toNat ≠ 6
  | .mxZero p | .mxLda p | .mxLdb p | .mxMm p .. | .mxPs p | .mxSt p _ | .mxSv p _ | .mxRs p | .mxChk p | .mxRp p => leasable p
  | .gxCfg p _ | .gxGth p _ | .gxBag p _ | .gxSca p _ | .gxStat p _ => leasable p
  | .cdCmp p | .cdExp p | .cdHash p | .cdDelta p _ => leasable p
  | .sfExp p _ | .sfSmx p _ | .sfNrm p .. | .sfRsq p _ | .sfGelu p _ => leasable p
  | .ksTopk p .. | .ksSort p .. => leasable p
  | .txLoad p | .txGo p _ | .txStop p _ => leasable p
  | .swaitServed sector sem => sectorOk sector && sem < 256
  | .collectiveBoundaryCompletion _ scope _ => scopeOk scope
  | .barrierCompletion _ bar scope _ => bar < 64 && scopeOk scope
  | .probeWalkCompletion weave h => weaveOk weave && h < 16
  | .repLaunch weave port => weaveOk weave && port < 4
  | .laneAtomicApply weave _ cell | .resultLanding weave _ cell | .wavefrontSkewExecution weave _ cell
  | .latchLanding weave _ cell => weaveOk weave && cell < 8
  | .gauzeMessageArrival weave _ | .launchWordEntry weave _ => weaveOk weave
  | .jobStart eng | .jobCompletion eng _ => eng.ok
  | .trapEntry weave | .fatalContextError weave | .evict weave | .preempt weave | .phaseRerun weave | .comparePoint weave
  | .refresh weave | .refreshBlackoutEnd weave | .throttleEventEntry weave | .debugHaltRequest weave | .debugResume weave
  | .debugStep weave | .debugDataAccess weave _ => weaveOk weave
  | .userEventEntry weave sem => weaveOk weave && sem < 256
  | .graceEnd s k i | .leaseGrant s k i | .termEnd s k i | .drainEnd s k i | .leaseHandover s k i => poolOk s k i
  | .leasePromotion s k i weave port => poolOk s k i && weaveOk weave && port < 3
  | .bankEvacuation weave cell bank | .evacuationCommit weave cell bank | .spillCommit weave cell bank
  | .bankReturn weave cell bank => weaveOk weave && cell < 8 && 1 ≤ bank && bank < 16
  | .patrol addr _ => 2 * 2 ^ 64 ≤ addr && addr < 6 * 2 ^ 64
  | .hbmPatrol addr found => addr < 2 ^ 39 && found != .parityRow
  | .busSpareTakeover pair bus => pair < 80 && bus < 18
  | .launch queue .. | .graph queue .. | .wait queue .. | .signal queue .. => queue < 128
  | .eventWordPoll queue _ | .headPromotion queue | .preload queue | .graphCompletion queue => queue < 128
  | .kernelNode queue node | .copyNode queue node | .fillNode queue node | .eventWaitNode queue node
  | .eventSignalNode queue node | .conditionalNode queue node | .loopNode queue node
  | .loopPredicateRead queue node => queue < 128 && node < 256
  | .bar2Write fn _ _ | .bar2Read fn _ _ | .registerWrite fn _ _ _ | .atomicopRequest fn _ _ => fn < 17
  | .doorbellTailWrite fn queue _ | .semsig fn queue _ | .qstatHaltRestart fn queue _ => fn < 17 && queue < 128
  | .contextEntryWrite fn ctx word _ => fn < 17 && ctx < 64 && word < 8
  | .damaskAttributeWrite fn ctx entry _ => fn < 17 && ctx < 64 && entry < 16
  | .collectiveCancel ctx _ | .collectiveCompletion ctx | .hostSectorRelease ctx => ctx < 64
  | .creditAcknowledgement port _ | .porlenWrite port _ | .portRetirement port | .readRequest port _ | .readResponse port _
  | .reduceWrite port _ | .semaphoreSignal port _ | .collectiveControl port _ | .billing port _ => port < 36
  | .creditReturn port vc => port < 36 && vc < 3
  | .billingSend src _ => src < 4096
  | .collectiveStart sector off => sectorOk sector && off % 8 = 0 && off < 4194304
  | .clockStepChange step => step < 5
  | .sectorBudgetChange sector _ => sectorOk sector
  | .thermalTrip sector _ => sectorOk sector
  | .add .. | .sub .. | .and .. | .or .. | .xor .. | .andn .. | .shl .. | .shr .. | .sar .. | .rot .. | .mul ..
  | .mulh .. | .mulhu .. | .min .. | .max .. | .minu .. | .maxu .. | .slt .. | .sltu .. | .seq .. | .sne ..
  | .sel .. | .clz .. | .ctz .. | .popc .. | .bfx .. | .bfxs .. | .bfi .. | .fsh .. | .fshi .. | .addi ..
  | .andi .. | .ori .. | .xori .. | .shli .. | .shri .. | .sari .. | .slti .. | .sltiu .. | .movi .. | .movhi ..
  | .j .. | .call .. | .jr .. | .ret .. | .bz .. | .bnz .. | .beq .. | .bne .. | .blt .. | .bge .. | .bltu ..
  | .bgeu .. | .lbrk .. | .swait .. | .ssig .. | .sinit .. | .snote .. | .sread .. | .barr .. | .barv ..
  | .bdrop .. | .probe .. | .probew .. | .hrel .. | .ldh .. | .sth .. | .sld .. | .sst .. | .lpatch .. | .larm ..
  | .trap .. | .evret | .vany .. | .vall .. | .eret | .halt | .bkpt .. | .fmtw .. | .hinv .. | .bswap | .nop
  | .wfe | .gap .. | .rep .. | .seg .. | .sigl .. | .sigh .. | .lit .. | .vadd .. | .vsub .. | .vmul ..
  | .vmulh .. | .vmulhu .. | .vand .. | .vor .. | .vxor .. | .vandn .. | .vshl .. | .vshr .. | .vsar .. | .vrot ..
  | .vmin .. | .vmax .. | .vminu .. | .vmaxu .. | .vabsd .. | .vaddsat .. | .vsubsat .. | .vcmpeq .. | .vcmplt ..
  | .vcmpltu .. | .vsel .. | .vbfx .. | .vbfxs .. | .vbfi .. | .vfsh .. | .vclz .. | .vpopc .. | .vrev ..
  | .vbswap .. | .vaddi .. | .vandi .. | .vori .. | .vxori .. | .vfshi .. | .vmovi .. | .vlid .. | .vbcs ..
  | .kand .. | .kor .. | .kxor .. | .knot .. | .kmov .. | .kset .. | .vmask .. | .ldr .. | .ldrs .. | .str ..
  | .strs .. | .lds .. | .sts .. | .ldp .. | .stp .. | .ldx .. | .stx .. | .ldf .. | .stf .. | .rmg .. | .rmgv ..
  | .atm .. | .atmc .. | .atmz .. | .cvta .. | .cvtw .. | .isw .. | .tws .. | .twsl .. | .twb .. | .twr ..
  | .vtos .. | .vred .. | .gzs .. | .gzr .. | .gzp .. | .lperm .. | .push .. | .ext .. | .dup .. | .drop ..
  | .swap .. | .over .. | .stackRot .. | .clr .. | .pushs .. | .setstr .. | .tnop | .tloopCount .. | .tloopWord ..
  | .tend | .agenImm .. | .agenWord .. | .movLen .. | .movWord .. | .movt .. | .movcSl .. | .movcLs .. | .pad ..
  | .twait .. | .tsig .. | .tjmp .. | .thalt | .preemptionRequest .. | .preemptSave .. | .preemptLandingTimeout ..
  | .launchResume .. | .recoveryVerdict .. | .fieldTestStart ..
  | .fieldTestCompletion .. | .testOverdue .. | .monitorSample .. | .eolRecompute .. | .dispatch | .launchStart ..
  | .launchCompletion .. | .tlimitOverrun .. | .firmwareStage .. | .firmwareActivate .. | .hostReadFailure ..
  | .keyExchange .. | .challenge .. | .measurements .. | .currentTrip .. | .sustainedCurrentLimit
  | .thermalTripClear | .coolantSample .. | .shutdown .. | .watchdogExpiry | .safeState | .moduleReset ..
  | .railVoltageSetting .. | .cpRr | .cpGt | .cpTr | .cpRt | .cpGs | .cpSg | .cpBc | .cpFill | .cpSwp => true

end Sys2Proof
end

