-- ==== Sys2Proof/Decode.lean ====
section
/-! DEFINITION. Decoding of syllables (R78 to R100), engine words (R91, R92) and TXS instructions (R285), total on any
word and rejecting by name; and, after it, the encoder written from the same tables. -/
namespace Sys2Proof

/-- Field [lo + n − 1 : lo] of a word, as n bits. -/
def fld (w lo n : Nat) : BitVec n := BitVec.ofNat n (w / 2 ^ lo)

/-- What decoding a syllable gives. `illegal` and `reserved` are items 2 and 3 of R83; `engJob` is a G syllable whose
fault is an ENGJOB found at issue: reason 1 for an unbound port (R20), 2 for a modifier that must be 0 (R232). -/
inductive Decoded where
  | ok (i : Instr)
  | illegal
  | reserved
  | engJob (port : Port) (reason : Nat)
  deriving DecidableEq, Repr

/-- The instruction, provided the fields that must be 0 are 0 (R83 item 3). -/
def rz (c : Bool) (i : Instr) : Decoded := if c then .ok i else .reserved
/-- The instruction, provided the fields hold listed values (R83 item 2). -/
def il (c : Bool) (r : Decoded) : Decoded := if c then r else .illegal

def Sz.ofCode : Nat → Sz
  | 0 => .b | 1 => .h | 2 => .w | _ => .d
def Sz.code : Sz → Nat
  | .b => 0 | .h => 1 | .w => 2 | .d => 3
def FFmt.ofCode : Nat → FFmt
  | 0 => .d | 1 => .s | 2 => .h | 3 => .bf | 4 => .e4 | 5 => .e5 | _ => .i
def FFmt.code : FFmt → Nat
  | .d => 0 | .s => 1 | .h => 2 | .bf => 3 | .e4 => 4 | .e5 => 5 | .i => 6
def ISz.ofCode : Nat → ISz
  | 0 => .b | 1 => .h | 2 => .w | 3 => .d | _ => .q
def ISz.code : ISz → Nat
  | .b => 0 | .h => 1 | .w => 2 | .d => 3 | .q => 4
def LbrkCond.ofCode : Nat → LbrkCond
  | 0 => .always | 1 => .nz | _ => .z
def LbrkCond.code : LbrkCond → Nat
  | .always => 0 | .nz => 1 | .z => 2
def Perm.ofCode : Nat → Perm
  | 1 => .r | 2 => .w | _ => .rw
def Perm.code : Perm → Nat
  | .r => 1 | .w => 2 | .rw => 3
def AtmOp.ofCode : Nat → AtmOp
  | 0 => .add | 1 => .and | 2 => .or | 3 => .xor | 4 => .min | 5 => .max | 6 => .swp | _ => .fadds
def AtmOp.code : AtmOp → Nat
  | .add => 0 | .and => 1 | .or => 2 | .xor => 3 | .min => 4 | .max => 5 | .swp => 6 | .fadds => 7
def RedOp.ofCode : Nat → RedOp
  | 0 => .add | 1 => .max | 2 => .min | 3 => .or | 4 => .faddd | 5 => .fadds | 6 => .fmaxs | _ => .fmins
def RedOp.code : RedOp → Nat
  | .add => 0 | .max => 1 | .min => 2 | .or => 3 | .faddd => 4 | .fadds => 5 | .fmaxs => 6 | .fmins => 7
def Win.ofCode : Nat → Win
  | 0 => .loc | 1 => .sec | _ => .pair
def Win.code : Win → Nat
  | .loc => 0 | .sec => 1 | .pair => 2
def TwEdge.ofCode : Nat → TwEdge
  | 0 => .z | 1 => .w | _ => .h
def TwEdge.code : TwEdge → Nat
  | .z => 0 | .w => 1 | .h => 2

/-- Class S (R94). -/
def decodeS (w : Nat) : Decoded :=
  let d : Reg := fld w 16 5; let a : Reg := fld w 11 5; let b : Reg := fld w 6 5; let n : BitVec 6 := fld w 0 6
  let rrr (i : Instr) := rz (n == 0) i
  match w / 2 ^ 21 % 128 with
  | 0x00 => rrr (.add d a b)
  | 0x01 => rrr (.sub d a b)
  | 0x02 => rrr (.and d a b)
  | 0x03 => rrr (.or d a b)
  | 0x04 => rrr (.xor d a b)
  | 0x05 => rrr (.andn d a b)
  | 0x06 => rrr (.shl d a b)
  | 0x07 => rrr (.shr d a b)
  | 0x08 => rrr (.sar d a b)
  | 0x09 => rrr (.rot d a b)
  | 0x0A => rrr (.mul d a b)
  | 0x0B => rrr (.mulh d a b)
  | 0x0C => rrr (.mulhu d a b)
  | 0x0D => rrr (.min d a b)
  | 0x0E => rrr (.max d a b)
  | 0x0F => rrr (.minu d a b)
  | 0x10 => rrr (.maxu d a b)
  | 0x11 => rrr (.slt d a b)
  | 0x12 => rrr (.sltu d a b)
  | 0x13 => rrr (.seq d a b)
  | 0x14 => rrr (.sne d a b)
  | 0x15 => rz (fld w 5 1 == 0) (.sel d a b (fld w 0 5))
  | 0x16 => rz (b == 0 && n == 0) (.clz d a)
  | 0x17 => rz (b == 0 && n == 0) (.ctz d a)
  | 0x18 => rz (b == 0 && n == 0) (.popc d a)
  | 0x19 => rrr (.bfx d a b)
  | 0x1A => rrr (.bfxs d a b)
  | 0x1B => rrr (.bfi d a b)
  | 0x1C => rz (fld w 5 1 == 0) (.fsh d a b (fld w 0 5))
  | 0x1D => .ok (.fshi d a b n)
  | 0x20 => .ok (.addi d a (fld w 0 11))
  | 0x21 => .ok (.andi d a (fld w 0 11))
  | 0x22 => .ok (.ori d a (fld w 0 11))
  | 0x23 => .ok (.xori d a (fld w 0 11))
  | 0x24 => rz (b == 0) (.shli d a n)
  | 0x25 => rz (b == 0) (.shri d a n)
  | 0x26 => rz (b == 0) (.sari d a n)
  | 0x27 => .ok (.slti d a (fld w 0 11))
  | 0x28 => .ok (.sltiu d a (fld w 0 11))
  | 0x30 => .ok (.movi d (fld w 0 16))
  | 0x31 => .ok (.movhi d (fld w 0 16))
  | 0x33 => il (w % 8 < 6) (rz (a == 0 && fld w 3 8 == 0) (.rdli d (fld w 0 3)))
  | 0x34 => il (w % 8 < 6) (rz (a == 0 && fld w 3 8 == 0) (.rdlc d (fld w 0 3)))
  | _ => .illegal

/-- Class C (R95). -/
def decodeC (w : Nat) : Decoded :=
  let d : Reg := fld w 16 5; let a : Reg := fld w 11 5; let b : Reg := fld w 6 5
  let off : BitVec 16 := fld w 0 16; let sem : BitVec 8 := fld w 0 8
  let leasePort : Port := fld w 3 2
  let h : HReg := fld w 2 4
  match w / 2 ^ 21 % 128 with
  | 0x00 => rz (d == 0) (.j off)
  | 0x01 => .ok (.call d off)
  | 0x02 => .ok (.jr d off)
  | 0x03 => rz (off == 0) (.ret d)
  | 0x04 => .ok (.bz d off)
  | 0x05 => .ok (.bnz d off)
  | 0x06 => .ok (.beq d a (fld w 0 11))
  | 0x07 => .ok (.bne d a (fld w 0 11))
  | 0x08 => .ok (.blt d a (fld w 0 11))
  | 0x09 => .ok (.bge d a (fld w 0 11))
  | 0x0A => .ok (.bltu d a (fld w 0 11))
  | 0x0B => .ok (.bgeu d a (fld w 0 11))
  | 0x10 => il (1 ≤ off.toNat && off.toNat ≤ 32767) (.ok (.loop d off))
  | 0x11 => il (fld w 0 11 != 0) (.ok (.loopi (fld w 11 10) (fld w 0 11)))
  | 0x12 => il (w % 8 < 3) (rz (d == 0 && b == 0 && fld w 3 3 == 0) (.lbrk (.ofCode (w % 8)) a))
  | 0x18 => rz (d == 0 && fld w 8 3 == 0) (.swait a sem)
  | 0x19 => rz (d == 0 && fld w 8 3 == 0) (.ssig a sem)
  | 0x1A => rz (d == 0 && a == 0 && fld w 8 3 == 0) (.snote sem)
  | 0x1B => rz (a == 0 && fld w 8 3 == 0) (.sread d sem)
  | 0x1C => rz (d == 0 && fld w 8 3 == 0) (.sinit a sem)
  | 0x20 => il (w / 2 ^ 18 % 8 ≤ 4) (rz (fld w 16 2 == 0) (.phase (fld w 18 3) off))
  | 0x21 => il (off != 0) (rz (fld w 16 4 == 0) (.realign (w / 2 ^ 20 % 2 == 1) off))
  | 0x22 => rz (d == 0 && a == 0 && b == 0) (.barr (fld w 0 6))
  | 0x23 => rz (a == 0 && b == 0) (.barv d (fld w 0 6))
  | 0x24 => rz (d == 0 && a == 0 && b == 0) (.bdrop (fld w 0 6))
  | 0x25 => il (w / 2 ^ 6 % 8 ≤ 4) (rz (d == 0 && fld w 9 2 == 0) (.binit (fld w 6 3) a (fld w 0 6)))
  | 0x28 => il (leasePort.toNat < 3 && w % 8 < 6) (rz (d == 0 && a == 0 && fld w 5 6 == 0) (.lease leasePort (fld w 0 3)))
  | 0x29 => il (leasePort.toNat < 3) (rz (d == 0 && a == 0 && fld w 5 6 == 0 && w % 8 == 0) (.rel leasePort))
  | 0x2A => il (leasePort.toNat < 3) (rz (a == 0 && fld w 5 6 == 0 && w % 8 == 0) (.lqry d leasePort))
  | 0x2B => il (leasePort.toNat < 3) (rz (d == 0 && a == 0 && fld w 5 6 == 0 && w % 8 == 0) (.lwait leasePort))
  | 0x30 => il (w % 4 != 0) (.ok (.probe (.ofCode (w % 4)) d h a b))
  | 0x31 => rz (a == 0 && b == 0 && w % 4 == 0) (.probew d h)
  | 0x32 => rz (d == 0 && a == 0 && b == 0 && w % 4 == 0) (.hrel h)
  | 0x34 => rz (b == 0 && w % 4 == 0) (.ldh d h a)
  | 0x35 => rz (d == 0 && w % 4 == 0) (.sth b h a)
  | 0x36 => .ok (.sld d a (fld w 0 11))
  | 0x37 => .ok (.sst d a (fld w 0 11))
  | 0x38 => rz (d == 0) (.lpatch a b (fld w 0 6))
  | 0x39 => rz (d == 0 && b == 0 && fld w 0 6 == 0) (.larm a)
  | 0x3C => rz (d == 0) (.trap off)
  | 0x3D => rz (fld w 0 21 == 0) .evret
  | 0x3E => rz (a == 0 && b == 0 && w % 8 == 0) (.vany d (fld w 3 3))
  | 0x3F => rz (a == 0 && b == 0 && w % 8 == 0) (.vall d (fld w 3 3))
  | _ => .illegal

/-- A five-bit field that names a k register must hold 0 in its bits [4:3] (R80). -/
def kOk (r : Reg) : Bool := r.toNat < 8
/-- The k register that such a field names. -/
def kOf (r : Reg) : KReg := BitVec.ofNat 3 r.toNat

/-- Class V (R96). -/
def decodeV (w : Nat) : Decoded :=
  let d : Reg := fld w 16 5; let a : Reg := fld w 11 5; let b : Reg := fld w 6 5; let k : KReg := fld w 3 3
  let m := w % 8; let sz := Sz.ofCode m; let isz := Sz.ofCode (w / 2 ^ 9 % 4); let n : BitVec 6 := fld w 0 6
  let rrr (i : Instr) := il (m < 4) (.ok i)
  let sh (i : Instr) := il (n.toNat < isz.width) (rz (fld w 6 3 == 0) i)
  match w / 2 ^ 21 % 128 with
  | 0x00 => rrr (.vadd sz d a b k)
  | 0x01 => rrr (.vsub sz d a b k)
  | 0x02 => rrr (.vmul sz d a b k)
  | 0x03 => rrr (.vmulh sz d a b k)
  | 0x04 => rrr (.vmulhu sz d a b k)
  | 0x05 => rrr (.vand sz d a b k)
  | 0x06 => rrr (.vor sz d a b k)
  | 0x07 => rrr (.vxor sz d a b k)
  | 0x08 => rrr (.vandn sz d a b k)
  | 0x09 => rrr (.vshl sz d a b k)
  | 0x0A => rrr (.vshr sz d a b k)
  | 0x0B => rrr (.vsar sz d a b k)
  | 0x0C => rrr (.vrot sz d a b k)
  | 0x0D => rrr (.vmin sz d a b k)
  | 0x0E => rrr (.vmax sz d a b k)
  | 0x0F => rrr (.vminu sz d a b k)
  | 0x10 => rrr (.vmaxu sz d a b k)
  | 0x11 => rrr (.vabsd sz d a b k)
  | 0x12 => rrr (.vaddsat sz d a b k)
  | 0x13 => rrr (.vsubsat sz d a b k)
  | 0x14 => il (m < 4) (rz (kOk d) (.vcmpeq sz (kOf d) a b k))
  | 0x15 => il (m < 4) (rz (kOk d) (.vcmplt sz (kOf d) a b k))
  | 0x16 => il (m < 4) (rz (kOk d) (.vcmpltu sz (kOf d) a b k))
  | 0x17 => rrr (.vsel sz d a b k)
  | 0x18 => rrr (.vbfx sz d a b k)
  | 0x19 => rrr (.vbfxs sz d a b k)
  | 0x1A => rrr (.vbfi sz d a b k)
  | 0x1B => rrr (.vfsh sz d a b k)
  | 0x1C => il (m < 4) (rz (b == 0) (.vclz sz d a k))
  | 0x1D => il (m < 4) (rz (b == 0) (.vpopc sz d a k))
  | 0x1E => il (m < 4) (rz (b == 0) (.vrev sz d a k))
  | 0x1F => il (m < 4) (rz (b == 0) (.vbswap sz d a k))
  | 0x20 => .ok (.vaddi isz d a (fld w 0 9))
  | 0x21 => .ok (.vandi isz d a (fld w 0 9))
  | 0x22 => .ok (.vori isz d a (fld w 0 9))
  | 0x23 => .ok (.vxori isz d a (fld w 0 9))
  | 0x24 => sh (.vshli isz d a n)
  | 0x25 => sh (.vshri isz d a n)
  | 0x26 => sh (.vsari isz d a n)
  | 0x27 => il (w / 2 ^ 5 % 64 + w % 32 + 1 ≤ 64) (.ok (.vbfxi d a (fld w 5 6) (fld w 0 5)))
  | 0x28 => .ok (.vfshi d a b n)
  | 0x29 => .ok (.vmovi d (fld w 0 16))
  | 0x2A => rz (a == 0 && b == 0 && k == 0 && m == 0) (.vlid d)
  | 0x2B => il (m < 4) (rz (b == 0) (.vbcs sz d a k))
  | 0x30 => rz (kOk d && kOk a && kOk b && k == 0 && m == 0) (.kand (kOf d) (kOf a) (kOf b))
  | 0x31 => rz (kOk d && kOk a && kOk b && k == 0 && m == 0) (.kor (kOf d) (kOf a) (kOf b))
  | 0x32 => rz (kOk d && kOk a && kOk b && k == 0 && m == 0) (.kxor (kOf d) (kOf a) (kOf b))
  | 0x33 => rz (kOk d && kOk a && b == 0 && k == 0 && m == 0) (.knot (kOf d) (kOf a))
  | 0x34 => rz (kOk d && kOk a && b == 0 && k == 0 && m == 0) (.kmov (kOf d) (kOf a))
  | 0x35 => rz (kOk d && a == 0 && b == 0 && k == 0 && m < 2) (.kset (kOf d) (m == 1))
  | 0x36 => rz (kOk d && b == 0 && k == 0 && m == 0) (.vmask (kOf d) a)
  | _ => .illegal

/-- Class F (R97). -/
def decodeF (w : Nat) : Decoded :=
  let d : Reg := fld w 16 5; let a : Reg := fld w 11 5; let b : Reg := fld w 6 5; let k : KReg := fld w 3 3
  let m := w % 8; let f := FFmt.ofCode m
  let src := w / 2 ^ 6 % 8; let sat := w / 2 ^ 10 % 2 == 1; let b9 := w / 2 ^ 9 % 2 == 0
  let ar (i : Instr) := il (m < 4) (.ok i)
  let ar1 (i : Instr) := il (m < 4) (rz (b == 0) i)
  let fn (i : Instr) := il (1 ≤ m && m ≤ 3) (rz (b == 0) i)
  match w / 2 ^ 21 % 128 with
  | 0x00 => ar (.vfadd f d a b k)
  | 0x01 => ar (.vfsub f d a b k)
  | 0x02 => ar (.vfmul f d a b k)
  | 0x03 => ar (.vfma f d a b k)
  | 0x04 => ar (.vfms f d a b k)
  | 0x05 => ar (.vfnma f d a b k)
  | 0x06 => ar (.vfmin f d a b k)
  | 0x07 => ar (.vfmax f d a b k)
  | 0x08 => ar1 (.vfabs f d a k)
  | 0x09 => ar1 (.vfneg f d a k)
  | 0x0A => il (m < 4) (rz (kOk d) (.vfcmpeq f (kOf d) a b k))
  | 0x0B => il (m < 4) (rz (kOk d) (.vfcmplt f (kOf d) a b k))
  | 0x0C => il (m < 4) (rz (kOk d) (.vfcmple f (kOf d) a b k))
  | 0x0D => il (m < 4) (rz (kOk d) (.vfcmpun f (kOf d) a b k))
  | 0x0E => ar1 (.vfclass f d a k)
  | 0x10 => fn (.vfrcp f d a k)
  | 0x11 => fn (.vfrsq f d a k)
  | 0x12 => fn (.vfexp2 f d a k)
  | 0x13 => fn (.vflog2 f d a k)
  | 0x14 => il (m < 2) (.ok (.vfscl f d a b k))
  | 0x15 => il (w / 2 ^ 9 % 4 < 2) (.ok (.vfscli (.ofCode (w / 2 ^ 9 % 4)) d a (fld w 0 9)))
  | 0x18 => il (m < 6 && src < 6) (rz b9 (.vfcvt f (.ofCode src) sat d a k))
  | 0x19 => il (m < 6 && src < 5) (rz b9 (.vfcvti (.ofCode src) f sat d a k))
  | 0x1A => il (m < 6 && src < 5) (rz b9 (.vfcvtf f (.ofCode src) sat d a k))
  | 0x1C => il (2 ≤ m && m < 7) (.ok (.vfdot f d a b k))
  | 0x1E => il (m < 4 && src != 5 && src != 6) (rz (fld w 9 2 == 0) (.vfrnd f (fld w 6 3) d a k))
  | _ => .illegal

/-- Class M (R98). -/
def decodeM (w : Nat) : Decoded :=
  let d : Reg := fld w 16 5; let a : Reg := fld w 11 5; let b : Reg := fld w 6 5; let k : KReg := fld w 3 3
  let m := w % 8; let n : BitVec 3 := fld w 0 3
  let ad (i : Instr) := rz (m == 0) i
  match w / 2 ^ 21 % 128 with
  | 0x00 => ad (.ldr d a b k)
  | 0x01 => ad (.ldrs d a b k)
  | 0x02 => ad (.str d a b k)
  | 0x03 => ad (.strs d a b k)
  | 0x04 => ad (.lds d a b k)
  | 0x05 => ad (.sts d a b k)
  | 0x06 => ad (.ldp d a b k)
  | 0x07 => ad (.stp d a b k)
  | 0x08 => ad (.ldx d a b k)
  | 0x09 => ad (.stx d a b k)
  | 0x0A => .ok (.ldf n d a b k)
  | 0x0B => .ok (.stf n d a b k)
  | 0x0C => rz (b == 0) (.rmg d a n k)
  | 0x0D => ad (.rmgv d a b k)
  | 0x10 => .ok (.atm (.ofCode m) d a b k)
  | 0x11 => ad (.atmc d a b k)
  | 0x12 => rz (b == 0 && m == 0) (.atmz d a k)
  | 0x18 => il (m < 3) (rz (b == 0) (.cvta (.ofCode m) d a k))
  | 0x19 => il (m < 3) (rz (b == 0) (.cvtw (.ofCode m) d a k))
  | 0x1A => il (m < 3) (rz (kOk d && b == 0) (.isw (.ofCode m) (kOf d) a k))
  | _ => .illegal

/-- Class X (R99). -/
def decodeX (w : Nat) : Decoded :=
  let d : Reg := fld w 16 5; let a : Reg := fld w 11 5; let b : Reg := fld w 6 5; let k : KReg := fld w 3 3
  let m := w % 8; let n : BitVec 3 := fld w 0 3
  match w / 2 ^ 21 % 128 with
  | 0x00 => il (w % 4 != 3) (rz (b == 0) (.tws (w / 4 % 2 == 1) (.ofCode (w % 4)) d a k))
  | 0x01 => rz (fld w 10 1 == 0 && m == 0) (.twsl d a (fld w 6 4) k)
  | 0x02 => rz (b == 0) (.twb d a n k)
  | 0x03 => rz (b == 0 && k == 0) (.twr (.ofCode m) d a)
  | 0x04 => rz (k == 0 && m == 0) (.vtos d a b)
  | 0x05 => rz (b == 0) (.vred (.ofCode m) d a k)
  | 0x08 => rz (d == 0) (.gzs n a b k)
  | 0x09 => rz (a == 0) (.gzr n d b k)
  | 0x0A => rz (a == 0 && k == 0) (.gzp n d b)
  | 0x0C => rz (m == 0) (.lperm d a b k)
  | _ => .illegal

/-- Class P: the lead syllables (R85) and the system syllables (R100). -/
def decodeP (w : Nat) : Decoded :=
  let d : Reg := fld w 16 5; let v : BitVec 16 := fld w 0 16
  let csr : BitVec 12 := fld w 0 12
  let op := w / 2 ^ 21 % 128
  if op / 8 == 1 then .ok (.lit (fld w 0 24)) else
  match op with
  | 0x00 => rz (fld w 8 12 == 0) (.gap (w / 2 ^ 20 % 2 == 1) (fld w 0 8))
  | 0x01 => rz (fld w 20 1 == 0) (.rep (fld w 12 8) (fld w 0 12))
  | 0x02 => rz (fld w 20 1 == 0) (.seg (fld w 0 20))
  | 0x03 => rz (d == 0) (.sigl v)
  | 0x04 => rz (d == 0) (.sigh v)
  | 0x10 => il (csrAssigned csr.toNat) (rz (fld w 12 4 == 0) (.csrr d csr))
  | 0x11 => il (csrAssigned csr.toNat) (rz (fld w 12 4 == 0) (.csrw csr d))
  | 0x12 => il (csrAssigned csr.toNat) (rz (fld w 12 4 == 0) (.csrs csr d))
  | 0x13 => il (csrAssigned csr.toNat) (rz (fld w 12 4 == 0) (.csrc csr d))
  | 0x14 => rz (fld w 0 21 == 0) .eret
  | 0x15 => rz (fld w 0 21 == 0) .halt
  | 0x16 => rz (d == 0) (.bkpt v)
  | 0x17 => il (w / 2 ^ 4 % 8 < 4) (rz (d == 0 && fld w 7 9 == 0 && fld w 3 1 == 0) (.clkdiv (fld w 4 3) (fld w 0 3)))
  | 0x18 => rz (fld w 6 10 == 0) (.fmtw (fld w 0 6) d)
  | 0x19 => il (1 ≤ w % 8 && w % 8 ≤ 4) (rz (fld w 3 18 == 0) (.refdefer (fld w 0 3)))
  | 0x1A => rz (v == 0) (.hinv d)
  | 0x1B => rz (fld w 0 21 == 0) .bswap
  | 0x1C => rz (fld w 0 21 == 0) .nop
  | 0x1D => rz (fld w 0 21 == 0) .wfe
  | _ => .illegal

/-- An OP word of the kind bound to its port (R91, R235, R244, R260, R269, R275, R280, R283). -/
noncomputable def decodeOp (kind : Nat) (p : Port) (op md : Nat) : Decoded :=
  let bad := Decoded.engJob p 2
  let m0 (i : Instr) := if md == 0 then .ok i else bad
  let m1 (i : Instr) := if md < 2 then .ok i else bad
  let m3 (i : Instr) := if md < 8 then .ok i else bad
  let slot : BitVec 3 := fld md 0 3
  let bit (n : Nat) : Bool := md / 2 ^ n % 2 == 1
  match kind, op with
  | 6, 0x00 => m0 .cpRr
  | 6, 0x01 => m0 .cpGt
  | 6, 0x02 => m0 .cpTr
  | 6, 0x03 => m0 .cpRt
  | 6, 0x04 => m0 .cpGs
  | 6, 0x05 => m0 .cpSg
  | 6, 0x06 => m0 .cpBc
  | 6, 0x07 => m0 .cpFill
  | 6, 0x3F => m0 .cpSwp
  | 0, 0x00 => m0 (.mxZero p)
  | 0, 0x01 => m0 (.mxLda p)
  | 0, 0x02 => m0 (.mxLdb p)
  | 0, 0x03 => if md < 128 then .ok (.mxMm p slot (fld md 3 3) (bit 6)) else bad
  | 0, 0x04 => m0 (.mxPs p)
  | 0, 0x05 => m1 (.mxSt p (bit 0))
  | 0, 0x06 => m1 (.mxSv p (bit 0))
  | 0, 0x07 => m0 (.mxRs p)
  | 0, 0x08 => m0 (.mxChk p)
  | 0, 0x09 => m0 (.mxRp p)
  | 1, 0x00 => m3 (.gxCfg p slot)
  | 1, 0x01 => m1 (.gxGth p (bit 0))
  | 1, 0x02 => m1 (.gxBag p (bit 0))
  | 1, 0x03 => m1 (.gxSca p (bit 0))
  | 1, 0x04 => m1 (.gxStat p (bit 0))
  | 2, 0x00 => m0 (.txLoad p)
  | 2, 0x01 => m1 (.txGo p (bit 0))
  | 2, 0x02 => m1 (.txStop p (bit 0))
  | 3, 0x00 => m0 (.cdCmp p)
  | 3, 0x01 => m0 (.cdExp p)
  | 3, 0x02 => m0 (.cdHash p)
  | 3, 0x03 => m1 (.cdDelta p (bit 0))
  | 4, 0x00 => m3 (.sfExp p slot)
  | 4, 0x01 => m3 (.sfSmx p slot)
  | 4, 0x02 => if md < 32 then .ok (.sfNrm p slot (bit 3) (bit 4)) else bad
  | 4, 0x03 => m3 (.sfRsq p slot)
  | 4, 0x04 => m3 (.sfGelu p slot)
  | 5, 0x00 => if md < 16 then .ok (.ksTopk p slot (bit 3)) else bad
  | 5, 0x01 => if md < 32 then .ok (.ksSort p slot (bit 3) (bit 4)) else bad
  | _, _ => .illegal

/-- Class G (R79, R91, R92). `kinds` is LEASESTAT.KIND of each port; a word to an unbound port is an ENGJOB (R20).
A stack word whose [9:0] holds anything but what R92 lists is ILLEGAL, by R91, and not RESERVED (log 66). -/
noncomputable def decodeG (kinds : Nat → Nat) (w : Nat) : Decoded :=
  let p : Port := fld w 26 2
  let e := w % 2 ^ 16
  let kind := kinds p.toNat
  let low := e % 1024
  let st (c : Bool) (i : Instr) : Decoded := il c (rz (fld w 16 10 == 0) i)
  let r : Decoded :=
    if e / 2 ^ 14 == 0 then rz (fld w 16 10 == 0) (.push p (fld e 0 14))
    else if e / 2 ^ 14 == 1 then rz (fld w 16 10 == 0) (.ext p (fld e 0 14))
    else if e / 2 ^ 14 == 2 then
      if kind == 7 then rz (fld w 16 10 == 0) (.push p 0)
      else match decodeOp kind p (e / 256 % 64) (e % 256) with
        | .ok i => rz (fld w 16 10 == 0) i
        | .engJob q n => if fld w 16 10 == 0 then .engJob q n else .reserved
        | r => r
    else match e / 1024 % 16 with
      | 0 => st (low == 0) (.dup p)
      | 1 => st (low == 0) (.drop p)
      | 2 => st (low == 0) (.swap p)
      | 3 => st (low == 0) (.over p)
      | 4 => st (low == 0) (.stackRot p)
      | 5 => st (low == 0) (.clr p)
      | 6 => st (low < 32) (.pushs p (fld e 0 5))
      | 7 => st (low < 8) (.setstr p (fld e 0 3))
      | _ => .illegal
  match r with
  | .ok i => if kind == 7 then .engJob p 1 else .ok i
  | r => r

/-- A syllable (R78). The E bit marks the bundle's end and is no part of the instruction. -/
noncomputable def decodeSyl (kinds : Nat → Nat) (w : Nat) : Decoded :=
  match w / 2 ^ 28 % 8 with
  | 0 => decodeS w
  | 1 => decodeC w
  | 2 => decodeV w
  | 3 => decodeF w
  | 4 => decodeM w
  | 5 => decodeX w
  | 6 => decodeG kinds w
  | _ => decodeP w

/-- A TXS instruction (R285); `none` is the fault ILLOP (R291). -/
noncomputable def decodeTxs (w : Nat) : Option Instr :=
  let g : BitVec 3 := fld w 24 3; let f : BitVec 3 := fld w 21 3; let wd : BitVec 5 := fld w 0 5
  let need (c : Bool) (i : Instr) : Option Instr := if c then some i else none
  match w / 2 ^ 27 % 32 with
  | 0x00 => need (w % 2 ^ 27 == 0) .tnop
  | 0x01 => if w / 2 ^ 26 % 2 == 0 then some (.tloopCount (fld w 0 26))
            else need (fld w 5 21 == 0) (.tloopWord wd)
  | 0x02 => need (w % 2 ^ 27 == 0) .tend
  | 0x03 => if w / 2 ^ 20 % 2 == 0 then some (.agenImm g f (fld w 0 20))
            else need (fld w 5 15 == 0) (.agenWord g f wd)
  | 0x04 => if w / 2 ^ 20 % 2 == 0 then some (.movLen g f (fld w 0 20))
            else need (fld w 5 15 == 0) (.movWord g f wd)
  | 0x05 => need (fld w 0 19 == 0) (.movt g f (fld w 19 2))
  | 0x06 => if w / 2 ^ 17 % 2 == 0 then some (.movcSl g f (fld w 18 3) (fld w 0 17))
            else some (.movcLs g f (fld w 18 3) (fld w 0 17))
  | 0x07 => some (.pad g (fld w 19 5) (fld w 0 19))
  | 0x08 => need (fld w 0 19 == 0) (.twait (fld w 19 8))
  | 0x09 => need (fld w 0 19 == 0) (.tsig (fld w 19 8))
  | 0x0A => need (fld w 12 15 == 0) (.tjmp (fld w 0 12))
  | 0x0B => need (w % 2 ^ 27 == 0) .thalt
  | _ => none

/-- LEASESTAT.KIND of the ports of a weave that holds no lease: port 3 is the copy engine (R45). -/
def unleasedKinds (p : Nat) : Nat := if p == 3 then 6 else 7

/-- The instruction of one 32-bit word standing alone. A syllable that is a bundle of its own carries E = 1 in bit 31
(R78); every assigned TXS opcode has bit 31 clear (R285), so bit 31 tells the two word sets apart. -/
noncomputable def decodeTableWord (nbits w : Nat) : Option Instr :=
  if nbits = 32 then
    if w / 2 ^ 31 % 2 = 1 then
      match decodeSyl unleasedKinds w with
      | .ok i => some i
      | _ => none
    else decodeTxs w
  else none

/-! ## The encoder -/

/-- RRR (R79): class, opcode, d, a, b, k, m. -/
def encRRR (cls op d a b k m : Nat) : Nat :=
  cls * 2 ^ 28 + op * 2 ^ 21 + d * 2 ^ 16 + a * 2 ^ 11 + b * 2 ^ 6 + k * 2 ^ 3 + m
/-- RRI (R79): an eleven-bit low field. -/
def encRRI (cls op d a imm : Nat) : Nat := cls * 2 ^ 28 + op * 2 ^ 21 + d * 2 ^ 16 + a * 2 ^ 11 + imm
/-- RI16 and BR (R79): a sixteen-bit low field. -/
def encRI16 (cls op d imm : Nat) : Nat := cls * 2 ^ 28 + op * 2 ^ 21 + d * 2 ^ 16 + imm
/-- RRH (R79). -/
def encRRH (op d a b h p : Nat) : Nat := encRRR 1 op d a b 0 0 + h * 4 + p
/-- G (R79): port and engine word. -/
def encG (p : Port) (e : Nat) : Nat := 6 * 2 ^ 28 + p.toNat * 2 ^ 26 + e
/-- An OP word (R91). -/
def encOp (p : Port) (op md : Nat) : Nat := encG p (2 * 2 ^ 14 + op * 256 + md)
/-- A stack word (R92). -/
def encStack (p : Port) (sub low : Nat) : Nat := encG p (3 * 2 ^ 14 + sub * 1024 + low)
/-- A TXS word (R285). -/
def encT (op rest : Nat) : Nat := op * 2 ^ 27 + rest

def b2n (b : Bool) : Nat := if b then 1 else 0

/-- The syllable of an instruction that a syllable encodes, with E = 0 (R78 to R100). Rows that no syllable encodes
have none. -/
def encode : Instr → Option Nat
  | .add d a b => some (encRRR 0 0x00 d.toNat a.toNat b.toNat 0 0)
  | .sub d a b => some (encRRR 0 0x01 d.toNat a.toNat b.toNat 0 0)
  | .and d a b => some (encRRR 0 0x02 d.toNat a.toNat b.toNat 0 0)
  | .or d a b => some (encRRR 0 0x03 d.toNat a.toNat b.toNat 0 0)
  | .xor d a b => some (encRRR 0 0x04 d.toNat a.toNat b.toNat 0 0)
  | .andn d a b => some (encRRR 0 0x05 d.toNat a.toNat b.toNat 0 0)
  | .shl d a b => some (encRRR 0 0x06 d.toNat a.toNat b.toNat 0 0)
  | .shr d a b => some (encRRR 0 0x07 d.toNat a.toNat b.toNat 0 0)
  | .sar d a b => some (encRRR 0 0x08 d.toNat a.toNat b.toNat 0 0)
  | .rot d a b => some (encRRR 0 0x09 d.toNat a.toNat b.toNat 0 0)
  | .mul d a b => some (encRRR 0 0x0a d.toNat a.toNat b.toNat 0 0)
  | .mulh d a b => some (encRRR 0 0x0b d.toNat a.toNat b.toNat 0 0)
  | .mulhu d a b => some (encRRR 0 0x0c d.toNat a.toNat b.toNat 0 0)
  | .min d a b => some (encRRR 0 0x0d d.toNat a.toNat b.toNat 0 0)
  | .max d a b => some (encRRR 0 0x0e d.toNat a.toNat b.toNat 0 0)
  | .minu d a b => some (encRRR 0 0x0f d.toNat a.toNat b.toNat 0 0)
  | .maxu d a b => some (encRRR 0 0x10 d.toNat a.toNat b.toNat 0 0)
  | .slt d a b => some (encRRR 0 0x11 d.toNat a.toNat b.toNat 0 0)
  | .sltu d a b => some (encRRR 0 0x12 d.toNat a.toNat b.toNat 0 0)
  | .seq d a b => some (encRRR 0 0x13 d.toNat a.toNat b.toNat 0 0)
  | .sne d a b => some (encRRR 0 0x14 d.toNat a.toNat b.toNat 0 0)
  | .sel d a b c => some (encRRR 0 0x15 d.toNat a.toNat b.toNat 0 0 + c.toNat)
  | .clz d a => some (encRRR 0 0x16 d.toNat a.toNat 0 0 0)
  | .ctz d a => some (encRRR 0 0x17 d.toNat a.toNat 0 0 0)
  | .popc d a => some (encRRR 0 0x18 d.toNat a.toNat 0 0 0)
  | .bfx d a b => some (encRRR 0 0x19 d.toNat a.toNat b.toNat 0 0)
  | .bfxs d a b => some (encRRR 0 0x1a d.toNat a.toNat b.toNat 0 0)
  | .bfi d a b => some (encRRR 0 0x1b d.toNat a.toNat b.toNat 0 0)
  | .fsh d a b c => some (encRRR 0 0x1c d.toNat a.toNat b.toNat 0 0 + c.toNat)
  | .fshi d a b n => some (encRRR 0 0x1d d.toNat a.toNat b.toNat 0 0 + n.toNat)
  | .addi d a imm => some (encRRI 0 0x20 d.toNat a.toNat imm.toNat)
  | .andi d a imm => some (encRRI 0 0x21 d.toNat a.toNat imm.toNat)
  | .ori d a imm => some (encRRI 0 0x22 d.toNat a.toNat imm.toNat)
  | .xori d a imm => some (encRRI 0 0x23 d.toNat a.toNat imm.toNat)
  | .shli d a n => some (encRRI 0 0x24 d.toNat a.toNat n.toNat)
  | .shri d a n => some (encRRI 0 0x25 d.toNat a.toNat n.toNat)
  | .sari d a n => some (encRRI 0 0x26 d.toNat a.toNat n.toNat)
  | .slti d a imm => some (encRRI 0 0x27 d.toNat a.toNat imm.toNat)
  | .sltiu d a imm => some (encRRI 0 0x28 d.toNat a.toNat imm.toNat)
  | .movi d imm => some (encRI16 0 0x30 d.toNat imm.toNat)
  | .movhi d imm => some (encRI16 0 0x31 d.toNat imm.toNat)
  | .rdli d l => some (encRRI 0 0x33 d.toNat 0 l.toNat)
  | .rdlc d l => some (encRRI 0 0x34 d.toNat 0 l.toNat)
  | .j off => some (encRI16 1 0x00 0 off.toNat)
  | .call a off => some (encRI16 1 0x01 a.toNat off.toNat)
  | .jr a off => some (encRI16 1 0x02 a.toNat off.toNat)
  | .ret a => some (encRI16 1 0x03 a.toNat 0)
  | .bz a off => some (encRI16 1 0x04 a.toNat off.toNat)
  | .bnz a off => some (encRI16 1 0x05 a.toNat off.toNat)
  | .beq d a off => some (encRRI 1 0x06 d.toNat a.toNat off.toNat)
  | .bne d a off => some (encRRI 1 0x07 d.toNat a.toNat off.toNat)
  | .blt d a off => some (encRRI 1 0x08 d.toNat a.toNat off.toNat)
  | .bge d a off => some (encRRI 1 0x09 d.toNat a.toNat off.toNat)
  | .bltu d a off => some (encRRI 1 0x0a d.toNat a.toNat off.toNat)
  | .bgeu d a off => some (encRRI 1 0x0b d.toNat a.toNat off.toNat)
  | .loop a off => some (encRI16 1 0x10 a.toNat off.toNat)
  | .loopi count off => some (1 * 2 ^ 28 + 0x11 * 2 ^ 21 + count.toNat * 2 ^ 11 + off.toNat)
  | .lbrk c a => some (encRRR 1 0x12 0 a.toNat 0 0 c.code)
  | .swait a sem => some (encRRI 1 0x18 0 a.toNat sem.toNat)
  | .ssig a sem => some (encRRI 1 0x19 0 a.toNat sem.toNat)
  | .sinit a sem => some (encRRI 1 0x1c 0 a.toNat sem.toNat)
  | .snote sem => some (encRRI 1 0x1a 0 0 sem.toNat)
  | .sread d sem => some (encRRI 1 0x1b d.toNat 0 sem.toNat)
  | .phase sc mask => some (1 * 2 ^ 28 + 0x20 * 2 ^ 21 + sc.toNat * 2 ^ 18 + mask.toNat)
  | .realign c n => some (1 * 2 ^ 28 + 0x21 * 2 ^ 21 + b2n c * 2 ^ 20 + n.toNat)
  | .barr n => some (encRRI 1 0x22 0 0 n.toNat)
  | .barv d n => some (encRRI 1 0x23 d.toNat 0 n.toNat)
  | .bdrop n => some (encRRI 1 0x24 0 0 n.toNat)
  | .binit sc a n => some (encRRI 1 0x25 0 a.toNat (sc.toNat * 2 ^ 6 + n.toNat))
  | .lease p k => some (encRRI 1 0x28 0 0 (p.toNat * 8 + k.toNat))
  | .rel p => some (encRRI 1 0x29 0 0 (p.toNat * 8))
  | .lqry d p => some (encRRI 1 0x2a d.toNat 0 (p.toNat * 8))
  | .lwait p => some (encRRI 1 0x2b 0 0 (p.toNat * 8))
  | .probe pm d h a b => some (encRRH 0x30 d.toNat a.toNat b.toNat h.toNat pm.code)
  | .probew d h => some (encRRH 0x31 d.toNat 0 0 h.toNat 0)
  | .hrel h => some (encRRH 0x32 0 0 0 h.toNat 0)
  | .ldh d h a => some (encRRH 0x34 d.toNat a.toNat 0 h.toNat 0)
  | .sth b h a => some (encRRH 0x35 0 a.toNat b.toNat h.toNat 0)
  | .sld d a off => some (encRRI 1 0x36 d.toNat a.toNat off.toNat)
  | .sst d a off => some (encRRI 1 0x37 d.toNat a.toNat off.toNat)
  | .lpatch a b f => some (encRRR 1 0x38 0 a.toNat b.toNat 0 0 + f.toNat)
  | .larm a => some (encRRR 1 0x39 0 a.toNat 0 0 0)
  | .trap c => some (encRI16 1 0x3c 0 c.toNat)
  | .evret => some (encRI16 1 0x3d 0 0)
  | .vany d k => some (encRRR 1 0x3e d.toNat 0 0 k.toNat 0)
  | .vall d k => some (encRRR 1 0x3f d.toNat 0 0 k.toNat 0)
  | .csrr d c => some (encRI16 7 0x10 d.toNat c.toNat)
  | .csrw c a => some (encRI16 7 0x11 a.toNat c.toNat)
  | .csrs c a => some (encRI16 7 0x12 a.toNat c.toNat)
  | .csrc c a => some (encRI16 7 0x13 a.toNat c.toNat)
  | .eret => some (encRI16 7 0x14 0 0)
  | .halt => some (encRI16 7 0x15 0 0)
  | .bkpt c => some (encRI16 7 0x16 0 c.toNat)
  | .clkdiv u dv => some (encRI16 7 0x17 0 (u.toNat * 16 + dv.toNat))
  | .fmtw i a => some (encRI16 7 0x18 a.toNat i.toNat)
  | .refdefer n => some (encRI16 7 0x19 0 n.toNat)
  | .hinv a => some (encRI16 7 0x1a a.toNat 0)
  | .bswap => some (encRI16 7 0x1b 0 0)
  | .nop => some (encRI16 7 0x1c 0 0)
  | .wfe => some (encRI16 7 0x1d 0 0)
  | .gap mk g => some (7 * 2 ^ 28 + b2n mk * 2 ^ 20 + g.toNat)
  | .rep mask n1 => some (7 * 2 ^ 28 + 0x01 * 2 ^ 21 + mask.toNat * 2 ^ 12 + n1.toNat)
  | .seg e => some (7 * 2 ^ 28 + 0x02 * 2 ^ 21 + e.toNat)
  | .sigl v => some (encRI16 7 0x03 0 v.toNat)
  | .sigh v => some (encRI16 7 0x04 0 v.toNat)
  | .lit v => some (7 * 2 ^ 28 + 1 * 2 ^ 24 + v.toNat)
  | .vadd sz d a b k => some (encRRR 2 0x00 d.toNat a.toNat b.toNat k.toNat sz.code)
  | .vsub sz d a b k => some (encRRR 2 0x01 d.toNat a.toNat b.toNat k.toNat sz.code)
  | .vmul sz d a b k => some (encRRR 2 0x02 d.toNat a.toNat b.toNat k.toNat sz.code)
  | .vmulh sz d a b k => some (encRRR 2 0x03 d.toNat a.toNat b.toNat k.toNat sz.code)
  | .vmulhu sz d a b k => some (encRRR 2 0x04 d.toNat a.toNat b.toNat k.toNat sz.code)
  | .vand sz d a b k => some (encRRR 2 0x05 d.toNat a.toNat b.toNat k.toNat sz.code)
  | .vor sz d a b k => some (encRRR 2 0x06 d.toNat a.toNat b.toNat k.toNat sz.code)
  | .vxor sz d a b k => some (encRRR 2 0x07 d.toNat a.toNat b.toNat k.toNat sz.code)
  | .vandn sz d a b k => some (encRRR 2 0x08 d.toNat a.toNat b.toNat k.toNat sz.code)
  | .vshl sz d a b k => some (encRRR 2 0x09 d.toNat a.toNat b.toNat k.toNat sz.code)
  | .vshr sz d a b k => some (encRRR 2 0x0a d.toNat a.toNat b.toNat k.toNat sz.code)
  | .vsar sz d a b k => some (encRRR 2 0x0b d.toNat a.toNat b.toNat k.toNat sz.code)
  | .vrot sz d a b k => some (encRRR 2 0x0c d.toNat a.toNat b.toNat k.toNat sz.code)
  | .vmin sz d a b k => some (encRRR 2 0x0d d.toNat a.toNat b.toNat k.toNat sz.code)
  | .vmax sz d a b k => some (encRRR 2 0x0e d.toNat a.toNat b.toNat k.toNat sz.code)
  | .vminu sz d a b k => some (encRRR 2 0x0f d.toNat a.toNat b.toNat k.toNat sz.code)
  | .vmaxu sz d a b k => some (encRRR 2 0x10 d.toNat a.toNat b.toNat k.toNat sz.code)
  | .vabsd sz d a b k => some (encRRR 2 0x11 d.toNat a.toNat b.toNat k.toNat sz.code)
  | .vaddsat sz d a b k => some (encRRR 2 0x12 d.toNat a.toNat b.toNat k.toNat sz.code)
  | .vsubsat sz d a b k => some (encRRR 2 0x13 d.toNat a.toNat b.toNat k.toNat sz.code)
  | .vcmpeq sz d a b k => some (encRRR 2 0x14 d.toNat a.toNat b.toNat k.toNat sz.code)
  | .vcmplt sz d a b k => some (encRRR 2 0x15 d.toNat a.toNat b.toNat k.toNat sz.code)
  | .vcmpltu sz d a b k => some (encRRR 2 0x16 d.toNat a.toNat b.toNat k.toNat sz.code)
  | .vsel sz d a b k => some (encRRR 2 0x17 d.toNat a.toNat b.toNat k.toNat sz.code)
  | .vbfx sz d a b k => some (encRRR 2 0x18 d.toNat a.toNat b.toNat k.toNat sz.code)
  | .vbfxs sz d a b k => some (encRRR 2 0x19 d.toNat a.toNat b.toNat k.toNat sz.code)
  | .vbfi sz d a b k => some (encRRR 2 0x1a d.toNat a.toNat b.toNat k.toNat sz.code)
  | .vfsh sz d a b k => some (encRRR 2 0x1b d.toNat a.toNat b.toNat k.toNat sz.code)
  | .vclz sz d a k => some (encRRR 2 0x1c d.toNat a.toNat 0 k.toNat sz.code)
  | .vpopc sz d a k => some (encRRR 2 0x1d d.toNat a.toNat 0 k.toNat sz.code)
  | .vrev sz d a k => some (encRRR 2 0x1e d.toNat a.toNat 0 k.toNat sz.code)
  | .vbswap sz d a k => some (encRRR 2 0x1f d.toNat a.toNat 0 k.toNat sz.code)
  | .vaddi sz d a imm => some (encRRI 2 0x20 d.toNat a.toNat (sz.code * 2 ^ 9 + imm.toNat))
  | .vandi sz d a imm => some (encRRI 2 0x21 d.toNat a.toNat (sz.code * 2 ^ 9 + imm.toNat))
  | .vori sz d a imm => some (encRRI 2 0x22 d.toNat a.toNat (sz.code * 2 ^ 9 + imm.toNat))
  | .vxori sz d a imm => some (encRRI 2 0x23 d.toNat a.toNat (sz.code * 2 ^ 9 + imm.toNat))
  | .vshli sz d a n => some (encRRI 2 0x24 d.toNat a.toNat (sz.code * 2 ^ 9 + n.toNat))
  | .vshri sz d a n => some (encRRI 2 0x25 d.toNat a.toNat (sz.code * 2 ^ 9 + n.toNat))
  | .vsari sz d a n => some (encRRI 2 0x26 d.toNat a.toNat (sz.code * 2 ^ 9 + n.toNat))
  | .vbfxi d a pos len1 => some (encRRI 2 0x27 d.toNat a.toNat (pos.toNat * 2 ^ 5 + len1.toNat))
  | .vfshi d a b n => some (encRRI 2 0x28 d.toNat a.toNat (b.toNat * 2 ^ 6 + n.toNat))
  | .vmovi d imm => some (encRI16 2 0x29 d.toNat imm.toNat)
  | .vlid d => some (encRRR 2 0x2a d.toNat 0 0 0 0)
  | .vbcs sz d a k => some (encRRR 2 0x2b d.toNat a.toNat 0 k.toNat sz.code)
  | .kand d a b => some (encRRR 2 0x30 d.toNat a.toNat b.toNat 0 0)
  | .kor d a b => some (encRRR 2 0x31 d.toNat a.toNat b.toNat 0 0)
  | .kxor d a b => some (encRRR 2 0x32 d.toNat a.toNat b.toNat 0 0)
  | .knot d a => some (encRRR 2 0x33 d.toNat a.toNat 0 0 0)
  | .kmov d a => some (encRRR 2 0x34 d.toNat a.toNat 0 0 0)
  | .kset d v => some (encRRR 2 0x35 d.toNat 0 0 0 (b2n v))
  | .vmask d a => some (encRRR 2 0x36 d.toNat a.toNat 0 0 0)
  | .vfadd f d a b k => some (encRRR 3 0x00 d.toNat a.toNat b.toNat k.toNat f.code)
  | .vfsub f d a b k => some (encRRR 3 0x01 d.toNat a.toNat b.toNat k.toNat f.code)
  | .vfmul f d a b k => some (encRRR 3 0x02 d.toNat a.toNat b.toNat k.toNat f.code)
  | .vfma f d a b k => some (encRRR 3 0x03 d.toNat a.toNat b.toNat k.toNat f.code)
  | .vfms f d a b k => some (encRRR 3 0x04 d.toNat a.toNat b.toNat k.toNat f.code)
  | .vfnma f d a b k => some (encRRR 3 0x05 d.toNat a.toNat b.toNat k.toNat f.code)
  | .vfmin f d a b k => some (encRRR 3 0x06 d.toNat a.toNat b.toNat k.toNat f.code)
  | .vfmax f d a b k => some (encRRR 3 0x07 d.toNat a.toNat b.toNat k.toNat f.code)
  | .vfabs f d a k => some (encRRR 3 0x08 d.toNat a.toNat 0 k.toNat f.code)
  | .vfneg f d a k => some (encRRR 3 0x09 d.toNat a.toNat 0 k.toNat f.code)
  | .vfcmpeq f d a b k => some (encRRR 3 0x0a d.toNat a.toNat b.toNat k.toNat f.code)
  | .vfcmplt f d a b k => some (encRRR 3 0x0b d.toNat a.toNat b.toNat k.toNat f.code)
  | .vfcmple f d a b k => some (encRRR 3 0x0c d.toNat a.toNat b.toNat k.toNat f.code)
  | .vfcmpun f d a b k => some (encRRR 3 0x0d d.toNat a.toNat b.toNat k.toNat f.code)
  | .vfclass f d a k => some (encRRR 3 0x0e d.toNat a.toNat 0 k.toNat f.code)
  | .vfrcp f d a k => some (encRRR 3 0x10 d.toNat a.toNat 0 k.toNat f.code)
  | .vfrsq f d a k => some (encRRR 3 0x11 d.toNat a.toNat 0 k.toNat f.code)
  | .vfexp2 f d a k => some (encRRR 3 0x12 d.toNat a.toNat 0 k.toNat f.code)
  | .vflog2 f d a k => some (encRRR 3 0x13 d.toNat a.toNat 0 k.toNat f.code)
  | .vfscl f d a b k => some (encRRR 3 0x14 d.toNat a.toNat b.toNat k.toNat f.code)
  | .vfscli f d a e => some (encRRI 3 0x15 d.toNat a.toNat (f.code * 2 ^ 9 + e.toNat))
  | .vfcvt t q sat d a k => some (encRRR 3 0x18 d.toNat a.toNat (b2n sat * 16 + q.code) k.toNat t.code)
  | .vfcvti t q sat d a k => some (encRRR 3 0x19 d.toNat a.toNat (b2n sat * 16 + t.code) k.toNat q.code)
  | .vfcvtf t s sat d a k => some (encRRR 3 0x1a d.toNat a.toNat (b2n sat * 16 + s.code) k.toNat t.code)
  | .vfdot f d a b k => some (encRRR 3 0x1c d.toNat a.toNat b.toNat k.toNat f.code)
  | .vfrnd f md d a k => some (encRRR 3 0x1e d.toNat a.toNat md.toNat k.toNat f.code)
  | .ldr d a o k => some (encRRR 4 0x00 d.toNat a.toNat o.toNat k.toNat 0)
  | .ldrs d a o k => some (encRRR 4 0x01 d.toNat a.toNat o.toNat k.toNat 0)
  | .str d a o k => some (encRRR 4 0x02 d.toNat a.toNat o.toNat k.toNat 0)
  | .strs d a o k => some (encRRR 4 0x03 d.toNat a.toNat o.toNat k.toNat 0)
  | .lds d a o k => some (encRRR 4 0x04 d.toNat a.toNat o.toNat k.toNat 0)
  | .sts d a o k => some (encRRR 4 0x05 d.toNat a.toNat o.toNat k.toNat 0)
  | .ldp d a o k => some (encRRR 4 0x06 d.toNat a.toNat o.toNat k.toNat 0)
  | .stp d a o k => some (encRRR 4 0x07 d.toNat a.toNat o.toNat k.toNat 0)
  | .ldx d a o k => some (encRRR 4 0x08 d.toNat a.toNat o.toNat k.toNat 0)
  | .stx d a o k => some (encRRR 4 0x09 d.toNat a.toNat o.toNat k.toNat 0)
  | .ldf s d a o k => some (encRRR 4 0x0a d.toNat a.toNat o.toNat k.toNat s.toNat)
  | .stf s d a o k => some (encRRR 4 0x0b d.toNat a.toNat o.toNat k.toNat s.toNat)
  | .rmg d a n k => some (encRRR 4 0x0c d.toNat a.toNat 0 k.toNat n.toNat)
  | .rmgv d a b k => some (encRRR 4 0x0d d.toNat a.toNat b.toNat k.toNat 0)
  | .atm op d a b k => some (encRRR 4 0x10 d.toNat a.toNat b.toNat k.toNat op.code)
  | .atmc d a b k => some (encRRR 4 0x11 d.toNat a.toNat b.toNat k.toNat 0)
  | .atmz d a k => some (encRRR 4 0x12 d.toNat a.toNat 0 k.toNat 0)
  | .cvta win d a k => some (encRRR 4 0x18 d.toNat a.toNat 0 k.toNat win.code)
  | .cvtw win d a k => some (encRRR 4 0x19 d.toNat a.toNat 0 k.toNat win.code)
  | .isw win d a k => some (encRRR 4 0x1a d.toNat a.toNat 0 k.toNat win.code)
  | .tws neg e d a k => some (encRRR 5 0x00 d.toNat a.toNat 0 k.toNat (b2n neg * 4 + e.code))
  | .twsl d a n k => some (encRRR 5 0x01 d.toNat a.toNat n.toNat k.toNat 0)
  | .twb d a c k => some (encRRR 5 0x02 d.toNat a.toNat 0 k.toNat c.toNat)
  | .twr op d a => some (encRRR 5 0x03 d.toNat a.toNat 0 0 op.code)
  | .vtos d a b => some (encRRR 5 0x04 d.toNat a.toNat b.toNat 0 0)
  | .vred op d a k => some (encRRR 5 0x05 d.toNat a.toNat 0 k.toNat op.code)
  | .gzs ch a b k => some (encRRR 5 0x08 0 a.toNat b.toNat k.toNat ch.toNat)
  | .gzr ch d b k => some (encRRR 5 0x09 d.toNat 0 b.toNat k.toNat ch.toNat)
  | .gzp ch d b => some (encRRR 5 0x0a d.toNat 0 b.toNat 0 ch.toNat)
  | .lperm d a b k => some (encRRR 5 0x0c d.toNat a.toNat b.toNat k.toNat 0)
  | .push p v => some (encG p v.toNat)
  | .ext p v => some (encG p (2 ^ 14 + v.toNat))
  | .dup p => some (encStack p 0 0)
  | .drop p => some (encStack p 1 0)
  | .swap p => some (encStack p 2 0)
  | .over p => some (encStack p 3 0)
  | .stackRot p => some (encStack p 4 0)
  | .clr p => some (encStack p 5 0)
  | .pushs p n => some (encStack p 6 n.toNat)
  | .setstr p i => some (encStack p 7 i.toNat)
  | .cpRr => some (encOp 3 0x00 0)
  | .cpGt => some (encOp 3 0x01 0)
  | .cpTr => some (encOp 3 0x02 0)
  | .cpRt => some (encOp 3 0x03 0)
  | .cpGs => some (encOp 3 0x04 0)
  | .cpSg => some (encOp 3 0x05 0)
  | .cpBc => some (encOp 3 0x06 0)
  | .cpFill => some (encOp 3 0x07 0)
  | .cpSwp => some (encOp 3 0x3f 0)
  | .mxZero p => some (encOp p 0x00 0)
  | .mxLda p => some (encOp p 0x01 0)
  | .mxLdb p => some (encOp p 0x02 0)
  | .mxMm p sa sb sat => some (encOp p 0x03 (b2n sat * 64 + sb.toNat * 8 + sa.toNat))
  | .mxPs p => some (encOp p 0x04 0)
  | .mxSt p m => some (encOp p 0x05 (b2n m))
  | .mxSv p m => some (encOp p 0x06 (b2n m))
  | .mxRs p => some (encOp p 0x07 0)
  | .mxChk p => some (encOp p 0x08 0)
  | .mxRp p => some (encOp p 0x09 0)
  | .gxCfg p s => some (encOp p 0x00 s.toNat)
  | .gxGth p m => some (encOp p 0x01 (b2n m))
  | .gxBag p m => some (encOp p 0x02 (b2n m))
  | .gxSca p m => some (encOp p 0x03 (b2n m))
  | .gxStat p m => some (encOp p 0x04 (b2n m))
  | .cdCmp p => some (encOp p 0x00 0)
  | .cdExp p => some (encOp p 0x01 0)
  | .cdHash p => some (encOp p 0x02 0)
  | .cdDelta p m => some (encOp p 0x03 (b2n m))
  | .sfExp p s => some (encOp p 0x00 s.toNat)
  | .sfSmx p s => some (encOp p 0x01 s.toNat)
  | .sfNrm p s rms aff => some (encOp p 0x02 (b2n aff * 16 + b2n rms * 8 + s.toNat))
  | .sfRsq p s => some (encOp p 0x03 s.toNat)
  | .sfGelu p s => some (encOp p 0x04 s.toNat)
  | .ksTopk p s mn => some (encOp p 0x00 (b2n mn * 8 + s.toNat))
  | .ksSort p s ds nx => some (encOp p 0x01 (b2n nx * 16 + b2n ds * 8 + s.toNat))
  | .txLoad p => some (encOp p 0x00 0)
  | .txGo p m => some (encOp p 0x01 (b2n m))
  | .txStop p m => some (encOp p 0x02 (b2n m))
  | .swaitServed .. | .collectiveBoundaryCompletion .. | .barrierCompletion .. | .probeWalkCompletion ..
  | .repLaunch .. | .laneAtomicApply .. | .gauzeMessageArrival .. | .launchWordEntry .. | .jobStart ..
  | .jobCompletion .. | .tnop | .tloopCount .. | .tloopWord .. | .tend | .agenImm .. | .agenWord .. | .movLen ..
  | .movWord .. | .movt .. | .movcSl .. | .movcLs .. | .pad .. | .twait .. | .tsig .. | .tjmp .. | .thalt
  | .resultLanding .. | .wavefrontSkewExecution .. | .trapEntry .. | .fatalContextError .. | .userEventEntry ..
  | .latchLanding .. | .evict .. | .graceEnd .. | .leaseGrant .. | .termEnd .. | .drainEnd .. | .leaseHandover ..
  | .leasePromotion .. | .preemptionRequest .. | .preempt .. | .preemptSave .. | .preemptLandingTimeout ..
  | .launchResume .. | .recoveryVerdict .. | .phaseRerun .. | .patrol .. | .hbmPatrol .. | .comparePoint ..
  | .refresh .. | .refreshBlackoutEnd .. | .bankEvacuation .. | .evacuationCommit .. | .spillCommit ..
  | .bankReturn .. | .fieldTestStart .. | .fieldTestCompletion .. | .busSpareTakeover .. | .testOverdue ..
  | .monitorSample .. | .eolRecompute .. | .launch .. | .graph .. | .wait .. | .eventWordPoll .. | .signal ..
  | .dispatch | .headPromotion .. | .launchStart .. | .launchCompletion .. | .preload .. | .tlimitOverrun ..
  | .kernelNode .. | .copyNode .. | .fillNode .. | .eventWaitNode .. | .eventSignalNode .. | .conditionalNode ..
  | .loopNode .. | .loopPredicateRead .. | .graphCompletion .. | .bar2Write .. | .bar2Read ..
  | .doorbellTailWrite .. | .semsig .. | .qstatHaltRestart .. | .contextEntryWrite .. | .damaskAttributeWrite ..
  | .collectiveCancel .. | .firmwareStage .. | .firmwareActivate .. | .debugHaltRequest .. | .debugResume ..
  | .debugStep .. | .debugDataAccess .. | .registerWrite .. | .atomicopRequest .. | .hostReadFailure ..
  | .keyExchange .. | .challenge .. | .measurements .. | .creditAcknowledgement .. | .creditReturn ..
  | .porlenWrite .. | .portRetirement .. | .readRequest .. | .readResponse .. | .reduceWrite ..
  | .semaphoreSignal .. | .collectiveControl .. | .billing .. | .billingSend .. | .collectiveStart ..
  | .collectiveCompletion .. | .clockStepChange .. | .throttleEventEntry .. | .sectorBudgetChange ..
  | .currentTrip .. | .sustainedCurrentLimit | .thermalTrip .. | .thermalTripClear | .coolantSample ..
  | .shutdown .. | .watchdogExpiry | .safeState | .moduleReset .. | .railVoltageSetting .. | .hostSectorRelease .. => none

/-- The word of a TXS instruction (R285). Every other row has none. -/
def encodeTxs : Instr → Option Nat
  | .tnop => some (encT 0x00 0)
  | .tloopCount c => some (encT 0x01 c.toNat)
  | .tloopWord w => some (encT 0x01 (2 ^ 26 + w.toNat))
  | .tend => some (encT 0x02 0)
  | .agenImm g f i => some (encT 0x03 (g.toNat * 2 ^ 24 + f.toNat * 2 ^ 21 + i.toNat))
  | .agenWord g f w => some (encT 0x03 (g.toNat * 2 ^ 24 + f.toNat * 2 ^ 21 + 2 ^ 20 + w.toNat))
  | .movLen d s l => some (encT 0x04 (d.toNat * 2 ^ 24 + s.toNat * 2 ^ 21 + l.toNat))
  | .movWord d s w => some (encT 0x04 (d.toNat * 2 ^ 24 + s.toNat * 2 ^ 21 + 2 ^ 20 + w.toNat))
  | .movt d s z => some (encT 0x05 (d.toNat * 2 ^ 24 + s.toNat * 2 ^ 21 + z.toNat * 2 ^ 19))
  | .movcSl d s f n => some (encT 0x06 (d.toNat * 2 ^ 24 + s.toNat * 2 ^ 21 + f.toNat * 2 ^ 18 + n.toNat))
  | .movcLs d s f n => some (encT 0x06 (d.toNat * 2 ^ 24 + s.toNat * 2 ^ 21 + f.toNat * 2 ^ 18 + 2 ^ 17 + n.toNat))
  | .pad d w r => some (encT 0x07 (d.toNat * 2 ^ 24 + w.toNat * 2 ^ 19 + r.toNat))
  | .twait s => some (encT 0x08 (s.toNat * 2 ^ 19))
  | .tsig s => some (encT 0x09 (s.toNat * 2 ^ 19))
  | .tjmp t => some (encT 0x0a t.toNat)
  | .thalt => some (encT 0x0b 0)
  | .add .. | .sub .. | .and .. | .or .. | .xor .. | .andn .. | .shl .. | .shr .. | .sar .. | .rot .. | .mul ..
  | .mulh .. | .mulhu .. | .min .. | .max .. | .minu .. | .maxu .. | .slt .. | .sltu .. | .seq .. | .sne ..
  | .sel .. | .clz .. | .ctz .. | .popc .. | .bfx .. | .bfxs .. | .bfi .. | .fsh .. | .fshi .. | .addi ..
  | .andi .. | .ori .. | .xori .. | .shli .. | .shri .. | .sari .. | .slti .. | .sltiu .. | .movi .. | .movhi ..
  | .rdli .. | .rdlc .. | .j .. | .call .. | .jr .. | .ret .. | .bz .. | .bnz .. | .beq .. | .bne .. | .blt ..
  | .bge .. | .bltu .. | .bgeu .. | .loop .. | .loopi .. | .lbrk .. | .swait .. | .swaitServed .. | .ssig ..
  | .sinit .. | .snote .. | .sread .. | .phase .. | .collectiveBoundaryCompletion .. | .realign .. | .barr ..
  | .barrierCompletion .. | .barv .. | .bdrop .. | .binit .. | .lease .. | .rel .. | .lqry .. | .lwait ..
  | .probe .. | .probeWalkCompletion .. | .probew .. | .hrel .. | .ldh .. | .sth .. | .sld .. | .sst ..
  | .lpatch .. | .larm .. | .trap .. | .evret | .vany .. | .vall .. | .csrr .. | .csrw .. | .csrs .. | .csrc ..
  | .eret | .halt | .bkpt .. | .clkdiv .. | .fmtw .. | .refdefer .. | .hinv .. | .bswap | .nop | .wfe | .gap ..
  | .rep .. | .repLaunch .. | .seg .. | .sigl .. | .sigh .. | .lit .. | .vadd .. | .vsub .. | .vmul .. | .vmulh ..
  | .vmulhu .. | .vand .. | .vor .. | .vxor .. | .vandn .. | .vshl .. | .vshr .. | .vsar .. | .vrot .. | .vmin ..
  | .vmax .. | .vminu .. | .vmaxu .. | .vabsd .. | .vaddsat .. | .vsubsat .. | .vcmpeq .. | .vcmplt ..
  | .vcmpltu .. | .vsel .. | .vbfx .. | .vbfxs .. | .vbfi .. | .vfsh .. | .vclz .. | .vpopc .. | .vrev ..
  | .vbswap .. | .vaddi .. | .vandi .. | .vori .. | .vxori .. | .vshli .. | .vshri .. | .vsari .. | .vbfxi ..
  | .vfshi .. | .vmovi .. | .vlid .. | .vbcs .. | .kand .. | .kor .. | .kxor .. | .knot .. | .kmov .. | .kset ..
  | .vmask .. | .vfadd .. | .vfsub .. | .vfmul .. | .vfma .. | .vfms .. | .vfnma .. | .vfmin .. | .vfmax ..
  | .vfabs .. | .vfneg .. | .vfcmpeq .. | .vfcmplt .. | .vfcmple .. | .vfcmpun .. | .vfclass .. | .vfrcp ..
  | .vfrsq .. | .vfexp2 .. | .vflog2 .. | .vfscl .. | .vfscli .. | .vfcvt .. | .vfcvti .. | .vfcvtf .. | .vfdot ..
  | .vfrnd .. | .ldr .. | .ldrs .. | .str .. | .strs .. | .lds .. | .sts .. | .ldp .. | .stp .. | .ldx ..
  | .stx .. | .ldf .. | .stf .. | .rmg .. | .rmgv .. | .atm .. | .atmc .. | .atmz .. | .laneAtomicApply ..
  | .cvta .. | .cvtw .. | .isw .. | .tws .. | .twsl .. | .twb .. | .twr .. | .vtos .. | .vred .. | .gzs ..
  | .gauzeMessageArrival .. | .gzr .. | .gzp .. | .lperm .. | .push .. | .ext .. | .dup .. | .drop .. | .swap ..
  | .over .. | .stackRot .. | .clr .. | .pushs .. | .setstr .. | .launchWordEntry .. | .jobStart ..
  | .jobCompletion .. | .cpRr | .cpGt | .cpTr | .cpRt | .cpGs | .cpSg | .cpBc | .cpFill
  | .cpSwp | .mxZero .. | .mxLda .. | .mxLdb .. | .mxMm .. | .mxPs .. | .mxSt .. | .mxSv .. | .mxRs ..
  | .mxChk .. | .mxRp .. | .gxCfg .. | .gxGth .. | .gxBag .. | .gxSca .. | .gxStat .. | .cdCmp .. | .cdExp ..
  | .cdHash .. | .cdDelta .. | .sfExp .. | .sfSmx .. | .sfNrm .. | .sfRsq .. | .sfGelu .. | .ksTopk ..
  | .ksSort .. | .txLoad .. | .txGo .. | .txStop .. | .resultLanding .. | .wavefrontSkewExecution ..
  | .trapEntry .. | .fatalContextError .. | .userEventEntry .. | .latchLanding .. | .evict .. | .graceEnd ..
  | .leaseGrant .. | .termEnd .. | .drainEnd .. | .leaseHandover .. | .leasePromotion .. | .preemptionRequest ..
  | .preempt .. | .preemptSave .. | .preemptLandingTimeout .. | .launchResume .. | .recoveryVerdict ..
  | .phaseRerun .. | .patrol .. | .hbmPatrol .. | .comparePoint .. | .refresh .. | .refreshBlackoutEnd ..
  | .bankEvacuation .. | .evacuationCommit .. | .spillCommit .. | .bankReturn .. | .fieldTestStart ..
  | .fieldTestCompletion .. | .busSpareTakeover .. | .testOverdue .. | .monitorSample .. | .eolRecompute ..
  | .launch .. | .graph .. | .wait .. | .eventWordPoll .. | .signal .. | .dispatch | .headPromotion ..
  | .launchStart .. | .launchCompletion .. | .preload .. | .tlimitOverrun .. | .kernelNode .. | .copyNode ..
  | .fillNode .. | .eventWaitNode .. | .eventSignalNode .. | .conditionalNode .. | .loopNode ..
  | .loopPredicateRead .. | .graphCompletion .. | .bar2Write .. | .bar2Read .. | .doorbellTailWrite ..
  | .semsig .. | .qstatHaltRestart .. | .contextEntryWrite .. | .damaskAttributeWrite .. | .collectiveCancel ..
  | .firmwareStage .. | .firmwareActivate .. | .debugHaltRequest .. | .debugResume .. | .debugStep ..
  | .debugDataAccess .. | .registerWrite .. | .atomicopRequest .. | .hostReadFailure .. | .keyExchange ..
  | .challenge .. | .measurements .. | .creditAcknowledgement .. | .creditReturn .. | .porlenWrite ..
  | .portRetirement .. | .readRequest .. | .readResponse .. | .reduceWrite .. | .semaphoreSignal ..
  | .collectiveControl .. | .billing .. | .billingSend .. | .collectiveStart .. | .collectiveCompletion ..
  | .clockStepChange .. | .throttleEventEntry .. | .sectorBudgetChange .. | .currentTrip ..
  | .sustainedCurrentLimit | .thermalTrip .. | .thermalTripClear | .coolantSample .. | .shutdown ..
  | .watchdogExpiry | .safeState | .moduleReset .. | .railVoltageSetting .. | .hostSectorRelease .. => none

/-- The kind that a port must report for an OP word to be this instruction (R91). -/
def Instr.opKind : Instr → Option (Port × Nat)
  | .cpRr => some (3, 6)
  | .cpGt => some (3, 6)
  | .cpTr => some (3, 6)
  | .cpRt => some (3, 6)
  | .cpGs => some (3, 6)
  | .cpSg => some (3, 6)
  | .cpBc => some (3, 6)
  | .cpFill => some (3, 6)
  | .cpSwp => some (3, 6)
  | .mxZero p => some (p, 0)
  | .mxLda p => some (p, 0)
  | .mxLdb p => some (p, 0)
  | .mxMm p .. => some (p, 0)
  | .mxPs p => some (p, 0)
  | .mxSt p .. => some (p, 0)
  | .mxSv p .. => some (p, 0)
  | .mxRs p => some (p, 0)
  | .mxChk p => some (p, 0)
  | .mxRp p => some (p, 0)
  | .gxCfg p .. => some (p, 1)
  | .gxGth p .. => some (p, 1)
  | .gxBag p .. => some (p, 1)
  | .gxSca p .. => some (p, 1)
  | .gxStat p .. => some (p, 1)
  | .cdCmp p => some (p, 3)
  | .cdExp p => some (p, 3)
  | .cdHash p => some (p, 3)
  | .cdDelta p .. => some (p, 3)
  | .sfExp p .. => some (p, 4)
  | .sfSmx p .. => some (p, 4)
  | .sfNrm p .. => some (p, 4)
  | .sfRsq p .. => some (p, 4)
  | .sfGelu p .. => some (p, 4)
  | .ksTopk p .. => some (p, 5)
  | .ksSort p .. => some (p, 5)
  | .txLoad p => some (p, 2)
  | .txGo p .. => some (p, 2)
  | .txStop p .. => some (p, 2)
  | .add .. | .sub .. | .and .. | .or .. | .xor .. | .andn .. | .shl .. | .shr .. | .sar .. | .rot .. | .mul ..
  | .mulh .. | .mulhu .. | .min .. | .max .. | .minu .. | .maxu .. | .slt .. | .sltu .. | .seq .. | .sne ..
  | .sel .. | .clz .. | .ctz .. | .popc .. | .bfx .. | .bfxs .. | .bfi .. | .fsh .. | .fshi .. | .addi ..
  | .andi .. | .ori .. | .xori .. | .shli .. | .shri .. | .sari .. | .slti .. | .sltiu .. | .movi .. | .movhi ..
  | .rdli .. | .rdlc .. | .j .. | .call .. | .jr .. | .ret .. | .bz .. | .bnz .. | .beq .. | .bne .. | .blt ..
  | .bge .. | .bltu .. | .bgeu .. | .loop .. | .loopi .. | .lbrk .. | .swait .. | .swaitServed .. | .ssig ..
  | .sinit .. | .snote .. | .sread .. | .phase .. | .collectiveBoundaryCompletion .. | .realign .. | .barr ..
  | .barrierCompletion .. | .barv .. | .bdrop .. | .binit .. | .lease .. | .rel .. | .lqry .. | .lwait ..
  | .probe .. | .probeWalkCompletion .. | .probew .. | .hrel .. | .ldh .. | .sth .. | .sld .. | .sst ..
  | .lpatch .. | .larm .. | .trap .. | .evret | .vany .. | .vall .. | .csrr .. | .csrw .. | .csrs .. | .csrc ..
  | .eret | .halt | .bkpt .. | .clkdiv .. | .fmtw .. | .refdefer .. | .hinv .. | .bswap | .nop | .wfe | .gap ..
  | .rep .. | .repLaunch .. | .seg .. | .sigl .. | .sigh .. | .lit .. | .vadd .. | .vsub .. | .vmul .. | .vmulh ..
  | .vmulhu .. | .vand .. | .vor .. | .vxor .. | .vandn .. | .vshl .. | .vshr .. | .vsar .. | .vrot .. | .vmin ..
  | .vmax .. | .vminu .. | .vmaxu .. | .vabsd .. | .vaddsat .. | .vsubsat .. | .vcmpeq .. | .vcmplt ..
  | .vcmpltu .. | .vsel .. | .vbfx .. | .vbfxs .. | .vbfi .. | .vfsh .. | .vclz .. | .vpopc .. | .vrev ..
  | .vbswap .. | .vaddi .. | .vandi .. | .vori .. | .vxori .. | .vshli .. | .vshri .. | .vsari .. | .vbfxi ..
  | .vfshi .. | .vmovi .. | .vlid .. | .vbcs .. | .kand .. | .kor .. | .kxor .. | .knot .. | .kmov .. | .kset ..
  | .vmask .. | .vfadd .. | .vfsub .. | .vfmul .. | .vfma .. | .vfms .. | .vfnma .. | .vfmin .. | .vfmax ..
  | .vfabs .. | .vfneg .. | .vfcmpeq .. | .vfcmplt .. | .vfcmple .. | .vfcmpun .. | .vfclass .. | .vfrcp ..
  | .vfrsq .. | .vfexp2 .. | .vflog2 .. | .vfscl .. | .vfscli .. | .vfcvt .. | .vfcvti .. | .vfcvtf .. | .vfdot ..
  | .vfrnd .. | .ldr .. | .ldrs .. | .str .. | .strs .. | .lds .. | .sts .. | .ldp .. | .stp .. | .ldx ..
  | .stx .. | .ldf .. | .stf .. | .rmg .. | .rmgv .. | .atm .. | .atmc .. | .atmz .. | .laneAtomicApply ..
  | .cvta .. | .cvtw .. | .isw .. | .tws .. | .twsl .. | .twb .. | .twr .. | .vtos .. | .vred .. | .gzs ..
  | .gauzeMessageArrival .. | .gzr .. | .gzp .. | .lperm .. | .push .. | .ext .. | .dup .. | .drop .. | .swap ..
  | .over .. | .stackRot .. | .clr .. | .pushs .. | .setstr .. | .launchWordEntry .. | .jobStart ..
  | .jobCompletion .. | .tnop | .tloopCount .. | .tloopWord .. | .tend | .agenImm .. | .agenWord .. | .movLen ..
  | .movWord .. | .movt .. | .movcSl .. | .movcLs .. | .pad .. | .twait .. | .tsig .. | .tjmp .. | .thalt
  | .resultLanding .. | .wavefrontSkewExecution .. | .trapEntry .. | .fatalContextError .. | .userEventEntry ..
  | .latchLanding .. | .evict .. | .graceEnd .. | .leaseGrant .. | .termEnd .. | .drainEnd .. | .leaseHandover ..
  | .leasePromotion .. | .preemptionRequest .. | .preempt .. | .preemptSave .. | .preemptLandingTimeout ..
  | .launchResume .. | .recoveryVerdict .. | .phaseRerun .. | .patrol .. | .hbmPatrol .. | .comparePoint ..
  | .refresh .. | .refreshBlackoutEnd .. | .bankEvacuation .. | .evacuationCommit .. | .spillCommit ..
  | .bankReturn .. | .fieldTestStart .. | .fieldTestCompletion .. | .busSpareTakeover .. | .testOverdue ..
  | .monitorSample .. | .eolRecompute .. | .launch .. | .graph .. | .wait .. | .eventWordPoll .. | .signal ..
  | .dispatch | .headPromotion .. | .launchStart .. | .launchCompletion .. | .preload .. | .tlimitOverrun ..
  | .kernelNode .. | .copyNode .. | .fillNode .. | .eventWaitNode .. | .eventSignalNode .. | .conditionalNode ..
  | .loopNode .. | .loopPredicateRead .. | .graphCompletion .. | .bar2Write .. | .bar2Read ..
  | .doorbellTailWrite .. | .semsig .. | .qstatHaltRestart .. | .contextEntryWrite .. | .damaskAttributeWrite ..
  | .collectiveCancel .. | .firmwareStage .. | .firmwareActivate .. | .debugHaltRequest .. | .debugResume ..
  | .debugStep .. | .debugDataAccess .. | .registerWrite .. | .atomicopRequest .. | .hostReadFailure ..
  | .keyExchange .. | .challenge .. | .measurements .. | .creditAcknowledgement .. | .creditReturn ..
  | .porlenWrite .. | .portRetirement .. | .readRequest .. | .readResponse .. | .reduceWrite ..
  | .semaphoreSignal .. | .collectiveControl .. | .billing .. | .billingSend .. | .collectiveStart ..
  | .collectiveCompletion .. | .clockStepChange .. | .throttleEventEntry .. | .sectorBudgetChange ..
  | .currentTrip .. | .sustainedCurrentLimit | .thermalTrip .. | .thermalTripClear | .coolantSample ..
  | .shutdown .. | .watchdogExpiry | .safeState | .moduleReset .. | .railVoltageSetting .. | .hostSectorRelease .. => none

/-- The words of a bundle: each syllable's word, with E set on the last (R78). -/
def encodeBundle : List Instr → Option (List Nat)
  | [] => some []
  | [i] => (encode i).map fun w => [w + 2 ^ 31]
  | i :: rest =>
    match encode i, encodeBundle rest with
    | some w, some ws => some (w :: ws)
    | _, _ => none

/-- The bytes of a 32-bit word, little-endian (R5). -/
def wordBytes (w : Nat) : List Byte :=
  [BitVec.ofNat 8 w, BitVec.ofNat 8 (w / 2 ^ 8), BitVec.ofNat 8 (w / 2 ^ 16), BitVec.ofNat 8 (w / 2 ^ 24)]

end Sys2Proof
end

