-- ==== Sys2Proof/Machine/Operands.lean ====
section
/-! DEFINITION. Operand forms: bit fields, elements of a 64-bit value, wrapping and saturating integer arithmetic, and
the results of the scalar and lane integer forms as functions of their operands. -/
namespace Sys2Proof.Machine

/-- Bits(x, hi, lo) of R10 on a natural number. -/
def bits (x hi lo : Nat) : Nat := x / 2 ^ lo % 2 ^ (hi + 1 - lo)
/-- Bit n of a natural number. -/
def bitAt (x n : Nat) : Bool := x / 2 ^ n % 2 == 1
/-- Wrap(x, w) of R10 as an unsigned w-bit value. -/
def wrap (x : Int) (w : Nat) : Nat := (x % (2 ^ w : Nat)).toNat
/-- An unsigned w-bit value read as signed (SExt of R10). -/
def signed (x w : Nat) : Int := if x < 2 ^ (w - 1) then x else (x : Int) - (2 ^ w : Nat)
/-- Sat(x, lo, hi) of R10. -/
def sat (x lo hi : Int) : Int := if x < lo then lo else if hi < x then hi else x
/-- Signed saturation to w bits. -/
def satS (x : Int) (w : Nat) : Int := sat x (-(2 ^ (w - 1) : Nat)) ((2 ^ (w - 1) : Nat) - 1)
/-- A word from a natural number. -/
def word (x : Nat) : Word := BitVec.ofNat 64 x
/-- ceil(a / b). -/
def ceilDiv (a b : Nat) : Nat := (a + b - 1) / b

/-- Elem(x, w, i) of R10. -/
def elem (x : Word) (w i : Nat) : Nat := x.toNat / 2 ^ (w * i) % 2 ^ w
/-- The 64-bit value whose element i is the i-th of the list, higher bits 0. -/
def packElems (w : Nat) (es : List Nat) : Word :=
  word ((es.foldr (fun e acc => acc * 2 ^ w + e % 2 ^ w) 0))
/-- Element-wise application to all 64 / w elements (R159). -/
def mapElems (w : Nat) (f : Nat → Nat) (x : Word) : Word :=
  packElems w ((List.range (64 / w)).map fun i => f (elem x w i))
def mapElems2 (w : Nat) (f : Nat → Nat → Nat) (x y : Word) : Word :=
  packElems w ((List.range (64 / w)).map fun i => f (elem x w i) (elem y w i))
def mapElems3 (w : Nat) (f : Nat → Nat → Nat → Nat) (x y z : Word) : Word :=
  packElems w ((List.range (64 / w)).map fun i => f (elem x w i) (elem y w i) (elem z w i))

/-- log2 of an element width (R163). -/
def widthLog (w : Nat) : Nat := Nat.log2 w
/-- Bits set among the w low bits. -/
def popcount (x w : Nat) : Nat := ((List.range w).filter fun i => bitAt x i).length
/-- Leading zeros of a w-bit value. -/
def leadingZeros (x w : Nat) : Nat := if x = 0 then w else w - 1 - Nat.log2 x
/-- Trailing zeros of a w-bit value. -/
def trailingZeros (x w : Nat) : Nat := (List.range w).find? (fun i => bitAt x i) |>.getD w
/-- Bit order reversed within w bits. -/
def revBits (x w : Nat) : Nat := (List.range w).foldl (fun acc i => acc * 2 + (x / 2 ^ i) % 2) 0
/-- Byte order reversed within w bits. -/
def revBytes (x w : Nat) : Nat := (List.range (w / 8)).foldl (fun acc i => acc * 256 + (x / 256 ^ i) % 256) 0

/-! ## Integer operations on w-bit values (R109, R163) -/

def iAdd (w x y : Nat) : Nat := (x + y) % 2 ^ w
def iSub (w x y : Nat) : Nat := wrap ((x : Int) - y) w
def iMul (w x y : Nat) : Nat := x * y % 2 ^ w
def iMulh (w x y : Nat) : Nat := wrap ((signed x w * signed y w) / (2 ^ w : Nat)) w
def iMulhu (w x y : Nat) : Nat := x * y / 2 ^ w
def iAnd (x y : Nat) : Nat := x &&& y
def iOr (x y : Nat) : Nat := x ||| y
def iXor (x y : Nat) : Nat := x ^^^ y
def iAndn (w x y : Nat) : Nat := x &&& (2 ^ w - 1 - y)
def iShl (w x t : Nat) : Nat := x * 2 ^ t % 2 ^ w
def iShr (x t : Nat) : Nat := x / 2 ^ t
def iSar (w x t : Nat) : Nat := wrap (signed x w / (2 ^ t : Nat)) w
def iRot (w x t : Nat) : Nat := (x * 2 ^ t % 2 ^ w) + x / 2 ^ (w - t)
def iMin (w x y : Nat) : Nat := if signed x w ≤ signed y w then x else y
def iMax (w x y : Nat) : Nat := if signed x w ≤ signed y w then y else x
def iMinu (x y : Nat) : Nat := if x ≤ y then x else y
def iMaxu (x y : Nat) : Nat := if x ≤ y then y else x
def iAbsd (w x y : Nat) : Nat := (signed x w - signed y w).natAbs
def iAddsat (w x y : Nat) : Nat := wrap (satS (signed x w + signed y w) w) w
def iSubsat (w x y : Nat) : Nat := wrap (satS (signed x w - signed y w) w) w
/-- A register shift amount, taken modulo the width (R163). -/
def shAmt (w y : Nat) : Nat := y % w
/-- Funnel shift of x:y by t (R111, R169). -/
def iFsh (w x y t : Nat) : Nat := (x * 2 ^ w + y) / 2 ^ t % 2 ^ w

/-- pos and len of a bit-field control word (R110, R167). -/
def bfPos (y : Nat) : Nat := bits y 5 0
def bfLen (y : Nat) : Nat := bits y 13 8 + 1
/-- `bfx` of a w-bit value under a control word (R110, R167). -/
def iBfx (w x ctl : Nat) : Nat :=
  if w ≤ bfPos ctl then 0 else bits x (min (bfPos ctl + bfLen ctl) w - 1) (bfPos ctl)
/-- `bfxs` (R110, R167). -/
def iBfxs (w x ctl : Nat) : Nat :=
  if w ≤ bfPos ctl then 0
  else
    let hi := min (bfPos ctl + bfLen ctl) w - 1
    wrap (signed (bits x hi (bfPos ctl)) (hi - bfPos ctl + 1)) w
/-- `bfi` of x into d (R110, R167). -/
def iBfi (w d x ctl : Nat) : Nat :=
  if w ≤ bfPos ctl then d
  else
    let hi := min (bfPos ctl + bfLen ctl) w - 1
    let fw := hi - bfPos ctl + 1
    let m := (2 ^ fw - 1) * 2 ^ bfPos ctl
    iAndn w d m + (x % 2 ^ fw) * 2 ^ bfPos ctl

/-! ## Reductions (R208) -/

/-- Identity of an integer reduction (R208). -/
def redIdInt : RedOp → Word
  | .add | .or => 0
  | .max => word (2 ^ 63)
  | .min => word (2 ^ 63 - 1)
  | .faddd => word (2 ^ 63)
  | .fadds => word 0x8000000080000000
  | .fmaxs | .fmins => word 0x7FC000007FC00000

/-! ## CRCs -/

/-- One reflected CRC step over a byte: eight shifts of the register under the polynomial. -/
def crcBits (poly : Nat) : Nat → Nat → Nat
  | 0, r => r
  | n + 1, r => crcBits poly n (if r % 2 = 1 then (r / 2) ^^^ poly else r / 2)
/-- A reflected CRC register after a list of bytes. -/
def crcBytes (poly : Nat) (r : Nat) (bs : List Nat) : Nat :=
  bs.foldl (fun r b => crcBits poly 8 (r ^^^ b)) r
/-- CRC-32C polynomial, reflected (R90). -/
def crc32cPoly : Nat := 0x82F63B78
/-- CRC-64 polynomial, reflected (R273). -/
def crc64Poly : Nat := 0xC96C5795D7870F42
/-- CRC-32C of a byte string (R90). -/
def crc32c (bs : List Nat) : Nat := crcBytes crc32cPoly 0xFFFFFFFF bs ^^^ 0xFFFFFFFF
/-- CRC-64 of a byte string (R273). -/
def crc64 (bs : List Nat) : Nat := crcBytes crc64Poly (2 ^ 64 - 1) bs ^^^ (2 ^ 64 - 1)
/-- The bytes of a value, little-endian (R5). -/
def natBytes (n x : Nat) : List Nat := (List.range n).map fun i => x / 256 ^ i % 256
/-- The value of bytes, little-endian. -/
def bytesNat (bs : List Nat) : Nat := bs.foldr (fun b acc => acc * 256 + b) 0

end Sys2Proof.Machine
end

