-- ==== Sys2Proof/Machine/Flags.lean ====
section
/-! DEFINITION. Floating point: exact values, RoundTo with its flags (R49 to R66), the operations of class F and of the
engines on values, and the format codes of R48. -/
namespace Sys2Proof.Machine

/-- How a format uses its all-ones exponent (R49, R58). -/
inductive Special where | ieee | e4m3 | none
  deriving DecidableEq, Repr

/-- A scalar floating-point format (R49, R58): width, exponent bits, fraction bits, bias. -/
structure FSpec where
  w : Nat
  eb : Nat
  p : Nat
  bias : Nat
  special : Special
  deriving DecidableEq, Repr

def fp64 : FSpec := ⟨64, 11, 52, 1023, .ieee⟩
def fp32 : FSpec := ⟨32, 8, 23, 127, .ieee⟩
def fp16 : FSpec := ⟨16, 5, 10, 15, .ieee⟩
def bf16 : FSpec := ⟨16, 8, 7, 127, .ieee⟩
def fp8e4 : FSpec := ⟨8, 4, 3, 7, .e4m3⟩
def fp8e5 : FSpec := ⟨8, 5, 2, 15, .ieee⟩
def e2m3 : FSpec := ⟨6, 2, 3, 1, .none⟩
def e3m2 : FSpec := ⟨6, 3, 2, 3, .none⟩
def e2m1 : FSpec := ⟨4, 2, 1, 1, .none⟩

/-- The format of a class F suffix (R97); `.i` has none and reads as FP32. -/
def specOf : FFmt → FSpec
  | .d => fp64 | .s => fp32 | .h => fp16 | .bf => bf16 | .e4 => fp8e4 | .e5 => fp8e5 | .i => fp32
/-- The scalar floating-point format of a code of R48. -/
def specOfCode : Nat → Option FSpec
  | 0 => some fp64 | 1 => some fp32 | 2 => some fp16 | 3 => some bf16 | 4 => some fp8e4 | 5 => some fp8e5
  | _ => none
/-- The integer width of a code of R48. -/
def intOfCode : Nat → Option Nat
  | 6 => some 8 | 7 => some 16 | 8 => some 32 | 9 => some 4
  | _ => none
/-- Element width of a scalar code 0x00 to 0x09 (R48). -/
def codeWidth (c : Nat) : Nat := [64, 32, 16, 16, 8, 8, 8, 16, 32, 4].getD c 8

/-- An exact value, or one known up to a sticky part: (−1)^neg × (m + ε) × 2^e with 0 < ε < 1 when `sticky`. -/
inductive Fp where
  | nan (signalling : Bool)
  | inf (neg : Bool)
  | num (neg : Bool) (m : Nat) (e : Int) (sticky : Bool)
  deriving DecidableEq, Repr

def Fp.zero (neg : Bool) : Fp := .num neg 0 0 false
/-- An integer as a value. -/
def Fp.ofInt (x : Int) : Fp := .num (x < 0) x.natAbs 0 false
def Fp.isZero : Fp → Bool
  | .num _ m _ s => m == 0 && !s
  | _ => false
def Fp.isNan : Fp → Bool
  | .nan _ => true
  | _ => false
def Fp.isSig : Fp → Bool
  | .nan s => s
  | _ => false
def Fp.isInf : Fp → Bool
  | .inf _ => true
  | _ => false
def Fp.neg? : Fp → Bool
  | .nan _ => false
  | .inf n => n
  | .num n _ _ _ => n
/-- The value with its sign inverted. -/
def Fp.negate : Fp → Fp
  | .nan s => .nan s
  | .inf n => .inf !n
  | .num n m e s => .num (!n) m e s
def Fp.abs : Fp → Fp
  | .nan s => .nan s
  | .inf _ => .inf false
  | .num _ m e s => .num false m e s

/-- Flags in the order of FCSR.FLAGS: NV 16, DZ 8, OF 4, UF 2, NX 1 (R43). -/
def fNV : Nat := 16
def fDZ : Nat := 8
def fOF : Nat := 4
def fUF : Nat := 2
def fNX : Nat := 1

/-- The exact value of an element's bits (R49). -/
def decodeFp (f : FSpec) (x : Nat) : Fp :=
  let s := bitAt x (f.w - 1)
  let e := x / 2 ^ f.p % 2 ^ f.eb
  let t := x % 2 ^ f.p
  if f.special = .ieee ∧ e = 2 ^ f.eb - 1 then
    if t = 0 then .inf s else .nan (!bitAt t (f.p - 1))
  else if f.special = .e4m3 ∧ e = 2 ^ f.eb - 1 ∧ t = 2 ^ f.p - 1 then .nan false
  else if e = 0 then .num s t (1 - (f.bias : Int) - f.p) false
  else .num s (2 ^ f.p + t) ((e : Int) - f.bias - f.p) false

/-- An element is subnormal (R49). -/
def isSubnormal (f : FSpec) (x : Nat) : Bool := x / 2 ^ f.p % 2 ^ f.eb == 0 && x % 2 ^ f.p != 0

/-- In(x) of R173: the value of a lane input, with subnormals read as zeros under FTZ (R64). -/
def inFp (f : FSpec) (ftz : Bool) (x : Nat) : Fp :=
  if ftz && isSubnormal f x then .zero (bitAt x (f.w - 1)) else decodeFp f x

/-- The default NaN of a format (R51). -/
def defaultNan (f : FSpec) : Nat :=
  match f.special with
  | .ieee => (2 ^ f.eb - 1) * 2 ^ f.p + 2 ^ (f.p - 1)
  | .e4m3 => 0x7F
  | .none => 2 ^ (f.w - 1) - 1
/-- Sign bit of an element. -/
def signBit (f : FSpec) (neg : Bool) : Nat := if neg then 2 ^ (f.w - 1) else 0
/-- An infinity of a format that has one. -/
def infBits (f : FSpec) (neg : Bool) : Nat := signBit f neg + (2 ^ f.eb - 1) * 2 ^ f.p
/-- The largest finite magnitude (R50, R58). -/
def maxBits (f : FSpec) : Nat :=
  match f.special with
  | .ieee => (2 ^ f.eb - 1) * 2 ^ f.p - 1
  | .e4m3 => 2 ^ (f.w - 1) - 2
  | .none => 2 ^ (f.w - 1) - 1

/-- How the part below the grain compares with half of it. -/
inductive Rem where | exact | below | half | above
  deriving DecidableEq, Repr

/-- m × 2^e (plus a sticky part) in units of 2^ge: the integer part, the class of the rest, and the rest's first 24
bits (t of R62). -/
def splitAt (m : Nat) (e ge : Int) (sticky : Bool) : Nat × Rem × Nat :=
  if ge ≤ e then (m * 2 ^ (e - ge).toNat, if sticky then .below else .exact, 0)
  else
    let sh := (ge - e).toNat
    let q := m / 2 ^ sh
    let r := m % 2 ^ sh
    let half := 2 ^ (sh - 1)
    let c : Rem :=
      if r = 0 then (if sticky then .below else .exact)
      else if r < half then .below
      else if r = half then (if sticky then .above else .half)
      else .above
    (q, c, r * 2 ^ 24 / 2 ^ sh)

/-- Does the rounding go to the neighbour farther from zero? (R59, R62) `srd` is r of R62 where SRD applies. -/
def roundAway (mode : Nat) (srd : Option Nat) (neg : Bool) (q : Nat) (c : Rem) (t : Nat) : Bool :=
  match c with
  | .exact => false
  | _ =>
    match srd with
    | some r => 2 ^ 24 ≤ t + r
    | none =>
      match mode with
      | 1 => false
      | 2 => !neg
      | 3 => neg
      | _ =>
        match c with
        | .above => true
        | .half => q % 2 == 1
        | _ => false

/-- How a caller rounds: mode (R59), saturation, flush to zero, and r of R62 where SRD applies. -/
structure Rnd where
  mode : Nat
  sat : Bool
  ftz : Bool
  srd : Option Nat
  deriving DecidableEq, Repr

/-- Round to nearest even without saturation, flush or SRD, as engines and reductions round (R208, R258). -/
def rne : Rnd := ⟨0, false, false, none⟩

/-- Overflow(s, fmt, mode, sat) (R61). -/
def overflowBits (f : FSpec) (mode : Nat) (sat neg : Bool) : Nat :=
  let fin := signBit f neg + maxBits f
  if sat then fin
  else
    let toInf : Bool := match mode with
      | 1 => false
      | 2 => !neg
      | 3 => neg
      | _ => true
    if toInf then
      match f.special with
      | .ieee => infBits f neg
      | .e4m3 => defaultNan f
      | .none => fin
    else fin

/-- floor(log2 |x|) of a non-zero value. -/
def log2Val (m : Nat) (e : Int) : Int := (Nat.log2 m : Int) + e

/-- The bits of q × 2^ge, a value of the format's grid that its range holds. -/
def encodeFinite (f : FSpec) (neg : Bool) (q : Nat) (ge : Int) : Nat :=
  if q = 0 then signBit f neg
  else
    let l := log2Val q ge
    if l < 1 - (f.bias : Int) then signBit f neg + q * 2 ^ (ge - (1 - (f.bias : Int) - f.p)).toNat
    else
      let frac := if (f.p : Int) ≤ l - ge then q / 2 ^ (l - ge - f.p).toNat else q * 2 ^ (f.p - (l - ge)).toNat
      signBit f neg + (l + f.bias).toNat * 2 ^ f.p + (frac - 2 ^ f.p)

/-- Is q × 2^ge above the largest finite value? -/
def aboveMax (f : FSpec) (q : Nat) (ge : Int) : Bool :=
  let m := maxBits f
  let e := m / 2 ^ f.p
  let mm := 2 ^ f.p + m % 2 ^ f.p
  let me : Int := (e : Int) - f.bias - f.p
  if me ≤ ge then mm < q * 2 ^ (ge - me).toNat else mm * 2 ^ (me - ge).toNat < q

/-- RoundTo(x, fmt, mode) (R60): the element's bits and the flags set. -/
def roundTo (f : FSpec) (r : Rnd) (x : Fp) : Nat × Nat :=
  match x with
  | .nan s => (defaultNan f, if s then fNV else 0)
  | .inf n =>
    if r.sat then (signBit f n + maxBits f, 0)
    else match f.special with
      | .ieee => (infBits f n, 0)
      | .e4m3 => (defaultNan f, fNV)
      | .none => (signBit f n + maxBits f, 0)
  | .num n m e sticky =>
    if m = 0 then
      if sticky then
        let away := match r.mode with
          | 2 => !n
          | 3 => n
          | _ => false
        if r.ftz then (signBit f n, fUF + fNX)
        else (signBit f n + (if away then 1 else 0), fUF + fNX)
      else (signBit f n, 0)
    else
      let l := log2Val m e
      let tiny := l < 1 - (f.bias : Int)
      if r.ftz && tiny then (signBit f n, fUF + fNX)
      else
        let ge := max l (1 - (f.bias : Int)) - f.p
        let (q, c, t) := splitAt m e ge sticky
        let q' := if roundAway r.mode r.srd n q c t then q + 1 else q
        if aboveMax f q' ge then (overflowBits f (if r.srd.isSome then 0 else r.mode) r.sat n, fOF + fNX)
        else
          (encodeFinite f n q' ge, if c = .exact then 0 else if tiny then fNX + fUF else fNX)

/-! ## Exact operations -/

/-- Sign of an exact zero sum (R66). -/
def zeroSumSign (mode : Nat) (n1 n2 bothZero : Bool) : Bool :=
  if bothZero && n1 == n2 then n1 else mode == 3

/-- The exact sum of two finite values, with the sign of R66 when it is zero. -/
def addNum (mode : Nat) (n1 : Bool) (m1 : Nat) (e1 : Int) (n2 : Bool) (m2 : Nat) (e2 : Int) : Fp :=
  let e := min e1 e2
  let a : Int := (m1 * 2 ^ (e1 - e).toNat : Nat)
  let b : Int := (m2 * 2 ^ (e2 - e).toNat : Nat)
  let s := (if n1 then -a else a) + (if n2 then -b else b)
  if s = 0 then .zero (zeroSumSign mode n1 n2 (m1 == 0 && m2 == 0))
  else .num (s < 0) s.natAbs e false

/-- x + y (R65, R66, R174), with NV for an invalid operation. A signalling input is flagged by the caller. -/
def addFp (mode : Nat) (x y : Fp) : Fp × Nat :=
  match x, y with
  | .nan _, _ => (.nan false, 0)
  | _, .nan _ => (.nan false, 0)
  | .inf a, .inf b => if a == b then (.inf a, 0) else (.nan false, fNV)
  | .inf a, .num .. => (.inf a, 0)
  | .num .., .inf b => (.inf b, 0)
  | .num n1 m1 e1 _, .num n2 m2 e2 _ => (addNum mode n1 m1 e1 n2 m2 e2, 0)

/-- x × y (R65, R66, R174). -/
def mulFp (x y : Fp) : Fp × Nat :=
  match x, y with
  | .nan _, _ => (.nan false, 0)
  | _, .nan _ => (.nan false, 0)
  | .inf a, .inf b => (.inf (a != b), 0)
  | .inf a, .num n m _ _ => if m = 0 then (.nan false, fNV) else (.inf (a != n), 0)
  | .num n m _ _, .inf b => if m = 0 then (.nan false, fNV) else (.inf (n != b), 0)
  | .num n1 m1 e1 _, .num n2 m2 e2 _ => (.num (n1 != n2) (m1 * m2) (e1 + e2) false, 0)

/-- NV for signalling inputs (R65). -/
def sigFlag (xs : List Fp) : Nat := if xs.any Fp.isSig then fNV else 0

/-- x × y + z with one rounding (R174): 0 × ∞ is invalid even when z is a quiet NaN. -/
def fmaFp (mode : Nat) (x y z : Fp) : Fp × Nat :=
  let (p, f1) := mulFp x y
  if f1 ≠ 0 then (.nan false, fNV)
  else
    let (s, f2) := addFp mode p z
    (s, f2 ||| sigFlag [x, y, z])

/-- The power of two of the least significant bit of an exact sum. -/
def sumLsb (terms : List Fp) : Int :=
  terms.foldl (fun acc t => match t with | .num _ m e _ => if m = 0 then acc else min acc e | _ => acc) 0
/-- A term as a count of units 2^e. -/
def Fp.units (e : Int) : Fp → Int
  | .num n m e' _ => if m = 0 then 0 else let v : Int := (m * 2 ^ (e' - e).toNat : Nat); if n then -v else v
  | _ => 0
def sumUnits (e : Int) (terms : List Fp) : Int := terms.foldl (fun acc t => acc + t.units e) 0
/-- Sum of the terms, exactly (R67, R187): any NaN, or infinities of both signs, give NaN; the latter are invalid also beside a
NaN. A zero sum is −0 when every term is a −0, or when it cancels under RNI and not every term is a zero of one sign (R66). -/
def sumFp (mode : Nat) (terms : List Fp) : Fp × Nat :=
  let infs := terms.filter Fp.isInf
  if infs.any Fp.neg? && infs.any (fun t => !t.neg?) then (.nan false, fNV)
  else if terms.any Fp.isNan then (.nan false, 0)
  else match infs with
      | t :: _ => (t, 0)
      | [] =>
        let e := sumLsb terms
        let s := sumUnits e terms
        if s = 0 then
          if terms.all (fun t => t.isZero && t.neg?) then (.zero true, 0)
          else if terms.all (fun t => t.isZero && !t.neg?) then (.zero false, 0)
          else (.zero (mode == 3), 0)
        else (.num (s < 0) s.natAbs e false, 0)

/-- x < y on values that are not NaN; zeros are equal. -/
def ltFp (x y : Fp) : Bool :=
  match x, y with
  | .inf a, .inf b => a && !b
  | .inf a, .num .. => a
  | .num .., .inf b => !b
  | .num n1 m1 e1 _, .num n2 m2 e2 _ =>
    let e := min e1 e2
    let a : Int := (m1 * 2 ^ (e1 - e).toNat : Nat)
    let b : Int := (m2 * 2 ^ (e2 - e).toNat : Nat)
    (if n1 then -a else a) < (if n2 then -b else b)
  | _, _ => false
def eqFp (x y : Fp) : Bool := !x.isNan && !y.isNan && !ltFp x y && !ltFp y x

/-- The order of `vfmin` and `vfmax`, with −0 below +0 (R175). -/
def belowFp (x y : Fp) : Bool := ltFp x y || (x.isZero && y.isZero && x.neg? && !y.neg?)

/-- `vfmin` (isMax = false) and `vfmax` of two values (R175); the flag is NV for a signalling input. -/
def minMaxFp (isMax : Bool) (x y : Fp) : Fp × Nat :=
  let fl := sigFlag [x, y]
  match x.isNan, y.isNan with
  | true, true => (.nan false, fl)
  | true, false => (y, fl)
  | false, true => (x, fl)
  | false, false => (if isMax then (if belowFp x y then y else x) else (if belowFp y x then y else x), fl)

/-- `vfclass` (R178) of an element whose value after In() is x. -/
def classFp (f : FSpec) (x : Fp) : Nat :=
  match x with
  | .inf true => 1
  | .inf false => 0x80
  | .nan true => 0x100
  | .nan false => 0x200
  | .num n m e _ =>
    if m = 0 then (if n then 8 else 0x10)
    else if log2Val m e < 1 - (f.bias : Int) then (if n then 4 else 0x20)
    else (if n then 2 else 0x40)

/-! ## Division, roots and transcendental functions -/

/-- floor(√v) of a value below 4^n, by bits. -/
def isqrtBits (v : Nat) : Nat → Nat → Nat
  | 0, r => r
  | n + 1, r => let r' := r + 2 ^ n; isqrtBits v n (if r' * r' ≤ v then r' else r)
def isqrt (v : Nat) : Nat := isqrtBits v (Nat.log2 v / 2 + 1) 0

/-- x / y of finite values with y non-zero, to at least 200 bits. -/
def divNum (n1 : Bool) (m1 : Nat) (e1 : Int) (n2 : Bool) (m2 : Nat) (e2 : Int) : Fp :=
  let k := 200 + Nat.log2 m2
  let v := m1 * 2 ^ k
  .num (n1 != n2) (v / m2) (e1 - e2 - k) (v % m2 != 0)

/-- x / y (R278, R279). -/
def divFp (x y : Fp) : Fp :=
  match x, y with
  | .nan _, _ => .nan false
  | _, .nan _ => .nan false
  | .inf _, .inf _ => .nan false
  | .inf a, .num n _ _ _ => .inf (a != n)
  | .num n _ _ _, .inf b => .zero (n != b)
  | .num n1 m1 e1 _, .num n2 m2 e2 _ =>
    if m2 = 0 then (if m1 = 0 then .nan false else .inf (n1 != n2)) else divNum n1 m1 e1 n2 m2 e2

/-- 1 / √x of a positive finite value. -/
def rsqNum (m : Nat) (e : Int) : Fp :=
  let m' := if e % 2 = 0 then m else 2 * m
  let e' := if e % 2 = 0 then e else e - 1
  let k := 200 + Nat.log2 m'
  let q := isqrt (2 ^ (2 * k) / m')
  .num false q (-(e' / 2) - k) (q * q * m' != 2 ^ (2 * k))

/-- Fixed point with Config.fracBits fraction bits (log 10). -/
def fxOne : Nat := 2 ^ Config.fracBits
def fxMul (a b : Nat) : Nat := a * b / fxOne

/-- Σ of x^(2i+1) / (2i+1) for n terms, with sign alternation for the arctangent. -/
def oddSeries (alt : Bool) (x2 : Nat) : Nat → Nat → Nat → Int → Int
  | 0, _, _, acc => acc
  | n + 1, i, p, acc =>
    let t : Int := (p / (2 * i + 1) : Nat)
    oddSeries alt x2 n (i + 1) (fxMul p x2) (if alt && i % 2 == 1 then acc - t else acc + t)
/-- atanh and atan of a fixed-point value below 1. -/
def fxAtanh (x : Nat) : Nat := (oddSeries false (fxMul x x) 220 0 x 0).toNat
def fxAtan (x : Nat) : Nat := (oddSeries true (fxMul x x) 220 0 x 0).toNat
def fxLn2 : Nat := 2 * fxAtanh (fxOne / 3)
def fxPi : Nat := 16 * fxAtan (fxOne / 5) - 4 * fxAtan (fxOne / 239)

/-- Σ y^i / i! for n terms. -/
def expSeries (y : Nat) : Nat → Nat → Nat → Nat → Nat
  | 0, _, _, acc => acc
  | n + 1, i, t, acc => expSeries y n (i + 1) (fxMul t y / (i + 1)) (acc + t)
/-- e^y for a fixed-point y in [0, 1). -/
def fxExp (y : Nat) : Nat := expSeries y 130 0 fxOne 0

/-- A dyadic value in fixed point, rounded down. -/
def toFx (m : Nat) (e : Int) : Nat :=
  if 0 ≤ e + Config.fracBits then m * 2 ^ (e + Config.fracBits).toNat else m / 2 ^ (-(e + Config.fracBits)).toNat

/-- A value far above or below every format's range, for arguments beyond 2^12. -/
def hugeFp (neg : Bool) : Fp := .num neg 1 5000 true
def tinyFp (neg : Bool) : Fp := .num neg 1 (-5000) true

/-- A fixed-point approximation as a value known up to its sticky part: the 40 lowest bits are given up to the error. -/
def ofFx (neg : Bool) (x : Nat) (e : Int) : Fp := .num neg (x / 2 ^ 40) (e - Config.fracBits + 40) true

/-- 2^i × e^y for y in fixed point and an integer i. -/
def expOf (i : Int) (y : Nat) : Fp := ofFx false (fxExp y) i

/-- 2^x of a finite value (R179). -/
def exp2Num (n : Bool) (m : Nat) (e : Int) : Fp :=
  if m = 0 then .num false 1 0 false
  else if 12 < log2Val m e then (if n then tinyFp false else hugeFp false)
  else
    let v : Int := if n then -(toFx m e : Int) else toFx m e
    let i : Int := v / (fxOne : Int)
    let fr := (v - i * fxOne).toNat
    if fr = 0 ∧ log2Val m e > -(Config.fracBits : Int) then .num false 1 i false
    else expOf i (fxMul fr fxLn2)

/-- e^x of a finite value (R277). -/
def expNum (n : Bool) (m : Nat) (e : Int) : Fp :=
  if m = 0 then .num false 1 0 false
  else if 12 < log2Val m e then (if n then tinyFp false else hugeFp false)
  else
    let v : Int := if n then -(toFx m e : Int) else toFx m e
    let i : Int := v / (fxLn2 : Int)
    expOf i (v - i * fxLn2).toNat

/-- log2 x of a positive finite value (R179). -/
def log2Num (m : Nat) (e : Int) : Fp :=
  let l := Nat.log2 m
  let k : Int := (l : Int) + e
  if m = 2 ^ l then .ofInt k
  else
    let y := m * fxOne / 2 ^ l
    let z := (y - fxOne) * fxOne / (y + fxOne)
    let ln := 2 * fxAtanh z
    let r : Int := k * fxOne + ln * fxOne / fxLn2
    .num (r < 0) (r.natAbs / 2 ^ 40) (-(Config.fracBits : Int) + 40) true

/-- Σ of x^(2i+1) / (1 · 3 · … · (2i+1)). -/
def gaussSeries (x2 : Nat) : Nat → Nat → Nat → Nat → Nat
  | 0, _, _, acc => acc
  | n + 1, i, t, acc => gaussSeries x2 n (i + 1) (fxMul t x2 / (2 * i + 3)) (acc + t)

/-- x × Φ(x) of a finite non-zero value (R277). -/
def geluNum (n : Bool) (m : Nat) (e : Int) : Fp :=
  if 4 ≤ log2Val m e then
    if n then tinyFp true else .num false (m * 2 ^ 200 - 1) (e - 200) true
  else if log2Val m e < -300 then .num n m (e - 1) true
  else
    let x := toFx m e
    let h : Int := -((fxMul x x / 2 : Nat) : Int)
    let i : Int := h / (fxLn2 : Int)
    let ex := fxExp (h - i * fxLn2).toNat
    let gauss := ex * fxOne / isqrt (2 * fxPi * fxOne)
    let phi := if 0 ≤ i then gauss * 2 ^ i.toNat else gauss / 2 ^ (-i).toNat
    let s := fxMul phi (gaussSeries (fxMul x x) 900 0 x 0)
    let big := if n then fxOne / 2 - s else fxOne / 2 + s
    let r := fxMul x big
    .num n (r / 2 ^ 200) (-(Config.fracBits : Int) + 200) true

/-! ## Conversions (R71) -/

/-- Rounding to an integer under a mode; the result and whether it was exact (R71, R184, R186). -/
def roundInt (mode : Nat) (srd : Option Nat) (n : Bool) (m : Nat) (e : Int) (sticky : Bool) : Int × Bool :=
  let (q, c, t) := splitAt m e 0 sticky
  let q' := if roundAway mode srd n q c t then q + 1 else q
  (if n then -(q' : Int) else q', c = .exact)

/-- Float to integer of w bits (R71): the element's bits and flags. -/
def toIntFp (w mode : Nat) (srd : Option Nat) (x : Fp) : Nat × Nat :=
  let lo : Int := -(2 ^ (w - 1) : Nat)
  let hi : Int := (2 ^ (w - 1) : Nat) - 1
  match x with
  | .nan _ => (0, fNV)
  | .inf n => (wrap (if n then lo else hi) w, fNV)
  | .num n m e s =>
    let (i, ex) := roundInt mode srd n m e s
    if i < lo then (wrap lo w, fNV)
    else if hi < i then (wrap hi w, fNV)
    else (wrap i w, if ex then 0 else fNX)

/-- `vfrnd` (R186): the integral value in the same format. -/
def rndFp (f : FSpec) (mode : Nat) (x : Fp) : Nat × Nat :=
  match x with
  | .nan s => (defaultNan f, if s then fNV else 0)
  | .inf n => (infBits f n, 0)
  | .num n m e s =>
    let (i, _) := roundInt mode none n m e s
    ((roundTo f rne (.num n i.natAbs 0 false)).1, 0)

/-- One step of a lane's SRD generator (R62). -/
def srdStep (g : BitVec 32) : BitVec 32 :=
  if g.toNat % 2 = 1 then BitVec.ofNat 32 (g.toNat / 2 ^^^ 0x80200003) else BitVec.ofNat 32 (g.toNat / 2)
/-- The generator of a lane after a write of SEED (R43). -/
def srdSeed (seed lane : Nat) : BitVec 32 :=
  let g := seed ^^^ (lane * 65536 + lane)
  if g % 2 ^ 32 = 0 then 1 else BitVec.ofNat 32 g

/-- How a lane conversion rounds (R59, R62, R173): SRD applies only when the target has 16 bits or fewer. -/
def convRnd (mode : Nat) (sat ftz : Bool) (wd : Nat) (g : BitVec 32) : Rnd :=
  if mode = 4 ∧ wd ≤ 16 then ⟨4, sat, ftz, some (g.toNat / 256)⟩
  else ⟨if mode = 4 then 0 else mode, sat, ftz, none⟩

/-- Cvt of one element between scalar codes 0x00 to 0x09 (R71, R183 to R185, R198): bits, flags, next generator. -/
def cvtElem (src dst mode : Nat) (sat ftz : Bool) (g : BitVec 32) (x : Nat) : Nat × Nat × BitVec 32 :=
  let wd := codeWidth dst
  let r := convRnd mode sat ftz wd g
  let g' := if r.srd.isSome then srdStep g else g
  match specOfCode src, specOfCode dst with
  | some fs, some fd => let (b, fl) := roundTo fd r (inFp fs ftz x); (b, fl, g')
  | some fs, none => let (b, fl) := toIntFp wd r.mode r.srd (inFp fs ftz x); (b, fl, g')
  | none, some fd => let (b, fl) := roundTo fd r (.ofInt (signed x (codeWidth src))); (b, fl, g')
  | none, none =>
    let v := signed x (codeWidth src)
    (if codeWidth src ≤ wd then wrap v wd else if sat then wrap (satS v wd) wd else wrap v wd, 0, g)

/-- Integer to integer conversions never round, so they leave the generator (R62); n elements in ascending index. -/
def cvtElems (f : Nat → BitVec 32 → Nat × Nat × BitVec 32) : List Nat → BitVec 32 → List Nat × Nat × BitVec 32
  | [], g => ([], 0, g)
  | x :: xs, g =>
    let (b, fl, g1) := f x g
    let (bs, fl', g2) := cvtElems f xs g1
    (b :: bs, fl ||| fl', g2)

/-! ## Format descriptors (R76, R77) -/

def fdSF (d : BitVec 32) : Nat := bits d.toNat 12 8
def fdLF (d : BitVec 32) : Nat := bits d.toNat 20 16
def fdSAT (d : BitVec 32) : Bool := bitAt d.toNat 23
def fdRM (d : BitVec 32) : Nat := bits d.toNat 26 24
/-- A code of R48 that is not reserved. -/
def codeOk (c : Nat) : Bool := c ≤ 0x0C || (0x10 ≤ c && c ≤ 0x15)
/-- The descriptor is valid at its point of use (R77). -/
def fdValid (d : BitVec 32) : Bool :=
  bitAt d.toNat 31 && bits d.toNat 30 27 == 0 && fdRM d != 5 && fdRM d != 6 && bits d.toNat 22 21 == 0 &&
  fdLF d ≤ 9 && bits d.toNat 15 13 == 0 && codeOk (fdSF d) && bits d.toNat 7 0 == 0
/-- Rounding mode of an engine word under a descriptor: SRD and 7 act as RNE (R258). -/
def fdEngineRnd (d : BitVec 32) : Rnd := ⟨if fdRM d == 4 || fdRM d == 7 then 0 else fdRM d, fdSAT d, false, none⟩

end Sys2Proof.Machine
end

