-- ==== Sys2Proof/Machine/Formats.lean ====
section
/-! DEFINITION. Block formats: DX groups and MX units, decoded and encoded (R53 to R58, R71 to R75). A unit is a list of
byte values from its lowest address. -/
namespace Sys2Proof.Machine

/-- Element width in bits of any code of R48. -/
def codeBits (c : Nat) : Nat :=
  if c ≤ 9 then codeWidth c
  else match c with
    | 0x0A => 8 | 0x0B => 6 | 0x0C => 4
    | 0x10 => 8 | 0x11 => 8 | 0x12 => 6 | 0x13 => 6 | 0x14 => 4 | _ => 8
def isDx (c : Nat) : Bool := c == 0x0A || c == 0x0B || c == 0x0C
def isMx (c : Nat) : Bool := 0x10 ≤ c && c ≤ 0x15
def isBlock (c : Nat) : Bool := isDx c || isMx c
/-- Elements of a unit (R56, R57, R365): 1 for scalar formats, 2 for INT4. -/
def unitElems (c : Nat) : Nat := if isDx c then 128 else if isMx c then 256 else if c = 9 then 2 else 1
/-- Bytes of a unit (R56, R57, R365). -/
def unitBytes (c : Nat) : Nat :=
  match c with
  | 0x0A => 136 | 0x0B => 104 | 0x0C => 72
  | 0x10 => 264 | 0x11 => 264 | 0x12 => 200 | 0x13 => 200 | 0x14 => 136 | 0x15 => 264
  | 9 => 1
  | _ => codeWidth c / 8

/-- Element j of a little-endian bit string of w-bit elements (R56). -/
def strElem (bs : List Nat) (w j : Nat) : Nat :=
  let lo := w * j / 8
  bytesNat ((bs.drop lo).take 2) / 2 ^ (w * j % 8) % 2 ^ w
/-- The bytes of a bit string of w-bit elements. -/
def strBytes (w : Nat) (es : List Nat) : List Nat :=
  natBytes ((w * es.length + 7) / 8) (es.foldr (fun e acc => acc * 2 ^ w + e % 2 ^ w) 0)

/-! ## DX (R54 to R56) -/

/-- f of R54. -/
def dxF (c : Nat) : Nat := codeBits c - 2
/-- Offset byte of the block that holds element j. -/
def dxOffByte (c : Nat) (bs : List Nat) (j : Nat) : Nat := bs.getD (16 * codeBits c + j / 32) 0
/-- The group's scale byte G. -/
def dxScale (c : Nat) (bs : List Nat) : Nat := bs.getD (16 * codeBits c + 4) 0
/-- The unscaled value of element j (R55). -/
def dxUnscaled (c : Nat) (bs : List Nat) (j : Nat) : Fp :=
  let w := codeBits c
  let x := strElem bs w j
  let ob := dxOffByte c bs j
  let off := if bitAt x (w - 2) then ob / 16 else ob % 16
  .num (bitAt x (w - 1)) (x % 2 ^ dxF c) (-(off : Int) - dxF c) false
/-- A value multiplied by a power of two. -/
def scaleFp (x : Fp) (k : Int) : Fp :=
  match x with
  | .num n m e s => .num n m (e + k) s
  | y => y
/-- The value of element j of a DX group (R55). -/
def dxValue (c : Nat) (bs : List Nat) (j : Nat) : Fp :=
  if dxScale c bs = 255 then .nan false else scaleFp (dxUnscaled c bs j) ((dxScale c bs : Int) - 127)

/-! ## MX (R57, R58) -/

/-- The scalar format of an MX element; MXINT8 has none. -/
def mxSpec : Nat → Option FSpec
  | 0x10 => some fp8e4 | 0x11 => some fp8e5 | 0x12 => some e2m3 | 0x13 => some e3m2 | 0x14 => some e2m1
  | _ => none
/-- emax of R58. -/
def mxEmax : Nat → Int
  | 0x10 => 8 | 0x11 => 15 | 0x12 => 2 | 0x13 => 4 | 0x14 => 2
  | _ => 0
/-- Scale byte of block b of an MX unit (R57). -/
def mxScale (c : Nat) (bs : List Nat) (b : Nat) : Nat := bs.getD (32 * codeBits c + b) 0
/-- An MX element without its block scale (R58). -/
def mxElemVal (c x : Nat) : Fp :=
  match mxSpec c with
  | some f => decodeFp f x
  | none => let v := signed x 8; .num (v < 0) v.natAbs (-6) false
/-- The value of element j of an MX unit (R58, R75). -/
def mxValue (c : Nat) (bs : List Nat) (j : Nat) : Fp :=
  let x := mxScale c bs (j / 32)
  if x = 255 then .nan false else scaleFp (mxElemVal c (strElem bs (codeBits c) j)) ((x : Int) - 127)

/-- The value of an element of any unit (R71). -/
def unitValue (c : Nat) (bs : List Nat) (j : Nat) : Fp :=
  if isDx c then dxValue c bs j
  else if isMx c then mxValue c bs j
  else
    let x := strElem bs (codeBits c) j
    let x := if codeBits c ≤ 8 then x else bytesNat (bs.take (codeBits c / 8))
    match specOfCode c with
    | some f => decodeFp f x
    | none => .ofInt (signed x (codeBits c))
/-- A unit with a NaN scale, which sets the conversion flag (R75). -/
def unitNanScale (c : Nat) (bs : List Nat) : Bool :=
  if isDx c then dxScale c bs == 255
  else isMx c && (List.range 8).any fun b => mxScale c bs b == 255

/-! ## Encoding (R72 to R74) -/

/-- floor(log2) of the largest finite non-zero magnitude; none when every value is a zero. -/
def maxLog (xs : List Fp) : Option Int :=
  xs.foldl (fun acc x => match x with
    | .num _ m e _ => if m = 0 then acc else match acc with
      | none => some (log2Val m e)
      | some l => some (max l (log2Val m e))
    | _ => acc) none
def maxAbs (xs : List Fp) : Fp := xs.foldl (fun acc x => if ltFp acc x.abs then x.abs else acc) (.zero false)

/-- An MX element of a value already divided by its scale (R72). -/
def mxEncodeElem (c mode : Nat) (x : Fp) : Nat :=
  match mxSpec c with
  | some f => (roundTo f ⟨mode, true, false, none⟩ x).1
  | none =>
    match x with
    | .num n m e s => wrap (sat (roundInt mode none n m (e + 6) s).1 (-127) 127) 8
    | .inf n => wrap (if n then -127 else 127) 8
    | .nan _ => 0

/-- A block of 32 values in an MX format (R72): elements, scale byte, conversion flag. -/
def mxEncodeBlock (c mode : Nat) (xs : List Fp) : List Nat × Nat × Bool :=
  if xs.any Fp.isNan then (xs.map fun _ => 0, 255, true)
  else if xs.any Fp.isInf then (xs.map fun _ => 0, 255, true)
  else match maxLog xs with
    | none => (xs.map (mxEncodeElem c mode), 0, false)
    | some l =>
      let x := (sat (l - mxEmax c + 127) 0 254).toNat
      (xs.map fun v => mxEncodeElem c mode (scaleFp v (127 - (x : Int))), x, false)

/-- Blocks of k consecutive items. -/
def chunks {α : Type} (k : Nat) : Nat → List α → List (List α)
  | 0, _ => []
  | n + 1, xs => xs.take k :: chunks k n (xs.drop k)

/-- An MX unit of 256 values (R57, R72). -/
def mxEncode (c mode : Nat) (xs : List Fp) : List Nat × Bool :=
  let bl := (chunks 32 8 xs).map (mxEncodeBlock c mode)
  (strBytes (codeBits c) (bl.flatMap (·.1)) ++ bl.map (·.2.1), bl.any (·.2.2))

/-- A magnitude in units of 2^g, rounded under a mode with the direction of the signed value (R73). -/
def dxUnits (mode : Nat) (x : Fp) (g : Int) : Nat :=
  match x with
  | .num n m e s =>
    let (q, c, t) := splitAt m e g s
    if roundAway mode none n q c t then q + 1 else q
  | _ => 0

/-- off0 of a block with largest magnitude B (R73 step 4). B is a magnitude: RPI rounds it up and RNI down, whatever the sign of the
element that has it (log 56). -/
def dxOff0 (c mode g : Nat) (xs : List Fp) : Nat :=
  match maxLog xs with
  | none => 0
  | some l =>
    let f := dxF c
    let o := (sat ((g : Int) - 128 - l) 0 15).toNat
    if 0 < o ∧ 2 ^ f ≤ dxUnits mode (maxAbs xs) ((g : Int) - 127 - o - f) then o - 1 else o

/-- An element of a DX block (R73 step 5). -/
def dxEncodeElem (c mode g off0 : Nat) (x : Fp) : Nat :=
  let f := dxF c
  let off1 := min 15 (off0 + f)
  let m1 := dxUnits mode x ((g : Int) - 127 - off1 - f)
  let s := if x.neg? then 2 ^ (f + 1) else 0
  if m1 ≤ 2 ^ f - 1 then s + 2 ^ f + m1
  else s + min (dxUnits mode x ((g : Int) - 127 - off0 - f)) (2 ^ f - 1)

/-- The bytes of a DX group (R56). -/
def dxBytes (c : Nat) (es offs : List Nat) (g : Nat) : List Nat :=
  let b := strBytes (codeBits c) es ++ offs ++ [g]
  b ++ List.replicate (unitBytes c - b.length) 0

/-- The largest finite value of a DX format, with a sign (R55, R61). -/
def dxLargest (c : Nat) (neg : Bool) : Fp := .num neg (2 ^ dxF c - 1) (127 - (dxF c : Int)) false
/-- A group of 128 values in a DX format (R73): its bytes and the conversion flag. -/
def dxEncode (c mode : Nat) (xs : List Fp) : List Nat × Bool :=
  if xs.any Fp.isNan then (dxBytes c (xs.map fun _ => 0) [0, 0, 0, 0] 255, true)
  else if xs.any Fp.isInf then (dxBytes c (xs.map fun _ => 0) [0, 0, 0, 0] 255, true)
  else match maxLog xs with
    | none => (dxBytes c (xs.map fun x => if x.neg? then 2 ^ (dxF c + 1) else 0) [0, 0, 0, 0] 0, false)
    | some l =>
      let g := (sat (l + 129) 0 254).toNat
      let bl := chunks 32 4 xs
      let o := bl.map (dxOff0 c mode g)
      let es := (bl.zip o).flatMap fun (b, off0) => b.map (dxEncodeElem c mode g off0)
      (dxBytes c es (o.map fun off0 => off0 + 16 * min 15 (off0 + dxF c)) g, false)

/-- The direct path of R74 from four MX blocks to a DX8 group: element magnitudes and signs, and the blocks' scales. -/
def mxToDx8 (c : Nat) (els : List Nat) (scales : List Nat) : List Nat :=
  let k := if c = 0x14 then 7 else 5
  let grain : Int := if c = 0x14 then -1 else -3
  let xm := scales.foldl max 0
  let offs := scales.map fun x => min 15 (xm - x + 2)
  let exc := scales.map fun x => (xm - x + 2) - 15
  let es := (List.range 128).map fun j =>
    match mxElemVal c (els.getD j 0) with
    | .num n m e _ =>
      let u := dxUnits 0 (.num n m e false) grain
      let u' := dxUnits 0 (.num n u 0 false) (exc.getD (j / 32) 0)
      (if n then 128 else 0) + u'
    | _ => 0
  dxBytes 0x0A es (offs.map fun o => o + 16 * o) (xm + k)
/-- The condition of R74. -/
def mxToDx8Applies (src dst : Nat) (scales : List Nat) : Bool :=
  dst == 0x0A && (src == 0x14 || src == 0x12) && scales.all (· != 255) &&
  scales.foldl max 0 + (if src == 0x14 then 7 else 5) ≤ 254

/-- A unit of values in any format (R71): bytes and the conversion flag. Flags of RoundTo are dropped (R366); an
infinity encoded into a format without one sets the conversion flag (R368). An integer outside the range of a narrower
integer format becomes its minimum or maximum, whatever SAT holds (log 56). -/
def unitEncode (c mode : Nat) (saturate : Bool) (xs : List Fp) : List Nat × Bool :=
  if isDx c then dxEncode c mode xs
  else if isMx c then mxEncode c mode xs
  else
    let one (x : Fp) : Nat := match specOfCode c with
      | some f => (roundTo f ⟨mode, saturate, false, none⟩ x).1
      | none => (toIntFp (codeBits c) mode none x).1
    let lost := match specOfCode c with
      | some f => f.special != .ieee && xs.any Fp.isInf
      | none => xs.any Fp.isInf
    (strBytes (codeBits c) (xs.map one), lost)

end Sys2Proof.Machine
end

