-- ==== Sys2Proof/Machine/State.lean ====
section
/-! DEFINITION. The state of the module as plain data, and the state after module reset.
Times are in arithmetic cycles since module reset (R6) unless a field says wall-clock units (Config.usUnits). -/
namespace Sys2Proof.Machine

/-- Sparse data by key, in ascending key order. An absent key has the value its reader names. -/
abbrev Map (α : Type) := List (Nat × α)

/-! ## The sequencer and the lanes -/

/-- A register file (R318). -/
inductive File where | s | v | k
  deriving DecidableEq, Repr

/-- A level of the loop stack (R13). -/
structure LoopLevel where
  start : BitVec 14
  stop : BitVec 14
  remaining : BitVec 32
  index : BitVec 32
  deriving DecidableEq, Repr

/-- A cached translation of one leaf page (R297 to R299). `va` is the page's first address, `oa` its address in the
target's space. -/
structure PageTr where
  va : Nat
  size : Nat
  tgt : Nat
  oa : Nat
  attr : Nat
  r : Bool
  w : Bool
  d : Bool
  deriving DecidableEq, Repr

/-- Why a walk failed (R314): level, reason, failing address. -/
structure WalkFail where
  level : Nat
  reason : Nat
  va : Word
  deriving DecidableEq, Repr

/-- A range to translate (R137). `gen` numbers the probe, so that a replaced walk ends without effect. -/
structure Walk where
  base : Word
  len : Word
  r : Bool
  w : Bool
  gen : Nat
  deriving DecidableEq, Repr

/-- A handle register (R37, R137, R299). `pend` are the probes whose updates land at their issue + 64, with their s[d]
results. -/
structure Handle where
  base : BitVec 56
  len : BitVec 56
  r : Bool
  w : Bool
  valid : Bool
  pages : List PageTr
  walk : Option Walk
  fail : Option WalkFail
  pend : List (Nat × Walk)
  gen : Nat
  walkSince : Nat
  deriving DecidableEq, Repr

/-- A register result in flight (R17, R31, R32). `id` is its place in issue order, `issue` the bundle's cycle. Lane data
lands in cell c at max (land + c) floor, scalar data at max land floor. `lanes` are the lanes it writes; `data` holds
the values produced so far and not yet landed. A latch re-injected at a return has `latch` set (R320). -/
structure Result where
  id : Nat
  slot : Nat
  issue : Nat
  file : File
  reg : BitVec 5
  land : Nat
  floor : Nat
  lanes : List Nat
  data : Map Word
  latch : Bool
  deriving DecidableEq, Repr

/-- A masked write of one row, made by one lane. -/
structure RowWrite where
  lane : Nat
  addr : Nat
  val : Word
  mask : Word
  deriving DecidableEq, Repr

/-- LOCAL stores of a bundle that cells have not yet executed (R15, R193). -/
structure Skew where
  id : Nat
  stores : List RowWrite
  deriving DecidableEq, Repr

/-- A lane atomic not yet applied (R202, R203). -/
structure Atomic where
  lane : Nat
  addr : Nat
  op : Nat
  y : Word
  z : Word
  deriving DecidableEq, Repr

/-- How a typed load converts its elements (R198, R199): codes, widths, number, first element, rounding, and the lane's
generator before it. -/
structure LoadConv where
  src : Nat
  dst : Nat
  ws : Nat
  wl : Nat
  n : Nat
  first : Nat
  mode : Nat
  sat : Bool
  ftz : Bool
  gen : BitVec 32
  deriving DecidableEq, Repr

/-- A lane's load of a LOCAL row whose cell reads it after the issue cycle (R15, R193): the result it gives a value, and the
skewed stores of earlier bundles that were ahead of it. `val` is the row as the lane has it up to now. -/
structure LoadRead where
  id : Nat
  issue : Nat
  lane : Nat
  flat : Nat
  skews : List Nat
  conv : Option LoadConv
  val : Word
  deriving DecidableEq, Repr

/-- The lane atomics of one bundle issued at `issue`, with the result that takes their old values. -/
structure AtomicSet where
  id : Nat
  issue : Nat
  result : Option Nat
  ops : List Atomic
  deriving DecidableEq, Repr

/-- Segment state (R24, R317). -/
structure Segment where
  e : BitVec 20
  isOpen : Bool
  sigp : Bool
  nocyc : Bool
  expSig : BitVec 32
  crc : BitVec 32
  count : Nat
  first : Nat
  startPc : Nat
  deriving DecidableEq, Repr

/-- One row of the phase buffer with its written bits (R199, R304). -/
structure BufRow where
  val : Word
  mask : Word
  deriving DecidableEq, Repr

/-- A global entry of the phase buffer, identified by target, row address and attribute entry (R304). `va` is the
virtual address of the latest `sth`. -/
structure BufGlobal where
  tgt : Nat
  addr : Nat
  attr : Nat
  va : Nat
  val : Word
  deriving DecidableEq, Repr

/-- A trap that has been raised and not yet entered (R31, R315). -/
structure TrapInfo where
  cause : Nat
  slot : Nat
  code : Nat
  info0 : Word
  info1 : Word
  epc : Nat
  fatal : Bool
  preempt : Bool
  at_ : Nat
  deriving DecidableEq, Repr

/-- What the consumption record holds of a semaphore (R326): amounts taken and signals landed. -/
structure Consumed where
  taken : Nat
  landed : Nat
  deriving DecidableEq, Repr

/-- What a weave waits for between bundles (R127, R131): a collective boundary, whether through `barr`, its scope, its mask, the
cycle at which it has completed. -/
inductive Wait where
  | none
  | boundary (barr : Bool) (scope mask : Nat) (doneAt : Option Nat)
  deriving DecidableEq, Repr

/-- An `swait` that was served and whose bundle issues in this cycle, with what undoes the service if the bundle traps
(R31, R119). -/
structure Served where
  sem : Nat
  amount : Nat
  views : Map Nat
  viewBase : Nat
  consumed : Map Consumed
  overflow : Bool
  atom : Bool
  deriving DecidableEq, Repr

/-- The boundary that a bundle under way reaches (R25): of a `barr`, the scope of its object. -/
inductive Reaches where
  | no
  | phase (scope mask : Nat)
  | barr (scope : Nat)
  | realign (tick texp : Nat) (safe : Bool)
  | halt
  deriving DecidableEq, Repr

/-- A repeat that is still issuing on a port (R87). `frame` is the frame of the latest launch,
`steps` are PSTD0 to PSTD7 as the bundle's issue read them, `eng` is the queue that the launches enter, `virt` the issue cycle of
the next launch, after what the queue has held back (R230). With `left` 0 the last launch has issued in this cycle (R88). -/
structure RepRun where
  word : Nat
  mask : Nat
  left : Nat
  frame : List Word
  steps : List Word
  eng : EngId
  kind : Nat
  id : Nat
  virt : Nat
  deriving DecidableEq, Repr

/-- An engine port (R37, R45, R225, R261). `stack` has its top first; `tensor` is the entry of the tensor handle context that a
word of the port has captured last (log 42). -/
structure Port where
  stack : List Word
  pstd : List Word
  tensor : Option (Nat × List Word)
  kind : Nat
  inst : Nat
  ev : Bool
  ew : Bool
  tw : Bool
  q : Bool
  wk : Bool
  g : Bool
  termStart : Nat
  termWords : Nat
  rowb : Option Nat
  rep : Option RepRun
  deriving DecidableEq, Repr

/-- A Gauze message (R212, R213): sending and receiving weave, source rank, channel, rows of the active lanes, the links
still to pass, the last link that it holds, the cycle in which it completed at the receiver. -/
structure GzMsg where
  id : Nat
  src : Nat
  dst : Nat
  rank : Nat
  chan : Nat
  rows : Map Word
  path : List (Nat × Nat)
  last : Option Nat
  doneAt : Nat
  deriving DecidableEq, Repr

/-- Results in latch form, as a checkpoint keeps them (R27, R319). `rid` is the result they come from, 0 where they
were read from a frame. -/
structure LatchRec where
  rid : Nat
  file : Nat
  reg : BitVec 5
  delay : Int
  data : Map Word
  deriving DecidableEq, Repr

/-- The checkpoint of a phase (R27). -/
structure Checkpoint where
  cycle : Nat
  pc : Nat
  loops : List LoopLevel
  s : List Word
  shadow : List Word
  handles : List Handle
  k : Map Word
  v : Map Word
  fcsr : Word
  fmtsel : Word
  slipctr : Word
  ueframe : Word
  status : Word
  epc : Word
  tcause : Word
  srd : Map (BitVec 32)
  latches : List LatchRec
  tdelta : Int
  seg : Segment
  place : List Bool
  chkmask : BitVec 32
  parityBad : Bool
  jobMark : Nat
  aside : Wait
  trapSched : Nat
  eventSched : Nat
  deriving DecidableEq, Repr

/-- What a job captured at issue and at entry (R232, R342). -/
structure Captured where
  handle : Option Handle
  tensors : List (Nat × List Word)
  fmts : List (BitVec 32)
  place : List Bool
  rowb : Nat
  deriving DecidableEq, Repr

/-- A job of an engine (R230, R231). `kind`, `op` and `md` are the launch word's; a semaphore number of 256 is none;
`rows` are the destination rows whose arrived flags it cleared; `done` counts shares or steps carried out; `aux` counts the
blocks that a `cd.delta` has emitted. -/
structure Job where
  id : Nat
  weave : Nat
  port : Nat
  kind : Nat
  op : Nat
  md : Nat
  args : List Word
  wait : Nat
  sig : Nat
  rings : List Nat
  lanes : List Nat
  cap : Captured
  entered : Nat
  served : Bool
  started : Option Nat
  done : Nat
  rows : List Nat
  launch : Nat
  mark : Nat
  suppress : Bool
  refetch : Bool
  aux : Nat
  deriving DecidableEq, Repr

/-- A refill log entry (R328): a completed global load job, with its arguments, captures and destination rows. -/
structure RefillEntry where
  job : Job
  deriving DecidableEq, Repr

/-- The read of an `ldh` (R140): not asked for, under way, returned, failed. -/
inductive LdhState where | none | asked | returned | failed
  deriving DecidableEq, Repr

/-- What the leader of a redundant pair saw when a bundle issued, for the partner's issue of that bundle: the ports, the phase
buffer and the view, and what the bundle reaches (R385, R386). -/
structure Seen where
  ports : List Port
  buf : Map BufRow
  gbuf : List BufGlobal
  views : Map Nat
  viewBase : Nat
  reaches : Reaches
  deriving DecidableEq, Repr

/-- Redundant execution of a weave (R386 to R388): its running hash; on the leader the launch words in the hold queue,
the cycle of a compare point under way, what its bundle reaches once the compare has passed, whether that bundle is a phase mark
too, and whether the compare point before the bundle at the PC has passed; on the partner what the leader saw in the bundles that
the partner has yet to issue. -/
structure Redundancy where
  hash : BitVec 32
  held : List Nat
  point : Option Nat
  reach : Reaches
  mark : Bool
  compared : Bool
  seen : List Seen
  deriving DecidableEq, Repr

/-- An entry of the latch file as a halted weave's debugger sees it: the four words of its descriptor and its data block (R318,
R335), and the result that it was captured from. -/
structure LatchImage where
  rid : Nat
  words : List Word
  data : Map Word
  deriving DecidableEq, Repr

/-- Debug state of a weave (R334 to R336). -/
structure Debug where
  haltReq : Bool
  halted : Option Nat
  step : Bool
  latches : List LatchImage
  dsel : Word
  deriving DecidableEq, Repr

/-- A weave: its sequencer, its lanes and its ports. `aside` is the wait of the bundle that a handler returns to; `trapSched`
and `eventSched` are one more than the scheduled cycle of the trapping and of the event bundle, for their returns (R320);
`events` and `throttle` hold the cycles of the signals (R33, R473); `landing` is a landing point that no bundle has left
(R35), 256 times the loop level or 1 for a phase boundary; `passed` is the cycle of a phase boundary after which no bundle of
its own has issued (R33); `markedAt` is the cycle of its latest phase mark that took effect (R25); `framed` names, for results that a frame has captured, the frame and its entry, to which a value
that is produced later goes too (R319). -/
structure Weave where
  pc : BitVec 14
  loops : List LoopLevel
  s : List Word
  shadow : List Word
  handles : List Handle
  v : Map Word
  k : Map Word
  srd : Map (BitVec 32)
  fmt : List (BitVec 32)
  bank : Bool
  mode : Word
  status : Word
  fcsr : Word
  fmtsel : Word
  uevec : Word
  uecause : Word
  tvec : Word
  tcause : Word
  epc : Word
  slipctr : Word
  phaseno : Word
  chkmask : BitVec 32
  ueframe : Word
  mxrp : Word
  locbase : Word
  secbase : Word
  pairbase : Word
  errinj : Word
  coords : List Word
  ports : List Port
  flight : List Result
  skews : List Skew
  reads : List LoadRead
  atomics : List AtomicSet
  framed : List (Nat × Nat × Nat)
  texp : Nat
  seg : Segment
  segDone : Bool
  ckpt : Option Checkpoint
  buf : Map BufRow
  gbuf : List BufGlobal
  views : Map Nat
  viewBase : Nat
  launch : Option Nat
  running : Bool
  parked : Bool
  halted : Bool
  startCycle : Nat
  lastIssue : Option Nat
  fixedAt : Option Nat
  markedAt : Option Nat
  slipping : Option Nat
  lastSector : Option Nat
  lastPair : Option Nat
  wait : Wait
  aside : Wait
  served : Option Served
  walkWaited : Option Nat
  busWait : Option Nat
  ldh : LdhState
  realignTo : Option Nat
  clockSafe : Option Nat
  pendTrap : Option TrapInfo
  trapSched : Nat
  eventSched : Nat
  events : Map Nat
  throttle : Option Nat
  preempt : Bool
  preempted : Bool
  evictWarn : Bool
  landing : Option Nat
  passed : Option Nat
  pendBswap : Bool
  pendDiv : List (Option Nat)
  pendHinv : List (Nat × Nat × Nat)
  pendSwap : Option Nat
  consumed : Map Consumed
  consumedOver : Bool
  bufBad : List (Nat × Nat)
  badRegs : List (File × Nat × Nat)
  frozen : Bool
  place : List Bool
  refill : List RefillEntry
  rerun : Option (List Nat)
  gauze : List (List GzMsg)
  gzSend : List Nat
  red : Redundancy
  dbg : Debug
  deriving DecidableEq, Repr

/-! ## The sector -/

/-- Who waits on a semaphore (R119, R231). -/
inductive Waiter where
  | weave (w amount since : Nat)
  | job (eng : EngId) (since : Nat)
  | txs (sector unit since : Nat)
  deriving DecidableEq, Repr

/-- A semaphore (R118). `arms` are the weaves in sector that armed it. -/
structure Sem where
  count : Nat
  ab : Bool
  ov : Bool
  arms : List Nat
  waiters : List Waiter
  deriving DecidableEq, Repr

/-- An entry of a lease queue (R219). `promoted` is P = 8. -/
structure LeaseReq where
  weave : Nat
  port : Nat
  prio : Nat
  t : Nat
  promoted : Bool
  deriving DecidableEq, Repr

/-- A pool engine instance (R217 to R228). `asked` is the request for which it woke. -/
structure Engine where
  holder : Option (Nat × Nat)
  waking : Option (Nat × Nat)
  asked : Option LeaseReq
  wokeAt : Nat
  draining : Option (Nat × Nat)
  queue : List LeaseReq
  jobs : List Job
  div : Nat
  charge : Nat
  graceAt : Option Nat
  retired : Bool
  testing : Bool
  deriving DecidableEq, Repr

/-- The accumulator kind of an MXA (R245). -/
inductive MxKind where | none | fp64 | fp32 | int32 | dx
  deriving DecidableEq, Repr

/-- An operand stream of an MXA (R245, R246), with the tensor handle entry it captured. -/
structure MxStream where
  t : Nat
  entry : List Word
  c : Word
  step : Nat
  deriving DecidableEq, Repr

/-- Emission settings of an MXA (R244, R248). -/
structure MxEmit where
  ring : Nat
  base : Word
  gstr : Nat
  deriving DecidableEq, Repr

/-- An arithmetic error of the MXA (R382): the exact sum of an accumulator at the next k-step, or the P value of an element of
the next record, is off by a count of units of its least significant bit. -/
structure MxError where
  elem : Nat
  delta : Int
  emission : Bool
  deriving DecidableEq, Repr

/-- The MXA's internal state (R245, R254). An accumulator holds the bits that R251 gives it; `dxFine` is the unit of DX
sums; `record` is the record that is being emitted, of which `recAt` bytes are written (R248); `cut` is the KDONE
of the `mx.mm` that an `mx.sv` NOW has stopped (R252); `late` is set once the
latency of an evacuated bank has been added to the running `mx.mm` (R249); `wrong` is the error that the arithmetic is about
to make (R382; log 41). -/
structure Mxa where
  kind : MxKind
  kacc : Nat
  acc : Map Word
  a : Option MxStream
  b : Option MxStream
  emit : Option MxEmit
  emits : Nat
  resume : Nat
  dxFine : Bool
  steps : Nat
  cut : Nat
  record : List Word
  recAt : Nat
  late : Bool
  wrong : Option MxError
  deriving DecidableEq, Repr

/-- Configuration of a GXE (R261). -/
structure GxeCfg where
  handle : Handle
  fmt : BitVec 32
  rowb : Nat
  nrows : Nat
  deriving DecidableEq, Repr

/-- The GXE's internal state (R259, R268). Of the running job: `stopped` tells that the address side stands under loss of decoupling; `pos` entries are translated and `queue` holds those not
yet consumed, with the cycle at which their rows are there; `ent` entries are consumed; `part` are the bytes that have
arrived of the next one, `bad` when some were poisoned; `row` are output bytes not yet written and `out` those written;
`acc` are the sums of a bag. -/
structure Gxe where
  cfg : Option GxeCfg
  fetched : Nat
  oor : Nat
  pois : Nat
  lodcyc : Nat
  iwcyc : Nat
  first : Option (Nat × Nat)
  stopped : Bool
  pos : Nat
  queue : List (Nat × Nat)
  ent : Nat
  part : List Nat
  bad : Bool
  row : List Nat
  out : Nat
  acc : List Word
  deriving DecidableEq, Repr

/-- An address generator of a TXS (R286). -/
structure Agen where
  base : Word
  strides : List Word
  pitch : Word
  deriving DecidableEq, Repr

/-- A TXS loop level (R288, R291). -/
structure TxsLevel where
  start : Nat
  remaining : Nat
  index : Nat
  deriving DecidableEq, Repr

/-- The TXS's internal state (R259, R291). `levels` has the outermost first; `busyTo` is the cycle after the instruction
under way. -/
structure Txs where
  pc : Nat
  levels : List TxsLevel
  gens : List Agen
  words : List Word
  state : Nat
  fault : Nat
  busyTo : Nat
  deriving DecidableEq, Repr

/-- A field test under way on a unit (R390 to R392). -/
structure FieldTest where
  unit : UnitName
  endsAt : Nat
  deriving DecidableEq, Repr

/-- A sector (R402). `heldFor` is the blocked launch for which the command processor has freed it (R422). -/
structure Sector where
  sems : Map Sem
  unarrived : List Nat
  thandles : Map (List Word)
  engines : List (List Engine)
  mxa : Mxa
  gxe : List Gxe
  txs : List Txs
  budget : Nat
  pendBudget : Option Nat
  slipCount : Nat
  slipTick : Nat
  owner : Option Nat
  launch : Option Nat
  preloaded : Option Nat
  kept : Bool
  heldFor : Option Nat
  temp : Nat
  deriving DecidableEq, Repr

/-- A queue of a copy engine: a load or a store queue of one weave (R234). -/
structure CopyQueue where
  jobs : List Job
  deriving DecidableEq, Repr

/-! ## Memory shared between weaves -/

/-- A write in a row's coherence order (R300, R301), with the scopes and units it is published at. -/
structure Version where
  id : Nat
  val : Word
  pubs : List (Nat × Nat)
  writer : Nat
  deriving DecidableEq, Repr

/-- Refresh state of a weave's towers (R345). -/
structure Refresh where
  last : Nat
  defer_ : Nat
  blackoutEnd : Nat
  deriving DecidableEq, Repr

/-- Where an evacuated bank lies: tower and bank, and the order of its evacuation (R351, R356). -/
structure Evac where
  tower : Nat
  bank : Nat
  seq : Nat
  deriving DecidableEq, Repr

/-- What a bank is being moved by: an evacuation, a spill, a return (R351, R357). -/
inductive MoveKind where | evacuate | spill | return
  deriving DecidableEq, Repr

/-- A bank that is being moved (R351, R357): logical weave and cell, the target of an evacuation, whether its copy is
complete, the timed launches whose boundary its commit waits for, and whether the governor has cleared the mark of a bank that spills, or
set that of a bank that returns, meanwhile. -/
structure Move where
  weave : Nat
  cell : Nat
  kind : MoveKind
  target : Evac
  copied : Bool
  waits : List Nat
  back : Bool
  deriving DecidableEq, Repr

/-- The maps of a tower: remap entries that differ from identity (R347), evacuated banks, spilled banks with their
addresses in HBM, banks that are being moved (R351, R356). -/
structure Tower where
  remap : Map (BitVec 8)
  evac : Map Evac
  spilled : Map Nat
  moving : Map Move
  deriving DecidableEq, Repr

/-! ## The command processor -/

/-- A command that a queue has read and that has not completed (R404). `idx` is its ring index. -/
structure Command where
  idx : Nat
  kind : Nat
  ord : Bool
  num : Nat
  addr : Nat
  value : Word
  began : Bool
  launch : Option Nat
  deriving DecidableEq, Repr

/-- What a queue offers to dispatch: a parked launch, a node of a graph, a command (R406, R422, R427). -/
inductive Head where
  | resume (launch : Nat)
  | node (graph node : Nat)
  | cmd (idx : Nat)
  deriving DecidableEq, Repr

/-- A queue's registers and position (R403, R438). HEAD and TAIL are kept modulo 2^28. `armed` are the records that
`larm` has put on it and that are not yet fetched, with their ring index (R142); `reading` tells a ring entry on its way;
`timers` are its eligible heads with the wall-clock times from which they have been so (R406), `served` its
dispatches of the present round; `parked` are its parked launches (R422). -/
structure Queue where
  qcfg : Word
  qbase : Word
  head : Nat
  tail : Nat
  halted : Bool
  err : Nat
  recno : Nat
  cmds : List Command
  reading : Bool
  timers : List (Head × Nat)
  served : Nat
  armed : List (Nat × Nat)
  parked : List Nat
  deriving DecidableEq, Repr

/-- A graph that runs as a queue's command (R424 to R428). Node states: 0 waits, 1 is offered, 2 runs, 3 is complete;
`launches` are the launches of kernel nodes, `iters` the iterations of loop nodes, `copied` the bytes done by copy and fill
nodes, `pages` the translations of their sources and destinations, from their start (R426). -/
structure GraphRun where
  queue : Nat
  cmd : Nat
  num : Nat
  va : Nat
  nodes : List (List Word)
  states : Map Nat
  launches : Map Nat
  iters : Map Nat
  lastIters : Nat
  loopMax : Bool
  failed : Option Nat
  copied : Map Nat
  pages : Map (List PageTr × List PageTr)
  deriving DecidableEq, Repr

/-- A context entry with its fault record, owner, Damask table, fabric group, energy and debugger attachment (R401, R363,
R364, R435, R444, R459, R462). -/
structure Context where
  words : List Word
  fault : List Word
  fn : Nat
  damask : List (BitVec 32)
  damStat : List Word
  damPend : List (Nat × BitVec 32)
  group : Word
  members : Map Nat
  collNo : Nat
  energy : Nat
  att : Bool
  deriving DecidableEq, Repr

/-- A barrier instance (R129). -/
structure BarInst where
  e : Nat
  a : Nat
  gen : Bool
  arrived : List Nat
  viaBarr : List Nat
  dropped : List Nat
  deriving DecidableEq, Repr

/-- A barrier object of a launch (R129): its scope and its instances by scope and unit. -/
structure Barrier where
  scope : Nat
  insts : Map BarInst
  deriving DecidableEq, Repr

/-- A collective boundary that participants wait for (R127). -/
structure Boundary where
  bar : Option Nat
  scope : Nat
  unit : Nat
  waiting : List Nat
  deriving DecidableEq, Repr

/-- A launch that the command processor has fetched: the record, and where it runs (R408 to R422). `pend` are the pending
events, throttle events and boundaries passed of its weaves across a park (R321); `energyAt` is the context's billed energy at
launch start (R40). `cmd` is its command's ring
index, or its graph where `node` names a node; `event` and `evValue` are the entry's ADDR and VALUE; `ready` are the sectors
that are initialised; `starts` its weaves' launch starts; `ran` the run time before its latest start in wall-clock units;
`savedTo` where a parked launch is saved, `savedLen` bytes long; `after` the launch that must end before it resumes; `yields` the blocked launch that it is pre-empted for (R422). -/
structure Launch where
  ctx : Nat
  queue : Nat
  cmd : Nat
  prio : Nat
  record : List Word
  sectors : List Nat
  weaves : List Nat
  blocks : List Nat
  pairs : Bool
  timed : Bool
  started : Option Nat
  startTick : Nat
  halted : List Nat
  parked : List Nat
  halves : Nat
  regions : List (Nat × Nat × Nat)
  preempting : Option Nat
  savedTo : Option Nat
  resumed : Bool
  bars : Map Barrier
  bounds : List Boundary
  event : Nat
  evValue : Word
  fatal : Bool
  node : Option Nat
  overrun : Bool
  ended : Bool
  retry : Nat
  recNum : Nat
  startedWall : Nat
  ready : List Nat
  starts : List Nat
  pend : List (Map Nat × Option Nat × Option Nat)
  energyAt : Option Nat
  ran : Nat
  savedLen : Nat
  after : Option Nat
  yields : Option Nat
  deriving DecidableEq, Repr

/-! ## Host link, fabric, collectives, logs, power -/

/-- A ring of the error log or the poison log (R397): entry words by place. -/
structure LogRing where
  head : Nat
  tail : Nat
  lost : Nat
  entries : Map (List Word)
  deriving DecidableEq, Repr

/-- A Porlen port (R445, R448, R449). A flit that waits is kept with the origin of its flow: the sector, and above it, times 256, the
job that sends it plus 1. `again` is the SEQ of the flit that was replayed last, and how often in a row. -/
structure Link where
  up : Bool
  en : Bool
  deny : Nat
  replay : Nat
  credits : List Nat
  due : List Nat
  sendQ : List (Nat × Flit)
  unacked : List (Nat × Flit)
  nextSeq : Nat
  expect : Nat
  dead : Bool
  again : Option (Nat × Nat)
  deriving DecidableEq, Repr

/-- A read that a peer module has been asked for (R447, R454). -/
structure PeerRead where
  id : Nat
  src : ReadSource
  port : Nat
  addr : Nat
  dst : Nat
  va : Nat
  nw : Nat
  data : Option (List Word)
  failed : Bool
  since : Nat
  deriving DecidableEq, Repr

/-- A collective in progress (R460): descriptors and contributions by rank. `started` tells that this member has started it,
`failed` that another member reports a failure. -/
structure Collective where
  sector : Nat
  off : Nat
  desc : List Word
  descs : Map (List Word)
  data : Map (List Word)
  started : Bool
  failed : Bool
  deriving DecidableEq, Repr

/-- What the module has sent (R310, R440, R446). -/
inductive Sent where
  | flit (port : Nat) (f : Flit)
  | replayRequest (port seq : Nat)
  | hostWrite (addr : Nat) (bytes : List Byte)
  | hostRead (addr n : Nat)
  | fetchAdd (addr : Nat) (v : Word)
  | msix (fn vec : Nat)
  | readData (fn : Nat) (bytes : List Byte)
  | unsupported (fn : Nat)
  | digest (d : BitVec 384)
  | signature (x : BitVec 768)
  deriving DecidableEq, Repr

/-- An entry of the health table (R394 to R396). `corrAt` and `mismAt` are the wall-clock times of corrected errors and of
residue mismatches (R383). -/
structure Health where
  state : Nat
  overdue : Bool
  pass : Nat
  fail : Nat
  lastFail : Bool
  corrAt : List Nat
  uncorr : Nat
  ltime : Nat
  sig : Nat
  margin : Nat
  eol : Nat
  eolSeen : Bool
  segc : Nat
  mismAt : List Nat
  deriving DecidableEq, Repr

/-- The host link's registers and sessions (R434 to R443, R450, R457, R477). `images` are the firmware images of slots A and B and
`record` the configuration record, as the flash holds them; `prevVersion` is the version of the record before it (R477, R479, R480;
log 15). -/
structure HostLink where
  haper : List Word
  modid : Nat
  access : Map Word
  receive : Map Word
  routes : Map Word
  sources : Map Word
  msixTable : Map Word
  msixPend : Map Word
  inject : Map Word
  errLog : LogRing
  poisonLog : LogRing
  updAddr : Word
  updLen : Word
  updState : Nat
  updErr : Nat
  slot : Bool
  images : List FirmwareImage
  record : ConfigRecord
  prevVersion : Nat
  ideOn : Bool
  session : Nat
  atomicOps : List Bool
  deriving DecidableEq, Repr

/-- The governor's and the boot's state (R463 to R479). `lowering` tells that the pending step is one that the governor lowers for heat,
`owed` that it is to lower one as soon as it may (R471); `safeStep` and `safeBudget` what firmware has written since the safe state began
(R476); `bootIn` are the inputs of the boot under way, `warm` tells that Alapavor alone starts again, `cpOn` that the command processor is
enabled (R475, R477, R479). -/
structure Power where
  railAsked : Nat
  rail : Nat
  pendStep : Option Nat
  forced : Option Nat
  forcedBy : Nat
  tripNow : Bool
  stretched : Option Nat
  tripSince : Option Nat
  hotTrip : Bool
  hotSince : Option Nat
  lowFlowSince : Option Nat
  inlet : Nat
  outlet : Nat
  flow : Nat
  clkev : Nat
  shut : Bool
  safe : Bool
  safePend : Bool
  boot : Nat
  berr : Nat
  readyAt : Nat
  watchdog : Option Nat
  stepAt : Nat
  lowering : Bool
  owed : Bool
  safeStep : Bool
  safeBudget : Bool
  bootIn : Option BootInputs
  warm : Bool
  cpOn : Bool
  deriving DecidableEq, Repr

/-! ## What no row of the opcode table brings (R2, R371 to R383; log 41) -/

/-- The bits of a stored 64-bit word that differ from what was written: of the word, and of its 4 horizontal parity bits
(R372). For a parity row, `row` is the first data row of its vertical group (R371). -/
structure Flip where
  row : Nat
  data : Word
  par : BitVec 4
  deriving DecidableEq, Repr

/-- A bundle that a weave has issued in the last cycles, and the weave as the bundle read it: what its later cells compute is
computed again where a value that they read comes late (R15, R193, R203; log 13). `rids` are the numbers of its results, by slot,
file and register; `skew`, `atom` and `msg` those of its LOCAL stores, its atomics and its Gauze message. -/
structure Played where
  issue : Nat
  firstId : Nat
  words : List Nat
  wv : Weave
  rids : List (Nat × File × BitVec 5 × Nat)
  skew : Option Nat
  atom : Option Nat
  msg : Option Nat
  deriving DecidableEq, Repr

/-- A lane of a result has become another value than bundles may have read; of a typed load, the row before and after (log 13). -/
structure Fix where
  rid : Nat
  lane : Nat
  val : Word
  row : Option (Nat × Word × Word)
  deriving DecidableEq, Repr

/-- What comes from outside without a row of the opcode table. Physics: bits of a word of an array, or of its parity row,
flip; symbols of an HBM request err; a scalar, lane or predicate register (a lane of it) takes wrong parity, or a row of the phase buffer (space 0) or a
buffered global row (space 1 + its target); a read of a handle register, a CSR, the loop stack, a port stack or a latch of a weave
fails its parity, or a checkpoint or an engine does; the bits of a scalar (file 0), lane (1) or predicate (2) register
change unseen; an MXA step errs; a word arrives flagged over a vertical bus or another wire at a
weave or a job (R372, R376, R378, R379, R382). The host: it stores to its own memory, enables AtomicOp requests of a
function, reads BAR0, and sends a row of the opcode table in or outside the IDE stream (R2, R311, R435, R441, R443). Running firmware:
it restarts the watchdog (R475). A link partner: it asks a port for a replay from a SEQ (R449). -/
inductive Outer where
  | word (row : Nat) (data : Word) (par : BitVec 4)
  | parity (row : Nat) (data : Word) (par : BitVec 4)
  | hbm (request pos : Nat) (data : BitVec 16)
  | register (w : Nat) (file : File) (reg lane : Nat)
  | control (w : Nat)
  | unseen (w file reg lane : Nat) (data : Word)
  | buffer (w space row : Nat)
  | checkpoint (w : Nat)
  | engine (eng : EngId)
  | residue (sector : Nat) (err : MxError)
  | wire (bus : Option (Nat × Nat)) (w : Nat) (job : Option EngId) (row : Nat)
  | hostStore (addr : Nat) (data : List Byte)
  | atomicOps (fn : Nat) (on : Bool)
  | barRead (fn off size : Nat)
  | watchdogRestart
  | replay (port seq : Nat)
  | tlp (ide : Bool) (row : Instr)
  deriving DecidableEq, Repr

/-! ## What is due -/

/-- What the machine itself has scheduled, and `outer`, which it never schedules and which stands in the agenda from the start.
Each constructor that shares a name with a row of the opcode table is that row; the others are the parts that an issue, an
engine or a service consists of. -/
inductive Act where
  | issue (w : Nat)
  | lateIssue (w : Nat)
  | sample (w sem id : Nat)
  | ldhReturn (w : Nat)
  | swaitServed (sector sem : Nat)
  | weaveBoundary (w mask : Nat)
  | haltPublish (w : Nat)
  | collectiveBoundaryCompletion (launch scope unit : Nat)
  | barrierCompletion (launch bar scope unit : Nat)
  | probeUpdate (w h gen : Nat)
  | probeWalkCompletion (w h gen : Nat)
  | repLaunch (w port : Nat)
  | laneAtomicApply (w id cell : Nat)
  | gauzeMessageArrival (w id : Nat)
  | gauzeHop (id : Nat)
  | gauzeFree (w id : Nat)
  | launchWordEntry (w id : Nat)
  | jobStart (eng : EngId)
  | jobStep (eng : EngId) (id : Nat)
  | jobHeld (eng : EngId) (id : Nat)
  | jobCompletion (eng : EngId) (id : Nat)
  | txsSignal (sector unit sem : Nat)
  | mxrp (w : Nat) (v : Bool) (kdone : Nat)
  | mxEmit (eng : EngId) (id : Nat)
  | chkResult (sector : Nat) (fail : Bool)
  | txs (sector unit : Nat)
  | resultLanding (w id cell : Nat)
  | wavefrontSkewExecution (w id cell : Nat)
  | trapEntry (w : Nat)
  | fatalContextError (w : Nat)
  | userEventEntry (w sem : Nat)
  | latchLanding (w id cell : Nat)
  | evict (w : Nat)
  | graceEnd (sector kind idx : Nat)
  | leaseGrant (sector kind idx : Nat)
  | termEnd (sector kind idx : Nat)
  | drainEnd (sector kind idx : Nat)
  | leaseHandover (sector kind idx : Nat)
  | leasePromotion (sector kind idx w port : Nat)
  | preempt (w : Nat)
  | preemptSave (launch : Nat)
  | preemptLandingTimeout (launch : Nat)
  | launchResume (launch : Nat)
  | recoveryVerdict (id : Nat)
  | phaseRerun (w : Nat)
  | comparePoint (w : Nat)
  | refresh (w : Nat)
  | refreshBlackoutEnd (w : Nat)
  | evacuate (w cell bank : Nat)
  | evacuationCommit (w cell bank : Nat)
  | spillCommit (w cell bank : Nat)
  | fieldTestStart (unit : UnitName)
  | busSpareTakeover (pair bus : Nat)
  | testOverdue (unit : UnitName)
  | queueRead (queue : Nat)
  | eventWordPoll (queue cmd : Nat)
  | dispatch
  | headPromotion (queue : Nat)
  | launchReady (launch sector : Nat)
  | launchStart (launch : Nat)
  | launchCompletion (launch : Nat)
  | preload (queue : Nat)
  | tlimitOverrun (launch : Nat)
  | nodeStep (graph node : Nat)
  | loopPredicateRead (queue node : Nat)
  | graphCompletion (queue : Nat)
  | creditReturn (port vc : Nat)
  | portRetirement (port : Nat)
  | billingSend (src : Nat) (tag : BitVec 16)
  | collectiveStart (sector off : Nat)
  | collectiveCompletion (ctx : Nat)
  | clockApply
  | limits
  | governor
  | bootStage
  | firmwareVerdict (flashOk : Bool)
  | flagWord (w row : Nat) (unc injected : Bool)
  | cancelAt (w src unit row : Nat) (injected : Bool)
  | partnerIssue (w : Nat)
  | partnerTime (w n : Nat) (slip : Bool)
  | partnerHalt (w : Nat) (ret : Option Nat)
  | replay (w : Nat)
  | partnerBoundary (w mask : Nat)
  | budgetApply (sector : Nat)
  | peerTimeout (id : Nat)
  | throttleEvent (w : Nat)
  | charges (sector : Nat)
  | eventWritten (addr : Nat) (val : Word)
  | headFetched (queue idx node : Nat)
  | launchInit (launch : Nat) (keep : Bool) (loaded : Option Nat)
  | signalCmd (queue cmd : Nat)
  | peerWord (w : Nat)
  | dropWords (id : Nat)
  | outer (u : Outer)
  | patrolRow (row : Nat)
  | hbmPatrolRow (request : Nat)
  | healthScan
  deriving DecidableEq, Repr

/-- A word on a peer module's page that an operation of the command processor, or an `lpatch` or `larm`, reads: its request, none before it
is sent, and what came, none inside where the read failed (R404, R411, R427; log 62). -/
structure CpWord where
  op : Act
  ctx : Nat
  addr : Nat
  va : Nat
  id : Option Nat
  val : Option (Option Word)
  deriving DecidableEq, Repr

/-- When something is due: at a cycle, or at the first cycle at or after a wall-clock time. -/
inductive Due where
  | cycle (n : Nat)
  | wall (u : Nat)
  deriving DecidableEq, Repr

/-- An entry of the agenda. Within a cycle, entries run in ascending band, then ascending `sub`, then in the order in
which they were entered (R119, R203; log 12). -/
structure Entry where
  due : Due
  band : Nat
  sub : Nat
  act : Act
  deriving DecidableEq, Repr

/-- The issue context of the bundle under way: what its prefixes and its other syllables tell a syllable. `word` and
`slot` are those of the syllable that executes; `target` is a redirected next PC, `skip` the one after
a loop of count 0, whose bundle takes no branch (R115, R116); `reaches` the boundary it
reaches; `done` ends the weave's issue (`halt`, `eret`, `evret` schedule their own); `flags` are those that the bundle
raised; `fpx` holds those whose TE bit is set, with the slot that FPX names (R189); `outside` says that a served `swait` of the
bundle took a 17th semaphore (R326); `held` names the condition of R20 (a code of R314) that holds the bundle; `late` says that
the semaphores of the cycle have been serviced (R119), `again` that a bundle which has issued is computed once more (log 13). -/
structure Iss where
  pc : Nat
  len : Nat
  slot : Nat
  word : BitVec 32
  lit : Option (BitVec 24)
  mark : Bool
  gap : Option Nat
  seg : Option Nat
  sigl : Option Nat
  sigh : Option Nat
  rep : Option (BitVec 8 × BitVec 12)
  repSlot : Nat
  repWord : BitVec 32
  target : Option Nat
  skip : Option Nat
  reaches : Reaches
  done : Bool
  flags : Nat
  fpx : Nat
  fpxSlot : Nat
  outside : Bool
  held : Option Nat
  late : Bool
  again : Bool
  deriving DecidableEq, Repr

/-- A flagged word that waits for its verdict (R373): its array, its row, the weave that froze for it, or the job that
paused for it. -/
structure Recovery where
  id : Nat
  array : Nat
  row : Nat
  weave : Option Nat
  job : Option (EngId × Nat)
  unc : Bool
  injected : Bool
  since : Nat
  deriving DecidableEq, Repr

/-! ## The module -/

/-- The whole machine but for the snapshot of the issue cycle. -/
structure Core where
  now : Nat
  wall : Nat
  nextId : Nat
  freeCtr : Nat
  verCtr : Nat
  weaves : Map Weave
  sectors : Map Sector
  copies : Map CopyQueue
  mem : List Host.Cell
  vers : Map (List Version)
  poison : List Nat
  hbmPoison : List Nat
  hbmInjected : List Nat
  flips : List Flip
  parityFlips : List Flip
  hbmFlips : Map (List (Nat × BitVec 16))
  hbmFixed : List Nat
  busHits : Map (List Nat)
  gzNet : List GzMsg
  gzLinks : Map Nat
  recoveries : List Recovery
  recBusy : Map Nat
  towers : Map Tower
  cellMaps : Map (List Nat)
  busMaps : Map (List Nat)
  refreshes : Map Refresh
  launches : Map Launch
  contexts : Map Context
  queues : Map Queue
  lastServed : Nat
  graphs : Map GraphRun
  links : Map Link
  peerReads : List PeerRead
  cpOp : Option Act
  cpWords : List CpWord
  collectives : Map Collective
  bills : Map Nat
  outbox : List Sent
  health : Map Health
  tests : List FieldTest
  host : HostLink
  power : Power
  clockStep : Nat
  agenda : List Entry
  inbox : List (Nat × Instr)
  played : Map (List Played)
  fixes : Map (List Fix)
  cur : Nat
  curTxs : Nat × Nat
  iss : Iss
  deriving DecidableEq, Repr

/-- The machine. `base` is the machine as it stood at the issue cycle of the bundle under way, which every syllable of
the bundle reads (R9, R14) and to which a trap returns (R31). -/
structure State where
  core : Core
  base : Option Core
  deriving DecidableEq, Repr

/-- Why the machine stops. -/
inductive Fault where
  /-- An event from outside names a unit that the module does not have, or carries operands that its row does not admit
  (Instr.wf). Raised by `step`. Safe: the model stops where no module receives such an event. -/
  | illFormed
  deriving DecidableEq, Repr

/-- Why an instruction has no meaning. -/
inductive Refusal where
  /-- The instruction's meaning is not written. Raised by `exec`. Safe. -/
  | notModelled (mnemonic : String)
  deriving DecidableEq, Repr

/-! ## Reset -/

def LoopLevel.none : LoopLevel := ⟨0, 0, 0, 0⟩
/-- A handle register before any probe (R37; log 4). -/
def Handle.reset : Handle := ⟨0, 0, false, false, false, [], none, none, [], 0, 0⟩
/-- A port with no lease (R45): KIND 7. -/
def Port.reset : Port :=
  ⟨[], List.replicate 8 0, none, 7, 0, false, false, false, false, false, false, 0, 0, none, none⟩
/-- Port 3: the copy engine, KIND 6 and G 1 always (R45). -/
def Port.copyEngine : Port := { Port.reset with kind := 6, g := true }
/-- No segment open (R24). -/
def Segment.reset : Segment := ⟨0, false, false, false, 0, 0xFFFFFFFF, 0, 0, 0⟩
def Redundancy.reset : Redundancy := ⟨0xFFFFFFFF, [], none, .no, false, false, []⟩
def Debug.reset : Debug := ⟨false, none, false, [], 0⟩
/-- A weave that runs no launch. The register values are those of log 4. -/
def Weave.reset : Weave where
  pc := 0
  loops := []
  s := List.replicate 32 0
  shadow := List.replicate 8 0
  handles := List.replicate 16 Handle.reset
  v := []
  k := []
  srd := []
  fmt := List.replicate 64 0
  bank := true
  mode := 0
  status := 0
  fcsr := 0
  fmtsel := 0
  uevec := 0
  uecause := 0
  tvec := 0
  tcause := 0
  epc := 0
  slipctr := 0
  phaseno := 0
  chkmask := 0
  ueframe := 0
  mxrp := 0
  locbase := 0
  secbase := 0
  pairbase := 0
  errinj := 0
  coords := List.replicate 8 0
  ports := [Port.reset, Port.reset, Port.reset, Port.copyEngine]
  flight := []
  skews := []
  reads := []
  atomics := []
  framed := []
  texp := 0
  seg := Segment.reset
  segDone := false
  ckpt := none
  buf := []
  gbuf := []
  views := []
  viewBase := 0
  launch := none
  running := false
  parked := false
  halted := false
  startCycle := 0
  lastIssue := none
  fixedAt := none
  markedAt := none
  slipping := none
  lastSector := none
  lastPair := none
  wait := .none
  aside := .none
  served := none
  walkWaited := none
  busWait := none
  ldh := .none
  realignTo := none
  clockSafe := none
  pendTrap := none
  trapSched := 0
  eventSched := 0
  events := []
  throttle := none
  preempt := false
  preempted := false
  evictWarn := false
  landing := none
  passed := none
  pendBswap := false
  pendDiv := [none, none, none]
  pendHinv := []
  pendSwap := none
  consumed := []
  consumedOver := false
  bufBad := []
  badRegs := []
  frozen := false
  place := List.replicate 16 false
  refill := []
  rerun := none
  gauze := List.replicate 8 []
  gzSend := []
  red := Redundancy.reset
  dbg := Debug.reset
/-- A semaphore at reset (R118). -/
def Sem.reset : Sem := ⟨0, false, false, [], []⟩
/-- An idle instance (R217). -/
def Engine.reset : Engine := ⟨none, none, none, 0, none, [], [], 1, 0, none, false, false⟩
/-- The MXA after a grant (R245). -/
def Mxa.reset : Mxa := ⟨.none, 0, [], none, none, none, 0, 0, true, 0, 0, [], 0, false, none⟩
/-- The GXE after a grant (R259). -/
def Gxe.reset : Gxe := ⟨none, 0, 0, 0, 0, 0, none, false, 0, [], 0, [], false, [], 0, []⟩
def Agen.reset : Agen := ⟨0, List.replicate 6 0, 0⟩
/-- The TXS after a grant (R259): STATE 3. -/
def Txs.reset : Txs := ⟨0, [], List.replicate 8 Agen.reset, List.replicate 32 0, 3, 0, 0⟩
/-- A sector at module reset: budget 16 DU (R218). -/
def Sector.reset : Sector where
  sems := []
  unarrived := []
  thandles := []
  engines := [[.reset], [.reset, .reset], [.reset, .reset], [.reset, .reset], [.reset, .reset], [.reset]]
  mxa := Mxa.reset
  gxe := [Gxe.reset, Gxe.reset]
  txs := [Txs.reset, Txs.reset]
  budget := Config.resetBudget
  pendBudget := none
  slipCount := 0
  slipTick := 0
  owner := none
  launch := none
  preloaded := none
  kept := false
  heldFor := none
  temp := 0
def Refresh.reset : Refresh := ⟨0, 0, 0⟩
def Tower.reset : Tower := ⟨[], [], [], []⟩
def Queue.reset : Queue := ⟨0, 0, 0, 0, false, 0, 0, [], false, [], 0, [], []⟩
/-- A context entry at reset: Damask entry 0 has V = 1 (R363). -/
def Context.reset : Context :=
  ⟨List.replicate 8 0, List.replicate 6 0, 0, 0x80000000 :: List.replicate 15 0, List.replicate 16 0, [], 0, [], 0, 0, false⟩
def Link.reset : Link := ⟨false, false, 0, 0, [64, 64, 64], [0, 0, 0], [], [], 0, 0, false, none⟩
def LogRing.reset : LogRing := ⟨0, 0, 0, []⟩
/-- A unit of which nothing is known: in service, end of life unknown (R395). -/
def Health.reset : Health := ⟨0, false, 0, 0, false, [], 0, 0, 0, 0, 0xFFFF, false, 0, []⟩
/-- A record that changes no map and retires nothing (log 15). -/
def ConfigRecord.reset : ConfigRecord := ⟨[], true, 0, 0, [], [], [], []⟩
def HostLink.reset : HostLink where
  haper := List.replicate 17 0
  modid := 0
  access := []
  receive := []
  routes := []
  sources := []
  msixTable := []
  msixPend := []
  inject := []
  errLog := LogRing.reset
  poisonLog := LogRing.reset
  updAddr := 0
  updLen := 0
  updState := 0
  updErr := 0
  slot := false
  images := [⟨[], true, 0⟩, ⟨[], true, 0⟩]
  record := ConfigRecord.reset
  prevVersion := 0
  ideOn := false
  session := 0
  atomicOps := List.replicate 17 false
/-- The governor before boot: step 4, the lowest rail (R463, R478; log 4). -/
def Power.reset : Power where
  railAsked := 600
  rail := 600
  pendStep := none
  forced := none
  forcedBy := 0
  tripNow := false
  stretched := none
  tripSince := none
  hotTrip := false
  hotSince := none
  lowFlowSince := none
  inlet := 0
  outlet := 0
  flow := 0
  clkev := 0
  shut := false
  safe := false
  safePend := false
  boot := 0
  berr := 0
  readyAt := 0
  watchdog := none
  stepAt := 0
  lowering := false
  owed := false
  safeStep := false
  safeBudget := false
  bootIn := none
  warm := false
  cpOn := false
/-- No bundle under way. -/
def Iss.reset : Iss where
  pc := 0
  len := 1
  slot := 0
  word := 0
  lit := none
  mark := false
  gap := none
  seg := none
  sigl := none
  sigh := none
  rep := none
  repSlot := 0
  repWord := 0
  target := none
  skip := none
  reaches := .no
  done := false
  flags := 0
  fpx := 0
  fpxSlot := 0
  outside := false
  held := none
  late := false
  again := false

/-- The module right after module reset, before the boot stages have run (R479): nothing runs, and the one thing due is
the health state machine's first look (R390; log 52). -/
def State.reset : State where
  core := {
    now := 0
    wall := 0
    nextId := 1
    freeCtr := 0
    verCtr := 1
    weaves := []
    sectors := []
    copies := []
    mem := []
    vers := []
    poison := []
    hbmPoison := []
    hbmInjected := []
    flips := []
    parityFlips := []
    hbmFlips := []
    hbmFixed := []
    busHits := []
    gzNet := []
    gzLinks := []
    recoveries := []
    recBusy := []
    towers := []
    cellMaps := []
    busMaps := []
    refreshes := []
    launches := []
    contexts := []
    queues := []
    lastServed := 127
    graphs := []
    links := []
    peerReads := []
    cpOp := none
    cpWords := []
    collectives := []
    bills := []
    outbox := []
    health := []
    tests := []
    host := HostLink.reset
    power := Power.reset
    clockStep := 4
    agenda := [⟨.wall Config.secUnits, 14, 0, .healthScan⟩]
    inbox := []
    played := []
    fixes := []
    cur := 0
    curTxs := (0, 0)
    iss := Iss.reset }
  base := none

end Sys2Proof.Machine
end

