-- ==== Sys2Proof/Machine/Ops.lean ====
section
/-! DEFINITION. The named operations over the state: sparse maps, the agenda, memory with its canonical form, the
coherence order and views of shared rows, registers with their results in flight, semaphores, phase boundaries, taking
a trap and returning from one. -/
namespace Sys2Proof.Machine

/-- What a meaning answers. -/
abbrev Out := Host.Outcome State Fault Refusal

/-! ## Sparse maps -/

def mget? {α : Type} : Map α → Nat → Option α
  | [], _ => none
  | (j, x) :: m, k => if j = k then some x else mget? m k
def mget {α : Type} (m : Map α) (k : Nat) (d : α) : α := (mget? m k).getD d
def mset {α : Type} : Map α → Nat → α → Map α
  | [], k, v => [(k, v)]
  | (j, x) :: m, k, v => if j < k then (j, x) :: mset m k v else if j = k then (k, v) :: m else (k, v) :: (j, x) :: m
def mdel {α : Type} (m : Map α) (k : Nat) : Map α := m.filter fun p => p.1 != k
/-- Replace item i of a list by f of it. -/
def lmod {α : Type} (xs : List α) (i : Nat) (f : α → α) : List α :=
  (xs.zip (List.range xs.length)).map fun (x, j) => if j = i then f x else x

/-! ## Units and accessors -/

def Core.weave (c : Core) (w : Nat) : Weave := mget c.weaves w Weave.reset
def Core.setW (c : Core) (w : Nat) (x : Weave) : Core := { c with weaves := mset c.weaves w x }
def Core.modW (c : Core) (w : Nat) (f : Weave → Weave) : Core := c.setW w (f (c.weave w))
def Core.sector (c : Core) (n : Nat) : Sector := mget c.sectors n Sector.reset
def Core.setSec (c : Core) (n : Nat) (x : Sector) : Core := { c with sectors := mset c.sectors n x }
def Core.modSec (c : Core) (n : Nat) (f : Sector → Sector) : Core := c.setSec n (f (c.sector n))
def Core.tower (c : Core) (k : Nat) : Tower := mget c.towers k Tower.reset
def Core.modTower (c : Core) (k : Nat) (f : Tower → Tower) : Core := { c with towers := mset c.towers k (f (c.tower k)) }
def Core.launch? (c : Core) (l : Nat) : Option Launch := mget? c.launches l
def Core.modL (c : Core) (l : Nat) (f : Launch → Launch) : Core :=
  match mget? c.launches l with
  | some x => { c with launches := mset c.launches l (f x) }
  | none => c
/-- The launch that a weave runs. -/
def Core.launchOf (c : Core) (w : Nat) : Option Launch := (c.weave w).launch.bind c.launch?
/-- The global tick (R6, R40). -/
def Core.tick (c : Core) : Nat := c.now / Config.tickCycles
/-- Wall-clock units of a cycle now: twice as many in a stretched tick (R463, R464). -/
def Core.cycleLen (c : Core) : Nat := Config.cycleUnits c.clockStep * (if c.power.stretched = some c.tick then 2 else 1)
/-- A fresh number for a result, a bundle's stores, a job or a message. -/
def Core.fresh (c : Core) : Nat × Core := (c.nextId, { c with nextId := c.nextId + 1 })
/-- A free word the spec leaves open (log 7). -/
def Core.free (c : Core) : Word × Core := (Config.freeWord c.freeCtr, { c with freeCtr := c.freeCtr + 1 })
/-- A free duration, at least 1 cycle and below 2^20 (log 8). -/
def Core.freeWait (c : Core) : Nat × Core :=
  (1 + Config.freeDelay c.freeCtr % 1048576, { c with freeCtr := c.freeCtr + 1 })

/-- Sector of a weave; pair partner (R402); deck; unit of a scope that holds a weave (R26, R129). -/
def secOf (w : Nat) : Nat := w / 4
def partner (sec : Nat) : Nat := if sec < 80 then sec + 80 else sec - 80
def unitOf (scope w : Nat) : Nat :=
  match scope with
  | 0 => w
  | 1 => w / 4
  | 2 => w / 4 % 80
  | 3 => w / 4 / 80
  | _ => 0

/-- What the syllables of a bundle read (R9, R14). -/
def State.rd (s : State) : Core := s.base.getD s.core
def State.modC (s : State) (f : Core → Core) : State := { s with core := f s.core }
/-- The executing weave, as read at issue. -/
def State.wv (s : State) : Weave := s.rd.weave s.core.cur
def State.modW (s : State) (f : Weave → Weave) : State := s.modC fun c => c.modW c.cur f
def State.sec (s : State) : Nat := secOf s.core.cur
def State.modIss (s : State) (f : Iss → Iss) : State := s.modC fun c => { c with iss := f c.iss }

/-! ## The agenda -/

/-- Bands of one cycle, in the order of R119 and R203 (log 12). -/
def bLand : Nat := 0
def bHost : Nat := 10
def bEngine : Nat := 12
def bBoundary : Nat := 14
def bCp : Nat := 20
def bIssue : Nat := 30
def bSample : Nat := 32
def bService : Nat := 34
def bLate : Nat := 36
def bMark : Nat := 38
def bPublish : Nat := 39
def bWave : Nat := 40
def bAtomic : Nat := 44
def bAfter : Nat := 48

def Core.sched (c : Core) (at_ : Nat) (band sub : Nat) (a : Act) : Core :=
  { c with agenda := c.agenda ++ [⟨.cycle at_, band, sub, a⟩] }
/-- Schedule at a wall-clock distance in units. -/
def Core.schedWall (c : Core) (units band sub : Nat) (a : Act) : Core :=
  { c with agenda := c.agenda ++ [⟨.wall (c.wall + units), band, sub, a⟩] }
def Core.unsched (c : Core) (p : Act → Bool) : Core := { c with agenda := c.agenda.filter fun e => !p e.act }
/-- The weave's next bundle is tested at a cycle, and no earlier one is pending. -/
def Core.schedIssue (c : Core) (w at_ : Nat) : Core :=
  (c.unsched fun a => a == .issue w || a == .lateIssue w).sched at_ bIssue w (.issue w)

/-- The entry is due now. -/
def Core.isDue (c : Core) (e : Entry) : Bool :=
  match e.due with
  | .cycle n => n ≤ c.now
  | .wall u => u ≤ c.wall
/-- The order of entries that are due together: band, sub (log 12). -/
def entryBefore (x y : Entry) : Bool :=
  x.band < y.band || (x.band == y.band && x.sub < y.sub)
/-- The first of the due entries; of equals, the one that was entered first. -/
def Core.firstDue (c : Core) : List Entry → Option Entry
  | [] => none
  | e :: es =>
    match c.firstDue es with
    | none => if c.isDue e then some e else none
    | some f => if c.isDue e && !entryBefore f e then some e else some f

/-! ## Memory -/

/-- The value of an unlisted address is 0 (log 3). -/
def memGet : List Host.Cell → Nat → Byte
  | [], _ => 0
  | (j, x) :: m, a => if j = a then x else if a < j then 0 else memGet m a
/-- A write that keeps the canonical form: addresses strictly rising, no entry equal to 0. -/
def memSet : List Host.Cell → Nat → Byte → List Host.Cell
  | [], a, v => if v = 0 then [] else [(a, v)]
  | (j, x) :: m, a, v =>
    if j < a then (j, x) :: memSet m a v
    else if j = a then (if v = 0 then m else (a, v) :: m)
    else if v = 0 then (j, x) :: m else (a, v) :: (j, x) :: m
/-- The canonical form: every address above `lo`, strictly rising, no entry 0. -/
def memWfFrom : Option Nat → List Host.Cell → Bool
  | _, [] => true
  | lo, (a, v) :: m => (match lo with | none => true | some l => decide (l < a)) && v != 0 && memWfFrom (some a) m
def Memory.wf (m : List Host.Cell) : Bool := memWfFrom none m

/-- n bytes from an address, little-endian (R5). -/
def memRead (m : List Host.Cell) (a : Nat) : Nat → Nat
  | 0 => 0
  | n + 1 => (memGet m a).toNat + 256 * memRead m (a + 1) n
/-- The low n bytes of a value to an address (R5). -/
def memWrite (m : List Host.Cell) (a : Nat) : Nat → Nat → List Host.Cell
  | 0, _ => m
  | n + 1, v => memWrite (memSet m a (BitVec.ofNat 8 v)) (a + 1) n (v / 256)

/-- The flat numbering of every memory of the module (log 2): HBM physical addresses, host memory, sector stores,
towers (by physical sub-array), program banks, TXS memories. -/
def hostBase : Nat := 2 ^ 64
def storeBase : Nat := 2 * 2 ^ 64
def towerBase : Nat := 3 * 2 ^ 64
def bankBase : Nat := 4 * 2 ^ 64
def txsBase : Nat := 5 * 2 ^ 64
def hbmBytes : Nat := 2 ^ 39
def storeFlat (sec off : Nat) : Nat := storeBase + sec * 2 ^ 22 + off
def bankFlat (w : Nat) (bank : Bool) (syl : Nat) : Nat := bankBase + (2 * w + if bank then 1 else 0) * 65536 + 4 * syl
def txsFlat (sec unit idx : Nat) : Nat := txsBase + (2 * sec + unit) * 16384 + 4 * idx
/-- The address of a row: bits [2:0] taken as 0 (R10). -/
def rowAddr (a : Nat) : Nat := a / 8 * 8

def Core.readN (c : Core) (a n : Nat) : Nat := memRead c.mem a n
def Core.row (c : Core) (a : Nat) : Word := word (memRead c.mem (rowAddr a) 8)
/-- Bytes as a list, in ascending address order. -/
def Core.bytes (c : Core) (a n : Nat) : List Nat := (List.range n).map fun i => (memGet c.mem (a + i)).toNat

/-- Physical cell of a logical cell (R348); identity where no map was written (log 11). -/
def Core.physCell (c : Core) (w cell : Nat) : Nat := (mget c.cellMaps w (List.range 8)).getD cell cell
def Core.towerKey (c : Core) (w cell : Nat) : Nat := 9 * w + c.physCell w cell
/-- Physical sub-array of a logical one (R347), none when the entry is not in service. -/
def Core.subArray (c : Core) (key l : Nat) : Option Nat :=
  match mget? (c.tower key).remap l with
  | some e => if bitAt e.toNat 7 then some (e.toNat % 128) else none
  | none => some l
/-- The flat address of a tower address, in the tower's own sub-arrays (R339, R347). -/
def Core.towerHome (c : Core) (key taddr : Nat) : Nat :=
  towerBase + (key * 68 + (c.subArray key (taddr / 2 ^ 18 % 64)).getD 64) * 2 ^ 18 + taddr % 2 ^ 18
/-- The flat address that a tower address reaches: its own row, an evacuated bank's target, or the spill area
(R351, R357). -/
def Core.towerFlat (c : Core) (key taddr : Nat) : Nat :=
  let t := c.tower key
  let bank := taddr / 2 ^ 20
  match mget? t.evac bank with
  | some x => c.towerHome x.tower (x.bank * 2 ^ 20 + taddr % 2 ^ 20)
  | none =>
    match mget? t.spilled bank with
    | some h => h + taddr % 2 ^ 20
    | none => c.towerHome key taddr
/-- Does the bank of a tower address lie away from its tower (R357)? -/
def Core.bankAway (c : Core) (key taddr : Nat) : Bool :=
  (mget? (c.tower key).evac (taddr / 2 ^ 20)).isSome || (mget? (c.tower key).spilled (taddr / 2 ^ 20)).isSome

/-- The double-buffer regions that the weave's launch declares (R341). -/
def Core.regions (c : Core) (w : Nat) : List (Nat × Nat × Nat) :=
  match c.launchOf w with
  | some l => l.regions
  | none => []
/-- A LOCAL offset under placement bits (R342): X + j and Y + j exchanged where the region's bit is 1. -/
def placeOff (regions : List (Nat × Nat × Nat)) (place : List Bool) (off : Nat) : Nat :=
  ((regions.zip place).foldl (fun (acc : Option Nat) (r, b) =>
    match acc with
    | some o => some o
    | none =>
      if !b then none
      else if r.1 ≤ off ∧ off < r.1 + r.2.2 then some (r.2.1 + (off - r.1))
      else if r.2.1 ≤ off ∧ off < r.2.1 + r.2.2 then some (r.1 + (off - r.2.1))
      else none) none).getD off
/-- The flat row of a lane's LOCAL offset (R339, R342). -/
def Core.localFlat (c : Core) (w lane off : Nat) (place : List Bool) : Nat :=
  c.towerFlat (c.towerKey w (lane / 16)) (0x10000 * (lane % 16) + placeOff (c.regions w) place (rowAddr (off % 65536)))

/-- The bits that bits of a write change. -/
def mergeBits (old val mask : Word) : Word := (old &&& ~~~mask) ||| (val &&& mask)
def allOnes : Word := BitVec.allOnes 64

/-! ## Flipped bits (R371 to R373; log 41) -/

/-- The horizontal parity of a word: bit j is the XOR of its bits i with i mod 4 = j (R372). -/
def horizontal (x : Word) : BitVec 4 := (List.range 16).foldl (fun p i => p ^^^ (x >>> (4 * i)).setWidth 4) 0
/-- A read of the word finds a wrong parity bit (R372). -/
def Flip.flagged (f : Flip) : Bool := horizontal f.data != f.par
/-- The entry of a list for a row, of no flipped bits where it has none; and the list with an entry in its place. -/
def flipOf (fs : List Flip) (row : Nat) : Flip := (fs.find? (·.row == row)).getD ⟨row, 0, 0⟩
def putFlip (fs : List Flip) (f : Flip) : List Flip :=
  let rest := fs.filter (·.row != f.row)
  if f.data = 0 ∧ f.par = 0 then rest else rest ++ [f]
/-- Of n native rows, counted from a bank's first, the vertical group of row i (R371): `at_` is the flat row of its column. -/
def verticalGroup (n i : Nat) (at_ : Nat → Nat) : List Nat :=
  (((List.range 31).map (i / 31 * 31 + ·)).filter (· < n)).map at_
/-- The rows of a row's vertical group in its column (R371). A row of a sub-array that is not in service has none but itself. -/
def Core.groupRows (c : Core) (row : Nat) : List Nat :=
  if storeBase ≤ row ∧ row < towerBase then
    let o := (row - storeBase) % 2 ^ 17
    verticalGroup 2048 (o / 64) fun k => row - o + 64 * k + o % 64
  else if towerBase ≤ row ∧ row < bankBase then
    let sub := (row - towerBase) / 2 ^ 18
    let key := sub / 68
    match (List.range 64).find? fun l => c.subArray key l == some (sub % 68) with
    | none => [row]
    | some l =>
      let p := l % 4 * 2 ^ 18 + (row - towerBase) % 2 ^ 18
      if l < 4 then verticalGroup 8192 (p % 65536 / 8) fun k => c.towerHome key (p / 65536 * 65536 + 8 * k)
      else verticalGroup 8192 (p / 128) fun k => c.towerHome key (l / 4 * 2 ^ 20 + 128 * k + p % 128)
  else if bankBase ≤ row ∧ row < txsBase then
    let o := (row - bankBase) % 65536
    verticalGroup 8192 (o / 8) fun k => row - o + 8 * k
  else if txsBase ≤ row then
    let o := (row - txsBase) % 16384
    verticalGroup 2048 (o / 8) fun k => row - o + 8 * k
  else [row]
/-- Flipped bits of a word, and of its group's parity row in the word's column. -/
def Core.flip (c : Core) (row : Nat) : Flip := flipOf c.flips row
def Core.parityFlip (c : Core) (row : Nat) : Flip := flipOf c.parityFlips ((c.groupRows row).headD row)
/-- The word is flagged when it is read (R372). -/
def Core.wordFlagged (c : Core) (row : Nat) : Bool := (c.flip row).flagged
/-- Another row of the group, its parity row among them, fails in the column: the word cannot be rebuilt (R373). -/
def Core.groupFails (c : Core) (row : Nat) : Bool :=
  (c.parityFlip row).flagged || (c.groupRows row).any fun r => r != row && c.wordFlagged r
/-- The bits by which the XOR of the rest of the group differs from what was written to the row. -/
def Core.groupError (c : Core) (row : Nat) : Word :=
  (c.groupRows row).foldl (fun x r => if r = row then x else x ^^^ (c.flip r).data) (c.parityFlip row).data
/-- Stored bits change behind the model's writes; every version of the row changes with them. -/
def Core.xorRow (c : Core) (row : Nat) (x : Word) : Core :=
  if x = 0 then c
  else { c with
    mem := memWrite c.mem row 8 (c.row row ^^^ x).toNat
    vers := c.vers.map fun ((a, hist) : Nat × List Version) =>
      (a, if a = row then hist.map fun (v : Version) => { v with val := v.val ^^^ x } else hist) }
/-- The bits by which a word differs, for its readers, from what was written: those that no parity flags; and of a flagged word those
that its rebuilding leaves (R373). -/
def Core.seenFlip (c : Core) (row : Nat) : Word :=
  if !c.wordFlagged row then (c.flip row).data else if c.groupFails row then 0 else c.groupError row
/-- The flipped bits of words and of parity rows become others. Memory holds each word as its readers get it; the row `skip`, which is
being written, is left alone. -/
def Core.putFlips (c : Core) (fs ps : List Flip) (skip : Option Nat) : Core :=
  let c' := { c with flips := fs, parityFlips := ps }
  let rows := (c.flips ++ fs).foldl (fun l f => if l.contains f.row || skip == some f.row then l else l ++ [f.row]) []
  rows.foldl (fun k r => k.xorRow r (c.seenFlip r ^^^ c'.seenFlip r)) c'
/-- The flipped bits of a word become others. -/
def Core.setFlip (c : Core) (f : Flip) : Core := c.putFlips (putFlip c.flips f) c.parityFlips none
/-- The engine rebuilds a word as the XOR of the rest of its group and writes it back, with its horizontal parity (R373). -/
def Core.rebuildWord (c : Core) (row : Nat) : Core :=
  let x := c.groupError row
  c.setFlip ⟨row, x, horizontal x⟩

/-! ## Writes -/

/-- A masked write of a row into memory: a full write ends the row's poison (R328) and its flipped bits (R372); a refill log
entry of another job that covers the row goes (R328). -/
def Core.writeRow (c : Core) (addr : Nat) (val mask : Word) (job : Option Nat) : Core :=
  let a := rowAddr addr
  let v := mergeBits (c.row a) val mask
  let c := if mask = allOnes ∧ c.flips.any (·.row == a) then c.putFlips (c.flips.filter (·.row != a)) c.parityFlips (some a) else c
  let c := { c with mem := memWrite c.mem a 8 v.toNat }
  let c := if mask = allOnes then { c with poison := c.poison.filter (· != a) } else c
  { c with weaves := c.weaves.map fun (w, x) =>
      if x.refill.isEmpty then (w, x)
      else (w, { x with refill := x.refill.filter fun e => e.job.rows.all (· != a) || job == some e.job.id }) }

/-- A write of a shared row, published at a scope and unit (R300, R301). `writer` is the weave that made it + 1, or 0. -/
def Core.writeShared (c : Core) (addr : Nat) (val mask : Word) (scope unit writer : Nat) (job : Option Nat) : Core :=
  let a := rowAddr addr
  let hist := mget c.vers a [⟨0, c.row a, [], 0⟩]
  let c := c.writeRow a val mask job
  { c with vers := mset c.vers a (hist ++ [⟨c.verCtr, c.row a, [(scope, unit)], writer⟩]), verCtr := c.verCtr + 1 }

/-- The version of a row that a weave's view holds (R302). -/
def viewVersion (wv : Weave) (addr : Nat) (hist : List Version) : Option Version :=
  match mget? wv.views addr with
  | some id => hist.find? fun v => v.id == id
  | none =>
    match hist.reverse.find? fun v => v.id ≤ wv.viewBase with
    | some v => some v
    | none => hist.head?
/-- A weave's view of a shared row (R300, R302). -/
def Core.view (c : Core) (w addr : Nat) : Word :=
  match mget? c.vers (rowAddr addr) with
  | none => c.row addr
  | some hist => ((viewVersion (c.weave w) (rowAddr addr) hist).map (·.val)).getD (c.row addr)
/-- Is a version published to a unit that contains the weave (R302)? -/
def Version.visible (v : Version) (w : Nat) : Bool := v.id == 0 || v.pubs.any fun p => p.2 == unitOf p.1 w
/-- Refresh of a weave's view (R302), of the rows that a test picks. -/
def Core.refreshRows (c : Core) (w : Nat) (p : Nat → Bool) : Core :=
  let wv := c.weave w
  let views := c.vers.foldl (fun vs (a, hist) =>
    if !p a then vs
    else match (hist.filter (·.visible w)).getLast? with
    | none => vs
    | some cand =>
      match viewVersion wv a hist with
      | some cur => if cur.id < cand.id then mset vs a cand.id else vs
      | none => mset vs a cand.id) wv.views
  c.setW w { wv with views := views }
def Core.refreshView (c : Core) (w : Nat) : Core := c.refreshRows w fun _ => true
/-- The weave's view of a row takes its latest version (R302, R316). -/
def Core.ownView (c : Core) (w addr : Nat) : Core :=
  match mget? c.vers (rowAddr addr) with
  | none => c
  | some hist =>
    match hist.getLast? with
    | none => c
    | some v => c.modW w fun x => { x with views := mset x.views (rowAddr addr) v.id }
/-- What a weave's load of a shared row returns: its own buffered bits over its view (R303). -/
def Core.loadShared (c : Core) (w addr : Nat) : Word :=
  let a := rowAddr addr
  match mget? (c.weave w).buf a with
  | some b => mergeBits (c.view w a) b.val b.mask
  | none => c.view w a

/-- The row's arrived flag is set (R20). -/
def Core.arrived (c : Core) (sec addr : Nat) : Bool := !(c.sector sec).unarrived.contains (rowAddr addr)
/-- The sector whose copy engines own the arrived flag of a row that a weave reaches: stores and towers by place. -/
def flagSector (addr : Nat) : Nat :=
  if storeBase ≤ addr ∧ addr < towerBase then (addr - storeBase) / 2 ^ 22
  else if towerBase ≤ addr ∧ addr < bankBase then (addr - towerBase) / 2 ^ 18 / 68 / 9 / 4
  else 0
def Core.rowArrived (c : Core) (addr : Nat) : Bool := c.arrived (flagSector addr) addr
def Core.setArrived (c : Core) (addr : Nat) : Core :=
  c.modSec (flagSector addr) fun x => { x with unarrived := x.unarrived.filter (· != rowAddr addr) }
def Core.clearArrived (c : Core) (addr : Nat) : Core :=
  c.modSec (flagSector addr) fun x =>
    if x.unarrived.contains (rowAddr addr) then x else { x with unarrived := x.unarrived ++ [rowAddr addr] }

/-! ## Program banks (R37, R81) -/

/-- The syllable at an index of the active bank. -/
def Core.syllable (c : Core) (w idx : Nat) : Nat := memRead c.mem (bankFlat w (c.weave w).bank idx) 4
/-- The length of the bundle at an index: syllables up to the first with E = 1, at most 8 (R81). -/
def bundleLenFrom (get : Nat → Nat) : Nat → Nat → Nat
  | 0, _ => 0
  | n + 1, i => if bitAt (get i) 31 then 1 else 1 + bundleLenFrom get n (i + 1)
def Core.bundleLen (c : Core) (w pc : Nat) : Nat := bundleLenFrom (c.syllable w) 8 pc

/-! ## Registers and results in flight -/

/-- The cycle at which a result lands in a cell (R17, R320). A scalar result uses cell 0. -/
def Result.lands (x : Result) (cell : Nat) : Nat := max (x.land + cell) x.floor
/-- The latest result, in landing order, that has landed in the cell's own time (R15, R17, R18). -/
def latest (fs : List Result) (file : File) (reg : BitVec 5) (lane cell t : Nat) : Option Word :=
  (fs.foldl (fun (acc : Option (Nat × Nat × Word)) x =>
    if x.file = file ∧ x.reg = reg ∧ x.lands cell ≤ t + cell then
      match mget? x.data lane with
      | none => acc
      | some d =>
        match acc with
        | none => some (x.lands cell, x.id, d)
        | some (l, i, d') => if l < x.lands cell ∨ (l = x.lands cell ∧ i < x.id) then some (x.lands cell, x.id, d) else some (l, i, d')
    else acc) none).map (·.2.2)
def vKey (reg lane : Nat) : Nat := 128 * reg + lane
/-- s[r] as read at cycle t; s0 reads 0 (R37). -/
def Weave.sval (wv : Weave) (t : Nat) (r : Reg) : Word :=
  if r = 0 then 0 else (latest wv.flight .s r 0 0 t).getD (wv.s.getD r.toNat 0)
/-- v[r] of a lane as its cell reads it for the bundle issued at t (R15). -/
def Weave.vval (wv : Weave) (t : Nat) (r : Reg) (lane : Nat) : Word :=
  (latest wv.flight .v r lane (lane / 16) t).getD (mget wv.v (vKey r.toNat lane) 0)
/-- Predicate bit; k0 reads as true (R38). -/
def Weave.kval (wv : Weave) (t : Nat) (k : KReg) (lane : Nat) : Bool :=
  if k = 0 then true
  else ((latest wv.flight .k (k.setWidth 5) lane (lane / 16) t).getD (mget wv.k (vKey k.toNat lane) 0)) != 0

def State.now (s : State) : Nat := s.core.now
def State.sreg (s : State) (r : Reg) : Word := s.wv.sval s.now r
def State.vreg (s : State) (r : Reg) (lane : Nat) : Word := s.wv.vval s.now r lane
def State.kreg (s : State) (k : KReg) (lane : Nat) : Bool := s.wv.kval s.now k lane
def allLanes : List Nat := List.range 128
/-- The lanes where a predicate is set (R160). -/
def State.active (s : State) (k : KReg) : List Nat := allLanes.filter (s.kreg k)

/-- Cells that hold any of the lanes. -/
def cellsOf (lanes : List Nat) : List Nat := (List.range 8).filter fun c => lanes.any fun l => l / 16 == c
/-- Put a result in flight and schedule its landings (R17, Deliver of R10). -/
def Core.putResult (c : Core) (w : Nat) (x : Result) : Core :=
  let c := c.modW w fun wv => { wv with flight := wv.flight ++ [x] }
  let cells := if x.file = .s then [0] else cellsOf x.lanes
  cells.foldl (fun c cell =>
    c.sched (x.lands cell) bLand x.id (if x.latch then .latchLanding w x.id cell else .resultLanding w x.id cell)) c
/-- Deliver to a register of the executing weave at issue + L. A write to s0 or k0 is discarded (R18). -/
def State.deliver (s : State) (file : File) (reg : BitVec 5) (L : Nat) (lanes : List Nat) (data : Map Word) : State :=
  if file ≠ .v ∧ reg = 0 then s
  else s.modC fun c =>
    let (id, c) := c.fresh
    c.putResult c.cur ⟨id, c.iss.slot, c.now, file, reg, c.now + L, 0, lanes, data, false⟩
def State.putS (s : State) (d : Reg) (L : Nat) (x : Word) : State := s.deliver .s d L [0] [(0, x)]
/-- One value for each of the lanes. -/
def State.putV (s : State) (d : Reg) (L : Nat) (lanes : List Nat) (f : Nat → Word) : State :=
  s.deliver .v d L lanes (lanes.map fun l => (l, f l))
def State.putK (s : State) (d : KReg) (L : Nat) (lanes : List Nat) (f : Nat → Bool) : State :=
  s.deliver .k (d.setWidth 5) L lanes (lanes.map fun l => (l, if f l then 1 else 0))

/-- A result lands in a cell: its data goes to the registers, with their parity, and leaves the flight (R17, R18, R376). -/
def Core.landResult (c : Core) (w id cell : Nat) : Core :=
  let wv := c.weave w
  match wv.flight.find? fun x => x.id == id with
  | none => c
  | some x =>
    let here := x.data.filter fun p => x.file = .s || p.1 / 16 == cell
    let rest := x.data.filter fun p => !(x.file = .s || p.1 / 16 == cell)
    let lanes := x.lanes.filter fun l => !(x.file = .s || l / 16 == cell)
    let flight := if lanes.isEmpty then wv.flight.filter fun y => y.id != id
      else wv.flight.map fun y => if y.id = id then { y with data := rest, lanes := lanes } else y
    let wv := { wv with flight := flight }
    let wv := { wv with badRegs := wv.badRegs.filter fun b => !(b.1 == x.file && b.2.1 == x.reg.toNat && here.any fun p => p.1 == b.2.2) }
    c.setW w <| match x.file with
      | .s => { wv with s := here.foldl (fun rs p => rs.set x.reg.toNat p.2) wv.s }
      | .v => { wv with v := here.foldl (fun m p => mset m (vKey x.reg.toNat p.1) p.2) wv.v }
      | .k => { wv with k := here.foldl (fun m p => mset m (vKey x.reg.toNat p.1) p.2) wv.k }

/-! ## Status fields (R42, R43) -/

/-- A field [hi:lo] of a word replaced. -/
def setBits (x : Word) (hi lo v : Nat) : Word :=
  mergeBits x (word (v * 2 ^ lo)) (word ((2 ^ (hi + 1 - lo) - 1) * 2 ^ lo))
def Weave.priv (wv : Weave) : Bool := bitAt wv.status.toNat 0
def Weave.uee (wv : Weave) : Bool := bitAt wv.status.toNat 1
def Weave.inue (wv : Weave) : Bool := bitAt wv.status.toNat 2
def Weave.contained (wv : Weave) : Bool := bitAt wv.status.toNat 3
def Weave.atom (wv : Weave) : Bool := bitAt wv.status.toNat 4
def Weave.timed (wv : Weave) : Bool := bitAt wv.mode.toNat 0
def Weave.slipTrap (wv : Weave) : Bool := bitAt wv.mode.toNat 1
def Weave.redun (wv : Weave) : Bool := bitAt wv.mode.toNat 3
def Weave.partner? (wv : Weave) : Bool := wv.redun && bitAt wv.mode.toNat 4
def Weave.plevel (wv : Weave) : Nat := bits wv.mode.toNat 15 12
def Weave.ftz (wv : Weave) : Bool := bitAt wv.fcsr.toNat 3
def Weave.rm (wv : Weave) : Nat := wv.fcsr.toNat % 8
/-- RM' of R173 where SRD does not apply. -/
def Weave.rmArith (wv : Weave) : Nat := if wv.rm = 4 then 0 else wv.rm
def Weave.te (wv : Weave) : Nat := bits wv.fcsr.toNat 13 9
def bnat (b : Bool) : Nat := if b then 1 else 0
def Weave.setSt (wv : Weave) (n : Nat) (b : Bool) : Weave := { wv with status := setBits wv.status n n (bnat b) }
/-- A handler runs: its bundles enter no signature and no segment count (R24). -/
def Weave.inHandler (wv : Weave) : Bool := wv.priv || wv.inue
/-- The act sets STATUS.ATOM (R326). -/
def State.setAtom (s : State) : State := s.modW fun x => x.setSt 4 true

/-! ## Semaphores (R118 to R125) -/

def Core.sem (c : Core) (sec n : Nat) : Sem := mget (c.sector sec).sems n Sem.reset
def Core.modSem (c : Core) (sec n : Nat) (f : Sem → Sem) : Core :=
  c.modSec sec fun x => { x with sems := mset x.sems n (f (mget x.sems n Sem.reset)) }
/-- Insert a number into an ascending list without repeats. -/
def insertNat : List Nat → Nat → List Nat
  | [], n => [n]
  | m :: ms, n => if n < m then n :: m :: ms else if n = m then m :: ms else m :: insertNat ms n
/-- A signal makes the event of every weave that armed the semaphore pending, and clears the arms (R33, R124). -/
def Core.fireArms (c : Core) (sec n : Nat) : Core :=
  let arms := (c.sem sec n).arms
  let c := arms.foldl (fun c w => c.modW w fun x => { x with events := if (mget? x.events n).isSome then x.events else mset x.events n c.now }) c
  c.modSem sec n fun x => { x with arms := [] }
/-- Waiters of the semaphore are served at step 3 of this cycle (R119). -/
def Core.serviceSem (c : Core) (sec n : Nat) : Core := c.sched c.now bService (sec * 256 + n) (.swaitServed sec n)
/-- An engine, fabric or doorbell signal (R125). An amount of 0 changes nothing; arms fire when COUNT increases (R124). -/
def Core.signalSem (c : Core) (sec n amount : Nat) : Core :=
  if amount = 0 then c
  else
    let x := c.sem sec n
    let c' := if 0x7FFFFFFF < x.count + amount then c.modSem sec n fun x => { x with count := 0x7FFFFFFF, ov := true }
      else c.modSem sec n fun x => { x with count := x.count + amount }
    (if x.count < 0x7FFFFFFF then c'.fireArms sec n else c').serviceSem sec n
/-- AB of a signal semaphore whose job was dropped (R118, R232). A number of 256 is none. -/
def Core.abortSem (c : Core) (sec n : Nat) : Core :=
  if n < 256 then (c.modSem sec n fun x => { x with ab := true }).serviceSem sec n else c

/-- What the consumption record holds of a served `swait` (R326): a 17th semaphore sets STATUS.ATOM. -/
def Weave.consume (wv : Weave) (n amount : Nat) : Weave :=
  match mget? wv.consumed n with
  | some x => { wv with consumed := mset wv.consumed n { x with taken := x.taken + amount } }
  | none =>
    if wv.consumed.length < 16 then { wv with consumed := mset wv.consumed n ⟨amount, 0⟩ }
    else { wv with consumedOver := true }.setSt 4 true
/-- A weave waits on no semaphore any longer. -/
def Core.dropWaiter (c : Core) (w : Nat) : Core :=
  c.modSec (secOf w) fun x => { x with sems := x.sems.map fun (n, y) =>
    (n, { y with waiters := y.waiters.filter fun z => match z with | .weave v _ _ => v != w | _ => true }) }
/-- A bundle whose `swait` was served in this cycle traps: no syllable takes effect, so the service is undone (R31). -/
def Core.undoServed (c : Core) (w : Nat) : Core :=
  match (c.weave w).served with
  | none => c
  | some x =>
    ((c.modSem (secOf w) x.sem fun y => { y with count := y.count + x.amount }).modW w fun wv =>
      { wv with served := none, views := x.views, viewBase := x.viewBase, consumed := x.consumed, consumedOver := x.overflow }.setSt 4 x.atom)
      |>.serviceSem (secOf w) x.sem

/-! ## Checkpoints and latches (R27, R318, R319) -/

def fileCode : File → Nat
  | .s => 0 | .v => 1 | .k => 2
/-- A result in latch form at entry cycle T: the lanes whose cells land after T (R319). D is counted from its own landing,
whatever a return has held back. -/
def latchRec (T : Nat) (x : Result) : LatchRec := ⟨x.id, fileCode x.file, x.reg, (x.land : Int) - T, x.data⟩
/-- Results that a frame or a checkpoint at T captures, in issue order then slot order. A cell counts where it holds a lane that
the result writes, so that a result without an active lane takes no latch (R319; log 43). -/
def inFlightAt (fs : List Result) (T : Nat) : List Result :=
  fs.filter fun x => (if x.file = .s then [0] else cellsOf x.lanes).any fun cell => T < x.lands cell
/-- Put the latches of a return in flight: lane data at ret + D + c, never before ret + 1 (R320). -/
def Core.inject (c : Core) (w ret : Nat) (ls : List LatchRec) : Core :=
  ls.foldl (fun c l =>
    if decide (3 ≤ l.file) || (l.file != 1 && l.reg.toNat == 0) || (l.file == 2 && decide (8 ≤ l.reg.toNat)) || l.data.isEmpty then c
    else
      let (id, c) := c.fresh
      let file : File := match l.file with
        | 0 => .s | 1 => .v | _ => .k
      c.putResult w ⟨id, 0, ret, file, l.reg, ((ret : Int) + l.delay).toNat, ret + 1, l.data.map (·.1), l.data, true⟩) c
/-- TEXP − TICK (R27, R316), 0 in untimed mode. -/
def Core.tdelta (c : Core) (w : Nat) : Int :=
  if (c.weave w).timed then ((c.weave w).texp : Int) - c.tick else 0
/-- The lanes' values of the registers that a mask names, among the register file. -/
def maskedV (v : Map Word) (mask : BitVec 32) : Map Word := v.filter fun p => bitAt mask.toNat (p.1 / 128)
/-- The segment as a frame or checkpoint holds it: the count runs up to now (R24, R317). -/
def Core.segAt (c : Core) (w : Nat) : Segment :=
  let wv := c.weave w
  if wv.seg.isOpen && !wv.inHandler then { wv.seg with count := wv.seg.count + (c.now - wv.seg.first), first := c.now } else wv.seg
/-- Capture the checkpoint (R27 step 4), with the resumption at the given PC and loop stack. -/
def Core.capture (c : Core) (w pc : Nat) (loops : List LoopLevel) : Core :=
  let wv := c.weave w
  c.setW w { wv with ckpt := some {
    cycle := c.now
    pc := pc
    loops := loops
    s := wv.s
    shadow := wv.shadow
    handles := wv.handles
    k := wv.k
    v := maskedV wv.v wv.chkmask
    fcsr := wv.fcsr
    fmtsel := wv.fmtsel
    slipctr := wv.slipctr
    ueframe := wv.ueframe
    status := wv.status
    epc := wv.epc
    tcause := wv.tcause
    srd := wv.srd
    latches := (inFlightAt wv.flight c.now).map (latchRec c.now)
    tdelta := c.tdelta w
    seg := c.segAt w
    place := wv.place
    chkmask := wv.chkmask
    parityBad := false
    jobMark := c.nextId
    aside := wv.aside
    trapSched := wv.trapSched
    eventSched := wv.eventSched }, consumed := [], consumedOver := false }

/-! ## Phase boundaries (R25 to R27) -/

/-- Publish a weave's buffered sector-store rows at a scope; earlier narrower publications are republished (R301). -/
def Core.publish (c : Core) (w scope : Nat) : Core :=
  let wv := c.weave w
  let c := { c with vers := c.vers.map fun ((a, hist) : Nat × List Version) =>
    (a, hist.map fun (v : Version) =>
      if v.writer = w + 1 ∧ (v.pubs.any fun p => p.1 < scope) ∧ !v.pubs.contains (scope, unitOf scope w) then
        { v with pubs := v.pubs ++ [(scope, unitOf scope w)] }
      else v) }
  let c := wv.buf.foldl (fun c (a, b) =>
    (c.writeShared a b.val b.mask scope (unitOf scope w) (w + 1) none).ownView w a) c
  c.modW w fun x => { x with buf := [] }
/-- Step 2 of R27: the regions that the mask names exchange places. -/
def swapPlaces (place : List Bool) (mask : Nat) : List Bool :=
  (place.zip (List.range 16)).map fun (b, i) => b != bitAt mask i
/-- What is left of a stretch of engine cycles that ends at t, when the divisor changes now (R152). -/
def rescaled (now old new t : Nat) : Nat := now + ceilDiv ((t - now) * new) old
/-- The engine of a port at a divisor: the charge is the weight over the divisor, rounded up, and what is under way goes on at
the new clock (R152). A charge that rises above a limit is applied without a cut and without a wait (log 44). -/
def Core.applyDiv (c : Core) (w p div : Nat) : Core :=
  let port := (c.weave w).ports.getD p Port.reset
  let sec := secOf w
  if port.g ∧ port.kind < 6 then
    let old := (((c.sector sec).engines.getD port.kind []).getD port.inst Engine.reset).div
    let clocked (a : Act) : Bool := match a with
      | .mxEmit e _ | .jobStep e _ | .jobCompletion e _ => e == .pool sec port.kind port.inst
      | .mxrp v false _ => port.kind == 0 && secOf v == sec
      | .txs s u => port.kind == 2 && s == sec && u == port.inst
      | .txsSignal s u _ => port.kind == 2 && s == sec && u == port.inst
      | _ => false
    let c := { c with agenda := c.agenda.map fun (e : Entry) => match e.due with
      | .cycle t => if clocked e.act && c.now < t then { e with due := .cycle (rescaled c.now old div t) } else e
      | .wall _ => e }
    c.modSec sec fun x => { x with
      engines := lmod x.engines port.kind fun es => lmod es port.inst fun e =>
        { e with div := div, charge := ceilDiv (Config.weight port.kind) div }
      txs := if port.kind = 2 then lmod x.txs port.inst fun t =>
          { t with busyTo := if c.now < t.busyTo then rescaled c.now old div t.busyTo else t.busyTo }
        else x.txs }
  else c
/-- A copied `cp.swp` of the weave exchanges its regions' base rows at this boundary, and signals (R243). -/
def Core.swapAtBoundary (c : Core) (w : Nat) : Core :=
  match (c.weave w).pendSwap with
  | some id => (c.modW w fun x => { x with pendSwap := none }).sched c.now bLand 0 (.jobCompletion (.copy w false) id)
  | none => c
/-- The range of a valid handle covers part of the page that holds an address (R155): the page that it has cached there, else one of
the given size. -/
def Handle.overlaps (h : Handle) (va size : Nat) : Bool :=
  let (lo, n) := match h.pages.find? fun p => p.va ≤ va && va < p.va + p.size with
    | some p => (p.va, p.size)
    | none => (va / size * size, size)
  h.valid && decide (h.base.toNat < lo + n) && decide (lo < h.base.toNat + h.len.toNat)
/-- Step 3 of R27: pending bank exchange, divisors, handle invalidations and region exchanges. -/
def Core.pendings (c : Core) (w : Nat) : Core :=
  let wv := c.weave w
  let c := [0, 1, 2].foldl (fun c p =>
    match (wv.pendDiv.getD p none) with
    | some d => (c.applyDiv w p d).sched c.now bAfter (secOf w) (.charges (secOf w))
    | none => c) (c.swapAtBoundary w)
  c.modW w fun x => { x with
    bank := if x.pendBswap then !x.bank else x.bank
    pendBswap := false
    pendDiv := [none, none, none]
    pendHinv := []
    handles := x.handles.map fun h => if x.pendHinv.any fun (va, size, _) => h.overlaps va size then { h with pages := [] } else h }
/-- Step 5 of R27: PHASENO increases, ATOM and CONTAINED clear. -/
def Weave.countPhase (wv : Weave) : Weave :=
  ({ wv with phaseno := wv.phaseno + 1, preempted := false }.setSt 4 false).setSt 3 false
/-- Steps 2 to 5 of a boundary whose publication has happened; the checkpoint resumes at pc. -/
def Core.boundaryTail (c : Core) (w mask pc : Nat) (loops : List LoopLevel) : Core :=
  let c := c.modW w fun x => { x with place := swapPlaces x.place mask }
  let c := c.pendings w
  let c := c.modW w fun x => (x.setSt 4 false).setSt 3 false
  let c := c.capture w pc loops
  c.modW w Weave.countPhase

/-- A timed launch has passed a sector-scope or wider boundary in a sector: moves of banks there wait for it no more, and
those that wait for none commit (R351, R357). -/
def Core.bankPassed (c : Core) (launch sec : Nat) : Core :=
  c.towers.foldl (fun c (k, t) => t.moving.foldl (fun c (b, m) =>
    if m.copied && m.weave / 4 == sec && m.waits.contains launch then
      let rest := m.waits.filter (· != launch)
      let c := c.modTower k fun t => { t with moving := mset t.moving b { m with waits := rest } }
      if rest.isEmpty then
        c.sched c.now bAfter (m.weave * 8 + m.cell)
          (if m.kind = .spill then .spillCommit m.weave m.cell b else .evacuationCommit m.weave m.cell b)
      else c
    else c) c) c

/-! ## Injected errors (R398, R399) -/

/-- The word that names a unit of the health table (R394). -/
def unitCode (u : UnitName) : Nat := u.type * 2 ^ 28 + u.sector * 2 ^ 20 + u.sub
/-- The array that a flat row lies in: its recovery engine, the source code of R314 and the unit that it is part of
(R373, R394). A row in HBM is one of a spilled bank. -/
def arrayOf (row : Nat) : Nat × Nat × UnitName :=
  if storeBase ≤ row ∧ row < towerBase then
    let sec := (row - storeBase) / 2 ^ 22
    (sec, 2, ⟨5, sec, (row - storeBase) % 2 ^ 22 / 2 ^ 17⟩)
  else if towerBase ≤ row ∧ row < bankBase then
    let sub := (row - towerBase) / 2 ^ 18
    let w := sub / 68 / 9
    (1000 + sub / 68, 1, ⟨2, w / 4, sub % 68 * 64 + sub / 68 % 9 * 4 + w % 4⟩)
  else if bankBase ≤ row ∧ row < txsBase then
    let b := (row - bankBase) / 65536
    (10000 + b, 3, ⟨0, b / 8, b / 2 % 4⟩)
  else if txsBase ≤ row then
    let u := (row - txsBase) / 16384
    (20000 + u, 4, ⟨3, u / 2, 2 * 16 + u % 2⟩)
  else (30000, 1, ⟨7, 0xFF, 0⟩)
/-- The row that an armed ERRINJ of a weave names, where its target is a word of an array (R398). -/
def Core.injectRow (c : Core) (w : Nat) : Option Nat :=
  let e := (c.weave w).errinj.toNat
  let sel := bits e 31 24
  let addr := bits e 23 0
  match bits e 59 56 with
  | 0 => some (c.localFlat w (sel % 128) addr (c.weave w).place)
  | 1 => some (rowAddr (c.towerFlat (c.towerKey w (sel % 8)) addr))
  | 2 => some (storeFlat (secOf w) (rowAddr (addr % 2 ^ 22)))
  | 3 => some (rowAddr (bankFlat w (c.weave w).bank (addr % 16384)))
  | 4 => some (rowAddr (txsFlat (secOf w) (sel % 2) (addr % 4096)))
  | _ => none
/-- ARM = 1 and PHASENO matches (R399). -/
def Weave.injecting (wv : Weave) : Bool :=
  let e := wv.errinj.toNat
  bitAt e 63 && (bits e 47 32 == 0xFFFF || bits e 47 32 == wv.phaseno.toNat % 65536)
def Core.disarm (c : Core) (w : Nat) : Core :=
  c.modW w fun x => { x with errinj := x.errinj &&& word (2 ^ 63 - 1) }
/-- The weave whose armed injection a read of the row fires, with its severity. -/
def Core.firing (c : Core) (row : Nat) : Option (Nat × Bool) :=
  (c.weaves.find? fun p => p.2.injecting && c.injectRow p.1 == some row).map fun p => (p.1, bits p.2.errinj.toNat 55 54 == 1)

/-! ## Flags (R372, R399) -/

/-- What a read of a row fires (R372, R399): the weave whose armed injection it is, none for the word's own bits; and whether
the word is uncorrectable. -/
def Core.flagOf (c : Core) (row : Nat) : Option (Option Nat × Bool) :=
  match c.firing row with
  | some (v, unc) => some (some v, unc)
  | none => if c.wordFlagged row then some (none, c.groupFails row) else none
/-- An injection that has fired is no longer armed. -/
def Core.fired (c : Core) (by_ : Option Nat) : Core :=
  match by_ with
  | some v => c.disarm v
  | none => c
/-- A weave reads rows of the arrays, which reach it at cycle X: a poisoned row is consumption at X, a word with wrong parity or
an injected error is flagged at X (R325, R328, R374, R399). -/
def Core.readRows (c : Core) (w : Nat) (rows : List Nat) (X : Nat) : Core :=
  rows.foldl (fun c row =>
    if c.poison.contains row then
      let (_, src, u) := arrayOf row
      c.sched X bHost w (.cancelAt w src (unitCode u) row false)
    else match c.flagOf row with
      | none => c
      | some (v, unc) => (c.fired v).sched X bLand 0 (.flagWord w row unc v.isSome)) c
/-- A read of a buffered row of the weave's own that fails its parity is consumption with source 5 (R376). -/
def Core.readBuffer (c : Core) (w : Nat) (rows : List Nat) (X : Nat) : Core :=
  if (c.weave w).bufBad.any fun b => b.1 == 0 && rows.contains b.2 then
    c.sched X bHost w (.cancelAt w 5 (unitCode ⟨0, secOf w, w % 4⟩) 0 false)
  else c
/-- What a weave's load of rows may find wrong, in its landing cycle X. -/
def Core.loadsRows (c : Core) (w : Nat) (rows : List Nat) (X : Nat) : Core := (c.readBuffer w rows X).readRows w rows X

/-! ## Frames (R315 to R319) -/

/-- Byte offset of the weave's system region in its sector store (R46). -/
def sysOff (w : Nat) : Nat := 0x3C0000 + (w % 4) * 0x10000
/-- Hardware writes a frame row; it is published at sector scope and enters the weave's own view at once (R316). -/
def Core.frameRow (c : Core) (w addr : Nat) (x : Word) : Core :=
  (c.writeShared addr x allOnes 1 (secOf w) 0 none).ownView w addr
def levelRow0 (l : LoopLevel) : Word := word (l.start.toNat + l.stop.toNat * 2 ^ 16)
def levelRow1 (l : LoopLevel) : Word := word (l.remaining.toNat + l.index.toNat * 2 ^ 32)
def segRow0 (x : Segment) (nocyc : Bool) : Word :=
  word (x.e.toNat + bnat x.isOpen * 2 ^ 20 + bnat x.sigp * 2 ^ 21 + bnat nocyc * 2 ^ 22 + x.expSig.toNat * 2 ^ 32)
def segRow1 (x : Segment) : Word := word (x.crc.toNat + x.count % 2 ^ 20 * 2 ^ 32)
def handleRow0 (h : Handle) : Word :=
  word (h.base.toNat + bnat h.valid * 2 ^ 56 + bnat h.r * 2 ^ 57 + bnat h.w * 2 ^ 58)
def handleRow1 (h : Handle) : Word := word h.len.toNat
/-- The words of a latch descriptor (R318). -/
def latchRows (l : LatchRec) (lanes : List Nat) : List Word :=
  let wr := lanes.foldl (fun acc n => acc ||| 2 ^ n) 0
  [word (1 + l.file * 2 + l.reg.toNat * 16 + wrap l.delay 8 * 2 ^ 16), word (wr % 2 ^ 64), word (wr / 2 ^ 64), 0]

/-- Write rows from an address upward. -/
def Core.frameRows (c : Core) (w addr : Nat) : List Word → Core
  | [] => c
  | x :: xs => (c.frameRow w addr x).frameRows w (addr + 8) xs

/-- The latch descriptors and data blocks of a frame (R316, R318, R319). Returns n. -/
def Core.frameLatches (c : Core) (w frame T : Nat) : Nat × Core :=
  let fl := inFlightAt (c.weave w).flight T
  let n := fl.length
  let c := (List.range 16).foldl (fun c i =>
    match fl[i]? with
    | none => c.frameRows w (frame + 256 + 32 * i) [0, 0, 0, 0]
    | some x =>
      let c := c.frameRows w (frame + 256 + 32 * i) (latchRows (latchRec T x) x.lanes)
      x.data.foldl (fun c (lane, d) => c.frameRow w (frame + 1024 + 1024 * i + 8 * lane) d) c) c
  -- atomics that have not applied yet put their old values into the frame when they do, late loads their rows
  (n, c.modW w fun wv => { wv with framed := fl.zipIdx.map fun (x, i) => (x.id, frame, i) })

/-- In-flight results leave the registers' path at an entry: their landings are in the frame. -/
def Core.dropFlight (c : Core) (w : Nat) : Core :=
  (c.modW w fun x => { x with flight := [] }).unsched fun a =>
    match a with
    | .resultLanding v _ _ => v == w
    | .latchLanding v _ _ => v == w
    | _ => false

/-- Saturating additions to SLIPCTR (R22). -/
def slipAdd (x : Word) (cycles events : Nat) : Word :=
  word (min (x.toNat % 2 ^ 32 + events) (2 ^ 32 - 1) + min (x.toNat / 2 ^ 32 + cycles) (2 ^ 32 - 1) * 2 ^ 32)
/-- n cycles of a slip are counted (R22, R23), or of a compare point (R387), and are no part of the segment's count (R24). -/
def Weave.slipped (x : Weave) (n : Nat) (slip : Bool) : Weave :=
  { x with
    slipctr := if slip then slipAdd x.slipctr n 1 else x.slipctr
    seg := { x.seg with first := x.seg.first + n } }
/-- The weave leads a redundant pair, whose partner follows it 2 cycles behind (R385). -/
def Core.hasPartner (c : Core) (w : Nat) : Bool := (c.weave w).redun && w % 2 == 0
/-- The redundant partner of a leader has the same n cycles, 2 cycles later (R385). -/
def Core.partnerTime (c : Core) (w n : Nat) (slip : Bool) : Core :=
  if c.hasPartner w then c.sched (c.now + 2) bIssue (w + 1) (.partnerTime (w + 1) n slip) else c
/-- A slip ends, because its bundle issues, traps or gives way to an event. -/
def Core.endSlip (c : Core) (w : Nat) : Core :=
  match (c.weave w).slipping with
  | none => c
  | some t => (c.modW w fun x => { x.slipped (c.now - t) true with slipping := none }).partnerTime w (c.now - t) true
/-- What a weave's held bundle has under way goes when the bundle gives way to a handler: an `ldh`, `lpatch` or `larm` reads again after the
return, a `probew` counts anew (R138, R140), and what it waits for at a boundary stays aside for it. -/
def Core.leaveHeld (c : Core) (w : Nat) : Core :=
  let c : Core := { c with
    peerReads := c.peerReads.filter fun r => match r.src with | .ldh v => v != w | _ => true
    cpWords := c.cpWords.filter fun (x : CpWord) => x.op != .peerWord w }
  (c.unsched fun a => a == .ldhReturn w).modW w fun x => { x with
    walkWaited := none
    busWait := none
    ldh := .none
    realignTo := none
    aside := if x.wait = .none then x.aside else x.wait
    wait := .none }

/-- The trap frame (R316), the registers that an entry sets (R315 steps 3 to 6), and the handler's first issue. The
cause's slot is 0xFF where it names none. -/
def Core.enterTrap (c : Core) (w : Nat) (ti : TrapInfo) : Core :=
  let T := c.now
  let wv := c.weave w
  let frame := storeFlat (secOf w) (sysOff w)
  let (n, c) := c.frameLatches w frame T
  let tcause := word (ti.cause + ti.slot % 256 * 2 ^ 8 + ti.code * 2 ^ 16)
  let depth := wv.loops.length
  let seg := if ti.cause = 0x09 then { wv.seg with count := 0, crc := 0xFFFFFFFF } else c.segAt w
  let levels := (List.range 6).flatMap fun i =>
    match wv.loops[i]? with
    | some l => [levelRow0 l, levelRow1 l]
    | none => [0, 0]
  let c := c.frameRows w frame
    ([tcause, word ti.epc, wv.status, word (depth + n * 2 ^ 8 + bnat wv.bank * 2 ^ 16)] ++ levels ++
     [segRow0 seg true, segRow1 seg, word (T - wv.startCycle), ti.info0, ti.info1, wv.phaseno,
      word (wrap (c.tdelta w) 64), wv.sval T 1, wv.sval T 2, 0, 0, 0, 0, 0, 0, 0])
  let c := c.frameRows w (frame + 768) <|
    if ti.preempt then wv.handles.flatMap fun h => [handleRow0 h, handleRow1 h] else List.replicate 32 0
  let c := (c.dropFlight w).leaveHeld w
  let st := (((wv.setSt 5 wv.priv).setSt 6 wv.uee).setSt 0 true).setSt 1 false
  let c := c.setW w { (c.weave w) with
    tcause := tcause
    epc := word ti.epc
    status := if ti.preempt then (st.setSt 4 true).status else st.status
    seg := { seg with nocyc := true }
    pc := BitVec.ofNat 14 wv.tvec.toNat
    pendTrap := none
    trapSched := if ti.preempt then 0 else ti.at_ + 1
    preempt := if ti.preempt then false else (c.weave w).preempt
    preempted := ti.preempt || (c.weave w).preempted
    fixedAt := some (T + 16 + 2 * n) }
  if ti.fatal then
    (c.unsched fun a => a == .issue w || a == .lateIssue w).sched T bAfter w (.fatalContextError w)
  else c.schedIssue w (T + 16 + 2 * n)

/-- A redundant partner takes its leader's trap 2 cycles later, at the same bundle (R385). -/
def Core.mirrorTrap (c : Core) (w : Nat) (ti : TrapInfo) : Core :=
  if c.hasPartner w then
    (c.modW (w + 1) fun x => { x with pendTrap := some { ti with at_ := ti.at_ + 2, fatal := false } }).sched (c.now + 2) bIssue (w + 1) (.trapEntry (w + 1))
  else c
/-- Take a trap (R30, R31, R315): entry waits until at most 16 results are in flight. A trap at system level other
than BKPT, and every F cause, is fatal (R322). -/
def Core.takeTrap (c : Core) (w : Nat) (ti : TrapInfo) : Core :=
  let c := ((c.undoServed w).dropWaiter w).endSlip w
  let ti := { ti with fatal := ti.fatal || ((c.weave w).priv && ti.cause != 0x13) }
  let c := c.mirrorTrap w ti
  if (inFlightAt (c.weave w).flight c.now).length ≤ 16 then c.enterTrap w ti
  else
    (c.modW w fun x => { x with pendTrap := some ti }).unsched (fun a => a == .issue w || a == .lateIssue w)
      |>.sched (c.now + 1) bIssue w (.trapEntry w)

/-- A syllable of the bundle under way raises a trap: no syllable of the bundle takes effect (R31). FPX of an earlier
slot ranks before it (R189), and so does FPX of the `stf` whose own rows do not fit the phase buffer (log 68). -/
def State.raiseAt (s : State) (cause slot code : Nat) (info0 info1 : Word) (fatal : Bool) : State :=
  let iss := s.core.iss
  let (cause, slot, code, info0, info1, fatal) : Nat × Nat × Nat × Word × Word × Bool :=
    if iss.fpx ≠ 0 ∧ cause ≠ 0x15 then (0x15, iss.fpxSlot, 0, word iss.fpx, 0, false)
    else (cause, slot, code, info0, info1, fatal)
  let c := { s.rd with iss := iss }
  { core := c.takeTrap c.cur ⟨cause, slot, code, info0, info1, iss.pc, fatal, false, c.now⟩, base := none }
def State.raise (s : State) (cause : Nat) (info0 info1 : Word) : State :=
  s.raiseAt cause s.core.iss.slot 0 info0 info1 false
def State.raiseFatal (s : State) (cause : Nat) (info0 info1 : Word) : State :=
  s.raiseAt cause s.core.iss.slot 0 info0 info1 true
/-- ILLEGAL, with the faulting syllable (R313). -/
def State.illegal (s : State) (info1 : Word) : State := s.raise 0x01 (s.core.iss.word.setWidth 64) info1
/-- PRIV, with the faulting syllable (R313). -/
def State.privTrap (s : State) (info1 : Word) : State := s.raise 0x04 (s.core.iss.word.setWidth 64) info1
/-- ENGJOB (R313, R314): port, reason, semaphore. -/
def State.engJob (s : State) (port reason sem : Nat) : State := s.raise 0x0F (word (port + reason * 256)) (word sem)
/-- WINDOW of a sequencer form or a lane (R313), a fatal context error. -/
def State.windowTrap (s : State) (lane addr : Nat) : State := s.raiseFatal 0x07 (word lane) (word addr)

/-- A condition of R20 fails: the bundle under way takes no effect and is held, but for what f records. Where the failure
would be a TIMING trap, FPX of an earlier slot ranks before it (R83, R189). -/
def State.hold (s : State) (cond : Nat) (f : Core → Core) : State :=
  if s.core.iss.fpx ≠ 0 && s.wv.timed && s.wv.slipTrap then s.raiseAt 0x15 s.core.iss.fpxSlot 0 (word s.core.iss.fpx) 0 false
  else { core := f { s.rd with iss := { s.core.iss with held := some cond } }, base := none }

/-- A latch from the first three words of its descriptor and its data block (R318), none where V is 0. -/
def latchOf (x y z : Word) (data : Nat → Word) : Option LatchRec :=
  if !bitAt x.toNat 0 then none
  else
    let file := bits x.toNat 2 1
    let lanes := if file = 0 then [0] else allLanes
    some ⟨0, file, BitVec.ofNat 5 (bits x.toNat 8 4), signed (bits x.toNat 23 16) 8,
      (lanes.filter fun l => bitAt (y.toNat + z.toNat * 2 ^ 64) l).map fun l => (l, if file = 2 then data l &&& 1 else data l)⟩
/-- Latch entry i of a frame as the weave's own loads read it (R316, R318). -/
def Core.readLatch (c : Core) (w frame i : Nat) : Option LatchRec :=
  let at_ := frame + 256 + 32 * i
  latchOf (c.loadShared w at_) (c.loadShared w (at_ + 8)) (c.loadShared w (at_ + 16)) fun l =>
    c.loadShared w (frame + 1024 + 1024 * i + 8 * l)
def Core.readLatches (c : Core) (w frame : Nat) : List LatchRec := (List.range 16).filterMap (c.readLatch w frame)
/-- The latch file as a debugger sees it: 16 entries, those from n upward with V = 0 (R318, R335). -/
def latchImages (T : Nat) (fs : List Result) : List LatchImage :=
  let ls := (inFlightAt fs T).map fun x => (⟨x.id, latchRows (latchRec T x) x.lanes, x.data⟩ : LatchImage)
  ls ++ List.replicate (16 - ls.length) ⟨0, [0, 0, 0, 0], []⟩
/-- What a debugger has left of an entry. -/
def LatchImage.latch (x : LatchImage) : Option LatchRec :=
  latchOf (x.words.getD 0 0) (x.words.getD 1 0) (x.words.getD 2 0) fun l => mget x.data l 0
/-- A segment from its two rows (R317); the PC of its first bundle is not in the frame. -/
def segOfRows (x y : Word) (now startPc : Nat) : Segment :=
  ⟨BitVec.ofNat 20 x.toNat, bitAt x.toNat 20, bitAt x.toNat 21, bitAt x.toNat 22, BitVec.ofNat 32 (x.toNat / 2 ^ 32),
   BitVec.ofNat 32 y.toNat, bits y.toNat 51 32, now, startPc⟩
/-- A loop stack of the given depth from the header (R317): a depth of 7, which a handler may leave there, gives 6 levels
(log 45). -/
def Core.readLevels (c : Core) (w frame depth : Nat) : List LoopLevel :=
  (List.range (min depth 6)).map fun i =>
    let x := (c.loadShared w (frame + 32 + 16 * i)).toNat
    let y := (c.loadShared w (frame + 40 + 16 * i)).toNat
    ⟨BitVec.ofNat 14 x, BitVec.ofNat 14 (x / 2 ^ 16), BitVec.ofNat 32 y, BitVec.ofNat 32 (y / 2 ^ 32)⟩
/-- The rows that a return reads of a frame: its header, the latch descriptors, and the data of the valid ones (R316, R318). -/
def Core.frameReads (c : Core) (w frame : Nat) : List Nat :=
  ((List.range 24).map fun i => frame + 8 * i) ++ ((List.range 64).map fun i => frame + 256 + 8 * i) ++
  (List.range 16).flatMap fun i => match c.readLatch w frame i with
    | some x => x.data.map fun p => frame + 1024 + 1024 * i + 8 * p.1
    | none => []
/-- Re-injection, TEXP and the slip counter at a return whose bundle issues at `ret` (R320). `sched` is one more than the
cycle from which the handler's time counts, 0 where it is not counted: a slip of the bundle was counted at the entry. What the
bundle was waiting for it waits for again. The frame's rows are at hand when that bundle issues (R374). -/
def Core.returnTo (c : Core) (w frame ret pc sched : Nat) : Core :=
  let ls := c.readLatches w frame
  let rows := c.frameReads w frame
  let td := signed (c.loadShared w (frame + 176)).toNat 64
  let c := c.modW w fun x => { x with
    pc := BitVec.ofNat 14 pc
    fixedAt := some ret
    slipping := none
    texp := if x.timed then (((ret / Config.tickCycles : Nat) : Int) + td).toNat else x.texp
    slipctr := if x.timed ∧ sched ≠ 0 then slipAdd x.slipctr (ret - (sched - 1)) 1 else x.slipctr
    wait := if x.inHandler ∨ x.wait ≠ .none then x.wait else x.aside
    aside := if x.inHandler ∨ x.wait ≠ .none then x.aside else .none
    seg := { x.seg with first := ret } }
  (c.inject w ret ls).readRows w rows ret
/-- The number of valid latch entries of a frame (R320). -/
def Core.latchCount (c : Core) (w frame : Nat) : Nat := (c.readLatches w frame).length

end Sys2Proof.Machine
end

