-- ==== Sys2Proof/Machine/Control.lean ====
section
/-! DEFINITION. Branches and hardware loops (R114 to R117), the words of a bundle (R81) and the cycle at which it is due (R19). -/
namespace Sys2Proof.Machine

/-- A branch target: outside 0 to 16,383 a taken branch raises ILLEGAL (R84, R114). -/
def State.branch (s : State) (taken : Bool) (target : Int) : State :=
  if !taken then s
  else if 0 ≤ target ∧ target < 16384 then s.modIss fun i => { i with target := some target.toNat }
  else s.illegal (BitVec.ofInt 64 target)
/-- P + SExt(off) (R114). -/
def State.rel (s : State) (off : Int) : Int := (s.core.iss.pc : Int) + off

/-- `j` (R114). -/
def execJ (off : BitVec 16) (s : State) : Out := .next (s.branch true (s.rel off.toInt))
/-- `call` (R114): the link lands at issue + 1. -/
def execCall (a : Reg) (off : BitVec 16) (s : State) : Out :=
  .next ((s.putS a 1 (word (s.core.iss.pc + s.core.iss.len))).branch true (s.rel off.toInt))
/-- `jr` (R114): checked against the register value at issue. -/
def execJr (a : Reg) (off : BitVec 16) (s : State) : Out :=
  .next (s.branch true ((s.sreg a + off.signExtend 64).toNat : Int))
/-- `ret` (R114). -/
def execRet (a : Reg) (s : State) : Out := .next (s.branch true ((s.sreg a).toNat : Int))
/-- `bz` (R114). -/
def execBz (a : Reg) (off : BitVec 16) (s : State) : Out := .next (s.branch (s.sreg a == 0) (s.rel off.toInt))
/-- `bnz` (R114). -/
def execBnz (a : Reg) (off : BitVec 16) (s : State) : Out := .next (s.branch (s.sreg a != 0) (s.rel off.toInt))
/-- `beq` (R114). -/
def execBeq (d a : Reg) (off : BitVec 11) (s : State) : Out := .next (s.branch (s.sreg d == s.sreg a) (s.rel off.toInt))
/-- `bne` (R114). -/
def execBne (d a : Reg) (off : BitVec 11) (s : State) : Out := .next (s.branch (s.sreg d != s.sreg a) (s.rel off.toInt))
/-- `blt` (R114). -/
def execBlt (d a : Reg) (off : BitVec 11) (s : State) : Out :=
  .next (s.branch (decide ((s.sreg d).toInt < (s.sreg a).toInt)) (s.rel off.toInt))
/-- `bge` (R114). -/
def execBge (d a : Reg) (off : BitVec 11) (s : State) : Out :=
  .next (s.branch (decide ((s.sreg a).toInt ≤ (s.sreg d).toInt)) (s.rel off.toInt))
/-- `bltu` (R114). -/
def execBltu (d a : Reg) (off : BitVec 11) (s : State) : Out :=
  .next (s.branch (decide ((s.sreg d).toNat < (s.sreg a).toNat)) (s.rel off.toInt))
/-- `bgeu` (R114). -/
def execBgeu (d a : Reg) (off : BitVec 11) (s : State) : Out :=
  .next (s.branch (decide ((s.sreg a).toNat ≤ (s.sreg d).toNat)) (s.rel off.toInt))

/-- LOOPSTACK (R313): INFO0 holds the depth. -/
def State.loopStack (s : State) : State := s.raise 0x17 (word s.wv.loops.length) 0
/-- The PC of the bundle after the one at t. -/
def State.after (s : State) (t : Nat) : Nat := t + s.rd.bundleLen s.core.cur t
/-- Open a loop level (R115): the body's last bundle is at P + e. With a count of 0 the bundle takes no branch: it may end an
iteration of an enclosing level (R116). -/
def State.openLoop (s : State) (count : Nat) (e : Nat) : State :=
  let S := s.core.iss.pc + s.core.iss.len
  let T := s.core.iss.pc + e
  if T < S ∨ 16383 < T then s.illegal 0
  else if 6 ≤ s.wv.loops.length then s.loopStack
  else if count = 0 then s.modIss fun i => { i with skip := some (s.after T) }
  else s.modW fun x => { x with loops := x.loops ++ [⟨BitVec.ofNat 14 S, BitVec.ofNat 14 T, BitVec.ofNat 32 count, 0⟩] }
/-- `loop` (R115). -/
def execLoop (a : Reg) (off : BitVec 16) (s : State) : Out := .next (s.openLoop ((s.sreg a).toNat % 2 ^ 32) off.toNat)
/-- `loopi` (R115). -/
def execLoopi (count : BitVec 10) (off : BitVec 11) (s : State) : Out := .next (s.openLoop count.toNat off.toNat)

/-- Does `lbrk` leave its loop (R117)? -/
def lbrkTaken (cond : LbrkCond) (x : Word) : Bool :=
  match cond with
  | .always => true
  | .nz => x != 0
  | .z => x == 0
/-- `lbrk` (R117): the level is popped and the next PC is the bundle after the one at its end. -/
def execLbrk (cond : LbrkCond) (a : Reg) (s : State) : Out :=
  if lbrkTaken cond (s.sreg a) then
    match s.wv.loops.getLast? with
    | none => .next s.loopStack
    | some l =>
      .next ((s.modW fun x => { x with loops := x.loops.dropLast }).modIss fun i =>
        { i with target := some (s.after l.stop.toNat) })
  else .next s

/-- Step the levels whose end is the bundle's PC (R116): the stack after it, and the next PC if an iteration repeats. -/
def stepLoops (pc : Nat) : List LoopLevel → List LoopLevel × Option Nat
  | [] => ([], none)
  | l :: rest =>
    if l.stop.toNat = pc then
      if 1 < l.remaining.toNat then
        ({ l with remaining := l.remaining - 1, index := l.index + 1 } :: rest, some l.start.toNat)
      else stepLoops pc rest
    else (l :: rest, none)
/-- The same on a stack held outermost first. -/
def stepLoopStack (pc : Nat) (ls : List LoopLevel) : List LoopLevel × Option Nat :=
  let (r, t) := stepLoops pc ls.reverse
  (r.reverse, t)

/-! ## Bundles and their distance (R19, R81) -/

/-- A bundle's syllables from a PC: up to the first with E = 1, at most 8, none past the bank's end. -/
def bundleFrom (get : Nat → Nat) : Nat → Nat → List Nat
  | 0, _ => []
  | n + 1, i =>
    if Config.bankSyllables ≤ i then []
    else
      let x := get i
      if bitAt x 31 then [x] else x :: bundleFrom get n (i + 1)
def Core.bundle (c : Core) (w : Nat) : List Nat := bundleFrom (c.syllable w) 8 (c.weave w).pc.toNat
/-- Order of a syllable's slot (R81). -/
def slotOrder (x : Nat) : Nat :=
  match x / 2 ^ 28 % 8 with
  | 0 => 2
  | 1 => 3
  | 2 | 3 => 4
  | 4 => 5
  | 5 => 6
  | 6 => 7
  | _ => if x / 2 ^ 21 % 128 < 16 then 1 else 8
/-- Opcode of a class P syllable, all `lit` opcodes as one kind. -/
def leadKind (x : Nat) : Nat := min (x / 2 ^ 21 % 128) 8
def isLead (k x : Nat) : Bool := slotOrder x == 1 && leadKind x == k

/-- The gap of the bundle at the PC (R19). -/
def Core.gapOf (ws : List Nat) : Nat := ((ws.head?.filter (isLead 0)).map (· % 256)).getD 0
/-- The bundle at the PC as the weave will fetch it: from the other bank where a boundary that is to come exchanges the banks (R27,
R156). -/
def Core.nextBundle (c : Core) (w : Nat) : List Nat :=
  let wv := c.weave w
  let comes := (match wv.wait with | .boundary _ _ _ none => true | _ => false) || (wv.red.point.isSome && (wv.red.mark || wv.red.reach != .no))
  if wv.pendBswap && comes then bundleFrom (fun i => memRead c.mem (bankFlat w (!wv.bank) i) 4) 8 wv.pc.toNat else c.bundle w
/-- The earliest cycle at which the bundle at the PC issues (R19). -/
def Core.dueIssue (c : Core) (w : Nat) : Nat :=
  let wv := c.weave w
  match wv.fixedAt, wv.lastIssue with
  | some t, _ => t
  | none, some t => t + Core.gapOf (c.nextBundle w) + 1
  | none, none => c.now

end Sys2Proof.Machine
end

