-- ==== Sys2Proof/Machine/Refresh.lean ====
section
/-! DEFINITION. Refresh of the towers and its deferral (R154, R343 to R346). -/
namespace Sys2Proof.Machine

def Core.refreshOf (c : Core) (w : Nat) : Refresh := mget c.refreshes w Refresh.reset
def Core.setRefresh (c : Core) (w : Nat) (r : Refresh) : Core := { c with refreshes := mset c.refreshes w r }
/-- A weave's designated tick at or before a tick (R343); 0, the reset tick, before its first (R345). -/
def designatedAt (w t : Nat) : Nat :=
  let base := 409 * w % Config.refreshPeriod
  if t < base then 0 else base + (t - base) / Config.refreshPeriod * Config.refreshPeriod
/-- The first designated tick of a weave after a tick (R343). -/
def designatedAfter (w t : Nat) : Nat :=
  let base := 409 * w % Config.refreshPeriod
  if t < base then base else base + ((t - base) / Config.refreshPeriod + 1) * Config.refreshPeriod
/-- Ticks that 2 s of wall time hold at the current clock step (R345). -/
def Core.refreshSpan (c : Core) : Nat := 2 * Config.secUnits / (Config.tickCycles * Config.cycleUnits c.clockStep)
/-- The tick of the next refresh (R345). -/
def Core.refreshTick (c : Core) (w : Nat) : Nat :=
  let r := c.refreshOf w
  let d := designatedAfter w r.last
  if r.defer_ = 0 then d else min (d + r.defer_) (max d (r.last + c.refreshSpan))
/-- The last tick inside the 2 s limit (R345, R346). -/
def Core.refreshLimit (c : Core) (w : Nat) : Nat := max (designatedAfter w (c.refreshOf w).last) ((c.refreshOf w).last + c.refreshSpan)
/-- The tick of an entry that stands at a cycle. -/
def dueTick : Due → Nat
  | .cycle n => n / Config.tickCycles
  | .wall _ => 0
/-- Schedule a refresh at cycle 0 of a tick, in place of any earlier plan; where that cycle has passed, of the next tick. -/
def Core.planRefresh (c : Core) (w tick : Nat) : Core :=
  (c.unsched fun a => a == .refresh w).sched (max tick (ceilDiv c.now Config.tickCycles) * Config.tickCycles) bHost w (.refresh w)
/-- The plan that the deferral and the mode give (R345, R346): a timed weave waits for its `realign`s. -/
def Core.replanRefresh (c : Core) (w : Nat) : Core :=
  c.planRefresh w (if (c.weave w).timed && (c.weave w).running then c.refreshLimit w else c.refreshTick w)
/-- A refresh of the weave is planned: once a launch has run on it, its refreshes go on as entries of the agenda. -/
def Core.refreshPlan (c : Core) (w : Nat) : Option Nat :=
  (c.agenda.find? fun e => e.act == .refresh w).map fun e => dueTick e.due
/-- At a launch start: a weave that no launch has held has been refreshed at each of its designated ticks, perhaps in this one. -/
def Core.startRefresh (c : Core) (w : Nat) : Core :=
  if (c.refreshPlan w).isSome then c.replanRefresh w
  else
    let d := designatedAt w c.tick
    let end_ := d * Config.tickCycles + Config.blackoutCycles
    if d = 0 ∧ (409 * w) % Config.refreshPeriod ≠ 0 then c.replanRefresh w
    else if c.now < end_ then ((c.setRefresh w ⟨d, 0, end_⟩).sched end_ bLand w (.refreshBlackoutEnd w)).replanRefresh w
    else (c.setRefresh w ⟨d, 0, 0⟩).replanRefresh w
/-- The weave is idle again: a refresh that has waited for a `realign` waits no more (R345, R346). -/
def Core.endRefresh (c : Core) (w : Nat) : Core := if (c.refreshPlan w).isSome then c.replanRefresh w else c
/-- The clock step has changed, and with it the ticks that 2 s hold: plans are made anew (R345, R346). A timed weave's plan that its
`realign` has made stays, inside the new limit; `old` is the machine at the old step. -/
def Core.replanAll (c old : Core) : Core :=
  (c.agenda.filterMap fun e => match e.act with
    | .refresh w => some (w, dueTick e.due)
    | _ => none).foldl (fun c (w, t) =>
      if (c.weave w).timed && (c.weave w).running && decide (t < old.refreshLimit w) then c.planRefresh w (min t (c.refreshLimit w))
      else c.replanRefresh w) c
/-- A timed weave's `realign` places its next bundle at cycle 0 of a tick (R346). -/
def Core.realignRefresh (c : Core) (w tick : Nat) : Core :=
  if c.refreshTick w ≤ tick then c.planRefresh w (min tick (c.refreshLimit w)) else c

/-- REFRESH (R344): the blackout of cycles 0 to 63, and the next refresh. -/
def execRefresh (w : Nat) (s : State) : Out :=
  .next (s.modC fun c =>
    let c := c.setRefresh w ⟨c.tick, 0, c.now + Config.blackoutCycles⟩
    (c.sched (c.now + Config.blackoutCycles) bLand w (.refreshBlackoutEnd w)).replanRefresh w)
/-- REFRESH_BLACKOUT_END (R344). -/
def execRefreshBlackoutEnd (w : Nat) (s : State) : Out :=
  .next (s.modC fun c => c.setRefresh w { c.refreshOf w with blackoutEnd := 0 })

/-- The part of a request that the 2 s margin allows (R345). -/
def Core.deferGrant (c : Core) (w n : Nat) : Nat :=
  let r := c.refreshOf w
  let d := designatedAfter w r.last
  min n (r.last + c.refreshSpan - (d + r.defer_))
/-- The deferral of a weave's towers grows by what the margin allows (R345). -/
def Core.deferRefresh (c : Core) (w n : Nat) : Core :=
  let r := c.refreshOf w
  (c.setRefresh w { r with defer_ := r.defer_ + c.deferGrant w n }).replanRefresh w
/-- `refdefer` (R154, R345). -/
def execRefdefer (n : BitVec 3) (s : State) : Out := .next (s.modC fun c => c.deferRefresh c.cur n.toNat)

end Sys2Proof.Machine
end

