-- ==== Sys2Proof/Machine/Links.lean ====
section
/-! DEFINITION. Logs and interrupts (R397, R440, R483) and the Porlen links (R446 to R451): what sends a flit. -/
namespace Sys2Proof.Machine

def Core.ctx (c : Core) (n : Nat) : Context := mget c.contexts n Context.reset
def Core.modCtx (c : Core) (n : Nat) (f : Context → Context) : Core := { c with contexts := mset c.contexts n (f (c.ctx n)) }
def Core.queue (c : Core) (q : Nat) : Queue := mget c.queues q Queue.reset
def Core.modQ (c : Core) (q : Nat) (f : Queue → Queue) : Core := { c with queues := mset c.queues q (f (c.queue q)) }
def Core.healthOf (c : Core) (unit : Nat) : Health := mget c.health unit Health.reset
def Core.modHealth (c : Core) (unit : Nat) (f : Health → Health) : Core :=
  { c with health := mset c.health unit (f (c.healthOf unit)) }
def Core.link (c : Core) (p : Nat) : Link := mget c.links p Link.reset
def Core.modLink (c : Core) (p : Nat) (f : Link → Link) : Core := { c with links := mset c.links p (f (c.link p)) }
def Core.modHost (c : Core) (f : HostLink → HostLink) : Core := { c with host := f c.host }
def Core.modPower (c : Core) (f : Power → Power) : Core := { c with power := f c.power }
def Core.send (c : Core) (x : Sent) : Core := { c with outbox := c.outbox ++ [x] }
/-- The decks are unpowered: after a shutdown, and in recovery (R472, R479). -/
def Core.unpowered (c : Core) : Bool := c.power.shut || c.power.boot == 0xE0
/-- The context of a weave's launch; 255, which names no context, without one. -/
def Core.ctxOf (c : Core) (w : Nat) : Nat := ((c.launchOf w).map (·.ctx)).getD 255

/-! ## Preloads (R419) -/

/-- A preloaded launch is discarded: it is fetched again once it is dispatched. -/
def Core.dropPreload (c : Core) (n : Nat) : Core :=
  { c with
    sectors := c.sectors.map fun ((s, x) : Nat × Sector) => (s, if x.preloaded = some n then { x with preloaded := none } else x)
    launches := mdel c.launches n
    queues := c.queues.map fun ((q, x) : Nat × Queue) =>
      (q, { x with cmds := x.cmds.map fun (m : Command) => if m.launch = some n then { m with launch := none } else m })
    graphs := c.graphs.map fun ((g, x) : Nat × GraphRun) => (g, { x with launches := x.launches.filter fun p => p.2 != n }) }
/-- The launch that is preloaded on a launch's sectors. -/
def Core.preloadOn (c : Core) (l : Launch) : Option Nat := l.sectors.findSome? fun s => (c.sector s).preloaded
/-- A `bswap` of a launch, or its pre-emption, discards what is preloaded on its sectors. -/
def Core.dropPreloadOf (c : Core) (n : Nat) : Core :=
  match (c.launch? n).bind c.preloadOn with
  | some m => c.dropPreload m
  | none => c

/-! ## Interrupts (R440) -/

/-- Key of a word of a function's MSI-X table: vector v has words 2v and 2v + 1. The vector control word is masked
until the host clears it (log 14). -/
def msixKey (fn word : Nat) : Nat := fn * 512 + word
def Core.msixMasked (c : Core) (fn vec : Nat) : Bool :=
  bitAt (mget c.host.msixTable (msixKey fn (2 * vec + 1)) (word (2 ^ 32))).toNat 32
/-- A message of a vector, or its pending bit while it is masked. -/
def Core.msix (c : Core) (fn vec : Nat) : Core :=
  if c.msixMasked fn vec then
    let k := fn * 4 + vec / 64
    c.modHost fun h => { h with msixPend := mset h.msixPend k (mget h.msixPend k 0 ||| word (2 ^ (vec % 64))) }
  else c.send (.msix fn vec)
/-- The function that receives a source (R440). -/
def Core.sourceFn (c : Core) (i : Nat) : Nat :=
  if i < 2 then 0
  else if i < 66 then (c.ctx (i - 2)).fn
  else (c.ctx (bits (c.queue (i - 66)).qcfg.toNat 29 24)).fn
def Core.raiseSource (c : Core) (i : Nat) : Core :=
  let r := (mget c.host.sources i 0).toNat
  if bitAt r 15 then c.msix (c.sourceFn i) (r % 256) else c

/-! ## Logs (R397, R483) -/

def LogRing.full (r : LogRing) : Bool := decide (1024 ≤ r.head - r.tail)
/-- Append an entry to a ring; a full ring discards it and counts it (R397; log 14). -/
def LogRing.push (r : LogRing) (e : List Word) : LogRing :=
  if r.full then { r with lost := r.lost + 1 }
  else { r with head := r.head + 1, entries := mset r.entries (r.head % 1024) e }
/-- An entry of the poison log (kinds 9 to 11) or of the error log, and, where it has room there, its interrupt (R397). The kind 10 of a
failed host or peer read, which names no unit, is the error log's (R442; log 64). -/
def Core.logEntry (c : Core) (unit kind flags tag : Nat) (addr va : Word) : Core :=
  let e := [word (unit + kind * 2 ^ 32 + flags * 2 ^ 40 + tag * 2 ^ 48), addr, va, word c.tick]
  if 9 ≤ kind ∧ kind ≤ 11 ∧ !(kind = 10 ∧ unit = 0xFFFFFFFF) then
    let c' := c.modHost fun h => { h with poisonLog := h.poisonLog.push e }
    if c.host.poisonLog.full then c' else c'.raiseSource 1
  else
    let c' := c.modHost fun h => { h with errLog := h.errLog.push e }
    if c.host.errLog.full then c' else c'.raiseSource 0
def Core.tagOf (c : Core) (ctx : Nat) : Nat := ((c.ctx ctx).words.getD 0 0).toNat % 65536

/-- A corrected error of a unit (R394, R395); more than 64 in one sub-array within 24 h make its tower suspect (R392). -/
def Core.noteCorrected (c : Core) (u : UnitName) (injected : Bool) : Core :=
  if injected then c
  else
    let day := 86400 * Config.secUnits
    let c := c.modHealth (unitCode u) fun h => { h with corrAt := (h.corrAt.filter fun t => c.wall < t + day) ++ [c.wall] }
    if u.type = 2 ∧ 64 < (c.healthOf (unitCode u)).corrAt.length then
      c.modHealth (unitCode ⟨1, u.sector, u.sub % 64⟩) fun h => if h.state = 0 then { h with state := 1 } else h
    else c
def Core.noteUncorrectable (c : Core) (u : UnitName) (injected : Bool) : Core :=
  if injected then c else c.modHealth (unitCode u) fun h => { h with uncorr := min 0xFFFF (h.uncorr + 1) }

/-! ## Flits (R446, R447) -/

def flitHead (f : Flit) : Nat :=
  f.rsv.toNat % 4 * 2 ^ 30 + f.rsv.toNat / 4 * 2 ^ 101 +
  f.dst.toNat + f.kind.toNat * 2 ^ 12 + f.src.toNat * 2 ^ 16 + f.vc.toNat * 2 ^ 28 + f.tag.toNat * 2 ^ 32 +
  f.addr.toNat * 2 ^ 48 + f.op.toNat * 2 ^ 92 + f.nw.toNat * 2 ^ 96 + f.seq.toNat * 2 ^ 104
/-- One step of CRC-16, polynomial 0x1021, most significant bit first. -/
def crc16Bits : Nat → Nat → Nat
  | 0, r => r
  | n + 1, r => crc16Bits n (if bitAt r 15 then (r * 2 % 65536) ^^^ 0x1021 else r * 2 % 65536)
def crc16 (bs : List Nat) : Nat := bs.foldl (fun r b => crc16Bits 8 (r ^^^ (b * 256))) 0xFFFF
/-- The CRC of a flit over bytes 0 to 13 and 16 to 255. -/
def flitCrc (f : Flit) : Nat :=
  crc16 (natBytes 14 (flitHead f) ++ ((f.payload.flatMap fun (x : Word) => natBytes 8 x.toNat) ++ List.replicate 240 0).take 240)
def sealFlit (f : Flit) : Flit := { f with crc := BitVec.ofNat 16 (flitCrc f) }
/-- VC of a packet kind (R447). -/
def kindVc (kind : Nat) : Nat := if kind = 3 then 1 else if kind = 6 then 2 else 0

/-- Put a flit on a port: it takes a credit and a sequence number and stays unacknowledged; without a credit, or with 64
unacknowledged, it waits (R448, R449). -/
def Core.portSend (c : Core) (p origin : Nat) (f : Flit) : Core :=
  let l := c.link p
  let vc := f.vc.toNat
  if l.credits.getD vc 0 = 0 ∨ 64 ≤ l.unacked.length ∨ l.sendQ.any (fun g => g.2.vc == f.vc) then
    c.modLink p fun l => { l with sendQ := l.sendQ ++ [(origin, f)] }
  else
    let f := sealFlit { f with seq := BitVec.ofNat 8 l.nextSeq }
    (c.modLink p fun l => { l with
      credits := lmod l.credits vc (· - 1)
      unacked := l.unacked ++ [(origin, f)]
      nextSeq := (l.nextSeq + 1) % 256 }).send (.flit p f)
/-- The port of a flow (R451): none when the route has no enabled port that is up. -/
def Core.flowPort (c : Core) (origin dst target : Nat) : Option Nat :=
  let mask := (mget c.host.routes dst 0).toNat
  let ps := (List.range 36).filter fun p => bitAt mask p && (c.link p).en && (c.link p).up && !(c.link p).dead
  ps[(origin % 256 + 7 * dst + 13 * target) % ps.length]?
/-- HBM stack of a physical address (R360). -/
def hbmStack (a : Nat) : Nat := bits a 8 6 ^^^ bits a 23 21
/-- The target of a flow: the stack for REGION 0, the sector for the others (R451). -/
def flowTarget (addr : Nat) : Nat := if bits addr 43 40 = 0 then hbmStack (addr % 2 ^ 39) else bits addr 29 22
/-- Send one packet; false when its route has no port (R449). -/
def Core.sendPacket (c : Core) (origin dst kind tag addr op : Nat) (nw : Nat) (payload : List Word) : Core × Bool :=
  match c.flowPort origin dst (flowTarget addr) with
  | none => (c, false)
  | some p =>
    (c.portSend p origin ⟨BitVec.ofNat 12 dst, BitVec.ofNat 4 kind, BitVec.ofNat 12 c.host.modid, BitVec.ofNat 2 (kindVc kind),
      BitVec.ofNat 16 tag, BitVec.ofNat 44 addr, BitVec.ofNat 4 op, BitVec.ofNat 5 nw, 0, 0, payload, 0⟩, true)

/-- Ask a peer module for words (R447, R454): false when the route has no port. A request without a completion in 50 ms
fails (R442). -/
def Core.askPeer (c : Core) (src : ReadSource) (ctx origin a va nw : Nat) : Core × Bool :=
  match c.flowPort origin (bits a 55 44) (flowTarget (a % 2 ^ 44)) with
  | none => (c, false)
  | some p =>
    let (id, c) := c.fresh
    -- the command processor's packets carry TAG 0 (R446)
    let tag := match src with
      | .job _ | .ldh _ => c.tagOf ctx
      | .graphCopy .. | .cp _ => 0
    let (c, _) := c.sendPacket origin (bits a 55 44) 2 tag (a % 2 ^ 44) 0 nw []
    let r : PeerRead := ⟨id, src, p, a % 2 ^ 44, bits a 55 44, va, nw, none, false, c.now⟩
    (({ c with peerReads := c.peerReads ++ [r] }).schedWall (50 * Config.msUnits) bHost id (.peerTimeout id), true)

end Sys2Proof.Machine
end

