-- ==== Sys2Proof/Machine/Ecc.lean ====
section
/-! DEFINITION. The code of HBM requests (R379): GF(2^16), the Reed–Solomon code over it with its three check symbols, the
symbols that a read receives and what a decoder makes of them; and reads of the arrays that the hardware itself makes. -/
namespace Sys2Proof.Machine

/-! ## The field and the code -/

/-- Twice an element of the field: x^16 = x^12 + x^3 + x + 1. -/
def gfDouble (x : Nat) : Nat := if 2 * x < 65536 then 2 * x else (2 * x) ^^^ 0x1100B
def gfMul (x y : Nat) : Nat := (List.range 16).foldr (fun i acc => gfDouble acc ^^^ (if bitAt y i then x else 0)) 0
/-- A power of the primitive element. -/
def gfAlpha : Nat → Nat
  | 0 => 1
  | n + 1 => gfDouble (gfAlpha n)
/-- The coefficients of the generator (x − 1)(x − α)(x − α²) at x^0, x^1 and x^2. -/
def rsGen : Nat × Nat × Nat := (gfAlpha 3, gfAlpha 1 ^^^ gfAlpha 2 ^^^ gfAlpha 3, 1 ^^^ gfAlpha 1 ^^^ gfAlpha 2)
/-- The check symbols of 32 data symbols, at x^0 to x^2: the remainder of the data times x^3. -/
def rsCheck (data : List Nat) : List Nat :=
  let (g0, g1, g2) := rsGen
  let (r0, r1, r2) := data.foldr (fun d ((r0, r1, r2) : Nat × Nat × Nat) =>
    let f := d ^^^ r2
    (gfMul f g0, r0 ^^^ gfMul f g1, r1 ^^^ gfMul f g2)) (0, 0, 0)
  [r0, r1, r2]
/-- A word of the code at α^j. -/
def rsAt (j : Nat) (word : List Nat) : Nat := word.foldr (fun s acc => gfMul acc (gfAlpha j) ^^^ s) 0
/-- What a decoder makes of a received word. -/
inductive RsOut where
  | clean
  | fix (pos val : Nat)
  | bad
  deriving DecidableEq, Repr
def rsDecode (word : List Nat) : RsOut :=
  let s0 := rsAt 0 word
  let s1 := rsAt 1 word
  let s2 := rsAt 2 word
  if s0 = 0 ∧ s1 = 0 ∧ s2 = 0 then .clean
  else match (List.range 35).find? fun k => s0 != 0 && s1 == gfMul s0 (gfAlpha k) && s2 == gfMul s1 (gfAlpha k) with
    | some k => .fix k s0
    | none => .bad

/-! ## Requests -/

/-- The 32 data symbols of a request as memory holds it. -/
def Core.symbols (c : Core) (r : Nat) : List Nat := (List.range 32).map fun i => c.readN (r + 2 * i) 2
/-- The error of a symbol of a request: what stands in HBM differs by it from what was written. -/
def Core.symbolError (c : Core) (r pos : Nat) : Nat :=
  ((mget c.hbmFlips r []).filter fun p => p.1 == pos).foldl (fun x p => x ^^^ p.2.toNat) 0
/-- The symbols that a read receives, check symbols first: those that were written, with their errors. -/
def Core.received (c : Core) (r : Nat) : List Nat :=
  ((rsCheck (c.symbols r) ++ c.symbols r).zip (List.range 35)).map fun (s, i) => s ^^^ c.symbolError r i
/-- A read finds the request as it was received and corrected: its errors, and the correction that the decoder made, stand in its
data from now on. -/
def Core.settleRequest (c : Core) (r : Nat) (fix : Nat × Nat) : Core :=
  let c := (List.range 32).foldl (fun (c' : Core) i =>
    let x := c.symbolError r (i + 3) ^^^ (if fix.1 = i + 3 then fix.2 else 0)
    if x = 0 then c' else { c' with mem := memWrite c'.mem (r + 2 * i) 2 (c.readN (r + 2 * i) 2 ^^^ x) }) c
  { c with hbmFlips := mdel c.hbmFlips r }

/-! ## Poison of HBM (R369, R380) -/

/-- The 64-byte HBM requests that bytes of HBM fall in. -/
def requestsOf (a n : Nat) : List Nat := (List.range ((a % 64 + n + 63) / 64)).map fun i => a / 64 * 64 + 64 * i
/-- The poisoned requests of some bytes that are poisoned for those bytes: a unit that a Damask write has rewritten whole is
poisoned no more, though the rest of its request is (R369). -/
def Core.poisonOf (c : Core) (a n : Nat) : List Nat :=
  (requestsOf a n).filter fun r => c.hbmPoison.contains r &&
    (List.range 64).any fun i => a ≤ r + i && r + i < a + n && !c.hbmFixed.contains (r + i)
/-- A write that covers whole requests ends their poison, and codes them anew (R379, R380). -/
def Core.clearPoison (c : Core) (a n : Nat) : Core :=
  let whole (r : Nat) : Bool := a ≤ r && r + 64 ≤ a + n
  { c with
    hbmPoison := c.hbmPoison.filter fun r => !whole r
    hbmFixed := c.hbmFixed.filter fun b => !whole (b / 64 * 64)
    hbmFlips := c.hbmFlips.filter fun p => !whole p.1 }
/-- A poisoned unit has been rewritten whole: its bytes are good, and a request all of whose bytes are is poisoned no more
(R369, R380). -/
def Core.fixUnit (c : Core) (a n : Nat) : Core :=
  let c := { c with hbmFixed := ((List.range n).map (a + ·)).foldl (fun l b =>
    if c.hbmPoison.contains (b / 64 * 64) then insertNat l b else l) c.hbmFixed }
  (requestsOf a n).foldl (fun c r =>
    if c.hbmPoison.contains r && (List.range 64).all fun i => c.hbmFixed.contains (r + i) then
      { c with hbmPoison := c.hbmPoison.filter (· != r), hbmFixed := c.hbmFixed.filter fun b => b / 64 * 64 != r }
    else c) c
/-- Poison a request: found by a patrol or a read, not injected. -/
def Core.poisonRequest (c : Core) (r : Nat) : Core :=
  if c.hbmPoison.contains r then c
  else { c with
    hbmPoison := c.hbmPoison ++ [r]
    hbmFixed := c.hbmFixed.filter fun b => b / 64 * 64 != r
    hbmInjected := c.hbmInjected.filter (· != r) }

/-! ## Reads by the hardware itself (R372 to R375, R399; log 59) -/

def peerBase : Nat := 6 * 2 ^ 64
/-- Array address of a flat row (R397): tower address, store offset, syllable or instruction index. -/
def arrayAddr (row : Nat) : Nat :=
  if storeBase ≤ row ∧ row < towerBase then (row - storeBase) % 2 ^ 22
  else if towerBase ≤ row ∧ row < bankBase then (row - towerBase) % (68 * 2 ^ 18)
  else if bankBase ≤ row ∧ row < txsBase then (row - bankBase) % 65536 / 4
  else if txsBase ≤ row ∧ row < peerBase then (row - txsBase) % 16384 / 4
  else row
/-- FLAGS of a log entry (R397). -/
def logFlags (consumed injected : Bool) : Nat := bnat consumed + 2 * bnat injected
/-- Mark a row poisoned (R328, R373): its bits are free from then on (log 7). Its flipped bits stay, so that the row goes on failing
in its column, until a write covers it. -/
def Core.poisonRow (c : Core) (row : Nat) : Core :=
  if c.poison.contains row then c
  else
    let (x, c) := c.free
    { c with poison := c.poison ++ [row], mem := memWrite c.mem row 8 x.toNat }
/-- A row that the hardware reads is flagged: it is rebuilt, or poisoned where it cannot be, and logged (R373, R375). -/
def Core.settleRow (c : Core) (row : Nat) (unc injected : Bool) : Core :=
  let (_, _, u) := arrayOf row
  let log (c : Core) (kind : Nat) : Core := c.logEntry (unitCode u) kind (logFlags false injected) 0 (word (arrayAddr row)) 0
  if unc then log ((c.noteUncorrectable u injected).poisonRow row) 2
  else log ((if injected then c else c.rebuildWord row).noteCorrected u injected) 1
/-- The hardware, not a weave or a job, reads the rows that a test picks: armed injections of them fire, words with wrong parity are
settled, and the use of a poisoned word is logged (R372, R373, R375, R399). -/
def Core.settleRows (c : Core) (mine : Nat → Bool) : Core :=
  let used := c.poison.filter mine
  let armed := c.weaves.filterMap fun (w, x) => if x.injecting then (c.injectRow w).map fun r => (w, x, r) else none
  let c := (armed.filter fun p => mine p.2.2 && !used.contains p.2.2).foldl (fun c (w, x, r) =>
    (c.disarm w).settleRow r (bits x.errinj.toNat 55 54 == 1) true) c
  let c := (c.flips.filter fun x => mine x.row).foldl (fun c x =>
    if c.wordFlagged x.row && !c.poison.contains x.row then c.settleRow x.row (c.groupFails x.row) false else c) c
  used.foldl (fun c r =>
    let (_, _, u) := arrayOf r
    c.logEntry (unitCode u) 2 (logFlags false false) 0 (word (arrayAddr r)) 0) c

end Sys2Proof.Machine
end

