-- ==== Sys2Proof/Machine/LaneFp.lean ====
section
/-! DEFINITION. Class F: lane floating-point forms (R173 to R189). -/
namespace Sys2Proof.Machine

/-- The flags that a bundle raises are ORed into FCSR.FLAGS (R188). Those with their TE bit set are noted: the bundle
raises FPX once every slot has executed, and takes no effect (R189). -/
def State.withFlags (s : State) (fl : Nat) (f : State → State) : State :=
  let hit := fl &&& s.wv.te
  f ((s.modW fun x => { x with fcsr := x.fcsr ||| word (fl * 16) }).modIss fun i =>
    { i with flags := i.flags ||| fl, fpx := i.fpx ||| hit, fpxSlot := if i.fpx = 0 then i.slot else i.fpxSlot })

/-- Results and flags of a lane's elements. -/
def orFlags (xs : List (Nat × Nat)) : Nat := xs.foldl (fun acc p => acc ||| p.2) 0
/-- The flags of every lane. -/
def laneFlags (xs : List (Nat × Word × Nat)) : Nat := xs.foldl (fun acc p => acc ||| p.2.2) 0

/-- A form that computes each lane's value and flags (R160, R174). -/
def State.laneF (s : State) (L : Nat) (d : Reg) (lanes : List Nat) (f : Nat → Word × Nat) : State :=
  let rs := lanes.map fun l => (l, f l)
  s.withFlags (laneFlags rs) fun s => s.deliver .v d L lanes (rs.map fun p => (p.1, p.2.1))

/-- Element-wise over one, two and three operands; each element gives bits and flags. -/
def elemsF (w : Nat) (f : Nat → Nat × Nat) : Word × Nat :=
  let es := (List.range (64 / w)).map f
  (packElems w (es.map (·.1)), orFlags es)

/-- RoundTo of lane arithmetic under the weave's modes (R60, R173). -/
def Weave.arithRnd (wv : Weave) : Rnd := ⟨wv.rmArith, false, wv.ftz, none⟩

/-- An arithmetic form of x, y and z (R174). -/
def State.fArith (s : State) (f : FFmt) (op : Nat → Fp → Fp → Fp → Fp × Nat) (d a b : Reg) (k : KReg) : State :=
  let wv := s.wv; let sp := specOf f
  s.laneF 4 d (s.active k) fun l =>
    elemsF sp.w fun i =>
      let inp (r : Reg) := inFp sp wv.ftz (elem (s.vreg r l) sp.w i)
      let (v, f1) := op wv.rmArith (inp a) (inp b) (inp d)
      let (e, f2) := roundTo sp wv.arithRnd v
      (e, f1 ||| f2)

/-- x + y, x − y, x × y with the flags of signalling inputs (R65, R174). -/
def opAdd (mode : Nat) (x y _z : Fp) : Fp × Nat := let (v, f) := addFp mode x y; (v, f ||| sigFlag [x, y])
def opSub (mode : Nat) (x y _z : Fp) : Fp × Nat := let (v, f) := addFp mode x y.negate; (v, f ||| sigFlag [x, y])
def opMul (_mode : Nat) (x y _z : Fp) : Fp × Nat := let (v, f) := mulFp x y; (v, f ||| sigFlag [x, y])
def opFma (mode : Nat) (x y z : Fp) : Fp × Nat := fmaFp mode x y z
def opFms (mode : Nat) (x y z : Fp) : Fp × Nat := fmaFp mode x y z.negate
def opFnma (mode : Nat) (x y z : Fp) : Fp × Nat := fmaFp mode x.negate y z

/-- `vfadd` (R174). -/
def execVfadd (f : FFmt) (d a b : Reg) (k : KReg) (s : State) : Out := .next (s.fArith f opAdd d a b k)
/-- `vfsub` (R174). -/
def execVfsub (f : FFmt) (d a b : Reg) (k : KReg) (s : State) : Out := .next (s.fArith f opSub d a b k)
/-- `vfmul` (R174). -/
def execVfmul (f : FFmt) (d a b : Reg) (k : KReg) (s : State) : Out := .next (s.fArith f opMul d a b k)
/-- `vfma` (R174). -/
def execVfma (f : FFmt) (d a b : Reg) (k : KReg) (s : State) : Out := .next (s.fArith f opFma d a b k)
/-- `vfms` (R174). -/
def execVfms (f : FFmt) (d a b : Reg) (k : KReg) (s : State) : Out := .next (s.fArith f opFms d a b k)
/-- `vfnma` (R174). -/
def execVfnma (f : FFmt) (d a b : Reg) (k : KReg) (s : State) : Out := .next (s.fArith f opFnma d a b k)

/-- Bits of a value taken from an input, without rounding flags (R175, R176). -/
def exactBits (sp : FSpec) (x : Fp) : Nat := (roundTo sp rne x).1
/-- A minimum or maximum (R175). -/
def State.fMinMax (s : State) (f : FFmt) (isMax : Bool) (d a b : Reg) (k : KReg) : State :=
  let wv := s.wv; let sp := specOf f
  s.laneF 4 d (s.active k) fun l =>
    elemsF sp.w fun i =>
      let (v, fl) := minMaxFp isMax (inFp sp wv.ftz (elem (s.vreg a l) sp.w i)) (inFp sp wv.ftz (elem (s.vreg b l) sp.w i))
      (exactBits sp v, fl)
/-- `vfmin` (R175). -/
def execVfmin (f : FFmt) (d a b : Reg) (k : KReg) (s : State) : Out := .next (s.fMinMax f false d a b k)
/-- `vfmax` (R175). -/
def execVfmax (f : FFmt) (d a b : Reg) (k : KReg) (s : State) : Out := .next (s.fMinMax f true d a b k)

/-- A form of one operand that gives bits and flags from In(x). -/
def State.fUn (s : State) (f : FFmt) (L : Nat) (g : FSpec → Fp → Nat × Nat) (d a : Reg) (lanes : List Nat) : State :=
  let wv := s.wv; let sp := specOf f
  s.laneF L d lanes fun l => elemsF sp.w fun i => g sp (inFp sp wv.ftz (elem (s.vreg a l) sp.w i))
/-- `vfabs` (R176). -/
def execVfabs (f : FFmt) (d a : Reg) (k : KReg) (s : State) : Out :=
  .next (s.fUn f 4 (fun sp x => (exactBits sp x.abs, sigFlag [x])) d a (s.active k))
/-- `vfneg` (R176). -/
def execVfneg (f : FFmt) (d a : Reg) (k : KReg) (s : State) : Out :=
  .next (s.fUn f 4 (fun sp x => (exactBits sp x.negate, sigFlag [x])) d a (s.active k))

/-- A compare (R177): the relation must hold for every element; each element gives the relation and flags. -/
def State.fCmp (s : State) (f : FFmt) (g : Fp → Fp → Bool × Nat) (kd : KReg) (a b : Reg) (k : KReg) : State :=
  let wv := s.wv; let sp := specOf f
  let rs := (s.active k).map fun l =>
    (l, (List.range (64 / sp.w)).map fun i =>
      g (inFp sp wv.ftz (elem (s.vreg a l) sp.w i)) (inFp sp wv.ftz (elem (s.vreg b l) sp.w i)))
  let fl := rs.foldl (fun acc p => p.2.foldl (fun acc q => acc ||| q.2) acc) 0
  s.withFlags fl fun s =>
    s.deliver .k (kd.setWidth 5) 4 (rs.map (·.1)) (rs.map fun p => (p.1, if p.2.all (·.1) then 1 else 0))
def anyNan (x y : Fp) : Nat := if x.isNan || y.isNan then fNV else 0
/-- `vfcmpeq` (R177). -/
def execVfcmpeq (f : FFmt) (kd : KReg) (a b : Reg) (k : KReg) (s : State) : Out :=
  .next (s.fCmp f (fun x y => (eqFp x y, sigFlag [x, y])) kd a b k)
/-- `vfcmplt` (R177). -/
def execVfcmplt (f : FFmt) (kd : KReg) (a b : Reg) (k : KReg) (s : State) : Out :=
  .next (s.fCmp f (fun x y => (ltFp x y, anyNan x y)) kd a b k)
/-- `vfcmple` (R177). -/
def execVfcmple (f : FFmt) (kd : KReg) (a b : Reg) (k : KReg) (s : State) : Out :=
  .next (s.fCmp f (fun x y => (ltFp x y || eqFp x y, anyNan x y)) kd a b k)
/-- `vfcmpun` (R177). -/
def execVfcmpun (f : FFmt) (kd : KReg) (a b : Reg) (k : KReg) (s : State) : Out :=
  .next (s.fCmp f (fun x y => (x.isNan || y.isNan, sigFlag [x, y])) kd a b k)
/-- `vfclass` (R178): no flag. -/
def execVfclass (f : FFmt) (d a : Reg) (k : KReg) (s : State) : Out :=
  .next (s.fUn f 4 (fun sp x => (classFp sp x, 0)) d a (s.active k))

/-- Special inputs of the approximated functions (R179): value and flags, or none for the ordinary path. -/
def rcpFp (x : Fp) : Fp × Nat :=
  match x with
  | .nan s => (.nan false, if s then fNV else 0)
  | .inf n => (.zero n, 0)
  | .num n m e _ => if m = 0 then (.inf n, fDZ) else (divNum false 1 0 n m e, 0)
def rsqFp (x : Fp) : Fp × Nat :=
  match x with
  | .nan s => (.nan false, if s then fNV else 0)
  | .inf true => (.nan false, fNV)
  | .inf false => (.zero false, 0)
  | .num n m e _ => if m = 0 then (.inf n, fDZ) else if n then (.nan false, fNV) else (rsqNum m e, 0)
def exp2Fp (x : Fp) : Fp × Nat :=
  match x with
  | .nan s => (.nan false, if s then fNV else 0)
  | .inf true => (.zero false, 0)
  | .inf false => (.inf false, 0)
  | .num n m e _ => (exp2Num n m e, 0)
def log2Fp (x : Fp) : Fp × Nat :=
  match x with
  | .nan s => (.nan false, if s then fNV else 0)
  | .inf true => (.nan false, fNV)
  | .inf false => (.inf false, 0)
  | .num n m e _ => if m = 0 then (.inf true, fDZ) else if n then (.nan false, fNV) else (log2Num m e, 0)
/-- A correctly rounded function under RNE, whatever RM holds (R179). -/
def State.fFunc (s : State) (f : FFmt) (g : Fp → Fp × Nat) (d a : Reg) (k : KReg) : State :=
  let ftz := s.wv.ftz
  s.fUn f 4 (fun sp x =>
    let (v, f1) := g x
    let (e, f2) := roundTo sp ⟨0, false, ftz, none⟩ v
    (e, f1 ||| f2)) d a (s.active k)
/-- `vfrcp` (R179). -/
def execVfrcp (f : FFmt) (d a : Reg) (k : KReg) (s : State) : Out := .next (s.fFunc f rcpFp d a k)
/-- `vfrsq` (R179). -/
def execVfrsq (f : FFmt) (d a : Reg) (k : KReg) (s : State) : Out := .next (s.fFunc f rsqFp d a k)
/-- `vfexp2` (R179). -/
def execVfexp2 (f : FFmt) (d a : Reg) (k : KReg) (s : State) : Out := .next (s.fFunc f exp2Fp d a k)
/-- `vflog2` (R179). -/
def execVflog2 (f : FFmt) (d a : Reg) (k : KReg) (s : State) : Out := .next (s.fFunc f log2Fp d a k)

/-- `vfscl` (R180). -/
def execVfscl (f : FFmt) (d a b : Reg) (k : KReg) (s : State) : Out :=
  let wv := s.wv; let sp := specOf f
  .next (s.laneF 4 d (s.active k) fun l =>
    elemsF sp.w fun i =>
      let x0 := elem (s.vreg b l) 8 (2 * i); let x1 := elem (s.vreg b l) 8 (2 * i + 1)
      if x0 = 255 ∨ x1 = 255 then (defaultNan sp, 0)
      else roundTo sp wv.arithRnd (scaleFp (inFp sp wv.ftz (elem (s.vreg a l) sp.w i)) ((x0 : Int) + x1 - 254)))
/-- `vfscli` (R181): every lane. -/
def execVfscli (f : FFmt) (d a : Reg) (e : BitVec 9) (s : State) : Out :=
  let rnd := s.wv.arithRnd
  .next (s.fUn f 4 (fun sp x => roundTo sp rnd (scaleFp x e.toInt)) d a allLanes)

/-- Code of R48 of a class F format and of an integer size; INT64 has none and takes 16. -/
def fmtCode : FFmt → Nat
  | .d => 0 | .s => 1 | .h => 2 | .bf => 3 | .e4 => 4 | .e5 => 5 | .i => 6
/-- A lane's SRD generator (R62). -/
def Weave.gen (wv : Weave) (lane : Nat) : BitVec 32 := mget wv.srd lane (srdSeed 0 lane)

/-- A conversion of elements 0 to n − 1 (R182): each element gives bits, flags and the next generator. -/
def State.fConv (s : State) (ws wd : Nat) (g : BitVec 32 → Nat → Nat × Nat × BitVec 32) (d a : Reg) (k : KReg) : State :=
  let n := 64 / max ws wd
  let lanes := s.active k
  let rs := lanes.map fun l =>
    let (es, fl, gen) := cvtElems (fun x gen => g gen x) ((List.range n).map (elem (s.vreg a l) ws)) ((s.core.weave s.core.cur).gen l)
    (l, packElems wd es, fl, gen)
  s.withFlags (rs.foldl (fun acc p => acc ||| p.2.2.1) 0) fun s =>
    (s.modW fun x => { x with srd := rs.foldl (fun m p =>
        if x.gen p.1 = p.2.2.2 then m else mset m p.1 p.2.2.2) x.srd }).deliver .v d 2 lanes (rs.map fun p => (p.1, p.2.1))
/-- `vfcvt` (R183). -/
def execVfcvt (tgt src : FFmt) (sat : Bool) (d a : Reg) (k : KReg) (s : State) : Out :=
  let wv := s.wv
  .next (s.fConv src.width tgt.width (cvtElem (fmtCode src) (fmtCode tgt) wv.rm sat wv.ftz) d a k)
/-- `vfcvti` (R184): SAT has no effect. -/
def execVfcvti (tgt : ISz) (src : FFmt) (_sat : Bool) (d a : Reg) (k : KReg) (s : State) : Out :=
  let wv := s.wv
  .next (s.fConv src.width tgt.width (fun g x =>
    let r := convRnd wv.rm false wv.ftz tgt.width g
    let (b, fl) := toIntFp tgt.width r.mode r.srd (inFp (specOf src) wv.ftz x)
    (b, fl, if r.srd.isSome then srdStep g else g)) d a k)
/-- `vfcvtf` (R185). -/
def execVfcvtf (tgt : FFmt) (src : ISz) (sat : Bool) (d a : Reg) (k : KReg) (s : State) : Out :=
  let wv := s.wv
  .next (s.fConv src.width tgt.width (fun g x =>
    let r := convRnd wv.rm sat wv.ftz tgt.width g
    let (b, fl) := roundTo (specOf tgt) r (.ofInt (signed x src.width))
    (b, fl, if r.srd.isSome then srdStep g else g)) d a k)
/-- `vfrnd` (R186): modes 0 to 3 as named, 4 as RNE, 7 by FCSR. -/
def execVfrnd (f : FFmt) (mode : BitVec 3) (d a : Reg) (k : KReg) (s : State) : Out :=
  let rm := if mode.toNat = 7 then s.wv.rmArith else if mode.toNat = 4 then 0 else mode.toNat
  .next (s.fUn f 2 (fun sp x => rndFp sp rm x) d a (s.active k))

/-- One accumulator of `vfdot` in a floating format (R187): the accumulator and the products, summed exactly. -/
def dotFp (mode : Nat) (acc : Fp) (ps : List (Fp × Fp)) : Fp × Nat :=
  let prods := ps.map fun p => mulFp p.1 p.2
  let fl := prods.foldl (fun f p => f ||| p.2) (sigFlag (acc :: ps.flatMap fun p => [p.1, p.2]))
  let (v, f2) := sumFp mode (acc :: prods.map (·.1))
  (v, fl ||| f2)
/-- `vfdot` (R187). -/
def execVfdot (f : FFmt) (d a b : Reg) (k : KReg) (s : State) : Out :=
  let wv := s.wv; let w := f.width; let q := 64 / w / 2; let sp := specOf f
  .next (s.laneF 4 d (s.active k) fun l =>
    elemsF 32 fun j =>
      let idx := (List.range q).map (j * q + ·)
      if f = .i then
        let sum := idx.foldl (fun acc i => acc + signed (elem (s.vreg a l) 8 i) 8 * signed (elem (s.vreg b l) 8 i) 8)
          (signed (elem (s.vreg d l) 32 j) 32)
        (wrap sum 32, 0)
      else
        let (v, f1) := dotFp wv.rmArith (inFp fp32 wv.ftz (elem (s.vreg d l) 32 j))
          (idx.map fun i => (inFp sp wv.ftz (elem (s.vreg a l) w i), inFp sp wv.ftz (elem (s.vreg b l) w i)))
        let (e, f2) := roundTo fp32 wv.arithRnd v
        (e, f1 ||| f2))

end Sys2Proof.Machine
end

