-- ==== Sys2Proof/Machine/LaneMem.lean ====
section
/-! DEFINITION. Class M: lane loads and stores of the three windows, typed loads and stores, rotate-merge, window
conversion and the sector atomics (R190 to R203). -/
namespace Sys2Proof.Machine

/-! ## Windows (R190 to R192) -/

/-- What the check of an access finds (R192): the flat row, in the lane's own window or a shared store. -/
inductive Reach where
  | row (own : Bool) (flat : Nat)
  | window
  | priv
  deriving DecidableEq, Repr

def winSize : Win → Nat
  | .loc => 0x10000
  | _ => 0x400000
def Weave.winBase (wv : Weave) : Win → Nat
  | .loc => wv.locbase.toNat
  | .sec => wv.secbase.toNat
  | .pair => wv.pairbase.toNat
/-- A pair whose map names no bus is split: its PAIR windows are absent (R350). -/
def Core.pairSplit (c : Core) (w : Nat) : Bool :=
  match mget? c.busMaps (secOf w % 80) with
  | some bs => bs.all (· == 0x1F)
  | none => false
/-- The PAIR window exists when the launch holds the paired sector (R190, R350). -/
def Core.pairHeld (c : Core) (w : Nat) : Bool :=
  ((c.launchOf w).map fun l => l.sectors.contains (partner (secOf w))).getD false && !c.pairSplit w
/-- An application half that the launch declares (R47): HALVES is 1 for A, 2 for B, 3 for both (R408). -/
def Core.halfHeld (c : Core) (w off : Nat) : Bool :=
  let h := ((c.launchOf w).map (·.halves)).getD 0
  if off < 0x1E0000 then bitAt h 0 else bitAt h 1
/-- The window a generic address lies in, with its offset (R191). -/
def Core.generic (c : Core) (w g : Nat) : Option (Win × Nat) :=
  let wv := c.weave w
  let within (x : Win) := wv.winBase x ≤ g && g < wv.winBase x + winSize x
  if within .loc then some (.loc, g - wv.winBase .loc)
  else if within .sec then some (.sec, g - wv.winBase .sec)
  else if c.pairHeld w && within .pair then some (.pair, g - wv.winBase .pair)
  else none
/-- The checks of R192 on a window offset; at system level no half and no system region is shut (R47, R192). -/
def Core.reach (c : Core) (w lane : Nat) (x : Win) (off : Nat) : Reach :=
  let wv := c.weave w
  let store (sec : Nat) : Reach :=
    if 0x400000 ≤ off then .window
    else if 0x3C0000 ≤ off then (if wv.priv then .row false (storeFlat sec (rowAddr off)) else .priv)
    else if wv.priv || c.halfHeld w off then .row false (storeFlat sec (rowAddr off))
    else .window
  match x with
  | .loc => if off < 0x10000 then .row true (c.localFlat w lane off wv.place) else .window
  | .sec => store (secOf w)
  | .pair => if c.pairHeld w then store (partner (secOf w)) else .window

/-- The window of a form: a named window, or each lane's own by its generic address (R191). -/
def State.reachOf (s : State) (x : Option Win) (lane ea : Nat) : Reach :=
  match x with
  | some x => s.rd.reach s.core.cur lane x ea
  | none =>
    match s.rd.generic s.core.cur ea with
    | some (x, off) => s.rd.reach s.core.cur lane x off
    | none => .window

/-- Wrap(A(c, l) + 8 × o, 64), with A in v[a] of the lane (R196). -/
def eaOf (x : Word) (o : BitVec 5) : Nat := (x + o.signExtend 64 * 8).toNat

/-- The checks of every active lane; the first cause of R192's table, in the lowest lane that raises it, else f of the
rows. -/
def State.checked (s : State) (acc : List (Nat × Nat × Reach)) (f : List (Nat × Nat × Bool × Nat) → State) : State :=
  match acc.find? fun p => p.2.2 == .window with
  | some (l, ea, _) => s.windowTrap l ea
  | none =>
    match acc.find? fun p => p.2.2 == .priv with
    | some (_, ea, _) => s.privTrap (word ea)
    | none => f (acc.filterMap fun p =>
        match p.2.2 with
        | .row own a => some (p.1, p.2.1, own, a)
        | _ => none)

/-! ## Conditions on an access (R194, R195) -/

/-- The cycle at which a blackout of the weave's towers that holds cycle t ends (R344). -/
def Core.blackout (c : Core) (w t : Nat) : Option Nat :=
  let r := mget c.refreshes w Refresh.reset
  if r.blackoutEnd ≤ t + Config.blackoutCycles ∧ t < r.blackoutEnd then some r.blackoutEnd
  else c.agenda.findSome? fun e =>
    match e.due, e.act with
    | .cycle n, .refresh v => if v = w ∧ n ≤ t ∧ t < n + Config.blackoutCycles then some (n + Config.blackoutCycles) else none
    | _, _ => none
/-- The pair of a weave has lost buses, but not all (R349, R350). -/
def Core.pairDegraded (c : Core) (w : Nat) : Bool :=
  match mget? c.busMaps (secOf w % 80) with
  | some bs => bs.contains 0x1F && !c.pairSplit w
  | none => false
/-- The rows of a paired store that a degraded pair still has to bring over: the bundle waits for them a free time, under the
row-arrival condition, before its 12 cycles begin (R350; log 53). -/
def State.crossing (s : State) (reads : List Nat) (f : State → State) : State :=
  let w := s.core.cur
  let across (a : Nat) : Bool := storeBase ≤ a && a < towerBase && flagSector a != secOf w
  if !s.rd.pairDegraded w || !reads.any across then f s
  else match s.wv.busWait with
    | none => s.hold 1 fun c =>
        let (t, c) := c.freeWait
        c.modW c.cur fun x => { x with busWait := some (c.now + t) }
    | some t => if s.now < t then s.hold 1 id else f s
/-- A LOCAL access of the bundle under way meets a blackout of its weave's towers in some cell, or one of its redundant partner's,
whose cells execute it 2 cycles later (R344, R385). -/
def State.inBlackout (s : State) (locals : List Nat) : Bool :=
  let w := s.core.cur
  (cellsOf locals).any fun cell => (s.rd.blackout w (s.now + cell)).isSome ||
    (s.rd.hasPartner w && (s.rd.blackout (w + 1) (s.now + 2 + cell)).isSome)
/-- The bundle under way tests no wait condition: a redundant partner's, and one that is computed once more (R385; log 13). -/
def State.unheld (s : State) : Bool := s.wv.partner? || s.core.iss.again
/-- Hold the bundle unless every row that it reads has arrived and no LOCAL access executes in a blackout (R195). -/
def State.access (s : State) (reads : List Nat) (locals : List Nat) (f : State → State) : State :=
  if s.unheld then f s
  else if reads.any fun a => !s.rd.rowArrived a then s.hold 1 id
  else if s.inBlackout locals then s.hold 1 id
  else s.crossing reads f

/-- A form of a group of R194 issues: untimed issue waits for the distance, timed issue raises ILLEGAL. -/
def State.spaced (s : State) (sector pair : Bool) (f : State → State) : State :=
  let wv := s.wv
  let near (last : Option Nat) (d : Nat) := match last with
    | some t => decide (s.now < t + d)
    | none => false
  if !s.unheld && ((sector && near wv.lastSector 2) || (pair && near wv.lastPair 4)) then
    if wv.timed then s.illegal 0 else s.hold 0 id
  else
    let s' := f s
    if s'.base.isNone then s'
    else s'.modW fun x => { x with
      lastSector := if sector then some s.now else x.lastSector
      lastPair := if pair then some s.now else x.lastPair }

/-! ## Loads and stores (R196, R197) -/

/-- A LOCAL row as a lane reads it: earlier stores of the weave that its cell has not yet executed stand over memory
(R15, R193; log 13). -/
def Core.localRow (c : Core) (w lane flat : Nat) : Word :=
  (c.weave w).skews.foldl (fun x k => k.stores.foldl (fun x r =>
    if r.lane = lane ∧ r.addr = flat then mergeBits x r.val r.mask else x) x) (c.row flat)
/-- What a lane's load returns. -/
def State.loadRow (s : State) (lane : Nat) (own : Bool) (flat : Nat) : Word :=
  if own then s.rd.localRow s.core.cur lane flat else s.rd.loadShared s.core.cur flat

/-- Enter a write of a shared row into the phase buffer (R197, R199). -/
def bufferRow (buf : Map BufRow) (addr : Nat) (val mask : Word) : Map BufRow :=
  match mget? buf addr with
  | some b => mset buf addr ⟨mergeBits b.val val mask, b.mask ||| mask⟩
  | none => mset buf addr ⟨val &&& mask, mask⟩
/-- The stores of a bundle: LOCAL rows at each cell's execution, others into the buffer (R15, R197, R304). Each entry
gives lane, own window, row, value and written bits. -/
def State.storeRows (s : State) (ws : List (Nat × Bool × Nat × Word × Word)) : State :=
  let own := ws.filter (·.2.1)
  let shared := ws.filter (!·.2.1)
  let buf := shared.foldl (fun b (_, _, a, v, m) => bufferRow b a v m) (s.core.weave s.core.cur).buf
  if Config.bufferRows < buf.length then
    s.raise 0x0C (word (buf.length - s.wv.buf.length)) 0
  else
    s.modC fun c =>
      let c := c.modW c.cur fun x => { x with
        buf := buf
        bufBad := x.bufBad.filter fun b => !(b.1 == 0 && shared.any fun (_, _, a, _, m) => a == b.2 && m == allOnes) }
      if own.isEmpty then c
      else
        let (id, c) := c.fresh
        let c := c.modW c.cur fun x => { x with skews := x.skews ++ [⟨id, own.map fun (l, _, a, v, m) => ⟨l, a, v, m⟩⟩] }
        (cellsOf (own.map (·.1))).foldl (fun c cell => c.sched (c.now + cell) bWave c.cur (.wavefrontSkewExecution c.cur id cell)) c

/-- Note the LOCAL rows that cells 1 to 7 read after this cycle (R15, R193): lane, row, conversion. -/
def State.noteReads (s : State) (id : Nat) (rs : List (Nat × Nat × Option LoadConv)) : State :=
  let ahead := s.rd.weave s.core.cur |>.skews.map (·.id)
  s.modW fun x => { x with reads := (x.reads.filter fun r => s.now < r.issue + 8) ++
    (rs.filter fun r => 16 ≤ r.1).map fun (l, a, v) => ⟨id, s.now, l, a, ahead, v, s.rd.localRow s.core.cur l a⟩ }
/-- A plain load (R196). -/
def State.laneLoad (s : State) (x : Option Win) (L : Nat) (addr : Nat → Word) (d : Reg) (o : BitVec 5) (k : KReg) : State :=
  let acc := (s.active k).map fun l => let ea := eaOf (addr l) o; (l, ea, s.reachOf x l ea)
  s.checked acc fun rs =>
    s.access (rs.map (·.2.2.2)) ((rs.filter (·.2.2.1)).map (·.1)) fun s =>
      (s.putV d L (rs.map (·.1)) fun l =>
        match rs.find? fun r => r.1 == l with
        | some (_, _, own, a) => s.loadRow l own a
        | none => 0).noteReads s.core.nextId ((rs.filter (·.2.2.1)).map fun (l, _, _, a) => (l, a, none)) |>.modC fun c => rs.foldl (fun c (l, _, _, a) => c.loadsRows c.cur [a] (c.now + l / 16 + L)) c
/-- A plain store (R196): rows in ascending lane order, so that the higher lane's value stays (R193). -/
def State.laneStore (s : State) (x : Option Win) (addr : Nat → Word) (d : Reg) (o : BitVec 5) (k : KReg) : State :=
  let acc := (s.active k).map fun l => let ea := eaOf (addr l) o; (l, ea, s.reachOf x l ea)
  s.checked acc fun rs =>
    s.access [] ((rs.filter (·.2.2.1)).map (·.1)) fun s =>
      s.storeRows (rs.map fun (l, _, own, a) => (l, own, a, s.vreg d l, allOnes))

/-- `ldr` (R196). -/
def execLdr (d a : Reg) (o : BitVec 5) (k : KReg) (s : State) : Out := .next (s.laneLoad (some .loc) 3 (s.vreg a) d o k)
/-- `ldrs` (R196). -/
def execLdrs (d a : Reg) (o : BitVec 5) (k : KReg) (s : State) : Out :=
  .next (s.laneLoad (some .loc) 3 (fun _ => s.sreg a) d o k)
/-- `str` (R196). -/
def execStr (d a : Reg) (o : BitVec 5) (k : KReg) (s : State) : Out := .next (s.laneStore (some .loc) (s.vreg a) d o k)
/-- `strs` (R196). -/
def execStrs (d a : Reg) (o : BitVec 5) (k : KReg) (s : State) : Out :=
  .next (s.laneStore (some .loc) (fun _ => s.sreg a) d o k)
/-- `lds` (R194, R196). -/
def execLds (d a : Reg) (o : BitVec 5) (k : KReg) (s : State) : Out :=
  .next (s.spaced true false fun s => s.laneLoad (some .sec) 6 (s.vreg a) d o k)
/-- `sts` (R194, R197). -/
def execSts (d a : Reg) (o : BitVec 5) (k : KReg) (s : State) : Out :=
  .next (s.spaced true false fun s => s.laneStore (some .sec) (s.vreg a) d o k)
/-- `ldp` (R194, R196). -/
def execLdp (d a : Reg) (o : BitVec 5) (k : KReg) (s : State) : Out :=
  .next (s.spaced false true fun s => s.laneLoad (some .pair) 12 (s.vreg a) d o k)
/-- `stp` (R194, R197). -/
def execStp (d a : Reg) (o : BitVec 5) (k : KReg) (s : State) : Out :=
  .next (s.spaced false true fun s => s.laneStore (some .pair) (s.vreg a) d o k)
/-- `ldx` (R191, R196). -/
def execLdx (d a : Reg) (o : BitVec 5) (k : KReg) (s : State) : Out :=
  .next (s.spaced true true fun s => s.laneLoad none 12 (s.vreg a) d o k)
/-- `stx` (R191, R196). -/
def execStx (d a : Reg) (o : BitVec 5) (k : KReg) (s : State) : Out :=
  .next (s.spaced true true fun s => s.laneStore none (s.vreg a) d o k)

/-- Cell c executes the LOCAL stores of a bundle (R15, R193). -/
def Core.applySkew (c : Core) (w id cell : Nat) : Core :=
  match (c.weave w).skews.find? fun k => k.id == id with
  | none => c
  | some k =>
    let here := k.stores.filter fun r => r.lane / 16 == cell
    let rest := k.stores.filter fun r => r.lane / 16 != cell
    let c := here.foldl (fun c r => c.writeRow r.addr r.val r.mask none) c
    c.modW w fun x => { x with
      skews :=
        if rest.isEmpty then x.skews.filter (fun y => y.id != id)
        else x.skews.map (fun y => if y.id = id then { y with stores := rest } else y) }
/-- WAVEFRONT_SKEW_EXECUTION (R15). -/
def execWavefrontSkewExecution (w id cell : Nat) (s : State) : Out := .next (s.modC fun c => c.applySkew w id cell)

/-! ## Typed loads and stores (R198, R199) -/

/-- The descriptor a slot resolves to at issue (R39). -/
def Weave.descriptor (wv : Weave) (slot : Nat) : BitVec 32 :=
  let f := wv.fmtsel.toNat
  let lvl := bits f 2 0
  let i := if lvl < 6 then ((wv.loops[lvl]?).map (·.index.toNat)).getD 0 else 0
  wv.fmt.getD ((bits f 8 3 + slot + bits f 14 9 * i) % 64) 0
/-- How a typed access goes: widths, the number of elements, the group's first element (R198). -/
structure Typed where
  ws : Nat
  wl : Nat
  n : Nat
  mode : Nat
  deriving DecidableEq, Repr
def Weave.typed (wv : Weave) (d : BitVec 32) : Typed :=
  let ws := codeWidth (fdSF d)
  let wl := codeWidth (fdLF d)
  ⟨ws, wl, 64 / max ws wl, if fdRM d = 7 then wv.rm else fdRM d⟩
/-- The element that holds byte Bits(ea, 2, 0), rounded down to a multiple of n. -/
def Typed.first (t : Typed) (ea : Nat) : Nat := (ea % 8 * 8 / t.ws) / t.n * t.n
/-- A descriptor that `ldf` and `stf` accept (R199). -/
def typedOk (d : BitVec 32) : Bool := fdValid d && !isBlock (fdSF d)

/-- Conversions in ascending lane order: each gives its elements, flags and generator (R62, R198). -/
def State.typedConv (s : State) (t : Typed) (src dst : Nat) (sat : Bool) (ins : List (Nat × List Nat))
    (f : List (Nat × List Nat) → State → State) : State :=
  let wv := s.wv
  let gens := s.core.weave s.core.cur
  let rs := ins.map fun (l, es) =>
    let (out, fl, g) := cvtElems (fun x g => cvtElem src dst t.mode sat wv.ftz g x) es (gens.gen l)
    (l, out, fl, g)
  s.withFlags (rs.foldl (fun acc r => acc ||| r.2.2.1) 0) fun s =>
    f (rs.map fun r => (r.1, r.2.1)) <| s.modW fun x => { x with
      srd := rs.foldl (fun m r => if x.gen r.1 = r.2.2.2 then m else mset m r.1 r.2.2.2) x.srd }

/-- `ldf` (R198, R199). -/
def execLdf (slot : BitVec 3) (d a : Reg) (o : BitVec 5) (k : KReg) (s : State) : Out :=
  .next <| s.spaced true true fun s =>
    let fd := s.wv.descriptor slot.toNat
    if !typedOk fd then s.illegal 0
    else
      let t := s.wv.typed fd
      let acc := (s.active k).map fun l => let ea := eaOf (s.vreg a l) o; (l, ea, s.reachOf none l ea)
      s.checked acc fun rs =>
        s.access (rs.map (·.2.2.2)) ((rs.filter (·.2.2.1)).map (·.1)) fun s =>
          let ins := rs.map fun (l, ea, own, flat) =>
            (l, (List.range t.n).map fun i => elem (s.loadRow l own flat) t.ws (t.first ea + i))
          let gens := s.core.weave s.core.cur
          s.typedConv t (fdSF fd) (fdLF fd) (fdSAT fd) ins fun outs s =>
            let conv (l ea : Nat) : LoadConv :=
              ⟨fdSF fd, fdLF fd, t.ws, t.wl, t.n, t.first ea, t.mode, fdSAT fd, s.wv.ftz, gens.gen l⟩
            (s.deliver .v d 14 (outs.map (·.1)) (outs.map fun (l, es) => (l, packElems t.wl es))).noteReads s.core.nextId
              ((rs.filter (·.2.2.1)).map fun (l, ea, _, a) => (l, a, some (conv l ea))) |>.modC fun c =>
              rs.foldl (fun c (l, _, _, x) => c.loadsRows c.cur [x] (c.now + l / 16 + 14)) c
/-- `stf` (R198, R199). -/
def execStf (slot : BitVec 3) (d a : Reg) (o : BitVec 5) (k : KReg) (s : State) : Out :=
  .next <| s.spaced true true fun s =>
    let fd := s.wv.descriptor slot.toNat
    if !typedOk fd then s.illegal 0
    else
      let t := s.wv.typed fd
      let acc := (s.active k).map fun l => let ea := eaOf (s.vreg a l) o; (l, ea, s.reachOf none l ea)
      s.checked acc fun rs =>
        s.access [] ((rs.filter (·.2.2.1)).map (·.1)) fun s =>
          let ins := rs.map fun (l, _, _, _) => (l, (List.range t.n).map fun i => elem (s.vreg d l) t.wl i)
          s.typedConv t (fdLF fd) (fdSF fd) (fdSAT fd) ins fun outs s =>
            s.storeRows (rs.filterMap fun (l, ea, own, flat) =>
              (outs.find? fun p => p.1 == l).map fun p =>
                let sh := t.ws * t.first ea
                (l, own, flat, packElems t.ws p.2 <<< sh, word ((2 ^ (t.n * t.ws) - 1) * 2 ^ sh)))

/-! ## Rotate-merge, window conversion (R200, R201) -/

/-- Bits 63 to 0 of hi : lo shifted right by sh bytes (R200). -/
def rotMerge (hi lo : Word) (sh : Nat) : Word := word ((hi.toNat * 2 ^ 64 + lo.toNat) / 2 ^ (8 * sh))
/-- `rmg` (R200). -/
def execRmg (d a : Reg) (n : BitVec 3) (k : KReg) (s : State) : Out :=
  .next (s.putV d 1 (s.active k) fun l => rotMerge (s.vreg a l) (s.vreg d l) n.toNat)
/-- `rmgv` (R200). -/
def execRmgv (d a b : Reg) (k : KReg) (s : State) : Out :=
  .next (s.putV d 1 (s.active k) fun l => rotMerge (s.vreg a l) (s.vreg d l) ((s.vreg b l).toNat % 8))
/-- Membership of a value in a named window, tested alone (R201). -/
def State.inWindow (s : State) (x : Win) (v : Word) : Bool :=
  let b := s.wv.winBase x
  (x != .pair || s.rd.pairHeld s.core.cur) && b ≤ v.toNat && v.toNat < b + winSize x
/-- `cvta` (R201). -/
def execCvta (x : Win) (d a : Reg) (k : KReg) (s : State) : Out :=
  .next (s.putV d 1 (s.active k) fun l => word (s.wv.winBase x) + s.vreg a l)
/-- `cvtw` (R201). -/
def execCvtw (x : Win) (d a : Reg) (k : KReg) (s : State) : Out :=
  .next (s.putV d 1 (s.active k) fun l =>
    if s.inWindow x (s.vreg a l) then s.vreg a l - word (s.wv.winBase x) else allOnes)
/-- `isw` (R201). -/
def execIsw (x : Win) (kd : KReg) (a : Reg) (k : KReg) (s : State) : Out :=
  .next (s.putK kd 1 (s.active k) fun l => s.inWindow x (s.vreg a l))

/-! ## Sector atomics (R202, R203) -/

/-- x + y of each FP32 element under RNE, subnormals honoured, no flag (R202, R208). -/
def faddS (x y : Word) : Word :=
  mapElems2 32 (fun p q => (roundTo fp32 rne (addFp 0 (decodeFp fp32 p) (decodeFp fp32 q)).1).1) x y
def atmCode : AtmOp → Nat
  | .add => 0 | .and => 1 | .or => 2 | .xor => 3 | .min => 4 | .max => 5 | .swp => 6 | .fadds => 7
/-- The new row value (R202): codes 0 to 7 of `atm`, 8 for `atmc`, 9 for `atmz`. -/
def atomicNew (op : Nat) (x y z : Word) : Word :=
  match op with
  | 0 => x + y
  | 1 => x &&& y
  | 2 => x ||| y
  | 3 => x ^^^ y
  | 4 => if x.toInt ≤ y.toInt then x else y
  | 5 => if x.toInt ≤ y.toInt then y else x
  | 6 => y
  | 7 => faddS x y
  | 8 => if x = z then y else x
  | _ => 0

/-- A bundle's atomics: checks, conditions, then one application for each lane (R202, R203). -/
def State.atomic (s : State) (op : Nat) (d a : Reg) (y z : Nat → Word) (k : KReg) : State :=
  s.spaced true false fun s =>
    let acc := (s.active k).map fun l => let ea := (s.vreg a l).toNat; (l, ea, s.reachOf (some .sec) l ea)
    s.checked acc fun rs =>
      s.access (rs.map (·.2.2.2)) [] fun s =>
        if rs.isEmpty then s
        else
          let lanes := rs.map (·.1)
          let s := (s.deliver .v d 8 lanes []).setAtom
          s.modC fun c =>
            let rid := c.nextId - 1
            let (id, c) := c.fresh
            let ops := rs.map fun (l, _, _, flat) => (⟨l, flat, op, y l, z l⟩ : Atomic)
            let c := c.modW c.cur fun x => { x with atomics := x.atomics ++ [⟨id, c.now, some rid, ops⟩] }
            let c := rs.foldl (fun c (l, _, _, flat) => c.readRows c.cur [flat] (c.now + l / 16 + 8)) c
            (cellsOf lanes).foldl (fun c cell =>
              c.sched (c.now + cell + 2) bAtomic (c.cur * 8 + cell) (.laneAtomicApply c.cur id cell)) c
/-- `atm` (R202). -/
def execAtm (op : AtmOp) (d a b : Reg) (k : KReg) (s : State) : Out :=
  .next (s.atomic (atmCode op) d a (s.vreg b) (fun _ => 0) k)
/-- `atmc` (R202). -/
def execAtmc (d a b : Reg) (k : KReg) (s : State) : Out := .next (s.atomic 8 d a (s.vreg b) (s.vreg d) k)
/-- `atmz` (R202). -/
def execAtmz (d a : Reg) (k : KReg) (s : State) : Out := .next (s.atomic 9 d a (fun _ => 0) (fun _ => 0) k)

/-! ## Values that come after their result is in flight (R193, R203, R319; log 13) -/

/-- A lane of a result: not written, written with a value still to come, or with a value. -/
abbrev LaneVal := Option (Option Word)
def Result.laneVal (r : Result) (lane : Nat) : LaneVal :=
  if r.lanes.contains lane then some (mget? r.data lane) else none
def putData (m : Map Word) (lane : Nat) : LaneVal → Map Word
  | some (some x) => mset m lane x
  | _ => mdel m lane
def Result.putLane (r : Result) (lane : Nat) (x : LaneVal) : Result :=
  { r with
    lanes := if x.isSome then insertNat r.lanes lane else r.lanes.filter (· != lane)
    data := putData r.data lane x }
/-- The WR bit of a lane in the words of a latch descriptor (R318). -/
def putWr (ws : List Word) (lane : Nat) (b : Bool) : List Word :=
  lmod ws (1 + lane / 64) fun x => setBits x (lane % 64) (lane % 64) (bnat b)
/-- A lane of a result of a weave becomes x wherever the result is: in flight, in the latches captured from it, in the frame
(R319). -/
def Core.putLane (c : Core) (w rid lane : Nat) (x : LaneVal) : Core :=
  let wv := c.weave w
  let c := match wv.flight.find? fun r => r.id == rid && x.isSome && !r.lanes.contains lane with
    | some r => c.sched (r.lands (lane / 16)) bLand rid (.resultLanding w rid (lane / 16))
    | none => c
  let c := c.modW w fun wv => { wv with
    flight := wv.flight.map fun r => if r.id = rid then r.putLane lane x else r
    ckpt := wv.ckpt.map fun k => { k with latches := k.latches.map fun l =>
      if l.rid = rid then { l with data := putData l.data lane x } else l }
    dbg := { wv.dbg with latches := wv.dbg.latches.map fun l =>
      if l.rid = rid then { l with words := putWr l.words lane x.isSome, data := putData l.data lane x } else l } }
  match wv.framed.find? fun p => p.1 == rid with
  | none => c
  | some (_, frame, i) =>
    let at_ := frame + 256 + 32 * i + 8 * (1 + lane / 64)
    let c := if bitAt (c.row at_).toNat (lane % 64) == x.isSome then c
      else c.frameRow w at_ (setBits (c.row at_) (lane % 64) (lane % 64) (bnat x.isSome))
    match x with
    | some (some d) => c.frameRow w (frame + 1024 + 1024 * i + 8 * lane) d
    | _ => c
/-- Note a lane of a result whose value becomes another than bundles may have read already, and the bundle that gave it where its
own flags and draws depend on a row: they are played again. -/
def Core.noteFix (c : Core) (w rid lane : Nat) (x : Word) (row : Option (Nat × Word × Word)) : Core :=
  let wv := c.weave w
  let before : Option Word := match wv.flight.find? fun r => r.id == rid with
    | some r => mget? r.data lane
    | none => (wv.framed.find? fun p => p.1 == rid).map fun (_, frame, i) => c.row (frame + 1024 + 1024 * i + 8 * lane)
  if before.any (· != x) || row.isSome then
    { c with fixes := mset c.fixes w (mget c.fixes w [] ++ [(⟨rid, lane, x, row⟩ : Fix)]) }.sched c.now bLand w (.replay w)
  else c
/-- A weave, and its redundant partner, which has its leader's results of shared forms (R385). -/
def Core.withPartner (c : Core) (w : Nat) : List Nat := if c.hasPartner w then [w, w + 1] else [w]
/-- The old value of an atomic, or what a cell's late read of a row gives, goes to its result. -/
def Core.produce (c : Core) (w rid lane : Nat) (x : Word) (row : Option (Nat × Word × Word)) : Core :=
  (c.withPartner w).foldl (fun c v => (c.noteFix v rid lane x row).putLane v rid lane (some (some x))) c

/-- What a read of a row gives its lane. -/
def LoadRead.value (r : LoadRead) (x : Word) : Word :=
  match r.conv with
  | none => x
  | some v => packElems v.wl (cvtElems (fun y g => cvtElem v.src v.dst v.mode v.sat v.ftz g y)
      ((List.range v.n).map fun i => elem x v.ws (v.first + i)) v.gen).1
/-- Cells that read a row in this cycle or later, for bundles that have issued, get what stands in it now, under the stores
of earlier bundles that their cell has still to execute (R15, R193, R203; log 13). -/
def Core.lateLoads (c : Core) (flat : Nat) : Core :=
  c.weaves.foldl (fun c (w, x) => (x.reads.filter fun r => r.flat == flat && c.now ≤ r.issue + r.lane / 16).foldl (fun c r =>
    let row := (x.skews.filter fun k => r.skews.contains k.id).foldl (fun y k => k.stores.foldl (fun y s =>
      if s.lane = r.lane ∧ s.addr = flat then mergeBits y s.val s.mask else y) y) (c.row flat)
    if row = r.val then c
    else
      let c := c.modW w fun y => { y with reads := y.reads.map fun q => if q = r then { q with val := row } else q }
      c.produce w r.id r.lane (r.value row) (r.conv.map fun _ => (flat, r.val, row))) c) c

/-- One atomic applies: its old value is read, the row changes at sector scope (R202, R301, R305). -/
def Core.applyAtomic (c : Core) (w : Nat) (rid : Option Nat) (o : Atomic) : Core :=
  let x := c.row o.addr
  let c := c.writeShared o.addr (atomicNew o.op x o.y o.z) allOnes 1 (secOf w) (w + 1) none
  match rid with
  | some r => c.produce w r o.lane x none
  | none => c
/-- The atomics of one bundle in one cell, in ascending lane ID (R203). -/
def Core.applyAtomics (c : Core) (w id cell : Nat) : Core :=
  match (c.weave w).atomics.find? fun k => k.id == id with
  | none => c
  | some k =>
    let here := k.ops.filter fun o => o.lane / 16 == cell
    let rest := k.ops.filter fun o => o.lane / 16 != cell
    let c := here.foldl (fun c o => c.applyAtomic w k.result o) c
    c.modW w fun x => { x with
      atomics :=
        if rest.isEmpty then x.atomics.filter (fun y => y.id != id)
        else x.atomics.map (fun y => if y.id = id then { y with ops := rest } else y) }
/-- LANE_ATOMIC_APPLY (R203). -/
def execLaneAtomicApply (w id cell : Nat) (s : State) : Out := .next (s.modC fun c => c.applyAtomics w id cell)

/-- The atomics that have not applied, as (cycle, weave, operation). -/
def Core.pendingAtomics (c : Core) : List (Nat × Nat × Atomic) :=
  c.weaves.flatMap fun (w, x) => x.atomics.flatMap fun k => k.ops.map fun o => (k.issue + o.lane / 16 + 2, w, o)
def atomicBefore (p q : Nat × Nat × Atomic) : Bool :=
  p.1 < q.1 || (p.1 == q.1 && (p.2.1 < q.2.1 || (p.2.1 == q.2.1 && p.2.2.lane < q.2.2.lane)))
/-- Insertion of atomics in the order of R203. -/
def insertAtomic (p : Nat × Nat × Atomic) : List (Nat × Nat × Atomic) → List (Nat × Nat × Atomic)
  | [] => [p]
  | q :: qs => if atomicBefore p q then p :: q :: qs else q :: insertAtomic p qs
/-- The old value that an atomic still to apply will read, when nothing but the atomics already issued changes its row
before then; another change of the row is corrected when the atomic applies (log 13). -/
def Core.oldValue (c : Core) (p : Nat × Nat × Atomic) : Word :=
  let same := (c.pendingAtomics.filter fun q => q.2.2.addr == p.2.2.addr && atomicBefore q p).foldl (fun l q => insertAtomic q l) []
  same.foldl (fun x q => atomicNew q.2.2.op x q.2.2.y q.2.2.z) (c.row p.2.2.addr)
/-- Before a bundle issues: old values that land by the bundle's time in a cell but whose atomics have not applied yet,
as happens in cell 7 at issue + 8 (R193, R203). -/
def Core.resolveAtomics (c : Core) (w : Nat) : Core :=
  (c.weave w).atomics.foldl (fun c k =>
    match k.result, (c.weave w).flight.find? fun r => some r.id == k.result with
    | some rid, some r =>
      if r.land ≤ c.now then
        k.ops.foldl (fun c o => c.produce w rid o.lane (c.oldValue (k.issue + o.lane / 16 + 2, w, o)) none) c
      else c
    | _, _ => c) c

end Sys2Proof.Machine
end

