-- ==== Sys2Proof/Machine/Global.lean ====
section
/-! DEFINITION. Global memory: access tables (R457), page walks and handle translations (R296 to R299), peer regions
(R450 to R454), Damask pages (R363 to R369), reads and writes of delivered bytes. -/
namespace Sys2Proof.Machine

/-! ## Access tables (R456, R457) -/

/-- One range of a master's table. -/
def Core.range (c : Core) (mid i : Nat) : Nat × Nat :=
  ((mget c.host.access (16 * mid + 2 * i) 0).toNat, (mget c.host.access (16 * mid + 2 * i + 1) 0).toNat)
def rangeLo (r : Nat × Nat) : Nat := bits r.1 38 16 * 65536
def rangeHi (r : Nat × Nat) : Nat := (bits r.2 38 16 + 1) * 65536
/-- Alapavor's ranges that overlap a context's count as invalid (R457). -/
def Core.rangeValid (c : Core) (mid i : Nat) : Bool :=
  let r := c.range mid i
  bitAt r.1 63 && (mid != 0x42 || !((List.range 64).any fun m => (List.range 8).any fun j =>
    let q := c.range m j
    bitAt q.1 63 && rangeLo q < rangeHi r && rangeLo r < rangeHi q))
/-- Every byte of an HBM access lies in one valid range that admits its direction (R457). -/
def Core.admits (c : Core) (mid a n : Nat) (write : Bool) : Bool :=
  (List.range 8).any fun i =>
    let r := c.range mid i
    c.rangeValid mid i && bitAt r.1 (if write then 62 else 61) && rangeLo r ≤ a && a + n ≤ rangeHi r
/-- The host link admits the context's outbound requests: bit H of its first range (R456, R457). -/
def Core.hostAdmits (c : Core) (ctx : Nat) : Bool := bitAt (c.range ctx 0).1 60

/-! ## Damask entries (R363, R364) -/

def dmSF (e : BitVec 32) : Nat := bits e.toNat 30 26
def dmDF (e : BitVec 32) : Nat := bits e.toNat 25 21
def dmMode (e : BitVec 32) : Nat := bits e.toNat 20 19
def dmSat (e : BitVec 32) : Bool := bitAt e.toNat 18
/-- POISON = ZERO. -/
def dmZero (e : BitVec 32) : Bool := bitAt e.toNat 17
def dmConverts (e : BitVec 32) : Bool := dmSF e != dmDF e
def pageMiB2 : Nat := 2 ^ 21
/-- Delivered units, elements and stored footprint of a converting entry (R365). -/
def dmUnits (e : BitVec 32) : Nat := pageMiB2 / unitBytes (dmDF e)
def dmCount (e : BitVec 32) : Nat := unitElems (dmDF e) * dmUnits e
def dmFootprint (e : BitVec 32) : Nat := ceilDiv (dmCount e) (unitElems (dmSF e)) * unitBytes (dmSF e)
/-- The leaf's attribute entry lets a walk succeed (R364, R365). -/
def dmOk (e : BitVec 32) (pageSize tgt : Nat) : Bool :=
  bitAt e.toNat 31 && bits e.toNat 16 0 == 0 && dmDF e ≤ 0x0C && codeOk (dmSF e) &&
  (!dmConverts e || (pageSize == pageMiB2 && tgt == 0 && dmFootprint e ≤ pageMiB2))
def Core.attr (c : Core) (ctx i : Nat) : BitVec 32 := (c.ctx ctx).damask.getD i 0

/-! ## Decoding of HBM requests (R379, R380) -/

/-- The unit of a request's stack (R394). -/
def hbmUnit (r : Nat) : UnitName := ⟨7, 0xFF, hbmStack r⟩
/-- A request with errors is read: what the code corrects is written back and logged, what it detects poisons the request and is
logged, what it misses is what the reader gets (R379). A poisoned request is not decoded (R380). -/
def Core.decodeRequest (c : Core) (tag flags r va : Nat) : Core :=
  if c.hbmPoison.contains r || (mget? c.hbmFlips r).isNone then c
  else
    let u := hbmUnit r
    let log (c : Core) (kind : Nat) : Core := c.logEntry (unitCode u) kind flags tag (word r) (word va)
    match rsDecode (c.received r) with
    | .clean => c.settleRequest r (0, 0)
    | .fix pos val => log ((c.settleRequest r (pos, val)).noteCorrected u false) 9
    | .bad => log (((c.settleRequest r (0, 0)).noteUncorrectable u false).poisonRequest r) 10
/-- A context's read of HBM bytes decodes the requests that they lie in. -/
def Core.decodeBytes (c : Core) (tag a n va : Nat) : Core := (requestsOf a n).foldl (fun c r => c.decodeRequest tag 0 r va) c

/-! ## Page walks (R296 to R298) -/

/-- Level, first index bit, index width, leaf page size (R296). -/
def walkLevelTable : List (Nat × Nat × Nat × Option Nat) :=
  [(0, 43, 13, none), (1, 30, 13, some (2 ^ 30)), (2, 21, 9, some (2 ^ 21)), (3, 16, 5, some (2 ^ 16))]
/-- A walk's outcome, with the machine after it. -/
inductive WalkOut where
  | page (p : PageTr) (c : Core)
  | fail (f : WalkFail) (c : Core)
/-- The walk of one page for an access that needs the given permissions; each level is an entry of the list (R297). The entry's
request is decoded as it is read; one that is uncorrectable fails the walk as a malformed entry does (R379; log 51). The leaf gets
A, and D for a write permission, in one compare-and-swap, a write that the walker's ranges must admit (R298, R457). -/
def Core.walk (c : Core) (ctx va : Nat) (r w : Bool) (table : Nat) : List (Nat × Nat × Nat × Option Nat) → WalkOut
  | [] => .fail ⟨3, 2, word va⟩ c
  | (lvl, lo, n, size) :: rest =>
    let at_ := table + 8 * (va / 2 ^ lo % 2 ^ n)
    if !c.admits ctx at_ 8 false then .fail ⟨lvl, 2, word va⟩ c
    else
      let c := c.decodeBytes (c.tagOf ctx) at_ 8 va
      let bad (reason : Nat) : WalkOut := .fail ⟨lvl, reason, word va⟩ c
      let e := c.readN at_ 8
      if !(c.poisonOf at_ 8).isEmpty then bad 2
      else if !bitAt e 0 then bad 1
      else if bits e 15 12 ≠ 0 then bad 2
      else if bitAt e 1 then
        match size with
        | none => bad 2
        | some sz =>
          let oa := bits e 63 16 * 65536
          let tgt := bits e 11 10
          let attr := bits e 9 6
          if tgt = 3 ∨ oa % sz ≠ 0 ∨ !dmOk (c.attr ctx attr) sz tgt then bad 2
          else if (r && !bitAt e 2) || (w && !bitAt e 3) then bad 3
          else
            let e' := e ||| 16 ||| (if w then 32 else 0)
            if e' ≠ e ∧ !c.admits ctx at_ 8 true then bad 2
            else
            let c := if e' = e then c else c.writeShared at_ (word e') allOnes 4 0 0 none
            .page ⟨va / sz * sz, sz, tgt, oa, attr, bitAt e 2, bitAt e 3, bitAt e' 5⟩ c
      else if rest.isEmpty || bits e 11 2 ≠ 0 then bad 2
      else c.walk ctx va r w (bits e 63 16 * 65536) rest
/-- The context's level-0 table (R401). -/
def Core.rootOf (c : Core) (ctx : Nat) : Nat := ((c.ctx ctx).words.getD 1 0).toNat
def Core.walkPage (c : Core) (ctx va : Nat) (r w : Bool) : WalkOut := c.walk ctx va r w (c.rootOf ctx) walkLevelTable
/-- Walks of every page from an address to a limit, in ascending order, with the machine after them: where one fails, the leaves
before it keep the A and D bits that they got (R298). -/
def Core.walkRange (c : Core) (ctx : Nat) (r w : Bool) (limit : Nat) : Nat → Nat → List PageTr → Except WalkFail (List PageTr) × Core
  | 0, _, acc => (.ok acc, c)
  | n + 1, va, acc =>
    if limit ≤ va then (.ok acc, c)
    else match c.walkPage ctx va r w with
      | .fail f c => (.error f, c)
      | .page p c => c.walkRange ctx r w limit n (p.va + p.size) (acc ++ [p])
/-- The walk of a range (R137): reason 4 for a range that no walk can reach. -/
def Core.walkHandle (c : Core) (ctx : Nat) (base len : Word) (r w : Bool) : Except WalkFail (List PageTr) × Core :=
  if len = 0 ∨ 2 ^ 56 ≤ base.toNat ∨ 2 ^ 56 ≤ (base + len - 1).toNat then (.error ⟨0, 4, base⟩, c)
  else c.walkRange ctx r w (base.toNat + len.toNat) (len.toNat / 65536 + 2) base.toNat []

/-- A place in global memory: target, address in its space, attribute entry (R304); `page` is the page's address in that space, from
which its units count. -/
structure GLoc where
  tgt : Nat
  addr : Nat
  attr : Nat
  page : Nat
  deriving DecidableEq, Repr
def PageTr.loc (p : PageTr) (va : Nat) : GLoc := ⟨p.tgt, p.oa + (va - p.va), p.attr, p.oa⟩
/-- The place of a virtual address among a handle's cached pages. -/
def findPage (ps : List PageTr) (va : Nat) : Option PageTr := ps.find? fun p => p.va ≤ va && va < p.va + p.size
/-- A cached translation serves an access: with its permissions, for a write with its D value set (R297, R298). -/
def PageTr.permits (p : PageTr) (r w : Bool) : Bool := (!r || p.r) && (!w || (p.w && p.d))
/-- The cached pages with those of a range that no cached page serves walked for the access (R299). -/
def Core.coverRange (c : Core) (ctx : Nat) (r w : Bool) (limit : Nat) : Nat → Nat → List PageTr → Except WalkFail (List PageTr) × Core
  | 0, _, ps => (.ok ps, c)
  | n + 1, va, ps =>
    if limit ≤ va then (.ok ps, c)
    else match findPage (ps.filter (·.permits r w)) va with
      | some p => c.coverRange ctx r w limit n (p.va + p.size) ps
      | none => match c.walkPage ctx va r w with
        | .fail f c => (.error f, c)
        | .page p c => c.coverRange ctx r w limit n (p.va + p.size) ((ps.filter fun q => q.va != p.va) ++ [p])
/-- A handle with its translations for an access to a range: those that are not cached are walked, for the permissions of the
handle's probe (R298, R299). The machine after it holds them, and the A and D bits also of a walk that fails. -/
def Core.useHandle (c : Core) (w n va len : Nat) : Except WalkFail Handle × Core :=
  let h := (c.weave w).handles.getD n Handle.reset
  if 2 ^ 56 < va + len then (.error ⟨0, 4, word va⟩, c)
  else match c.coverRange (c.ctxOf w) h.r h.w (va + len) (len / 65536 + 2) va h.pages with
    | (.error f, c) => (.error f, c)
    | (.ok ps, c) =>
      let h := { h with pages := ps }
      (.ok h, c.modW w fun x => { x with handles := lmod x.handles n fun _ => h })
/-- The place of a virtual address for a command-processor or graph access of a context. -/
def Core.place (c : Core) (ctx va : Nat) (write : Bool) : Option GLoc × Core :=
  match c.walkPage ctx va (!write) write with
  | .page p c => (some (p.loc va), c)
  | .fail _ c => (none, c)

/-! ## Damask conversions (R365 to R369) -/

/-- The bytes of stored unit i of a page at physical address oa. -/
def storedUnit (get : Nat → Nat) (e : BitVec 32) (oa i : Nat) : List Nat :=
  (List.range (unitBytes (dmSF e))).map fun j => get (oa + i * unitBytes (dmSF e) + j)
/-- Raw element codes of a stored unit. -/
def unitCodes (c : Nat) (bs : List Nat) : List Nat := (List.range (unitElems c)).map fun j => strElem bs (codeBits c) j
/-- A delivered unit (R366): its bytes, and whether a read of it finds a NaN scale (R368). -/
def deliveredUnit (get : Nat → Nat) (e : BitVec 32) (oa u : Nat) : List Nat × Bool :=
  let sf := dmSF e
  let nd := unitElems (dmDF e)
  let ns := unitElems sf
  let es := (List.range nd).map fun i => u * nd + i
  let first := u * nd / ns
  let units := (List.range ((u * nd + nd - 1) / ns - first + 1)).map fun i => storedUnit get e oa (first + i)
  let at_ (el : Nat) : List Nat := units.getD (el / ns - first) []
  let nan := units.any (unitNanScale sf)
  let scales := (List.range 4).map fun b => mxScale sf (units.headD []) (u * nd % ns / 32 + b)
  if dmDF e = 0x0A ∧ isMx sf ∧ mxToDx8Applies sf 0x0A scales then
    (mxToDx8 sf (((unitCodes sf (units.headD [])).drop (u * nd % ns)).take 128) scales, nan)
  else
    let value (el : Nat) : Fp :=
      let x := unitValue sf (at_ el) (el % ns)
      -- an infinity of an MX element, which DX has none of, is the largest finite value (R61, R75)
      if isMx sf && isDx (dmDF e) && x.isInf then dxLargest (dmDF e) x.neg? else x
    ((unitEncode (dmDF e) (dmMode e) (dmSat e) (es.map value)).1, nan)
/-- Delivered bytes of a converting page from offset d (R365, R366), and the offset of the first of them whose unit finds a NaN
scale (R364, R368). -/
def deliveredBytes (get : Nat → Nat) (e : BitVec 32) (oa d n : Nat) : List Nat × Option Nat :=
  let ud := unitBytes (dmDF e)
  let first := d / ud
  let us := (List.range ((d + n - 1) / ud - first + 1)).map fun i =>
    if first + i < dmUnits e then deliveredUnit get e oa (first + i) else (List.replicate ud 0, false)
  (((us.flatMap (·.1)).drop (d % ud)).take n,
    (us.zipIdx.find? fun p => p.1.2).map fun p => max d ((first + p.2) * ud))
/-- The elements of a delivered unit that a written byte at offset b touches (R367 step 1). -/
def touchedBy (df b : Nat) : List Nat :=
  let w := codeBits df
  if isDx df then
    if b < 16 * w then (List.range 128).filter fun j => w * j / 8 ≤ b && b ≤ (w * j + w - 1) / 8
    else if b < 16 * w + 4 then (List.range 32).map (· + 32 * (b - 16 * w))
    else if b = 16 * w + 4 then List.range 128
    else []
  else List.range (unitElems df)
/-- A delivered unit's bytes with written bytes over them: `bytes` lie from delivered offset d. -/
def mergeUnit (img : List Nat) (ud u d : Nat) (bytes : List Nat) : List Nat :=
  (img.zip (List.range ud)).map fun (x, i) =>
    let p := u * ud + i
    if d ≤ p ∧ p < d + bytes.length then bytes.getD (p - d) 0 else x
/-- Stored units after a write of delivered bytes (R367): (unit, its new bytes), and the delivered offset of the first element whose
NaN or infinity sets the conversion flag (R364, R368). -/
def restored (get : Nat → Nat) (e : BitVec 32) (oa d : Nat) (bytes : List Nat) : List (Nat × List Nat) × Option Nat :=
  let sf := dmSF e
  let df := dmDF e
  let ud := unitBytes df
  let nd := unitElems df
  let ns := unitElems sf
  let us := ((List.range ((d + bytes.length - 1) / ud - d / ud + 1)).map (· + d / ud)).filter (· < dmUnits e)
  let touched := us.flatMap fun u =>
    ((List.range ud).filter fun b => d ≤ u * ud + b && u * ud + b < d + bytes.length).flatMap fun b =>
      (touchedBy df b).map fun j => u * nd + j
  let su := touched.foldl (fun l el => insertNat l (el / ns)) []
  let image (u : Nat) : List Nat := mergeUnit (deliveredUnit get e oa u).1 ud u d bytes
  let outs := su.map fun i =>
    let old := storedUnit get e oa i
    let first := i * ns / nd
    let imgs := (List.range ((i * ns + ns - 1) / nd - first + 1)).map fun j => image (first + j)
    let xs := (List.range ns).map fun j =>
      let el := i * ns + j
      if el < dmCount e then unitValue df (imgs.getD (el / nd - first) []) (el % nd) else unitValue sf old j
    let (bs, fl) := unitEncode sf (dmMode e) (dmSat e) xs
    (i, bs, if fl then (xs.findIdx? fun (x : Fp) => x.isInf || ((isMx sf || isDx sf) && x.isNan)).map (i * ns + ·) else none)
  (outs.map fun o => (o.1, o.2.1), (outs.findSome? fun o => o.2.2).map fun el => el / nd * ud + codeBits df * (el % nd) / 8)

/-- The HBM bytes that a read of delivered bytes touches; none for the delivered bytes past the last unit (R365). -/
def Core.footprint (e : BitVec 32) (l : GLoc) (n : Nat) : Nat × Nat :=
  if dmConverts e then
    let d := l.addr - l.page
    let nd := unitElems (dmDF e)
    let ns := unitElems (dmSF e)
    let u := d / unitBytes (dmDF e)
    if n = 0 ∨ dmUnits e ≤ u then (l.page, 0)
    else
      let first := u * nd / ns
      let last := (min ((d + n - 1) / unitBytes (dmDF e)) (dmUnits e - 1) * nd + nd - 1) / ns
      (l.page + first * unitBytes (dmSF e), (last - first + 1) * unitBytes (dmSF e))
  else (l.addr, n)
/-- The stored units that a read of delivered bytes uses, whole, as HBM bytes: poison of any of their bytes is theirs (R369). -/
def Core.usedSpan (e : BitVec 32) (l : GLoc) (n : Nat) : Nat × Nat :=
  let (lo, len) := Core.footprint e l n
  let us := unitBytes (dmSF e)
  let first := (lo - l.page) / us * us
  if len = 0 then (lo, 0) else (l.page + first, ceilDiv (lo + len - l.page) us * us - first)
/-- The stored byte that holds the first element at or after a delivered byte of a converting page, none past the last unit: after
the elements of a DX unit come its scales, then the next unit (R365, R432). -/
def storedByte (e : BitVec 32) (d : Nat) : Option Nat :=
  let ud := unitBytes (dmDF e)
  let nd := unitElems (dmDF e)
  let el := if isDx (dmDF e) && decide (16 * codeBits (dmDF e) ≤ d % ud) then (d / ud + 1) * nd
    else d / ud * nd + (touchedBy (dmDF e) (d % ud)).headD 0
  if dmCount e ≤ el then none
  else some (el / unitElems (dmSF e) * unitBytes (dmSF e) + codeBits (dmSF e) * (el % unitElems (dmSF e)) / 8)
/-- The stored HBM request that a weave's armed TGT 8 injection fails, and the delivered request that it names, translated
through its handle (R398, R399, R432). -/
def Core.injectRequest (c : Core) (ctx : Nat) (wv : Weave) : Option (Nat × Nat) :=
  let e := wv.errinj.toNat
  let h := wv.handles.getD (bits e 27 24) Handle.reset
  let va := h.base.toNat + 64 * bits e 23 0
  if bits e 59 56 = 8 ∧ h.valid then
    match findPage h.pages va with
    | some p =>
      let a := (p.loc va).addr
      let e := c.attr ctx p.attr
      let x := if dmConverts e then (storedByte e (a - p.oa)).map (p.oa + ·) else some a
      if p.tgt = 0 then x.map fun x => (x / 64 * 64, va) else none
    | none => none
  else none
/-- A read of HBM requests decodes them (R379) and fires an armed injection: one failing symbol is corrected and logged, two
poison the request (R399). -/
def Core.fireHbm (c : Core) (ctx va : Nat) (reqs : List Nat) : Core :=
  let c := reqs.foldl (fun c r => c.decodeRequest (c.tagOf ctx) 0 r va) c
  c.weaves.foldl (fun c (w, x) =>
    match if x.injecting then c.injectRequest (c.ctxOf w) x else none with
    | some (r, va) =>
      if reqs.contains r then
        let c := c.disarm w
        let unit := 7 * 2 ^ 28 + 0xFF * 2 ^ 20 + hbmStack r
        if bits x.errinj.toNat 55 54 = 0 then c.logEntry unit 9 2 (c.tagOf (c.ctxOf w)) (word r) (word va)
        else
          let c := c.logEntry unit 10 2 (c.tagOf (c.ctxOf w)) (word r) (word va)
          if c.hbmPoison.contains r then c else let c := c.poisonRequest r; { c with hbmInjected := insertNat c.hbmInjected r }
      else c
    | none => c) c

/-! ## Peer regions (R450 to R454) -/

/-- A peer address: bits [63:56] are 0 (R450). -/
def peerOk (a : Nat) : Bool := a < 2 ^ 56
/-- The peer address names this module (R450). -/
def Core.ownModule (c : Core) (a : Nat) : Bool := bits a 55 44 == 0xFFF || bits a 55 44 == c.host.modid
/-- Flat address of a place: HBM and host memory by address, a peer address of this module by what it names. -/
def Core.flatOf (c : Core) (l : GLoc) : Nat :=
  match l.tgt with
  | 0 => l.addr
  | 1 => hostBase + l.addr
  | _ =>
    if c.ownModule l.addr && bits l.addr 43 40 == 0 then l.addr % 2 ^ 39
    else if c.ownModule l.addr && bits l.addr 43 40 == 1 then storeFlat (bits l.addr 29 22) (l.addr % 2 ^ 22)
    else peerBase + l.addr

/-- The elements of a row combined under a reduce operation (R453). -/
def reduceRow (op : Nat) (x y : Word) : Option Word :=
  let fl (f : FSpec) (k : Nat) : Word := mapElems2 f.w (fun p q =>
    let a := decodeFp f p
    let b := decodeFp f q
    if k = 0 then (roundTo f rne (addFp 0 a b).1).1 else (roundTo f rne (minMaxFp (k == 2) a b).1).1) x y
  let int (w k : Nat) : Word := mapElems2 w (if k = 0 then iAdd w else if k = 1 then iMin w else iMax w) x y
  if op < 3 then some (fl fp32 op)
  else if op < 6 then some (fl bf16 (op - 3))
  else if op < 9 then some (int 32 (op - 6))
  else if op < 12 then some (int 64 (op - 9))
  else none

/-- The context owns the sector (R402, R455). -/
def Core.owns (c : Core) (ctx sec : Nat) : Bool := sec < Config.sectorCount && (c.sector sec).owner == some ctx
/-- Fields of a peer address that must be 0 (R450). -/
def regionOk (a : Nat) : Bool :=
  match bits a 43 40 with
  | 0 => !bitAt a 39
  | 1 | 4 => bits a 39 30 == 0
  | 2 => bits a 39 30 == 0 && bits a 21 11 == 0 && bits a 2 0 == 0
  | 3 => bits a 35 30 == 0
  | _ => false
/-- Writes, reduce-writes and signals at the receive side, as the local context ctx (R452, R453, R460). False where
the packet is denied. -/
def Core.regionWrite (c : Core) (ctx a : Nat) (kind op : Nat) (ws : List Word) (own : Bool) : Core × Bool :=
  let sec := bits a 29 22
  let off := a % 2 ^ 22
  let n := 8 * ws.length
  let rows (base : Nat) (scope unit : Nat) : Core :=
    (ws.zip (List.range ws.length)).foldl (fun c (x, i) => c.writeShared (rowAddr base + 8 * i) x allOnes scope unit 0 none) c
  if !regionOk a then (c, false)
  else match bits a 43 40 with
    | 0 => if kind = 1 ∧ a % 2 ^ 39 + n ≤ hbmBytes ∧ c.admits ctx (a % 2 ^ 39) n true then
        ((rows (a % 2 ^ 39) 4 0).clearPoison (a % 2 ^ 39) n, true) else (c, false)
    | 1 => if kind = 1 ∧ c.owns ctx sec ∧ off + n ≤ 2 ^ 22 then (rows (storeFlat sec off) 1 sec, true) else (c, false)
    | 2 => if kind = 5 ∧ c.owns ctx sec then (c.signalSem sec (bits a 10 3) (ws.headD 0).toNat, true) else (c, false)
    | 3 =>
      if kind = 4 ∧ op < 12 ∧ c.owns ctx sec ∧ off + n ≤ 2 ^ 22 then
        let c := c.settleRows fun r => storeFlat sec (rowAddr off) ≤ r && r < storeFlat sec (rowAddr off) + n
        ((ws.zip (List.range ws.length)).foldl (fun c (x, i) =>
          let f := storeFlat sec (rowAddr off) + 8 * i
          c.writeShared f ((reduceRow op (c.row f) x).getD 0) allOnes 1 sec 0 none) c, true)
      else (c, false)
    | 4 => if own ∧ kind = 1 ∧ c.owns ctx sec ∧ ws.headD 0 = 0 then (c.sched c.now bEngine sec (.collectiveStart sec off), true) else (c, false)
    | _ => (c, false)
/-- A read at the target side, as the local context ctx (R452, R454); `get` reads a flat byte. HBM requests are decoded and fire an armed
injection (R379, R399), a poisoned one fails the read; flagged words of a sector store are settled (R372). -/
def Core.regionRead (c : Core) (ctx a nw : Nat) (get : Core → Nat → Nat) : Option (List Word) × Core :=
  let sec := bits a 29 22
  let off := a % 2 ^ 22
  let rows (c : Core) (base : Nat) : List Word :=
    (List.range nw).map fun i => word (bytesNat ((List.range 8).map fun k => get c (base + 8 * i + k)))
  if !regionOk a then (none, c)
  else match bits a 43 40 with
    | 0 =>
      let p := a % 2 ^ 39
      if p + 8 * nw ≤ hbmBytes && c.admits ctx p (8 * nw) false then
        let c := c.fireHbm ctx 0 (requestsOf p (8 * nw))
        (if (c.poisonOf p (8 * nw)).isEmpty then some (rows c p) else none, c)
      else (none, c)
    | 1 =>
      if c.owns ctx sec ∧ off + 8 * nw ≤ 2 ^ 22 then
        let c := c.settleRows fun r => rowAddr (storeFlat sec off) ≤ r && r < storeFlat sec off + 8 * nw
        (some (rows c (storeFlat sec off)), c)
      else (none, c)
    | _ => (none, c)
/-- The packet kind that a write to a region becomes (R447, R450). -/
def regionKind (a : Nat) : Nat :=
  match bits a 43 40 with
  | 2 => 5
  | 3 => 4
  | _ => 1
/-- A device write to a peer address: to this module without a port, else packets of at most 30 words; signals and
their words go one to a packet. False where it is denied or has no route; the latter is logged as kind 12. -/
def Core.peerWrite (c : Core) (ctx tag origin a : Nat) (ws : List Word) : Core × Bool :=
  let one (c : Core) (a : Nat) (ws : List Word) : Core × Bool :=
    let op := if bits a 43 40 = 3 then bits a 39 36 else 0
    if !peerOk a then (c, false)
    else if c.ownModule a then c.regionWrite ctx (a % 2 ^ 44) (regionKind a) op ws true
    else
      let (c, ok) := c.sendPacket origin (bits a 55 44) (regionKind a) tag (a % 2 ^ 44) op ws.length ws
      (if ok then c else c.logEntry 0xFFFFFFFF 12 0 (c.tagOf ctx) (word a) 0, true)
  if bits a 43 40 = 2 then
    (ws.zip (List.range ws.length)).foldl (fun (c, ok) (x, i) => let (c, k) := one c (a + 8 * i) [x]; (c, ok && k)) (c, true)
  else
    ((chunks 30 ((ws.length + 29) / 30) ws).zip (List.range ws.length)).foldl (fun (c, ok) (xs, i) =>
      let (c, k) := one c (a + 240 * i) xs; (c, ok && k)) (c, true)

/-! ## Reads and writes of delivered bytes -/

/-- A byte of memory, and a byte as a weave's view holds it (R302). -/
def Core.memByte (c : Core) (a : Nat) : Nat := (memGet c.mem a).toNat
def Core.viewByte (c : Core) (w a : Nat) : Nat := bits (c.view w a).toNat (8 * (a % 8) + 7) (8 * (a % 8))
/-- CFLAG and FIRST of an attribute entry, whose delivered row holds the byte at va (R364, R368). -/
def Core.setConvFlag (c : Core) (ctx attr va : Nat) : Core :=
  let f (s : Word) : Word := if bitAt s.toNat 63 then s else word (2 ^ 63 + va / 8 * 8 % 2 ^ 56)
  c.modCtx ctx fun x => { x with damStat := lmod x.damStat attr f }
/-- What a read of delivered bytes gives. -/
inductive GRead where
  | bytes (bs : List Nat)
  /-- Uncorrectable under POISON = FAULT, denied, or failed (R369, R442, R457). -/
  | failed
  /-- A peer module has to be asked (R447). -/
  | peer
  deriving DecidableEq, Repr
/-- The delivered 64-byte requests of a read, as virtual addresses with the offset and length of what is read of each. -/
def deliveredRequests (va n : Nat) : List (Nat × Nat × Nat) :=
  (requestsOf va n).map fun r => (r, max r va - va, min (r + 64) (va + n) - max r va)
/-- Entries of kind 11 of a read: one for each delivered request and each poisoned stored request that it uses (R397, R432).
`user` is the unit that uses the data; none is the command processor, whose reads are no consumption (R381). -/
def Core.logUses (c : Core) (ctx : Nat) (l : GLoc) (va n : Nat) (user : Option Nat) : Core :=
  let e := c.attr ctx l.attr
  (deliveredRequests va n).foldl (fun c (r, o, k) =>
    let (lo, len) := Core.usedSpan e { l with addr := l.addr + o } k
    (c.poisonOf lo len).foldl (fun c p =>
      let fate := if dmZero e then 4 else 8 + bnat user.isSome
      c.logEntry (user.getD 0xFFFFFFFF) 11 (fate + 2 * bnat (c.hbmInjected.contains p)) (c.tagOf ctx) (word p) (word r)) c) c
/-- Posted writes of bytes to host memory, of at most 512 bytes each (R433, R441). -/
def Core.putHost (c : Core) (a : Nat) (bs : List Nat) : Core :=
  (List.range ((bs.length + 511) / 512)).foldl (fun c i =>
    c.send (.hostWrite (a + 512 * i) (((bs.drop (512 * i)).take 512).map (BitVec.ofNat 8)))) c
/-- A read of n bytes of host memory: its requests, split at 512-byte boundaries of the address, whose completions the device has
assembled when the bytes are there (R441). -/
def Core.askHost (c : Core) (a n : Nat) : Core :=
  (List.range ((a % 512 + n + 511) / 512)).foldl (fun c i =>
    let lo := max a (a / 512 * 512 + 512 * i)
    c.send (.hostRead lo (min (a + n) (a / 512 * 512 + 512 * (i + 1)) - lo))) c
/-- Read n delivered bytes for a unit; `get` reads a flat byte of the machine (memory for engines, the view for a weave). The poison log gets
its entries (R369, R397). -/
def Core.globalRead (c : Core) (ctx : Nat) (l : GLoc) (va n : Nat) (get : Core → Nat → Nat) (user : Option Nat) : GRead × Core :=
  let e := c.attr ctx l.attr
  match l.tgt with
  | 0 =>
    let (lo, len) := Core.footprint e l n
    if len ≠ 0 ∧ (hbmBytes < lo + len ∨ !c.admits ctx lo len false) then (.failed, c)
    else
      let c := c.fireHbm ctx va (if len = 0 then [] else requestsOf lo len)
      let (first, span) := Core.usedSpan e l n
      let hit := if span = 0 then [] else c.poisonOf first span
      let c := if hit.isEmpty then c else c.logUses ctx l va n user
      if !hit.isEmpty && !dmZero e then (.failed, c)
      else
        let us := unitBytes (dmSF e)
        let bad (a : Nat) : Bool := !(c.poisonOf (l.page + (a - l.page) / us * us) us).isEmpty
        let get' (a : Nat) : Nat := if !hit.isEmpty && bad a then 0 else get c a
        if dmConverts e then
          let d := l.addr - l.page
          let (bs, nan) := deliveredBytes get' e l.page d n
          (.bytes bs, match nan with
            | some p => c.setConvFlag ctx l.attr (va + (p - d))
            | none => c)
        else (.bytes ((List.range n).map fun i => get' (l.addr + i)), c)
  | 1 =>
    if c.hostAdmits ctx then (.bytes ((List.range n).map fun i => get c (hostBase + l.addr + i)), c.askHost l.addr n)
    else (.failed, c)
  | _ =>
    if !peerOk l.addr then (.failed, c)
    else if c.ownModule l.addr then
      match c.regionRead ctx (l.addr % 2 ^ 44) (ceilDiv n 8) get with
      | (some ws, c) => (.bytes ((ws.flatMap fun (x : Word) => natBytes 8 x.toNat).take n), c)
      | (none, c) => (.failed, c.logEntry 0xFFFFFFFF 10 0 (c.tagOf ctx) (word l.addr) (word va))
    else (.peer, c)

/-- Write bytes at a flat address, row by row (R300, R301). -/
def Core.writeBytes (c : Core) (a : Nat) (bs : List Nat) (scope unit writer : Nat) (job : Option Nat) : Core :=
  (List.range ((a % 8 + bs.length + 7) / 8)).foldl (fun c i =>
    let row := a / 8 * 8 + 8 * i
    let at_ (k : Nat) : Option Nat := if a ≤ row + k then bs[row + k - a]? else none
    let val := (List.range 8).foldl (fun acc k => acc + (at_ k).getD 0 * 256 ^ k) 0
    let mask := (List.range 8).foldl (fun acc k => acc + (if (at_ k).isSome then 255 * 256 ^ k else 0)) 0
    c.writeShared row (word val) (word mask) scope unit writer job) c
/-- Write delivered bytes: plain bytes as they are, converted ones through their stored units (R367 to R369). False
where the write is denied or discarded. `told` says that the use of what is poisoned has been logged. A packet of the command processor,
which is neither a weave nor a job, carries TAG 0 (R446). -/
def Core.globalWrite (c : Core) (ctx origin : Nat) (l : GLoc) (va : Nat) (bs : List Nat) (scope unit writer : Nat)
    (job : Option Nat) (told : Bool) : Core × Bool :=
  let e := c.attr ctx l.attr
  match l.tgt with
  | 0 =>
    if !dmConverts e then
      if hbmBytes < l.addr + bs.length ∨ !c.admits ctx l.addr bs.length true then (c, false)
      else ((c.writeBytes l.addr bs scope unit writer job).clearPoison l.addr bs.length, true)
    else
      let us := unitBytes (dmSF e)
      let at_ (i : Nat) : Nat := l.page + i * us
      let d := l.addr - l.page
      let units := (restored c.memByte e l.page d bs).1.map (·.1)
      if units.any (fun i => !c.admits ctx (at_ i) us true) then (c, false)
      else
        -- the stored units are read first, which decodes them
        let c := units.foldl (fun c i => c.fireHbm ctx va (requestsOf (at_ i) us)) c
        let zero := dmZero e
        let poisoned (i : Nat) : Bool := !(c.poisonOf (at_ i) us).isEmpty
        let get (a : Nat) : Nat := if zero && poisoned ((a - l.page) / us) then 0 else c.memByte a
        let (outs, fl) := restored get e l.page d bs
        let bad := outs.filter fun o => poisoned o.1
        let c := if told then c else bad.foldl (fun c o =>
          (c.poisonOf (at_ o.1) us).foldl (fun c p =>
            c.logEntry (7 * 2 ^ 28 + 0xFF * 2 ^ 20 + hbmStack p) 11 ((if zero then 4 else 8) + 2 * bnat (c.hbmInjected.contains p))
              (c.tagOf ctx) (word p) (word va)) c) c
        if !bad.isEmpty && !zero then (c, false)
        else
          let c := outs.foldl (fun c o => (c.writeBytes (at_ o.1) o.2 scope unit writer job).fixUnit (at_ o.1) us) c
          (match fl with
            | some p => c.setConvFlag ctx l.attr (va + (p - d))
            | none => c, true)
  | 1 =>
    if c.hostAdmits ctx then
      ((c.writeBytes (hostBase + l.addr) bs scope unit writer job).putHost l.addr bs, true)
    else (c, false)
  | _ =>
    -- packets carry whole rows (log 24)
    if l.addr % 8 ≠ 0 ∨ bs.length % 8 ≠ 0 then (c, false)
    else c.peerWrite ctx (if writer = 0 ∧ job.isNone then 0 else c.tagOf ctx) (origin + 256 * (job.map (· + 1)).getD 0) l.addr ((List.range (bs.length / 8)).map fun i => word (bytesNat ((bs.drop (8 * i)).take 8)))

end Sys2Proof.Machine
end

