-- ==== Sys2Proof/Machine/Twill.lean ====
section
/-! DEFINITION. Class X: Twill, lane to scalar, Gauze (R204 to R216). -/
namespace Sys2Proof.Machine

/-! ## Twill (R204 to R207) -/

/-- `tws` (R204): the value that a cell receives. -/
def State.shifted (s : State) (neg : Bool) (edge : TwEdge) (a : Reg) (lane : Nat) : Word :=
  let cell := lane / 16
  let atEdge := if neg then cell == 7 else cell == 0
  if atEdge then
    match edge with
    | .z => 0
    | .h => s.vreg a lane
    | .w => s.vreg a (if neg then lane % 16 else 112 + lane % 16)
  else s.vreg a (if neg then lane + 16 else lane - 16)
def execTws (neg : Bool) (edge : TwEdge) (d a : Reg) (k : KReg) (s : State) : Out :=
  .next (s.putV d (if edge = .w then 8 else 1) (s.active k) (s.shifted neg edge a))
/-- `twsl` (R205). -/
def execTwsl (d a : Reg) (n : BitVec 4) (k : KReg) (s : State) : Out :=
  .next (s.putV d 1 (s.active k) fun l => s.vreg a (l / 16 * 16 + (l + n.toNat) % 16))
/-- `lperm` (R205). -/
def execLperm (d a b : Reg) (k : KReg) (s : State) : Out :=
  .next (s.putV d 2 (s.active k) fun l => s.vreg a (l / 16 * 16 + (s.vreg b l).toNat % 16))
/-- `twb` (R206). -/
def execTwb (d a : Reg) (cell : BitVec 3) (k : KReg) (s : State) : Out :=
  .next (s.putV d 8 (s.active k) fun l => s.vreg a (16 * cell.toNat + l % 16))

/-- FP32 maximum or minimum of each element (R175, R208). -/
def fmmS (isMax : Bool) (x y : Word) : Word :=
  mapElems2 32 (fun p q => exactBits fp32 (minMaxFp isMax (decodeFp fp32 p) (decodeFp fp32 q)).1) x y
/-- One step of a reduction (R208). -/
def redStep (op : RedOp) (x y : Word) : Word :=
  match op with
  | .add => x + y
  | .max => if x.toInt ≤ y.toInt then y else x
  | .min => if x.toInt ≤ y.toInt then x else y
  | .or => x ||| y
  | .faddd => word (roundTo fp64 rne (addFp 0 (decodeFp fp64 x.toNat) (decodeFp fp64 y.toNat)).1).1
  | .fadds => faddS x y
  | .fmaxs => fmmS true x y
  | .fmins => fmmS false x y
/-- Reduction along the weave of one lane position (R207). -/
def State.alongWeave (s : State) (op : RedOp) (a : Reg) (l : Nat) : Word :=
  ((List.range 7).map (· + 1)).foldl (fun x c => redStep op x (s.vreg a (16 * c + l))) (s.vreg a l)
/-- `twr` (R207): unpredicated. -/
def execTwr (op : RedOp) (d a : Reg) (s : State) : Out :=
  let rs := (List.range 16).map (s.alongWeave op a)
  .next (s.putV d 16 allLanes fun l => rs.getD (l % 16) 0)

/-! ## Lane to scalar (R209, R210) -/

/-- `vtos` (R209). -/
def execVtos (d a b : Reg) (s : State) : Out := .next (s.putS d 10 (s.vreg a ((s.sreg b).toNat % 128)))
/-- One level of the tree of R210. -/
def pairUp (op : RedOp) : List Word → List Word
  | x :: y :: rest => redStep op x y :: pairUp op rest
  | xs => xs
/-- The tree over 2^n values. -/
def redTree (op : RedOp) : Nat → List Word → Word
  | 0, xs => xs.headD 0
  | n + 1, xs => redTree op n (pairUp op xs)
/-- `vred` (R210). -/
def execVred (op : RedOp) (d a : Reg) (k : KReg) (s : State) : Out :=
  .next (s.putS d 14 (redTree op 7 (allLanes.map fun l => if s.kreg k l then s.vreg a l else redIdInt op)))

/-! ## Gauze (R211 to R216) -/

/-- Fields of the record's SHAPE and WPS (R408). -/
def Launch.wide (l : Launch) : Nat := bits (l.record.getD 3 0).toNat 3 0
def Launch.high (l : Launch) : Nat := bits (l.record.getD 3 0).toNat 7 4
def Launch.wps (l : Launch) : Nat := [1, 2, 4].getD (bits (l.record.getD 0 0).toNat 10 9) 4
/-- The weave that a Gauze address names in a launch (R211). -/
def Launch.named (l : Launch) (v : Nat) : Option Nat :=
  let D := bits v 15 15
  let Y := bits v 14 11
  let X := bits v 10 7
  match l.blocks[bits v 23 16]? with
  | some base =>
    if bits v 62 24 = 0 ∧ bits v 6 2 = 0 ∧ X < l.wide ∧ Y < l.high ∧ (D = 0 ∨ l.pairs) ∧ v % 4 < l.wps then
      let sec := base + 10 * Y + X
      some (4 * (if D = 0 then sec else partner sec) + v % 4)
    else none
  | none => none
/-- The address of a weave of the launch, with ANY = 0: its source rank (R211). -/
def Launch.rankOf (l : Launch) (w : Nat) : Nat :=
  let at_ (D sec : Nat) := (l.blocks.zip (List.range l.blocks.length)).findSome? fun (base, i) =>
    let dx := sec % 10 - base % 10
    let dy := sec / 10 - base / 10
    if base % 10 ≤ sec % 10 ∧ base / 10 ≤ sec / 10 ∧ dx < l.wide ∧ dy < l.high ∧ sec / 80 = base / 80 then
      some (i * 65536 + D * 32768 + dy * 2048 + dx * 128 + w % 4)
    else none
  ((at_ 0 (w / 4)).orElse fun _ => if l.pairs then at_ 1 (partner (w / 4)) else none).getD (w % 4)
/-- The links of one axis: express hops of four, then single hops, each with its cost (R213). `dir` numbers the axis and
direction; a link is named by the sector it leaves and its kind. -/
def axisPath (dir step cur dist : Nat) (up : Bool) : Nat → List (Nat × Nat) × Nat
  | 0 => ([], cur)
  | n + 1 =>
    if dist = 0 then ([], cur)
    else
      let hop := if 4 ≤ dist then 4 else 1
      let next := if up then cur + hop * step else cur - hop * step
      let (rest, fin) := axisPath dir step next (dist - hop) up n
      ((cur * 16 + dir * 2 + (if hop = 4 then 1 else 0), if hop = 4 then 3 else 2) :: rest, fin)
/-- The links from one sector to another: X, then Y, then across the decks (R213). -/
def gauzePath (a b : Nat) : List (Nat × Nat) :=
  let ax := a % 10; let bx := b % 10
  let ay := a / 10 % 8; let by_ := b / 10 % 8
  let (px, c1) := axisPath (if ax ≤ bx then 0 else 1) 1 a (if ax ≤ bx then bx - ax else ax - bx) (ax ≤ bx) 10
  let (py, c2) := axisPath (if ay ≤ by_ then 2 else 3) 10 c1 (if ay ≤ by_ then by_ - ay else ay - by_) (ay ≤ by_) 8
  px ++ py ++ (if a / 80 = b / 80 then [] else [(c2 * 16 + 8, 4)])

/-- `gzs` (R211, R212). An entry of the send buffer is busy from issue on (log 57). -/
def execGzs (ch : BitVec 3) (a b : Reg) (k : KReg) (s : State) : Out :=
  .next <|
    let v := (s.sreg b).toNat
    match s.rd.launchOf s.core.cur with
    | none => s.windowTrap 0xFF v
    | some l =>
      match if bitAt v 63 then none else l.named v with
      | none => s.windowTrap 0xFF v
      | some dst =>
        if 2 ≤ s.wv.gzSend.length then s.hold 10 id
        else s.setAtom.modC fun c =>
          let (id, c) := c.fresh
          let w := c.cur
          let path := gauzePath (secOf w) (secOf dst)
          let m : GzMsg := ⟨id, w, dst, l.rankOf w, ch.toNat, (s.active k).map fun n => (n, s.vreg a n), path, none, 0⟩
          let c := c.modW w fun x => { x with gzSend := x.gzSend ++ [id] }
          let c := { c with gzNet := c.gzNet ++ [m] }
          if path.isEmpty then
            (c.sched (c.now + 24) bHost (m.rank * 8 + m.chan) (.gauzeMessageArrival w id)).sched (c.now + 24) bLand id (.gauzeFree w id)
          else c.sched (c.now + 8) bHost (m.rank * 8 + m.chan) (.gauzeHop id)
/-- The channel that a message goes to is full. -/
def Core.gauzeFull (c : Core) (m : GzMsg) : Bool := 4 ≤ ((c.weave m.dst).gauze.getD m.chan []).length
/-- A message waits on a link for its full channel and blocks it (R213). -/
def Core.gauzeBlocked (c : Core) (link : Nat) : Bool :=
  c.gzNet.any fun m => m.path.isEmpty && m.last == some link && c.gauzeFull m
/-- The head of a message passes its next link, which it holds for its 16 beats; a busy or blocked link makes it wait (R213). -/
def Core.gauzeHop (c : Core) (id : Nat) : Core :=
  match c.gzNet.find? fun m => m.id == id with
  | none => c
  | some m =>
    match m.path with
    | [] => c
    | (link, cost) :: rest =>
      let sub := m.rank * 8 + m.chan
      let busy := mget c.gzLinks link 0
      if c.now < busy then c.sched busy bHost sub (.gauzeHop id)
      else if c.gauzeBlocked link then c.sched (c.now + 1) bHost sub (.gauzeHop id)
      else
        let c := { c with
          gzLinks := mset c.gzLinks link (c.now + 16)
          gzNet := c.gzNet.map fun (x : GzMsg) => if x.id = id then { x with path := rest, last := some link } else x }
        let c := if m.last.isNone then c.sched (c.now + 16) bLand id (.gauzeFree m.src id) else c
        if rest.isEmpty then c.sched (c.now + cost + 16) bHost sub (.gauzeMessageArrival m.src id)
        else c.sched (c.now + cost) bHost sub (.gauzeHop id)
def Core.gauzeFree (c : Core) (w id : Nat) : Core :=
  c.modW w fun x => { x with gzSend := x.gzSend.filter (· != id) }
/-- A message completes at its receiver, or waits on its last link while the channel holds four, and behind an earlier one of its
source and channel (R213). One that waits is tried again in each next cycle, as a blocked hop is (log 69). -/
def Core.gauzeArrive (c : Core) (w id : Nat) : Core :=
  match c.gzNet.find? fun m => m.id == id with
  | none => c
  | some m =>
    if c.gauzeFull m || c.gzNet.any fun x => x.src == m.src && x.dst == m.dst && x.chan == m.chan && decide (x.id < m.id) then
      c.sched (c.now + 1) bHost (m.rank * 8 + m.chan) (.gauzeMessageArrival w id)
    else
      let c := ({ c with gzNet := c.gzNet.filter fun x => x.id != id }).modW m.dst fun x => { x with
        gauze := lmod x.gauze m.chan fun q => q ++ [{ m with doneAt := c.now }] }
      -- a pre-empted launch may have waited for it (R216)
      match (c.weave m.dst).launch with
      | some n => if ((c.launchOf m.dst).map fun l => l.parked.isEmpty) == some false then c.sched c.now bCp n (.launchCompletion n) else c
      | none => c
/-- A message of a launch is still in the network (R216). -/
def Core.gauzeMoving (c : Core) (ws : List Nat) : Bool := c.gzNet.any fun m => ws.contains m.src
/-- GAUZE_MESSAGE_ARRIVAL (R213). -/
def execGauzeMessageArrival (w id : Nat) (s : State) : Out := .next (s.modC fun c => c.gauzeArrive w id)

/-- Is the value a legal source for `gzr` and `gzp` (R211)? With ANY = 1 only the reserved bits are checked. -/
def Core.gauzeSource (c : Core) (w v : Nat) : Bool :=
  if bitAt v 63 then bits v 62 24 == 0 && bits v 6 2 == 0
  else ((c.launchOf w).bind fun l => l.named v).isSome
/-- Messages of a channel that match a source value (R214, R215). -/
def Weave.matching (wv : Weave) (ch v : Nat) : List GzMsg :=
  (wv.gauze.getD ch []).filter fun m => bitAt v 63 || m.rank == v
/-- The earliest completed, then the lowest source rank (R214). -/
def earliest : List GzMsg → Option GzMsg
  | [] => none
  | m :: ms =>
    match earliest ms with
    | none => some m
    | some n => if n.doneAt < m.doneAt ∨ (n.doneAt = m.doneAt ∧ n.rank < m.rank) then some n else some m
/-- `gzr` (R214). -/
def execGzr (ch : BitVec 3) (d b : Reg) (k : KReg) (s : State) : Out :=
  .next <|
    let v := (s.sreg b).toNat
    if !s.rd.gauzeSource s.core.cur v then s.windowTrap 0xFF v
    else
      match earliest (s.wv.matching ch.toNat v) with
      | none => s.hold 1 id
      | some m =>
        let lanes := (s.active k).filter fun l => (mget? m.rows l).isSome
        (s.setAtom.modW fun x => { x with gauze := lmod x.gauze ch.toNat fun q => q.filter fun y => y.id != m.id }).putV d 2 lanes
          fun l => mget m.rows l 0
/-- `gzp` (R215). -/
def execGzp (ch : BitVec 3) (d b : Reg) (s : State) : Out :=
  .next <|
    let v := (s.sreg b).toNat
    if !s.rd.gauzeSource s.core.cur v then s.windowTrap 0xFF v
    else
      let q := s.wv.gauze.getD ch.toNat []
      s.putS d 1 (word ((s.wv.matching ch.toNat v).length + bnat (q.length == 4) * 256))

end Sys2Proof.Machine
end

