-- ==== Sys2Proof/Machine/Sync.lean ====
section
/-! DEFINITION. Semaphores (R118 to R125), phase boundaries and realignment (R23, R25 to R27, R126 to R128), barriers
(R129 to R132). -/
namespace Sys2Proof.Machine

/-! ## Semaphores -/

def semMax : Nat := 0x7FFFFFFF
/-- SEMOVF (R313). -/
def State.semOvf (s : State) (sem : BitVec 8) (amount : Word) : State := s.raise 0x10 (sem.setWidth 64) amount

/-- Order of waiters that were first tested in one cycle: weaves by number, then engines (R119, R231; log 12). -/
def waiterRank : Waiter → Nat
  | .weave w _ _ => w % 4
  | .job (.copy w st) _ => 8 + w % 4 / 2 * 8 + w % 4 * 2 + bnat st
  | .job (.pool _ kind idx) _ => 32 + kind * 2 + idx
  | .txs _ unit _ => 32 + 4 + unit
def waiterSince : Waiter → Nat
  | .weave _ _ t => t
  | .job _ t => t
  | .txs _ _ t => t
/-- Enter the wait order (R119). -/
def insertWaiter (x : Waiter) : List Waiter → List Waiter
  | [] => [x]
  | y :: ys =>
    if waiterSince x < waiterSince y ∨ (waiterSince x = waiterSince y ∧ waiterRank x < waiterRank y) then x :: y :: ys
    else y :: insertWaiter x ys
def Core.addWaiter (c : Core) (sec n : Nat) (x : Waiter) : Core :=
  c.modSem sec n fun y => { y with waiters := insertWaiter x y.waiters }
def Core.weaveWaits (c : Core) (sec n w : Nat) : Bool :=
  (c.sem sec n).waiters.any fun x => match x with | .weave v _ _ => v == w | _ => false

/-- Apply to the machine and to what the bundle reads: an acquire takes effect before the bundle's loads (R303). -/
def State.both (s : State) (f : Core → Core) : State := { core := f s.core, base := s.base.map f }
/-- The weave waits on a semaphore for an amount, at its place in the wait order, from this cycle's service on; an amount of 0 takes
no place (R119, R120). -/
def Core.await (c : Core) (w n amount : Nat) : Core :=
  if amount = 0 then c.dropWaiter w
  else
    let c := if c.weaveWaits (secOf w) n w then
        c.modSem (secOf w) n fun y => { y with waiters := y.waiters.map fun z => match z with
          | .weave v _ t => if v = w then .weave v amount t else z
          | _ => z }
      else c.addWaiter (secOf w) n (.weave w amount c.now)
    c.serviceSem (secOf w) n
/-- `swait` (R119, R120): its semaphore is tested with the services of the cycle, after the operations of the bundles issued in
it. -/
def execSwait (a : Reg) (sem : BitVec 8) (s : State) : Out :=
  .next <|
    let amt := s.sreg a
    let n := sem.toNat
    let x := s.rd.sem s.sec n
    let w := s.core.cur
    match s.wv.served with
    | some r => (s.modW fun y => { y with served := none }).modIss fun i => { i with outside := !r.overflow && s.wv.consumedOver }
    | none =>
    if semMax < amt.toNat then s.semOvf sem amt
    else if !s.core.iss.late then s.hold 3 fun c => c.await w n amt.toNat
    else if x.ab then s.engJob 0 3 n
    else if x.ov then s.semOvf sem amt
    else if amt = 0 then
      let full := (s.wv.consume n 0).consumedOver
      (s.both fun c => (c.refreshView w).modW w fun y => y.consume n 0).modIss fun i => { i with outside := full && !s.wv.consumedOver }
    else s.hold 3 id
/-- `ssig` (R121). -/
def execSsig (a : Reg) (sem : BitVec 8) (s : State) : Out :=
  .next <|
    let amt := s.sreg a
    let n := sem.toNat
    if semMax < (s.rd.sem s.sec n).count + amt.toNat then s.semOvf sem amt
    else if amt = 0 then s.setAtom
    else s.setAtom.modC fun c =>
      ((c.modSem (secOf c.cur) n fun x => { x with count := x.count + amt.toNat }).fireArms (secOf c.cur) n).serviceSem (secOf c.cur) n
/-- `sinit` (R122). -/
def execSinit (a : Reg) (sem : BitVec 8) (s : State) : Out :=
  .next <|
    let v := s.sreg a
    let n := sem.toNat
    if semMax < v.toNat then s.semOvf sem v
    else s.setAtom.modC fun c =>
      (c.modSem (secOf c.cur) n fun x => { x with count := v.toNat, ab := false, ov := false, arms := [] }).serviceSem (secOf c.cur) n
/-- `snote` (R124). -/
def execSnote (sem : BitVec 8) (s : State) : Out :=
  .next (s.modC fun c => c.modSem (secOf c.cur) sem.toNat fun x => { x with arms := insertNat x.arms c.cur })
/-- The layout of R118 for a reading weave. -/
def semWord (x : Sem) (w : Nat) : Word :=
  word (x.count + bnat (x.arms.contains w) * 2 ^ 61 + bnat x.ov * 2 ^ 62 + bnat x.ab * 2 ^ 63)
/-- `sread` (R123): the value is taken after the step-2 operations of the cycle. -/
def execSread (d : Reg) (sem : BitVec 8) (s : State) : Out :=
  let s := s.putS d 1 (semWord (s.rd.sem s.sec sem.toNat) s.core.cur)
  .next (s.modC fun c => if d = 0 then c else c.sched c.now bSample c.cur (.sample c.cur sem.toNat (c.nextId - 1)))
/-- The value of an `sread` after step 2 of its cycle (R119, R123). -/
def Core.sampleSem (c : Core) (w n id : Nat) : Core :=
  let x := semWord (c.sem (secOf w) n) w
  let put (c : Core) (v : Nat) : Core :=
    c.modW v fun wv => { wv with flight := wv.flight.map fun r => if r.id = id then { r with data := [(0, x)] } else r }
  -- a redundant partner's copy of the result too (R385)
  if (c.weave w).redun then put (put c w) (w + 1) else put c w

/-- A weave's `swait` is served: the amount is subtracted, its view is refreshed, its bundle issues in this cycle
(R119, R120, R302, R326). -/
def Core.serveWeave (c : Core) (sec n w amount : Nat) : Core :=
  let wv := c.weave w
  let c := c.modSem sec n fun x => { x with count := x.count - amount }
  let c := c.modW w fun x => { x with
    served := some ⟨n, amount, wv.views, wv.viewBase, wv.consumed, wv.consumedOver, wv.atom⟩ }
  let c := (c.refreshView w).modW w fun x => x.consume n amount
  (c.unsched fun a => a == .issue w || a == .lateIssue w).sched c.now bLate w (.lateIssue w)
/-- A waiting job is served with the amount 1 (R231). -/
def Core.serveJob (c : Core) (sec n : Nat) (eng : EngId) : Core :=
  let c := c.modSem sec n fun x => { x with count := x.count - 1 }
  let mark (js : List Job) : List Job := match js with
    | j :: rest => { j with served := true } :: rest
    | [] => []
  let c := match eng with
    | .pool s k i => c.modSec s fun x => { x with engines := lmod x.engines k fun es => lmod es i fun e => { e with jobs := mark e.jobs } }
    | .copy w st =>
      let key := 2 * w + bnat st
      { c with copies := mset c.copies key ⟨mark (mget c.copies key ⟨[]⟩).jobs⟩ }
  c.sched c.now bMark sec (.jobStart eng)
/-- A waiting `twait` is served: the view of the job's weave is refreshed, and the unit goes on at its place among the engines (R231, R290,
R302). -/
def Core.serveTxs (c : Core) (sec n unit : Nat) : Core :=
  let c := c.modSem sec n fun x => { x with count := x.count - 1 }
  let e := ((c.sector sec).engines.getD 2 []).getD unit Engine.reset
  let c := match e.jobs.find? fun j => j.op == 1 && j.started.isSome with
    | some j => c.refreshView j.weave
    | none => c
  let c := c.modSec sec fun x => { x with txs := lmod x.txs unit fun t => { t with pc := t.pc + 1, busyTo := c.now + e.div } }
  c.sched (c.now + e.div) bEngine (36 + unit) (.txs sec unit)
/-- Waiters in wait order, each whose amount COUNT covers, up to the first that it does not (R119 step 3). -/
def Core.serveWaiters (c : Core) (sec n : Nat) : List Waiter → Core
  | [] => c
  | x :: rest =>
    let amount := match x with
      | .weave _ a _ => a
      | _ => 1
    if amount ≤ (c.sem sec n).count then
      let c := c.modSem sec n fun y => { y with waiters := rest }
      let c := match x with
        | .weave w a _ => c.serveWeave sec n w a
        | .job eng _ => c.serveJob sec n eng
        | .txs _ unit _ => c.serveTxs sec n unit
      c.serveWaiters sec n rest
    else c
/-- SWAIT_SERVED (R119): a semaphore with AB or OV serves no weave; those are tested again and trap (R120);
with AB a waiting `twait` is too (R290). -/
def execSwaitServed (sector sem : Nat) (s : State) : Out :=
  .next (s.modC fun c =>
    let x := c.sem sector sem
    let ws := x.waiters.filterMap fun y => match y with | .weave w _ _ => some w | _ => none
    let c := if x.ab || x.ov then
        (c.modSem sector sem fun y => { y with waiters := y.waiters.filter fun z => match z with | .weave _ _ _ => false | _ => true })
      else c
    let c := if x.ab || x.ov then
        ws.foldl (fun c w => (c.unsched fun a => a == .issue w || a == .lateIssue w).sched c.now bLate w (.lateIssue w)) c
      else c
    let ts := x.waiters.filterMap fun y => match y with | .txs _ u _ => some u | _ => none
    let c := if x.ab then
        ts.foldl (fun c u => c.sched c.now bLate (36 + u) (.txs sector u))
          (c.modSem sector sem fun y => { y with waiters := y.waiters.filter fun z => match z with | .txs _ _ _ => false | _ => true })
      else c
    c.serveWaiters sector sem (c.sem sector sem).waiters)

/-! ## Phase boundaries -/

def Launch.redun (l : Launch) : Bool := bitAt (l.record.getD 1 0).toNat 3
/-- Participants of a scope in one unit (R26): of a redundant pair, the leader (R385). -/
def Launch.participants (l : Launch) (scope unit : Nat) : List Nat :=
  l.weaves.filter fun w => unitOf scope w == unit && (!l.redun || w % 2 == 0)
/-- Publication of a weave's buffer at a scope, sector rows and global entries (R27 step 1, R301, R304). -/
def Core.publishAll (c : Core) (w scope : Nat) : Core :=
  let ents := (c.weave w).gbuf
  let c := c.publish w scope
  let ctx := c.ctxOf w
  let c := ents.foldl (fun c e =>
    let l : GLoc := ⟨e.tgt, e.addr, e.attr, e.addr / pageMiB2 * pageMiB2⟩
    let (c, ok) := c.globalWrite ctx (secOf w) l e.va (natBytes 8 e.val.toNat) scope (unitOf scope w) (w + 1) none false
    let (lo, n) := Core.footprint (c.attr ctx e.attr) l 8
    if !ok then c
    else if e.tgt = 0 then (List.range ((lo % 8 + n + 7) / 8)).foldl (fun c i => c.ownView w (lo / 8 * 8 + 8 * i)) c
    else c.ownView w (c.flatOf l)) c
  c.modW w fun x => { x with gbuf := [] }
/-- Steps 2 to 5 for one weave, its partner's to follow. Outside handlers it is a landing point of kind phase, unless the bundle
has ended an iteration of the landing level, which is one already (R27, R35, R321). -/
def Core.passBoundary (c : Core) (w mask : Nat) : Core :=
  let wv := c.weave w
  let c := c.boundaryTail w mask wv.pc.toNat wv.loops
  let c := c.modW w fun x =>
    if x.inHandler then x else { x with landing := some (x.landing.getD 1), passed := some c.now }
  if c.hasPartner w then c.sched (c.now + 2) bMark (w + 1) (.partnerBoundary (w + 1) mask) else c
/-- Insert a weave's publication at a scope, in ascending weave number. -/
def insertPub (p : Nat × Nat) : List (Nat × Nat) → List (Nat × Nat)
  | [] => [p]
  | q :: qs => if p.1 < q.1 then p :: q :: qs else q :: insertPub p qs
/-- The weaves that publish in this cycle, with their scopes: those of the boundaries and halts that are due, but for a boundary
one of whose phase buffers fails (R27, R376). -/
def Core.duePublishers (c : Core) : List (Nat × Nat) :=
  let meet (n : Nat) (p : Boundary → Bool) : List (Nat × Nat) :=
    match (c.launch? n).bind fun l => l.bounds.find? p with
    | some b => if b.waiting.any fun w => !(c.weave w).bufBad.isEmpty then [] else b.waiting.map fun w => (w, b.scope)
    | none => []
  c.agenda.flatMap fun e =>
    if e.due != .cycle c.now || e.band != bPublish then []
    else match e.act with
      | .weaveBoundary w _ => if !(c.weave w).bufBad.isEmpty then [] else [(w, 0)]
      | .haltPublish w => if !(c.weave w).bufBad.isEmpty then [] else [(w, 4)]
      | .collectiveBoundaryCompletion n scope unit => meet n fun b => b.bar.isNone && b.scope == scope && b.unit == unit
      | .barrierCompletion n bar scope unit => meet n fun b => b.bar == some bar && b.scope == scope && b.unit == unit
      | _ => []
/-- The publications of this cycle, those of some weaves among them, in ascending weave number (R203, R300). -/
def Core.publishDue (c : Core) (own : List (Nat × Nat)) : Core :=
  ((own ++ c.duePublishers).foldl (fun l p => insertPub p l) []).foldl (fun c p => c.publishAll p.1 p.2) c
/-- The wait for a boundary of a scope has come to its end. -/
def Wait.complete (x : Wait) (scope now : Nat) : Wait :=
  match x with
  | .boundary b sc m .none => if sc = scope then .boundary b sc m (some now) else x
  | _ => x
/-- The mask of the boundary of a scope that a weave waits at (R126). -/
def Weave.maskOf (wv : Weave) (scope : Nat) : Nat :=
  match wv.wait, wv.aside with
  | .boundary _ sc m none, a => if sc = scope then m else match a with
    | .boundary _ _ m none => m
    | _ => 0
  | _, .boundary _ _ m none => m
  | _, _ => 0
/-- A boundary of several weaves: every publication, then refreshes and the other steps (R27, R302). -/
def Core.passBoundaries (c : Core) (ws : List Nat) (scope : Nat) : Core :=
  let ws := ws.foldl insertNat []
  let c := c.publishDue (ws.map fun w => (w, scope))
  ws.foldl (fun c w =>
    let mask := (c.weave w).maskOf scope
    let c := if scope = 0 then c else c.refreshView w
    let c := match (c.weave w).launch with
      | some n => if scope = 0 then c else c.bankPassed n (secOf w)
      | none => c
    let c := c.passBoundary w mask
    c.modW w fun x => { x with wait := x.wait.complete scope c.now, aside := x.aside.complete scope c.now }) c
/-- Phase buffers that fail their parity at step 1 of R27: the phases that were ending are cancelled (R376). -/
def Core.failBuffers (c : Core) (ws : List Nat) : Core :=
  (ws.filter fun w => !(c.weave w).bufBad.isEmpty).foldl (fun c w =>
    (c.modW w fun x => { x with bufBad := [] }).sched c.now bLand w (.cancelAt w 5 (unitCode ⟨0, secOf w, w % 4⟩) 0 false)) c
/-- The weaves of a boundary pass it, unless a phase buffer fails: then its weave is yet to arrive (R27, R376). -/
def Core.completeBoundary (c : Core) (n : Nat) (b : Boundary) : Core :=
  if b.waiting.any fun w => !(c.weave w).bufBad.isEmpty then c.failBuffers b.waiting
  else (c.modL n fun l => { l with bounds := l.bounds.erase b }).passBoundaries b.waiting b.scope
/-- A weave arrives at a collective boundary (R26, R127). `delay` is C. -/
def Core.arriveAt (c : Core) (w scope delay : Nat) : Core :=
  let unit := unitOf scope w
  match (c.weave w).launch, c.launchOf w with
  | some n, some l =>
    let old := (l.bounds.find? fun b => b.bar.isNone && b.scope == scope && b.unit == unit).map (·.waiting)
    let ws := insertNat (old.getD []) w
    let b : Boundary := ⟨none, scope, unit, ws⟩
    let c := c.modL n fun l => { l with
      bounds := (l.bounds.filter fun b => !(b.bar.isNone && b.scope == scope && b.unit == unit)) ++ [b] }
    if (l.participants scope unit).all ws.contains then
      c.sched (c.now + delay) bPublish n (.collectiveBoundaryCompletion n scope unit)
    else c
  | _, _ => c
/-- A `phase` bundle has issued: at weave scope the boundary is in its own cycle, else it is an arrival (R126, R127). -/
def Core.reachPhase (c : Core) (w scope mask : Nat) : Core :=
  if scope = 0 then c.sched c.now bPublish w (.weaveBoundary w mask)
  else (c.modW w fun x => { x with wait := .boundary false scope mask none }).arriveAt w scope (Config.boundaryCycles scope)
/-- A boundary at weave scope, at the place of its cycle's publications (R27, R127, R203). -/
def Core.weaveBoundary (c : Core) (w mask : Nat) : Core :=
  if !(c.weave w).bufBad.isEmpty then c.failBuffers [w] else (c.publishDue [(w, 0)]).passBoundary w mask
/-- COLLECTIVE_BOUNDARY_COMPLETION (R127). -/
def execCollectiveBoundaryCompletion (launch scope unit : Nat) (s : State) : Out :=
  .next (s.modC fun c =>
    match c.launch? launch with
    | none => c
    | some l =>
      let mine (b : Boundary) : Bool := b.bar.isNone && b.scope == scope && b.unit == unit
      match l.bounds.find? mine with
      | none => c
      | some b => c.completeBoundary launch b)

/-- A mask bit names a region that the launch does not declare (R126). -/
def undeclared (regions : List (Nat × Nat × Nat)) (mask : Nat) : Bool :=
  (List.range 16).any fun i => bitAt mask i && (regions.getD i (0, 0, 0)).2.2 == 0
/-- `phase` (R126, R127). -/
def execPhase (scope : BitVec 3) (mask : BitVec 16) (s : State) : Out :=
  .next <|
    if s.wv.inue then s.illegal 0
    else if undeclared (s.rd.regions s.core.cur) mask.toNat then s.windowTrap 0xFF 0
    else s.modIss fun i => { i with reaches := .phase scope.toNat mask.toNat }

/-- CYCLE at which the bundle under way was scheduled (R22, R313). -/
def State.scheduledCycle (s : State) : Nat := s.wv.slipping.getD s.now - s.wv.startCycle
/-- TIMING with a condition code (R314). -/
def State.timing (s : State) (code : Nat) : State := s.raise 0x08 (word code) (word s.scheduledCycle)
/-- `realign` (R23, R128). -/
def execRealign (safe : Bool) (n : BitVec 16) (s : State) : Out :=
  .next <|
    let wv := s.wv
    let t := s.now / Config.tickCycles
    let goto (tick texp : Nat) : State := s.modIss fun i => { i with reaches := .realign tick texp safe }
    if wv.inue then s.illegal 0
    else if !wv.timed then goto (t + 1) wv.texp
    else
      let texp := wv.texp + n.toNat
      if texp * Config.tickCycles ≤ s.now then
        if s.core.power.stretched = some t then goto (t + 1) texp else s.timing 8
      else goto texp texp

/-! ## Barriers -/

def barKey (scope unit : Nat) : Nat := scope * 1024 + unit
def BarInst.reset : BarInst := ⟨0, 0, false, [], [], []⟩
/-- The object of a barrier, its instance for a weave (R129). -/
def Launch.bar (l : Launch) (bar : Nat) : Barrier := mget l.bars bar ⟨0, []⟩
def Launch.inst (l : Launch) (bar w : Nat) : BarInst :=
  let b := l.bar bar
  mget b.insts (barKey b.scope (unitOf b.scope w)) BarInst.reset
def Launch.setInst (l : Launch) (bar scope w : Nat) (x : BarInst) : Launch :=
  let b := l.bar bar
  { l with bars := mset l.bars bar { b with insts := mset b.insts (barKey scope (unitOf scope w)) x } }
/-- BARRIER_OVER (R313). -/
def State.barrierOver (s : State) (bar : BitVec 6) (x : BarInst) : State :=
  s.raise 0x11 (bar.setWidth 64) (word (x.e % 2 ^ 32 + x.a * 2 ^ 32))
/-- The launch of the executing weave, as it stands at issue. -/
def State.myLaunch (s : State) : Option (Nat × Launch) :=
  match s.wv.launch, s.rd.launchOf s.core.cur with
  | some n, some l => some (n, l)
  | _, _ => none
/-- A completed instance (R131): its `barr` arrivals pass a boundary after C cycles. -/
def Core.completeInst (c : Core) (n bar scope w : Nat) (x : BarInst) : Core :=
  let unit := unitOf scope w
  let c := c.modL n fun l => { (l.setInst bar scope w { x with a := 0, arrived := [], viaBarr := [], gen := !x.gen }) with
    bounds := l.bounds ++ [⟨some bar, scope, unit, x.viaBarr⟩] }
  -- the arrival of a redundant leader is compared first (R387)
  let d := if (c.launch? n).any (·.redun) then max 2 (Config.boundaryCycles scope) else Config.boundaryCycles scope
  c.sched (c.now + d) bPublish n (.barrierCompletion n bar scope unit)
/-- An arrival (R131): the ordinal, for `barr` the scope, and the state after it; or BARRIER_OVER. -/
def State.arrival (s : State) (bar : BitVec 6) (via : Bool) (f : Nat → State → State) : State :=
  match s.myLaunch with
  | none => s.barrierOver bar BarInst.reset
  | some (n, l) =>
    let w := s.core.cur
    let x := l.inst bar.toNat w
    if x.e = 0 ∨ x.dropped.contains w ∨ x.arrived.contains w then s.barrierOver bar x
    else
      let scope := (l.bar bar.toNat).scope
      let x := { x with a := x.a + 1, arrived := insertNat x.arrived w, viaBarr := if via then insertNat x.viaBarr w else x.viaBarr }
      f (if via then scope else x.a) <| s.modC fun c =>
        let c := c.modL n fun l => l.setInst bar.toNat scope w x
        if x.a = x.e then c.completeInst n bar.toNat scope w x else c
/-- `barr` (R131). -/
def execBarr (bar : BitVec 6) (s : State) : Out :=
  .next <| if s.wv.inue then s.illegal 0
    else s.arrival bar true fun scope s => s.modIss fun i => { i with reaches := .barr scope }
/-- `barv` (R131). -/
def execBarv (d : Reg) (bar : BitVec 6) (s : State) : Out :=
  .next (s.arrival bar false fun a s => s.setAtom.putS d 1 (word a))
/-- `bdrop` (R132). -/
def execBdrop (bar : BitVec 6) (s : State) : Out :=
  .next <|
    match s.myLaunch with
    | none => s.barrierOver bar BarInst.reset
    | some (n, l) =>
      let w := s.core.cur
      let x := l.inst bar.toNat w
      if x.e = 0 ∨ x.dropped.contains w ∨ x.arrived.contains w then s.barrierOver bar x
      else
        let scope := (l.bar bar.toNat).scope
        let x := { x with dropped := insertNat x.dropped w, e := x.e - 1 }
        s.setAtom.modC fun c =>
          let c := c.modL n fun l => l.setInst bar.toNat scope w x
          if 0 < x.e ∧ x.a = x.e then c.completeInst n bar.toNat scope w x else c
/-- `binit` (R129, R130). -/
def execBinit (scope : BitVec 3) (a : Reg) (bar : BitVec 6) (s : State) : Out :=
  .next <|
    match s.myLaunch with
    | none => s.barrierOver bar BarInst.reset
    | some (n, l) =>
      let w := s.core.cur
      let sc := scope.toNat
      let e := (s.sreg a).toNat
      let x := mget (l.bar bar.toNat).insts (barKey sc (unitOf sc w)) BarInst.reset
      if x.a ≠ 0 ∨ e = 0 ∨ (l.participants sc (unitOf sc w)).length < e then s.barrierOver bar x
      else s.setAtom.modC fun c => c.modL n fun l =>
        let l := l.setInst bar.toNat sc w { x with e := e, a := 0, arrived := [], viaBarr := [], dropped := [] }
        { l with bars := mset l.bars bar.toNat { (l.bar bar.toNat) with scope := sc } }
/-- BARRIER_COMPLETION (R131). -/
def execBarrierCompletion (launch bar scope unit : Nat) (s : State) : Out :=
  .next (s.modC fun c =>
    match c.launch? launch with
    | none => c
    | some l =>
      let mine (b : Boundary) : Bool := b.bar == some bar && b.scope == scope && b.unit == unit
      match l.bounds.find? mine with
      | none => c
      | some b => c.completeBoundary launch b)

end Sys2Proof.Machine
end

