-- ==== Sys2Proof/Machine/System.lean ====
section
/-! DEFINITION. CSRs (R40 to R45, R147, R148), the lead syllables (R85 to R90), handles and sequencer memory (R137 to
R141), launch records (R142, R143), predicate summaries and the small system instructions (R144 to R157). -/
namespace Sys2Proof.Machine

/-! ## CSRs -/

/-- Position of a port's request in its instance's lease queue (R45). -/
def Core.qpos (c : Core) (w p : Nat) : Nat :=
  let x := (c.weave w).ports.getD p Port.reset
  let e := ((c.sector (secOf w)).engines.getD x.kind []).getD x.inst Engine.reset
  if x.q then (e.queue.findIdx? fun r => r.weave == w && r.port == p).getD 0 else 0
/-- A port's LEASESTAT group (R45). -/
def Core.leaseGroup (c : Core) (w p : Nat) : Nat :=
  let x := (c.weave w).ports.getD p Port.reset
  if p = 3 then 6 * 512 + 1
  else bnat x.g + bnat x.wk * 2 + bnat x.q * 4 + bnat x.tw * 8 + bnat x.ew * 16 + bnat x.ev * 32 + c.qpos w p % 8 * 64 + x.kind * 512
def Core.leasestat (c : Core) (w : Nat) : Word :=
  word ((List.range 4).foldl (fun acc p => acc + c.leaseGroup w p * 2 ^ (16 * p)) 0)
/-- ENERGY (R40): whole µJ of what fabric targets have billed since launch start (R458), and of the module's own energy, which
is free (log 33). -/
def Core.energyCsr (c : Core) (w : Nat) : Word :=
  let start := (c.launchOf w).bind (·.energyAt)
  let billed := ((c.ctx (c.ctxOf w)).energy - start.getD 0) / 1000
  if start.isNone then 0 else word (billed + Config.ownEnergy (c.ctxOf w) (c.weave w).startCycle c.now)
/-- A CSR as it stands (R40). -/
def Core.csr (c : Core) (w n : Nat) : Word :=
  let wv := c.weave w
  match n with
  | 0x000 => wv.mode
  | 0x001 => wv.status
  | 0x002 => wv.fcsr
  | 0x003 => wv.fmtsel
  | 0x004 => wv.uevec
  | 0x005 => wv.uecause
  | 0x006 => wv.tvec
  | 0x007 => wv.tcause
  | 0x008 => wv.secbase + word (sysOff w)
  | 0x009 => wv.epc
  | 0x00A => word (c.now - wv.startCycle)
  | 0x00B => wv.slipctr
  | 0x00C => word c.tick
  | 0x00D => wv.phaseno
  | 0x00E => wv.chkmask.setWidth 64
  | 0x00F => wv.ueframe
  | 0x010 => c.leasestat w
  | 0x012 => wv.mxrp
  | 0x014 => wv.locbase
  | 0x015 => wv.secbase
  | 0x016 => wv.pairbase
  | 0x020 => wv.errinj
  | 0x021 => c.energyCsr w
  | n => if 0x030 ≤ n ∧ n ≤ 0x037 then wv.coords.getD (n - 0x030) 0 else 0
/-- Bits of a CSR that user level writes, and bits that only system level writes (R40 to R44, R253, R294, R398). -/
def csrMasks (n : Nat) : Word × Word :=
  match n with
  | 0x000 => (0, 0xF002)
  | 0x001 => (2, 0x60)
  | 0x002 => (0xFFFFFFFF00003FFF, 0)
  | 0x003 => (0x7FFF, 0)
  | 0x004 | 0x00F => (allOnes, 0)
  | 0x006 | 0x009 | 0x00B => (0, allOnes)
  | 0x007 => (0, 0xFFFFFFFF)
  | 0x00E => (0xFFFFFFFF, 0)
  | 0x012 => (0, 0x80000000FFFFFFFF)
  | 0x014 | 0x015 | 0x016 => (0, 0xFFFFFF0000)
  | 0x020 => (0, 0x8FC0FFFFFFFFFFFF)
  | _ => (0, 0)
/-- Every field of the CSR is SYS (R40). -/
def csrSys (n : Nat) : Bool := n == 0x006 || n == 0x007 || n == 0x008 || n == 0x009 || n == 0x020
/-- The eight lowest set bits (R28). -/
def lowestEight (x : Nat) : Nat :=
  (((List.range 32).filter (bitAt x)).take 8).foldl (fun acc i => acc + 2 ^ i) 0
/-- The value that a write leaves, where a CSR restricts it (R28, R43, R398). -/
def csrFix (n : Nat) (old new : Word) : Word :=
  match n with
  | 0x002 => if 5 ≤ new.toNat % 8 then setBits new 2 0 (old.toNat % 8) else new
  | 0x00E => word (lowestEight new.toNat)
  | 0x020 => if 9 ≤ bits new.toNat 59 56 ∨ 2 ≤ bits new.toNat 55 54 then old else new
  | _ => new
/-- Store a CSR. -/
def Weave.setCsr (wv : Weave) (n : Nat) (x : Word) : Weave :=
  match n with
  | 0x000 => { wv with mode := x }
  | 0x001 => { wv with status := x }
  | 0x002 => { wv with fcsr := x }
  | 0x003 => { wv with fmtsel := x }
  | 0x004 => { wv with uevec := x }
  | 0x006 => { wv with tvec := x }
  | 0x007 => { wv with tcause := x }
  | 0x009 => { wv with epc := x }
  | 0x00B => { wv with slipctr := x }
  | 0x00E => { wv with chkmask := x.setWidth 32 }
  | 0x00F => { wv with ueframe := x }
  | 0x012 => { wv with mxrp := x }
  | 0x014 => { wv with locbase := x }
  | 0x015 => { wv with secbase := x }
  | 0x016 => { wv with pairbase := x }
  | 0x020 => { wv with errinj := x }
  | _ => wv
/-- EV and TW of the leasable ports are cleared where bits are set (R45, R148). -/
def Weave.clearLease (wv : Weave) (x : Nat) : Weave :=
  { wv with ports := (wv.ports.zip (List.range 4)).map fun (q, p) =>
      if p = 3 then q
      else { q with ev := q.ev && !bitAt x (16 * p + 5), tw := q.tw && !bitAt x (16 * p + 3) } }
/-- A write of new bits to a CSR (R40, R147): `seed` tells that FCSR.SEED is written (R43), `w1c` are the bits that it
clears. The flags that the bundle's lanes raise stay ORed in (R188). -/
def State.writeCsr (s : State) (n : Nat) (new : Word) (seed : Bool) (w1c : Word) : State :=
  let wv := s.wv
  let old := s.rd.csr s.core.cur n
  let (u, y) := csrMasks n
  if csrSys n && !wv.priv then s.privTrap 0
  else if !wv.priv && (old ^^^ new) &&& y != 0 then s.privTrap 0
  else
    let x := csrFix n old (mergeBits old new (u ||| y))
    s.modW fun v =>
      -- ATOM stays as an earlier syllable of the bundle has left it
      let x := if n = 0x001 then mergeBits x v.status 16 else x
      let v := if n = 0x010 then v.clearLease w1c.toNat else v.setCsr n x
      if n = 0x002 then
        let v := { v with fcsr := x ||| word (s.core.iss.flags * 16) }
        if seed then { v with srd := allLanes.map fun l => (l, srdSeed (x.toNat / 2 ^ 32) l) } else v
      else v
/-- `csrr` (R147). -/
def execCsrr (d : Reg) (csr : BitVec 12) (s : State) : Out :=
  .next <| if csrSys csr.toNat && !s.wv.priv then s.privTrap 0 else s.putS d 1 (s.rd.csr s.core.cur csr.toNat)
/-- `csrw` (R147, R148). -/
def execCsrw (csr : BitVec 12) (a : Reg) (s : State) : Out :=
  .next (s.writeCsr csr.toNat (s.sreg a) true (s.sreg a))
/-- `csrs` (R147, R148). -/
def execCsrs (csr : BitVec 12) (a : Reg) (s : State) : Out :=
  .next (s.writeCsr csr.toNat (s.rd.csr s.core.cur csr.toNat ||| s.sreg a) (decide (2 ^ 32 ≤ (s.sreg a).toNat)) (s.sreg a))
/-- `csrc` (R147, R148). -/
def execCsrc (csr : BitVec 12) (a : Reg) (s : State) : Out :=
  .next (s.writeCsr csr.toNat (s.rd.csr s.core.cur csr.toNat &&& ~~~(s.sreg a)) (decide (2 ^ 32 ≤ (s.sreg a).toNat)) 0)

/-! ## Lead syllables (R85 to R90): what they tell the rest of the bundle and the issue -/

/-- `gap` (R86). -/
def execGap (mark : Bool) (g : BitVec 8) (s : State) : Out := .next (s.modIss fun i => { i with gap := some g.toNat, mark := mark })
/-- `rep` (R87). -/
def execRep (mask : BitVec 8) (n1 : BitVec 12) (s : State) : Out :=
  .next (s.modIss fun i => { i with rep := some (mask, n1), repSlot := i.slot, repWord := i.word })
/-- `seg` (R86): the issue opens the segment. -/
def execSeg (e : BitVec 20) (s : State) : Out := .next (s.modIss fun i => { i with seg := some e.toNat })
/-- `sigl` (R90). -/
def execSigl (v : BitVec 16) (s : State) : Out := .next (s.modIss fun i => { i with sigl := some v.toNat })
/-- `sigh` (R90). -/
def execSigh (v : BitVec 16) (s : State) : Out := .next (s.modIss fun i => { i with sigh := some v.toNat })
/-- `lit` (R89). -/
def execLit (v : BitVec 24) (s : State) : Out := .next (s.modIss fun i => { i with lit := some v })

/-! ## Handles (R137 to R139) -/

def State.handle (s : State) (h : HReg) : Handle := s.wv.handles.getD h.toNat Handle.reset
def Core.modH (c : Core) (w n : Nat) (f : Handle → Handle) : Core :=
  c.modW w fun x => { x with handles := lmod x.handles n f }
def permReads : Perm → Bool
  | .r | .rw => true
  | .w => false
def permWrites : Perm → Bool
  | .w | .rw => true
  | .r => false
/-- Pages cover a range from va to the limit, one page a step. -/
def pagesCover (ps : List PageTr) (limit : Nat) : Nat → Nat → Bool
  | 0, va => limit ≤ va
  | n + 1, va =>
    if limit ≤ va then true
    else match findPage ps va with
      | some p => pagesCover ps limit n (p.va + p.size)
      | none => false
/-- The handle holds cached translations, with the permissions, of every page of the range (R137, R299). -/
def Handle.holds (h : Handle) (x : Walk) : Bool :=
  h.valid && x.len != 0 && (!x.r || h.r) && (!x.w || h.w) && decide (x.base.toNat + x.len.toNat ≤ 2 ^ 56) &&
  pagesCover (h.pages.filter (·.permits x.r x.w)) (x.base.toNat + x.len.toNat) (h.pages.length + 1) x.base.toNat
/-- A walk for the handle is running: its own, or that of a probe whose update has not landed (R137). -/
def Handle.walking (h : Handle) : Bool := h.walk.isSome || h.pend.any fun p => p.1 != 0
/-- `probe` (R137): the result and the handle's new range land at issue + 64. -/
def execProbe (perm : Perm) (d : Reg) (h : HReg) (a b : Reg) (s : State) : Out :=
  .next <|
    let x := s.handle h
    let n := h.toNat
    let wk : Walk := ⟨s.sreg a, s.sreg b, permReads perm, permWrites perm, x.gen + 1⟩
    let res := if x.walking then 2 else if x.holds wk then 0 else 1
    (s.putS d 64 (word res)).modC fun c =>
      (c.modH c.cur n fun y => { y with
        gen := wk.gen
        pend := y.pend ++ [(res, wk)]
        walk := y.walk.map fun v => { v with gen := 0 }
        walkSince := c.now }).sched (c.now + 64) bLand n (.probeUpdate c.cur n wk.gen)
/-- The handle's part of a probe at its issue + 64: the new range, and the walk's own time from then on (R137, R319). -/
def Core.probeUpdate (c : Core) (w n gen : Nat) : Core :=
  let h := (c.weave w).handles.getD n Handle.reset
  match h.pend.find? fun p => p.2.gen == gen with
  | none => c
  | some (res, wk) =>
    let rest := h.pend.filter fun p => p.2.gen != gen
    if res = 0 then
      c.modH w n fun h => { h with base := wk.base.setWidth 56, len := wk.len.setWidth 56, r := wk.r, w := wk.w, valid := true, pend := rest, fail := none }
    else
      let (t, c) := c.freeWait
      (c.modH w n fun h => { h with
        base := wk.base.setWidth 56, len := wk.len.setWidth 56, r := wk.r, w := wk.w
        valid := false, pages := [], walk := some wk, fail := none, pend := rest }).sched
        (c.now + t) bHost n (.probeWalkCompletion w n gen)
/-- PROBE_WALK_COMPLETION (R137, R138, R297, R298). -/
def execProbeWalkCompletion (w n : Nat) (s : State) : Out :=
  .next (s.modC fun c =>
    match ((c.weave w).handles.getD n Handle.reset).walk with
    | none => c
    | some wk =>
      match c.walkHandle (c.ctxOf w) wk.base wk.len wk.r wk.w with
      | (.error f, c) => c.modH w n fun h => { h with walk := none, valid := false, fail := some f }
      | (.ok ps, c) => c.modH w n fun h => { h with walk := none, valid := true, pages := ps, fail := none })
/-- `probew` (R138). -/
def execProbew (d : Reg) (h : HReg) (s : State) : Out :=
  .next <|
    let x := s.handle h
    if x.walking then
      s.hold 11 fun c => c.modW c.cur fun v => { v with walkWaited := some (v.walkWaited.getD c.now) }
    else if x.valid then
      (s.modW fun v => { v with walkWaited := none }).putS d 1 (word (s.now - s.wv.walkWaited.getD s.now))
    else
      let f := x.fail.getD ⟨0, 5, 0⟩
      (s.raise 0x05 (word (h.toNat + f.level * 16 + f.reason * 256)) f.va).modC fun c =>
        c.modW c.cur fun v => { v with walkWaited := none }
/-- `hrel` (R139). The handle's cached translations go with its valid bit, so that a later `probe` of the range walks (log 47). -/
def execHrel (h : HReg) (s : State) : Out :=
  .next (s.modC fun c => c.modH c.cur h.toNat fun x => { x with valid := false, pages := [] })

/-! ## `ldh` and `sth` (R140, R303, R304) -/

/-- HANDLE (R313). -/
def State.handleTrap (s : State) (n : Nat) (off : Word) : State := s.raiseFatal 0x06 (word n) off
/-- The row that an access through a handle reaches: its place, with its virtual address, or HANDLE (R140, R299). -/
def State.throughHandle (s : State) (h : HReg) (off : Word) (write : Bool) (f : GLoc → Nat → State → State) : State :=
  let x := s.handle h
  if !x.valid || decide (x.len.toNat ≤ off.toNat) || (if write then !x.w else !x.r) then s.handleTrap h.toNat off
  else
    let va := (x.base.toNat + off.toNat) / 8 * 8
    -- a walk at use leaves its translations and its A and D bits, also where it fails
    let walked (s : State) : State := s.modC fun c => (c.useHandle c.cur h.toNat va 8).2
    match (s.rd.useHandle s.core.cur h.toNat va 8).1 with
    | .error _ => walked (s.handleTrap h.toNat off)
    | .ok x' =>
      match findPage x'.pages va with
      | none => walked (s.handleTrap h.toNat off)
      | some p => f (p.loc va) va (walked s)
def gbufFind (g : List BufGlobal) (l : GLoc) : Option BufGlobal :=
  g.find? fun e => e.tgt == l.tgt && e.addr == l.addr && e.attr == l.attr
/-- `ldh` (R140): it holds issue until the data returns, and reads the weave's view then (R303). -/
def execLdh (d : Reg) (h : HReg) (a : Reg) (s : State) : Out :=
  .next <|
    if s.wv.timed then s.illegal 0
    else s.throughHandle h (s.sreg a) false fun l va s =>
      let idle (c : Core) : Core := c.modW c.cur fun v => { v with ldh := .none }
      match gbufFind s.wv.gbuf l with
      | some e =>
        -- a parity failure of the buffer is consumption (R376)
        let s := s.modC fun c => if (c.weave c.cur).bufBad.contains (1 + l.tgt, l.addr) then c.sched c.now bHost c.cur (.cancelAt c.cur 5 (unitCode ⟨0, secOf c.cur, c.cur % 4⟩) 0 false) else c
        (s.modC idle).putS d 1 e.val
      | none =>
        let w := s.core.cur
        let away := l.tgt == 2 && peerOk l.addr && !s.rd.ownModule l.addr
        let mine (r : PeerRead) : Bool := match r.src with | .ldh v => v == w | _ => false
        -- a read of another row than the bundle asks for now answers nothing
        let here (r : PeerRead) : Bool := mine r && r.addr == l.addr % 2 ^ 44 && r.dst == bits l.addr 55 44
        let ask (c : Core) : Core :=
          let c := { c with peerReads := c.peerReads.filter fun r => !mine r }.modW w fun v => { v with ldh := .asked }
          if away then
            let (c, ok) := c.askPeer (.ldh w) (c.ctxOf w) (secOf w) l.addr va 1
            if ok then c else
              (c.logEntry 0xFFFFFFFF 10 0 (c.tagOf (c.ctxOf w)) (word l.addr) (word va)).modW w fun v => { v with ldh := .failed }
          else
            let (t, c) := c.freeWait
            c.sched (c.now + t) bHost w (.ldhReturn w)
        match s.wv.ldh with
        | .asked => s.hold 0 id
        | .failed => (s.handleTrap h.toNat (s.sreg a)).modC fun c => c.modW c.cur fun v => { v with ldh := .none }
        | .none => s.hold 0 ask
        | .returned =>
          match s.rd.peerReads.find? fun r => here r && r.data.isSome with
          | some r =>
            ((s.modC fun c => { (idle c) with peerReads := c.peerReads.filter fun x => x.id != r.id })).putS d 1 (((r.data.getD []).headD 0))
          | none =>
            if away then s.hold 0 ask
            else
            let (res, c) := s.core.globalRead (s.core.ctxOf w) l va 8 (fun c => c.viewByte w) (some (unitCode ⟨0, secOf w, w % 4⟩))
            match res with
            | .bytes bs => ({ s with core := idle c }).putS d 1 (word (bytesNat bs))
            | _ =>
              let lg (c : Core) : Core := (c.globalRead (c.ctxOf w) l va 8 (fun c => c.viewByte w) (some (unitCode ⟨0, secOf w, w % 4⟩))).2
              (s.handleTrap h.toNat (s.sreg a)).modC fun c => lg (c.modW w fun v => { v with ldh := .none })
/-- The data of an `ldh` returns (R140). -/
def Core.ldhReturn (c : Core) (w : Nat) : Core :=
  c.modW w fun x => if x.ldh = .asked then { x with ldh := .returned } else x
/-- A walk at use takes time: it holds issue, as the read of an `ldh` does (R158, R299). -/
def State.walkHeld (s : State) (h : HReg) (off : Word) (f : State → State) : State :=
  let x := s.handle h
  let va := (x.base.toNat + off.toNat) / 8 * 8
  if !x.valid || decide (x.len.toNat ≤ off.toNat) || (findPage (x.pages.filter (·.permits x.r x.w)) va).isSome then f s
  else match s.wv.ldh with
    | .none =>
      s.hold 0 fun c =>
        let (t, c) := (c.modW c.cur fun v => { v with ldh := .asked }).freeWait
        c.sched (c.now + t) bHost c.cur (.ldhReturn c.cur)
    | .asked => s.hold 0 id
    | _ => f (s.modW fun v => { v with ldh := .none })
/-- `sth` (R140, R304). -/
def execSth (b : Reg) (h : HReg) (a : Reg) (s : State) : Out :=
  .next <|
    if s.wv.timed then s.illegal 0
    else s.walkHeld h (s.sreg a) fun s => s.throughHandle h (s.sreg a) true fun l va s =>
      let e : BufGlobal := ⟨l.tgt, l.addr, l.attr, va, s.sreg b⟩
      if (gbufFind s.wv.gbuf l).isSome then
        s.modW fun x => { x with
          bufBad := x.bufBad.filter fun b => b != (1 + l.tgt, l.addr)
          gbuf := x.gbuf.map fun g => if g.tgt = l.tgt ∧ g.addr = l.addr ∧ g.attr = l.attr then e else g }
      else if Config.bufferGlobals ≤ s.wv.gbuf.length then s.raise 0x0C 0 1
      else s.modW fun x => { x with gbuf := x.gbuf ++ [e] }

/-! ## Sequencer memory (R141) -/

/-- The row of a sequencer form (R141): in the SECTOR or PAIR window, with its window. -/
def State.seqReach (s : State) (g : Nat) (f : Win → Nat → State) : State :=
  match s.rd.generic s.core.cur g with
  | some (.loc, _) | none => s.windowTrap 0xFF g
  | some (x, off) =>
    -- an undeclared half, at either level
    if off < 0x3C0000 ∧ !s.rd.halfHeld s.core.cur off then s.windowTrap 0xFF g
    else match s.rd.reach s.core.cur 0 x off with
    | .window => s.windowTrap 0xFF g
    | .priv => s.privTrap (word g)
    | .row _ a => f x a
def State.seqAddr (s : State) (a : Reg) (off : BitVec 11) : Nat := (s.sreg a + off.signExtend 64 * 8).toNat
/-- `sld` (R141). -/
def execSld (d a : Reg) (off : BitVec 11) (s : State) : Out :=
  .next (s.seqReach (s.seqAddr a off) fun x row =>
    s.crossing [row] fun s =>
      let L := if x = .pair then 12 else 6
      (s.putS d L (s.rd.loadShared s.core.cur row)).modC fun c => c.loadsRows c.cur [row] (c.now + L))
/-- `sst` (R141): buffered. -/
def execSst (d a : Reg) (off : BitVec 11) (s : State) : Out :=
  .next (s.seqReach (s.seqAddr a off) fun _ row => s.storeRows [(0, false, row, s.sreg d, allOnes)])

/-! ## Launch records from device code (R142, R143, R410) -/

/-- Virtual address of a field of a context's record (R401, R408). -/
def Core.fieldVa (c : Core) (ctx rec f : Nat) : Nat := ((c.ctx ctx).words.getD 2 0).toNat + 512 * rec + 8 * f
/-- A word of a peer page for the operation under way: what its answer gave, or, until it is there, one that the operation is held
for (log 62). -/
def Core.peerWord (c : Core) (ctx addr va : Nat) : Option Word × Core :=
  match c.cpOp with
  | none => (none, c)
  | some op => match c.cpWords.find? fun x => x.op == op && x.addr == addr with
    | some x => (x.val.getD (some 0), c)
    | none => (some 0, { c with cpWords := c.cpWords ++ [⟨op, ctx, addr, va, none, none⟩] })
/-- A word of a place, as the command processor reads it. -/
def Core.readAt (c : Core) (ctx : Nat) (l : GLoc) (va : Nat) : Option Word × Core :=
  match c.globalRead ctx l va 8 Core.memByte none with
  | (.bytes bs, c) => (some (word (bytesNat bs)), c)
  | (.failed, c) => (none, c)
  | (.peer, c) => c.peerWord ctx l.addr va
/-- A word of a context's memory as the command processor reads it. -/
def Core.readWord (c : Core) (ctx va : Nat) : Option Word × Core :=
  match c.place ctx va false with
  | (none, c) => (none, c)
  | (some l, c) => c.readAt ctx l va
/-- An operation that was held for words of peer pages runs once they are all there; what it has not taken two cycles later is read anew. -/
def Core.wakeOp (c : Core) (op : Act) : Core :=
  match c.cpWords.filter fun x => x.op == op with
  | [] => c
  | x :: xs =>
    if (x :: xs).any fun y => y.val.isNone then c
    else (c.sched c.now bCp 0 op).sched (c.now + 2) bCp 0 (.dropWords (x.id.getD 0))
/-- The words of an operation that has not taken them are gone. -/
def Core.dropWords (c : Core) (id : Nat) : Core :=
  match c.cpWords.find? fun x => x.id == some id with
  | none => c
  | some x => { c with cpWords := c.cpWords.filter fun y => y.op != x.op || y.val.isNone }
/-- Peer modules are asked for words; one that no port leads to has failed (R442). -/
def Core.askWords (c : Core) : List CpWord → Core
  | [] => c
  | x :: xs =>
    let (id, c) := c.fresh
    let (c, ok) := c.askPeer (.cp id) x.ctx 0 x.addr x.va 1
    let c := { c with cpWords := c.cpWords ++ [{ x with id := some id, val := if ok then none else some none }] }
    (if ok then c else c.logEntry 0xFFFFFFFF 10 0 (c.tagOf x.ctx) (word x.addr) (word x.va)).askWords xs
/-- An operation that may read words of peer pages: none, with nothing of it done but its requests, until they are all there; then
what it does (log 62). -/
def Core.withPeer {α : Type} (c : Core) (op : Act) (f : Core → α × Core) : Option α × Core :=
  let (x, d) := f { c with cpOp := some op }
  let mine (y : CpWord) : Bool := y.op == op
  if d.cpWords.any fun y => mine y && y.val.isNone then
    let want := d.cpWords.filter fun y => mine y && y.id.isNone
    (none, if want.isEmpty then c else (c.askWords want).wakeOp op)
  else (some x, { d with cpOp := c.cpOp, cpWords := d.cpWords.filter fun y => !mine y })
/-- The answer to a request for a word: none where the read has failed. -/
def Core.gotWord (c : Core) (id : Nat) (v : Option Word) : Core :=
  match c.cpWords.find? fun x => x.id == some id && x.val.isNone with
  | none => c
  | some x => { c with cpWords := c.cpWords.map fun (y : CpWord) => if y.id = some id then { y with val := some v } else y }.wakeOp x.op
/-- A field of a record as the weave's `lpatch` or `larm` reads it: none until a peer module has answered, none inside where it cannot be
reached (R142, R143). -/
def Core.recordWord (c : Core) (ctx rec f : Nat) : Option (Option Word) × Core :=
  c.withPeer (.peerWord c.cur) fun c => c.readWord ctx (c.fieldVa ctx rec f)
/-- A word written to a context's memory at module scope; false where it cannot be. -/
def Core.writeWord (c : Core) (ctx va : Nat) (x : Word) : Bool × Core :=
  match c.place ctx va true with
  | (none, c) => (false, c)
  | (some l, c) =>
    let (c, ok) := c.globalWrite ctx 0 l va (natBytes 8 x.toNat) 4 0 0 none false
    (ok, c)
/-- The record is armed and not yet fetched (R142). -/
def Core.armedRec (c : Core) (ctx rec : Nat) : Bool :=
  c.queues.any fun (_, q) => bits q.qcfg.toNat 29 24 == ctx && q.armed.any fun p => p.1 == rec
def State.recordTrap (s : State) (rec field : Nat) : State := s.raiseFatal 0x06 (word (2 ^ 63 + rec)) (word field)
/-- `lpatch` (R142). -/
def execLpatch (a b : Reg) (field : BitVec 6) (s : State) : Out :=
  .next <|
    let r := (s.sreg a).toNat
    let f := field.toNat
    let ctx := s.rd.ctxOf s.core.cur
    if 4095 < r then s.illegal 0
    else
      -- the walks leave their A and D bits whatever comes of the instruction (R298)
      let walked (c : Core) : Core := (c.recordWord ctx r 29).2
      match (s.rd.recordWord ctx r 29).1 with
      | none => s.hold 12 walked
      | some none => (s.recordTrap r f).modC walked
      | some (some mask) =>
        if f = 0 ∨ f = 29 ∨ !bitAt mask.toNat f then (s.illegal 0).modC walked
        else if s.rd.armedRec ctx r then s.hold 12 walked
        else match (walked s.core).writeWord ctx (s.rd.fieldVa ctx r f) (s.sreg b) with
          | (false, _) => (s.recordTrap r f).modC fun c => ((walked c).writeWord ctx (c.fieldVa ctx r f) (s.sreg b)).2
          | (true, c) => ({ s with core := c }).setAtom
/-- Ring entries of a queue (R403). -/
def Queue.ringSize (q : Queue) : Nat := 2 ^ (min (q.qcfg.toNat % 16) 8 + 4)
def Queue.ctx (q : Queue) : Nat := bits q.qcfg.toNat 29 24
/-- The queue's stored TAIL and HEAD are 28-bit indexes (R403, R439). -/
def Queue.fill (q : Queue) : Nat := (q.tail + 2 ^ 28 - q.head) % 2 ^ 28
/-- `larm` (R143, R404): a LAUNCH entry with ORD = 1. Where the ring's memory cannot be written, the entry's words are lost and
TAIL advances all the same (log 48). -/
def execLarm (a : Reg) (s : State) : Out :=
  .next <|
    let r := (s.sreg a).toNat
    let ctx := s.rd.ctxOf s.core.cur
    if 4095 < r then s.illegal 0
    else match s.core.recordWord ctx r 0 with
      | (none, _) => s.hold 12 fun c => (c.recordWord ctx r 0).2
      | (some none, _) => (s.recordTrap r 0).modC fun c => (c.recordWord ctx r 0).2
      | (some (some ctrl), c) =>
        let n := ctrl.toNat % 128
        let q := c.queue n
        if q.ringSize ≤ q.fill then s.hold 12 fun c => (c.recordWord ctx r 0).2
        else
          let at_ := q.qbase.toNat + 32 * (q.tail % q.ringSize)
          let put (c : Core) (i : Nat) (x : Word) : Core := (c.writeWord q.ctx (at_ + 8 * i) x).2
          let c := put (put (put (put c 0 (word (1 + 256 + r * 2 ^ 16))) 1 0) 2 0) 3 0
          let c := c.modQ n fun q => { q with tail := (q.tail + 1) % 2 ^ 28, armed := q.armed ++ [(r, q.tail)] }
          ({ s with core := c.sched c.now bCp n .dispatch }).setAtom

/-! ## Traps and predicate summaries (R144, R146) -/

/-- `trap` (R144). -/
def execTrap (code : BitVec 16) (s : State) : Out := .next (s.raiseAt 0x14 s.core.iss.slot code.toNat 0 0 false)
/-- `vany` (R146). -/
def execVany (d : Reg) (k : KReg) (s : State) : Out := .next (s.putS d 9 (if allLanes.any (s.kreg k) then 1 else 0))
/-- `vall` (R146). -/
def execVall (d : Reg) (k : KReg) (s : State) : Out := .next (s.putS d 9 (if allLanes.all (s.kreg k) then 1 else 0))

/-! ## Small system instructions -/

/-- `clkdiv` (R152). -/
def execClkdiv (unit div1 : BitVec 3) (s : State) : Out :=
  .next (s.modW fun x => { x with
    pendDiv := (x.pendDiv.zip (List.range 3)).map fun (d, i) => if unit = 3 ∨ unit.toNat = i then some (div1.toNat + 1) else d })
/-- `fmtw` (R153). -/
def execFmtw (idx : BitVec 6) (a : Reg) (s : State) : Out :=
  .next (s.modW fun x => { x with fmt := x.fmt.set idx.toNat ((s.sreg a).setWidth 32) })
/-- `hinv` (R155): every weave of the context drops the page at its next phase boundary. The page is the one that the tables map as the
instruction issues; where they map none, one of 64 KiB (log 47). -/
def execHinv (a : Reg) (s : State) : Out :=
  .next <|
    if !s.wv.priv then s.privTrap 0
    else
      let va := (s.sreg a).toNat
      s.modC fun c =>
        let ctx := c.ctxOf c.cur
        let size := match c.walkPage ctx va false false with
          | .page p _ => p.size
          | .fail _ _ => 65536
        let ws := c.launches.flatMap fun (_, l) => if l.ctx = ctx then l.weaves else []
        ws.foldl (fun c w => c.modW w fun x => { x with pendHinv := x.pendHinv ++ [(va, size, c.cur)] }) c
/-- `bswap` (R156): a preload on the launch's sectors is discarded (R419). -/
def execBswap (s : State) : Out :=
  .next ((s.modW fun x => { x with pendBswap := true }).modC fun c =>
    match (c.weave c.cur).launch with
    | some n => c.dropPreloadOf n
    | none => c)
/-- `nop` (R157). -/
def execNop (s : State) : Out := .next s
/-- `wfe` (R157): a throttle event is a user event too (R473). -/
def execWfe (s : State) : Out :=
  .next <|
    if s.wv.timed then s.illegal 0
    else if (s.wv.events.all fun p => s.now ≤ p.2) && s.wv.throttle.isNone && !s.wv.preempt then s.hold 0 id
    else s

end Sys2Proof.Machine
end

