-- ==== Sys2Proof/Machine/Tensor.lean ====
section
/-! DEFINITION. Tensor handle descriptors (R352 to R354): where a tensor's bytes lie, and its elements. -/
namespace Sys2Proof.Machine

/-! ## Fields of a descriptor, a list of eight words -/

def tWord (d : List Word) (i : Nat) : Nat := (d.getD i 0).toNat
def tValid (d : List Word) : Bool := bitAt (tWord d 0) 63
def tFmt (d : List Word) : Nat := bits (tWord d 0) 62 58
def tDims (d : List Word) : Nat := bits (tWord d 0) 57 56 + 1
def tDist (d : List Word) : Nat := bits (tWord d 0) 55 54
def tOwner (d : List Word) : Nat := bits (tWord d 0) 53 52
def tRlen (d : List Word) : Nat := bits (tWord d 0) 33 17
def tBase (d : List Word) : Nat := bits (tWord d 0) 16 0
/-- Extent of a dimension. -/
def tExt (d : List Word) (i : Nat) : Nat := bits (tWord d 1) (16 * i + 15) (16 * i) + 1
/-- Stride of a dimension in elements. -/
def tStride (d : List Word) (i : Nat) : Nat := if i = 0 then 1 else tWord d (1 + i)
/-- Towers that hold the tensor (R353). -/
def tTowers (d : List Word) : Nat := if tDist d = 0 then 8 else 32

/-! ## Places (R353) -/

/-- Linear index of an element. -/
def tLinear (d : List Word) (co : List Nat) : Nat :=
  (List.range 4).foldl (fun acc i => acc + tStride d i * co.getD i 0) 0
/-- Byte offset of an element: of its byte for INT4, of its unit for a block format. -/
def tByte (d : List Word) (lin : Nat) : Nat :=
  let f := tFmt d
  if isBlock f then lin / unitElems f * unitBytes f else lin * codeBits f / 8
/-- The tower, as weave in the sector and logical cell, and the tower row that hold a tensor row. -/
def tPlace (d : List Word) (r : Nat) : Nat × Nat × Nat :=
  let n := tTowers d
  let i := r % n
  (if tDist d = 0 then tOwner d else i / 8, i % 8, tBase d + r / n)
/-- Tower address of a tensor row (R339). -/
def rowTaddr (t : Nat) : Nat := 0x100000 + 128 * t
/-- Flat address of a byte of a tensor. -/
def Core.tFlat (c : Core) (sec : Nat) (d : List Word) (b : Nat) : Nat :=
  let (w, cell, t) := tPlace d (b / 128)
  c.towerFlat (c.towerKey (4 * sec + w) cell) (rowTaddr t + b % 128)
/-- The byte lies in a bank that has been evacuated or spilled (R357, R351). -/
def Core.tAway (c : Core) (sec : Nat) (d : List Word) (b : Nat) : Bool :=
  let (w, cell, t) := tPlace d (b / 128)
  c.bankAway (c.towerKey (4 * sec + w) cell) (rowTaddr t)
/-- The byte lies in a spilled bank (R351). -/
def Core.tSpilled (c : Core) (sec : Nat) (d : List Word) (b : Nat) : Bool :=
  let (w, cell, t) := tPlace d (b / 128)
  (mget? (c.tower (c.towerKey (4 * sec + w) cell)).spilled (rowTaddr t / 2 ^ 20)).isSome
/-- A byte of a tensor. -/
def Core.tGet (c : Core) (sec : Nat) (d : List Word) (b : Nat) : Nat := (memGet c.mem (c.tFlat sec d b)).toNat

/-! ## Validity (R354) -/

/-- Bank `bank` of a tower is short (R347). -/
def Core.bankShort (c : Core) (key bank : Nat) : Bool :=
  (List.range 4).any fun i => (c.subArray key (4 * bank + i)).isNone
/-- Bank `bank` of a tower holds another tower's evacuated data (R356). -/
def Core.bankOccupied (c : Core) (key bank : Nat) : Bool :=
  c.towers.any fun (_, t) => (t.evac.any fun (_, x) => x.tower == key && x.bank == bank) ||
    t.moving.any fun (_, m) => m.kind == .evacuate && m.target.tower == key && m.target.bank == bank
/-- The last byte of a tensor (R354). -/
def tLast (d : List Word) : Nat :=
  let lin := tLinear d ((List.range 4).map fun i => tExt d i - 1)
  let f := tFmt d
  tByte d lin + (if isBlock f then unitBytes f else if f = 9 then 1 else codeBits f / 8) - 1
/-- The banks of the towers that a descriptor covers, as tower key and bank. -/
def Core.tBanks (c : Core) (sec : Nat) (d : List Word) : List (Nat × Nat) :=
  let lo := rowTaddr (tBase d) / 2 ^ 20
  let hi := rowTaddr (tBase d + max (tRlen d) 1 - 1) / 2 ^ 20
  (List.range (tTowers d)).flatMap fun i =>
    let w := if tDist d = 0 then tOwner d else i / 8
    (List.range (hi + 1 - lo)).map fun b => (c.towerKey (4 * sec + w) (i % 8), lo + b)
/-- A descriptor that may be used (R354). -/
def Core.tOk (c : Core) (sec : Nat) (d : List Word) : Bool :=
  let f := tFmt d
  let n := tDims d
  tValid d && bits (tWord d 0) 51 34 == 0 && tWord d 5 == 0 && tWord d 6 == 0 && tWord d 7 == 0 &&
  (List.range 4).all (fun i => i < n || (tExt d i == 1 && (i == 0 || tStride d i == 0))) &&
  codeOk f && tDist d < 2 &&
  (!isBlock f || (tExt d 0 % unitElems f == 0 && (List.range n).all fun i => i == 0 || tStride d i % unitElems f == 0)) &&
  tBase d + tRlen d ≤ 122880 && tLast d / 128 / tTowers d < tRlen d &&
  !(c.tBanks sec d).any fun (k, b) => c.bankShort k b || c.bankOccupied k b

/-- The descriptor of a tensor handle number. -/
def Core.tEntry (c : Core) (sec t : Nat) : List Word := mget (c.sector sec).thandles t (List.replicate 8 0)

/-! ## Regions (R243) -/

/-- Flat 8-byte rows of the region that a descriptor reserves, in tower and row order. -/
def Core.tRegion (c : Core) (sec : Nat) (d : List Word) : List Nat :=
  (List.range (tTowers d)).flatMap fun i =>
    let w := if tDist d = 0 then tOwner d else i / 8
    let key := c.towerKey (4 * sec + w) (i % 8)
    (List.range (16 * tRlen d)).map fun r => c.towerFlat key (rowTaddr (tBase d) + 8 * r)
/-- Bytes of the region. -/
def tRegionBytes (d : List Word) : Nat := tTowers d * tRlen d * 128
/-- The regions of two handles exchange their rows, and their entries their base rows: each handle addresses the same
data as before, through entries that jobs and the MXA have captured too (R243). Poison and arrived flags go with the rows. -/
def Core.swapRegions (c : Core) (sec t1 t2 : Nat) : Core :=
  let d1 := c.tEntry sec t1
  let d2 := c.tEntry sec t2
  let rows := (c.tRegion sec d1).zip (c.tRegion sec d2)
  let f (a : Nat) : Nat :=
    match rows.find? fun p => p.1 == a || p.2 == a with
    | some p => if p.1 = a then p.2 else p.1
    | none => a
  let base (d : List Word) (b : Nat) : List Word := d.set 0 (setBits (d.getD 0 0) 16 0 b)
  let e1 := base d1 (tBase d2)
  let e2 := base d2 (tBase d1)
  let entry (t : Nat) (d : List Word) : List Word := if t = t1 ∧ d = d1 then e1 else if t = t2 ∧ d = d2 then e2 else d
  let jobs (js : List Job) : List Job := js.map fun (j : Job) =>
    if j.weave / 4 = sec then
      { j with rows := j.rows.map f, cap := { j.cap with tensors := j.cap.tensors.map fun (t, d) => (t, entry t d) } }
    else j
  let stream (x : MxStream) : MxStream := { x with entry := entry x.t x.entry }
  let c' := rows.foldl (fun (k : Core) (x, y) => (k.writeRow x (c.row y) allOnes none).writeRow y (c.row x) allOnes none) c
  let late := (rows.flatMap fun (x, y) => [x, y]).filter fun a => !c.rowArrived a
  let c' := late.foldl (fun k a => k.clearArrived (f a)) (late.foldl (fun k a => k.setArrived a) c')
  { c' with
    poison := c.poison.map f
    flips := c.flips.map fun (x : Flip) => { x with row := f x.row }
    copies := c'.copies.map fun ((k, q) : Nat × CopyQueue) => (k, { q with jobs := jobs q.jobs })
    sectors := (c'.modSec sec fun x => { x with
      thandles := mset (mset x.thandles t1 e1) t2 e2
      engines := x.engines.map fun es => es.map fun e => { e with jobs := jobs e.jobs }
      mxa := { x.mxa with a := x.mxa.a.map stream, b := x.mxa.b.map stream } }).sectors }

end Sys2Proof.Machine
end

