-- ==== Sys2Proof/Machine/Jobs.lean ====
section
/-! DEFINITION. Job queues of the pool engines and the copy engines (R229 to R234): entry, start, completion, drops; and
the parameter stacks of the ports (R92). -/
namespace Sys2Proof.Machine

/-! ## Queues -/

def Core.eng (c : Core) (sec kind idx : Nat) : Engine := ((c.sector sec).engines.getD kind []).getD idx Engine.reset
def Core.modEng (c : Core) (sec kind idx : Nat) (f : Engine → Engine) : Core :=
  c.modSec sec fun x => { x with engines := lmod x.engines kind fun es => lmod es idx f }
def copyKey (w : Nat) (store : Bool) : Nat := 2 * w + bnat store
def Core.jobsOf (c : Core) : EngId → List Job
  | .pool s k i => (c.eng s k i).jobs
  | .copy w st => (mget c.copies (copyKey w st) ⟨[]⟩).jobs
def Core.setJobs (c : Core) (e : EngId) (js : List Job) : Core :=
  match e with
  | .pool s k i => c.modEng s k i fun x => { x with jobs := js }
  | .copy w st => { c with copies := mset c.copies (copyKey w st) ⟨js⟩ }
def Core.modJob (c : Core) (e : EngId) (id : Nat) (f : Job → Job) : Core :=
  c.setJobs e ((c.jobsOf e).map fun j => if j.id = id then f j else j)
def Core.job? (c : Core) (e : EngId) (id : Nat) : Option Job := (c.jobsOf e).find? fun j => j.id == id
def engSector : EngId → Nat
  | .pool s _ _ => s
  | .copy w _ => secOf w
/-- CPE0, CPE1, then ascending kind and instance (R231). -/
def engRank : EngId → Nat
  | .copy w st => w % 4 * 2 + bnat st
  | .pool _ kind idx => 32 + kind * 2 + idx
def queueRoom : EngId → Nat
  | .pool _ _ _ => 16
  | .copy _ _ => 32
/-- Every queue of a sector. -/
def sectorQueues (sec : Nat) : List EngId :=
  ((List.range 4).flatMap fun w => [EngId.copy (4 * sec + w) false, .copy (4 * sec + w) true]) ++
  (List.range 6).flatMap fun k => (List.range (Config.unitsOf k)).map fun i => .pool sec k i
def Core.sectorJobs (c : Core) (sec : Nat) : List Job := (sectorQueues sec).flatMap c.jobsOf
/-- The queue that a port's words enter (R37, R234): op 3 and op 5 of the copy engine are outbound. -/
def Core.portQueue (c : Core) (w p op : Nat) : EngId :=
  if p = 3 then .copy w (op == 3 || op == 5)
  else
    let x := (c.weave w).ports.getD p Port.reset
    .pool (secOf w) x.kind x.inst
/-- The queue that holds a job of a weave. -/
def Core.queueOf (c : Core) (w id : Nat) : Option EngId :=
  (sectorQueues (secOf w)).find? fun e => (c.jobsOf e).any fun j => j.id == id

/-- An argument of a job's word. -/
def Job.arg (j : Job) (i : Nat) : Word := j.args.getD i 0
/-- A waiting head tests its conditions in this cycle. -/
def Core.kick (c : Core) (e : EngId) : Core := c.sched c.now bMark (engRank e) (.jobStart e)
def Core.kickSector (c : Core) (sec : Nat) : Core :=
  (sectorQueues sec).foldl (fun c e =>
    match (c.jobsOf e).head? with
    | some j => if j.started.isNone then c.kick e else c
    | none => c) c
/-- A waiting engine leaves a semaphore's wait order. -/
def Core.dropEngWaiter (c : Core) (e : EngId) : Core :=
  c.modSec (engSector e) fun x => { x with sems := x.sems.map fun (n, y) =>
    (n, { y with waiters := y.waiters.filter fun z => match z with | .job f _ => f != e | _ => true }) }
/-- A TXS whose `tx.go` has ended fetches and waits no more. -/
def Core.stopTxs (c : Core) (e : EngId) : Core :=
  match e with
  | .pool s _ i =>
    (c.unsched fun a => a == .txs s i).modSec s fun x => { x with sems := x.sems.map fun (n, y) =>
      (n, { y with waiters := y.waiters.filter fun z => match z with | .txs _ u _ => u != i | _ => true }) }
  | .copy _ _ => c
/-- A launch whose weaves have all halted may be complete (R418): it is tested in this cycle. -/
def Core.testLaunch (c : Core) (n : Nat) : Core :=
  match c.launch? n with
  | some l => if l.weaves.all fun w => l.halted.contains w || l.parked.contains w then c.sched c.now bCp n (.launchCompletion n) else c
  | none => c
/-- `cp.swp` (R243). -/
def Job.swaps (j : Job) : Bool := j.kind == 6 && j.op == 0x3F
/-- A job has ended: a cancelled phase that waits for it re-runs 16 cycles after the last (R327 step 7). -/
def Core.jobEnded (c : Core) (j : Job) : Core :=
  match (c.weave j.weave).rerun with
  | some ids =>
    let rest := ids.filter (· != j.id)
    let c := c.modW j.weave fun x => { x with rerun := some rest }
    if rest.isEmpty ∧ ids.contains j.id then c.sched (c.now + 16) bHost j.weave (.phaseRerun j.weave) else c
  | none => c
/-- The rows that a job has not written, and that no other entered job is going to write, have their arrived flags set
(R241). -/
def Core.releaseRows (c : Core) (j : Job) (sec : Nat) : Core :=
  let others := ((c.sectorJobs sec ++ c.sectorJobs (partner sec)).filter fun x => x.id != j.id && decide (x.entered ≤ c.now)).flatMap (·.rows)
  j.rows.foldl (fun c r => if others.contains r then c else c.setArrived r) c
/-- Take a job out of its queue; what waits on it is tested: the next job, ring lanes, a drain, a launch. -/
def Core.removeJob (c : Core) (e : EngId) (id : Nat) : Core :=
  match c.job? e id with
  | none => c
  | some j =>
    let head := ((c.jobsOf e).head?.map (·.id)) == some id
    let c := c.setJobs e ((c.jobsOf e).filter fun j => j.id != id)
    let c := c.unsched fun a => a == .jobStep e id || a == .jobHeld e id || a == .mxEmit e id || a == .jobCompletion e id || a == .launchWordEntry j.weave id
    let c := if head then c.dropEngWaiter e else c
    let c := if j.kind = 2 ∧ j.op = 1 then c.stopTxs e else c
    let c := (((c.releaseRows j (engSector e)).kickSector (engSector e)).testLaunch j.launch).jobEnded j
    match e with
    | .pool s k i =>
      let x := c.eng s k i
      if x.draining.isSome ∧ x.jobs.isEmpty then c.sched c.now bAfter (engRank e) (.drainEnd s k i) else c
    | .copy _ _ => c
/-- Drop a job: its signal semaphore gets AB := 1 and no count (R228, R232). -/
def Core.dropJob (c : Core) (e : EngId) (id : Nat) : Core :=
  match c.job? e id with
  | none => c
  | some j => (if j.suppress then c else c.abortSem (engSector e) j.sig).removeJob e id
def Core.dropJobs (c : Core) (e : EngId) (p : Job → Bool) : Core :=
  ((c.jobsOf e).filter p).foldl (fun c j => c.dropJob e j.id) c

/-! ## Ring lanes (R233) -/

/-- A job has a lane: it has taken it at its start, or its word has named it and has entered its queue. -/
def Job.reserves (j : Job) (now L : Nat) : Bool := j.lanes.contains L || (decide (j.entered ≤ now) && j.rings.contains L)
/-- Lane L is reserved for another job of the sector, one that has taken it or has entered earlier. -/
def Core.laneTaken (c : Core) (sec : Nat) (j : Job) (L : Nat) : Bool :=
  (c.sectorJobs sec).any fun x => x.id != j.id && x.reserves c.now L &&
    (x.lanes.contains L || decide (x.entered < j.entered) || (x.entered == j.entered && decide (x.id < j.id)))
/-- Lane L is reserved for a job (R20). -/
def Core.laneHeld (c : Core) (sec L : Nat) : Bool := (c.sectorJobs sec).any fun j => j.reserves c.now L
/-- The lanes that a job's words take: named ones, or the lowest free lane for 16. -/
def Core.takeLanes (c : Core) (sec : Nat) (j : Job) : List Nat → List Nat → Option (List Nat)
  | [], acc => some acc
  | 16 :: rest, acc =>
    match (List.range 16).find? fun L => !c.laneHeld sec L && !acc.contains L with
    | some L => c.takeLanes sec j rest (acc ++ [L])
    | none => none
  | L :: rest, acc => if c.laneTaken sec j L then none else c.takeLanes sec j rest (acc ++ [L])

/-! ## Entry, start, completion -/

/-- An `mx.mm` of the DX kind. -/
def Job.isDx (j : Job) : Bool :=
  let sf := fdSF (j.cap.fmts.headD 0)
  j.kind == 0 && j.op == 3 && decide (0x0A ≤ sf) && decide (sf ≤ 0x0C)
/-- The lanes that a job starts with (R233): an `mx.mm` that emits has the lane of the `mx.ps` in force (R244). -/
def Core.startRings (c : Core) (e : EngId) (j : Job) : List Nat :=
  if j.isDx then
    let m := (c.sector (engSector e)).mxa
    j.rings.take 2 ++ (if 128 ≤ m.kacc % 128 + ((j.arg 0).toNat - m.resume) then (m.emit.map (·.ring)).toList else [])
  else j.rings
/-- A `tx.stop` at the head of its queue waits while an instruction of the running `tx.go` is under way, but not for a `twait`
that is not served (R284). -/
def Core.stopWaits (c : Core) (e : EngId) (j : Job) : Bool :=
  match e, (c.jobsOf e).find? fun x => x.op == 1 && x.started.isSome with
  | .pool s 2 i, some go =>
    let x := c.sector s
    let waits : Bool := x.sems.any fun p => p.2.waiters.any fun z => match z with | .txs _ u _ => u == i | _ => false
    j.op == 2 && go.done != 0 && !waits &&
      (decide (c.now < (x.txs.getD i Txs.reset).busyTo) ||
        c.agenda.any fun y => y.act == .txs s i || y.act == .jobStep e go.id || y.act == .jobHeld e go.id || y.act == .jobCompletion e go.id)
  | _, _ => false

/-- An `mx.sv` NOW at the head of its queue waits for the emission that a running `mx.mm` has under way (R252). -/
def Core.saveWaits (c : Core) (e : EngId) (j : Job) : Bool :=
  j.kind == 0 && (c.jobsOf e).any fun x => x.id != j.id && x.started.isSome
/-- A debugger has halted the job's weave, or its timed launch (R335): no job starts. -/
def Core.frozenBy (c : Core) (j : Job) : Bool :=
  (c.weave j.weave).dbg.halted.isSome
/-- JOB_START (R231): the head's wait, then its ring lanes; the engine's first step follows in the same cycle.
AB counts at each test while the head waits, and not only when it reaches the head (log 71). -/
def execJobStart (e : EngId) (s : State) : Out :=
  .next (s.modC fun c =>
    let sec := engSector e
    match (c.jobsOf e).head? with
    | none => c
    | some j =>
      if j.started.isSome ∨ c.now < j.entered ∨ c.frozenBy j ∨ c.stopWaits e j ∨ c.saveWaits e j then c
      else if j.wait < 256 ∧ !j.served then
        if (c.sem sec j.wait).ab then c.dropJob e j.id
        else if (c.sem sec j.wait).waiters.any fun z => match z with | .job f _ => f == e | _ => false then c
        else (c.addWaiter sec j.wait (.job e c.now)).serviceSem sec j.wait
      else match c.takeLanes sec j (c.startRings e j) [] with
        | none => c
        | some ls =>
          (c.modJob e j.id fun x => { x with started := some c.now, lanes := ls }).sched c.now bAfter (engRank e) (.jobStep e j.id))
/-- Restart of a job that the refill of a cancelled phase runs again, and of one that its engine resumes. -/
def Core.stepAt (c : Core) (e : EngId) (id at_ : Nat) : Core := c.sched at_ bEngine (engRank e) (.jobStep e id)
/-- A job's step at a cycle that no engine clock counts (R152): where it is held, or when what it has asked for comes. -/
def Core.heldTo (c : Core) (e : EngId) (id at_ : Nat) : Core := c.sched at_ bEngine (engRank e) (.jobHeld e id)
/-- The engine has made the job's last write in a cycle: it completes in the next (R231). -/
def Core.finishAt (c : Core) (e : EngId) (id at_ : Nat) : Core := c.sched at_ bEngine (engRank e) (.jobCompletion e id)

/-- The completion signals of jobs launched in the phase that have landed (R326). -/
def Weave.landed (wv : Weave) (n : Nat) : Weave :=
  match mget? wv.consumed n with
  | some x => { wv with consumed := mset wv.consumed n { x with landed := x.landed + 1 } }
  | none => if wv.consumed.length < 16 then { wv with consumed := mset wv.consumed n ⟨0, 1⟩ } else wv
def Weave.ofPhase (wv : Weave) (j : Job) : Bool := decide ((wv.ckpt.map (·.jobMark)).getD 0 ≤ j.mark)
/-- Kinds of words that fill rows: `cp.gt`, `cp.gs` and `cp.bc` are logged for refill (R328). -/
def Job.refills (j : Job) : Bool := j.kind == 6 && (j.op == 1 || j.op == 4 || j.op == 6)
/-- JOB_COMPLETION (R231): the signal, a release at sector scope, then the refill log. -/
def Core.completeJob (c : Core) (e : EngId) (id : Nat) : Core :=
  match c.job? e id with
  | none => c
  | some j =>
    let c := if j.suppress ∨ 255 < j.sig then c
      else (c.signalSem (engSector e) j.sig 1).modW j.weave fun x => if x.ofPhase j then x.landed j.sig else x
    let c := if j.refills && !j.refetch then
        c.modW j.weave fun x => { x with refill := (x.refill ++ [(⟨j⟩ : RefillEntry)]).drop (x.refill.length + 1 - 8) }
      else c
    let c := if j.swaps then c.swapRegions (engSector e) (j.args.getD 1 0).toNat (j.args.getD 2 0).toNat else c
    c.removeJob e id
def execJobCompletion (e : EngId) (id : Nat) (s : State) : Out := .next (s.modC fun c => c.completeJob e id)

/-! ## Ports (R37, R92, R225) -/

def Weave.port (wv : Weave) (p : Nat) : Port := wv.ports.getD p Port.reset
def Core.modPort (c : Core) (w p : Nat) (f : Port → Port) : Core :=
  c.modW w fun x => { x with ports := lmod x.ports p f }
/-- The engine-grant condition of a class G syllable (R20, R88, R91). -/
def State.granted (s : State) (p : Nat) (f : Port → State) : State :=
  let x := s.wv.port p
  if x.kind = 7 then s.engJob p 1 0
  else if !x.g || x.rep.isSome then s.hold 2 id
  else f x
/-- ENGSTACK (R313). -/
def State.engStack (s : State) (p : Nat) : State := s.raise 0x0E (word (p + (s.wv.port p).stack.length * 256)) 0
/-- A `rep` whose G word is no OP word raises ILLEGAL on the lead syllable (R87). -/
def State.noRep (s : State) (f : State → State) : State :=
  if s.core.iss.rep.isSome then s.raiseAt 0x01 s.core.iss.repSlot 0 (s.core.iss.repWord.setWidth 64) 0 false else f s
/-- A stack word (R92): the new stack, its top first, or none where its needs are not met. -/
def State.stackWord (s : State) (p : Sys2Proof.Port) (f : List Word → Option (List Word)) : State :=
  s.noRep fun s => s.granted p.toNat fun x =>
    match f x.stack with
    | none => s.engStack p.toNat
    | some st => s.modC fun c => c.modPort c.cur p.toNat fun y => { y with stack := st }
/-- PUSH onto at most 7 entries. -/
def pushWord (v : Word) (st : List Word) : Option (List Word) := if st.length ≤ 7 then some (v :: st) else none
def execPush (p : Sys2Proof.Port) (imm : BitVec 14) (s : State) : Out := .next (s.stackWord p (pushWord (imm.signExtend 64)))
def extWord (v : Word) : List Word → Option (List Word)
  | x :: st => some ((x * 16384 + v) :: st)
  | [] => none
def execExt (p : Sys2Proof.Port) (imm : BitVec 14) (s : State) : Out := .next (s.stackWord p (extWord (imm.setWidth 64)))
def dupWord : List Word → Option (List Word)
  | x :: st => if st.length ≤ 6 then some (x :: x :: st) else none
  | [] => none
def execDup (p : Sys2Proof.Port) (s : State) : Out := .next (s.stackWord p dupWord)
def dropWord : List Word → Option (List Word)
  | _ :: st => some st
  | [] => none
def execDrop (p : Sys2Proof.Port) (s : State) : Out := .next (s.stackWord p dropWord)
def swapWord : List Word → Option (List Word)
  | y :: x :: st => some (x :: y :: st)
  | _ => none
def execSwap (p : Sys2Proof.Port) (s : State) : Out := .next (s.stackWord p swapWord)
def overWord : List Word → Option (List Word)
  | y :: x :: st => if st.length ≤ 5 then some (x :: y :: x :: st) else none
  | _ => none
def execOver (p : Sys2Proof.Port) (s : State) : Out := .next (s.stackWord p overWord)
def rotWord : List Word → Option (List Word)
  | z :: y :: x :: st => some (x :: z :: y :: st)
  | _ => none
def execStackRot (p : Sys2Proof.Port) (s : State) : Out := .next (s.stackWord p rotWord)
def execClr (p : Sys2Proof.Port) (s : State) : Out := .next (s.stackWord p fun _ => some [])
def execPushs (p : Sys2Proof.Port) (n : Reg) (s : State) : Out := .next (s.stackWord p (pushWord (s.sreg n)))
/-- `setstr` (R92): the popped entry becomes PSTD i. -/
def execSetstr (p : Sys2Proof.Port) (i : BitVec 3) (s : State) : Out :=
  .next <| s.noRep fun s => s.granted p.toNat fun x =>
    match x.stack with
    | [] => s.engStack p.toNat
    | v :: st => s.modC fun c => c.modPort c.cur p.toNat fun y => { y with stack := st, pstd := y.pstd.set i.toNat v }

end Sys2Proof.Machine
end

