-- ==== Sys2Proof/Machine/Leases.lean ====
section
/-! DEFINITION. Engine leases: requests, budget, waking, terms, drains, handover and eviction (R133 to R136, R217 to
R228). -/
namespace Sys2Proof.Machine

/-! ## Keys and charges (R218, R219) -/

def LeaseReq.p (r : LeaseReq) : Nat := if r.promoted then 8 else r.prio
def LeaseReq.w (r : LeaseReq) : Nat := r.weave % 4 * 4 + r.port
/-- One key comes before another (R219). -/
def reqBefore (x y : LeaseReq) : Bool :=
  y.p < x.p || (x.p == y.p && (x.t < y.t || (x.t == y.t && x.w < y.w)))
def insertReq (x : LeaseReq) : List LeaseReq → List LeaseReq
  | [] => [x]
  | y :: ys => if reqBefore x y then x :: y :: ys else y :: insertReq x ys
def Core.sectorCharge (c : Core) (sec : Nat) : Nat :=
  (c.sector sec).engines.foldl (fun acc es => es.foldl (fun acc e => acc + e.charge) acc) 0
def Core.deckCharge (c : Core) (deck : Nat) : Nat :=
  c.sectors.foldl (fun acc (n, _) => if n / 80 = deck then acc + c.sectorCharge n else acc) 0
/-- The instance is asleep: neither held, waking nor draining. -/
def Engine.free (e : Engine) : Bool := e.holder.isNone && e.waking.isNone && e.draining.isNone
/-- Idle (R220). -/
def Engine.idle (e : Engine) : Bool := e.free && e.queue.isEmpty && !e.retired
/-- The charge of an instance's kind fits both limits when its own present charge is left out. -/
def Core.fits (c : Core) (sec kind own : Nat) : Bool :=
  c.sectorCharge sec - own + Config.weight kind ≤ (c.sector sec).budget &&
  c.deckCharge (sec / 80) - own + Config.weight kind ≤ Config.deckCeiling
/-- The instances of a kind that the sector still has. -/
def Core.instances (c : Core) (sec kind : Nat) : List Nat :=
  (List.range (Config.unitsOf kind)).filter fun i => !(c.eng sec kind i).retired
def allInstances : List (Nat × Nat) := (List.range 6).flatMap fun k => (List.range (Config.unitsOf k)).map fun i => (k, i)
/-- Budget waiters of a sector: heads of queues on instances that sleep (R220, R222). -/
def Core.budgetWaiters (c : Core) (sec : Nat) : List (Nat × Nat × LeaseReq) :=
  allInstances.filterMap fun (k, i) =>
    let e := c.eng sec k i
    if e.free && !e.retired then e.queue.head?.map fun r => (k, i, r) else none
/-- The first waiter in key order. -/
def firstWaiter : List (Nat × Nat × LeaseReq) → Option (Nat × Nat × LeaseReq)
  | [] => none
  | x :: xs =>
    match firstWaiter xs with
    | some y => if reqBefore y.2.2 x.2.2 then some y else some x
    | none => some x

/-! ## Waking and grants (R223, R224) -/

/-- A field test that runs on the instance is abandoned (R223). -/
def Core.abandonTest (c : Core) (sec kind idx : Nat) : Core :=
  let c := c.modEng sec kind idx fun e => { e with testing := false }
  { c with tests := c.tests.filter fun t => !(t.unit.type == 3 && t.unit.sector == sec && t.unit.sub == kind * 16 + idx) }
/-- DU that field tests of a sector's engines take. -/
def Core.testCharge (c : Core) (sec : Nat) : Nat :=
  c.tests.foldl (fun acc t => if t.unit.type = 3 ∧ t.unit.sector = sec then acc + Config.weight (t.unit.sub / 16) else acc) 0
/-- Field tests of a sector's engines are abandoned where a request uses their DU (R223). -/
def Core.yieldTests (c : Core) (sec : Nat) : Core :=
  let deck := c.sectors.foldl (fun acc (n, _) => if n / 80 = sec / 80 then acc + c.testCharge n else acc) 0
  if c.sectorCharge sec + c.testCharge sec ≤ (c.sector sec).budget && c.deckCharge (sec / 80) + deck ≤ Config.deckCeiling then c
  else allInstances.foldl (fun c (k, i) => if (c.eng sec k i).testing then c.abandonTest sec k i else c) c
/-- Wake an instance for a request: WK, the charge, the grant at W. -/
def Core.wake (c : Core) (sec kind idx : Nat) (r : LeaseReq) : Core :=
  let c := (c.abandonTest sec kind idx).unsched fun a => a == .leasePromotion sec kind idx r.weave r.port
  let c := (c.modEng sec kind idx fun e => { e with
    waking := some (r.weave, r.port), asked := some r, wokeAt := c.now, div := 1, charge := Config.weight kind }).yieldTests sec
  let c := c.modPort r.weave r.port fun x => { x with kind := kind, inst := idx, wk := true, q := false }
  c.sched (c.now + Config.wake kind) bLand (engRank (.pool sec kind idx)) (.leaseGrant sec kind idx)
/-- A grant: the engine's internal state is cleared and a term starts (R224, R225, R245, R259). -/
def Core.grant (c : Core) (sec kind idx w p : Nat) : Core :=
  let c := c.modEng sec kind idx fun e => { e with
    holder := some (w, p), waking := none, asked := none, draining := none, wokeAt := c.now, div := 1, charge := Config.weight kind, graceAt := none }
  let c := c.modPort w p fun x => { x with
    kind := kind, inst := idx, wk := false, q := false, g := true, termStart := c.now, termWords := 0, rowb := none }
  let c := c.modSec sec fun x =>
    match kind with
    | 0 => { x with mxa := Mxa.reset }
    | 1 => { x with gxe := lmod x.gxe idx fun _ => Gxe.reset }
    | 2 => { x with txs := lmod x.txs idx fun _ => Txs.reset }
    | _ => x
  let c := if kind = 2 then (List.range 2048).foldl (fun c i => c.writeRow (txsFlat sec idx (2 * i)) 0 allOnes none) c else c
  c.sched (c.now + Config.termCycles) bLand (engRank (.pool sec kind idx)) (.termEnd sec kind idx)
/-- LEASE_GRANT (R224): a waking instance grants. -/
def execLeaseGrant (sec kind idx : Nat) (s : State) : Out :=
  .next (s.modC fun c =>
    match (c.eng sec kind idx).waking with
    | some (w, p) => c.grant sec kind idx w p
    | none => c)
/-- Budget is granted to waiters in key order on a deck; a waiter that does not fit its sector stops that sector, one
that does not fit the deck stops the deck (R221). -/
def Core.grantDeck (c : Core) (deck : Nat) : Nat → List Nat → Core
  | 0, _ => c
  | n + 1, stopped =>
    let secs := c.sectors.filterMap fun (m, _) =>
      if m / 80 = deck ∧ !stopped.contains m then (firstWaiter (c.budgetWaiters m)).map fun x => (m, x) else none
    let best := secs.foldl (fun (acc : Option (Nat × Nat × Nat × LeaseReq)) x =>
      match acc with
      | none => some x
      | some y => if reqBefore x.2.2.2 y.2.2.2 then some x else some y) none
    match best with
    | none => c
    | some (m, k, i, r) =>
      if (c.sector m).budget < c.sectorCharge m + Config.weight k then c.grantDeck deck n (stopped ++ [m])
      else if Config.deckCeiling < c.deckCharge deck + Config.weight k then c
      else
        let c := c.modEng m k i fun e => { e with queue := e.queue.drop 1 }
        (c.wake m k i r).grantDeck deck n stopped
/-- Charges fell in a sector (R221). -/
def Core.chargesFell (c : Core) (sec : Nat) : Core := c.grantDeck (sec / 80) (10 * Config.sectorCount) []
/-- An instance sleeps: its charge ends, its queue is served as budget waiters (R222, R228). -/
def Core.sleep (c : Core) (sec kind idx : Nat) : Core :=
  (c.modEng sec kind idx fun e => { e with
    holder := none, waking := none, asked := none, draining := none, div := 1, charge := 0, graceAt := none }).chargesFell sec

/-! ## Requests (R133, R220) -/

/-- Enter an instance's lease queue; after 1 ms the entry is promoted (R219). -/
def Core.enqueue (c : Core) (sec kind idx : Nat) (r : LeaseReq) : Core :=
  let c := c.modEng sec kind idx fun e => { e with queue := insertReq r e.queue }
  let c := c.modPort r.weave r.port fun x => { x with kind := kind, inst := idx, q := true, wk := false }
  c.schedWall Config.msUnits bLand (engRank (.pool sec kind idx)) (.leasePromotion sec kind idx r.weave r.port)
/-- LEASE_PROMOTION (R219). -/
def execLeasePromotion (sec kind idx w p : Nat) (s : State) : Out :=
  .next (s.modC fun c => c.modEng sec kind idx fun e =>
    match e.queue.find? fun r => r.weave == w && r.port == p with
    | none => e
    | some r => { e with queue := insertReq { r with promoted := true } (e.queue.filter fun x => !(x.weave == w && x.port == p)) })
/-- The instance with the fewest entries and room, the lower number on a tie (R220). -/
def Core.shortest (c : Core) (sec kind : Nat) : Option Nat :=
  (c.instances sec kind).foldl (fun acc i =>
    let n := (c.eng sec kind i).queue.length
    if 8 ≤ n then acc
    else match acc with
      | some j => if n < (c.eng sec kind j).queue.length then some i else some j
      | none => some i) none
/-- Place an accepted request (R220); none where every queue is full. -/
def Core.request (c : Core) (sec kind w p prio : Nat) : Option Core :=
  let r : LeaseReq := ⟨w, p, prio, c.now, false⟩
  match (c.instances sec kind).find? fun i => (c.eng sec kind i).idle with
  | some i =>
    let earlier := (c.budgetWaiters sec).any fun x => reqBefore x.2.2 r
    some (if c.fits sec kind 0 && !earlier then c.wake sec kind i r else (c.abandonTest sec kind i).enqueue sec kind i r)
  | none => (c.shortest sec kind).map fun i => c.enqueue sec kind i r
/-- `lease` (R133). -/
def execLease (port : Sys2Proof.Port) (kind : BitVec 3) (s : State) : Out :=
  .next <|
    let p := port.toNat
    if p = 3 ∨ 6 ≤ kind.toNat then s.illegal 0
    else if (s.wv.port p).kind ≠ 7 then s.engJob p 4 0
    else
      let prio := ((s.rd.launchOf s.core.cur).map (·.prio)).getD 0
      match s.core.request s.sec kind.toNat s.core.cur p prio with
      | none => s.engJob p 4 0
      | some c => { s with core := c }

/-! ## Release, drain, handover (R134, R224, R225) -/

/-- The lease group of a port takes its reset values; `ev` tells of an eviction (R45, R226). -/
def Core.resetPort (c : Core) (w p : Nat) (ev : Bool) : Core :=
  c.modPort w p fun x => { x with
    kind := 7, ev := ev, ew := false, tw := if ev then x.tw else false, q := false, wk := false, g := false, termStart := 0, termWords := 0 }
/-- Withdraw a queued or waking request of a port (R134, R226). -/
def Core.withdraw (c : Core) (w p : Nat) : Core :=
  let x := (c.weave w).port p
  let sec := secOf w
  let e := c.eng sec x.kind x.inst
  let c := c.unsched fun a => a == .leasePromotion sec x.kind x.inst w p
  if x.q then c.modEng sec x.kind x.inst fun e => { e with queue := e.queue.filter fun r => !(r.weave == w && r.port == p) }
  else if x.wk ∧ e.waking = some (w, p) then
    (c.unsched fun a => a == .leaseGrant sec x.kind x.inst).sleep sec x.kind x.inst
  else c
/-- A lease ends and the jobs that its port has placed run on: the drain (R134, R225). -/
def Core.startDrain (c : Core) (w p : Nat) : Core :=
  let x := (c.weave w).port p
  let sec := secOf w
  let c := c.unsched fun a => a == .termEnd sec x.kind x.inst
  let c := c.modEng sec x.kind x.inst fun e => { e with holder := none, draining := some (w, p) }
  if (c.eng sec x.kind x.inst).jobs.isEmpty ∧ x.rep.isNone then
    c.sched c.now bAfter (engRank (.pool sec x.kind x.inst)) (.drainEnd sec x.kind x.inst)
  else c
/-- `rel` (R134). On a port whose KIND is 7 it has no effect, and EV and TW stay (log 70). -/
def execRel (port : Sys2Proof.Port) (s : State) : Out :=
  .next <|
    let p := port.toNat
    if p = 3 then s.illegal 0
    else
      let x := s.wv.port p
      if x.kind = 7 then s
      else s.modC fun c =>
        let c := if x.g then c.startDrain c.cur p else c.withdraw c.cur p
        c.resetPort c.cur p false
/-- DRAIN_END (R221, R222, R225): the queue's head is handed the instance 16 cycles on, or the instance sleeps. -/
def execDrainEnd (sec kind idx : Nat) (s : State) : Out :=
  .next (s.modC fun c =>
    let e := c.eng sec kind idx
    if e.draining.isNone ∨ !e.jobs.isEmpty then c
    else
      let c := c.unsched fun a => a == .graceEnd sec kind idx
      if e.queue.isEmpty || e.retired || !c.fits sec kind e.charge then c.sleep sec kind idx
      else
        let c := c.modEng sec kind idx fun e => { e with charge := Config.weight kind, div := 1, graceAt := none }
        (c.chargesFell sec).sched (c.now + 16) bLand (engRank (.pool sec kind idx)) (.leaseHandover sec kind idx))
/-- LEASE_HANDOVER (R224). -/
def execLeaseHandover (sec kind idx : Nat) (s : State) : Out :=
  .next (s.modC fun c =>
    match (c.eng sec kind idx).queue with
    | [] => c.sleep sec kind idx
    | r :: rest =>
      let c := c.unsched fun a => a == .leasePromotion sec kind idx r.weave r.port
      (c.modEng sec kind idx fun e => { e with queue := rest }).grant sec kind idx r.weave r.port)
/-- TERM_END (R225): 4,096 launch words or 65,536 cycles. In a grace (R228 step 3: the port keeps G) a lease that others wait
for does not go to the drain (log 54). The port enters the queue again though it may hold 8 entries already (log 70). -/
def execTermEnd (sec kind idx : Nat) (s : State) : Out :=
  .next (s.modC fun c =>
    let e := c.eng sec kind idx
    match e.holder with
    | none => c
    | some (w, p) =>
      let x := (c.weave w).port p
      if c.now < x.termStart + Config.termCycles ∧ x.termWords < Config.termWords then c
      else if e.queue.isEmpty then
        (c.modPort w p fun x => { x with termStart := c.now, termWords := 0 }).sched (c.now + Config.termCycles) bLand
          (engRank (.pool sec kind idx)) (.termEnd sec kind idx)
      else if e.graceAt.isSome then c
      else
        let prio := ((c.launchOf w).map (·.prio)).getD 0
        let c := (c.modPort w p fun x => { x with tw := true, g := false, termStart := 0, termWords := 0 }).startDrain w p
        c.enqueue sec kind idx ⟨w, p, prio, c.now, false⟩)
/-- A launch word is accepted from a port (R225). -/
def Core.countWord (c : Core) (w p : Nat) : Core :=
  if p = 3 ∨ !((c.weave w).port p).g then c
  else
    let x := (c.weave w).port p
    let c := c.modPort w p fun x => { x with termWords := x.termWords + 1 }
    if x.termWords + 1 = Config.termWords then
      c.sched c.now bAfter (engRank (.pool (secOf w) x.kind x.inst)) (.termEnd (secOf w) x.kind x.inst)
    else c
/-- `lqry` (R135). -/
def execLqry (d : Reg) (port : Sys2Proof.Port) (s : State) : Out :=
  .next <|
    let p := port.toNat
    if p = 3 then s.illegal 0
    else
      let x := s.wv.port p
      let g := s.rd.leaseGroup s.core.cur p
      s.putS d 1 (word (if x.g then
        g + (Config.termWords - x.termWords) * 2 ^ 16 + (x.termStart + Config.termCycles - s.now) * 2 ^ 32 else g))
/-- `lwait` (R136). -/
def execLwait (port : Sys2Proof.Port) (s : State) : Out :=
  .next <|
    let p := port.toNat
    if p = 3 then s.illegal 0
    else
      let x := s.wv.port p
      if x.g || x.kind == 7 || x.ev then s else s.hold 2 id

/-! ## Eviction (R226 to R228) -/

/-- MXRP of an `mx.mm` that does not complete (R253): the k elements committed stand in the job's `done`. -/
def Core.cutMm (c : Core) (j : Job) : Core :=
  if j.kind = 0 ∧ j.op = 3 then c.sched (c.now + 1) bEngine 0 (.mxrp j.weave true j.done) else c
/-- The engine stops: its running job stops where it stands, queued ones are dropped (R228 step 4). -/
def Core.stopEngine (c : Core) (sec kind idx : Nat) : Core :=
  let e := EngId.pool sec kind idx
  (((c.jobsOf e).filter fun j => j.started.isSome).foldl (fun c j => c.cutMm j) c).dropJobs e fun _ => true
/-- Warning of an eviction (R228): EW and the grace; `trap` asks for EVICT. -/
def Core.warnEvict (c : Core) (sec kind idx : Nat) (trap : Bool) : Core :=
  let e := c.eng sec kind idx
  match e.holder with
  | none => c
  | some (w, p) =>
    if e.graceAt.isSome then c
    else
      let c := c.modEng sec kind idx fun e => { e with graceAt := some (c.now + Config.graceCycles) }
      let c := c.modPort w p fun x => { x with ew := true }
      let c := if trap then c.modW w fun x => { x with evictWarn := true } else c
      c.sched (c.now + Config.graceCycles) bEngine (engRank (.pool sec kind idx)) (.graceEnd sec kind idx)
/-- The launches that a `rep` of a port still owes an engine are dropped with its lease (R88, R228). -/
def Core.endRep (c : Core) (e : EngId) : Option (Nat × Nat) → Core
  | some (w, p) =>
    match (c.weave w).port p |>.rep.filter fun r => r.eng == e with
    | some r =>
      (if 0 < r.left then c.abortSem (engSector e) ((r.frame.getLastD 256).toNat) else c).modPort w p fun x => { x with rep := none }
    | none => c
  | none => c
/-- GRACE_END (R228): the lease, or its drain after a `rel`, ends. -/
def execGraceEnd (sec kind idx : Nat) (s : State) : Out :=
  .next (s.modC fun c =>
    let e := c.eng sec kind idx
    if e.graceAt.isNone then c
    else
      let c := c.modEng sec kind idx fun e => { e with graceAt := none, draining := none }
      let c := c.unsched fun a => a == .termEnd sec kind idx
      let c := ((c.stopEngine sec kind idx).endRep (.pool sec kind idx) e.holder).endRep (.pool sec kind idx) e.draining
      let c := match e.holder with
        | some (w, p) => c.resetPort w p true
        | none => c
      c.sleep sec kind idx)
/-- EVICT (R228, R321): taken at user level, with the ports that have EW = 1. -/
def Core.takeEvict (c : Core) (w : Nat) : Core :=
  let wv := c.weave w
  let mask := (List.range 3).foldl (fun acc p => if (wv.port p).ew then acc + 2 ^ p else acc) 0
  let c := c.modW w fun x => { x with evictWarn := false }
  if mask = 0 then c else c.takeTrap w ⟨0x0D, 0xFF, 0, word mask, 0, wv.pc.toNat, false, false, c.now⟩
def execEvict (w : Nat) (s : State) : Out :=
  .next (s.modC fun c => if (c.weave w).evictWarn && !(c.weave w).priv then c.takeEvict w else c)
/-- Withdraw a request for good: EV with KIND 7 (R226). -/
def Core.evictRequest (c : Core) (w p : Nat) : Core := (c.withdraw w p).resetPort w p true
/-- Every lease of a weave ends without warning (R322), or its port is released at the end of its launch. -/
def Core.endLeases (c : Core) (w : Nat) (ev : Bool) : Core :=
  [0, 1, 2].foldl (fun c p =>
    let x := (c.weave w).port p
    if x.kind = 7 then c
    else if x.g then
      let sec := secOf w
      let c := c.unsched fun a => a == .termEnd sec x.kind x.inst || a == .graceEnd sec x.kind x.inst
      (((c.stopEngine sec x.kind x.inst).modPort w p fun y => { y with rep := none }).resetPort w p ev).sleep sec x.kind x.inst
    else (c.withdraw w p).resetPort w p ev) c
/-- At PREEMPT entry: requests are withdrawn, grants get their grace without EVICT (R226, R228, R330). -/
def Core.preemptLeases (c : Core) (w : Nat) : Core :=
  [0, 1, 2].foldl (fun c p =>
    let x := (c.weave w).port p
    if x.q || x.wk then c.evictRequest w p
    else if x.g then c.warnEvict (secOf w) x.kind x.inst false
    else c) c
/-- The youngest instance of a sector that satisfies a test (R227). -/
def Core.youngest (c : Core) (sec : Nat) (p : Engine → Bool) : Option (Nat × Nat) :=
  (allInstances.foldl (fun (acc : Option (Nat × Nat × Nat)) (k, i) =>
    let e := c.eng sec k i
    if p e then
      match acc with
      | some (t, _) => if t < e.wokeAt then some (e.wokeAt, k, i) else acc
      | none => some (e.wokeAt, k, i)
    else acc) none).map (·.2)
/-- Charges of a sector that no grace is going to end. -/
def Core.lastingCharge (c : Core) (sec : Nat) : Nat :=
  (c.sector sec).engines.foldl (fun acc es => es.foldl (fun acc e => if e.graceAt.isSome then acc else acc + e.charge) acc) 0
/-- A budget cut (R227): waking requests go back to the head of their queues, then grants are evicted, youngest first. -/
def Core.cutBudget (c : Core) (sec : Nat) : Nat → Core
  | 0 => c
  | n + 1 =>
    if c.lastingCharge sec ≤ (c.sector sec).budget then c
    else match c.youngest sec fun e => e.waking.isSome with
      | some (k, i) =>
        match (c.eng sec k i).asked with
        | none => c
        | some r =>
          let c := c.unsched fun a => a == .leaseGrant sec k i
          let c := c.modEng sec k i fun e => { e with waking := none, asked := none, charge := 0, queue := r :: e.queue }
          let c := if r.promoted then c
            else c.schedWall Config.msUnits bLand (engRank (.pool sec k i)) (.leasePromotion sec k i r.weave r.port)
          (c.modPort r.weave r.port fun x => { x with wk := false, q := true }).cutBudget sec n
      | none =>
        match c.youngest sec fun e => e.holder.isSome && e.graceAt.isNone with
        | some (k, i) => (c.warnEvict sec k i true).cutBudget sec n
        | none => c
/-- Retirement of an instance (R217, R226, R227): its queue moves to another instance of the kind, its holder is evicted.
A waking request, and one that finds the other instance's queue full, ends with EV = 1 (log 70). -/
def Core.retireEngine (c : Core) (sec kind idx : Nat) : Core :=
  let e := c.eng sec kind idx
  let c := c.modEng sec kind idx fun e => { e with retired := true, queue := [] }
  let c := e.queue.foldl (fun c r =>
    match c.shortest sec kind with
    | some i =>
      let c := { c with agenda := c.agenda.map fun (x : Entry) =>
        if x.act = Act.leasePromotion sec kind idx r.weave r.port then { x with act := .leasePromotion sec kind i r.weave r.port } else x }
      (c.modEng sec kind i fun e => { e with queue := insertReq r e.queue }).modPort r.weave r.port fun x => { x with inst := i }
    | none => c.resetPort r.weave r.port true) c
  let c := match e.waking with
    | some (w, p) => ((c.unsched fun a => a == Act.leaseGrant sec kind idx).sleep sec kind idx).resetPort w p true
    | none => c
  (c.warnEvict sec kind idx true).chargesFell sec

end Sys2Proof.Machine
end

