-- ==== Sys2Proof/Machine/Events.lean ====
section
/-! DEFINITION. Landings, trap entry and return, user events, pre-emption at a landing point, halt, the debugger's halt
(R17, R30 to R35, R149 to R151, R315 to R322, R330, R331, R334 to R336, R473). -/
namespace Sys2Proof.Machine

/-- RESULT_LANDING (R17). -/
def execResultLanding (w id cell : Nat) (s : State) : Out := .next (s.modC fun c => c.landResult w id cell)
/-- LATCH_LANDING (R320). -/
def execLatchLanding (w id cell : Nat) (s : State) : Out := .next (s.modC fun c => c.landResult w id cell)
/-- TRAP_ENTRY (R31, R315): entry once at most 16 results are in flight. -/
def execTrapEntry (w : Nat) (s : State) : Out :=
  .next (s.modC fun c =>
    match (c.weave w).pendTrap with
    | none => c
    | some ti => if (inFlightAt (c.weave w).flight c.now).length ≤ 16 then c.enterTrap w ti else c.sched (c.now + 1) bIssue w (.trapEntry w))

/-! ## Returns (R145, R149, R320) -/

/-- The bundle under way ends the issue: the next one is fixed at a cycle. -/
def State.fixNext (s : State) (at_ : Nat) : State :=
  (s.modIss fun i => { i with done := true }).modC fun c => c.schedIssue c.cur at_
/-- `eret` (R149, R320): PC from EPC, taken modulo the bank (log 16). -/
def execEret (s : State) : Out :=
  .next <|
    if !s.wv.priv then s.privTrap 0
    else
      let w := s.core.cur
      let frame := storeFlat (secOf w) (sysOff w)
      let c := s.rd
      let ret := c.now + 8 + 2 * c.latchCount w frame
      let wv := s.wv
      let depth := (c.loadShared w (frame + 24)).toNat % 8
      let levels := c.readLevels w frame depth
      let seg := segOfRows (c.loadShared w (frame + 128)) (c.loadShared w (frame + 136)) ret wv.seg.startPc
      let s := s.modW fun x => { ((x.setSt 0 (bitAt wv.status.toNat 5)).setSt 1 (bitAt wv.status.toNat 6)) with
        loops := levels
        seg := seg
        trapSched := 0 }
      (s.modC fun c => c.returnTo w frame ret (wv.epc.toNat % 16384) wv.trapSched).fixNext ret
/-- The flat frame of a user event: UEFRAME as a generic address in the SECTOR window, 17 KiB aligned to 1 KiB in the
declared half (R34). -/
def Core.eventFrame (c : Core) (w : Nat) : Option Nat :=
  let wv := c.weave w
  let f := wv.ueframe.toNat
  let b := wv.secbase.toNat
  let off := f - b
  if b ≤ f ∧ f % 1024 = 0 ∧ off + 17408 ≤ 0x3C0000 ∧ c.halfHeld w off ∧ c.halfHeld w (off + 17407) then
    some (storeFlat (secOf w) off)
  else none
/-- s24 to s31 change places with their shadow set (R33). -/
def Weave.swapShadow (wv : Weave) : Weave :=
  { wv with s := wv.s.take 24 ++ wv.shadow, shadow := wv.s.drop 24 }
/-- `evret` (R145): the steps of R33 reversed. A UEFRAME that is no longer a frame raises WINDOW, as it does at the entry (R34;
log 46). -/
def execEvret (s : State) : Out :=
  .next <|
    if !s.wv.inue then s.illegal 0
    else match s.rd.eventFrame s.core.cur with
      | none => s.windowTrap 0xFF s.wv.ueframe.toNat
      | some frame =>
        let w := s.core.cur
        let c := s.rd
        let ret := c.now + 8 + 2 * c.latchCount w frame
        let depth := (c.loadShared w (frame + 24)).toNat % 8
        let seg := segOfRows (c.loadShared w (frame + 128)) (c.loadShared w (frame + 136)) ret s.wv.seg.startPc
        let pc := (c.loadShared w (frame + 8)).toNat % 16384
        let s := s.modW fun x => { (x.swapShadow.setSt 2 false) with
          loops := x.loops.take depth
          seg := seg
          eventSched := 0 }
        (s.modC fun c => c.returnTo w frame ret pc s.wv.eventSched).fixNext ret

/-! ## User events (R33, R34, R337, R473) -/

/-- The event that a weave takes (R33, R337, R473): the lowest semaphore that was signalled in an earlier cycle, in timed mode one
that was pending when the boundary that the weave has just passed took effect; after such a boundary a throttle event (256)
last. -/
def Weave.nextEvent (wv : Weave) (now : Nat) : Option Nat :=
  let atBoundary (t : Nat) : Bool := match wv.passed with
    | some b => decide (t ≤ b)
    | none => false
  match wv.events.find? fun p => if wv.timed then atBoundary p.2 else decide (p.2 < now) with
  | some p => some p.1
  | none => if (wv.throttle.map atBoundary) == some true then some 256 else none
/-- Entry of a user event at T = now (R33, R316, R337): `ev` is a semaphore, or 256 for a throttle event. -/
def Core.enterEvent (c : Core) (w ev : Nat) : Core :=
  let T := c.now
  let c := ((c.undoServed w).dropWaiter w).endSlip w
  let wv := c.weave w
  match c.eventFrame w with
  | none => c.takeTrap w ⟨0x07, 0xFF, 0, 0xFF, wv.ueframe, wv.pc.toNat, true, false, T⟩
  | some frame =>
    if 16 < (inFlightAt wv.flight T).length then c.schedIssue w (T + 1)
    else
      let (n, c) := c.frameLatches w frame T
      let cause := if ev = 256 then word 0xFF02 else word (ev * 256 + 1)
      let seg := c.segAt w
      let c := c.frameRows w frame [cause, word wv.pc.toNat, wv.status, word (wv.loops.length + n * 2 ^ 8 + bnat wv.bank * 2 ^ 16)]
      let c := c.frameRows w (frame + 128)
        [segRow0 seg true, segRow1 seg, word (T - wv.startCycle), 0, 0, wv.phaseno, word (wrap (c.tdelta w) 64)]
      let c := c.frameRows w (frame + 200) (List.replicate 7 0)
      let c := (c.dropFlight w).leaveHeld w
      let x := c.weave w
      let c := c.setW w { (x.swapShadow.setSt 2 true) with
        uecause := cause
        seg := { seg with nocyc := true }
        pc := BitVec.ofNat 14 wv.uevec.toNat
        events := if ev = 256 then x.events else mdel x.events ev
        throttle := if ev = 256 then none else x.throttle
        eventSched := T + 1
        fixedAt := some (T + 16 + 2 * n) }
      let c := if c.hasPartner w then
          let v := w + 1
          if ev = 256 then (c.modW v fun x => { x with throttle := some T }).sched (T + 2) bIssue v (.throttleEvent v)
          else (c.modW v fun x => { x with events := mset x.events ev T }).sched (T + 2) bIssue v (.userEventEntry v ev)
        else c
      c.schedIssue w (T + 16 + 2 * n)
/-- A pending event may be taken (R33, R321). -/
def Weave.admitsEvent (wv : Weave) : Bool := wv.uee && !wv.inue && !wv.priv
/-- USER_EVENT_ENTRY (R33). -/
def execUserEventEntry (w sem : Nat) (s : State) : Out :=
  .next (s.modC fun c => if (c.weave w).admitsEvent && (mget? (c.weave w).events sem).isSome then c.enterEvent w sem else c)
/-- THROTTLE_EVENT_ENTRY (R473). -/
def execThrottleEventEntry (w : Nat) (s : State) : Out :=
  .next (s.modC fun c => if (c.weave w).admitsEvent && (c.weave w).throttle.isSome then c.enterEvent w 256 else c)
/-- A throttle notification to a launch, where it runs (R473): semaphore 255 of its sectors, a throttle event of its weaves. -/
def Core.notifyLaunch (c : Core) (n : Nat) : Core :=
  match c.launch? n with
  | none => c
  | some l =>
    if l.started.isNone ∨ l.ended then c
    else
    let c := l.sectors.foldl (fun c s => c.signalSem s 255 1) c
    l.weaves.foldl (fun c w => c.modW w fun x => { x with throttle := some (x.throttle.getD c.now) }) c
/-- A notification to every running launch (R473). -/
def Core.notifyAll (c : Core) : Core := (c.launches.filter fun p => p.2.started.isSome && !p.2.ended).foldl (fun c p => c.notifyLaunch p.1) c

/-! ## Pre-emption at a landing point (R35, R330) -/

/-- A pre-emption request to a running launch: it lands for each sequencer at its own landing point; after 10 ms it is a
fatal error (R35, R332). -/
def Core.requestPreempt (c : Core) (launch : Nat) : Core :=
  match c.launch? launch with
  | none => c
  | some l =>
    if l.preempting.isSome || l.started.isNone || l.ended then c
    else
      let c := l.weaves.foldl (fun c w =>
        if l.halted.contains w then c else c.modW w fun x => { x with preempt := true, landing := none }) c
      (c.modL launch fun l => { l with preempting := some c.now }).schedWall (10 * Config.msUnits) bCp launch (.preemptLandingTimeout launch)
/-- A launch is pre-empted for another reason than its overrun: what is preloaded behind it is discarded (R419). -/
def Core.evictLaunch (c : Core) (launch : Nat) : Core :=
  match c.launch? launch with
  | none => c
  | some l => if l.preempting.isSome || l.started.isNone || l.ended then c else (c.dropPreloadOf launch).requestPreempt launch
/-- PREEMPTION_REQUEST (R35, R419). -/
def execPreemptionRequest (launch : Nat) (s : State) : Out := .next (s.modC fun c => c.evictLaunch launch)
/-- The weave takes PREEMPT at its landing point: the trap, and its leases' end (R226, R228, R330). -/
def Core.enterPreempt (c : Core) (w : Nat) : Core :=
  let wv := c.weave w
  let info := wv.landing.getD 1
  let c := c.modW w fun x => { x with landing := none }
  (c.takeTrap w ⟨0x12, 0xFF, 0, word info, 0, wv.pc.toNat, false, true, c.now⟩).preemptLeases w
/-- PREEMPT (R330, R321). -/
def execPreempt (w : Nat) (s : State) : Out :=
  .next (s.modC fun c =>
    let wv := c.weave w
    if wv.preempt && wv.landing.isSome && !wv.priv && !wv.inue then c.enterPreempt w else c)

/-! ## The debugger's halt (R334 to R336) -/

/-- The weave that issues for a weave: its redundant pair's leader, else itself (R385). -/
def Core.leadOf (c : Core) (w : Nat) : Nat := if (c.weave w).redun then w / 2 * 2 else w
/-- The weaves that halt with a weave: those of a timed launch, else the weave alone. A redundant partner halts 2 cycles after its
leader (R385). -/
def Core.haltSet (c : Core) (w : Nat) : List Nat :=
  match c.launchOf w with
  | some l => if l.timed then l.weaves.filter fun v => (c.weave v).running && c.leadOf v == v else [c.leadOf w]
  | none => [w]
/-- The weave halts at this cycle, its results in flight in latch form (R334, R335). -/
def Core.haltNow (c : Core) (w : Nat) : Core :=
  let ls := latchImages c.now (c.weave w).flight
  let c := (c.dropFlight w).modW w fun x => { x with
    dbg := { x.dbg with haltReq := false, halted := some c.now, step := false, latches := ls } }
  c.unsched fun a => a == .issue w || a == .lateIssue w
/-- The halt happens once every halting sequencer has at most 16 results in flight; else it is tried in the next cycle. -/
def Core.tryHalt (c : Core) (ws : List Nat) : Core :=
  if ws.all fun w => (inFlightAt (c.weave w).flight c.now).length ≤ 16 then
    ws.foldl (fun c w =>
      let c := c.haltNow w
      if c.hasPartner w then c.sched (c.now + 2) bHost (w + 1) (.partnerHalt (w + 1) none) else c) c
  else ws.foldl (fun c w => c.schedIssue w (c.now + 1)) c
def Core.requestHalt (c : Core) (w : Nat) : Core :=
  (c.haltSet w).foldl (fun c v => c.modW v fun x => { x with dbg := { x.dbg with haltReq := true } }) c
/-- A debugger is attached to the weave's context (R444). -/
def Core.attached (c : Core) (w : Nat) : Bool := (c.ctx (c.ctxOf w)).att
/-- `bkpt` (R151, R334). -/
def execBkpt (code : BitVec 16) (s : State) : Out :=
  .next <|
    if s.rd.attached s.core.cur then
      let c := s.rd
      let ws := c.haltSet c.cur
      { core := ((c.undoServed c.cur).requestHalt c.cur).tryHalt ws, base := none }
    else s.raiseAt 0x13 s.core.iss.slot code.toNat 0 0 false
/-- DEBUG_HALT_REQUEST (R334): at the next bundle boundary. -/
def execDebugHaltRequest (w : Nat) (s : State) : Out :=
  .next (s.modC fun c =>
    if c.attached w && (c.weave w).running && (c.weave (c.leadOf w)).dbg.halted.isNone then c.requestHalt w else c)
/-- A halted weave's latches go back in flight, counted from its next bundle, and it is halted no more (R320, R336). -/
def Core.rejoin (c : Core) (w at_ : Nat) (step : Bool) : Core :=
  let ls := (c.weave w).dbg.latches.filterMap LatchImage.latch
  (c.modW w fun x => { x with dbg := { x.dbg with haltReq := false, halted := none, step := step, latches := [] } }).inject w at_ ls
/-- A redundant partner halts 2 cycles after its leader. Where the leader has resumed meanwhile, its next bundle issues at `ret`, and
the partner goes on too (R336, R385). -/
def Core.partnerHalt (c : Core) (p : Nat) (ret : Option Nat) : Core :=
  let c := c.haltNow p
  match ret with
  | some at_ => c.rejoin p at_ false
  | none => c
/-- The halted cycles count in no slip and in no segment; TEXP moves by the ticks of the halt (R336). -/
def Weave.skipHalt (x : Weave) (d ticks : Nat) : Weave :=
  { x with
    texp := x.texp + ticks
    slipping := x.slipping.map (· + d)
    seg := { x.seg with first := x.seg.first + d } }
/-- The partner of a leader that resumes, whose next bundle issues at `at_`. -/
def Core.resumePartner (c : Core) (p at_ d ticks : Nat) : Core :=
  let c := c.modW p (·.skipHalt d ticks)
  if (c.weave p).dbg.halted.isSome then c.rejoin p (at_ + 2) false
  else { c with agenda := c.agenda.map fun (e : Entry) =>
    if e.act = .partnerHalt p none then { e with act := .partnerHalt p (some (at_ + 2)) } else e }
/-- A weave halted at h resumes d cycles later: its next bundle is as far away as it was, a bundle that a realignment of an untimed
weave holds as far as it must be (R336). -/
def Core.resumeWeave (c : Core) (w h d ticks : Nat) (step : Bool) : Core :=
  let wv := c.weave w
  let at_ := if wv.timed then max h (c.dueIssue w) + d
    else if wv.realignTo.isSome then max (h + d) (wv.fixedAt.getD 0) else h + d
  let c := (c.modW w fun x => { x.skipHalt d ticks with fixedAt := some at_ }).rejoin w at_ step
  let c := if c.hasPartner w then c.resumePartner (w + 1) at_ d ticks else c
  (c.schedIssue w at_).kickSector (secOf w)
/-- DEBUG_RESUME (R336): an untimed weave's bundle issues in the next cycle (log 16). -/
def execDebugResume (w : Nat) (s : State) : Out :=
  .next (s.modC fun c =>
    let w := c.leadOf w
    match (c.weave w).dbg.halted with
    | none => c
    | some h =>
      if (c.weave w).timed then
        let k := (c.now - h) / Config.tickCycles + 1
        let ws := (((c.launchOf w).map (·.weaves)).getD []).filter fun v => (c.weave v).dbg.halted.isSome && c.leadOf v == v
        ws.foldl (fun c v => c.resumeWeave v h (k * Config.tickCycles) k false) c
      else c.resumeWeave w h (c.now + 1 - h) 0 false)
/-- DEBUG_STEP (R336): refused for a timed launch. -/
def execDebugStep (w : Nat) (s : State) : Out :=
  .next (s.modC fun c =>
    let w := c.leadOf w
    match (c.weave w).dbg.halted with
    | none => c
    | some h => if (c.weave w).timed then c else c.resumeWeave w h (c.now + 1 - h) 0 true)

/-! ## Halt (R150, R331) -/

/-- A weave inside PREEMPT's save routine: TCAUSE names the cause. -/
def Weave.saving (wv : Weave) : Bool := wv.priv && wv.tcause.toNat % 256 == 0x12
/-- The weave's part of the launch ends, or is parked; what that completes is tested once its results have landed. -/
def Core.endWeave (c : Core) (w : Nat) : Core :=
  let park := (c.weave w).saving
  let last := (c.weave w).flight.foldl (fun acc x => max acc (x.lands 7)) (c.now + 9)
  let c := c.modW w fun x => { x with
    running := false
    parked := park
    halted := !park
    seg := { x.seg with isOpen := false } }
  let c := (c.unsched fun a => a == .issue w || a == .lateIssue w).endRefresh w
  match (c.weave w).launch with
  | none => c
  | some n =>
    (if park then c else c.swapAtBoundary w).modL n (fun l =>
      if park then { l with parked := insertNat l.parked w } else { l with halted := insertNat l.halted w })
      |>.sched last bCp n (.launchCompletion n)
/-- A weave halts: it publishes at module scope, at the place of its cycle's publications, and its part of the launch ends (R150,
R203). A phase buffer that fails its parity is consumed instead (R376). -/
def Core.haltWeave (c : Core) (w : Nat) : Core :=
  if !(c.weave w).bufBad.isEmpty then c.failBuffers [w] else (c.sched c.now bPublish w (.haltPublish w)).endWeave w
/-- `halt` (R150): the issue has closed the segment. The leader of a redundant pair ends at its compare point (R387). -/
def execHalt (s : State) : Out :=
  .next <|
    let s := s.modIss fun i => { i with done := true }
    if s.core.hasPartner s.core.cur then s.modIss fun i => { i with reaches := .halt }
    else s.modC fun c => c.haltWeave c.cur

/-! ## What a fatal context error stops (R322) -/

/-- A sequencer stops: results in flight and the phase buffer are discarded, leases end, jobs of the weave stop, and the
launches that a running `rep` still owes are dropped. -/
def Core.stopWeave (c : Core) (w : Nat) : Core :=
  let sec := secOf w
  let c := (c.dropFlight w).dropWaiter w
  let c := [0, 1, 2, 3].foldl (fun c p =>
    match ((c.weave w).port p).rep with
    | some r => if 0 < r.left then c.abortSem sec ((r.frame.getLastD 256).toNat) else c
    | none => c) c
  let c := c.endLeases w true
  -- jobs of a lease that is draining stop too
  let c := (sectorQueues sec).foldl (fun c e =>
    let c := ((c.jobsOf e).filter fun j => j.weave == w && j.started.isSome).foldl (fun c j => c.cutMm j) c
    c.dropJobs e fun j => j.weave == w) c
  let c := c.unsched fun a =>
    match a with
    | .issue v => v == w | .lateIssue v => v == w | .repLaunch v _ => v == w | .ldhReturn v => v == w
    | .phaseRerun v => v == w | .comparePoint v => v == w | .trapEntry v => v == w
    | .partnerIssue v => v == w | .partnerBoundary v _ => v == w | .weaveBoundary v _ => v == w
    | .partnerTime v _ _ => v == w | .partnerHalt v _ => v == w | _ => false
  (c.modW w fun x => { x with running := false }).endRefresh w |>.modW w fun x => { x with
    buf := []
    gbuf := []
    pendTrap := none
    wait := .none
    aside := .none
    ldh := .none
    frozen := false
    gauze := List.replicate 8 []
    gzSend := []
    preempt := false
    evictWarn := false
    ports := x.ports.map fun p => { p with rep := none } }
/-- Every launch of a context stops (R322); a parked one holds no weave. -/
def Core.stopContext (c : Core) (ctx : Nat) : Core :=
  let ls := c.launches.filter fun p => p.2.ctx == ctx
  let ws := ls.flatMap fun p => p.2.weaves.filter fun w => (c.weave w).launch == some p.1
  let c := ws.foldl (fun c w => c.stopWeave w) c
  let c := { c with gzNet := c.gzNet.filter fun m => !(ws.contains m.src || ws.contains m.dst) }
  ls.foldl (fun c p => (c.modL p.1 fun l => { l with fatal := true, bounds := [] }).unsched fun a =>
    match a with
    | .launchCompletion n => n == p.1 | .preemptLandingTimeout n => n == p.1 | .tlimitOverrun n => n == p.1
    | .collectiveBoundaryCompletion n _ _ => n == p.1 | .barrierCompletion n _ _ _ => n == p.1
    | .launchStart n => n == p.1 | .launchReady n _ => n == p.1 | .launchResume n => n == p.1 | .preemptSave n => n == p.1
    | _ => false) c

end Sys2Proof.Machine
end

