-- ==== Sys2Proof/Machine/Issue.lean ====
section
/-! DEFINITION. Issue of a bundle: fetch, the checks of R82 and R83, the shadow checker (R19 to R22), segments (R24),
the execution of its syllables in slot order, phase marks (R25), the next PC (R116), and redundant partners (R385 to
R388). -/
namespace Sys2Proof.Machine

/-- The meaning of instructions, which the dispatch supplies. -/
abbrev Exec := Instr → State → Out

/-! ## Bundles (R81, R82) -/

/-- The S syllable accepts `lit` (R89): tested on its opcode. -/
def acceptsLit (x : Nat) : Bool :=
  slotOrder x == 2 && match decodeS (x / 2 ^ 21 % 128 * 2 ^ 21) with
    | .ok (.addi ..) | .ok (.andi ..) | .ok (.ori ..) | .ok (.xori ..) | .ok (.slti ..) | .ok (.sltiu ..) | .ok (.movi ..) => true
    | _ => false

/-- The register that an instruction names as its destination (R18). -/
def destOf : Instr → Option (File × Nat)
  | .add d .. | .sub d .. | .and d .. | .or d .. | .xor d .. | .andn d .. | .shl d .. | .shr d .. | .sar d .. | .rot d ..
  | .mul d .. | .mulh d .. | .mulhu d .. | .min d .. | .max d .. | .minu d .. | .maxu d .. | .slt d .. | .sltu d ..
  | .seq d .. | .sne d .. | .sel d .. | .clz d .. | .ctz d .. | .popc d .. | .bfx d .. | .bfxs d .. | .bfi d .. | .fsh d ..
  | .fshi d .. | .addi d .. | .andi d .. | .ori d .. | .xori d .. | .shli d .. | .shri d .. | .sari d .. | .slti d ..
  | .sltiu d .. | .movi d .. | .movhi d .. | .rdli d .. | .rdlc d .. | .call d .. | .sread d .. | .barv d .. | .lqry d ..
  | .probe _ d .. | .probew d .. | .ldh d .. | .sld d .. | .vany d .. | .vall d .. | .csrr d .. | .vtos d .. | .vred _ d ..
  | .gzp _ d .. => some (.s, d.toNat)
  | .vadd _ d .. | .vsub _ d .. | .vmul _ d .. | .vmulh _ d .. | .vmulhu _ d .. | .vand _ d .. | .vor _ d .. | .vxor _ d ..
  | .vandn _ d .. | .vshl _ d .. | .vshr _ d .. | .vsar _ d .. | .vrot _ d .. | .vmin _ d .. | .vmax _ d .. | .vminu _ d ..
  | .vmaxu _ d .. | .vabsd _ d .. | .vaddsat _ d .. | .vsubsat _ d .. | .vsel _ d .. | .vbfx _ d .. | .vbfxs _ d ..
  | .vbfi _ d .. | .vfsh _ d .. | .vclz _ d .. | .vpopc _ d .. | .vrev _ d .. | .vbswap _ d .. | .vaddi _ d .. | .vandi _ d ..
  | .vori _ d .. | .vxori _ d .. | .vshli _ d .. | .vshri _ d .. | .vsari _ d .. | .vbfxi d .. | .vfshi d .. | .vmovi d ..
  | .vlid d | .vbcs _ d .. | .vfadd _ d .. | .vfsub _ d .. | .vfmul _ d .. | .vfma _ d .. | .vfms _ d .. | .vfnma _ d ..
  | .vfmin _ d .. | .vfmax _ d .. | .vfabs _ d .. | .vfneg _ d .. | .vfclass _ d .. | .vfrcp _ d .. | .vfrsq _ d ..
  | .vfexp2 _ d .. | .vflog2 _ d .. | .vfscl _ d .. | .vfscli _ d .. | .vfcvt _ _ _ d .. | .vfcvti _ _ _ d ..
  | .vfcvtf _ _ _ d .. | .vfdot _ d .. | .vfrnd _ _ d .. | .ldr d .. | .ldrs d .. | .lds d .. | .ldp d .. | .ldx d ..
  | .ldf _ d .. | .rmg d .. | .rmgv d .. | .atm _ d .. | .atmc d .. | .atmz d .. | .cvta _ d .. | .cvtw _ d ..
  | .tws _ _ d .. | .twsl d .. | .twb d .. | .twr _ d .. | .gzr _ d .. | .lperm d .. => some (.v, d.toNat)
  | .vcmpeq _ kd .. | .vcmplt _ kd .. | .vcmpltu _ kd .. | .kand kd .. | .kor kd .. | .kxor kd .. | .knot kd .. | .kmov kd ..
  | .kset kd .. | .vmask kd .. | .vfcmpeq _ kd .. | .vfcmplt _ kd .. | .vfcmple _ kd .. | .vfcmpun _ kd ..
  | .isw _ kd .. => some (.k, kd.toNat)
  | _ => none
/-- The v registers that a lane form reads (R376, R399). -/
def vSources : Instr → List Reg
  | .vbfi _ d a b _ | .vfsh _ d a b _ | .vfma _ d a b _ | .vfms _ d a b _ | .vfnma _ d a b _ | .vfdot _ d a b _
  | .rmgv d a b _ | .atmc d a b _ => [d, a, b]
  | .rmg d a .. | .str d a .. | .sts d a .. | .stp d a .. | .stx d a .. | .stf _ d a .. => [d, a]
  | .vadd _ _ a b _ | .vsub _ _ a b _ | .vmul _ _ a b _ | .vmulh _ _ a b _ | .vmulhu _ _ a b _ | .vand _ _ a b _
  | .vor _ _ a b _ | .vxor _ _ a b _ | .vandn _ _ a b _ | .vshl _ _ a b _ | .vshr _ _ a b _ | .vsar _ _ a b _
  | .vrot _ _ a b _ | .vmin _ _ a b _ | .vmax _ _ a b _ | .vminu _ _ a b _ | .vmaxu _ _ a b _ | .vabsd _ _ a b _
  | .vaddsat _ _ a b _ | .vsubsat _ _ a b _ | .vsel _ _ a b _ | .vbfx _ _ a b _ | .vbfxs _ _ a b _ | .vfshi _ a b _
  | .vcmpeq _ _ a b _ | .vcmplt _ _ a b _ | .vcmpltu _ _ a b _ | .vfadd _ _ a b _ | .vfsub _ _ a b _ | .vfmul _ _ a b _
  | .vfmin _ _ a b _ | .vfmax _ _ a b _ | .vfscl _ _ a b _ | .vfcmpeq _ _ a b _ | .vfcmplt _ _ a b _ | .vfcmple _ _ a b _
  | .vfcmpun _ _ a b _ | .atm _ _ a b _ | .lperm _ a b _ => [a, b]
  | .strs d .. => [d]
  | .vclz _ _ a _ | .vpopc _ _ a _ | .vrev _ _ a _ | .vbswap _ _ a _ | .vaddi _ _ a _ | .vandi _ _ a _ | .vori _ _ a _
  | .vxori _ _ a _ | .vshli _ _ a _ | .vshri _ _ a _ | .vsari _ _ a _ | .vbfxi _ a .. | .vmask _ a | .vfabs _ _ a _
  | .vfneg _ _ a _ | .vfclass _ _ a _ | .vfrcp _ _ a _ | .vfrsq _ _ a _ | .vfexp2 _ _ a _ | .vflog2 _ _ a _
  | .vfscli _ _ a _ | .vfcvt _ _ _ _ a _ | .vfcvti _ _ _ _ a _ | .vfcvtf _ _ _ _ a _ | .vfrnd _ _ _ a _ | .ldr _ a ..
  | .lds _ a .. | .ldp _ a .. | .ldx _ a .. | .ldf _ _ a .. | .atmz _ a _ | .cvta _ _ a _ | .cvtw _ _ a _ | .isw _ _ a _
  | .tws _ _ _ a _ | .twsl _ a .. | .twb _ a .. | .twr _ _ a | .vtos _ a _ | .vred _ _ a _ | .gzs _ a _ _ => [a]
  | _ => []

/-- The predicate under which a lane form reads its v registers; k0, which is always true, for a form that has none or that
reads lanes across cells (R160). -/
def vPred : Instr → KReg
  | .vadd _ _ _ _ k | .vsub _ _ _ _ k | .vmul _ _ _ _ k | .vmulh _ _ _ _ k | .vmulhu _ _ _ _ k | .vand _ _ _ _ k
  | .vor _ _ _ _ k | .vxor _ _ _ _ k | .vandn _ _ _ _ k | .vshl _ _ _ _ k | .vshr _ _ _ _ k | .vsar _ _ _ _ k
  | .vrot _ _ _ _ k | .vmin _ _ _ _ k | .vmax _ _ _ _ k | .vminu _ _ _ _ k | .vmaxu _ _ _ _ k | .vabsd _ _ _ _ k
  | .vaddsat _ _ _ _ k | .vsubsat _ _ _ _ k | .vbfx _ _ _ _ k | .vbfxs _ _ _ _ k | .vbfi _ _ _ _ k | .vfsh _ _ _ _ k
  | .vcmpeq _ _ _ _ k | .vcmplt _ _ _ _ k | .vcmpltu _ _ _ _ k | .vclz _ _ _ k | .vpopc _ _ _ k | .vrev _ _ _ k
  | .vbswap _ _ _ k | .vfadd _ _ _ _ k | .vfsub _ _ _ _ k | .vfmul _ _ _ _ k | .vfma _ _ _ _ k | .vfms _ _ _ _ k
  | .vfnma _ _ _ _ k | .vfmin _ _ _ _ k | .vfmax _ _ _ _ k | .vfabs _ _ _ k | .vfneg _ _ _ k | .vfcmpeq _ _ _ _ k
  | .vfcmplt _ _ _ _ k | .vfcmple _ _ _ _ k | .vfcmpun _ _ _ _ k | .vfclass _ _ _ k | .vfrcp _ _ _ k | .vfrsq _ _ _ k
  | .vfexp2 _ _ _ k | .vflog2 _ _ _ k | .vfscl _ _ _ _ k | .vfcvt _ _ _ _ _ k | .vfcvti _ _ _ _ _ k | .vfcvtf _ _ _ _ _ k
  | .vfdot _ _ _ _ k | .vfrnd _ _ _ _ k | .ldr _ _ _ k | .str _ _ _ k | .strs _ _ _ k | .lds _ _ _ k | .sts _ _ _ k
  | .ldp _ _ _ k | .stp _ _ _ k | .ldx _ _ _ k | .stx _ _ _ k | .ldf _ _ _ _ k | .stf _ _ _ _ k | .rmg _ _ _ k
  | .rmgv _ _ _ k | .atm _ _ _ _ k | .atmc _ _ _ k | .atmz _ _ k | .cvta _ _ _ k | .cvtw _ _ _ k | .isw _ _ _ k
  | .gzs _ _ _ k => k
  | _ => 0
/-- Does an instruction read register r of a lane, at what its bundle reads (R376, R399)? -/
def readsLane (i : Instr) (r lane : Nat) (s : State) : Bool :=
  (vSources i).any (·.toNat == r) && decide (lane < 128) && s.kreg (vPred i) lane &&
    match i with
    | .vtos _ _ b => decide ((s.sreg b).toNat % 128 = lane)
    | _ => true

/-- The scalar registers that a form reads (R376). -/
def sSources : Instr → List Reg
  | .bfi d a b => [d, a, b]
  | .sel _ a b c | .fsh _ a b c => [a, b, c]
  | .add _ a b | .sub _ a b | .and _ a b | .or _ a b | .xor _ a b | .andn _ a b | .shl _ a b | .shr _ a b | .sar _ a b | .rot _ a b
  | .mul _ a b | .mulh _ a b | .mulhu _ a b | .min _ a b | .max _ a b | .minu _ a b | .maxu _ a b | .slt _ a b | .sltu _ a b
  | .seq _ a b | .sne _ a b | .bfx _ a b | .bfxs _ a b | .fshi _ a b _ | .probe _ _ _ a b | .lpatch a b _ => [a, b]
  | .beq d a _ | .bne d a _ | .blt d a _ | .bge d a _ | .bltu d a _ | .bgeu d a _ | .sst d a _ => [d, a]
  | .sth b _ a => [b, a]
  | .movhi d _ => [d]
  | .clz _ a | .ctz _ a | .popc _ a | .addi _ a _ | .andi _ a _ | .ori _ a _ | .xori _ a _ | .shli _ a _ | .shri _ a _ | .sari _ a _
  | .slti _ a _ | .sltiu _ a _ | .jr a _ | .ret a | .bz a _ | .bnz a _ | .loop a _ | .lbrk _ a | .swait a _ | .ssig a _ | .sinit a _
  | .binit _ a _ | .ldh _ _ a | .sld _ a _ | .larm a | .csrw _ a | .csrs _ a | .csrc _ a | .fmtw _ a | .hinv a | .vbcs _ _ a _
  | .ldrs _ a _ _ | .strs _ a _ _ | .vtos _ _ a | .gzs _ _ a _ | .gzr _ _ a _ | .gzp _ _ a | .pushs _ a => [a]
  | _ => []
/-- The predicate registers that a form reads (R376). -/
def kSources (i : Instr) : List KReg :=
  match i with
  | .kand _ a b | .kor _ a b | .kxor _ a b => [a, b]
  | .knot _ a | .kmov _ a | .vany _ a | .vall _ a => [a]
  | .vsel _ _ _ _ k | .ldrs _ _ _ k | .tws _ _ _ _ k | .twsl _ _ _ k | .twb _ _ _ k | .vbcs _ _ _ k | .vred _ _ _ k | .gzr _ _ _ k
  | .lperm _ _ _ k => [k]
  | _ => [vPred i]
/-- Does an instruction read a lane of a register of a file, at what its bundle reads (R376)? -/
def readsReg (i : Instr) (file : File) (r lane : Nat) (s : State) : Bool :=
  match file with
  | .s => (sSources i).any (·.toNat == r)
  | .v => readsLane i r lane s
  | .k => (kSources i).any (·.toNat == r)

/-- A syllable of a bundle: its slot, its word, what it decodes to, and the form that its opcode names, which the rules on whole
bundles look at whatever its other fields hold (R82, R83). -/
structure Syl where
  slot : Nat
  word : Nat
  dec : Decoded
  form : Option Instr
/-- The instruction that a decoding gives. -/
def okOf : Decoded → Option Instr
  | .ok i => some i
  | _ => none
/-- The form of a syllable: of the word itself, else of a word of the same opcode and destination with plain other fields. -/
noncomputable def formOf (kinds : Nat → Nat) (x : Nat) : Option Instr :=
  let op := x / 2 ^ 21 % 1024 * 2 ^ 21
  (okOf (decodeSyl kinds x)).orElse fun _ =>
    if x / 2 ^ 28 % 8 = 6 then okOf (decodeSyl kinds (x / 2 ^ 26 * 2 ^ 26 + x % 2 ^ 16 / 256 * 256))
    else ([x / 2 ^ 16 % 32, x / 2 ^ 16 % 8, 0].flatMap fun d => [0, 1, 2].map fun m => op + d * 2 ^ 16 + m).findSome? fun y =>
      okOf (decodeSyl kinds y)
noncomputable def syllables (kinds : Nat → Nat) (ws : List Nat) : List Syl :=
  (ws.zip (List.range ws.length)).map fun (x, i) => ⟨i, x, decodeSyl kinds (x % 2 ^ 31), formOf kinds (x % 2 ^ 31)⟩
def Syl.instr? (x : Syl) : Option Instr := okOf x.dec
def Syl.dest (x : Syl) : Option (File × Nat) := x.form.bind destOf
/-- The slots at which a bundle's syllables break R82, in pairs with their predecessors or alone. -/
def bundleFaults (pc : Nat) (xs : List Syl) : List Nat :=
  let ws := xs.map (·.word)
  let has (k : Nat) : Bool := ws.any (isLead k)
  let unended : List Nat :=
    match ws.getLast? with
    | some x => if bitAt x 31 then [] else if pc + ws.length = Config.bankSyllables ∧ ws.length < 8 then [ws.length - 1] else [7]
    | none => [7]
  let pairs := (xs.zip (xs.drop 1)).filterMap fun (x, y) =>
    let o := slotOrder x.word
    let p := slotOrder y.word
    if p < o ∨ (p = o ∧ (o ≠ 1 ∨ leadKind y.word ≤ leadKind x.word)) then some y.slot else none
  let alone := xs.filterMap fun y =>
    let o := slotOrder y.word
    let bad : Bool :=
      (o == 1 && ((leadKind y.word == 3 && !(has 4 && has 2)) || (leadKind y.word == 4 && !(has 3 && has 2)) ||
        (leadKind y.word == 1 && !(ws.any fun x => slotOrder x == 7)) || (leadKind y.word == 8 && !ws.any acceptsLit))) ||
      (o == 8 && (match y.form with | some .eret | some .halt | some .wfe => true | _ => false) && ws.any fun x => 2 ≤ slotOrder x && slotOrder x ≤ 7) ||
      (y.dest.isSome && (xs.any fun x => x.slot < y.slot && x.dest == y.dest))
    if bad then some y.slot else none
  unended ++ pairs ++ alone
/-- The lowest of some slots. -/
def lowest : List Nat → Option Nat
  | [] => none
  | x :: xs => some (xs.foldl min x)
/-- System-only syllables (R83 item 4). -/
def sysOnly : Instr → Bool
  | .eret | .hinv _ | .cpSwp => true
  | .csrr _ n | .csrw n _ | .csrs n _ | .csrc n _ => csrSys n.toNat
  | _ => false
/-- The causes of R83 items 1 to 4, in their order: (cause, slot). -/
def staticFault (pc : Nat) (priv : Bool) (xs : List Syl) : Option (Nat × Nat) :=
  let rep := xs.find? fun x => isLead 1 x.word
  let badRep : List Nat :=
    match rep with
    | some r => if xs.any (fun x => slotOrder x.word == 7 && x.word / 2 ^ 14 % 4 != 2) then [r.slot] else []
    | none => []
  let slots (p : Syl → Bool) : List Nat := (xs.filter p).map (·.slot)
  match lowest (bundleFaults pc xs) with
  | some n => some (0x03, n)
  | none =>
    match lowest (badRep ++ slots fun x => match x.dec with | .illegal => true | _ => false) with
    | some n => some (0x01, n)
    | none =>
      match lowest (slots fun x => match x.dec with | .reserved => true | _ => false) with
      | some n => some (0x02, n)
      | none => (lowest (slots fun x => match x.form with | some i => sysOnly i && !priv | none => false)).map fun n => (0x04, n)

/-! ## Execution of the slots -/

/-- The bundle carries a phase mark: the slot of its `gap` (R25, R85). -/
def markSlot (xs : List Syl) : Option Nat := (xs.find? fun x => isLead 0 x.word && bitAt x.word 20).map (·.slot)
/-- A `phase` or `barr`. -/
def Syl.bounds (x : Syl) : Bool :=
  match x.instr? with
  | some (.phase ..) | some (.barr ..) => true
  | _ => false
/-- The syllables in slot order, until one traps or holds the bundle. With `full` the latches have no room at a boundary, which is
tested at the syllable that reaches it (R20, R83). -/
def runSlots (ex : Exec) (full : Bool) : List Syl → State → Out
  | [], s => .next s
  | x :: rest, s =>
    let s := s.modIss fun i => { i with slot := x.slot, word := BitVec.ofNat 32 x.word }
    let out := match x.dec with
      | .ok i => ex i s
      | .engJob p n => .next (s.granted p.toNat fun _ => s.engJob p.toNat n 0)
      | _ => .next (s.illegal 0)
    match out with
    | .next s' =>
      if s'.base.isNone then .next s'
      else if full && x.bounds then .next (s'.hold 6 id)
      else runSlots ex full rest s'
    | r => r
/-- What a trap that a weave has just taken says: it waits to be entered, or its frame holds it. -/
def Core.trapTaken (c : Core) (w : Nat) : TrapInfo :=
  let x := c.weave w
  let frame := storeFlat (secOf w) (sysOff w)
  let t := x.tcause.toNat
  x.pendTrap.getD ⟨bits t 7 0, bits t 15 8, bits t 31 16, c.row (frame + 152), c.row (frame + 160), x.epc.toNat,
    c.agenda.any fun e => e.act == .fatalContextError w, false, c.now⟩
/-- Every syllable on its own: one that traps or is held has no effect. The traps are those of the syllables that trap. -/
def runLoose (ex : Exec) : List Syl → State → List TrapInfo → State × List TrapInfo
  | [], s, ts => (s, ts)
  | x :: rest, s, ts =>
    let s := s.modIss fun i => { i with slot := x.slot, word := BitVec.ofNat 32 x.word }
    match x.instr?.map fun i => ex i s with
    | some (.next s') =>
      if s'.base.isSome then runLoose ex rest s' ts
      else runLoose ex rest s (if s'.core.iss.held.isNone then ts ++ [s'.core.trapTaken s.core.cur] else ts)
    | _ => runLoose ex rest s ts
/-- Results of a weave in flight at the present cycle. -/
def Core.inFlight (c : Core) (w : Nat) : Nat := (inFlightAt (c.weave w).flight c.now).length
/-- With this bundle's own results more than 16 are in flight (R20). -/
def noRoom (ex : Exec) (s : State) (xs : List Syl) : Bool :=
  decide (16 < s.rd.inFlight s.core.cur + 8) && decide (16 < (runLoose ex xs s []).1.core.inFlight s.core.cur)
/-- The bundle's syllables executed: the latch room of a boundary (R20) at the slot that reaches it, and FPX after the slots before
which no other cause stands (R189). -/
def runBundle (ex : Exec) (s : State) (xs : List Syl) : Out :=
  let marks := if s.wv.timed then markSlot xs else none
  let full := (marks.isSome || xs.any Syl.bounds) && noRoom ex s xs
  match if full then marks else none with
  | some slot => .next ((s.modIss fun i => { i with slot := slot }).hold 6 id)
  | none =>
    match runSlots ex full xs s with
    | .next s =>
      let i := s.core.iss
      .next (if s.base.isSome && i.fpx != 0 then s.raiseAt 0x15 i.fpxSlot 0 (word i.fpx) 0 false else s)
    | r => r

/-! ## Segments (R24, R90) -/

/-- The signature prefixes' value, when both are there. -/
def leadField (k n : Nat) (ws : List Nat) : Option Nat := (ws.find? (isLead k)).map fun x => x % 2 ^ n
/-- The segment that a bundle's prefixes open. -/
def openSegment (ws : List Nat) (e now pc : Nat) : Segment :=
  let sig := match leadField 3 16 ws, leadField 4 16 ws with
    | some l, some h => some (h * 65536 + l)
    | _, _ => none
  ⟨BitVec.ofNat 20 e, true, sig.isSome, false, BitVec.ofNat 32 (sig.getD 0), 0xFFFFFFFF, 0, now, pc⟩
/-- The bytes that a bundle adds to the signature (R90). -/
def signatureBytes (ws : List Nat) : List Nat :=
  (ws.filter fun x => !isLead 3 x && !isLead 4 x).flatMap (natBytes 4)
/-- The observation of a segment that ends (R24, R314): INFO0 and INFO1 of SEGMENT, none where nothing differs. -/
def segmentFault (g : Segment) (timed : Bool) (observed : Nat) : Option (Word × Word) :=
  let sig := g.crc.toNat ^^^ 0xFFFFFFFF
  let dc := timed && g.e != 0 && !g.nocyc && observed != g.e.toNat
  let ds := g.sigp && sig != g.expSig.toNat
  if dc || ds then some (word (observed % 2 ^ 20 + bnat dc * 2 ^ 20 + bnat ds * 2 ^ 21), word (sig + g.expSig.toNat * 2 ^ 32)) else none
/-- A bundle's bytes enter the running CRC of the open segment (R90). -/
def Segment.add (g : Segment) (ws : List Nat) : Segment :=
  if g.isOpen then { g with crc := BitVec.ofNat 32 (crcBytes crc32cPoly g.crc.toNat (signatureBytes ws)) } else g
/-- The mismatch of the segment that a bundle's `seg` prefix ends (R24, R90). -/
def segmentBefore (g : Segment) (timed : Bool) (ws : List Nat) (observed : Nat) : Option (Word × Word) :=
  match leadField 2 20 ws with
  | some _ => if g.isOpen then segmentFault g timed observed else none
  | none => none
/-- The mismatch of the segment that a `halt` ends, with the halt bundle in it (R24, R90). -/
def segmentAtHalt (g : Segment) (timed : Bool) (ws : List Nat) (now observed pc : Nat) : Option (Word × Word) :=
  match leadField 2 20 ws with
  | some e => segmentFault ((openSegment ws e now pc).add ws) timed 1
  | none => if g.isOpen then segmentFault (g.add ws) timed observed else none
/-- The segment's checks are on: no handler runs, and the bundle's own have not been made (R24). -/
def Weave.segChecks (wv : Weave) : Bool := !wv.inHandler && !wv.segDone
/-- The cycles of the weave's segment at a cycle, without those of a slip that still runs; with the bundle that ends it where that
belongs to it (R24). -/
def Core.observed (c : Core) (w at_ : Nat) (ws : List Nat) : Nat :=
  let x := c.weave w
  x.seg.count + (at_ - x.seg.first) - (c.now - x.slipping.getD c.now) + (if ws.any (isLead 2) then 0 else 1)
/-- The segments that the bundle at the PC of a weave ends and that differ, by weave: the weave's own, and before a `seg` its
redundant partner's, which reaches the bundle 2 cycles later (R24, R385). -/
def Core.segmentFaults (c : Core) (w : Nat) (ws : List Nat) (halts : Bool) : List (Nat × Word × Word) :=
  let wv := c.weave w
  let obs := c.observed w c.now ws
  let mine : Option (Word × Word) := if !wv.segChecks then none
    else (segmentBefore wv.seg wv.timed ws obs).orElse fun _ => if halts then segmentAtHalt wv.seg wv.timed ws c.now obs wv.pc.toNat else none
  let p := c.weave (w + 1)
  let ps := c.bundle (w + 1)
  let other : Option (Word × Word) := if c.hasPartner w && p.segChecks then
      segmentBefore p.seg p.timed ps (c.observed (w + 1) (c.now + 2) ps)
    else none
  (mine.map fun x => (w, x)).toList ++ (other.map fun x => (w + 1, x)).toList
/-- SEGMENT (R24, R313, R384): the mismatches are counted and logged, the segment is closed and the one that the bundle opens stands;
a redundant pair takes the trap together (R385). -/
def Core.segmentTrap (c : Core) (w : Nat) (fs : List (Nat × Word × Word)) : Core :=
  let c := fs.foldl (fun c (v, _, _) =>
    let unit := unitCode ⟨0, secOf v, v % 4⟩
    (c.modHealth unit fun h => { h with segc := h.segc + 1 }).logEntry unit 6 0 (c.tagOf (c.ctxOf v)) (word (c.weave v).pc.toNat) 0) c
  let c := (c.withPartner w).foldl (fun c v => c.modW v fun x =>
    let ws := c.bundle v
    { x with
      seg := match leadField 2 20 ws with
        | some e => openSegment ws e c.now x.pc.toNat
        | none => { x.seg with isOpen := false }
      segDone := true }) c
  match fs.head? with
  | some (_, info0, info1) => c.takeTrap w ⟨0x09, 0xFF, 0, info0, info1, (c.weave w).pc.toNat, false, false, c.now⟩
  | none => c

/-! ## Redundant execution: effect records and compare points (R386, R387) -/

/-- The values of an instruction's effect record (R386; log 17). -/
def effectWords (i : Instr) (s : State) : List Nat :=
  let lanes (k : KReg) (f : Nat → List Nat) : List Nat := (s.active k).flatMap f
  let v (r : Reg) (l : Nat) : Nat := (s.vreg r l).toNat
  let x (r : Reg) : Nat := (s.sreg r).toNat
  match i with
  | .sts d a o k | .stp d a o k | .stx d a o k | .stf _ d a o k => lanes k fun l => [l, eaOf (s.vreg a l) o, v d l]
  | .sst d a off => [s.seqAddr a off, x d]
  | .sth b h a => [h.toNat, x a, x b]
  | .ssig a n | .sinit a n | .swait a n => [n.toNat, x a]
  | .binit sc a n => [sc.toNat, n.toNat, x a]
  | .barr n | .barv _ n | .bdrop n => [n.toNat]
  | .atm _ _ a b k => lanes k fun l => [l, v a l, v b l]
  | .atmc d a b k => lanes k fun l => [l, v a l, v b l, v d l]
  | .atmz _ a k => lanes k fun l => [l, v a l]
  | .gzs _ a b k => x b :: lanes k fun l => [l, v a l]
  | .gzr _ _ b _ => [x b]
  | .larm a => [x a]
  | .lpatch a b f => [x a, x b, f.toNat]
  | .csrw n a | .csrs n a | .csrc n a => [n.toNat, x a]
  | .pushs _ n => [x n]
  | _ => []
/-- The entries that a G syllable pops, the top first: a launch word its frame, a stack word those that the table of R92 names
(R386). -/
def poppedWords (i : Instr) (before after : Sys2Proof.Machine.Port) : List Nat :=
  let n := match i with
    | .ext .. | .dup .. | .drop .. | .setstr .. => 1
    | .swap .. | .over .. => 2
    | .stackRot .. => 3
    | .push .. | .pushs .. => 0
    | _ => before.stack.length - after.stack.length
  (before.stack.take n).map (·.toNat)
/-- The running hash after a bundle's records: words that leave the weave, and a taken branch target (R386). `after` is the weave
with the G syllable's effect. -/
def foldEffects (h : BitVec 32) (xs : List Syl) (s : State) (after : Weave) (target : Option Nat) : BitVec 32 :=
  let recs := xs.flatMap fun y =>
    match y.instr? with
    | some i =>
      let p := y.word / 2 ^ 26 % 4
      let r := effectWords i s ++ (if slotOrder y.word = 7 then poppedWords i (s.wv.port p) (after.port p) else [])
      if r.isEmpty && slotOrder y.word != 7 then [] else y.word :: r
    | none => []
  BitVec.ofNat 32 (crcBytes crc32cPoly h.toNat ((recs ++ target.toList).flatMap (natBytes 8)))
/-- An act listed in R326. -/
def outsidePhase : Instr → Bool
  | .atm .. | .atmc .. | .atmz .. | .gzs .. | .gzr .. | .ssig .. | .sinit .. | .binit .. | .barv .. | .bdrop .. | .larm ..
  | .lpatch .. => true
  | _ => false
/-- The bundle under way is a compare point (R387): it reaches a boundary or halts, it holds an act of R326, or its launch word
found the hold queue full, which it enters as the last (log 17). -/
def comparesAt (xs : List Syl) (i : Iss) (held : Nat) : Bool :=
  (match i.reaches with | .no | .realign _ _ _ => false | _ => true) || i.outside || 64 < held ||
    xs.any fun y => match y.instr? with | some i => outsidePhase i | none => false

/-! ## Commit -/

/-- The PC and the loop stack after the bundle (R116), and whether level ℓ ended an iteration outside a handler (R35, R321). A
PC past the bank's last syllable is taken modulo the bank (log 16). The stack is stepped as it stands after the bundle: a `loop` at an
enclosing level's end T has its new level pushed first, and one of count 0 leaves the enclosing level's step before the skip (log 67). -/
def Core.advance (c : Core) (w : Nat) (before : List LoopLevel) : Core :=
  let i := c.iss
  let wv := c.weave w
  let passed := if wv.inHandler then wv.passed else none
  if i.done then c.modW w fun x => { x with landing := none, passed := passed }
  else match i.target with
    | some t => c.modW w fun x => { x with pc := BitVec.ofNat 14 t, landing := none, passed := passed }
    | none =>
      let (ls, t) := stepLoopStack i.pc wv.loops
      let l := wv.plevel
      let stepped := !wv.inHandler && l < 6 && decide (l < before.length) && decide (l < wv.loops.length) && ls[l]? != wv.loops[l]?
      c.modW w fun x => { x with
        pc := BitVec.ofNat 14 (t.getD (i.skip.getD (i.pc + i.len)))
        loops := ls
        landing := if stepped then some (l * 256) else none
        passed := passed }
/-- What a `realign` to a tick does on a weave: TEXP, the tick that it declares clock-safe, the refresh (R23, R346, R466). -/
def Core.takeRealign (c : Core) (w tick texp : Nat) (safe : Bool) : Core :=
  let timed := (c.weave w).timed
  let c := c.modW w fun x => { x with
    texp := if timed then texp else x.texp
    clockSafe := if safe then some tick else x.clockSafe }
  if timed then c.realignRefresh w tick else c
/-- What the bundle reaches (R25, R27, R128, R131). -/
def Core.reach! (c : Core) (w : Nat) (r : Reaches) : Core :=
  match r with
  | .no => c
  | .phase scope mask => c.reachPhase w scope mask
  | .barr scope => c.modW w fun x => { x with wait := .boundary true scope 0 none }
  | .realign tick texp safe =>
    (c.takeRealign w tick texp safe).modW w fun x => { x with fixedAt := some (tick * Config.tickCycles), realignTo := some tick }
  | .halt => c.haltWeave w
/-- Forms whose effect or data is the leader's: the partner takes their results from the leader (R385). -/
def sharedForm : Instr → Bool
  | .swait .. | .ssig .. | .sinit .. | .snote .. | .sread .. | .phase .. | .realign .. | .barr .. | .barv .. | .bdrop .. | .binit ..
  | .lease .. | .rel .. | .lqry .. | .lwait .. | .ldh .. | .sth .. | .sld .. | .sst .. | .lpatch .. | .larm .. | .lds ..
  | .sts .. | .ldp .. | .stp .. | .atm .. | .atmc .. | .atmz .. | .gzs .. | .gzr .. | .gzp .. | .halt | .wfe | .bkpt .. | .refdefer ..
  | .clkdiv .. | .hinv .. | .probew .. => true
  | _ => false
/-- A compare point of a redundant pair at the present cycle (R387): the partner reaches it 2 cycles later; what the point's bundle
reaches waits for the compare, and the next bundle issues 4 cycles after the point: `extra` cycles later than without it, which
count in no segment. -/
def Core.comparePoint (c : Core) (w : Nat) (reach : Reaches) (mark : Bool) (extra : Nat) : Core :=
  ((c.modW w fun x => { x.slipped extra false with
    red := { x.red with point := some (c.now + 2), reach := reach, mark := mark } }).partnerTime w extra false).sched (c.now + 2) bMark w
      (.comparePoint w)
/-- The results of shared forms land in the partner too, 2 cycles after they land in the leader (R385). -/
def Core.copyShared (c : Core) (w : Nat) (xs : List Syl) : Core :=
  let slots := (xs.filter fun x => match x.instr? with | some i => sharedForm i | none => false).map (·.slot)
  ((c.weave w).flight.filter fun r => r.issue == c.now && !r.latch && slots.contains r.slot).foldl (fun c r =>
    c.putResult (w + 1) { r with issue := r.issue + 2, land := r.land + 2 }) c
/-- A bundle that weave w issues now is noted, as `at_` stands before it; bundles whose last cell has read are forgotten. -/
def Core.notePlayed (c : Core) (w : Nat) (at_ : Core) (words : List Nat) : Core :=
  let x := c.weave w
  let own (id : Nat) : Bool := decide (at_.nextId ≤ id)
  { c with played := mset c.played w (((mget c.played w []).filter fun (b : Played) => c.now ≤ b.issue + 8) ++
      [⟨c.now, at_.nextId, words, at_.weave w,
        (x.flight.filter fun r => own r.id && !r.latch).map fun r => (r.slot, r.file, r.reg, r.id),
        (x.skews.find? fun k => own k.id).map (·.id), (x.atomics.find? fun a => own a.id).map (·.id),
        (c.gzNet.find? fun m => m.src == w && own m.id).map (·.id)⟩]) }
/-- A register with wrong parity is consumption with source 5 where a bundle that takes effect reads it, and so is a lane register with
an armed parity failure, in the lane's cell (R376, R399). `at_` is the machine as the bundle reads it. -/
def Core.laneParity (c at_ : Core) (w : Nat) (xs : List Syl) : Core :=
  let wv := at_.weave w
  let s : State := { core := { at_ with cur := w }, base := none }
  let c := wv.badRegs.foldl (fun c (file, r, lane) =>
    if xs.any fun x => match x.instr? with | some i => readsReg i file r lane s | none => false then
      c.sched (c.now + lane / 16) bHost w (.cancelAt w 5 (unitCode ⟨0, secOf w, w % 4⟩) 0 false)
    else c) c
  let e := wv.errinj.toNat
  let lane := bits e 31 24
  if wv.injecting && bits e 59 56 == 5 && xs.any fun x => match x.instr? with
      | some i => readsLane i (e % 32) lane s
      | none => false
  then (c.disarm w).sched (c.now + lane / 16) bHost w (.cancelAt w 5 (unitCode ⟨0, secOf w, w % 4⟩) 0 true)
  else c
/-- What a bundle's issue does to its segment: it may open one, and its bytes enter the signature (R24, R90). -/
def Weave.countBundle (x : Weave) (i : Iss) (ws : List Nat) (now : Nat) : Weave :=
  let g := match i.seg with
    | some e => openSegment ws e now i.pc
    | none => x.seg
  { x with
    seg := g.add ws
    segDone := if i.seg.isSome || i.done then false else x.segDone }
/-- The bundle has executed and takes effect, as a phase mark too where `mark` says so. A slip of it ends here, so that its own
`csrr` of SLIPCTR does not see it (log 49). -/
def State.commit (s : State) (w : Nat) (xs : List Syl) (mark : Bool) : Core :=
  let wv0 := s.wv
  let c := ((s.core.notePlayed w s.rd (xs.map (·.word))).laneParity s.rd w xs).endSlip w
  let i := c.iss
  let ws := xs.map (·.word)
  let c := if wv0.inHandler then c else c.modW w fun x => x.countBundle i ws c.now
  let c := c.advance w wv0.loops
  let c := c.modW w fun x => { x with
    lastIssue := some c.now
    fixedAt := if i.done then x.fixedAt else none
    realignTo := none
    busWait := none
    markedAt := if mark then some c.now else x.markedAt
    red := { x.red with compared := wv0.inHandler && x.red.compared } }
  let pair : Bool := Core.hasPartner c w
  let c : Core := if pair then
      let c := c.modW w fun x => { x with
        red := { x.red with hash := foldEffects x.red.hash xs { core := s.rd, base := none } x i.target } }
      let c := c.modW (w + 1) fun x => { x with
        red := { x.red with seen := x.red.seen ++ [⟨wv0.ports, wv0.buf, wv0.gbuf, wv0.views, wv0.viewBase, i.reaches⟩] } }
      (c.copyShared w xs).sched (c.now + 2) bIssue (w + 1) (.partnerIssue (w + 1))
    else c
  let reach (c : Core) (r : Reaches) (mark : Bool) : Core :=
    let c := c.reach! w r
    if mark then c.arriveAt w 1 0 else c
  let c :=
    if pair && (mark || comparesAt xs i (c.weave w).red.held.length) then
      -- the boundary or the halt happens once the compare has passed; the next bundle issues 4 cycles after the point
      let now := match i.reaches with | .barr _ | .realign _ _ _ => true | _ => false
      let c := (if now then reach c i.reaches false else c).comparePoint w (if now then .no else i.reaches) mark 3
      c.modW w fun x => { x with lastIssue := some (c.now + 3) }
    else reach c i.reaches mark
  let c := if wv0.dbg.step then c.requestHalt w else c
  if i.done then c else c.schedIssue w (c.now + 1)

/-! ## Issue -/

/-- Events that a bundle boundary takes before its bundle, in the order of R321, user events apart; none where there is
none. -/
def Core.boundaryTrap (c : Core) (w : Nat) : Option Core :=
  let wv := c.weave w
  let lands := match wv.landing with
    | some 1 => !(wv.plevel < 6 && decide (wv.plevel < wv.loops.length))
    | some _ => true
    | none => false
  if wv.dbg.haltReq then some (c.tryHalt ((c.haltSet w).filter fun v => (c.weave v).dbg.haltReq))
  else if wv.preempt && lands && !wv.priv && !wv.inue then some (c.enterPreempt w)
  else if wv.evictWarn && !wv.priv then some (c.takeEvict w)
  else none
/-- The user event that a bundle boundary takes (R33). -/
def Core.boundaryEvent (c : Core) (w : Nat) : Option Core :=
  let wv := c.weave w
  if wv.admitsEvent then (wv.nextEvent c.now).map fun ev => c.enterEvent w ev else none
/-- The first bundle of a launch or a resume: its checkpoint, its view of memory as it stands, and for a launch the cycle that CYCLE
and ENERGY count from (R27, R40, R302): CYCLE of each weave from that weave's own ENTRY, ENERGY from the launch's earliest (log 65). After
a resume no pre-emption lies since the checkpoint (R329). -/
def Core.firstBundle (c : Core) (w : Nat) : Core :=
  let energy := (c.ctx (c.ctxOf w)).energy
  let c := match (c.weave w).launch, c.launchOf w with
    | some n, some l =>
      if l.resumed then c
      else (c.modW w fun x => { x with startCycle := c.now }).modL n fun l => { l with energyAt := some (l.energyAt.getD energy) }
    | _, _ => c.modW w fun x => { x with startCycle := c.now }
  let c := c.modW w fun x => { x with views := [], viewBase := c.verCtr - 1, preempted := false }
  c.capture w (c.weave w).pc.toNat (c.weave w).loops
/-- A bundle that is not to issue now is tested again in the next cycle. -/
def Core.retry (c : Core) (w : Nat) : Core := c.schedIssue w (c.now + 1)
/-- A condition of R20 fails (R21, R22), of the syllable in a slot, 0xFF for a wait that no syllable of the bundle names. In the
issue's own band a semaphore may still be served in this cycle. -/
def Core.notReady (c : Core) (w pc code slot : Nat) (late : Bool) : Core :=
  let wv := c.weave w
  if code = 3 ∧ !late then
    (c.unsched fun a => a == .issue w || a == .lateIssue w).sched c.now bLate w (.lateIssue w)
  else if wv.timed && wv.slipTrap then
    let at_ := wv.slipping.getD c.now
    c.takeTrap w ⟨0x08, slot, 0, word code, word (at_ - wv.startCycle), pc, false, false, c.now⟩
  else (c.modW w fun x => { x with slipping := if x.timed then some (x.slipping.getD c.now) else none }).retry w
/-- A trap of a syllable before any executes (R83 items 1 to 4, R24). -/
def Core.staticTrap (c : Core) (w cause slot : Nat) (info0 info1 : Word) : Core :=
  let wv := c.weave w
  c.takeTrap w ⟨cause, slot, 0, info0, info1, wv.pc.toNat, false, false, c.now⟩
/-- The issue context of a weave's bundle; `late` where the semaphores of the cycle have been serviced (R119). -/
def Core.begin! (c : Core) (w len : Nat) (late : Bool) : State :=
  let c := { c with cur := w, iss := { Iss.reset with pc := (c.weave w).pc.toNat, len := len, late := late } }
  { core := c, base := some c }
/-- The rows of the program bank that the bundle at the PC lies in. -/
def Core.fetchRows (c : Core) (w : Nat) : List Nat :=
  let wv := c.weave w
  ((List.range (c.bundle w).length).map fun i => rowAddr (bankFlat w wv.bank (wv.pc.toNat + i))).foldl
    (fun l r => if l.contains r then l else l ++ [r]) []
/-- A weave of the same timed launch is to issue a `bkpt` in this cycle while a debugger is attached (R334): all halt before the
faults and conditions of that bundle are tested (log 50). -/
noncomputable def Core.breaksNow (c : Core) (w : Nat) : Bool :=
  (c.weave w).timed && c.attached w && (c.haltSet w).any fun v =>
    let wv := c.weave v
    (c.agenda.any fun e => e.due == .cycle c.now && e.act == .issue v) && decide (c.dueIssue v ≤ c.now) &&
    (syllables (fun p => (wv.port p).kind) (c.bundle v)).any fun x => match x.dec with | .ok (.bkpt _) => true | _ => false
/-- TIMING of a phase mark that not every participant of its sector issues in this cycle (R25). -/
def Core.unmatched (c : Core) (w slot : Nat) : Core :=
  let wv := c.weave w
  c.takeTrap w ⟨0x08, slot, 0, 9, word (wv.slipping.getD c.now - wv.startCycle), wv.pc.toNat, false, false, c.now⟩
/-- The execution of a weave's bundle and what follows from it. `ok` tells, of the machine with the weave's phase mark, whether every
participant of the sector marks in this cycle; where not, TIMING at the `gap` comes before any other cause that the bundle's state
gives a later slot (R25, R83). -/
noncomputable def Core.issueBundle (ex : Exec) (ok : Core → Nat → Bool) (c : Core) (w : Nat) (late : Bool) : Out :=
  let wv := c.weave w
  let ws := c.bundle w
  let xs := syllables (fun p => (wv.port p).kind) ws
  let back (c : Core) : Out := .next { core := c, base := none }
  match staticFault wv.pc.toNat wv.priv xs with
  | some (cause, slot) => back (c.staticTrap w cause slot (word ((ws.getD slot 0))) 0)
  | none =>
    if c.hasPartner w && wv.seg.isOpen && wv.segChecks && ws.any (isLead 2) && !wv.red.compared then
      -- the segment's end is a compare point of a redundant pair (R387)
      back (((c.comparePoint w .no false 4).modW w fun x => { x with
        fixedAt := some (c.now + 4)
        red := { x.red with compared := true } }).schedIssue w (c.now + 4))
    else
    let halts := xs.any fun x => match x.dec with | .ok .halt => true | _ => false
    match c.segmentFaults w ws halts with
    | f :: fs => back (c.segmentTrap w (f :: fs))
    | [] =>
      let c := c.resolveAtomics w
      let c := if wv.ckpt.isNone then c.firstBundle w else c
      let marks := if wv.timed && (c.launchOf w).isSome then markSlot xs else none
      let alone : Option Nat := marks.filter fun _ => !ok (c.modW w fun x => { x with markedAt := some c.now }) w
      match runBundle ex (c.begin! w ws.length late) xs with
      | .next s =>
        if s.base.isNone then
          match s.core.iss.held with
          | some code =>
            -- a first bundle that is held has not issued: its checkpoint is still to come
            let held := if wv.ckpt.isNone then s.core.modW w fun x => { x with ckpt := none } else s.core
            if code = 0 then back (held.retry w)
            else if code ≠ 6 ∧ (code ≠ 3 ∨ late) ∧ wv.slipTrap then
              match alone with
              | some slot => back (c.unmatched w slot)
              | none => back (held.notReady w wv.pc.toNat code s.core.iss.slot late)
            else back (held.notReady w wv.pc.toNat code s.core.iss.slot late)
          | none => match alone with
            | some slot => back (c.unmatched w slot)
            | none => back s.core
        else match marks with
          | none => back (s.commit w xs false)
          | some slot =>
            let done := s.commit w xs true
            back (if ok done w then done else c.unmatched w slot)
      | r => r
/-- The fetch of a weave's bundle, whose words may be flagged (R372, R384), then the bundle. -/
noncomputable def Core.fetchBundle (ex : Exec) (ok : Core → Nat → Bool) (c : Core) (w : Nat) (late : Bool) : Out :=
  let c' := c.readRows w (c.fetchRows w) c.now
  if c'.agenda.length ≠ c.agenda.length then .next { core := c'.schedIssue w c.now, base := none }
  else c.issueBundle ex ok w late
/-- The wait for a collective boundary or a barrier, the fetch, then the bundle. A wait that would raise TIMING gives way to the
causes of R83 items 1 to 4 in the bundle that waits. -/
noncomputable def Core.fetchIssue (ex : Exec) (ok : Core → Nat → Bool) (c : Core) (w : Nat) (late : Bool) : Out :=
  let wv := c.weave w
  match wv.wait with
  | .boundary barr _ _ doneAt =>
    if (doneAt.map fun d => decide (d + 1 ≤ c.now)) == some true then (c.modW w fun x => { x with wait := .none }).fetchBundle ex ok w late
    else
      let ws := c.nextBundle w
      let fault := if wv.timed && wv.slipTrap then staticFault wv.pc.toNat wv.priv (syllables (fun p => (wv.port p).kind) ws) else none
      match fault with
      | some (cause, slot) => .next { core := c.staticTrap w cause slot (word (ws.getD slot 0)) 0, base := none }
      | none => .next { core := c.notReady w wv.pc.toNat (if barr then 4 else 7) 0xFF true, base := none }
  | .none => c.fetchBundle ex ok w late
/-- A weave's issue: its due cycle, the events of the boundary, then its bundle. A trap of the bundle outranks a user event
(R321). While a `realign` holds the weave, its bundle boundary admits what a boundary admits (R158). -/
noncomputable def Core.issueWith (ex : Exec) (ok : Core → Nat → Bool) (c : Core) (w : Nat) (late : Bool) : Out :=
  let wv := c.weave w
  let back (c : Core) : Out := .next { core := c, base := none }
  if wv.running && wv.frozen then back (c.retry w)
  else if !wv.running || wv.dbg.halted.isSome || wv.partner? then back c
  else if c.now < c.dueIssue w ∧ wv.realignTo.isNone then back (c.schedIssue w (c.dueIssue w))
  else match if late then none else c.boundaryTrap w with
    | some c => back c
    | none =>
      if c.now < c.dueIssue w then back (c.retry w)
      else if !late && c.breaksNow w then back ((c.requestHalt w).tryHalt (c.haltSet w))
      else match if late then none else c.boundaryEvent w with
        | none => c.fetchIssue ex ok w late
        | some c' =>
          match c.fetchIssue ex ok w late with
          | .next s => if (s.core.weave w).priv || (s.core.weave w).pendTrap.isSome then .next s else back c'
          | _ => back c'

/-! ## Phase marks (R25) -/

/-- What is left of the cycle for a sector's weaves, every mark taken as matched: their issues and the services of their semaphores,
in the order of R119. A weave whose fetch has found a flag in this cycle does not issue. -/
noncomputable def Core.restOfCycle (ex : Exec) (sec : Nat) : Nat → Core → Core
  | 0, c => c
  | n + 1, c =>
    let flagged (v : Nat) : Bool := c.agenda.any fun e => e.due == .cycle c.now && match e.act with
      | .flagWord u _ _ _ | .cancelAt u _ _ _ _ => u == v
      | _ => false
    let mine (e : Entry) : Bool := match e.act with
      | .issue v | .lateIssue v => secOf v == sec && !flagged v
      | .swaitServed k _ => k == sec
      | _ => false
    match c.firstDue (c.agenda.filter mine) with
    | none => c
    | some e =>
      let c := { c with agenda := c.agenda.erase e }
      let out : Out := match e.act with
        | .issue v => c.issueWith ex (fun _ _ => true) v false
        | .lateIssue v => c.issueWith ex (fun _ _ => true) v true
        | .swaitServed k m => execSwaitServed k m { core := c, base := none }
        | _ => .next { core := c, base := none }
      match out with
      | .next s => s.core.restOfCycle ex sec n
      | _ => c
/-- Every participant of the weave's sector marks in this cycle (R25, R26; log 12). -/
noncomputable def Core.allMark (ex : Exec) (c : Core) (w : Nat) : Bool :=
  match c.launchOf w with
  | none => true
  | some l =>
    let ws := l.participants 1 (unitOf 1 w)
    let marked (c : Core) : Bool := ws.all fun v => (c.weave v).markedAt == some c.now
    marked c || marked (c.restOfCycle ex (secOf w) (4 * c.agenda.length + 64))
/-- A weave's issue. -/
noncomputable def Core.issue (ex : Exec) (c : Core) (w : Nat) (late : Bool) : Out := c.issueWith ex (Core.allMark ex) w late

/-! ## The partner of a redundant pair (R385 to R388) -/

/-- The weave's state with the pair's shared parts of before. -/
def keepShared (x before : Weave) : Weave :=
  { x with
    ports := before.ports
    buf := before.buf
    gbuf := before.gbuf
    views := before.views
    viewBase := before.viewBase
    gauze := before.gauze
    gzSend := before.gzSend
    atomics := before.atomics
    consumed := before.consumed }
/-- The partner's own syllables: not those whose effect is the leader's. -/
def ownSyls (xs : List Syl) : List Syl := xs.filter fun x => match x.instr? with | some i => !sharedForm i | none => false
/-- What the partner runs its bundle on: the ports, the phase buffer and the view as its leader saw them (R385, R386). -/
def Core.partnerView (c : Core) (p : Nat) (seen : Seen) : Core :=
  c.modW p fun x => { x with ports := seen.ports, buf := seen.buf, gbuf := seen.gbuf, views := seen.views, viewBase := seen.viewBase }
/-- The partner's `halt` ends a segment that differs: the pair takes SEGMENT in place of the leader's compare point (R24, R385). -/
def Core.partnerSegment (c : Core) (p : Nat) (f : Word × Word) : Core :=
  let w := p - 1
  let c := (c.unsched fun a => a == .comparePoint w).modW w fun x => { x with red := { x.red with point := none, reach := .no, mark := false } }
  c.segmentTrap w [(p, f)]
/-- The partner's issue, 2 cycles after its leader's: its own registers, lanes, LOCAL windows, segment and towers change, nothing
else. A G syllable is only checked and read for its record; a syllable that traps where the leader's did not has no effect and makes
the hashes differ (R386; log 17). -/
noncomputable def Core.partnerBundle (ex : Exec) (c : Core) (p : Nat) : Core :=
  let c' := c.readRows p (c.fetchRows p) c.now
  if c'.agenda.length ≠ c.agenda.length then c'.sched c.now bIssue p (.partnerIssue p)
  else
  let c := if (c.weave p).ckpt.isNone then c.firstBundle p else c
  let before := c.weave p
  let lead := c.weave (p - 1)
  let seen := before.red.seen.headD ⟨lead.ports, lead.buf, lead.gbuf, lead.views, lead.viewBase, .no⟩
  let ws := c.bundle p
  let xs := syllables (fun n => (seen.ports.getD n Port.reset).kind) ws
  let halts := xs.any fun x => match x.dec with | .ok .halt => true | _ => false
  let fault := if halts && before.segChecks then
      segmentAtHalt before.seg before.timed ws c.now (c.observed p c.now ws) before.pc.toNat
    else none
  let s0 := (c.partnerView p seen).begin! p ws.length true
  let (s, traps) := runLoose ex (ownSyls xs) s0 []
  let mine (a : Act) : Bool := match a with
    | .resultLanding v _ _ => v == p
    | .latchLanding v _ _ => v == p
    | .wavefrontSkewExecution v _ _ => v == p
    | .probeUpdate v _ _ => v == p
    | .cancelAt v _ _ row _ => v == p && decide (towerBase ≤ row ∧ row < bankBase)
    | .flagWord v row _ _ => v == p && decide (towerBase ≤ row ∧ row < bankBase)
    | _ => false
  let c' := { c with
    nextId := s.core.nextId
    agenda := c.agenda ++ ((s.core.agenda.drop c.agenda.length).filter fun (e : Entry) => mine e.act)
    weaves := (mset c.weaves p (keepShared (s.core.weave p) before)).map fun ((v, x) : Nat × Weave) =>
      (v, { x with errinj := (s.core.weave v).errinj })
    iss := s.core.iss
    cur := p }
  let c' := (c'.notePlayed p s0.core ws).laneParity s0.core p xs
  let c' := if before.inHandler then c' else c'.modW p fun x => x.countBundle { s.core.iss with done := halts } ws c.now
  let c' := c'.advance p before.loops
  let c' := c'.modW p fun x => { x with
    lastIssue := some c.now
    fixedAt := none
    red := { x.red with
      seen := x.red.seen.drop 1
      hash := foldEffects x.red.hash xs s0 (s.core.weave p) s.core.iss.target ^^^ (if traps.isEmpty then 0 else 1) } }
  let c' := match seen.reaches with
    | .realign tick texp safe => c'.takeRealign p tick texp safe
    | _ => c'
  let c' := xs.foldl (fun c x => match x.instr? with
    | some (.refdefer n) => c.deferRefresh p n.toNat
    | _ => c) c'
  match fault with
  | some f => c'.partnerSegment p f
  | none => if halts then c'.endWeave p else c'
/-! ## Bundles played again (R15, R193, R203; log 13) -/

/-- What values that came late have changed in bundles that have issued: lanes of results, the LOCAL stores of lanes by bundle, bits
of buffered rows, FCSR and the generators of lanes, each with the value before and after; and a trap that was not there before. -/
structure Late where
  res : List (Nat × Nat × LaneVal)
  stores : List (Nat × Nat × List RowWrite)
  rows : List (Nat × BufRow × Word)
  fcsr : Word × Word
  srd : List (Nat × BitVec 32 × BitVec 32)
  trap : Option (Nat × TrapInfo)

/-- The stores of one lane become others; lanes stay in ascending order (R193). -/
def Skew.putLane (k : Skew) (lane : Nat) (rs : List RowWrite) : Skew :=
  { k with stores := k.stores.filter (fun r => decide (r.lane < lane)) ++ rs ++ k.stores.filter fun r => decide (lane < r.lane) }
/-- Bits of a buffered row become those of x. -/
def putBufBits (buf : Map BufRow) (addr : Nat) (x : BufRow) (bits : Word) : Map BufRow :=
  let b := mget buf addr ⟨0, 0⟩
  let m := mergeBits b.mask x.mask bits
  if m = 0 then mdel buf addr else mset buf addr ⟨mergeBits b.val x.val bits, m⟩
/-- The bits of buffered rows in which two buffers differ, with the rows of the second. -/
def bufDiff (old new : Map BufRow) : List (Nat × BufRow × Word) :=
  (((old ++ new).map (·.1)).foldl (fun l a => if l.contains a then l else l ++ [a]) []).filterMap fun a =>
    let x := mget old a ⟨0, 0⟩
    let y := mget new a ⟨0, 0⟩
    let m := (x.mask ^^^ y.mask) ||| (x.val ^^^ y.val)
    if m = 0 then none else some (a, y, m)
/-- A word that was x and would have been y; where another bundle has changed it since, the bits that y adds. -/
def lateFlags (cur : Word) (p : Word × Word) : Word := if cur = p.1 then p.2 else cur ||| (p.2 &&& ~~~p.1)
/-- FCSR and the generators with what has changed. -/
def Late.modes (k : Late) (wv : Weave) : Weave :=
  { wv with
    fcsr := lateFlags wv.fcsr k.fcsr
    srd := k.srd.foldl (fun m (l, o, n) => if wv.gen l = o then mset m l n else m) wv.srd }
/-- A weave with what has changed. -/
def Late.patch (k : Late) (wv : Weave) : Weave :=
  { k.modes wv with
    flight := wv.flight.map fun r => (k.res.filter (·.1 == r.id)).foldl (fun r f => r.putLane f.2.1 f.2.2) r
    skews := wv.skews.map fun y => (k.stores.filter (·.1 == y.id)).foldl (fun y f => y.putLane f.2.1 f.2.2) y
    buf := k.rows.foldl (fun b (a, x, m) => putBufBits b a x m) wv.buf }
/-- Forms whose work is done once more: lead syllables, scalar and lane forms and `csrr`. -/
def playsAgain (x : Syl) : Bool :=
  slotOrder x.word < 7 || match x.instr? with
    | some (.csrr ..) => true
    | _ => false
/-- A bundle's scalar and lane work done once more on a weave, with the LOCAL rows that some lanes read, and the traps that it meets.
Nothing holds it. -/
noncomputable def Core.runAgain (ex : Exec) (c : Core) (w : Nat) (b : Played) (wv : Weave) (rows : List (Nat × Nat × Word)) :
    Core × List TrapInfo :=
  let read : List Skew := if rows.isEmpty then [] else [⟨0, rows.map fun (l, a, x) => ⟨l, a, x, allOnes⟩⟩]
  let wv := { wv with skews := wv.skews ++ read }
  let c := { c with now := b.issue, nextId := b.firstId, gzNet := [], weaves := mset c.weaves w wv }
  let xs := (syllables (fun n => (wv.port n).kind) b.words).filter playsAgain
  let s0 := (c.begin! w b.words.length true).modIss fun i => { i with again := true }
  let (s, ts) := runLoose ex (if wv.partner? then ownSyls xs else xs) s0 []
  let i := s.core.iss
  (s.core, if i.fpx = 0 then ts else ts ++ [⟨0x15, i.fpxSlot, 0, word i.fpx, 0, i.pc, false, false, b.issue⟩])
/-- The result of a bundle's re-run that stands for a result of the bundle. -/
def Played.result (k : Nat × File × BitVec 5 × Nat) (rs : List Result) : Option Result :=
  rs.find? fun r => r.slot == k.1 && r.file == k.2.1 && r.reg == k.2.2.1
/-- Lanes of a bundle's results that differ between two sets, by the numbers of the results that are under way. -/
def Played.resDiff (b : Played) (old new : List Result) : List (Nat × Nat × LaneVal) :=
  b.rids.flatMap fun k => match Played.result k old, Played.result k new with
    | some o, some n => ((o.lanes ++ n.lanes).foldl insertNat []).filterMap fun lane =>
        if o.laneVal lane = n.laneVal lane then none else some (k.2.2.2, lane, n.laneVal lane)
    | _, _ => []
/-- The results of a bundle among a weave's. -/
def Played.own (b : Played) (x : Weave) : List Result := x.flight.filter fun r => decide (b.firstId ≤ r.id) && !r.latch
/-- The LOCAL stores of a bundle take what the bundle run again stores: `o` and `n` are the weave after the bundle as it was run and
as it is run again. -/
def Core.fixStores (c : Core) (w : Nat) (b : Played) (o n : Weave) : Core × Played × List (Nat × Nat × List RowWrite) :=
  let own (x : Weave) : List RowWrite := ((x.skews.find? fun k => decide (b.firstId ≤ k.id)).map (·.stores)).getD []
  let lanesOf (rs : List RowWrite) (lane : Nat) : List RowWrite := rs.filter (·.lane == lane)
  let moved := allLanes.filter fun l => lanesOf (own o) l != lanesOf (own n) l
  if moved.isEmpty then (c, b, [])
  else
    let (id, c) : Nat × Core := match b.skew with
      | some id => (id, c)
      | none => c.fresh
    let c := if (c.weave w).skews.any (·.id == id) then c else c.modW w fun x => { x with skews := x.skews ++ [⟨id, []⟩] }
    let stores := moved.map fun l => (id, l, lanesOf (own n) l)
    let c := (cellsOf moved).foldl (fun c cell => c.sched (b.issue + cell) bWave w (.wavefrontSkewExecution w id cell)) c
    (c.modW w fun x => { x with
      skews := x.skews.map fun k => (stores.filter (·.1 == k.id)).foldl (fun k f => k.putLane f.2.1 f.2.2) k }, { b with skew := some id }, stores)
/-- The atomics of a bundle that are still to apply take what the bundle run again asks for. -/
def Core.fixAtomics (c : Core) (w : Nat) (b : Played) (o n : Weave) : Core × Played :=
  let own (x : Weave) : Option AtomicSet := x.atomics.find? fun a => decide (b.firstId ≤ a.id)
  let ops (a : Option AtomicSet) (lane : Nat) : List Atomic := ((a.map (·.ops)).getD []).filter (·.lane == lane)
  let swapped := allLanes.filter fun l => ops (own o) l != ops (own n) l
  if swapped.isEmpty then (c, b)
  else
    let (c, b) : Core × Played := match b.atom, own n with
      | none, some a =>
        let (rid, c) := c.fresh
        let (aid, c) := c.fresh
        let c := c.modW w fun x => { x with atomics := x.atomics ++ [{ a with id := aid, result := some rid, ops := [] }] }.setSt 4 true
        match n.flight.find? fun r => some r.id == a.result with
        | some r => (c.putResult w { r with id := rid }, { b with atom := some aid, rids := b.rids ++ [(r.slot, r.file, r.reg, rid)] })
        | none => (c, { b with atom := some aid })
      | _, _ => (c, b)
    let id := b.atom.getD 0
    let c := (cellsOf swapped).foldl (fun c cell => c.sched (b.issue + cell + 2) bAtomic (w * 8 + cell) (.laneAtomicApply w id cell)) c
    (c.modW w fun x => { x with
      atomics := x.atomics.map fun a => if a.id != id then a
        else { a with ops := allLanes.flatMap fun l => if swapped.contains l then ops (own n) l else ops (some a) l } }, b)
/-- The LOCAL rows that a bundle's cells are still to read are those of the bundle run again. -/
def Core.fixReads (c : Core) (w : Nat) (b : Played) (n : Weave) : Core :=
  let mine := (n.reads.filter (·.issue == b.issue)).filterMap fun r =>
    (b.rids.find? fun k => ((Played.result k (b.own n)).map (·.id)) == some r.id).map fun k =>
      { r with id := k.2.2.2, skews := r.skews.filter (· != 0) }
  c.modW w fun x => { x with reads := x.reads.filter (·.issue != b.issue) ++ mine }
/-- The message that a bundle has sent takes the rows of the bundle run again; `o` and `n` are the messages under way after the runs. -/
def Core.fixMessage (c : Core) (w : Nat) (b : Played) (o n : List GzMsg) : Core :=
  match b.msg, o.find? (·.src == w), n.find? (·.src == w) with
  | some id, some x, some y =>
    if x.rows = y.rows then c
    else { c with gzNet := c.gzNet.map fun (m : GzMsg) => if m.id = id then { m with rows := y.rows } else m }
  | _, _, _ => c
/-- One bundle is played again: its weave before the bundle takes what has changed, and where the bundle then does something else, its
results, flags, draws and accesses under way do too. A trap that it now meets ends the replay. -/
noncomputable def Core.playAgain (ex : Exec) (w : Nat) (fs : List Fix) (acc : Core × Late × List Played) (b : Played) : Core × Late × List Played :=
  let (c, k, done) := acc
  let wv := k.patch b.wv
  let rows := fs.filterMap fun f => if b.rids.any (·.2.2.2 == f.rid) then f.row.map fun (a, x, y) => (f.lane, a, x, y) else none
  if k.trap.isSome || (wv = b.wv && rows.isEmpty) then (c, k, done ++ [b])
  else
    let (oc, ots) := c.runAgain ex w b b.wv (rows.map fun (l, a, x, _) => (l, a, x))
    let (nc, nts) := c.runAgain ex w b wv (rows.map fun (l, a, _, y) => (l, a, y))
    let b := { b with wv := wv }
    match nts.find? fun t => !(ots.any fun u => u.slot == t.slot) with
    | some t => (c, { k with trap := some (wv.pc.toNat, t) }, done ++ [b])
    | none =>
      let o := oc.weave w
      let n := nc.weave w
      let res := b.resDiff (b.own o) (b.own n)
      let c := res.foldl (fun c (rid, lane, x) => (c.withPartner w).foldl (fun c v =>
        let c := match x with
          | some (some d) => if v = w then c else c.noteFix v rid lane d none
          | _ => c
        c.putLane v rid lane x) c) c
      let (c, b, stores) := (c.fixMessage w b oc.gzNet nc.gzNet).fixStores w b o n
      let (c, b) := c.fixAtomics w b o n
      let c := c.fixReads w b n
      let rows := bufDiff o.buf n.buf
      let c := if (c.weave w).phaseno = wv.phaseno then c.modW w fun x => { x with
          buf := rows.foldl (fun m (a, y, bits) => putBufBits m a y bits) x.buf } else c
      let lanes := allLanes.filter fun l => o.gen l != n.gen l
      (c, ⟨k.res ++ res, k.stores ++ stores, rows, (o.fcsr, n.fcsr), lanes.map fun l => (l, o.gen l, n.gen l), none⟩, done ++ [b])
/-- A trap that a late value has brought to a bundle that has issued is taken now and names that bundle; inside a handler only a
fatal one (log 13). -/
def Core.lateTrap (c : Core) (w pc : Nat) (t : TrapInfo) : Core :=
  let x := c.weave w
  if !x.running || x.pendTrap.isSome || x.partner? || (x.inHandler && !t.fatal) then c
  else c.takeTrap w { t with epc := pc, at_ := c.now }
/-- The bundles that have issued since the noted values were first produced are played again, in order. -/
noncomputable def Core.replay (ex : Exec) (c : Core) (w : Nat) : Core :=
  let fs := mget c.fixes w []
  let k : Late := ⟨fs.map fun f => (f.rid, f.lane, some (some f.val)), [], [], (0, 0), [], none⟩
  let (c, k, bs) := (mget c.played w []).foldl (Core.playAgain ex w fs) ({ c with fixes := mdel c.fixes w }, k, [])
  let c := { c with played := mset c.played w bs }.modW w k.modes
  match k.trap with
  | some (pc, t) => c.lateTrap w pc t
  | none => c
/-- The partner passes its leader's boundary (R385). -/
def Core.partnerBoundary (c : Core) (p mask : Nat) : Core :=
  c.boundaryTail p mask (c.weave p).pc.toNat (c.weave p).loops

end Sys2Proof.Machine
end

