-- ==== Sys2Proof/Machine/Contain.lean ====
section
/-! DEFINITION. Errors of the arrays and their containment: flags, freezes and verdicts (R371 to R376), phase cancellation
and what refuses it (R325 to R329), refills (R328), redundant compare points (R386 to R388). -/
namespace Sys2Proof.Machine

/-! ## Units and logs -/

/-! ## Cancellation (R325 to R329) -/

/-- The weaves that are cancelled together: a redundant pair shares its phase buffer (R385, R388). -/
def Core.pairOf (c : Core) (w : Nat) : List Nat :=
  if (c.weave w).redun then [w / 2 * 2, w / 2 * 2 + 1] else [w]
/-- Why a cancellation is refused (R329), as the reason of R314. -/
def Core.refusal (c : Core) (w : Nat) : Option Nat :=
  let wv := c.weave w
  if wv.contained then some 1
  else if wv.preempted then some 5
  else if wv.atom then some 2
  else if wv.consumed.any fun (n, x) => (c.sem (secOf w) n).count + x.taken < x.landed then some 3
  else match wv.ckpt with
    | none => some 4
    | some k => if k.parityBad then some 4 else none
/-- PHASE_UNCONTAINED (R313, R329): a fatal context error. -/
def Core.uncontain (c : Core) (w src unit reason : Nat) : Core :=
  let wv := c.weave w
  let c := c.modW w fun x => { x with frozen := false }
  c.takeTrap w ⟨0x0B, 0xFF, 0, word (src + reason * 256), word unit, wv.pc.toNat, true, false, c.now⟩
/-- Step 2 of R327: jobs of the phase that have not started go, a `tx.stop` that still waits with them; started ones run on without
their signals. -/
def Core.cancelJobs (c : Core) (w mark : Nat) : Core × List Nat :=
  (sectorQueues (secOf w)).foldl (fun (acc : Core × List Nat) e =>
    ((acc.1.jobsOf e).filter fun j => j.weave == w && decide (mark ≤ j.mark)).foldl (fun (acc : Core × List Nat) j =>
      if j.started.isSome && !(j.kind == 2 && j.op == 2) then
        (acc.1.modJob e j.id fun (x : Job) => { x with suppress := true },
          if (acc.1.weave w).pendSwap = some j.id then acc.2 else acc.2 ++ [j.id])
      else (acc.1.removeJob e j.id, acc.2)) acc) (c, [])
/-- Step 4 of R327. -/
def Core.adjustSems (c : Core) (w : Nat) : Core :=
  (c.weave w).consumed.foldl (fun c (n, x) =>
    (c.modSem (secOf w) n fun y => { y with count := y.count + x.taken - x.landed }).serviceSem (secOf w) n) c
/-- Step 5 of R327: the newest logged job that covers the row runs again, as the same job, at the head of its queue (R328). -/
def Core.refetchRow (c : Core) (w row : Nat) : Core × List Nat :=
  match ((c.weave w).refill.reverse.find? fun e => e.job.rows.contains row) with
  | none => (c, [])
  | some e =>
    let q := EngId.copy w false
    let (mark, c) := c.fresh
    let id := e.job.id
    let job : Job := { e.job with
      wait := 256, sig := 256, rings := [16], lanes := [], entered := c.now, served := true, started := none, done := 0
      mark := mark, suppress := true, refetch := true }
    let js := c.jobsOf q
    let c := c.setJobs q (match js with
      | j :: rest => if j.started.isSome then j :: job :: rest else job :: js
      | [] => [job])
    (c.kick q, [id])
/-- What a handle waits for goes on after its restoration (R27, R137): probes whose updates had not landed land as far
from the re-run as they were from the checkpoint, walks go on. -/
def Core.rewalk (c : Core) (w ckptCycle ret : Nat) : Core :=
  ((c.weave w).handles.zip (List.range 16)).foldl (fun (c : Core) ((h, n) : Handle × Nat) =>
    let c := h.pend.foldl (fun (c : Core) (p : Nat × Walk) => c.sched (ret + (h.walkSince + 64 - ckptCycle)) bLand n (.probeUpdate w n p.2.gen)) c
    match h.walk with
    | some x =>
      let (t, c) := c.freeWait
      c.sched (ret + t) bHost n (.probeWalkCompletion w n x.gen)
    | none => c) c
/-- Steps 1, 3 and 6 of R327: the weave stops, its buffers go, the checkpoint's state returns. -/
def Core.restore (c : Core) (w : Nat) (k : Checkpoint) : Core :=
  let c := (c.dropFlight w).dropWaiter w
  -- a repeat that was issued before the checkpoint is committed (R88)
  let earlier (r : RepRun) : Bool := decide (r.id ≤ k.jobMark)
  let earlierRep (p : Nat) : Bool := ((((c.weave w).ports.getD p Port.reset).rep).map earlier).getD false
  let c := c.unsched fun a =>
    match a with
    | .issue v => v == w | .lateIssue v => v == w | .sample v _ _ => v == w | .ldhReturn v => v == w
    | .trapEntry v => v == w | .userEventEntry v _ => v == w | .throttleEvent v => v == w | .flagWord v _ _ _ => v == w
    | .cancelAt v _ _ _ _ => v == w | .comparePoint v => v == w | .partnerIssue v => v == w | .weaveBoundary v _ => v == w
    | .repLaunch v p => v == w && !earlierRep p
    | .partnerBoundary v _ => v == w | .probeUpdate v _ _ => v == w | .probeWalkCompletion v _ _ => v == w
    | .preempt v => v == w | .evict v => v == w | .phaseRerun v => v == w | .partnerTime v _ _ => v == w
    -- the trap whose entry the cancellation outranks ends nothing (R321)
    | .fatalContextError v => v == w | _ => false
  let c : Core := { c with
    peerReads := c.peerReads.filter fun r => match r.src with | .ldh v => v != w | _ => true
    cpWords := c.cpWords.filter fun (x : CpWord) => x.op != .peerWord w
    recoveries := c.recoveries.map fun (r : Recovery) => if r.weave = some w then { r with weave := none } else r
    weaves := c.weaves.map fun ((v, x) : Nat × Weave) => (v, { x with pendHinv := x.pendHinv.filter fun p => p.2.2 != w }) }
  c.modW w fun x => { x with
    pc := BitVec.ofNat 14 k.pc
    loops := k.loops
    s := k.s
    shadow := k.shadow
    handles := k.handles
    k := k.k
    v := k.v.foldl (fun m p => mset m p.1 p.2) (x.v.filter fun p => !bitAt k.chkmask.toNat (p.1 / 128))
    fcsr := k.fcsr
    fmtsel := k.fmtsel
    slipctr := k.slipctr
    ueframe := k.ueframe
    status := setBits k.status 4 3 1
    epc := k.epc
    tcause := k.tcause
    srd := k.srd
    seg := { k.seg with nocyc := true }
    segDone := false
    place := k.place
    buf := []
    gbuf := []
    ports := x.ports.map fun p => { p with stack := [], rep := p.rep.filter earlier }
    pendBswap := false
    pendDiv := [none, none, none]
    consumed := []
    consumedOver := false
    pendTrap := none
    served := none
    wait := .none
    aside := if k.aside = .none then .none else if x.wait = .none then x.aside else x.wait
    trapSched := k.trapSched
    eventSched := k.eventSched
    walkWaited := none
    busWait := none
    ldh := .none
    realignTo := none
    slipping := none
    landing := none
    passed := none
    lastIssue := none
    fixedAt := none
    bufBad := []
    badRegs := x.badRegs.filter fun b => b.1 == .v && !bitAt k.chkmask.toNat b.2.1
    frozen := false
    red := Redundancy.reset }
/-- A weave whose phase is cancelled while it, or the bundle that its handler returns to, waits at a boundary has not arrived: its
re-run arrives anew (R127, R131, R327). An arrival that the checkpoint of a handler left standing stays. A completed barrier that
has not yet passed waits for it again. -/
def Core.unarrive (c : Core) (w : Nat) (k : Checkpoint) : Core :=
  let x := c.weave w
  let wait := if k.aside != .none then .none else if x.wait = .none then x.aside else x.wait
  match wait, x.launch, c.launchOf w with
  | .boundary _ _ _ none, some n, some l =>
    let mine (a : Act) : Bool := l.bounds.any fun b => b.waiting.contains w &&
      a == match b.bar with
        | none => Act.collectiveBoundaryCompletion n b.scope b.unit
        | some i => .barrierCompletion n i b.scope b.unit
    let leave (xs : List Nat) : List Nat := xs.filter (· != w)
    let open_ (x : BarInst) : BarInst :=
      if x.viaBarr.contains w then { x with a := x.a - 1, arrived := leave x.arrived, viaBarr := leave x.viaBarr } else x
    let bars := l.bars.map fun ((i, b) : Nat × Barrier) => (i, { b with insts := b.insts.map fun ((k, x) : Nat × BarInst) => (k, open_ x) })
    (c.unsched mine).modL n fun l => l.bounds.foldl (fun l b =>
      if !b.waiting.contains w then l
      else
        let ws := leave b.waiting
        let l := { l with bounds := l.bounds.erase b }
        match b.bar with
        | none => if ws.isEmpty then l else { l with bounds := l.bounds ++ [{ b with waiting := ws }] }
        | some i =>
          let x := mget (l.bar i).insts (barKey b.scope b.unit) BarInst.reset
          l.setInst i b.scope w { x with a := x.e - 1, arrived := ws, viaBarr := ws, gen := !x.gen }) { l with bars := bars }
  | _, _, _ => c
/-- Cancellation of the phase of a weave, and of its partner's, at the present cycle (R327); `src` is the source of R314,
`row` the failing row or 0. Refused, it is a fatal context error (R329), for a second mismatch REDUNDANCY (R388). -/
def Core.cancelPhase (c : Core) (w src unit row : Nat) (injected : Bool) : Core :=
  let kind := if src ≤ 4 then 2 else src - 2
  let c := c.logEntry unit kind (logFlags true injected) (c.tagOf (c.ctxOf w)) (word (arrayAddr row)) 0
  let c := if row = 0 then c else c.poisonRow row
  let ws := c.pairOf w
  let lead := ws.headD w
  match ws.findSome? fun v => (c.refusal v).map fun r => (v, r) with
  | some (v, r) =>
    if src = 7 ∧ r = 1 then
      let wv := c.weave lead
      c.takeTrap lead ⟨0x16, 0xFF, 0, word wv.seg.startPc, 0, wv.pc.toNat, true, false, c.now⟩
    else c.uncontain v (if r = 4 then 8 else src) unit r
  | none =>
    let (c, wait) := ws.foldl (fun (acc : Core × List Nat) v =>
      match (acc.1.weave v).ckpt with
      | none => acc
      | some k =>
        let (c, ids) := acc.1.cancelJobs v k.jobMark
        (((c.adjustSems v).unarrive v k).restore v k, acc.2 ++ ids)) (c, [])
    let (c, ids) := if row = 0 then (c, []) else c.refetchRow lead row
    let wait := wait ++ ids
    let c := c.modW lead fun x => { x with rerun := some wait }
    if wait.isEmpty then c.sched (c.now + 16) bHost lead (.phaseRerun lead) else c
/-- One weave's part of the re-run, whose bundle issues at `ret` (R327 steps 6 and 7). -/
def Core.rerunWeave (c : Core) (w ret : Nat) : Core :=
  match (c.weave w).ckpt with
  | none => c
  | some k =>
    let c := c.modW w fun x => { x with
      rerun := none
      texp := if x.timed then (((ret / Config.tickCycles : Nat) : Int) + k.tdelta).toNat else x.texp
      slipctr := if x.timed then slipAdd x.slipctr (ret - k.cycle) 1 else x.slipctr
      seg := { x.seg with first := ret }
      fixedAt := some ret }
    (c.inject w ret k.latches).rewalk w k.cycle ret
/-- PHASE_RERUN (R327): the bundle at the checkpoint PC issues in this cycle, a partner's two later (R385). -/
def execPhaseRerun (w : Nat) (s : State) : Out :=
  .next (s.modC fun c =>
    if (c.weave w).rerun.isNone then c
    else
      let c := c.rerunWeave w c.now
      let c := if c.hasPartner w then c.rerunWeave (w + 1) (c.now + 2) else c
      c.schedIssue w c.now)
/-- A weave consumes an error at this cycle (R325, R328). -/
def Core.cancelAt (c : Core) (w src unit row : Nat) (injected : Bool) : Core :=
  if (c.weave w).running then c.cancelPhase w src unit row injected else c

/-! ## Flags, freezes, verdicts (R373 to R375) -/

/-- What a weave has under way, n cycles later (R374). -/
def Weave.shifted (x : Weave) (n : Nat) : Weave :=
  { x with
    flight := x.flight.map fun r => { r with land := r.land + n, floor := r.floor + n }
    atomics := x.atomics.map fun a => { a with issue := a.issue + n }
    reads := x.reads.map fun r => { r with issue := r.issue + n }
    slipping := x.slipping.map (· + n)
    lastSector := x.lastSector.map (· + n)
    lastPair := x.lastPair.map (· + n)
    lastIssue := x.lastIssue.map (· + n)
    fixedAt := if x.realignTo.isSome then x.fixedAt else x.fixedAt.map (· + n)
    seg := { x.seg with first := x.seg.first + n }
    red := { x.red with point := x.red.point.map (· + n) } }
/-- Shift what a pair of weaves has under way by n cycles (R374). -/
def Core.shiftWeave (c : Core) (w n : Nat) : Core :=
  let mine (a : Act) : Bool :=
    match a with
    | .issue v => v == w | .lateIssue v => v == w | .resultLanding v _ _ => v == w | .latchLanding v _ _ => v == w
    | .wavefrontSkewExecution v _ _ => v == w | .laneAtomicApply v _ _ => v == w | .launchWordEntry v _ => v == w
    | .probeUpdate v _ _ => v == w | .partnerIssue v => v == w | .partnerBoundary v _ => v == w | .comparePoint v => v == w
    | .trapEntry v => v == w | .weaveBoundary v _ => v == w | .partnerTime v _ _ => v == w | _ => false
  -- a flag or a consumption of the present cycle is one of this cycle (R373, R374)
  let read (a : Act) : Bool := match a with
    | .cancelAt v _ _ _ _ => v == w | .flagWord v _ _ _ => v == w
    | _ => false
  let late (t : Nat) : Nat := if c.now ≤ t then t + n else t
  let c := { c with agenda := c.agenda.map fun (e : Entry) =>
    match e.due with
    | .cycle t => if mine e.act || (read e.act && c.now < t) then { e with due := .cycle (late t) } else e
    | .wall _ => e }
  let c := { c with played := mset c.played w ((mget c.played w []).map fun (b : Played) =>
    { b with issue := b.issue + n, wv := b.wv.shifted n }) }
  c.modW w (·.shifted n)
/-- Hand a flagged word to its array's engine: the verdict's cycle and the recovery's number (R373). -/
def Core.recover (c : Core) (row : Nat) (w : Option Nat) (job : Option (EngId × Nat)) (unc injected : Bool) (since : Nat) : Core × Nat :=
  let (arr, _, _) := arrayOf row
  let t := max c.now (mget c.recBusy arr 0) + Config.verdictCycles
  let (id, c) := c.fresh
  (({ c with
    recBusy := mset c.recBusy arr t
    recoveries := c.recoveries ++ [(⟨id, arr, row, w, job, unc, injected, since⟩ : Recovery)] }).sched t bHost id (.recoveryVerdict id), t)
/-- A word that a weave reads is flagged (R374): the weave freezes until its last verdict. A word that lanes of the weave have
flagged already is with its engine (R373). -/
def Core.flagWord (c : Core) (w row : Nat) (unc injected : Bool) : Core :=
  if !(c.weave w).running then (c.recover row none none unc injected c.now).1
  else if c.recoveries.any fun r => r.weave == some w && r.row == row then c
  else
    let mine := c.recoveries.filter fun r => r.weave == some w
    let since := (mine.head?.map (·.since)).getD c.now
    let old := mine.foldl (fun acc r => max acc (mget c.recBusy r.array 0)) c.now
    let (c, t) := c.recover row (some w) none unc injected since
    let c := (c.pairOf w).foldl (fun c v => c.shiftWeave v (t - old)) c
    (c.pairOf w).foldl (fun c v => c.modW v fun x => { x with frozen := true }) c
/-- A weave's job consumes an error (R375). What a job of a cancelled phase still reads is logged and cancels nothing again, and
where the weave's context is about to end nothing is left to do (log 59). -/
def Core.consumeJob (c : Core) (j : Job) (src unit row : Nat) (injected : Bool) : Core :=
  let wv := c.weave j.weave
  let noted (c : Core) : Core :=
    let c := c.logEntry unit (if src ≤ 4 then 2 else src - 2) (logFlags true injected) (c.tagOf (c.ctxOf j.weave)) (word (arrayAddr row)) 0
    if row = 0 then c else c.poisonRow row
  if c.agenda.any fun e => e.act == .fatalContextError j.weave then c
  else if j.suppress then (if c.poison.contains row then c else noted c)
  else if wv.running && wv.ofPhase j then c.cancelPhase j.weave src unit row injected
  else (noted c).uncontain j.weave src unit 4
/-- Rows of a job that lie in HBM, where a bank has spilled: their requests are decoded, and one that is poisoned drops the job, as a
page whose POISON is FAULT does (R351, R379 to R381; log 59). -/
def Core.spilledRead (c : Core) (e : EngId) (j : Job) (rows : List Nat) : Core × Bool :=
  let mine := rows.filter (· < hbmBytes)
  let ctx := c.ctxOf j.weave
  let c := if mine.isEmpty then c else c.fireHbm ctx 0 (mine.foldl (fun l r => insertNat l (r / 64 * 64)) [])
  match mine.find? fun r => !(c.poisonOf r 8).isEmpty with
  | none => (c, true)
  | some r =>
    let req := r / 64 * 64
    ((c.logEntry (unitCode (hbmUnit req)) 11 (9 + 2 * bnat (c.hbmInjected.contains req)) (c.tagOf ctx) (word req) 0).dropJob e j.id, false)
/-- A job reads rows: every word with wrong parity or an armed injection is flagged in this cycle and pauses the job until the last
verdict (false), a poisoned row is consumed (R373, R375, R399). -/
def Core.jobRead (c : Core) (e : EngId) (j : Job) (rows : List Nat) : Core × Bool :=
  let (c, there) := c.spilledRead e j rows
  if !there then (c, false)
  else
  let flagged := (rows.foldl insertNat []).filterMap fun r => if c.poison.contains r then none else (c.flagOf r).map fun p => (r, p)
  if flagged.isEmpty then
    match rows.find? c.poison.contains with
    | some r => let (_, src, u) := arrayOf r; (c.consumeJob j src (unitCode u) r false, true)
    | none => (c, true)
  else
    let (c, t) := flagged.foldl (fun (acc : Core × Nat) (r, v, unc) =>
      let (c, t) := (acc.1.fired v).recover r none (some (e, j.id)) unc v.isSome acc.1.now
      (c, max acc.2 t)) (c, 0)
    (c.heldTo e j.id t, false)
/-- The context tag of a flagged word's reader, or 0 (R397). -/
def Core.readerTag (c : Core) (r : Recovery) : Nat :=
  match r.weave, r.job with
  | some w, _ => c.tagOf (c.ctxOf w)
  | none, some (e, jid) => match c.job? e jid with
    | some j => c.tagOf (c.ctxOf j.weave)
    | none => 0
  | none, none => 0
/-- RECOVERY_VERDICT (R373 to R375). -/
def execRecoveryVerdict (id : Nat) (s : State) : Out :=
  .next (s.modC fun c =>
    match c.recoveries.find? fun r => r.id == id with
    | none => c
    | some r =>
      let c := { c with recoveries := c.recoveries.filter fun x => x.id != id }
      let (_, src, u) := arrayOf r.row
      if r.unc then
        let c := c.noteUncorrectable u r.injected
        match r.weave.filter fun w => (c.weave w).running, r.job with
        | some w, _ =>
          ((c.pairOf w).foldl (fun c v => c.modW v fun x => { x with frozen := false }) c).cancelAt w src (unitCode u) r.row r.injected
        | none, some (e, jid) =>
          match c.job? e jid with
          | some j => c.consumeJob j src (unitCode u) r.row r.injected
          | none => c.poisonRow r.row
        | none, none => (c.logEntry (unitCode u) 2 (logFlags false r.injected) 0 (word (arrayAddr r.row)) 0).poisonRow r.row
      else
        let c := if r.injected then c else c.rebuildWord r.row
        let c := (c.noteCorrected u r.injected).logEntry (unitCode u) 1 (logFlags false r.injected) (c.readerTag r) (word (arrayAddr r.row)) 0
        match r.weave with
        | some w =>
          if c.recoveries.any fun x => x.weave == some w then c
          else (c.pairOf w).foldl (fun c v => c.modW v fun x => { x with
            frozen := false
            slipctr := if x.timed then slipAdd x.slipctr (c.now - r.since) 1 else x.slipctr }) c
        | none => c)

/-! ## Compare points (R387, R388) -/

/-- COMPARE_POINT (R387): the hashes of a pair; equal, held words enter from the next cycle and the boundary follows;
different, the phase is cancelled with source 7 and a fail is logged against both weaves (R388). -/
def execComparePoint (w : Nat) (s : State) : Out :=
  .next (s.modC fun c =>
    if (c.weave w).red.point.isNone then c
    else
      let hit := [w, w + 1].find? fun v => (c.weave v).injecting && bits (c.weave v).errinj.toNat 59 56 == 7
      let c := match hit with
        | some v => c.disarm v
        | none => c
      let x := (c.weave w).red
      let unit (v : Nat) : Nat := unitCode ⟨0, secOf v, v % 4⟩
      if hit.isSome || x.hash != (c.weave (w + 1)).red.hash then
        let c := if hit.isSome then c
          else [w, w + 1].foldl (fun c v => c.modHealth (unit v) fun h => { h with fail := min 0xFFFF (h.fail + 1), lastFail := true }) c
        let c := c.logEntry (unit (w + 1)) 5 (logFlags true hit.isSome) (c.tagOf (c.ctxOf w)) 0 0
        c.cancelPhase w 7 (unit w) 0 hit.isSome
      else
        let c := (x.held.zip (List.range x.held.length)).foldl (fun c (id, i) =>
          match c.queueOf w id with
          | some e => (c.modJob e id fun j => { j with entered := c.now + 1 + i }).sched (c.now + 1 + i) bEngine (1000 + id) (.launchWordEntry w id)
          | none => c) c
        let c := (c.modW w fun v => { v with red := { Redundancy.reset with compared := x.compared } }).modW (w + 1) fun v =>
          { v with red := Redundancy.reset }
        let c := c.reach! w x.reach
        if x.mark then c.arriveAt w 1 0 else c)

end Sys2Proof.Machine
end

