-- ==== Sys2Proof/Machine/Words.lean ====
section
/-! DEFINITION. Launch words (R87, R93, R230 to R233): their checks at issue, the on-module addresses and tensor boxes that
they name (R237, R238), what the engines read and write (R241, R257, R301), their entry into the queue. -/
namespace Sys2Proof.Machine

/-! ## What a check finds (R232) -/

/-- A launch word's use of a handle: its number, the byte range, and what the access needs. -/
structure HUse where
  num : Nat
  off : Nat
  len : Nat
  r : Bool
  w : Bool
  deriving DecidableEq, Repr
/-- What a launch word's checks at issue find: what its job captures and the ring lanes that it names, or the fault. -/
inductive Check where
  | ok (cap : Captured) (rings : List Nat) (use : Option HUse)
  | job (reason : Nat)
  | window (addr : Nat)
  | priv (addr : Nat)
  /-- `walked` is the use whose walk has failed (R299). -/
  | handle (num off : Nat) (walked : Option HUse)
def Captured.none : Captured := ⟨Option.none, [], [], List.replicate 16 false, 0⟩
def Check.plain : Check := .ok Captured.none [] none
/-- The first fault among checks, else the last. -/
def firstFault : List (Option Check) → Check → Check
  | [], d => d
  | some x :: _, _ => x
  | none :: rest, d => firstFault rest d
def argFault (ok : Bool) : Option Check := if ok then none else some (.job 2)

/-! ## CTL (R236, R256) -/

def ctlRing (x : Word) : Nat := bits x.toNat 4 0
def ctlH (x : Word) : Nat := bits x.toNat 11 8
def ctlDl (x : Word) : Nat := bits x.toNat 19 12
/-- Reserved bits 0, the ring lane in range, DL and H only where they are used. -/
def ctlOk (x : Word) (dl h : Bool) : Bool :=
  x.toNat < 2 ^ 20 && bits x.toNat 7 5 == 0 && ctlRing x ≤ 16 && (dl || ctlDl x == 0) && (h || ctlH x == 0)

/-! ## On-module addresses (R237) -/

def omSp (a : Word) : Nat := bits a.toNat 31 30
def omSt (a : Word) : Bool := bitAt a.toNat 29
def omLane (a : Word) : Nat := bits a.toNat 22 16
def omOfs (a : Word) : Nat := if omSp a = 0 then bits a.toNat 15 0 else bits a.toNat 21 0
/-- No reserved field is set; ST and bit 22 are reserved for SP 1 and 2 only. -/
def omFields (a : Word) : Bool :=
  a.toNat < 2 ^ 32 && bits a.toNat 28 23 == 0 && (omSp a == 0 || omSp a == 3 || (!omSt a && !bitAt a.toNat 22))
/-- Window, half, range and alignment of a transfer, from an address, of a number of bytes. -/
def Core.omReach (c : Core) (w : Nat) (a : Word) (bytes : Nat) : Option Check :=
  let o := omOfs a
  let n := ceilDiv bytes 8
  let bad : Option Check := some (.window a.toNat)
  if omSp a = 3 ∨ o % 8 ≠ 0 then bad
  else if omSp a = 0 then
    if (if omSt a then o + 8 * ((omLane a + n - 1) / 128) + 8 else o + 8 * n) ≤ 0x10000 then none else bad
  else if omSp a = 2 ∧ !c.pairHeld w then bad
  else if 0x400000 < o + 8 * n then bad
  else if (c.weave w).priv then none
  else if (o < 0x1E0000 && !c.halfHeld w 0) || (0x1E0000 < o + 8 * n && o < 0x3C0000 && !c.halfHeld w 0x1E0000) then bad
  else if 0x3C0000 < o + 8 * n then some (.priv a.toNat)
  else none
/-- Flat row of 8-byte row r of a transfer. -/
def Core.omRow (c : Core) (w : Nat) (place : List Bool) (a : Word) (r : Nat) : Nat :=
  let o := omOfs a
  match omSp a with
  | 0 =>
    if omSt a then c.localFlat w ((omLane a + r) % 128) (o + 8 * ((omLane a + r) / 128)) place
    else c.localFlat w (omLane a) (o + 8 * r) place
  | 1 => storeFlat (secOf w) (o + 8 * r)
  | _ => storeFlat (partner (secOf w)) (o + 8 * r)

/-! ## Tensor boxes (R238) -/

/-- A box of a tensor: descriptor, first coordinates, extents. -/
structure TBox where
  d : List Word
  co : List Nat
  ext : List Nat
  deriving DecidableEq, Repr
def packed16 (x : Word) : List Nat := (List.range 4).map fun i => bits x.toNat (16 * i + 15) (16 * i)
/-- Elements in a granule, and bytes of a granule, of the dense side. -/
def granElems (f : Nat) : Nat := unitElems f
def granBytes (f : Nat) : Nat := if isBlock f then unitBytes f else if f = 9 then 1 else codeBits f / 8
def TBox.count (b : TBox) : Nat := b.ext.foldl (· * ·) 1
/-- Size of the box in bytes. -/
def TBox.bytes (b : TBox) : Nat := b.count / granElems (tFmt b.d) * granBytes (tFmt b.d)
/-- Linear index of element e of the box. -/
def TBox.lin (b : TBox) (e : Nat) : Nat :=
  let x (i : Nat) : Nat := b.ext.getD i 1
  tLinear b.d [b.co.getD 0 0 + e % x 0, b.co.getD 1 0 + e / x 0 % x 1, b.co.getD 2 0 + e / (x 0 * x 1) % x 2,
    b.co.getD 3 0 + e / (x 0 * x 1 * x 2)]
/-- Checks of T, C and BOX (R232, R238). -/
def Core.boxCheck (c : Core) (w : Nat) (t cw bw : Word) : Option Check :=
  let sec := secOf w
  let b : TBox := ⟨c.tEntry sec t.toNat, packed16 cw, packed16 bw⟩
  let f := tFmt b.d
  let off := tByte b.d (tLinear b.d b.co)
  if b.ext.any (· == 0) then some (.job 2)
  else if 4095 < t.toNat then some (.handle t.toNat 0 none)
  else if !c.tOk sec b.d then some (.handle t.toNat off none)
  else if (isBlock f && (b.co.headD 0 % unitElems f != 0 || b.ext.headD 1 % unitElems f != 0)) || (f == 9 && b.ext.headD 2 % 2 != 0) then
    some (.job 2)
  else if (List.range 4).any fun i => tExt b.d i < b.co.getD i 0 + b.ext.getD i 1 then some (.handle t.toNat off none)
  else none

/-! ## Sides of a transfer -/

/-- One side of a transfer of dense bytes. -/
inductive Side where
  | om (w : Nat) (place : List Bool) (a : Word)
  | box (sec : Nat) (b : TBox)
  | fill (v : Word)
  deriving DecidableEq, Repr

/-- The tensor byte that dense byte p of a box lies in, with the nibbles' linear indexes for INT4. -/
def TBox.at (b : TBox) (p : Nat) : Nat :=
  let f := tFmt b.d
  let g := granBytes f
  tByte b.d (b.lin (p / g * granElems f)) + p % g
/-- A nibble of an INT4 tensor. -/
def Core.tNibble (c : Core) (sec : Nat) (d : List Word) (lin : Nat) : Nat := c.tGet sec d (lin / 2) / 16 ^ (lin % 2) % 16
/-- Dense byte p. -/
def Core.sideByte (c : Core) (x : Side) (p : Nat) : Nat :=
  match x with
  | .om w place a => (memGet c.mem (c.omRow w place a (p / 8) + p % 8)).toNat
  | .box sec b =>
    if tFmt b.d = 9 then
      let l := b.lin (2 * p)
      c.tNibble sec b.d l + 16 * c.tNibble sec b.d (l + 1)
    else c.tGet sec b.d (b.at p)
  | .fill v => v.toNat / 256 ^ (p % 8) % 256
/-- Where dense byte p is written: flat byte, value, mask, for each place. -/
def Core.sidePut (c : Core) (x : Side) (p v : Nat) : List (Nat × Nat × Nat) :=
  match x with
  | .om w place a =>
    let here := (c.omRow w place a (p / 8) + p % 8, v, 255)
    if omSp a = 0 ∧ (c.weave w).redun then [here, (c.omRow (w + 1) place a (p / 8) + p % 8, v, 255)] else [here]
  | .box sec b =>
    if tFmt b.d = 9 then
      let l := b.lin (2 * p)
      [l, l + 1].zip [v % 16, v / 16] |>.map fun (i, x) => (c.tFlat sec b.d (i / 2), x * 16 ^ (i % 2), 15 * 16 ^ (i % 2))
    else [(c.tFlat sec b.d (b.at p), v, 255)]
  | .fill _ => []
/-- Flat rows that dense bytes lo to hi − 1 touch, without repeats. -/
def Core.sideRows (c : Core) (x : Side) (lo hi : Nat) : List Nat :=
  ((List.range (hi - lo)).flatMap fun i => (c.sidePut x (lo + i) 0).map fun q => rowAddr q.1).foldl insertNat []
/-- The masked row writes of dense bytes from lo. -/
def Core.sideWrites (c : Core) (x : Side) (lo : Nat) (bs : List Nat) : Map BufRow :=
  ((bs.zip (List.range bs.length)).flatMap fun (v, i) => c.sidePut x (lo + i) v).foldl (fun m (a, v, k) =>
    bufferRow m (rowAddr a) (word (v * 256 ^ (a % 8))) (word (k * 256 ^ (a % 8)))) []
/-- A row that an engine writes for a weave (R257, R301): the sector store at sector scope, the paired store at pair scope;
tensor rows and row windows have one value for all. The row has arrived (R241). -/
def Core.engRow (c : Core) (w flat : Nat) (val mask : Word) (job : Option Nat) : Core :=
  let c :=
    if storeBase ≤ flat ∧ flat < towerBase then
      let sec := (flat - storeBase) / 2 ^ 22
      if sec = secOf w then c.writeShared flat val mask 1 sec 0 job else c.writeShared flat val mask 2 (unitOf 2 w) 0 job
    else (c.writeRow flat val mask job).lateLoads flat
  c.setArrived flat
/-- Write dense bytes from lo of a side. -/
def Core.sideWrite (c : Core) (w : Nat) (x : Side) (lo : Nat) (bs : List Nat) (job : Option Nat) : Core :=
  let ws := c.sideWrites x lo bs
  -- rows of a spilled bank: requests that are written whole are poisoned no more (R380)
  let whole := (ws.filter fun p => p.1 < hbmBytes && p.2.mask == allOnes).map (·.1)
  let reqs := whole.filter fun a => a % 64 == 0 && (List.range 8).all fun i => whole.contains (a + 8 * i)
  reqs.foldl (fun c r => c.clearPoison r 64) (ws.foldl (fun c (a, b) => c.engRow w a b.val b.mask job) c)
def Core.sideBytes (c : Core) (x : Side) (lo n : Nat) : List Nat := (List.range n).map fun i => c.sideByte x (lo + i)
/-- The side lies in the paired store, or in a bank that has left its tower (R239, R357). -/
def Core.sideAway (c : Core) (x : Side) (bytes : Nat) : Bool :=
  match x with
  | .om _ _ a => omSp a == 2
  | .box sec b => (List.range (bytes / granBytes (tFmt b.d))).any fun g => c.tAway sec b.d (b.at (g * granBytes (tFmt b.d)))
  | .fill _ => false
/-- The side lies in a spilled bank, which has no fixed latency (R351). -/
def Core.sideSpilled (c : Core) (x : Side) (bytes : Nat) : Bool :=
  match x with
  | .box sec b => (List.range (bytes / granBytes (tFmt b.d))).any fun g => c.tSpilled sec b.d (b.at (g * granBytes (tFmt b.d)))
  | _ => false
/-- What a transfer's way to the other deck adds to its time (R239): 12 cycles, in a degraded pair a free time more (R350; log
53). -/
def Core.crossTime (c : Core) (sec : Nat) (across : Bool) : Nat × Core :=
  if !across then (0, c)
  else if c.pairDegraded (4 * sec) then
    let (t, c) := c.freeWait
    (12 + t, c)
  else (12, c)
/-- The time that on-module addresses of the paired store add (R257). -/
def Core.pairLate (c : Core) (e : EngId) (as : List Word) : Nat × Core := c.crossTime (engSector e) (as.any fun a => omSp a == 2)
/-- The end of a blackout that closes the side's rows now (R344): of a redundant pair, the partner's rows too, which the engines write
with the leader's (R385). -/
def Core.sideClosed (c : Core) (x : Side) : Option Nat :=
  match x with
  | .om w _ a =>
    if omSp a = 0 then (c.blackout w c.now).or (if c.hasPartner w then c.blackout (w + 1) c.now else none) else none
  | _ => none

/-! ## Issue of a launch word -/

/-- Ring lane 16 asks for any lane (R233). -/
def namedLane (L : Nat) : Bool := L < 16
/-- Place a job in its queue's list at issue; it enters in the cycle `at_`, 8 cycles on (R16, R230), or with its compare point (R387).
The port records the ROWB of a `gx.cfg` (R261). -/
def Core.putJob (c : Core) (w p : Nat) (e : EngId) (kind op md : Nat) (args : List Word) (wait sig : Nat) (cap : Captured) (rings : List Nat)
    (at_ : Nat) : Core :=
  let (id, c) := c.fresh
  let held := c.hasPartner w
  let j : Job := ⟨id, w, p, kind, op, md, args, wait, sig, rings, [], cap, if held then 2 ^ 64 else at_, false, none, 0, [],
    ((c.weave w).launch).getD 0, id, false, false, 0⟩
  let c := (c.setJobs e (c.jobsOf e ++ [j])).countWord w p
  let c := match cap.tensors.getLast? with
    | some t => c.modPort w p fun x => { x with tensor := some t }
    | none => c
  let c := if kind = 1 ∧ op = 0 then c.modPort w p fun x => { x with rowb := some (args.getD 1 0).toNat } else c
  if held then c.modW w fun x => { x with red := { x.red with held := x.red.held ++ [id] } }
  else c.sched at_ bEngine (1000 + id) (.launchWordEntry w id)
/-- `mx.sv` NOW and `tx.stop` do not wait in the queue (R252, R284). -/
def wordBypasses (kind op md : Nat) : Bool := (kind == 0 && op == 6 && md == 1) || (kind == 2 && op == 2)
/-- The use of a handle's range by a launch word (R299). -/
def Core.useRange (c : Core) (w : Nat) (u : HUse) : Except WalkFail Handle × Core :=
  c.useHandle w u.num (((c.weave w).handles.getD u.num Handle.reset).base.toNat + u.off) u.len
/-- The handle's walk at use leaves its translations, and the A and D bits also where it fails (R298, R299). -/
def Core.walkAtUse (c : Core) (w : Nat) (u : Option HUse) : Core :=
  match u with
  | none => c
  | some u => (c.useRange w u).2
/-- A launch word with a arguments issues (R93, R230, R232, R233): the grant, the stack, the checks, room in the queue,
its ring lanes; then it pops its frame and its job is on its way. A `rep` goes on from the port (R87). -/
def State.launchWord (s : State) (p : Nat) (op md a : Nat) (check : Core → Nat → List Word → Check) : State :=
  s.granted p fun x =>
    if x.stack.length < a + 2 then s.engStack p
    else
      let args := (x.stack.take a).reverse
      let wait := (x.stack.getD a 0).toNat
      let sig := (x.stack.getD (a + 1) 0).toNat
      let w := s.core.cur
      if 256 < sig then s.engJob p 2 sig
      else if 256 < wait then s.engJob p 2 wait
      else match check s.rd w args with
        | .job r => s.engJob p r 0
        | .window ad => s.windowTrap 0xFF ad
        | .priv ad => s.privTrap (word ad)
        | .handle n off use => (s.handleTrap n (word off)).modC fun c => c.walkAtUse w use
        | .ok cap rings h =>
          let e := s.rd.portQueue w p op
          if queueRoom e ≤ (s.rd.jobsOf e).length ∧ !wordBypasses x.kind op md then s.hold 2 id
          else if rings.any fun L => namedLane L && s.rd.laneHeld (secOf w) L then s.hold 5 id
          else s.modC fun c =>
            let c := (c.modPort w p fun y => { y with stack := y.stack.drop (a + 2) }).walkAtUse w h
            let c := c.putJob w p e x.kind op md args wait sig cap rings (c.now + 8)
            match s.core.iss.rep with
            | some (mask, n1) =>
              if n1 = 0 then c
              else (c.modPort w p fun y => { y with
                rep := some ⟨op * 256 + md, mask.toNat, n1.toNat, args ++ [word wait, word sig], x.pstd, e, x.kind, c.nextId, c.now + 1⟩ }).sched
                (c.now + 1) bIssue w (.repLaunch w p)
            | none => c

/-! ## Handles of launch words (R232, R235) -/

/-- The handle of a global form: valid, with its permission, and the bytes within its length; its translation. -/
def Core.hCheck (c : Core) (w : Nat) (u : HUse) : Option Check :=
  let h := (c.weave w).handles.getD u.num Handle.reset
  if !h.valid || (u.r && !h.r) || (u.w && !h.w) || h.len.toNat < u.off + u.len then some (.handle u.num u.off none)
  else match (c.useRange w u).1 with
    | .error _ => some (.handle u.num u.off (some u))
    | .ok _ => none
def Core.hCapture (c : Core) (w : Nat) (u : HUse) : Handle :=
  match (c.useRange w u).1 with
  | .ok h => h
  | .error _ => (c.weave w).handles.getD u.num Handle.reset

/-! ## Global transfers of jobs (R240, R369, R442) -/

/-- The bytes of piece k of a global transfer: it ends at the next 64-byte boundary of the virtual address. Offset and
length, 0 past the end. -/
def pieceOf (va len k : Nat) : Nat × Nat :=
  let first := 64 - va % 64
  let lo := if k = 0 then 0 else first + 64 * (k - 1)
  let hi := min len (first + 64 * k)
  (lo, hi - lo)
/-- What a job's read through a handle answers. -/
inductive JobRead where
  | bytes (bs : List Nat)
  | dropped
  | waits
  deriving DecidableEq, Repr
/-- The unit of a job's engine (R234, R394). -/
def engUnit : EngId → Nat
  | .pool s k i => unitCode ⟨3, s, 16 * k + i⟩
  | .copy w _ => unitCode ⟨4, secOf w, w % 4 / 2⟩
/-- A job reads delivered bytes at a virtual address that its handle translates: memory, or a peer, whose answer it
waits for (R447, R454). -/
def Core.jobGlobal (c : Core) (e : EngId) (j : Job) (va n : Nat) : JobRead × Core :=
  match j.cap.handle.bind fun h => findPage h.pages va with
  | none => (.dropped, c)
  | some p =>
    let ctx := c.ctxOf j.weave
    match c.globalRead ctx (p.loc va) va n Core.memByte (some (engUnit e)) with
    | (.bytes bs, c) => (.bytes bs, c)
    | (.failed, c) => (.dropped, c)
    | (.peer, c) =>
      match c.peerReads.find? fun r => r.src == .job e with
      | some r =>
        let gone : Core := { c with peerReads := c.peerReads.filter fun x => x.id != r.id }
        match r.data with
        | some ws => (.bytes ((ws.flatMap fun (x : Word) => natBytes 8 x.toNat).take n), gone)
        | none => if r.failed then (.dropped, gone) else (.waits, c)
      | none =>
        let a := (p.loc va).addr
        let (c, ok) := c.askPeer (.job e) ctx (engSector e) a va (ceilDiv n 8)
        if ok then (.waits, c) else (.dropped, c.logEntry 0xFFFFFFFF 10 0 (c.tagOf ctx) (word a) (word va))

end Sys2Proof.Machine
end

