-- ==== Sys2Proof/Machine/Copy.lean ====
section
/-! DEFINITION. The copy engines (R234 to R243): the checks of their words and their jobs, share by share or request by
request. -/
namespace Sys2Proof.Machine

/-! ## Checks at issue -/

def lenOk (x : Word) : Bool := x.toNat % 8 == 0 && 8 ≤ x.toNat && x.toNat ≤ 16777216
def ofsOk (x : Word) : Bool := x.toNat % 8 == 0
def copyCap (c : Core) (w : Nat) (h : Option HUse) (tensors : List (Nat × List Word)) : Captured :=
  { Captured.none with handle := h.map (c.hCapture w), tensors := tensors }
def ringsOf (ctl : Word) : List Nat := [ctlRing ctl]
/-- Bytes of a box rounded up to whole rows (R238). -/
def TBox.rounded (b : TBox) : Nat := ceilDiv b.bytes 8 * 8
def Core.tbox (c : Core) (w : Nat) (t cw bw : Word) : TBox := ⟨c.tEntry (secOf w) t.toNat, packed16 cw, packed16 bw⟩

/-- `cp.rr`: CTL, SRC, DST, LEN. -/
def checkRr (c : Core) (w : Nat) (a : List Word) : Check :=
  let x (i : Nat) : Word := a.getD i 0
  firstFault [argFault (ctlOk (x 0) false false && omFields (x 1) && omFields (x 2) && lenOk (x 3)),
    c.omReach w (x 1) (x 3).toNat, c.omReach w (x 2) (x 3).toNat] (.ok Captured.none (ringsOf (x 0)) none)
/-- `cp.gt`: CTL, GOFS, T, C, BOX. -/
def checkGt (c : Core) (w : Nat) (a : List Word) : Check :=
  let x (i : Nat) : Word := a.getD i 0
  let b := c.tbox w (x 2) (x 3) (x 4)
  let u : HUse := ⟨ctlH (x 0), (x 1).toNat, b.rounded, true, false⟩
  firstFault [argFault (ctlOk (x 0) true true && ofsOk (x 1)), c.boxCheck w (x 2) (x 3) (x 4), c.hCheck w u]
    (.ok (copyCap c w (some u) [((x 2).toNat, b.d)]) (ringsOf (x 0)) (some u))
/-- `cp.tr`: CTL, T, C, BOX, DST. -/
def checkTr (c : Core) (w : Nat) (a : List Word) : Check :=
  let x (i : Nat) : Word := a.getD i 0
  let b := c.tbox w (x 1) (x 2) (x 3)
  firstFault [argFault (ctlOk (x 0) false false && omFields (x 4)), c.boxCheck w (x 1) (x 2) (x 3), c.omReach w (x 4) b.rounded]
    (.ok (copyCap c w none [((x 1).toNat, b.d)]) (ringsOf (x 0)) none)
/-- `cp.rt`: CTL, SRC, T, C, BOX. -/
def checkRt (c : Core) (w : Nat) (a : List Word) : Check :=
  let x (i : Nat) : Word := a.getD i 0
  let b := c.tbox w (x 2) (x 3) (x 4)
  firstFault [argFault (ctlOk (x 0) false false && omFields (x 1)), c.boxCheck w (x 2) (x 3) (x 4), c.omReach w (x 1) b.rounded]
    (.ok (copyCap c w none [((x 2).toNat, b.d)]) (ringsOf (x 0)) none)
/-- `cp.gs`: CTL, GOFS, DST, LEN. -/
def checkGs (c : Core) (w : Nat) (a : List Word) : Check :=
  let x (i : Nat) : Word := a.getD i 0
  let u : HUse := ⟨ctlH (x 0), (x 1).toNat, (x 3).toNat, true, false⟩
  firstFault [argFault (ctlOk (x 0) false true && ofsOk (x 1) && omFields (x 2) && lenOk (x 3)), c.omReach w (x 2) (x 3).toNat,
    c.hCheck w u] (.ok (copyCap c w (some u) []) (ringsOf (x 0)) (some u))
/-- `cp.sg`: CTL, SRC, GOFS, LEN. -/
def checkSg (c : Core) (w : Nat) (a : List Word) : Check :=
  let x (i : Nat) : Word := a.getD i 0
  let u : HUse := ⟨ctlH (x 0), (x 2).toNat, (x 3).toNat, false, true⟩
  firstFault [argFault (ctlOk (x 0) false true && omFields (x 1) && ofsOk (x 2) && lenOk (x 3)), c.omReach w (x 1) (x 3).toNat,
    c.hCheck w u] (.ok (copyCap c w (some u) []) (ringsOf (x 0)) (some u))
/-- `cp.bc`: CTL, GOFS, MASK, TOFF, LEN (R242). -/
def checkBc (c : Core) (w : Nat) (a : List Word) : Check :=
  let x (i : Nat) : Word := a.getD i 0
  let u : HUse := ⟨ctlH (x 0), (x 1).toNat, (x 4).toNat, true, false⟩
  firstFault [argFault (ctlOk (x 0) false true && ofsOk (x 1) && (x 2).toNat < 2 ^ 16 && (x 2) != 0 && (x 3).toNat % 64 == 0 &&
      lenOk (x 4) && (x 3).toNat + (x 4).toNat ≤ 15 * 2 ^ 20),
    c.hCheck w u]
    (.ok (copyCap c w (some u) []) (ringsOf (x 0)) (some u))
/-- `cp.fill`: CTL, DST, VAL, LEN. -/
def checkFill (c : Core) (w : Nat) (a : List Word) : Check :=
  let x (i : Nat) : Word := a.getD i 0
  firstFault [argFault (ctlOk (x 0) false false && omFields (x 1) && lenOk (x 3)), c.omReach w (x 1) (x 3).toNat]
    (.ok Captured.none (ringsOf (x 0)) none)
/-- Two regions that may exchange: equal row counts and tower sets, no overlap (R243). -/
def swappable (d1 d2 : List Word) : Bool :=
  tRlen d1 == tRlen d2 && tDist d1 == tDist d2 && (tDist d1 == 1 || tOwner d1 == tOwner d2) &&
  (tBase d1 + tRlen d1 ≤ tBase d2 || tBase d2 + tRlen d2 ≤ tBase d1)
/-- `cp.swp`: CTL, T1, T2 (R243). -/
def checkSwp (c : Core) (w : Nat) (a : List Word) : Check :=
  let x (i : Nat) : Word := a.getD i 0
  let d (i : Nat) : List Word := c.tEntry (secOf w) (x i).toNat
  let bad (i : Nat) : Option Check := if 4095 < (x i).toNat ∨ !c.tOk (secOf w) (d i) then some (.handle (x i).toNat 0 none) else none
  firstFault [argFault (ctlOk (x 0) false false), bad 1, bad 2, argFault (swappable (d 1) (d 2))]
    (.ok (copyCap c w none [((x 1).toNat, d 1), ((x 2).toNat, d 2)]) (ringsOf (x 0)) none)

/-- `cp.rr` (R235). -/
def execCpRr (s : State) : Out := .next (s.launchWord 3 0x00 0 4 checkRr)
/-- `cp.gt` (R235, R240). -/
def execCpGt (s : State) : Out := .next (s.launchWord 3 0x01 0 5 checkGt)
/-- `cp.tr` (R235). -/
def execCpTr (s : State) : Out := .next (s.launchWord 3 0x02 0 5 checkTr)
/-- `cp.rt` (R235). -/
def execCpRt (s : State) : Out := .next (s.launchWord 3 0x03 0 5 checkRt)
/-- `cp.gs` (R235). -/
def execCpGs (s : State) : Out := .next (s.launchWord 3 0x04 0 4 checkGs)
/-- `cp.sg` (R235). -/
def execCpSg (s : State) : Out := .next (s.launchWord 3 0x05 0 4 checkSg)
/-- `cp.bc` (R242). -/
def execCpBc (s : State) : Out := .next (s.launchWord 3 0x06 0 5 checkBc)
/-- `cp.fill` (R235, R239). -/
def execCpFill (s : State) : Out := .next (s.launchWord 3 0x07 0 4 checkFill)
/-- `cp.swp` (R243): system only. -/
def execCpSwp (s : State) : Out := .next (if s.wv.priv then s.launchWord 3 0x3F 0 3 checkSwp else s.privTrap 0)
/-- Arguments of a copy word. -/
def copyArgs (op : Nat) : Nat :=
  match op with
  | 0x01 | 0x02 | 0x03 | 0x06 => 5
  | 0x3F => 3
  | _ => 4
/-- The checks of a copy word, for the later launches of a repeat (R87). -/
def copyCheck (op : Nat) : Core → Nat → List Word → Check :=
  match op with
  | 0x00 => checkRr | 0x01 => checkGt | 0x02 => checkTr | 0x03 => checkRt | 0x04 => checkGs | 0x05 => checkSg | 0x06 => checkBc
  | 0x07 => checkFill
  | _ => checkSwp

/-! ## Jobs -/

def Job.om (j : Job) (i : Nat) : Side := .om j.weave j.cap.place (j.arg i)
def Job.box (j : Job) (i : Nat) : Side := .box (secOf j.weave) ⟨((j.cap.tensors.headD (0, [])).2), packed16 (j.arg i), packed16 (j.arg (i + 1))⟩
def Side.bytes : Side → Nat
  | .box _ b => b.bytes
  | _ => 0
/-- Source, destination and length of a copy job; the global side is absent. -/
def Job.sides (j : Job) : Option Side × Option Side × Nat :=
  match j.op with
  | 0x00 => (some (j.om 1), some (j.om 2), (j.arg 3).toNat)
  | 0x01 => (none, some (j.box 3), (j.box 3).bytes)
  | 0x02 => (some (j.box 2), some (j.om 4), (j.box 2).bytes)
  | 0x03 => (some (j.om 1), some (j.box 3), (j.box 3).bytes)
  | 0x04 => (none, some (j.om 2), (j.arg 3).toNat)
  | 0x05 => (some (j.om 1), none, (j.arg 3).toNat)
  | 0x07 => (some (.fill (j.arg 2)), some (j.om 1), (j.arg 3).toNat)
  | _ => (none, none, (j.arg 4).toNat)
/-- The towers that `cp.bc` writes, as flat bases of their tensor segments (R242). -/
def Core.bcTargets (c : Core) (j : Job) : List Nat :=
  ((List.range 16).filter fun i => bitAt (j.arg 2).toNat i).map fun i =>
    c.towerKey (4 * secOf j.weave + j.weave % 4 / 2 * 2 + i / 8) (i % 8)
def Core.bcRow (c : Core) (j : Job) (key off : Nat) : Nat := c.towerFlat key (0x100000 + (j.arg 3).toNat + off)
/-- The rows that a copy job will write (R241), as it enters. -/
def Core.copyRows (c : Core) (j : Job) : List Nat :=
  if j.op = 0x3F then []
  else if j.op = 0x06 then
    (c.bcTargets j).flatMap fun k => (List.range ((j.arg 4).toNat / 8)).map fun r => c.bcRow j k (8 * r)
  else match j.sides with
    | (_, some d, n) => c.sideRows d 0 n
    | _ => []

/-- One share of an on-module copy (R239): up to 256 dense bytes. -/
def Core.copyShare (c : Core) (e : EngId) (j : Job) (src dst : Side) (n : Nat) : Core :=
  let lo := 256 * j.done
  let k := min 256 (n - lo)
  match c.sideClosed src, c.sideClosed dst with
  | some t, _ => c.heldTo e j.id t
  | none, some t => c.heldTo e j.id t
  | none, none =>
    let (c, go) := c.jobRead e j (match src with | .fill _ => [] | _ => c.sideRows src lo (lo + k))
    if !go then c
    else
      let c := (c.sideWrite j.weave dst lo (c.sideBytes src lo k) (some j.id)).modJob e j.id fun x => { x with done := x.done + 1 }
      if n ≤ lo + k then c.finishAt e j.id (c.now + 1) else c.stepAt e j.id (c.now + 1)
/-- A late `cp.gt` counts in its sector's migration slip register (R240, R362). `at_` is its completion. -/
def Core.noteSlip (c : Core) (j : Job) (at_ : Nat) : Core :=
  let dl := if j.op = 0x01 then ctlDl (j.arg 0) else 0
  if dl ≠ 0 ∧ (j.entered / Config.tickCycles + dl) * Config.tickCycles ≤ at_ then
    c.modSec (secOf j.weave) fun x => { x with
      slipCount := min (x.slipCount + 1) 0xFFFFFFFF, slipTick := at_ / Config.tickCycles % 2 ^ 32 }
  else c
/-- The next request of a global job comes after a free time (R240; log 8). -/
def Core.nextRequest (c : Core) (e : EngId) (j : Job) : Core :=
  let (t, c) := c.freeWait
  c.heldTo e j.id (c.now + t)
/-- A flit of a job waits for its port (R452). -/
def Core.flitsWait (c : Core) (j : Job) : Bool := c.links.any fun (_, l) => l.sendQ.any fun f => f.1 / 256 == j.id + 1
/-- One request of a global copy has returned or is written (R240). -/
def Core.copyRequest (c : Core) (e : EngId) (j : Job) (n : Nat) : Core :=
  let gofs := (j.arg (if j.op = 0x05 then 2 else 1)).toNat
  let base := ((j.cap.handle.map (·.base.toNat)).getD 0) + gofs
  let (lo, k) := pieceOf base n j.done
  let next (c : Core) : Core :=
    let c := c.modJob e j.id fun x => { x with done := x.done + 1 }
    if lo + k < n then c.nextRequest e j
    else if c.flitsWait j then c.heldTo e j.id (c.now + 1)
    else (c.noteSlip j (c.now + 1)).finishAt e j.id (c.now + 1)
  -- every request is done, but not every flit has been accepted by its port
  if n ≤ lo ∧ 0 < j.done then
    (if c.flitsWait j then c.heldTo e j.id (c.now + 1) else (c.noteSlip j c.now).finishAt e j.id c.now)
  else match j.sides with
  | (some src, none, _) =>
    match c.sideClosed src with
    | some t => c.heldTo e j.id t
    | none =>
      let (c, go) := c.jobRead e j (c.sideRows src lo (lo + k))
      if !go then c
      else match j.cap.handle.bind fun h => findPage h.pages (base + lo) with
        | none => c.dropJob e j.id
        | some p =>
          let (c, ok) := c.globalWrite (c.ctxOf j.weave) (secOf j.weave) (p.loc (base + lo)) (base + lo) (c.sideBytes src lo k) 4 0 0 (some j.id) false
          if ok then next c else c.dropJob e j.id
  | (_, dst, _) =>
    match dst.bind c.sideClosed with
    | some t => c.heldTo e j.id t
    | none =>
      match c.jobGlobal e j (base + lo) k with
      | (.dropped, c) => c.dropJob e j.id
      | (.waits, c) => c
      | (.bytes bs, c) =>
        match dst with
        | some d => next (c.sideWrite j.weave d lo bs (some j.id))
        | none =>
          next ((c.bcTargets j).foldl (fun c key =>
            (bs.zip (List.range bs.length)).foldl (fun (m : Map BufRow) (v, i) =>
                let a := c.bcRow j key (lo + i)
                bufferRow m (rowAddr a) (word (v * 256 ^ (a % 8))) (word (255 * 256 ^ (a % 8)))) []
              |>.foldl (fun c (a, b) => c.engRow j.weave a b.val b.mask (some j.id)) c) c)
/-- Some bank of the regions of a `cp.swp` is being copied out (R358). -/
def Core.swapBlocked (c : Core) (j : Job) : Bool :=
  j.cap.tensors.any fun (_, d) => (c.tBanks (secOf j.weave) d).any fun (k, b) => (mget? (c.tower k).moving b).isSome
/-- `cp.swp` (R243): after its copy it waits for its weave's next boundary, which is past where the weave has halted. -/
def Core.swapStep (c : Core) (e : EngId) (j : Job) : Core :=
  if j.done = 0 then
    if c.swapBlocked j then c.stepAt e j.id (c.now + 1)
    else (c.modJob e j.id fun x => { x with done := 1 }).stepAt e j.id
      (c.now + 16 + ceilDiv (2 * (tRegionBytes (j.cap.tensors.headD (0, [])).2)) 256)
  else if (c.weave j.weave).running then (c.modW j.weave fun x => { x with pendSwap := some j.id }).jobEnded j
  else c.completeJob e j.id
/-- A step of a copy job: at its start the first share is 16 cycles away, 12 more for the paired store or an evacuated
region (R239), or the first request returns after a free time. -/
def Core.copyStep (c : Core) (e : EngId) (j : Job) : Core :=
  if j.op = 0x3F then c.swapStep e j
  else
    let (src, dst, n) := j.sides
    let first : Bool := j.done == 0 && j.started == some c.now
    match src, dst with
    | some a, some b =>
      if first then
        let (t, c) := if c.sideSpilled a n || c.sideSpilled b n then c.freeWait
          else c.crossTime (engSector e) (c.sideAway a n || c.sideAway b n)
        c.stepAt e j.id (c.now + 16 + t)
      else c.copyShare e j a b n
    | _, _ => if first then c.nextRequest e j else c.copyRequest e j n

end Sys2Proof.Machine
end

