-- ==== Sys2Proof/Machine/Matrix.lean ====
section
/-! DEFINITION. The matrix array (R67 to R70, R244 to R254, R382, R383): its words' checks, and its jobs step by step. -/
namespace Sys2Proof.Machine

/-! ## Engine steps -/

/-- The divisor of a pool engine (R152). -/
def Core.divOf (c : Core) : EngId → Nat
  | .pool s k i => (c.eng s k i).div
  | .copy _ _ => 1
/-- The job's next step is n engine cycles away. -/
def Core.stepIn (c : Core) (e : EngId) (id n : Nat) : Core := c.stepAt e id (c.now + n * c.divOf e)
/-- The job completes n engine cycles from now. -/
def Core.finishIn (c : Core) (e : EngId) (id n : Nat) : Core := c.finishAt e id (c.now + n * c.divOf e)
/-- The next share of an emission comes in the next engine cycle (R249). It follows the k-step of its cycle. -/
def Core.emitIn (c : Core) (e : EngId) (id : Nat) : Core := c.sched (c.now + c.divOf e) bEngine (engRank e + 1) (.mxEmit e id)
/-- The step of the start cycle. -/
def Core.starting (c : Core) (j : Job) : Bool := j.started == some c.now
/-- Bytes that an engine stores in a cycle (R244, R260). -/
def outRate (a : Word) : Nat := if omSp a = 1 then 2048 else 1024
def Core.modMxa (c : Core) (sec : Nat) (f : Mxa → Mxa) : Core := c.modSec sec fun x => { x with mxa := f x.mxa }

/-! ## Pairs and kinds (R247) -/

/-- Kind and k rate of a pair of storage formats; none where the MXA does not compute it. -/
def mxPair (a b : Nat) : Option (MxKind × Nat) :=
  if a = 0 ∧ b = 0 then some (.fp64, 1)
  else if a = 1 ∧ b = 1 then some (.fp32, 2)
  else if (a = 2 ∨ a = 3) ∧ (b = 2 ∨ b = 3) then some (.fp32, 8)
  else if (a = 4 ∨ a = 5) ∧ (b = 4 ∨ b = 5) then some (.fp32, 16)
  else if a = 6 ∧ b = 6 then some (.int32, 16)
  else if a = 9 ∧ b = 9 then some (.int32, 32)
  else if (a = 0x0A ∨ a = 0x0B) ∧ (b = 0x0A ∨ b = 0x0B) then some (.dx, 16)
  else if a = 0x0C ∧ b = 0x0C then some (.dx, 32)
  else none

/-! ## Checks at issue (R232, R244 to R254) -/

def checkMxPlain (_ : Core) (_ : Nat) (_ : List Word) : Check := .plain
/-- `mx.lda`, `mx.ldb`: T, C, S (R246). -/
def checkMxLd (c : Core) (w : Nat) (a : List Word) : Check :=
  let t := (a.getD 0 0).toNat
  let d := c.tEntry (secOf w) t
  firstFault [argFault (decide ((a.getD 2 0).toNat < 2 ^ 16)), if 4095 < t ∨ !c.tOk (secOf w) d then some (.handle t 0 none) else none]
    (.ok { Captured.none with tensors := [(t, d)] } [] none)
/-- What the words ahead in the queue leave of the MXA's state for a word that stands behind them. -/
structure MxAhead where
  kind : MxKind
  kacc : Nat
  resume : Nat
  emit : Option MxEmit
  emits : Nat
/-- The effect of a word on it (R245, R247, R250, R251): the image of an `mx.rs` counts as it stands now. -/
def Core.mxAhead (c : Core) (x : MxAhead) (j : Job) : MxAhead :=
  match j.op with
  | 0 => { x with kind := .none, kacc := 0 }
  | 3 =>
    match mxPair (fdSF (j.cap.fmts.getD 0 0)) (fdSF (j.cap.fmts.getD 1 0)) with
    | some (k, _) =>
      let n := (j.arg 0).toNat - (if j.started.isSome then j.done else x.resume)
      { x with kind := k, kacc := x.kacc + n, resume := 0, emits := x.emits + (if k = .dx then (x.kacc % 128 + n) / 128 else 0) }
    | none => x
  | 4 => { x with emit := some ⟨ctlRing (j.arg 0), j.arg 1, (j.arg 2).toNat⟩, emits := 0 }
  | 5 => if bitAt j.md 0 then { x with kind := .none, kacc := 0 } else x
  | 7 =>
    let y (i : Nat) : Nat := bytesNat (c.sideBytes (.om j.weave j.cap.place (j.arg 0)) (8 * i) 8)
    { kind := [.none, .fp64, .fp32, .int32].getD (y 0) .dx, kacc := y 1, resume := 0, emits := y 2
      emit := if bitAt (y 10) 63 then some ⟨y 10 % 32, word (y 11), y 12⟩ else none }
  | 9 => { x with resume := (j.arg 0).toNat }
  | _ => x
/-- The MXA's state behind the words of its queue that stand before a job, or behind all of them. -/
def Core.mxBehind (c : Core) (e : EngId) (id : Option Nat) : MxAhead :=
  let m := (c.sector (engSector e)).mxa
  ((c.jobsOf e).takeWhile fun j => some j.id != id).foldl c.mxAhead ⟨m.kind, m.kacc, m.resume, m.emit, m.emits⟩
/-- The ring lane that an `mx.mm` of k elements issued now will emit on, where it emits (R244). -/
def Core.psRing (c : Core) (w p k : Nat) : List Nat :=
  let x := c.mxBehind (c.portQueue w p 0) none
  if 128 ≤ x.kacc % 128 + (k - x.resume) then (x.emit.map (·.ring)).toList else []
/-- `mx.mm`: K, CTL (R247). -/
def checkMxMm (md : Nat) (c : Core) (w : Nat) (a : List Word) : Check :=
  let wv := c.weave w
  let da := wv.descriptor (md % 8)
  let db := wv.descriptor (md / 8 % 8)
  let k := (a.getD 0 0).toNat
  let ctl := (a.getD 1 0).toNat
  let p := (wv.ports.zip (List.range 3)).findSome? fun (x, i) => if x.g && x.kind == 0 then some i else none
  if !fdValid da || !fdValid db then .job 6
  else match mxPair (fdSF da) (fdSF db) with
    | none => .job 6
    | some (kind, rate) =>
      if k = 0 ∨ 2 ^ 31 < k ∨ k % rate ≠ 0 ∨ (bitAt md 6 ∧ kind ≠ .int32) then .job 5
      else if 2 ^ 13 ≤ ctl ∨ bits ctl 7 5 ≠ 0 ∨ 16 < bits ctl 4 0 ∨ 16 < bits ctl 12 8 then .job 5
      else .ok { Captured.none with fmts := [da, db] }
        ([bits ctl 4 0, bits ctl 12 8] ++ (if kind = .dx then c.psRing w (p.getD 0) k else [])) none
/-- `mx.ps`: CTL, DST, GSTR (R244, R248). One record of 9,312 bytes has to fit the window at issue (log 72). -/
def checkMxPs (c : Core) (w : Nat) (a : List Word) : Check :=
  let g := (a.getD 2 0).toNat
  firstFault [if ctlOk (a.getD 0 0) false false then none else some (.job 5), argFault (omFields (a.getD 1 0)),
    if g == 0 || (g % 8 == 0 && 9312 ≤ g) then none else some (.job 5), c.omReach w (a.getD 1 0) 9312] .plain
/-- `mx.st`: CTL, DST, RSTR (R250). -/
def checkMxSt (c : Core) (w : Nat) (a : List Word) : Check :=
  let g := (a.getD 2 0).toNat
  firstFault [argFault (ctlOk (a.getD 0 0) false false && omFields (a.getD 1 0) && g % 8 == 0 && 192 ≤ g),
    c.omReach w (a.getD 1 0) (47 * g + 192)] (.ok Captured.none (ringsOf (a.getD 0 0)) none)
/-- An address of `mx.sv`, `mx.rs` or `mx.chk` (R251). -/
def checkMxImage (bytes : Nat) (c : Core) (w : Nat) (a : List Word) : Check :=
  let x := a.getD 0 0
  firstFault [argFault (omSp x == 1 && omFields x && (bytes == 8 || x.toNat % 1024 == 0)), c.omReach w x bytes] .plain
/-- `mx.rp`: R (R253). -/
def checkMxRp (_ : Core) (_ : Nat) (a : List Word) : Check := firstFault [argFault (decide ((a.getD 0 0).toNat < 2 ^ 31))] .plain

/-- `mx.zero` (R245). -/
def execMxZero (p : Sys2Proof.Port) (s : State) : Out := .next (s.launchWord p.toNat 0x00 0 0 checkMxPlain)
/-- `mx.lda` (R246). -/
def execMxLda (p : Sys2Proof.Port) (s : State) : Out := .next (s.launchWord p.toNat 0x01 0 3 checkMxLd)
/-- `mx.ldb` (R246). -/
def execMxLdb (p : Sys2Proof.Port) (s : State) : Out := .next (s.launchWord p.toNat 0x02 0 3 checkMxLd)
/-- `mx.mm` (R247). -/
def execMxMm (p : Sys2Proof.Port) (sa sb : BitVec 3) (sat : Bool) (s : State) : Out :=
  let md := sa.toNat + 8 * sb.toNat + 64 * bnat sat
  .next (s.launchWord p.toNat 0x03 md 2 (checkMxMm md))
/-- `mx.ps` (R244, R248). -/
def execMxPs (p : Sys2Proof.Port) (s : State) : Out := .next (s.launchWord p.toNat 0x04 0 3 checkMxPs)
/-- `mx.st` (R250). -/
def execMxSt (p : Sys2Proof.Port) (clr : Bool) (s : State) : Out := .next (s.launchWord p.toNat 0x05 (bnat clr) 3 checkMxSt)
/-- `mx.sv` (R251, R252). -/
def execMxSv (p : Sys2Proof.Port) (now : Bool) (s : State) : Out := .next (s.launchWord p.toNat 0x06 (bnat now) 1 (checkMxImage 18560))
/-- `mx.rs` (R251). -/
def execMxRs (p : Sys2Proof.Port) (s : State) : Out := .next (s.launchWord p.toNat 0x07 0 1 (checkMxImage 18560))
/-- `mx.chk` (R254). -/
def execMxChk (p : Sys2Proof.Port) (s : State) : Out := .next (s.launchWord p.toNat 0x08 0 1 (checkMxImage 8))
/-- `mx.rp` (R253). -/
def execMxRp (p : Sys2Proof.Port) (s : State) : Out := .next (s.launchWord p.toNat 0x09 0 1 checkMxRp)
/-- Arguments of an MXA word. -/
def mxArgs (op : Nat) : Nat := [0, 3, 3, 2, 3, 3, 1, 1, 1, 1].getD op 0
/-- The checks of an MXA word, for the later launches of a repeat (R87). -/
def mxCheck (op md : Nat) : Core → Nat → List Word → Check :=
  match op with
  | 0 => checkMxPlain
  | 1 | 2 => checkMxLd
  | 3 => checkMxMm md
  | 4 => checkMxPs
  | 5 => checkMxSt
  | 6 | 7 => checkMxImage 18560
  | 8 => checkMxImage 8
  | _ => checkMxRp

/-! ## Operands (R246) -/

/-- Coordinates of k element k of tile row i. -/
def MxStream.coords (x : MxStream) (i k : Nat) : List Nat :=
  let co := packed16 x.c
  [co.getD 0 0 + k, co.getD 1 0 + i * x.step, co.getD 2 0, co.getD 3 0]
/-- The coordinates lie within the handle's extents. -/
def inExtents (d : List Word) (co : List Nat) : Bool := (List.range 4).all fun i => co.getD i 0 < tExt d i
/-- Bytes of the tensor that hold an element: its own, or its whole DX group. -/
def elemSpan (d : List Word) (co : List Nat) : Nat × Nat :=
  let f := tFmt d
  let lin := tLinear d co
  if isBlock f then (tByte d lin, unitBytes f) else (tByte d lin, max 1 (codeBits f / 8))
/-- Flat rows that the k elements [k, k + n) of a stream's tile rows lie in. -/
def Core.streamRows (c : Core) (sec : Nat) (x : MxStream) (k n : Nat) : List Nat :=
  ((List.range 48).flatMap fun i => (List.range n).flatMap fun q =>
    let co := x.coords i (k + q)
    if inExtents x.entry co then
      let (b, len) := elemSpan x.entry co
      (List.range len).map fun r => rowAddr (c.tFlat sec x.entry (b + r))
    else []).foldl insertNat []
/-- The operands lie in a bank that has been evacuated or spilled (R249, R357). -/
def Core.streamAway (c : Core) (sec : Nat) (x : MxStream) (k n : Nat) : Bool :=
  (List.range 48).any fun i => (List.range n).any fun q =>
    let co := x.coords i (k + q)
    inExtents x.entry co && c.tAway sec x.entry (elemSpan x.entry co).1
/-- The operands lie in a spilled bank (R351). -/
def Core.streamSpilled (c : Core) (sec : Nat) (x : MxStream) (k n : Nat) : Bool :=
  (List.range 48).any fun i => (List.range n).any fun q =>
    let co := x.coords i (k + q)
    inExtents x.entry co && c.tSpilled sec x.entry (elemSpan x.entry co).1
/-- The bytes of an operand element. -/
def Core.elemBytes (c : Core) (sec : Nat) (d : List Word) (co : List Nat) : List Nat :=
  let (b, len) := elemSpan d co
  (List.range len).map fun r => c.tGet sec d (b + r)
/-- An operand element's value: unscaled for DX; zero outside the extents. -/
def Core.operand (c : Core) (sec : Nat) (x : MxStream) (i k : Nat) : Fp :=
  let d := x.entry
  let co := x.coords i k
  if !inExtents d co then .zero false
  else
    let f := tFmt d
    let bs := c.elemBytes sec d co
    if isBlock f then dxUnscaled f bs (tLinear d co % unitElems f)
    else if f = 9 then .ofInt (signed (bs.headD 0 / 16 ^ (tLinear d co % 2) % 16) 4)
    else unitValue f bs 0
/-- The scale byte of a tile row's group in a record (R248). -/
def Core.operandScale (c : Core) (sec : Nat) (x : MxStream) (i k : Nat) : Nat :=
  let co := x.coords i k
  if inExtents x.entry co then dxScale (tFmt x.entry) (c.elemBytes sec x.entry co) else 0x7F

/-! ## Accumulators (R67 to R70, R251) -/

/-- The accumulator of a DX sum that is −0 (R251). -/
def dxMinusZero : Word := word (2 ^ 63)
/-- Unit of a DX sum, as a power of two. -/
def dxUnit (fine : Bool) : Int := if fine then -42 else -34
/-- A DX count as a value. -/
def dxSum (fine : Bool) (x : Word) : Fp :=
  if x = dxMinusZero then .zero true
  else if x = 0 then .zero false
  else let v := signed x.toNat 64; .num (v < 0) v.natAbs (dxUnit fine) false
/-- A product as a count of units. -/
def dxCount (fine : Bool) : Fp → Int
  | .num n m e _ => let v : Int := (m * 2 ^ (e - dxUnit fine).toNat : Nat); if n then -v else v
  | _ => 0
/-- A group's sum after a step: −0 while every product of the group is −0 (R70). -/
def dxAdd (fine fresh : Bool) (acc : Word) (prods : List Fp) : Word :=
  let allNeg := prods.all fun p => p.isZero && p.neg?
  if allNeg && (fresh || acc == dxMinusZero) then dxMinusZero
  else word (wrap ((if acc = dxMinusZero then 0 else signed acc.toNat 64) + (prods.map (dxCount fine)).foldl (· + ·) 0) 64)
/-- One accumulator after a k-step (R67). -/
def mxAcc (kind : MxKind) (sat fine fresh : Bool) (acc : Word) (prods : List Fp) : Word :=
  match kind with
  | .fp64 => word (rounded fp64 (decodeFp fp64 acc.toNat :: prods))
  | .fp32 => word (wrap (signed (rounded fp32 (decodeFp fp32 (acc.toNat % 2 ^ 32) :: prods)) 32) 64)
  | .int32 =>
    let v := (prods.map (dxCountInt)).foldl (· + ·) (signed acc.toNat 64)
    word (wrap (if sat then satS v 32 else signed (wrap v 32) 32) 64)
  | .dx => dxAdd fine fresh acc prods
  | .none => acc
where
  dxCountInt : Fp → Int
    | .num n m e _ => let v : Int := (m * 2 ^ e.toNat : Nat); if n then -v else v
    | _ => 0
  -- a result is −0 only where every term is −0 (R70)
  rounded (sp : FSpec) (terms : List Fp) : Nat :=
    let y := (roundTo sp rne (sumFp 0 terms).1).1
    if y = 2 ^ (sp.w - 1) ∧ !(terms.all fun t => t.isZero && t.neg?) then 0 else y
/-- The FP32 word of a DX sum (R69). -/
def dxOut (fine : Bool) (x : Word) : Nat := (roundTo fp32 rne (dxSum fine x)).1
/-- The step is checked by the residue unit (R382): some element has finite operands and a finite accumulator. -/
def mxChecked (kind : MxKind) (acc : Map Word) (a b : List (List Fp)) : Bool :=
  let fin (x : Fp) : Bool := !x.isNan && !x.isInf
  let sp := if kind = .fp64 then fp64 else fp32
  if kind = .int32 ∨ kind = .dx then true
  else (a.zip (List.range 48)).any fun (x, i) => x.all fin && (b.zip (List.range 48)).any fun (y, j) =>
    y.all fin && fin (decodeFp sp ((mget acc (48 * i + j) 0).toNat % 2 ^ sp.w))

/-! ## `mx.mm` (R247 to R249) -/

def Job.mmKind (j : Job) : MxKind × Nat := (mxPair (fdSF (j.cap.fmts.getD 0 0)) (fdSF (j.cap.fmts.getD 1 0))).getD (.none, 1)
/-- The pair's sums count units of 2^−42. -/
def Job.mmFine (j : Job) : Bool := fdSF (j.cap.fmts.getD 0 0) != 0x0C
/-- An `mx.mm` ends without completing (R253). -/
def Core.dropMm (c : Core) (e : EngId) (j : Job) (kdone : Nat) : Core :=
  let c := (c.modMxa (engSector e) fun m => { m with record := [], recAt := 0 }).sched (c.now + 1) bEngine 0 (.mxrp j.weave true kdone)
  c.dropJob e j.id
/-- An `mx.mm` completes at a cycle (R253). -/
def Core.endMm (c : Core) (e : EngId) (j : Job) (at_ : Nat) : Core :=
  (c.finishAt e j.id at_).sched at_ bEngine 0 (.mxrp j.weave false (j.arg 0).toNat)
/-- The start of an `mx.mm` (R247). -/
def Core.startMm (c : Core) (e : EngId) (j : Job) : Core :=
  let sec := engSector e
  let m := (c.sector sec).mxa
  let c := c.modMxa sec fun m => { m with resume := 0, late := false }
  let (kind, rate) := j.mmKind
  let sf (i : Nat) : Nat := fdSF (j.cap.fmts.getD i 0)
  let ok := match m.a, m.b with
    | some a, some b =>
      tFmt a.entry == sf 0 && tFmt b.entry == sf 1 && (m.kind == .none || m.kind == kind) &&
      (kind != .dx || ((packed16 a.c).headD 0 % 128 == 0 && (packed16 b.c).headD 0 % 128 == 0)) && m.resume % rate == 0
    | _, _ => false
  if !ok then c.dropMm e j m.resume
  else
    let c := c.modJob e j.id fun x => { x with done := m.resume }
    if (j.arg 0).toNat ≤ m.resume then c.endMm e j (c.now + 2 * c.divOf e)
    else (c.modMxa sec fun m =>
      let fine := j.mmFine
      if kind = .dx ∧ m.kind = .dx ∧ m.dxFine ≠ fine ∧ m.kacc % 128 ≠ 0 then
        { m with dxFine := true, acc := if m.dxFine then m.acc else
            m.acc.map fun ((i, x) : Nat × Word) => (i, if x = dxMinusZero then x else x * 256) }
      else { m with kind := kind, dxFine := if kind = .dx then fine else m.dxFine }).stepIn e j.id 32
/-- The address of record n (R248); none where it leaves its window. -/
def Core.recordAt (c : Core) (w : Nat) (x : MxEmit) (n : Nat) : Option Word :=
  let o := omOfs x.base + n * x.gstr
  let a := word (x.base.toNat - omOfs x.base + o)
  if o < (if omSp x.base = 0 then 0x10000 else 0x400000) ∧ (c.omReach w a 9312).isNone then some a else none
/-- The P value of an element of a record: the rounded sum, with the error that the emission makes of it. -/
def mxP (m : Mxa) (n : Nat) : Nat :=
  let p := dxOut m.dxFine (mget m.acc n 0)
  match m.wrong with
  | some x =>
    if x.emission ∧ x.elem = n then
      match decodeFp fp32 p with
      | .num neg s e _ =>
        let v : Int := (if neg then -(s : Int) else s) + x.delta
        (roundTo fp32 rne (.num (v < 0) v.natAbs e false)).1
      | _ => p
    else p
  | none => p
/-- A record as rows (R248). -/
def mxRecord (m : Mxa) (ga gb : List Nat) : List Word :=
  let p := mxP m
  ((List.range 1152).map fun r => word (p (2 * r) + p (2 * r + 1) * 2 ^ 32)) ++
  (chunks 8 12 (ga ++ gb)).map fun bs => word (bytesNat bs)
/-- The records of an `mx.mm` (R241): the places of its next emissions. -/
def Core.recordRows (c : Core) (e : EngId) (j : Job) : List Nat :=
  let x := c.mxBehind e (some j.id)
  let n := if (j.mmKind).1 = .dx then (x.kacc % 128 + ((j.arg 0).toNat - x.resume)) / 128 else 0
  match x.emit with
  | none => []
  | some y =>
    let places := ((List.range (if y.gstr = 0 then min n 1 else n)).map fun i => c.recordAt j.weave y (x.emits + i)).takeWhile (·.isSome)
    places.foldl (fun acc a => (c.sideRows (.om j.weave j.cap.place (a.getD 0)) 0 9312).foldl insertNat acc) []
/-- The rows that an MXA job will write (R241), as it enters. -/
def Core.mxRows (c : Core) (e : EngId) (j : Job) : List Nat :=
  match j.op with
  | 3 => c.recordRows e j
  | 5 =>
    let n := if (c.mxBehind e (some j.id)).kind = .fp64 then 384 else 192
    let step := (j.arg 2).toNat
    if (c.omReach j.weave (j.arg 1) (47 * step + n)).isSome ∨ step < n then []
    else (List.range 48).foldl (fun acc i =>
      (c.sideRows (.om j.weave j.cap.place (j.arg 1)) (i * step) (i * step + n)).foldl insertNat acc) []
  | 6 => c.sideRows (.om j.weave j.cap.place (j.arg 0)) 0 18560
  | 8 => c.sideRows (.om j.weave j.cap.place (j.arg 0)) 0 8
  | _ => []
/-- A share of the record that is being emitted; a blackout of the row windows holds it (R344). -/
def Core.emitShare (c : Core) (e : EngId) (j : Job) : Core :=
  let sec := engSector e
  let m := (c.sector sec).mxa
  match m.emit with
  | none => c
  | some x =>
    match c.recordAt j.weave x (m.emits - 1) with
    | none => c
    | some a =>
      let n := outRate x.base / 8
      if (c.sideClosed (.om j.weave j.cap.place a)).isSome then c
      else
      let c := c.sideWrite j.weave (.om j.weave j.cap.place a) m.recAt
        (((m.record.drop (m.recAt / 8)).take n).flatMap fun (y : Word) => natBytes 8 y.toNat) (some j.id)
      c.modMxa sec fun m =>
        if m.record.length ≤ (m.recAt + 8 * n) / 8 then { m with record := [], recAt := 0 } else { m with recAt := m.recAt + 8 * n }
/-- An armed injection of the residue check fires at this step (R383, R399). -/
def Core.residueInjected (c : Core) (w : Nat) : Bool := (c.weave w).injecting && bits (c.weave w).errinj.toNat 59 56 == 6
/-- A residue mismatch (R383): the step's result is not written, the job stops without its signal. A second within 24 h makes
the instance suspect. -/
def Core.residueMismatch (c : Core) (e : EngId) (j : Job) (injected : Bool) : Core :=
  let unit := unitCode ⟨3, engSector e, 0⟩
  let day := 86400 * Config.secUnits
  let c := if injected then c.disarm j.weave else c.modMxa (engSector e) fun m => { m with wrong := none }
  let c := (c.modJob e j.id fun x => { x with suppress := true }).dropMm e j j.done
  let c := c.modHealth unit fun h =>
    let at_ := if injected then h.mismAt else (h.mismAt.filter fun t => c.wall < t + day) ++ [c.wall]
    { h with segc := h.segc + 1, mismAt := at_, state := if !injected && decide (1 < at_.length) then max 1 h.state else h.state }
  c.consumeJob j 6 unit 0 injected
/-- The residue modulo 127 that the products of a step and its accumulator give an exact sum counted in units 2^e (R382). -/
def mxResidue (e : Int) (acc : Fp) (ps : List (Fp × Fp)) : Int :=
  let sig (x : Fp) : Int := match x with | .num n m _ _ => (if n then -(m : Int) else m) % 127 | _ => 0
  let pow (x : Fp) : Int := match x with | .num _ _ k _ => k | _ => 0
  let aligned (s k : Int) : Int := if s = 0 then 0 else s * (2 ^ (k - e).toNat % 127) % 127
  ps.foldl (fun r (a, b) => (r + aligned (sig a * sig b % 127) (pow a + pow b)) % 127) (aligned (sig acc) (pow acc))
/-- An accumulator as a value. -/
def accValue (kind : MxKind) (fine : Bool) (x : Word) : Fp :=
  match kind with
  | .fp64 => decodeFp fp64 x.toNat
  | .fp32 => decodeFp fp32 (x.toNat % 2 ^ 32)
  | .int32 => .ofInt (signed x.toNat 64)
  | .dx => dxSum fine x
  | .none => .zero false
/-- The term by which an error changes the exact sum of an accumulator, and whether the residue unit sees it: it does not check
sums that hold NaN or an infinity (R382). -/
def mxErr (kind : MxKind) (fine : Bool) (acc : Fp) (ps : List (Fp × Fp)) (delta : Int) : Fp × Bool :=
  let terms := acc :: ps.map fun (a, b) => (mulFp a b).1
  let e := match kind with | .dx => dxUnit fine | .int32 => 0 | _ => sumLsb terms
  if terms.any fun t => t.isNan || t.isInf then (.zero true, false)
  else (.num (delta < 0) delta.natAbs e false, (sumUnits e terms + delta - mxResidue e acc ps) % 127 != 0)
/-- The residue unit finds a record's P value at fault (R382): P and the bits that its rounding discarded, against the sum. -/
def mxPWrong (m : Mxa) (n : Nat) : Bool :=
  let sum := dxSum m.dxFine (mget m.acc n 0)
  let right := decodeFp fp32 (dxOut m.dxFine (mget m.acc n 0))
  let p := decodeFp fp32 (mxP m n)
  let e := sumLsb [sum, right, p]
  (p.units e + (sum.units e - right.units e) - sum.units e) % 127 != 0
/-- One k-step (R67, R249, R382), with its operands at hand. -/
def Core.kStep (c : Core) (e : EngId) (j : Job) (a b : MxStream) : Core :=
  let sec := engSector e
  let (kind, rate) := j.mmKind
  let k := j.done
  let m := (c.sector sec).mxa
  let va := (List.range 48).map fun i => (List.range rate).map fun q => c.operand sec a i (k + q)
  let vb := (List.range 48).map fun i => (List.range rate).map fun q => c.operand sec b i (k + q)
  let sat := bitAt j.md 6
  let err : Option (Nat × Fp × Bool) := (m.wrong.filter fun x => !x.emission).map fun x =>
    (x.elem, mxErr kind m.dxFine (accValue kind m.dxFine (mget m.acc x.elem 0))
      ((va.getD (x.elem / 48) []).zip (vb.getD (x.elem % 48) [])) x.delta)
  let acc : Map Word := (va.zip (List.range 48)).flatMap fun (x, i) => (vb.zip (List.range 48)).map fun (y, i') =>
    let n := 48 * i + i'
    let off : List Fp := match err with
      | some (q, t, _) => if q = n then [t] else []
      | none => []
    (n, mxAcc kind sat m.dxFine (m.kacc % 128 == 0) (mget m.acc n 0) (((x.zip y).map fun (p, q) => (mulFp p q).1) ++ off))
  let was := m
  let m : Mxa := { m with
    acc := acc
    kind := kind
    kacc := (m.kacc + rate) % 2 ^ 64
    wrong := if err.isSome then none else m.wrong
    steps := if mxChecked kind m.acc va vb then min (m.steps + 1) (2 ^ 32 - 1) else m.steps }
  let emits : Bool := kind == .dx && m.kacc % 128 == 0
  let seen : Bool := ((err.map fun x => x.2.2) == some true) ||
    (emits && match m.wrong with | some x => x.emission && mxPWrong m x.elem | none => false)
  let injected := c.residueInjected j.weave
  -- the step counts as checked, though its result is not written (R254, R383)
  if seen || injected then (c.modMxa sec fun _ => { was with steps := m.steps }).residueMismatch e j injected
  else
  let c := (c.modMxa sec fun _ => m).modJob e j.id fun x => { x with done := k + rate }
  let j : Job := { j with done := k + rate }
  if emits then
    match m.emit.bind fun x => c.recordAt j.weave x m.emits with
    | none => c.dropMm e j j.done
    | some _ =>
      let ga := (List.range 48).map fun i => c.operandScale sec a i k
      let gb := (List.range 48).map fun i => c.operandScale sec b i k
      ((c.modMxa sec fun m => { m with record := mxRecord m ga gb, recAt := 0, acc := [], emits := m.emits + 1
                                       wrong := m.wrong.filter fun x => !x.emission }).stepIn e j.id 1).emitIn e j.id
  else if m.record.length = 0 ∧ (j.arg 0).toNat ≤ j.done then c.endMm e j (c.now + c.divOf e)
  else c.stepIn e j.id 1
/-- An `mx.sv` NOW waits at the head of the queue for the running `mx.mm` to stop (R252). -/
def Core.stopAsked (c : Core) (e : EngId) : Bool :=
  match (c.jobsOf e).head? with
  | some j => j.op == 6 && j.md == 1 && j.started.isNone && decide (j.entered ≤ c.now)
  | none => false
/-- The running `mx.mm` stops, and the `mx.sv` NOW that asked for it starts (R252). -/
def Core.stopMm (c : Core) (e : EngId) (j : Job) : Core := ((c.modMxa (engSector e) fun m => { m with cut := j.done }).dropMm e j j.done).kick e
/-- A cycle of the emission under way (R249), which nothing that holds the k-steps holds. With its last share an `mx.mm` whose
steps are done ends, and one that is to stop stops. -/
def Core.mmEmit (c : Core) (e : EngId) (id : Nat) : Core :=
  match c.job? e id with
  | none => c
  | some j =>
    if (c.sector (engSector e)).mxa.record.isEmpty then c
    else
      let c := c.emitShare e j
      if !(c.sector (engSector e)).mxa.record.isEmpty then c.emitIn e id
      else if c.stopAsked e then c.stopMm e j
      else if (j.arg 0).toNat ≤ j.done then c.endMm e j (c.now + c.divOf e)
      else c
/-- A cycle of a running `mx.mm` (R249): the next k-step unless it is held. One that completes a group runs no earlier than the
cycle after the previous emission's end. -/
def Core.mmStep (c : Core) (e : EngId) (j : Job) : Core :=
  let sec := engSector e
  let m := (c.sector sec).mxa
  let emitting : Bool := m.record.length != 0
  let (kind, rate) := j.mmKind
  if decide ((j.arg 0).toNat ≤ j.done) || (emitting && c.stopAsked e) then c
  else if c.stopAsked e then c.stopMm e j
  else if emitting && kind == .dx && (m.kacc + rate) % 128 == 0 then c.stepIn e j.id 1
  else match m.a, m.b with
    | some a, some b =>
      let rows := c.streamRows sec a j.done rate ++ c.streamRows sec b j.done rate
      if rows.any fun r => !c.rowArrived r then c.heldTo e j.id (c.now + 1)
      else if !m.late && (c.streamAway sec a j.done rate || c.streamAway sec b j.done rate) then
        let spilled := c.streamSpilled sec a j.done rate || c.streamSpilled sec b j.done rate
        let (t, c) := if spilled then c.freeWait else c.crossTime sec true
        (c.modMxa sec fun m => { m with late := true }).heldTo e j.id (c.now + t)
      else
        let (c, go) := c.jobRead e j rows
        if !go then c else c.kStep e j a b
    | _, _ => c.dropMm e j j.done

/-! ## The other words -/

/-- Word i of the save image (R251). -/
def Mxa.image (m : Mxa) (kdone i : Nat) : Word :=
  let kind : Nat := match m.kind with
    | .none => 0 | .fp64 => 1 | .fp32 => 2 | .int32 => 3 | .dx => 4
  let stream (x : Option MxStream) (j : Nat) : Word :=
    match x with
    | none => 0
    | some y => [word (2 ^ 63 + y.t), y.c, word y.step].getD j 0
  if i = 0 then word kind
  else if i = 1 then word m.kacc
  else if i = 2 then word m.emits
  else if i = 3 then word kdone
  else if i < 7 then stream m.a (i - 4)
  else if i < 10 then stream m.b (i - 7)
  else if i < 13 then
    match m.emit with
    | none => 0
    | some x => [word (2 ^ 63 + x.ring), x.base, word x.gstr].getD (i - 10) 0
  else if i < 16 then 0
  else mget m.acc (i - 16) 0
/-- A stream from three image words; an entry that is invalid now leaves it invalid (R251). -/
def Core.imageStream (c : Core) (sec : Nat) (x y z : Word) : Option MxStream :=
  let t := x.toNat % 4096
  let d := c.tEntry sec t
  if bitAt x.toNat 63 && c.tOk sec d then some ⟨t, d, y, z.toNat⟩ else none
/-- Reserved bits of bytes 0 to 127 are 0, and the kind is one of the five. -/
def imageOk (ws : List Word) : Bool :=
  let x (i : Nat) : Nat := (ws.getD i 0).toNat
  x 0 ≤ 4 && x 4 % 2 ^ 63 < 4096 && x 7 % 2 ^ 63 < 4096 && x 10 % 2 ^ 63 < 32 && x 13 == 0 && x 14 == 0 && x 15 == 0
/-- `mx.rs` has read its image (R251). The unit of DX sums is that of the restored streams; where neither is valid it is
free (log 7). -/
def Core.restoreMxa (c : Core) (sec : Nat) (ws : List Word) : Core :=
  let x (i : Nat) : Word := ws.getD i 0
  let a := c.imageStream sec (x 4) (x 5) (x 6)
  let b := c.imageStream sec (x 7) (x 8) (x 9)
  let (f, c) := c.free
  let fine : Bool := match a, b with
    | some y, _ => tFmt y.entry != 0x0C
    | none, some y => tFmt y.entry != 0x0C
    | none, none => bitAt f.toNat 0
  let kind : MxKind := [.none, .fp64, .fp32, .int32].getD (x 0).toNat .dx
  c.modMxa sec fun m => { m with
    kind := kind
    kacc := (x 1).toNat
    emits := (x 2).toNat
    a := a
    b := b
    emit := if bitAt (x 10).toNat 63 then some ⟨(x 10).toNat % 32, x 11, (x 12).toNat⟩ else none
    resume := 0
    dxFine := fine
    acc := (List.range 2304).map fun i => (i, x (16 + i)) }
/-- Bytes of a row that `mx.st` writes (R250). -/
def stRow (m : Mxa) : Nat := if m.kind = .fp64 then 384 else 192
/-- Row r (8 bytes) of tile row i that `mx.st` writes. -/
def stWord (m : Mxa) (i r : Nat) : Word :=
  let low (n : Nat) : Nat :=
    let x := mget m.acc n 0
    match m.kind with
    | .none => 0
    | .dx => dxOut m.dxFine x
    | _ => x.toNat % 2 ^ 32
  if m.kind = .fp64 then mget m.acc (48 * i + r) 0 else word (low (48 * i + 2 * r) + low (48 * i + 2 * r + 1) * 2 ^ 32)
/-- `mx.zero`, and `mx.st` with CLR (R245, R250). -/
def Mxa.zeroed (m : Mxa) : Mxa := { m with kind := .none, kacc := 0, acc := [] }
/-- A share of `mx.st`: up to V bytes of the rows, in order. Rows that overlap or leave the window, as the kind at execution may make
them, drop the job (log 72). -/
def Core.stShare (c : Core) (e : EngId) (j : Job) : Core :=
  let sec := engSector e
  let m := (c.sector sec).mxa
  let v := outRate (j.arg 1) / 8
  let len := stRow m / 8
  let total := 48 * len
  let step := (j.arg 2).toNat
  if (c.omReach j.weave (j.arg 1) (47 * step + stRow m)).isSome ∨ step < stRow m then c.dropJob e j.id
  else if let some t := c.sideClosed (j.om 1) then c.heldTo e j.id t
  else
    let lo := v * j.done
    let n := min v (total - lo)
    let c := (List.range n).foldl (fun c q =>
      let i := (lo + q) / len
      let r := (lo + q) % len
      c.sideWrite j.weave (j.om 1) (i * step + 8 * r) (natBytes 8 (stWord m i r).toNat) (some j.id)) c
    let c := c.modJob e j.id fun x => { x with done := x.done + 1 }
    if total ≤ lo + n then (if bitAt j.md 0 then c.modMxa sec Mxa.zeroed else c).finishIn e j.id 1 else c.stepIn e j.id 1
/-- A share of `mx.sv`. -/
def Core.svShare (c : Core) (e : EngId) (j : Job) : Core :=
  let m := (c.sector (engSector e)).mxa
  let lo := 256 * j.done
  let n := min 256 (2320 - lo)
  let c := c.sideWrite j.weave (j.om 0) (8 * lo) ((List.range n).flatMap fun i => natBytes 8 (m.image m.cut (lo + i)).toNat) (some j.id)
  let c := c.modJob e j.id fun x => { x with done := x.done + 1 }
  if 2320 ≤ lo + n then (c.modMxa (engSector e) fun m => { m with cut := 0 }).finishIn e j.id 1 else c.stepIn e j.id 1
/-- A share of `mx.rs`; the last one restores. -/
def Core.rsShare (c : Core) (e : EngId) (j : Job) : Core :=
  let lo := 2048 * j.done
  let n := min 2048 (18560 - lo)
  let side := j.om 0
  let (c, go) := c.jobRead e j (c.sideRows side lo (lo + n))
  if !go then c
  else
    let c := c.modJob e j.id fun x => { x with done := x.done + 1 }
    if lo + n < 18560 then c.stepIn e j.id 1
    else
      let ws := (List.range 2320).map fun i => word (bytesNat (c.sideBytes side (8 * i) 8))
      if imageOk ws then (c.restoreMxa (engSector e) ws).finishIn e j.id 1 else c.dropJob e j.id
/-- The known-answer test of `mx.chk` fails where the array's arithmetic errs by what the residue code sees (R254, R382; log 41). -/
def Mxa.failsTest (m : Mxa) : Bool := (m.wrong.map fun x => x.delta % 127 != 0) == some true
/-- The row of `mx.chk` (R254). -/
def chkRow (m : Mxa) : Word := word (bnat m.failsTest * 2 ^ 63 + m.steps)
/-- A step of an MXA job (R244). -/
def Core.mxStep (c : Core) (e : EngId) (j : Job) : Core :=
  let sec := engSector e
  let first := c.starting j
  let two (f : Mxa → Mxa) : Core := (c.modMxa sec f).finishIn e j.id 2
  let stream : Option MxStream := j.cap.tensors.head?.map fun (t, d) => ⟨t, d, j.arg 1, (j.arg 2).toNat⟩
  match j.op with
  | 0 => two Mxa.zeroed
  | 1 => two fun m => { m with a := stream }
  | 2 => two fun m => { m with b := stream }
  | 3 => if first then c.startMm e j else c.mmStep e j
  | 4 => two fun m => { m with emit := some ⟨ctlRing (j.arg 0), j.arg 1, (j.arg 2).toNat⟩, emits := 0 }
  | 5 => if first then c.stepIn e j.id 16 else c.stShare e j
  | 6 => if first then c.stepIn e j.id 16 else c.svShare e j
  | 7 => if first then c.stepIn e j.id 16 else c.rsShare e j
  | 8 =>
    if first then c.stepIn e j.id 255
    else
      let m := (c.sector sec).mxa
      let c := (c.sideWrite j.weave (j.om 0) 0 (natBytes 8 (chkRow m).toNat) (some j.id)).sched c.now bAfter (engRank e)
        (.chkResult sec m.failsTest)
      (c.modMxa sec fun m => { m with wrong := none }).finishIn e j.id 1
  | _ => two fun m => { m with resume := (j.arg 0).toNat }

end Sys2Proof.Machine
end

