-- ==== Sys2Proof/Machine/Gather.lean ====
section
/-! DEFINITION. The gather engine (R255 to R268): its words' checks, and its jobs' address and data sides. -/
namespace Sys2Proof.Machine

/-! ## Checks at issue (R256, R261, R262) -/

/-- `gx.cfg`: CTL, ROWB. -/
def checkGxCfg (md : Nat) (c : Core) (w : Nat) (a : List Word) : Check :=
  let ctl := a.getD 0 0
  let rb := (a.getD 1 0).toNat
  let d := (c.weave w).descriptor md
  let h := (c.weave w).handles.getD (ctlH ctl) Handle.reset
  let u : HUse := ⟨ctlH ctl, 0, h.len.toNat, h.r, h.w⟩
  firstFault [argFault (ctlOk ctl false true && ctlRing ctl == 0 && rb % 8 == 0 && 8 ≤ rb && rb ≤ 4096),
    if fdValid d then none else some (.job 6), c.hCheck w u]
    (.ok { Captured.none with handle := some (c.hCapture w u), fmts := [d], rowb := rb } [] (some u))
/-- The ROWB recorded at the weave's port that holds a GXE (R261). -/
def Core.rowbOf (c : Core) (w : Nat) (e : Nat) : Option Nat :=
  ((c.weave w).ports.find? fun x => x.g && x.kind == 1 && x.inst == e).bind (·.rowb)
def rowExtent (c : Core) (w : Nat) (rb : Option Nat) (a : Word) (n : Nat) : Option Check :=
  match rb with
  | some r => c.omReach w a (n * r)
  | none => none
def idxBytes (md : Nat) : Nat := if bitAt md 0 then 8 else 4
/-- `gx.gth` and `gx.sca`: CTL, IDX, N, DST or SRC. -/
def checkGxRows (md : Nat) (rb : Option Nat) (c : Core) (w : Nat) (a : List Word) : Check :=
  let x (i : Nat) : Word := a.getD i 0
  let n := (x 2).toNat
  firstFault [argFault (ctlOk (x 0) false false && omFields (x 1) && omFields (x 3) && 1 ≤ n && n ≤ 65536),
    c.omReach w (x 1) (idxBytes md * n), rowExtent c w rb (x 3) n] (.ok Captured.none (ringsOf (x 0)) none)
/-- `gx.bag`: CTL, IDX, NB, BL, DST. -/
def checkGxBag (md : Nat) (rb : Option Nat) (c : Core) (w : Nat) (a : List Word) : Check :=
  let x (i : Nat) : Word := a.getD i 0
  let nb := (x 2).toNat
  let bl := (x 3).toNat
  firstFault [argFault (ctlOk (x 0) false false && omFields (x 1) && omFields (x 4) && 1 ≤ nb && nb ≤ 65536 && 1 ≤ bl && bl ≤ 1024 &&
      nb * bl ≤ 65536),
    c.omReach w (x 1) (idxBytes md * (nb * bl)), rowExtent c w rb (x 4) nb] (.ok Captured.none (ringsOf (x 0)) none)
/-- `gx.stat`: DST. -/
def checkGxStat (c : Core) (w : Nat) (a : List Word) : Check :=
  firstFault [argFault (omFields (a.getD 0 0)), c.omReach w (a.getD 0 0) 64] .plain
/-- The ROWB recorded at a port. -/
def Core.portRowb (c : Core) (w p : Nat) : Option Nat := ((c.weave w).port p).rowb

/-- `gx.cfg` (R261). -/
def execGxCfg (p : Sys2Proof.Port) (slot : BitVec 3) (s : State) : Out :=
  .next (s.launchWord p.toNat 0x00 slot.toNat 2 (checkGxCfg slot.toNat))
/-- `gx.gth` (R265). -/
def execGxGth (p : Sys2Proof.Port) (w64 : Bool) (s : State) : Out :=
  .next (s.launchWord p.toNat 0x01 (bnat w64) 4 fun c w a => checkGxRows (bnat w64) (c.portRowb w p.toNat) c w a)
/-- `gx.bag` (R265). -/
def execGxBag (p : Sys2Proof.Port) (w64 : Bool) (s : State) : Out :=
  .next (s.launchWord p.toNat 0x02 (bnat w64) 5 fun c w a => checkGxBag (bnat w64) (c.portRowb w p.toNat) c w a)
/-- `gx.sca` (R266). -/
def execGxSca (p : Sys2Proof.Port) (w64 : Bool) (s : State) : Out :=
  .next (s.launchWord p.toNat 0x03 (bnat w64) 4 fun c w a => checkGxRows (bnat w64) (c.portRowb w p.toNat) c w a)
/-- `gx.stat` (R268). -/
def execGxStat (p : Sys2Proof.Port) (clr : Bool) (s : State) : Out := .next (s.launchWord p.toNat 0x04 (bnat clr) 1 checkGxStat)
/-- Arguments of a GXE word. -/
def gxArgs (op : Nat) : Nat := [2, 4, 5, 4, 1].getD op 0
/-- The checks of a GXE word, for the later launches of a repeat (R87). -/
def gxCheck (p op md : Nat) : Core → Nat → List Word → Check :=
  match op with
  | 0 => checkGxCfg md
  | 1 | 3 => fun c w a => checkGxRows md (c.portRowb w p) c w a
  | 2 => fun c w a => checkGxBag md (c.portRowb w p) c w a
  | _ => checkGxStat

/-! ## Jobs -/

def Core.gxeOf (c : Core) (e : EngId) : Gxe :=
  match e with
  | .pool s _ i => (c.sector s).gxe.getD i Gxe.reset
  | .copy _ _ => Gxe.reset
def Core.modGxe (c : Core) (e : EngId) (f : Gxe → Gxe) : Core :=
  match e with
  | .pool s _ i => c.modSec s fun x => { x with gxe := lmod x.gxe i f }
  | .copy _ _ => c
def satCount (x n : Nat) : Nat := min (x + n) (2 ^ 64 - 1)

/-- Entries, bag length and destination of a job. -/
def Job.gxEntries (j : Job) : Nat := if j.op = 2 then (j.arg 2).toNat * (j.arg 3).toNat else (j.arg 2).toNat
def Job.gxBag (j : Job) : Nat := if j.op = 2 then max 1 (j.arg 3).toNat else 1
def Job.gxDst (j : Job) : Word := if j.op = 2 then j.arg 4 else j.arg 3
/-- Bytes that the job writes on the module. -/
def Job.gxOut (j : Job) (rb : Nat) : Nat := if j.op = 3 then 0 else j.gxEntries / j.gxBag * rb
/-- A job may start (R261, R265, R266). -/
def gxStarts (j : Job) (k : GxeCfg) : Bool :=
  let lf := fdLF k.fmt
  if j.op = 3 then k.handle.w && k.handle.pages.all (·.tgt == 0) && lf != 9
  else k.handle.r && (j.op != 2 || lf == 1 || lf == 2 || lf == 3 || lf == 4 || lf == 5)

/-- An element of a row widened to FP32 (R265), and a sum in FP32. -/
def bagElem (lf : Nat) (bs : List Nat) (i : Nat) : Fp := unitValue lf ((bs.drop (i * (codeWidth lf / 8))).take (codeWidth lf / 8)) 0
/-- The sums of a bag after one more row: the first row's values, then one FP32 rounding a row. -/
def bagAdd (lf : Nat) (first : Bool) (acc : List Word) (bs : List Nat) : List Word :=
  (List.range (8 * bs.length / codeWidth lf)).map fun i =>
    let x := bagElem lf bs i
    if first then word (roundTo fp32 rne x).1
    else word (roundTo fp32 rne (addFp 0 (decodeFp fp32 (acc.getD i 0).toNat) x).1).1
/-- The output row of a bag. -/
def bagRow (k : GxeCfg) (acc : List Word) : List Nat :=
  let lf := fdLF k.fmt
  let sp := (specOfCode lf).getD fp32
  acc.flatMap fun (x : Word) => natBytes (codeWidth lf / 8) (roundTo sp (fdEngineRnd k.fmt) (decodeFp fp32 x.toNat)).1
/-- A table row after a scatter-add (R266). -/
def scaRow (k : GxeCfg) (old src : List Nat) : List Nat :=
  let lf := fdLF k.fmt
  let n := codeWidth lf / 8
  let r := fdEngineRnd k.fmt
  -- zero signs are those of RNE (R258)
  (List.range (old.length / n)).flatMap fun i =>
    let x := (old.drop (i * n)).take n
    let y := (src.drop (i * n)).take n
    natBytes n (match specOfCode lf with
      | some sp => (roundTo sp r (addFp 0 (decodeFp sp (bytesNat x)) (decodeFp sp (bytesNat y))).1).1
      | none =>
        let v := signed (bytesNat x) (8 * n) + signed (bytesNat y) (8 * n)
        wrap (if fdSAT k.fmt then satS v (8 * n) else v) (8 * n))

/-- Bytes of a row of the configured handle that are poisoned (R267). -/
def Core.rowPoisoned (c : Core) (j : Job) (va n : Nat) : Bool :=
  match j.cap.handle.bind fun h => findPage h.pages va with
  | some p =>
    let l := p.loc va
    let (lo, len) := Core.footprint (c.attr (c.ctxOf j.weave) l.attr) l n
    p.tgt == 0 && !(c.poisonOf lo len).isEmpty
  | none => false
/-- The pieces of a row, as offset and length. -/
def rowPieces (va n : Nat) : List (Nat × Nat) := ((List.range (n / 64 + 2)).map (pieceOf va n)).filter fun p => p.2 != 0

/-- The job drops at an entry. -/
def Core.dropGx (c : Core) (e : EngId) (j : Job) : Core :=
  (c.modGxe e fun g => { g with queue := [], part := [], row := [], acc := [] }).dropJob e j.id

/-- 64-byte requests of an entry. -/
def gxRequests (k : GxeCfg) (v : Nat) : Nat :=
  if k.nrows ≤ v then 0 else (rowPieces (k.handle.base.toNat + v * k.rowb) k.rowb).length
/-- Requests that a weave has outstanding: those of its GXE jobs, and one of each of its copy jobs that moves global data (R240). -/
def Core.outstanding (c : Core) (w : Nat) : Nat :=
  let sec := secOf w
  let mine (e : EngId) : Option Job := (c.jobsOf e).find? fun j => j.weave == w && j.started.isSome
  let gx := (List.range 2).foldl (fun n i =>
    let g := c.gxeOf (.pool sec 1 i)
    match mine (.pool sec 1 i), g.cfg with
    | some _, some k => g.queue.foldl (fun n q => n + gxRequests k q.1) n
    | _, _ => n) 0
  gx + ([EngId.copy w false, .copy w true].filter fun e =>
    match mine e with
    | some j => decide (j.op = 1) || j.op == 4 || j.op == 5 || j.op == 6
    | none => false).length
/-- The address side (R263, R264): at most one entry a cycle, none where the weave's 4,096 requests are outstanding (R240). The
second result is false when the job was dropped or pauses for a verdict. -/
def Core.gxAddress (c : Core) (e : EngId) (j : Job) (k : GxeCfg) : Core × Bool :=
  let g := c.gxeOf e
  let n := j.gxEntries
  let stop (c : Core) : Core := c.modGxe e fun g => { g with lodcyc := satCount g.lodcyc 1, stopped := true }
  if n ≤ g.pos ∨ 64 ≤ g.queue.length then (c, true)
  else
    let ib := idxBytes j.md
    let side := j.om 1
    let row := (c.sideRows side (ib * g.pos) (ib * g.pos + ib)).headD 0
    let total := j.gxOut k.rowb
    let dst : Side := .om j.weave j.cap.place j.gxDst
    let own := (List.range (total / 8)).find? fun q => (c.sideRows dst (8 * q) (8 * q + 1)).headD 0 == row
    let last (q : Nat) : Nat := 8 * q / k.rowb * j.gxBag + j.gxBag - 1
    match own with
    | some q =>
      if (c.sideClosed side).isSome then (if g.stopped && g.out < 8 * q + 8 then stop c else c, true)
      else if g.pos ≤ last q then (c.dropGx e j, false)
      else if g.out < 8 * q + 8 then (stop c, true)
      else translate c g ib side row
    | none =>
      if (c.sideClosed side).isSome then (c, true)
      else if !c.rowArrived row then (c.modGxe e fun g => { g with iwcyc := satCount g.iwcyc 1 }, true)
      else translate c g ib side row
where
  translate (c : Core) (g : Gxe) (ib : Nat) (side : Side) (row : Nat) : Core × Bool :=
    let (c, go) := c.jobRead e j [row]
    if !go then (c, false)
    else
      let v := bytesNat (c.sideBytes side (ib * g.pos) ib)
      if k.nrows ≤ v then
        (c.modGxe e fun g => { g with
          stopped := false, pos := g.pos + 1, queue := g.queue ++ [(v, c.now)], oor := satCount g.oor 1, first := some (g.first.getD (g.pos, v)) }, true)
      else if Config.requestLimit < c.outstanding j.weave + gxRequests k v then (c, true)
      else
        let (t, c) := c.freeWait
        (c.modGxe e fun g => { g with stopped := false, pos := g.pos + 1, queue := g.queue ++ [(v, c.now + t)] }, true)

/-- An entry is consumed with its row (R265). -/
def Core.gxConsume (c : Core) (e : EngId) (j : Job) (k : GxeCfg) (bs : List Nat) : Core :=
  c.modGxe e fun g =>
    let bl := j.gxBag
    let acc := if j.op = 2 then bagAdd (fdLF k.fmt) (g.ent % bl == 0) g.acc bs else []
    let done := (g.ent + 1) % bl == 0
    { g with
      ent := g.ent + 1, queue := g.queue.drop 1, part := [], bad := false
      acc := if done then [] else acc
      row := if j.op = 2 then (if done then bagRow k acc else []) else bs }
/-- One entry of `gx.sca` (R266, R267). All of its requests are looked at first: FAULT drops the entry, ZERO takes the old row as
+0. Then each request in turn is read, added to and written whole. -/
def Core.gxScatter (c : Core) (e : EngId) (j : Job) (k : GxeCfg) (v : Nat) : Core × Bool :=
  let g := c.gxeOf e
  let next (c : Core) : Core := c.modGxe e fun g => { g with ent := g.ent + 1, queue := g.queue.drop 1 }
  if k.nrows ≤ v then (next c, true)
  else
    let src : Side := j.om 3
    let rows := c.sideRows src (g.ent * k.rowb) (g.ent * k.rowb + k.rowb)
    if (c.sideClosed src).isSome || rows.any fun r => !c.rowArrived r then (c, true)
    else
      let (c, go) := c.jobRead e j rows
      if !go then (c, false)
      else
        let va := k.handle.base.toNat + v * k.rowb
        let ps := rowPieces va k.rowb
        let read (acc : Option (List Nat) × Core) (p : Nat × Nat) : Option (List Nat) × Core :=
          match acc.1 with
          | none => acc
          | some bs =>
            match acc.2.jobGlobal e j (va + p.1) p.2 with
            | (.bytes b, c) => (some (bs.take p.1 ++ b ++ bs.drop (p.1 + p.2)), c)
            | (_, c) => (none, c)
        let (res, c) := ps.foldl read (some (List.replicate k.rowb 0), c)
        match res with
        | none => (c.dropGx e j, false)
        | some _ =>
          let bad := ps.any fun p => c.rowPoisoned j (va + p.1) p.2
          let zero := List.replicate k.rowb 0
          let c := if bad then c.modGxe e fun g => { g with pois := satCount g.pois 1 } else c
          let add := c.sideBytes src (g.ent * k.rowb) k.rowb
          let (_, c) := ps.foldl (fun (acc : List Nat × Core) p =>
            let (old, c) := if bad then (some zero, acc.2) else read (some acc.1, acc.2) p
            let old := old.getD acc.1
            match findPage k.handle.pages (va + p.1) with
            | some pg => (old, (c.globalWrite (c.ctxOf j.weave) (engSector e) (pg.loc (va + p.1)) (va + p.1)
                (((scaRow k old add).drop p.1).take p.2) 4 0 0 (some j.id) bad).1)
            | none => (old, c)) (zero, c)
          (next c, true)
/-- The data side of a cycle (R263): output of at most 256 bytes, else the next entry whose row is there. -/
def Core.gxData (c : Core) (e : EngId) (j : Job) (k : GxeCfg) : Core × Bool :=
  let g := c.gxeOf e
  if !g.row.isEmpty then
    let n := min 256 g.row.length
    let dst : Side := .om j.weave j.cap.place j.gxDst
    if (c.sideClosed dst).isSome then (c, true)
    else
    let c := c.sideWrite j.weave dst g.out (g.row.take n) (some j.id)
    (c.modGxe e fun g => { g with row := g.row.drop n, out := g.out + n }, true)
  else match g.queue.head? with
    | none => (c, true)
    | some (v, t) =>
      if c.now < t then (c, true)
      else if j.op = 3 then c.gxScatter e j k v
      else if k.nrows ≤ v then (c.gxConsume e j k (List.replicate k.rowb 0), true)
      else
        let va := k.handle.base.toNat + v * k.rowb
        let (lo, n) := (rowPieces va k.rowb).find? (fun p => p.1 == g.part.length) |>.getD (0, 0)
        match c.jobGlobal e j (va + lo) n with
        | (.dropped, c) => (c.dropGx e j, false)
        | (.waits, c) => (c, true)
        | (.bytes bs, c) =>
          let part := g.part ++ bs
          let bad := g.bad || c.rowPoisoned j (va + lo) n
          if part.length < k.rowb then (c.modGxe e fun g => { g with part := part, bad := bad }, true)
          else
            let c := c.modGxe e fun g => { g with
              fetched := satCount g.fetched 1, pois := if bad then satCount g.pois 1 else g.pois }
            (c.gxConsume e j k (if bad then List.replicate k.rowb 0 else part), true)
/-- A cycle of a running gather, bag or scatter. -/
def Core.gxCycle (c : Core) (e : EngId) (j : Job) : Core :=
  match (c.gxeOf e).cfg with
  | none => c.dropGx e j
  | some k =>
    let (c, go) := c.gxAddress e j k
    if !go then c
    else
      let (c, go) := c.gxData e j k
      if !go then c
      else
        let g := c.gxeOf e
        if j.gxEntries ≤ g.ent ∧ g.row.isEmpty then c.finishIn e j.id 1 else c.stepIn e j.id 1
/-- The statistics record (R268). -/
def gxRecord (g : Gxe) : List Word :=
  [word g.fetched, word g.oor, word g.pois, word g.lodcyc, word g.iwcyc] ++
  (match g.first with
    | some (n, v) => [word (2 ^ 63 + n), word v]
    | none => [0, 0]) ++ [0]
/-- A step of a GXE job (R260). -/
def Core.gxStep (c : Core) (e : EngId) (j : Job) : Core :=
  let first := c.starting j
  match j.op with
  | 0 =>
    let h := j.cap.handle.getD Handle.reset
    let rb := (j.arg 1).toNat
    (c.modGxe e fun g => { g with cfg := some ⟨h, j.cap.fmts.getD 0 0, rb, h.len.toNat / rb⟩ }).finishIn e j.id 2
  | 4 =>
    if first then
      let (t, c) := c.pairLate e [j.arg 0]
      c.stepIn e j.id (3 + t)
    else if let some t := c.sideClosed (j.om 0) then c.heldTo e j.id t
    else
      let g := c.gxeOf e
      let c := c.sideWrite j.weave (j.om 0) 0 ((gxRecord g).flatMap fun (x : Word) => natBytes 8 x.toNat) (some j.id)
      (if bitAt j.md 0 then c.modGxe e fun g => { g with
        fetched := 0, oor := 0, pois := 0, lodcyc := 0, iwcyc := 0, first := none } else c).finishIn e j.id 1
  | _ =>
    if !first then c.gxCycle e j
    else match (c.gxeOf e).cfg with
      | none => c.dropJob e j.id
      | some k =>
        if !gxStarts j k then c.dropJob e j.id
        else
          let c := c.modJob e j.id fun x => { x with cap := { x.cap with handle := some k.handle } }
          (c.modGxe e fun g => { g with
            pos := 0, queue := [], ent := 0, part := [], bad := false, row := [], out := 0, acc := [] }).stepIn e j.id 8

end Sys2Proof.Machine
end

