-- ==== Sys2Proof/Machine/Codec.lean ====
section
/-! DEFINITION. The codec engine (R255 to R258, R269 to R274), and what the codec, function and select engines share. -/
namespace Sys2Proof.Machine

/-! ## Shared by the CDE, SFE and KSE -/

/-- Two on-module extents meet (R256). -/
def Core.overlaps (c : Core) (w : Nat) (a : Word) (n : Nat) (b : Word) (m : Nat) : Bool :=
  let rows (x : Word) (k : Nat) : List Nat := (List.range (ceilDiv k 8)).map fun r => c.omRow w (c.weave w).place x r
  (rows a n).any (rows b m).contains
/-- A destination may not overlap a source. -/
def Core.apart (c : Core) (w : Nat) (a : Word) (n : Nat) (b : Word) (m : Nat) : Option Check :=
  if c.overlaps w a n b m then some (.job 2) else none
/-- An engine reads dense bytes of sides (R241, R257, R375) and writes others: it waits for a blackout of any (R344) and for rows
that have not arrived, and pauses for a flagged word; then f runs. -/
def Core.reading (c : Core) (e : EngId) (j : Job) (parts : List (Side × Nat × Nat)) (dsts : List Side) (f : Core → Core) : Core :=
  let rows := parts.flatMap fun (x, lo, n) => c.sideRows x lo (lo + n)
  match (parts.map (·.1) ++ dsts).findSome? c.sideClosed with
  | some t => c.heldTo e j.id t
  | none =>
  if rows.any fun r => !c.rowArrived r then c.heldTo e j.id (c.now + 1)
  else
    let (c, go) := c.jobRead e j rows
    if go then f c else c
def Core.putBytes (c : Core) (j : Job) (i lo : Nat) (bs : List Nat) : Core := c.sideWrite j.weave (j.om i) lo bs (some j.id)
def Core.nextStep (c : Core) (e : EngId) (j : Job) : Core := c.modJob e j.id fun x => { x with done := x.done + 1 }

/-! ## Checks at issue (R269 to R274) -/

/-- Block size, compressed block size. -/
def geoB (g : Word) : Nat := 512 * 2 ^ bits g.toNat 18 16
def geoP (g : Word) : Nat := bits g.toNat 15 0
def geoOk (g : Word) (padded : Bool) : Bool :=
  let b := geoB g
  g.toNat < 2 ^ 19 && bits g.toNat 18 16 < 4 &&
  (if padded then geoP g % 8 == 0 && 8 + b / 64 ≤ geoP g && geoP g ≤ 8 + b / 64 + b else geoP g == 0)
def blkOk (x : Word) : Bool := 1 ≤ x.toNat && x.toNat ≤ 65536
/-- `cd.cmp`, `cd.exp`, `cd.hash`: CTL, SRC, DST, NBLK, GEO; sizes of a source and of a destination block. -/
def checkCd (padded : Bool) (sz : Word → Nat × Nat) (c : Core) (w : Nat) (a : List Word) : Check :=
  let x (i : Nat) : Word := a.getD i 0
  let n := (x 3).toNat
  let (s, d) := sz (x 4)
  firstFault [argFault (ctlOk (x 0) false false && omFields (x 1) && omFields (x 2) && blkOk (x 3) && geoOk (x 4) padded),
    c.omReach w (x 1) (n * s), c.omReach w (x 2) (n * d), c.apart w (x 2) (n * d) (x 1) (n * s)]
    (.ok Captured.none (ringsOf (x 0)) none)
def checkCdCmp : Core → Nat → List Word → Check := checkCd true fun g => (geoB g, geoP g)
def checkCdExp : Core → Nat → List Word → Check := checkCd true fun g => (geoP g, geoB g)
def checkCdHash : Core → Nat → List Word → Check := checkCd false fun g => (geoB g, 8)
/-- `cd.delta`: CTL, SRC, HREF, DST, NBLK, GEO. -/
def checkCdDelta (upd : Bool) (c : Core) (w : Nat) (a : List Word) : Check :=
  let x (i : Nat) : Word := a.getD i 0
  let n := (x 4).toNat
  let b := geoB (x 5)
  let out := n * (b + 8) + 8
  firstFault [argFault (ctlOk (x 0) false false && omFields (x 1) && omFields (x 2) && omFields (x 3) && blkOk (x 4) && geoOk (x 5) false),
    c.omReach w (x 1) (n * b), c.omReach w (x 2) (8 * n), c.omReach w (x 3) out, c.apart w (x 3) out (x 1) (n * b),
    c.apart w (x 3) out (x 2) (8 * n), if upd then c.apart w (x 2) (8 * n) (x 1) (n * b) else none]
    (.ok Captured.none (ringsOf (x 0)) none)

/-- `cd.cmp` (R272). -/
def execCdCmp (p : Sys2Proof.Port) (s : State) : Out := .next (s.launchWord p.toNat 0x00 0 5 checkCdCmp)
/-- `cd.exp` (R272). -/
def execCdExp (p : Sys2Proof.Port) (s : State) : Out := .next (s.launchWord p.toNat 0x01 0 5 checkCdExp)
/-- `cd.hash` (R273). -/
def execCdHash (p : Sys2Proof.Port) (s : State) : Out := .next (s.launchWord p.toNat 0x02 0 5 checkCdHash)
/-- `cd.delta` (R274). -/
def execCdDelta (p : Sys2Proof.Port) (upd : Bool) (s : State) : Out :=
  .next (s.launchWord p.toNat 0x03 (bnat upd) 6 (checkCdDelta upd))
/-- Arguments of a CDE word. -/
def cdArgs (op : Nat) : Nat := if op = 3 then 6 else 5
/-- The checks of a CDE word, for the later launches of a repeat (R87). -/
def cdCheck (op md : Nat) : Core → Nat → List Word → Check :=
  match op with
  | 0 => checkCdCmp
  | 1 => checkCdExp
  | 2 => checkCdHash
  | _ => checkCdDelta (bitAt md 0)

/-! ## Blocks (R271 to R273) -/

/-- The 8-byte words of bytes. -/
def wordsOf (bs : List Nat) : List Nat := (List.range (bs.length / 8)).map fun i => bytesNat ((bs.drop (8 * i)).take 8)
/-- The compressed form of a block, without padding. -/
def compressBlock (bs : List Nat) : List Nat :=
  let ws := wordsOf bs
  let nz := ws.filter (· != 0)
  let mask := (List.range (ws.length / 8)).map fun i =>
    (List.range 8).foldl (fun acc k => acc + (if ws.getD (8 * i + k) 0 = 0 then 0 else 2 ^ k)) 0
  natBytes 8 (nz.length + bs.length / 8 * 2 ^ 16) ++ mask ++ nz.flatMap (natBytes 8)
/-- Words of a block from its mask bits and its non-zero words. -/
def expandWords : List Bool → List Nat → List Nat
  | [], _ => []
  | false :: ms, ws => 0 :: expandWords ms ws
  | true :: ms, ws => ws.headD 0 :: expandWords ms (ws.drop 1)
/-- The encoded length of a compressed block, from its header and mask. -/
def expandedLen (b : Nat) (bs : List Nat) : Nat :=
  8 + b / 64 + 8 * ((List.range (b / 8)).filter fun i => bitAt (bs.getD (8 + i / 8) 0) (i % 8)).length
/-- A compressed block of P bytes expanded to B bytes; none where R272 drops the job. -/
def expandBlock (b p : Nat) (bs : List Nat) : Option (List Nat) :=
  let hd := bytesNat (bs.take 8)
  let mask := (List.range (b / 8)).map fun i => bitAt (bs.getD (8 + i / 8) 0) (i % 8)
  let n := (mask.filter id).length
  if bits hd 31 16 ≠ b / 8 ∨ bits hd 15 0 ≠ n ∨ bits hd 63 32 ≠ 0 ∨ p < 8 + b / 64 + 8 * n then none
  else some ((expandWords mask (wordsOf (bs.drop (8 + b / 64)))).flatMap (natBytes 8))

/-! ## Jobs -/

/-- One block of `cd.cmp`, `cd.exp` or `cd.hash`; `per` are the engine cycles of a block. -/
def Core.cdBlock (c : Core) (e : EngId) (j : Job) : Core :=
  let n := (j.arg 3).toNat
  let b := geoB (j.arg 4)
  let p := geoP (j.arg 4)
  let k := j.done
  let per := if j.op = 2 then ceilDiv b 256 else ceilDiv (max b p) 256
  let (s, d) := match j.op with
    | 0 => (b, p) | 1 => (p, b) | _ => (b, 8)
  let read (f : Core → Core) : Core :=
    if j.op ≠ 1 then c.reading e j [(j.om 1, k * s, s)] [j.om 2] f
    else c.reading e j [(j.om 1, k * p, 8 + b / 64)] [j.om 2] fun c =>
      -- the padding is not read (R272)
      let n := expandedLen b (c.sideBytes (j.om 1) (k * p) (8 + b / 64))
      if p < n then f c else c.reading e j [(j.om 1, k * p + 8 + b / 64, n - (8 + b / 64))] [] f
  read fun c =>
    let bs := c.sideBytes (j.om 1) (k * s) s
    let out : Option (List Nat) := match j.op with
      | 0 =>
        let z := compressBlock bs
        if p < z.length then none else some (z ++ List.replicate (p - z.length) 0)
      | 1 => expandBlock b p bs
      | _ => some (natBytes 8 (crc64 bs))
    match out with
    | none => c.dropJob e j.id
    | some o =>
      let c := (c.putBytes j 2 (k * d) o).nextStep e j
      if n ≤ k + 1 then c.finishIn e j.id 1 else c.stepIn e j.id per
/-- A step of `cd.delta` (R274): `done` is 2b while block b is hashed, 2b + 1 while it is emitted, 2 NBLK at the end. -/
def Core.cdDelta (c : Core) (e : EngId) (j : Job) : Core :=
  let n := (j.arg 4).toNat
  let b := geoB (j.arg 5)
  let k := j.done / 2
  let after (c : Core) (done aux : Nat) : Core :=
    let c := c.modJob e j.id fun x => { x with done := done, aux := aux }
    c.stepIn e j.id (if done = 2 * n then 1 else ceilDiv b 256)
  if j.done = 2 * n then
    c.reading e j [] [j.om 3] fun c =>
      (c.putBytes j 3 (j.aux * (b + 8)) (natBytes 8 (0xFFFFFFFF + j.aux * 2 ^ 32))).finishIn e j.id 1
  else c.reading e j [(j.om 1, k * b, b), (j.om 2, 8 * k, 8)] [j.om 3] fun c =>
    let bs := c.sideBytes (j.om 1) (k * b) b
    let h := natBytes 8 (crc64 bs)
    if j.done % 2 = 0 then
      if c.sideBytes (j.om 2) (8 * k) 8 = h then after c (2 * k + 2) j.aux
      else (c.nextStep e j).stepIn e j.id (ceilDiv (b + 8) 256)
    else
      let c := c.putBytes j 3 (j.aux * (b + 8)) (natBytes 8 k ++ bs)
      after (if bitAt j.md 0 then c.putBytes j 2 (8 * k) h else c) (2 * k + 2) (j.aux + 1)
/-- A step of a CDE job (R269). -/
def Core.cdStep (c : Core) (e : EngId) (j : Job) : Core :=
  if c.starting j then
    let b := geoB (j.arg (if j.op = 3 then 5 else 4))
    let per := if j.op < 2 then ceilDiv (max b (geoP (j.arg 4))) 256 else ceilDiv b 256
    let (t, c) := c.pairLate e (if j.op = 3 then [j.arg 1, j.arg 2, j.arg 3] else [j.arg 1, j.arg 2])
    c.stepIn e j.id (15 + per + t)
  else if j.op = 3 then c.cdDelta e j
  else c.cdBlock e j

end Sys2Proof.Machine
end

