-- ==== Sys2Proof/Machine/Func.lean ====
section
/-! DEFINITION. The special-function engine (R275 to R279). -/
namespace Sys2Proof.Machine

/-! ## Checks at issue -/

/-- SHAPE (R276): rows and elements of a row. -/
def shapeRows (x : Word) : Nat := bits x.toNat 31 16 + 1
def shapeN (x : Word) : Nat := bits x.toNat 15 0 + 1
/-- CTL, SRC, DST, SHAPE, and what `sf.nrm` adds. -/
def checkSf (op md : Nat) (c : Core) (w : Nat) (a : List Word) : Check :=
  let x (i : Nat) : Word := a.getD i 0
  let d := (c.weave w).descriptor (md % 8)
  let lf := fdLF d
  let n := shapeRows (x 3) * shapeN (x 3) * codeWidth lf / 8
  let nrm := op == 2
  let aff := nrm && bitAt md 4
  let prm := 8 * shapeN (x 3)
  let eps := (x 5).toNat
  let epsOk := eps == 0 || (eps < 2 ^ 31 && eps / 2 ^ 23 < 255)
  firstFault [if fdValid d && (lf == 1 || lf == 2 || lf == 3) then none else some (.job 6),
    argFault (ctlOk (x 0) false false && omFields (x 1) && omFields (x 2) && (x 3).toNat < 2 ^ 32 &&
      (!nrm || (epsOk && (if aff then omFields (x 4) else x 4 == 0)))),
    c.omReach w (x 1) n, c.omReach w (x 2) n, if aff then c.omReach w (x 4) prm else none,
    if x 1 = x 2 then none else c.apart w (x 2) n (x 1) n, if aff then c.apart w (x 2) n (x 4) prm else none]
    (.ok { Captured.none with fmts := [d] } (ringsOf (x 0)) none)

/-- `sf.exp` (R277). -/
def execSfExp (p : Sys2Proof.Port) (slot : BitVec 3) (s : State) : Out :=
  .next (s.launchWord p.toNat 0x00 slot.toNat 4 (checkSf 0 slot.toNat))
/-- `sf.smx` (R278). -/
def execSfSmx (p : Sys2Proof.Port) (slot : BitVec 3) (s : State) : Out :=
  .next (s.launchWord p.toNat 0x01 slot.toNat 4 (checkSf 1 slot.toNat))
/-- `sf.nrm` (R279). -/
def execSfNrm (p : Sys2Proof.Port) (slot : BitVec 3) (rms aff : Bool) (s : State) : Out :=
  let md := slot.toNat + 8 * bnat rms + 16 * bnat aff
  .next (s.launchWord p.toNat 0x02 md 6 (checkSf 2 md))
/-- `sf.rsq` (R277). -/
def execSfRsq (p : Sys2Proof.Port) (slot : BitVec 3) (s : State) : Out :=
  .next (s.launchWord p.toNat 0x03 slot.toNat 4 (checkSf 3 slot.toNat))
/-- `sf.gelu` (R277). -/
def execSfGelu (p : Sys2Proof.Port) (slot : BitVec 3) (s : State) : Out :=
  .next (s.launchWord p.toNat 0x04 slot.toNat 4 (checkSf 4 slot.toNat))
/-- Arguments of an SFE word. -/
def sfArgs (op : Nat) : Nat := if op = 2 then 6 else 4

/-! ## Functions (R277 to R279) -/

/-- e^x with its special inputs. -/
def expFp : Fp → Fp
  | .nan _ => .nan false
  | .inf n => if n then .zero false else .inf false
  | .num n m e _ => expNum n m e
/-- x Φ(x) with its special inputs. -/
def geluFp : Fp → Fp
  | .nan _ => .nan false
  | .inf n => if n then .zero true else .inf false
  | .num n m e s => if m = 0 then .num n m e s else geluNum n m e
/-- f of R277. -/
def sfFn (op : Nat) (x : Fp) : Fp :=
  match op with
  | 0 => expFp x
  | 3 => (rsqFp x).1
  | _ => geluFp x
/-- A value rounded to FP32 under RNE. -/
def f32 (x : Fp) : Fp := decodeFp fp32 (roundTo fp32 rne x).1
def negFp (x : Fp) : Fp := x.negate
def subFp (x y : Fp) : Fp := (addFp 0 x (negFp y)).1
/-- A row's softmax before the final rounding; none where every result is the default NaN (R278). -/
def softmax (xs : List Fp) : Option (List Fp) :=
  if xs.any (fun x => x.isNan || (x.isInf && !x.neg?)) || xs.all (fun x => x.isInf && x.neg?) then none
  else
    let m := xs.foldl (fun acc x => if ltFp acc x then x else acc) (xs.headD (.zero false))
    let es := xs.map fun x => f32 (expFp (f32 (subFp x m)))
    let s := (es.drop 1).foldl (fun acc x => f32 (addFp 0 acc x).1) (es.headD (.zero false))
    some (es.map fun x => divFp x s)
/-- A row's normalisation before the final rounding (R279); `aff` are γ and β. -/
def normalise (rms : Bool) (eps : Fp) (aff : Option (List Fp × List Fp)) (xs : List Fp) : Option (List Fp) :=
  if xs.any fun x => x.isNan || x.isInf then none
  else
    let n := Fp.ofInt xs.length
    let ds := if rms then xs
      else
        let s := (xs.drop 1).foldl (fun acc x => f32 (addFp 0 acc x).1) (xs.headD (.zero false))
        let mu := f32 (divFp s n)
        xs.map fun x => f32 (subFp x mu)
    let v := ds.foldl (fun acc d => f32 (fmaFp 0 d d acc).1) (.zero false)
    let r := f32 (rsqFp (f32 (addFp 0 (f32 (divFp v n)) eps).1)).1
    let ts := ds.map fun d => f32 (mulFp d r).1
    some (match aff with
      | none => ts
      | some (ga, be) => (ts.zip (ga.zip be)).map fun (t, g, b) => f32 (fmaFp 0 t g b).1)

/-! ## Jobs -/

def Job.sfSpec (j : Job) : FSpec := (specOfCode (fdLF (j.cap.fmts.getD 0 0))).getD fp32
/-- Elements [lo, lo + n) of a side in a format. -/
def Core.sfElems (c : Core) (x : Side) (sp : FSpec) (lo n : Nat) : List Fp :=
  (List.range n).map fun i => decodeFp sp (bytesNat (c.sideBytes x ((lo + i) * (sp.w / 8)) (sp.w / 8)))
/-- Write results rounded to LF from element lo. -/
def Core.sfPut (c : Core) (j : Job) (lo : Nat) (ys : List Fp) : Core :=
  let sp := j.sfSpec
  c.putBytes j 2 (lo * (sp.w / 8)) (ys.flatMap fun y => natBytes (sp.w / 8) (roundTo sp (fdEngineRnd (j.cap.fmts.getD 0 0)) y).1)
/-- Engine cycles of a row of `sf.smx` and `sf.nrm` (R275). -/
def Job.sfRow (j : Job) : Nat :=
  let k := ceilDiv (shapeN (j.arg 3)) 32
  (if j.op = 2 then 3 - bnat (bitAt j.md 3) else 3) * k + 8
/-- 32 elements of an elementwise word. -/
def Core.sfShare (c : Core) (e : EngId) (j : Job) : Core :=
  let total := shapeRows (j.arg 3) * shapeN (j.arg 3)
  let sp := j.sfSpec
  let lo := 32 * j.done
  let n := min 32 (total - lo)
  c.reading e j [(j.om 1, lo * (sp.w / 8), n * (sp.w / 8))] [j.om 2] fun c =>
    let c := (c.sfPut j lo ((c.sfElems (j.om 1) sp lo n).map (sfFn j.op))).nextStep e j
    if total ≤ lo + n then c.finishIn e j.id 1 else c.stepIn e j.id 1
/-- A row of `sf.smx` or `sf.nrm`. -/
def Core.sfRowStep (c : Core) (e : EngId) (j : Job) : Core :=
  let n := shapeN (j.arg 3)
  let sp := j.sfSpec
  let lo := n * j.done
  let aff := j.op == 2 && bitAt j.md 4
  c.reading e j ((j.om 1, lo * (sp.w / 8), n * (sp.w / 8)) :: if aff then [(j.om 4, 0, 8 * n)] else []) [j.om 2] fun c =>
    let xs := c.sfElems (j.om 1) sp lo n
    let ys := if j.op = 1 then softmax xs
      else normalise (bitAt j.md 3) (decodeFp fp32 (j.arg 5).toNat)
        (if aff then some (c.sfElems (j.om 4) fp32 0 n, c.sfElems (j.om 4) fp32 n n) else none) xs
    let c := (c.sfPut j lo (ys.getD (xs.map fun _ => .nan false))).nextStep e j
    if shapeRows (j.arg 3) ≤ j.done + 1 then c.finishIn e j.id 1 else c.stepIn e j.id j.sfRow
/-- A step of an SFE job (R275). -/
def Core.sfStep (c : Core) (e : EngId) (j : Job) : Core :=
  if c.starting j then
    let (t, c) := c.pairLate e ([j.arg 1, j.arg 2] ++ if j.op = 2 then [j.arg 4] else [])
    c.stepIn e j.id (t + if j.op = 1 ∨ j.op = 2 then 23 + j.sfRow else 24)
  else if j.op = 1 ∨ j.op = 2 then c.sfRowStep e j
  else c.sfShare e j

end Sys2Proof.Machine
end

