-- ==== Sys2Proof/Machine/Select.lean ====
section
/-! DEFINITION. The select engine (R280 to R282). -/
namespace Sys2Proof.Machine

/-! ## Checks at issue -/

/-- `ks.topk`: CTL, SRC, DST, IDXD, SHAPE, K. -/
def checkKsTopk (md : Nat) (c : Core) (w : Nat) (a : List Word) : Check :=
  let x (i : Nat) : Word := a.getD i 0
  let d := (c.weave w).descriptor (md % 8)
  let wd := codeWidth (fdLF d)
  let r := shapeRows (x 4)
  let n := shapeN (x 4)
  let k := (x 5).toNat
  firstFault [if fdValid d && fdLF d ≤ 8 then none else some (.job 6),
    argFault (ctlOk (x 0) false false && omFields (x 1) && omFields (x 2) && omFields (x 3) && (x 4).toNat < 2 ^ 32 && 1 ≤ k &&
      k ≤ min n 1024),
    c.omReach w (x 1) (r * n * wd / 8), c.omReach w (x 2) (r * k * wd / 8), c.omReach w (x 3) (4 * r * k),
    c.apart w (x 2) (r * k * wd / 8) (x 1) (r * n * wd / 8), c.apart w (x 3) (4 * r * k) (x 1) (r * n * wd / 8)]
    (.ok { Captured.none with fmts := [d] } (ringsOf (x 0)) none)
/-- `ks.sort`: CTL, SRC, DST, IDXD, N. -/
def checkKsSort (md : Nat) (c : Core) (w : Nat) (a : List Word) : Check :=
  let x (i : Nat) : Word := a.getD i 0
  let d := (c.weave w).descriptor (md % 8)
  let b := (x 4).toNat * codeWidth (fdLF d) / 8
  let noidx := bitAt md 4
  firstFault [if fdValid d && fdLF d ≤ 8 then none else some (.job 6),
    argFault (ctlOk (x 0) false false && omFields (x 1) && omFields (x 2) && (if noidx then x 3 == 0 else omFields (x 3)) &&
      1 ≤ (x 4).toNat && (x 4).toNat ≤ 262144),
    c.omReach w (x 1) b, c.omReach w (x 2) b, if noidx then none else c.omReach w (x 3) (4 * (x 4).toNat), c.apart w (x 2) b (x 1) b,
    if noidx then none else c.apart w (x 3) (4 * (x 4).toNat) (x 1) b]
    (.ok { Captured.none with fmts := [d] } (ringsOf (x 0)) none)

/-- `ks.topk` (R282). -/
def execKsTopk (p : Sys2Proof.Port) (slot : BitVec 3) (min : Bool) (s : State) : Out :=
  let md := slot.toNat + 8 * bnat min
  .next (s.launchWord p.toNat 0x00 md 6 (checkKsTopk md))
/-- `ks.sort` (R282). -/
def execKsSort (p : Sys2Proof.Port) (slot : BitVec 3) (desc noidx : Bool) (s : State) : Out :=
  let md := slot.toNat + 8 * bnat desc + 16 * bnat noidx
  .next (s.launchWord p.toNat 0x01 md 5 (checkKsSort md))
/-- Arguments of a KSE word. -/
def ksArgs (op : Nat) : Nat := if op = 0 then 6 else 5
/-- The checks of a KSE word, for the later launches of a repeat (R87). -/
def ksCheck (op md : Nat) : Core → Nat → List Word → Check := if op = 0 then checkKsTopk md else checkKsSort md

/-! ## Keys (R281) -/

/-- The key of an element's bits. -/
def sortKey (lf x : Nat) : Nat :=
  let w := codeWidth lf
  match specOfCode lf with
  | none => if bitAt x (w - 1) then x - 2 ^ (w - 1) else x + 2 ^ (w - 1)
  | some sp =>
    if (decodeFp sp x).isNan then 2 ^ w - 1
    else if bitAt x (w - 1) then 2 ^ w - 1 - x
    else x + 2 ^ (w - 1)
/-- Insert a (key, index, bits) behind everything that does not come after it. -/
def insertKey (desc : Bool) (x : Nat × Nat × Nat) : List (Nat × Nat × Nat) → List (Nat × Nat × Nat)
  | [] => [x]
  | y :: ys => if (if desc then y.1 < x.1 else x.1 < y.1) then x :: y :: ys else y :: insertKey desc x ys
/-- Stable order of elements, in either direction. -/
def sortKeys (desc : Bool) (lf : Nat) (xs : List Nat) : List (Nat × Nat × Nat) :=
  (xs.zip (List.range xs.length)).foldl (fun acc (x, i) => insertKey desc (sortKey lf x, i, x) acc) []

/-! ## Jobs -/

def Core.ksElems (c : Core) (x : Side) (lf lo n : Nat) : List Nat :=
  let b := codeWidth lf / 8
  (List.range n).map fun i => bytesNat (c.sideBytes x ((lo + i) * b) b)
def Core.ksPut (c : Core) (j : Job) (lf lo : Nat) (idx : Bool) (xs : List (Nat × Nat × Nat)) : Core :=
  let b := codeWidth lf / 8
  let c := c.putBytes j 2 (lo * b) (xs.flatMap fun x => natBytes b x.2.2)
  if idx then c.putBytes j 3 (4 * lo) (xs.flatMap fun x => natBytes 4 x.2.1) else c
/-- A step of a KSE job (R280): a row of `ks.topk`, or the whole `ks.sort`. -/
def Core.ksStep (c : Core) (e : EngId) (j : Job) : Core :=
  let lf := fdLF (j.cap.fmts.getD 0 0)
  let b := codeWidth lf / 8
  let start (n : Nat) : Core :=
    let (t, c) := c.pairLate e [j.arg 1, j.arg 2, j.arg 3]
    c.stepIn e j.id (n + t)
  if j.op = 0 then
    let n := shapeN (j.arg 4)
    let k := (j.arg 5).toNat
    let per := ceilDiv n 16 + ceilDiv k 16 + 8
    if c.starting j then start (31 + per)
    else c.reading e j [(j.om 1, j.done * n * b, n * b)] [j.om 2, j.om 3] fun c =>
      let xs := sortKeys (!bitAt j.md 3) lf (c.ksElems (j.om 1) lf (j.done * n) n)
      let c := (c.ksPut j lf (j.done * k) true (xs.take k)).nextStep e j
      if shapeRows (j.arg 4) ≤ j.done + 1 then c.finishIn e j.id 1 else c.stepIn e j.id per
  else
    let n := (j.arg 4).toNat
    if c.starting j then start (31 + 2 * b * ceilDiv n 16)
    else c.reading e j [(j.om 1, 0, n * b)] (if bitAt j.md 4 then [j.om 2] else [j.om 2, j.om 3]) fun c =>
      (c.ksPut j lf 0 (!bitAt j.md 4) (sortKeys (bitAt j.md 3) lf (c.ksElems (j.om 1) lf 0 n))).finishIn e j.id 1

end Sys2Proof.Machine
end

