-- ==== Sys2Proof/Machine/Txs.lean ====
section
/-! DEFINITION. The transform sequencer (R283 to R291): its words, and its own instructions. -/
namespace Sys2Proof.Machine

/-! ## Words (R283, R284) -/

/-- `tx.load`: CTL, SRC, PC0, N. -/
def checkTxLoad (c : Core) (w : Nat) (a : List Word) : Check :=
  let x (i : Nat) : Word := a.getD i 0
  let n := (x 3).toNat
  firstFault [argFault (ctlOk (x 0) false false && omFields (x 1) && 1 ≤ n && n ≤ 4096 && (x 2).toNat + n ≤ 4096), c.omReach w (x 1) (4 * n)]
    (.ok Captured.none (ringsOf (x 0)) none)
/-- `tx.go`: CTL, PC, PRM. -/
def checkTxGo (res : Bool) (c : Core) (w : Nat) (a : List Word) : Check :=
  let x (i : Nat) : Word := a.getD i 0
  let ok : Bool := if res then x 1 == 0 && omSp (x 2) == 1 && (x 2).toNat % 1024 == 0 else decide ((x 1).toNat < 4096)
  firstFault [argFault (ctlOk (x 0) false false && omFields (x 2) && ok), c.omReach w (x 2) (if res then 1024 else 256)]
    (.ok { Captured.none with fmts := (List.range 8).map (c.weave w).descriptor } (ringsOf (x 0)) none)
/-- `tx.stop`: DST; its wait semaphore is 256 (R284). -/
def checkTxStop (save : Bool) (wait : Nat) (c : Core) (w : Nat) (a : List Word) : Check :=
  let x := a.getD 0 0
  if save then
    firstFault [argFault (wait == 256 && omSp x == 1 && omFields x && x.toNat % 1024 == 0), c.omReach w x 1024] .plain
  else firstFault [argFault (wait == 256 && x == 0)] .plain
/-- `tx.load` (R283). -/
def execTxLoad (p : Sys2Proof.Port) (s : State) : Out := .next (s.launchWord p.toNat 0x00 0 4 checkTxLoad)
/-- `tx.go` (R283). -/
def execTxGo (p : Sys2Proof.Port) (res : Bool) (s : State) : Out := .next (s.launchWord p.toNat 0x01 (bnat res) 3 (checkTxGo res))
/-- `tx.stop` (R284). -/
def execTxStop (p : Sys2Proof.Port) (save : Bool) (s : State) : Out :=
  .next (s.launchWord p.toNat 0x02 (bnat save) 1 (checkTxStop save ((s.wv.port p.toNat).stack.getD 1 0).toNat))
/-- Arguments of a TXS word. -/
def txArgs (op : Nat) : Nat := [4, 3, 1].getD op 0
/-- The checks of a TXS word, for the later launches of a repeat (R87). -/
def txCheck (op md wait : Nat) : Core → Nat → List Word → Check :=
  match op with
  | 0 => checkTxLoad
  | 1 => checkTxGo (bitAt md 0)
  | _ => checkTxStop (bitAt md 0) wait

/-! ## State -/

def Core.txsOf (c : Core) (sec unit : Nat) : Txs := (c.sector sec).txs.getD unit Txs.reset
def Core.modTxs (c : Core) (sec unit : Nat) (f : Txs → Txs) : Core := c.modSec sec fun x => { x with txs := lmod x.txs unit f }
def txsEng (sec unit : Nat) : EngId := .pool sec 2 unit
/-- The running `tx.go` of a TXS. -/
def Core.goJob (c : Core) (sec unit : Nat) : Option Job := (c.jobsOf (txsEng sec unit)).find? fun j => j.op == 1 && j.started.isSome
/-- The save image (R291). -/
def Txs.image (t : Txs) : List Word :=
  let level (i : Nat) : Word :=
    match t.levels[i]? with
    | some l => word (l.start % 4096 + l.remaining % 2 ^ 26 * 2 ^ 12 + l.index % 2 ^ 26 * 2 ^ 38)
    | none => 0
  [word (t.pc % 4096 + t.levels.length * 2 ^ 12 + t.state * 2 ^ 16 + t.fault * 2 ^ 24)] ++ (List.range 6).map level ++ [0] ++
  (t.gens.flatMap fun g => [g.base] ++ g.strides ++ [g.pitch]) ++ t.words ++ List.replicate 24 0
/-- The state that an image holds. -/
def txsOfImage (ws : List Word) : Txs :=
  let x (i : Nat) : Word := ws.getD i 0
  let h := (x 0).toNat
  { pc := h % 4096
    levels := (List.range (min (bits h 14 12) 6)).map fun l =>
      let y := (x (1 + l)).toNat
      ⟨y % 4096, bits y 37 12, bits y 63 38⟩
    gens := (List.range 8).map fun g =>
      let i := 8 + 8 * g
      ⟨x i, (List.range 6).map fun l => x (i + 1 + l), x (i + 7)⟩
    words := (List.range 32).map fun i => x (72 + i)
    state := 0
    fault := 0
    busyTo := 0 }
/-- The program stops with a fault (R291). -/
def Core.txsFault (c : Core) (sec unit code : Nat) : Core :=
  let c := c.modTxs sec unit fun t => { t with state := 2, fault := code }
  match c.goJob sec unit with
  | some j => c.dropJob (txsEng sec unit) j.id
  | none => c
/-- The next instruction begins after a number of engine cycles (R287). -/
def Core.txsThen (c : Core) (sec unit pc n : Nat) : Core :=
  let t := c.now + n * c.divOf (txsEng sec unit)
  (c.modTxs sec unit fun x => { x with pc := pc, busyTo := t }).sched t bEngine (36 + unit) (.txs sec unit)
/-- An instruction steps to the next one; at 4,095 it faults before its effect. -/
def Core.txsStep (c : Core) (sec unit n : Nat) (f : Core → Core) : Core :=
  let pc := (c.txsOf sec unit).pc
  if 4095 ≤ pc then c.txsFault sec unit 1 else (f c).txsThen sec unit (pc + 1) n

/-! ## Instructions (R285 to R290) -/

/-- What a TXS instruction does for the running `tx.go`; without one it does nothing. -/
def State.txs (s : State) (f : Core → Nat → Nat → Txs → Job → Core) : Out :=
  .next (s.modC fun c =>
    let (sec, unit) := c.curTxs
    match c.goJob sec unit with
    | some j => f c sec unit (c.txsOf sec unit) j
    | none => c)
/-- `tnop` (R285). -/
def execTnop (s : State) : Out := s.txs fun c sec unit _ _ => c.txsStep sec unit 1 id
/-- `tloop` (R288). -/
def Core.tloop (c : Core) (sec unit : Nat) (t : Txs) (count : Nat) : Core :=
  if count = 0 ∨ 2 ^ 26 ≤ count ∨ 6 ≤ t.levels.length then c.txsFault sec unit 3
  else c.txsStep sec unit 1 fun c => c.modTxs sec unit fun t => { t with levels := t.levels ++ [⟨t.pc + 1, count, 0⟩] }
def execTloopCount (n : BitVec 26) (s : State) : Out := s.txs fun c sec unit t _ => c.tloop sec unit t n.toNat
def execTloopWord (w : BitVec 5) (s : State) : Out :=
  s.txs fun c sec unit t _ => c.tloop sec unit t ((t.words.getD w.toNat 0).toNat % 2 ^ 32)
/-- `tend` (R288). -/
def execTend (s : State) : Out :=
  s.txs fun c sec unit t _ =>
    match t.levels.getLast? with
    | none => c.txsFault sec unit 3
    | some l =>
      if l.remaining ≤ 1 then c.txsStep sec unit 1 fun c => c.modTxs sec unit fun t => { t with levels := t.levels.dropLast }
      else (c.modTxs sec unit fun t => { t with
        levels := t.levels.dropLast ++ [{ l with remaining := l.remaining - 1, index := l.index + 1 }] }).txsThen sec unit l.start 1
/-- A field of a generator is written (R286). -/
def Agen.put (g : Agen) (f : Nat) (x : Word) : Agen :=
  if f = 0 then { g with base := x } else if f = 7 then { g with pitch := x } else { g with strides := g.strides.set (f - 1) x }
def Core.agen (c : Core) (sec unit g f : Nat) (x : Word) : Core :=
  c.txsStep sec unit 1 fun c => c.modTxs sec unit fun t => { t with gens := lmod t.gens g fun y => y.put f x }
def execAgenImm (g f : BitVec 3) (i : BitVec 20) (s : State) : Out :=
  s.txs fun c sec unit _ _ => if f = 0 then c.txsFault sec unit 1 else c.agen sec unit g.toNat f.toNat (i.signExtend 64)
def execAgenWord (g f : BitVec 3) (w : BitVec 5) (s : State) : Out :=
  s.txs fun c sec unit t _ => c.agen sec unit g.toNat f.toNat (t.words.getD w.toNat 0)
/-- The address of a generator, SP and L (R286). -/
def Txs.addr (t : Txs) (g : Nat) : Nat × Int :=
  let y := t.gens.getD g Agen.reset
  (bits y.base.toNat 31 30, (y.strides.zip t.levels).foldl (fun (acc : Int) (x, l) => acc + x.toInt * (l.index : Int)) (bits y.base.toNat 22 0 : Nat))
/-- The base is well formed (R286). -/
def Txs.baseOk (t : Txs) (g : Nat) : Bool :=
  let b := (t.gens.getD g Agen.reset).base.toNat
  b < 2 ^ 32 && bits b 29 23 == 0 && bits b 31 30 != 3
/-- An access of an extent is valid (R286). -/
def Core.txsReach (c : Core) (w sp : Nat) (l : Int) (n : Nat) : Bool :=
  0 ≤ l && l % 8 == 0 && l + n ≤ (if sp = 0 then 2 ^ 23 else 2 ^ 22 : Nat) &&
  (if sp = 0 then true else (c.omReach w (word (sp * 2 ^ 30 + l.toNat)) n).isNone)
/-- Rows of an extent as sides of 8 bytes. -/
def Core.txsSides (j : Job) (sp l n : Nat) : List Side :=
  (List.range (ceilDiv n 8)).map fun r => .om j.weave j.cap.place (word (sp * 2 ^ 30 + l + 8 * r))
def Core.txsBytes (c : Core) (j : Job) (sp l n : Nat) : List Nat := ((Core.txsSides j sp l n).flatMap fun x => c.sideBytes x 0 8).take n
def Core.txsWrite (c : Core) (j : Job) (sp l : Nat) (bs : List Nat) : Core :=
  ((Core.txsSides j sp l bs.length).zip (chunks 8 (ceilDiv bs.length 8) bs)).foldl (fun c (x, b) => c.sideWrite j.weave x 0 b (some j.id)) c
/-- A data instruction: its accesses (SP, L, extent) are valid or it faults, its sources wait for arrival, blackouts and
verdicts, then it takes effect and the next one begins. -/
def Core.txsData (c : Core) (sec unit n : Nat) (j : Job) (srcs dsts : List (Nat × Int × Nat)) (f : Core → Core) : Core :=
  let e := txsEng sec unit
  if (srcs ++ dsts).any fun (sp, l, x) => !c.txsReach j.weave sp l x then c.txsFault sec unit 2
  else
    let sides := srcs.flatMap fun (sp, l, x) => Core.txsSides j sp l.toNat x
    let all := sides ++ dsts.flatMap fun (sp, l, x) => Core.txsSides j sp l.toNat x
    match all.findSome? c.sideClosed with
    | some t => c.heldTo e j.id t
    | none =>
      let rows := sides.flatMap fun x => c.sideRows x 0 8
      if rows.any fun r => !c.rowArrived r then c.heldTo e j.id (c.now + 1)
      else
        let (c, go) := c.jobRead e j rows
        if !go then c
        else
          let (t, c) := c.crossTime sec ((srcs ++ dsts).any fun x => x.1 == 2)
          c.txsStep sec unit (n + t) f
/-- `mov` (R289). -/
def Core.txsMov (c : Core) (sec unit : Nat) (t : Txs) (j : Job) (d g n : Nat) : Core :=
  let (sp, l) := t.addr g
  let (sp', l') := t.addr d
  if n = 0 ∨ n % 8 ≠ 0 ∨ !t.baseOk g ∨ !t.baseOk d then c.txsFault sec unit 2
  else c.txsData sec unit (8 + ceilDiv n 256) j [(sp, l, n)] [(sp', l', n)] fun c => c.txsWrite j sp' l'.toNat (c.txsBytes j sp l.toNat n)
def execMovLen (d g : BitVec 3) (n : BitVec 20) (s : State) : Out := s.txs fun c sec unit t j => c.txsMov sec unit t j d.toNat g.toNat n.toNat
def execMovWord (d g : BitVec 3) (w : BitVec 5) (s : State) : Out :=
  s.txs fun c sec unit t j => c.txsMov sec unit t j d.toNat g.toNat (t.words.getD w.toNat 0).toNat
/-- `movt` (R289): an 8 × 8 block of elements of z bytes. -/
def execMovt (d g : BitVec 3) (z : BitVec 2) (s : State) : Out :=
  s.txs fun c sec unit t j =>
    let n := 2 ^ z.toNat
    let (sp, l) := t.addr g.toNat
    let (sp', l') := t.addr d.toNat
    let ps := (t.gens.getD g.toNat Agen.reset).pitch.toInt
    let pd := (t.gens.getD d.toNat Agen.reset).pitch.toInt
    if !t.baseOk g.toNat ∨ !t.baseOk d.toNat then c.txsFault sec unit 2
    else
      let rows (sp : Nat) (l p : Int) : List (Nat × Int × Nat) := (List.range 8).map fun (i : Nat) => (sp, l + i * p, 8 * n)
      c.txsData sec unit 10 j (rows sp l ps) (rows sp' l' pd) fun c =>
        let src := (List.range 8).map fun (i : Nat) => c.txsBytes j sp (l + i * ps).toNat (8 * n)
        (List.range 8).foldl (fun c (k : Nat) =>
          c.txsWrite j sp' (l' + k * pd).toNat (src.flatMap fun r => (r.drop (k * n)).take n)) c
/-- `movc` (R289): groups of 16 elements between the scalar formats of a slot. -/
def Core.txsMovc (c : Core) (sec unit : Nat) (t : Txs) (j : Job) (d g f n : Nat) (toLf : Bool) : Core :=
  let fd := j.cap.fmts.getD f 0
  let src := if toLf then fdSF fd else fdLF fd
  let dst := if toLf then fdLF fd else fdSF fd
  let (sp, l) := t.addr g
  let (sp', l') := t.addr d
  if n = 0 ∨ !t.baseOk g ∨ !t.baseOk d then c.txsFault sec unit 2
  else if !fdValid fd ∨ isBlock src ∨ isBlock dst then c.txsFault sec unit 4
  else
    let k := 16 * n
    let r := fdEngineRnd fd
    c.txsData sec unit (8 + ceilDiv k 32) j [(sp, l, 2 * n * codeWidth src)] [(sp', l', 2 * n * codeWidth dst)] fun c =>
      let bs := c.txsBytes j sp l.toNat (2 * n * codeWidth src)
      let es := (List.range k).map fun i =>
        let x := if codeWidth src = 4 then bs.getD (i / 2) 0 / 16 ^ (i % 2) % 16
          else bytesNat ((bs.drop (i * (codeWidth src / 8))).take (codeWidth src / 8))
        (cvtElem src dst r.mode r.sat false 0 x).1
      c.txsWrite j sp' l'.toNat (if codeWidth dst = 4 then strBytes 4 es else es.flatMap (natBytes (codeWidth dst / 8)))
def execMovcSl (d g f : BitVec 3) (n : BitVec 17) (s : State) : Out :=
  s.txs fun c sec unit t j => c.txsMovc sec unit t j d.toNat g.toNat f.toNat n.toNat true
def execMovcLs (d g f : BitVec 3) (n : BitVec 17) (s : State) : Out :=
  s.txs fun c sec unit t j => c.txsMovc sec unit t j d.toNat g.toNat f.toNat n.toNat false
/-- `pad` (R289). -/
def execPad (d : BitVec 3) (w : BitVec 5) (r : BitVec 19) (s : State) : Out :=
  s.txs fun c sec unit t j =>
    let (sp, l) := t.addr d.toNat
    let n := 8 * r.toNat
    if n = 0 ∨ !t.baseOk d.toNat then c.txsFault sec unit 2
    else c.txsData sec unit (2 + ceilDiv n 256) j [] [(sp, l, n)] fun c =>
      c.txsWrite j sp l.toNat ((List.range r.toNat).flatMap fun _ => natBytes 8 (t.words.getD w.toNat 0).toNat)
/-- `twait` (R290). -/
def execTwait (n : BitVec 8) (s : State) : Out :=
  s.txs fun c sec unit t _ =>
    if (c.sem sec n.toNat).ab then c.txsFault sec unit 5
    else if 4095 ≤ t.pc then c.txsFault sec unit 1
    else (c.addWaiter sec n.toNat (.txs sec unit c.now)).serviceSem sec n.toNat
/-- `tsig` (R290); of a cancelled phase's job it is suppressed (R327). -/
def execTsig (n : BitVec 8) (s : State) : Out :=
  s.txs fun c sec unit _ j => c.txsStep sec unit 1 fun c =>
    if j.suppress then c else c.sched (c.now + c.divOf (txsEng sec unit)) bEngine (36 + unit) (.txsSignal sec unit n.toNat)
/-- `tjmp` (R288). -/
def execTjmp (t : BitVec 12) (s : State) : Out := s.txs fun c sec unit _ _ => c.txsThen sec unit t.toNat 1
/-- `thalt` (R283). -/
def execThalt (s : State) : Out :=
  s.txs fun c sec unit _ j => (c.modTxs sec unit fun t => { t with state := 0, busyTo := c.now }).finishIn (txsEng sec unit) j.id 1

/-! ## Jobs -/

/-- A `tx.stop` stands at the head of the queue (R284). -/
def Core.stopNext (c : Core) (e : EngId) : Bool :=
  match (c.jobsOf e).head? with
  | some j => j.op == 2 && j.started.isNone && decide (j.entered ≤ c.now)
  | none => false
/-- Fetch and execute the instruction at PC (R285, R291, R375). A `tx.stop` takes its place once the instruction before it has
completed; one that waits for its operands is under way and goes on (R284). -/
noncomputable def Core.txsFetch (c : Core) (ex : Exec) (sec unit : Nat) : Out :=
  let back (c : Core) : Out := .next { core := c, base := none }
  match c.goJob sec unit with
  | none => back c
  | some j =>
    let e := txsEng sec unit
    let pc := (c.txsOf sec unit).pc
    if c.stopNext e && decide (c.now ≤ (c.txsOf sec unit).busyTo) then back (c.kick e)
    else
    let row := rowAddr (txsFlat sec unit pc)
    if c.poison.contains row then
      back ((c.consumeJob j 4 (unitCode (arrayOf row).2.2) row false).txsFault sec unit 6)
    else
      let (c, go) := c.jobRead e j [row]
      if !go then back c
      else match decodeTxs (memRead c.mem (txsFlat sec unit pc) 4) with
        | some i => ex i { core := { c with curTxs := (sec, unit) }, base := none }
        | none => back (c.txsFault sec unit 1)
/-- Start of `tx.go` (R283): parameter words, or an image. -/
def Core.txGo (c : Core) (sec unit : Nat) (j : Job) : Core :=
  let e := txsEng sec unit
  let res := bitAt j.md 0
  let n := if res then 1024 else 256
  c.reading e j [(j.om 2, 0, n)] [] fun c =>
    let ws := (wordsOf (c.sideBytes (j.om 2) 0 n)).map word
    let c := c.nextStep e j
    let c := c.modTxs sec unit fun _ =>
      if res then { txsOfImage ws with busyTo := c.now }
      else { Txs.reset with pc := (j.arg 1).toNat, words := ws, state := 0, busyTo := c.now }
    c.sched c.now bEngine (36 + unit) (.txs sec unit)
/-- A `tx.stop` ends the running `tx.go` (R284). -/
def Core.txStopGo (c : Core) (sec unit : Nat) : Core :=
  match c.goJob sec unit with
  | none => c
  | some j =>
    (c.modTxs sec unit fun t => { t with state := 1 }).dropJob (txsEng sec unit) j.id
/-- Instructions of a share of `tx.load`. A row of the instruction memory that the job has written whole is poisoned no more
(R328). -/
def Core.txLoadShare (c : Core) (sec unit : Nat) (j : Job) : Core :=
  let e := txsEng sec unit
  let n := (j.arg 3).toNat
  let lo := 64 * j.done
  let k := min 64 (n - lo)
  c.reading e j [(j.om 1, 4 * lo, ceilDiv (4 * k) 8 * 8)] [] fun c =>
    let c := (List.range k).foldl (fun c i =>
      let a := txsFlat sec unit ((j.arg 2).toNat + lo + i)
      let v := bytesNat (c.sideBytes (j.om 1) (4 * (lo + i)) 4)
      let sh := 2 ^ (8 * (a % 8))
      -- the row's other half is the instruction before, where that is the job's too
      if a % 8 = 4 ∧ 0 < lo + i then c.writeRow a (mergeBits (c.row a) (word (v * sh)) (word (0xFFFFFFFF * sh))) allOnes none
      else c.writeRow a (word (v * sh)) (word (0xFFFFFFFF * sh)) none) c
    let c := c.nextStep e j
    if n ≤ lo + k then c.finishIn e j.id 1 else c.stepIn e j.id 1
/-- A share of the image that `tx.stop` saves. -/
def Core.txSaveShare (c : Core) (sec unit : Nat) (j : Job) : Core :=
  let e := txsEng sec unit
  let bs := ((c.txsOf sec unit).image.flatMap fun (x : Word) => natBytes 8 x.toNat)
  let c := (c.putBytes j 0 (256 * j.done) ((bs.drop (256 * j.done)).take 256)).nextStep e j
  if 3 ≤ j.done then c.finishIn e j.id 1 else c.stepIn e j.id 1
/-- A step of a TXS job. -/
noncomputable def Core.txStep (c : Core) (ex : Exec) (e : EngId) (j : Job) : Out :=
  let back (c : Core) : Out := .next { core := c, base := none }
  match e with
  | .copy _ _ => back c
  | .pool sec _ unit =>
    match j.op with
    | 0 =>
      if c.starting j then
        let (t, c) := c.pairLate e [j.arg 1]
        back (c.stepIn e j.id (16 + t))
      else back (c.txLoadShare sec unit j)
    | 1 => if j.done = 0 then back (c.txGo sec unit j) else c.txsFetch ex sec unit
    | _ =>
      if c.starting j then
        let c := c.txStopGo sec unit
        back (if bitAt j.md 0 then c.stepIn e j.id 16 else c.finishIn e j.id 2)
      else back (c.txSaveShare sec unit j)

end Sys2Proof.Machine
end

