-- ==== Sys2Proof/Machine/Entry.lean ====
section
/-! DEFINITION. Entry of launch words into their queues (R230, R241, R252, R284, R342), the later launches of a repeat
(R87), and the steps of running jobs. -/
namespace Sys2Proof.Machine

/-- An `mx.sv` NOW or a `tx.stop` enters ahead of the queue (R252, R284). -/
def Job.bypasses (j : Job) : Bool := wordBypasses j.kind j.op j.md
/-- The rows whose arrived flags a job clears as it enters (R241); the engines of R257 clear none. -/
def Core.destRows (c : Core) (e : EngId) (j : Job) : List Nat :=
  if j.kind = 6 then c.copyRows j else if j.kind = 0 then c.mxRows e j else []
/-- `mx.sv` NOW (R252): a running `mx.mm` without an emission under way stops here; with one, after it. -/
def Core.enterNow (c : Core) (e : EngId) : Core :=
  match (c.jobsOf e).find? fun j => j.op == 3 && j.started.isSome with
  | some j => if (c.sector (engSector e)).mxa.record.isEmpty then c.stopMm e j else c
  | none => c.kick e
/-- LAUNCH_WORD_ENTRY (R230): the job captures its placement, clears the arrived flags of the rows that it will write, and
stands in its queue. An `mx.sv` NOW does not wait on its semaphore (R252; log 71). -/
def execLaunchWordEntry (w id : Nat) (s : State) : Out :=
  .next (s.modC fun c =>
    match c.queueOf w id with
    | none => c
    | some e =>
      let c := c.modJob e id fun x => { x with cap := { x.cap with place := (c.weave w).place }, entered := min x.entered c.now }
      match c.job? e id with
      | none => c
      | some j =>
        let rows := c.destRows e j
        let c := rows.foldl Core.clearArrived (c.modJob e id fun x => { x with rows := rows })
        if !j.bypasses then c.kick e
        else
          let c := c.setJobs e ({ j with rows := rows, served := true } :: (c.jobsOf e).filter fun x => x.id != id)
          if j.kind = 0 then c.enterNow e else c.kick e)

/-- The checks of a launch word by engine kind (R87). -/
def launchCheck (p kind op md wait : Nat) : Core → Nat → List Word → Check :=
  match kind with
  | 0 => mxCheck op md
  | 1 => gxCheck p op md
  | 2 => txCheck op md wait
  | 3 => cdCheck op md
  | 4 => checkSf op md
  | 5 => ksCheck op md
  | _ => copyCheck op
/-- The arguments of a repeat's next launch (R87). -/
def repArgs (mask : Nat) (steps args : List Word) : List Word :=
  (args.zip (List.range args.length)).map fun (x, i) => if bitAt mask i then x + steps.getD i 0 else x
/-- A draining instance without jobs ends its drain. -/
def Core.testDrain (c : Core) (e : EngId) : Core :=
  match e with
  | .pool s k i =>
    let x := c.eng s k i
    if x.draining.isSome ∧ x.jobs.isEmpty then c.sched c.now bAfter (engRank e) (.drainEnd s k i) else c
  | .copy _ _ => c
/-- REP_LAUNCH (R87, R230): the next launch of a repeat, which waits in the port while its queue is full and then enters when an entry
frees, the rest one cycle after the other. One whose strided arguments fail a check is dropped. In the cycle of the last launch the
repeat still runs; the next ends it (R88). -/
def execRepLaunch (w p : Nat) (s : State) : Out :=
  .next (s.modC fun c =>
    match ((c.weave w).port p).rep with
    | none => c
    | some r =>
      if r.left = 0 then ((c.modPort w p fun y => { y with rep := none }).testDrain r.eng).testLaunch (((c.weave w).launch).getD 0)
      else if queueRoom r.eng ≤ (c.jobsOf r.eng).length then c.sched (c.now + 1) bIssue w (.repLaunch w p)
      else
        let n := r.frame.length - 2
        let at_ := max c.now (r.virt + 8)
        let args := repArgs r.mask r.steps (r.frame.take n)
        let wait := (r.frame.getD n 256).toNat
        let sig := (r.frame.getD (n + 1) 256).toNat
        let op := r.word / 256
        let md := r.word % 256
        let c := match launchCheck p r.kind op md wait c w args with
          | .ok cap rings h =>
            -- the launch belongs to the phase in which the repeat was issued (R88)
            let c := c.walkAtUse w h
            (c.putJob w p r.eng r.kind op md args wait sig cap rings at_).modJob r.eng c.nextId fun j => { j with mark := r.id - 1 }
          | _ => c.abortSem (secOf w) sig
        let c := c.modPort w p fun y => { y with
          rep := some { r with left := r.left - 1, frame := args ++ [word wait, word sig], virt := at_ - 7 } }
        c.sched (c.now + 1) (if r.left ≤ 1 then bLand else bIssue) w (.repLaunch w p))

/-- A step of a running job, by the kind of its engine. -/
noncomputable def Core.jobStep (c : Core) (ex : Exec) (e : EngId) (id : Nat) : Out :=
  let back (c : Core) : Out := .next { core := c, base := none }
  match c.job? e id with
  | none => back c
  | some j =>
    match j.kind with
    | 0 => back (c.mxStep e j)
    | 1 => back (c.gxStep e j)
    | 2 => c.txStep ex e j
    | 3 => back (c.cdStep e j)
    | 4 => back (c.sfStep e j)
    | 5 => back (c.ksStep e j)
    | _ => back (c.copyStep e j)

end Sys2Proof.Machine
end

