-- ==== Sys2Proof/Machine/Towers.lean ====
section
/-! DEFINITION. Sparing, evacuation and spills of tower banks (R347 to R351, R356 to R358). -/
namespace Sys2Proof.Machine

/-! ## Moving a bank's rows -/

/-- The flat address that stands for an address of a range of a given length once the range has moved. -/
def moved (a b len x : Nat) : Nat := if a ≤ x ∧ x < a + len then b + (x - a) else x
/-- Move the content of a range: bytes, poison, arrived flags, and the destination rows of jobs. Its words are read, which flags those
with wrong parity, and written with fresh parity; HBM requests are decoded, and rows of one that is poisoned are poisoned (R379,
R380). -/
def Core.moveRange (c : Core) (a b len : Nat) : Core :=
  let f := moved a b len
  let c := (c.hbmFlips.filter fun p => a ≤ p.1 && p.1 < a + len).foldl (fun c p => c.decodeRequest 0 0 p.1 0) c
  let c := c.settleRows fun r => a ≤ r && r < a + len
  let lost := (c.hbmPoison.filter fun r => a ≤ r && r < a + len).flatMap fun r =>
    ((List.range 8).map (r + 8 * ·)).filter fun x => !c.poison.contains x && !(c.poisonOf x 8).isEmpty
  let away (x : Flip) : Bool := !(b ≤ x.row && x.row < b + len) && !(a ≤ x.row && x.row < a + len)
  let cells := c.mem.filter fun (x : Host.Cell) => a ≤ x.1 && x.1 < a + len
  let kept := c.mem.filter fun (x : Host.Cell) => !(b ≤ x.1 && x.1 < b + len)
  let flags := (c.sector (flagSector a)).unarrived.filter fun r => a ≤ r && r < a + len
  let jobs (js : List Job) : List Job := js.map fun (j : Job) => { j with rows := j.rows.map f }
  let c := { c with
    mem := cells.foldl (fun m (x : Host.Cell) => memSet m (f x.1) x.2) kept
    poison := (c.poison.filter fun r => !(b ≤ r && r < b + len)) ++ ((c.poison.filter fun r => a ≤ r && r < a + len) ++ lost).map f
    flips := c.flips.filter away
    parityFlips := c.parityFlips.filter away
    copies := c.copies.map fun ((k, q) : Nat × CopyQueue) => (k, { q with jobs := jobs q.jobs })
    sectors := c.sectors.map fun ((n, x) : Nat × Sector) =>
      (n, { x with engines := x.engines.map fun es => es.map fun e => { e with jobs := jobs e.jobs } }) }
  flags.foldl (fun c r => (c.setArrived r).clearArrived (f r)) (if b < hbmBytes then c.clearPoison b len else c)
/-- Flat address of sub-array i of a bank where it lies at home, in its tower. -/
def Core.bankPart (c : Core) (key bank i : Nat) : Nat := c.towerHome key (bank * 2 ^ 20 + i * 2 ^ 18)
/-- Move a bank from a tower's own sub-arrays to another's. -/
def Core.moveBank (c : Core) (k b k' b' : Nat) : Core :=
  (List.range 4).foldl (fun (m : Core) i => m.moveRange (c.bankPart k b i) (c.bankPart k' b' i) (2 ^ 18)) c
/-- Move a bank between a tower's sub-arrays and the spill area. -/
def Core.spillBank (c : Core) (k b h : Nat) (out : Bool) : Core :=
  (List.range 4).foldl (fun (m : Core) i =>
    if out then m.moveRange (c.bankPart k b i) (h + i * 2 ^ 18) (2 ^ 18) else m.moveRange (h + i * 2 ^ 18) (c.bankPart k b i) (2 ^ 18)) c

/-! ## Pairs -/

def busDefault : List Nat := List.range 16
def Core.busMap (c : Core) (pair : Nat) : List Nat := mget c.busMaps pair busDefault
/-- Buses that the pair's map still names (R349). -/
def Core.busesLeft (c : Core) (pair : Nat) : Nat := ((c.busMap pair).filter (· != 0x1F)).length
def pairOfKey (key : Nat) : Nat := key / 36 % 80
/-- Evacuated banks of a pair, with their towers. -/
def Core.evacuated (c : Core) (pair : Nat) : List (Nat × Nat × Evac) :=
  c.towers.flatMap fun (k, t) => if pairOfKey k = pair then t.evac.map fun (b, x) => (k, b, x) else []
/-- Evacuations of a pair that have not committed. -/
def Core.evacuating (c : Core) (pair : Nat) : Nat :=
  (c.towers.filterMap fun (k, t) => if pairOfKey k = pair then some (t.moving.filter fun p => p.2.kind == .evacuate).length else none).foldl (· + ·) 0
/-- A valid descriptor of a sector's table covers a bank (R354, R356). -/
def Core.covered (c : Core) (sec key bank : Nat) : Bool :=
  (c.sector sec).thandles.any fun (_, d) => (c.tBanks sec d).contains (key, bank) && c.tOk sec d
/-- A descriptor of a sector's table names a bank, though it may be invalid because the bank is occupied (R354, R357). -/
def Core.tableNames (c : Core) (sec key bank : Nat) : Bool :=
  (c.sector sec).thandles.any fun (_, d) => tValid d && (c.tBanks sec d).contains (key, bank)
/-- The launches that reference a bank of a tower: they hold its sector, and a valid descriptor there covers it. -/
def Core.references (c : Core) (key bank : Nat) : List (Nat × Launch) :=
  let sec := key / 36
  if c.covered sec key bank then c.launches.filter fun (_, l) => l.sectors.contains sec && l.started.isSome && !l.ended else []
/-- The timed ones. -/
def Core.timedRefs (c : Core) (key bank : Nat) : List Nat := ((c.references key bank).filter (·.2.timed)).map (·.1)
/-- A `cp.swp` that runs in a sector touches a bank; one that holds its start for a copy does not run yet (R358). -/
def Core.swapTouches (c : Core) (key bank : Nat) : Bool :=
  (c.sectorJobs (key / 36)).any fun j => j.swaps && j.started.isSome && j.done != 0 && j.cap.tensors.any fun (_, d) => (c.tBanks (key / 36) d).contains (key, bank)

/-! ## Commits -/

/-- Begin a copy of a bank; it takes a free time (R357; log 8). -/
def Core.startMove (c : Core) (w cell bank : Nat) (kind : MoveKind) (target : Evac) : Core :=
  let (t, c) := c.freeWait
  (c.modTower (c.towerKey w cell) fun x => { x with moving := mset x.moving bank ⟨w, cell, kind, target, false, [], false⟩ }).sched
    (c.now + t) bAfter (w * 8 + cell) (.evacuationCommit w cell bank)

/-- Make a move: the bank's content goes where it is going, and its maps follow (R351, R357). The launches that reference the bank are
notified (R473). A bank that has become hot on its way home is evacuated anew. -/
def Core.commitMove (c : Core) (key bank : Nat) (m : Move) : Core :=
  let t := c.tower key
  let users := c.references key bank
  let c := c.modTower key fun t => { t with moving := mdel t.moving bank }
  users.foldl (fun c p => c.notifyLaunch p.1) <|
  match m.kind with
  | .evacuate => (c.moveBank key bank m.target.tower m.target.bank).modTower key fun t => { t with evac := mset t.evac bank m.target }
  | .spill =>
    match mget? t.evac bank with
    | some x =>
      -- the access tables must admit the hardware's write (R456, R457; log 58)
      if !c.admits 0x40 m.target.seq (2 ^ 20) true then c
      else
      let c := (c.spillBank x.tower x.bank m.target.seq true).modTower key fun t => { t with
        evac := mdel t.evac bank, spilled := mset t.spilled bank m.target.seq }
      if m.back then c.startMove m.weave m.cell bank .return ⟨key, bank, 0⟩ else c
    | none => c
  | .return =>
    if (mget? t.evac bank).isNone && (mget? t.spilled bank).any fun h => !c.admits 0x40 h (2 ^ 20) false then c
    else
    let c := match mget? t.evac bank, mget? t.spilled bank with
      | some x, _ => c.moveBank x.tower x.bank key bank
      | none, some h => c.spillBank key bank h false
      | none, none => c
    let c := c.modTower key fun t => { t with evac := mdel t.evac bank, spilled := mdel t.spilled bank }
    if m.back then c.sched c.now bHost 0 (.evacuate m.weave m.cell bank) else c
/-- A move's copy is complete, or the last boundary that it waited for has passed. A running `cp.swp` delays it (R358). -/
def Core.tryCommit (c : Core) (act : Act) (w cell bank : Nat) : Core :=
  let key := c.towerKey w cell
  match mget? (c.tower key).moving bank with
  | none => c
  | some m =>
    if c.swapTouches key bank then c.sched (c.now + 1) bAfter (w * 8 + cell) act
    else if m.copied then (if m.waits.isEmpty then c.commitMove key bank m else c)
    else
      let waits := c.timedRefs key bank
      if waits.isEmpty then c.commitMove key bank m
      else c.modTower key fun t => { t with moving := mset t.moving bank { m with copied := true, waits := waits } }
/-- EVACUATION_COMMIT (R357), of an evacuation or of a return. -/
def execEvacuationCommit (w cell bank : Nat) (s : State) : Out :=
  .next (s.modC fun c =>
    match mget? (c.tower (c.towerKey w cell)).moving bank with
    | some m => if m.kind = .spill then c else c.tryCommit (.evacuationCommit w cell bank) w cell bank
    | none => c)
/-- SPILL_COMMIT (R351). -/
def execSpillCommit (w cell bank : Nat) (s : State) : Out :=
  .next (s.modC fun c =>
    match mget? (c.tower (c.towerKey w cell)).moving bank with
    | some m => if m.kind = .spill then c.tryCommit (.spillCommit w cell bank) w cell bank else c
    | none => c)

/-! ## Starts -/

/-- The governor marks a bank hot (R356, R357): the second result tells that nothing can be evacuated, so that the governor acts by
clock step. -/
def Core.evacuateBank (c : Core) (w cell bank : Nat) : Core × Bool :=
    let key := c.towerKey w cell
    let t := c.tower key
    let w' := 4 * partner (secOf w) + w % 4
    let key' := c.towerKey w' cell
    let pair := secOf w % 80
    let room := (c.evacuated pair).length + c.evacuating pair < 4 * c.busesLeft pair
    if c.unpowered then (c, false)
    else if let some m := mget? t.moving bank then
      -- hot again on its way home, or before its way home has begun
      (c.modTower key fun t => { t with moving := mset t.moving bank { m with back := m.kind == .return } }, false)
    else if (mget? t.evac bank).isSome || (mget? t.spilled bank).isSome then (c, false)
    else if !room then (c, true)
    else if c.swapTouches key bank then (c.sched (c.now + 1) bHost 0 (.evacuate w cell bank), false)
    else match ((List.range 15).map (· + 1)).find? fun b =>
        !c.covered (partner (secOf w)) key' b && !c.bankShort key' b && !c.bankOccupied key' b with
      | none => (c, true)
      | some b => (({ c with verCtr := c.verCtr + 1 }).startMove w cell bank .evacuate ⟨key', b, c.verCtr⟩, false)
/-- BANK_RETURN (R357): the governor clears the mark. A bank that spills returns once it has spilled. -/
def execBankReturn (w cell bank : Nat) (s : State) : Out :=
  .next (s.modC fun c =>
    let key := c.towerKey w cell
    let t := c.tower key
    -- an evacuation that waits for a `cp.swp` is wanted no more
    let c := c.unsched fun a => a == .evacuate w cell bank
    match mget? t.moving bank with
    | some m => c.modTower key fun t => { t with
        moving := if m.kind = .evacuate then mdel t.moving bank else mset t.moving bank { m with back := m.kind == .spill } }
    | none => if (mget? t.evac bank).isSome || (mget? t.spilled bank).isSome then c.startMove w cell bank .return ⟨key, bank, 0⟩ else c)

/-! ## Spills (R351) -/

/-- The pair's spill area, and its first free MiB. -/
def spillArea (pair : Nat) : Nat := (Config.spillBlock % 8112 + pair) * 2 ^ 26
def Core.spillSlot (c : Core) (pair : Nat) : Nat :=
  let used := c.towers.flatMap fun (k, t) => if pairOfKey k = pair then
    t.spilled.map (·.2) ++ (t.moving.filter fun p => p.2.kind == .spill).map (·.2.target.seq) else []
  ((List.range 64).map fun i => spillArea pair + i * 2 ^ 20).find? (fun h => !used.contains h) |>.getD (spillArea pair)
/-- Logical weave and cell of a tower. -/
def Core.logicalOf (c : Core) (key : Nat) : Nat × Nat :=
  (key / 9, ((List.range 8).find? fun i => c.physCell (key / 9) i == key % 9).getD 0)
/-- A bank spills: at once, or with the boundaries of the timed launches that reference it. -/
def Core.spill (c : Core) (key bank : Nat) : Core :=
  let pair := pairOfKey key
  let (w, cell) := c.logicalOf key
  let m : Move := ⟨w, cell, .spill, ⟨key, bank, c.spillSlot pair⟩, true, c.timedRefs key bank,
    ((mget? (c.tower key).moving bank).map fun m => if m.kind = .return then !m.back else m.back) == some true⟩
  let c := c.modTower key fun t => { t with moving := mset t.moving bank m }
  if m.waits.isEmpty then c.tryCommit (.spillCommit w cell bank) w cell bank else c
/-- Priority of an evacuated bank: that of the launches that reference it plus 1, 0 for none. -/
def Core.bankPrio (c : Core) (key bank : Nat) : Nat := (c.references key bank).foldl (fun acc l => max acc (l.2.prio + 1)) 0
/-- One evacuated bank spills before another. -/
def Core.spillsBefore (c : Core) (x y : Nat × Nat × Evac) : Bool :=
  let p := c.bankPrio x.1 x.2.1
  let q := c.bankPrio y.1 y.2.1
  p < q || (p == q && (y.2.2.seq < x.2.2.seq || (x.2.2.seq == y.2.2.seq && (y.1 / 36 < x.1 / 36 || (x.1 / 36 == y.1 / 36 && y.2.1 < x.2.1)))))
/-- Spill until the pair holds no more than 4 evacuated banks for each bus. -/
def Core.spillExcess (c : Core) (pair : Nat) : Nat → Core
  | 0 => c
  | n + 1 =>
    let es := (c.evacuated pair).filter fun x => !((mget? (c.tower x.1).moving x.2.1).map (·.kind == .spill)).getD false
    if es.length ≤ 4 * c.busesLeft pair then c
    else match es with
      | [] => c
      | x :: rest =>
        let y := rest.foldl (fun acc z => if c.spillsBefore z acc then z else acc) x
        (c.spill y.1 y.2.1).spillExcess pair n
/-- Evacuations under way that the pair no longer has room for end, the latest first (R351, R356). -/
def Core.endExcess (c : Core) (pair : Nat) : Nat → Core
  | 0 => c
  | n + 1 =>
    let es := (c.evacuated pair).filter fun x => !((mget? (c.tower x.1).moving x.2.1).map (·.kind == .spill)).getD false
    if es.length + c.evacuating pair ≤ 4 * c.busesLeft pair then c
    else
      let ms := c.towers.flatMap fun (k, t) => if pairOfKey k = pair then
        (t.moving.filter fun p => p.2.kind == .evacuate).map fun p => (k, p.1, p.2.target.seq) else []
      match ms with
      | [] => c
      | x :: rest =>
        let y := rest.foldl (fun acc z => if acc.2.2 < z.2.2 then z else acc) x
        (c.modTower y.1 fun t => { t with moving := mdel t.moving y.2.1 }).endExcess pair n
/-- A launch's table covers target banks of its sectors: those spill, and evacuations under way to them end (R357). -/
def Core.claimBanks (c : Core) (secs : List Nat) : Core :=
  secs.foldl (fun c sec =>
    (c.evacuated (sec % 80)).foldl (fun c (k, b, x) =>
      if x.tower / 36 = sec ∧ c.tableNames sec x.tower x.bank then c.spill k b else c)
    (c.towers.foldl (fun c (k, t) => t.moving.foldl (fun c (b, m) =>
      if m.kind = .evacuate ∧ m.target.tower / 36 = sec ∧ c.tableNames sec m.target.tower m.target.bank then
        c.modTower k fun t => { t with moving := mdel t.moving b }
      else c) c) c)) c
/-- A spill that the claim of a sector asks for has not committed. -/
def Core.claiming (c : Core) (secs : List Nat) : Bool :=
  c.towers.any fun (_, t) => t.moving.any fun (b, m) => m.kind == .spill && ((mget? t.evac b).map fun x => secs.contains (x.tower / 36)).getD false

/-! ## Buses (R350) -/

/-- A vertical bus is retired: its spare takes over at the next tick. -/
def Core.retireBus (c : Core) (pair bus : Nat) : Core :=
  c.sched ((c.tick + 1) * Config.tickCycles) bBoundary pair (.busSpareTakeover pair bus)
def busUnit (pair bus : Nat) : Nat := unitCode ⟨6, pair, bus⟩
/-- BUS_SPARE_TAKEOVER (R350): the lowest spare takes the retired bus's entry; with none it reads 0x1F, and banks spill. -/
def execBusSpareTakeover (pair bus : Nat) (s : State) : Out :=
  .next (s.modC fun c =>
    let m := c.busMap pair
    if !m.contains bus || (c.healthOf (busUnit pair bus)).state < 2 then c
    else
      let spare := (List.range 18).find? fun b => !m.contains b && (c.healthOf (busUnit pair b)).state < 2
      let c := { c with busMaps := mset c.busMaps pair (m.map fun b => if b = bus then spare.getD 0x1F else b) }
      if c.unpowered then c else (c.spillExcess pair 256).endExcess pair 256)

end Sys2Proof.Machine
end

