-- ==== Sys2Proof/Machine/Reliability.lean ====
section
/-! DEFINITION. Patrols (R377, R380), field tests and retirement (R390 to R393), monitors (R396), the health table (R395). -/
namespace Sys2Proof.Machine

/-! ## Patrols -/

/-- FLAGS of an entry that a patrol writes. -/
def patrolFlag : Nat := 16
/-- What a patrol finds at a row: errors that the state holds, else what the event says; at a poisoned row, or in decks without power,
nothing. A parity row that fails horizontal parity is
rewritten as one that fails vertical parity is. -/
def Core.patrolled (c : Core) (row : Nat) (found : PatrolFind) : PatrolFind :=
  if c.poison.contains row || c.unpowered then .clean
  else if c.wordFlagged row then (if c.groupFails row then .uncorrectable else .corrected)
  else if (c.groupRows row).any c.wordFlagged then found
  else if (c.parityFlip row).flagged || c.groupError row ^^^ (c.flip row).data != 0 then .parityRow
  else found
/-- The parity row's word of a row's group is rewritten from the data rows (R377). -/
def Core.rewriteParity (c : Core) (row : Nat) : Core :=
  let x := c.groupError row ^^^ (c.flip row).data ^^^ (c.parityFlip row).data
  c.putFlips c.flips (putFlip c.parityFlips ⟨(c.groupRows row).headD row, x, horizontal x⟩) none
/-- PATROL (R377): what a recovery engine's patrol of its array finds at a row. -/
def execPatrol (addr : Nat) (found : PatrolFind) (s : State) : Out :=
  .next (s.modC fun c =>
    let row := rowAddr addr
    let (_, _, u) := arrayOf row
    let log (c : Core) (kind : Nat) : Core := c.logEntry (unitCode u) kind patrolFlag 0 (word (arrayAddr row)) 0
    match c.patrolled row found with
    | .clean => c
    | .corrected => log ((c.rebuildWord row).noteCorrected u false) 1
    | .parityRow => log (c.rewriteParity row) 1
    | .uncorrectable => log ((c.noteUncorrectable u false).poisonRow row) 2)
/-- HBM_PATROL (R380): what a controller's patrol finds at a request. -/
def execHbmPatrol (addr : Nat) (found : PatrolFind) (s : State) : Out :=
  .next (s.modC fun c =>
    let r := addr / 64 * 64
    let u := hbmUnit r
    let log (c : Core) (kind : Nat) : Core := c.logEntry (unitCode u) kind patrolFlag 0 (word r) 0
    -- errors that the state holds are decoded; else the event tells what is found (log 41)
    if c.hbmPoison.contains r then c
    else if (mget? c.hbmFlips r).isSome then
      let d := c.decodeRequest 0 patrolFlag r 0
      -- the write back of a correction is one of the hardware's accesses (R456, R457; log 58)
      match rsDecode (c.received r) with
      | .fix .. => if c.admits 0x40 r 64 true then d else { d with mem := c.mem, vers := c.vers, hbmFlips := c.hbmFlips }
      | _ => d
    else match found with
      | .corrected => log (c.noteCorrected u false) 9
      | .uncorrectable => (log (c.noteUncorrectable u false) 10).poisonRequest r
      | _ => c)
/-- A patrol passes a row before a time of its own choosing: of every array within 60 s (R377), of every HBM request within 12 h
(R380). Only the rows and requests that hold errors are followed. -/
def Core.planPatrol (c : Core) (a : Act) (units : Nat) : Core :=
  if c.agenda.any fun e => e.act == a then c
  else { c with freeCtr := c.freeCtr + 1 }.schedWall (1 + Config.freeDelay c.freeCtr % units) bHost 0 a

/-! ## What comes from outside without a row of its own (R311, R372, R376, R378, R379, R382; log 41) -/

/-- A running job of an engine fails in the engine's state: dropped with AB, and consumed (R375, R376). -/
def Core.engineFails (c : Core) (e : EngId) : Core :=
  match (c.jobsOf e).find? (·.started.isSome) with
  | none => c
  | some j => ((c.cutMm j).dropJob e j.id).consumeJob j 5 (engUnit e) 0 false
/-- A word arrives flagged over a vertical bus: ten within a second make the bus suspect (R378). -/
def Core.busHit (c : Core) (pair bus : Nat) : Core :=
  let u := busUnit pair bus
  let ts := ((mget c.busHits u []).filter fun t => c.wall < t + Config.secUnits) ++ [c.wall]
  let c := { c with busHits := mset c.busHits u ts }
  if 10 ≤ ts.length then c.modHealth u fun h => { h with state := max 1 h.state } else c
/-- A host store of bytes. Where it covers the word of an increment in progress, a free value decides whether the increment's
write comes after it and leaves its own value (R312, log 40). -/
def Core.hostStore (c : Core) (addr : Nat) (data : List Byte) : Core :=
  let base := hostBase + addr % 2 ^ 64
  let held (c : Core) (e : Entry) : Option (Nat × Word) :=
    match e.act with
    | .eventWritten a v => let a := rowAddr (hostBase + a)
      if base ≤ a ∧ a + 8 ≤ base + data.length ∧ c.row a = v then some (a, v) else none
    | _ => none
  let late := c.agenda.filterMap (held c)
  let c := c.writeBytes base (data.map (·.toNat)) 4 0 0 none
  late.foldl (fun c (a, v) =>
    let (x, c) := c.free
    if x.getLsbD 0 then c.writeShared a v allOnes 4 0 0 none else c) c
/-- It takes effect. -/
def Core.outer (c : Core) (u : Outer) : Core :=
  let add (f : Flip) (data : Word) (par : BitVec 4) : Flip := { f with data := f.data ^^^ data, par := f.par ^^^ par }
  match u with
  | .word row data par =>
    if c.poison.contains (rowAddr row) then c
    else (c.setFlip (add (c.flip (rowAddr row)) data par)).planPatrol (.patrolRow (rowAddr row)) (60 * Config.secUnits)
  | .parity row data par =>
    (c.putFlips c.flips (putFlip c.parityFlips
      { add (c.parityFlip (rowAddr row)) data par with row := (c.groupRows (rowAddr row)).headD (rowAddr row) }) none).planPatrol
      (.patrolRow (rowAddr row)) (60 * Config.secUnits)
  | .hbm r pos data =>
    if data = 0 ∨ 35 ≤ pos ∨ c.hbmPoison.contains (r / 64 * 64) then c
    else { c with hbmFlips := mset c.hbmFlips (r / 64 * 64) (mget c.hbmFlips (r / 64 * 64) [] ++ [(pos, data)]) }.planPatrol
      (.hbmPatrolRow (r / 64 * 64)) (43200 * Config.secUnits)
  | .register w file reg lane => c.modW w fun x => { x with badRegs := x.badRegs ++ [(file, reg, if file = .s then 0 else lane)] }
  | .control w => c.cancelAt w 5 (unitCode ⟨0, secOf w, w % 4⟩) 0 false
  | .unseen w file reg lane data =>
    let key := vKey (reg % 32) (lane % 128)
    c.modW w fun x => match file with
      | 0 => if reg % 32 = 0 then x else { x with s := lmod x.s (reg % 32) (· ^^^ data) }
      | 1 => { x with v := mset x.v key (mget x.v key 0 ^^^ data) }
      | _ => if reg % 8 = 0 then x
        else { x with k := mset x.k (vKey (reg % 8) (lane % 128)) (mget x.k (vKey (reg % 8) (lane % 128)) 0 ^^^ (data &&& 1)) }
  | .buffer w space row => c.modW w fun x =>
      if if space = 0 then (mget? x.buf row).isSome else x.gbuf.any fun g => 1 + g.tgt == space && g.addr == row
      then { x with bufBad := x.bufBad ++ [(space, row)] } else x
  | .checkpoint w => c.modW w fun x => { x with ckpt := x.ckpt.map fun (k : Checkpoint) => { k with parityBad := true } }
  | .engine e => c.engineFails e
  | .residue sec x => c.modMxa sec fun m => { m with wrong := some x }
  | .wire bus w job row =>
    let c := match bus with
      | some (p, b) => c.busHit p b
      | none => c
    let (_, src, n) := arrayOf row
    match job with
    | some e => match (c.jobsOf e).find? (·.started.isSome) with
      | some j => c.consumeJob j src (unitCode n) (rowAddr row) false
      | none => c
    | none => if row = 0 then c.cancelAt w 5 (unitCode ⟨0, secOf w, w % 4⟩) 0 false else c.cancelAt w src (unitCode n) (rowAddr row) false
  | .hostStore a data => c.hostStore a data
  | .atomicOps fn on => c.modHost fun h => { h with atomicOps := h.atomicOps.set fn on }
  | .watchdogRestart => if c.power.boot = 4 then c.modPower fun p => { p with watchdog := some c.wall } else c
  | .barRead .. | .tlp .. | .replay .. => c

/-! ## Units (R390, R394) -/

/-- The weave that a unit of types 0 to 2 belongs to. -/
def unitWeave (u : UnitName) : Nat := 4 * u.sector + u.sub % 4
/-- No launch holds the weave: a parked launch has given up its sectors (R332). -/
def Core.weaveFree (c : Core) (w : Nat) : Bool :=
  !(c.launches.any fun (_, l) => l.weaves.contains w && l.sectors.contains (w / 4) && !l.ended)
/-- The bus is a spare of its pair. -/
def Core.busSpare (c : Core) (pair bus : Nat) : Bool := !(c.busMap pair).contains bus
/-- Nothing uses the unit (R390). -/
def Core.unused (c : Core) (u : UnitName) : Bool :=
  match u.type with
  | 0 | 1 | 2 => c.weaveFree (unitWeave u)
  | 3 =>
    let e := c.eng u.sector (u.sub / 16 % 8) (u.sub % 16)
    e.idle && !e.testing
  | 4 | 5 => (c.sector u.sector).owner.isNone && (c.sector u.sector).preloaded.isNone
  | 6 => c.busSpare u.sector (u.sub % 32) || ((c.sector u.sector).owner.isNone && (c.sector (u.sector + 80)).owner.isNone)
  | _ => false
/-- The unit exists and may be tested now. -/
def Core.testable (c : Core) (u : UnitName) : Bool :=
  !c.unpowered && (c.healthOf (unitCode u)).state < 2 && c.unused u && !(c.tests.any fun t => t.unit == u) &&
  (match u.type with
    | 0 => u.sector < Config.sectorCount && u.sub < 4
    | 1 => u.sector < Config.sectorCount && u.sub / 4 < 9
    | 2 => u.sector < Config.sectorCount && u.sub / 4 % 16 < 9 && u.sub / 64 < 68
    | 3 => u.sector < Config.sectorCount && u.sub / 16 < 6 && u.sub % 16 < Config.unitsOf (u.sub / 16)
    | 4 => u.sector < Config.sectorCount && u.sub < 2
    | 5 => u.sector < Config.sectorCount && u.sub < 32
    | 6 => u.sector < 80 && u.sub < 18
    | _ => false)
/-- Duration of a unit's test in wall-clock units (R390). -/
def testUnits (u : UnitName) : Nat :=
  match u.type with
  | 0 => Config.msUnits
  | 1 | 2 => 50 * Config.msUnits
  | 3 => if u.sub / 16 = 0 then 2 * Config.msUnits else 400 * Config.usUnits
  | 4 => 400 * Config.usUnits
  | 5 => 10 * Config.msUnits
  | _ => 100 * Config.usUnits
/-- The units that the scheduler tests. -/
def testUnitsOf : List UnitName :=
  ((List.range Config.sectorCount).flatMap fun s =>
    ((List.range 4).map fun i => UnitName.mk 0 s i) ++ ((List.range 36).map fun i => UnitName.mk 1 s i) ++
    (allInstances.map fun (k, i) => UnitName.mk 3 s (16 * k + i)) ++ ((List.range 2).map fun i => UnitName.mk 4 s i) ++
    ((List.range 32).map fun i => UnitName.mk 5 s i)) ++
  ((List.range 80).flatMap fun p => (List.range 18).map fun i => UnitName.mk 6 p i)
/-- One unit's test comes before another's: those first in the queue, then the oldest last test (R390, R392). -/
def Core.testsBefore (c : Core) (x y : UnitName) : Bool :=
  let p := c.healthOf (unitCode x)
  let q := c.healthOf (unitCode y)
  if (p.lastFail || p.state == 1) != (q.lastFail || q.state == 1) then p.lastFail || p.state == 1 else decide (p.ltime < q.ltime)
/-- A unit's test begins. -/
def Core.startTest (c : Core) (u : UnitName) : Core :=
  let c := { c with tests := c.tests ++ [⟨u, c.wall + testUnits u⟩] }
  if u.type = 3 then c.modEng u.sector (u.sub / 16) (u.sub % 16) fun e => { e with testing := true } else c
/-- FIELD_TEST_START (R390): the scheduler's choice starts, unless a unit that it may test comes before. -/
def execFieldTestStart (u : UnitName) (s : State) : Out :=
  .next (s.modC fun c =>
    if !c.testable u || testUnitsOf.any (fun v => c.testable v && c.testsBefore v u) then c else c.startTest u)
/-- Placement claims a launch's units: tests of its weaves, their cells and towers, of its sectors' stores and copy engines, and of
their pairs' buses are abandoned, but not of a spare bus (R390, R391). -/
def Core.claimTests (c : Core) (secs ws : List Nat) : Core :=
  { c with tests := c.tests.filter fun t => !(match t.unit.type with
      | 0 | 1 | 2 => ws.contains (unitWeave t.unit)
      | 4 | 5 => secs.contains t.unit.sector
      | 6 => (secs.contains t.unit.sector || secs.contains (t.unit.sector + 80)) && !c.busSpare t.unit.sector (t.unit.sub % 32)
      | _ => false) }
/-- HEALTH SCAN: the scheduler looks for a unit that nothing uses, the oldest test first, and looks again within a second (R390;
log 52). -/
def Core.healthScan (c : Core) : Core :=
  let best := testUnitsOf.foldl (fun (b : Option UnitName) u =>
    if !c.testable u then b
    else match b with
      | none => some u
      | some v => if c.testsBefore u v then some u else b) none
  let c := match best with
    | some u => c.startTest u
    | none => c
  { c with freeCtr := c.freeCtr + 1 }.schedWall (1 + Config.freeDelay c.freeCtr % Config.secUnits) bBoundary 0 .healthScan

/-! ## Retirement (R393) -/

/-- Cells of a weave's map that are retired, or whose bank 0 is short, give way to unused good ones, when no launch holds the weave
(R347, R348). -/
def Core.remapCells (c : Core) (w : Nat) : Core :=
  if !c.weaveFree w then c
  else
    let good (p : Nat) : Bool := (c.healthOf (unitCode ⟨1, w / 4, p * 4 + w % 4⟩)).state < 2 && !c.bankShort (9 * w + p) 0
    let m := mget c.cellMaps w (List.range 8)
    let m' := (List.range 8).foldl (fun (m : List Nat) i =>
      if good (m.getD i i) then m
      else match (List.range 9).find? fun p => good p && !m.contains p with
        | some p => m.set i p
        | none => m) m
    if m = m' then c else { c with cellMaps := mset c.cellMaps w m' }
/-- A weave that placement may use: its sequencer and its cells are in service and none of their banks 0 is short (R347,
R348). -/
def Core.weaveUsable (c : Core) (w : Nat) : Bool :=
  (c.healthOf (unitCode ⟨0, w / 4, w % 4⟩)).state < 2 &&
  (List.range 8).all fun i => (c.healthOf (unitCode ⟨1, w / 4, c.physCell w i * 4 + w % 4⟩)).state < 2 && !c.bankShort (c.towerKey w i) 0
/-- A sector that placement may use for a launch with so many weaves in it (R393, R402). -/
def Core.sectorUsable (c : Core) (wps sec : Nat) : Bool :=
  (List.range 2).all (fun i => (c.healthOf (unitCode ⟨4, sec, i⟩)).state < 2) &&
  (List.range 32).all (fun i => (c.healthOf (unitCode ⟨5, sec, i⟩)).state < 2) && (List.range wps).all fun i => c.weaveUsable (4 * sec + i)
/-- A sub-array is retired: its entry names a spare that no entry names, or goes out of service (R347, R393). -/
def Core.retireSub (c : Core) (key phys : Nat) : Core :=
  match (List.range 64).find? fun l => c.subArray key l == some phys with
  | none => c
  | some l =>
    let used := (List.range 64).filterMap (c.subArray key)
    let w := key / 9
    let good (p : Nat) : Bool := (c.healthOf (unitCode ⟨2, w / 4, p * 64 + key % 9 * 4 + w % 4⟩)).state < 2
    let e : BitVec 8 := match (List.range 68).find? fun p => good p && !used.contains p with
      | some p => BitVec.ofNat 8 (128 + p)
      | none => 0
    c.modTower key fun t => { t with remap := mset t.remap l e }
/-- What the retirement of a unit does (R393). -/
def Core.applyRetired (c : Core) (u : UnitName) : Core :=
  match u.type with
  | 1 => c.remapCells (unitWeave u)
  | 2 => (c.retireSub (9 * (unitWeave u) + u.sub / 4 % 16) (u.sub / 64)).remapCells (unitWeave u)
  | 3 => c.retireEngine u.sector (u.sub / 16) (u.sub % 16)
  | 6 => c.retireBus u.sector (u.sub % 32)
  | _ => c
/-- A unit is retired (R393). -/
def Core.retireUnit (c : Core) (u : UnitName) : Core :=
  ((c.modHealth (unitCode u) fun h => { h with state := 2 }).logEntry (unitCode u) 8 0 0 0 0).applyRetired u

/-- The result of a completed test of a unit (R392): a field test's with its signature, or that of `mx.chk` (R254; log 55). -/
def Core.testResult (c : Core) (u : UnitName) (sig : Option Nat) (pass : Bool) : Core :=
  let n := unitCode u
  let again := (c.healthOf n).lastFail
  let c := c.modHealth n fun h => { h with
    sig := sig.getD h.sig, ltime := c.wall / Config.secUnits, overdue := false, lastFail := !pass
    pass := if pass then min 0xFFFF (h.pass + 1) else h.pass
    fail := if pass then h.fail else min 0xFFFF (h.fail + 1)
    state := if pass then (if h.state = 1 then 0 else h.state) else max h.state 1 }
  let c := c.schedWall (86400 * Config.secUnits) bBoundary n (.testOverdue u)
  if pass then c
  else
    let c := c.logEntry n 7 0 0 0 0
    if again then c.retireUnit u else c
/-- FIELD_TEST_COMPLETION (R392): the signature of a test that has run its time. -/
def execFieldTestCompletion (u : UnitName) (sig : BitVec 32) (s : State) : Out :=
  .next (s.modC fun c =>
    if !(c.tests.any fun t => t.unit == u && decide (t.endsAt ≤ c.wall)) then c
    else
      let c := { c with tests := c.tests.filter fun t => t.unit != u }
      let c := if u.type = 3 then c.modEng u.sector (u.sub / 16) (u.sub % 16) fun e => { e with testing := false } else c
      c.testResult u (some sig.toNat) (sig == Config.testSignature c.host.record.content (unitCode u)))
/-- No test of the unit has completed for 24 h (R390). -/
def Core.overdue (c : Core) (n : Nat) : Bool :=
  (c.healthOf n).overdue || 86400 ≤ c.wall / Config.secUnits - (c.healthOf n).ltime
/-- TEST_OVERDUE (R390). -/
def execTestOverdue (u : UnitName) (s : State) : Out :=
  .next (s.modC fun c =>
    if 86400 ≤ c.wall / Config.secUnits - (c.healthOf (unitCode u)).ltime then c.modHealth (unitCode u) fun h => { h with overdue := true } else c)

/-! ## Monitors (R396) -/

/-- The clock is looked at in cycle 0 of the next tick (R466, R467). -/
def Core.wantClock (c : Core) : Core :=
  if c.agenda.any fun e => e.act == .clockApply then c else c.sched ((c.tick + 1) * Config.tickCycles) bLand 0 .clockApply
/-- A sector's delay margin asks for a lower clock step: it applies at the next clock-safe tick. -/
def Core.lowerStep (c : Core) : Core :=
  let step := min 4 (c.clockStep + 1)
  (c.modPower fun p => { p with pendStep := some (max step (p.pendStep.getD step)) }).wantClock
/-- MONITOR_SAMPLE (R396): a retention margin below 0 is a retention below 10 s. -/
def execMonitorSample (u : UnitName) (margin : BitVec 16) (s : State) : Out :=
  .next (s.modC fun c =>
    let n := unitCode u
    let c := if u.type = 6 ∨ u.type = 7 then c else c.modHealth n fun h => { h with margin := margin.toNat }
    if !bitAt margin.toNat 15 then c
    else if u.type = 1 then c.modHealth n fun h => { h with state := max h.state 1 }
    else if u.type = 6 ∨ u.type = 7 then c
    else c.lowerStep)
/-- EOL_RECOMPUTE (R396): a first fall below 6 months is logged once (R483). -/
def execEolRecompute (u : UnitName) (months : BitVec 16) (s : State) : Out :=
  .next (s.modC fun c =>
    let n := unitCode u
    let low : Bool := decide (months.toNat < 6) && !(c.healthOf n).eolSeen
    let c := c.modHealth n fun h => { h with eol := months.toNat, eolSeen := h.eolSeen || low }
    if low then c.logEntry n 7 0 0 0 0 else c)

/-! ## The health table (R395) -/

/-- Corrected errors of the last 24 h. -/
def Core.corr (c : Core) (n : Nat) : Nat :=
  ((c.healthOf n).corrAt.filter fun t => c.wall < t + 86400 * Config.secUnits).length
/-- Entry n of the table: units in ascending UNIT (R394, R395). Sub-arrays number 68, cells 9, buses 18. -/
def unitAt (n : Nat) : Option UnitName :=
  let secs := Config.sectorCount
  let part (type per base : Nat) : UnitName := ⟨type, (n - base) / per, (n - base) % per⟩
  let b1 := 4 * secs
  let b2 := b1 + 36 * secs
  let b3 := b2 + 2448 * secs
  let b4 := b3 + allInstances.length * secs
  let b5 := b4 + 2 * secs
  let b6 := b5 + 32 * secs
  let b7 := b6 + 18 * 80
  if n < b1 then some (part 0 4 0)
  else if n < b2 then some (part 1 36 b1)
  else if n < b3 then
    let u := part 2 2448 b2
    some { u with sub := u.sub / 36 * 64 + u.sub % 36 }
  else if n < b4 then
    let u := part 3 allInstances.length b3
    (allInstances[u.sub]?).map fun (k, i) => { u with sub := 16 * k + i }
  else if n < b5 then some (part 4 2 b4)
  else if n < b6 then some (part 5 32 b5)
  else if n < b7 then some (part 6 18 b6)
  else if n < b7 + 8 then some ⟨7, 0xFF, n - b7⟩
  else none
/-- A spare that nothing uses (R395): a cell outside its weave's map, one of the sub-arrays that no entry of its tower's table names, a
bus outside its pair's map. -/
def Core.spareUnused (c : Core) (u : UnitName) : Bool :=
  let w := unitWeave u
  match u.type with
  | 1 => !(mget c.cellMaps w (List.range 8)).contains (u.sub / 4)
  | 2 => !((List.range 64).any fun l => c.subArray (9 * w + u.sub / 4 % 16) l == some (u.sub / 64))
  | 6 => c.busSpare u.sector (u.sub % 32)
  | _ => false
/-- An entry as four words. -/
def Core.healthEntry (c : Core) (u : UnitName) : List Word :=
  let n := unitCode u
  let h := c.healthOf n
  [word (n + (if h.state = 0 ∧ c.spareUnused u then 4 else h.state) * 2 ^ 32 + bnat (c.overdue n && u.type < 7) * 2 ^ 39),
   word (h.pass + h.fail * 2 ^ 16 + min 0xFFFF (c.corr n) * 2 ^ 32 + h.uncorr * 2 ^ 48),
   word (h.ltime % 2 ^ 32 + h.sig * 2 ^ 32),
   word (h.margin + h.eol * 2 ^ 16 + (if u.type = 0 ∨ (u.type = 3 ∧ u.sub / 16 = 0) then h.segc % 2 ^ 32 else 0) * 2 ^ 32)]

end Sys2Proof.Machine
end

