-- ==== Sys2Proof/Machine/Records.lean ====
section
/-! DEFINITION. Launch records (R408 to R411): their fields, their checks, the tables and images that they name; refusals and
halts of queues (R401, R403, R411); event words (R311, R404). -/
namespace Sys2Proof.Machine

/-! ## Fields (R408) -/

def recNat (r : List Word) (f : Nat) : Nat := (r.getD f 0).toNat
/-- Weaves of a sector, 0 for the code that no table entry names. -/
def recWps (r : List Word) : Nat := [1, 2, 4].getD (bits (recNat r 0) 10 9) 0
def recPairs (r : List Word) : Bool := bitAt (recNat r 0) 8
def recHalves (r : List Word) : Nat := bits (recNat r 0) 12 11
def recDu (r : List Word) : Nat := bits (recNat r 0) 20 16
def recRetry (r : List Word) : Nat := bits (recNat r 0) 23 21
def recTimed (r : List Word) : Bool := bitAt (recNat r 1) 0
def recRedun (r : List Word) : Bool := bitAt (recNat r 1) 3
def recW (r : List Word) : Nat := bits (recNat r 3) 3 0
def recH (r : List Word) : Nat := bits (recNat r 3) 7 4
def recCount (r : List Word) : Nat := bits (recNat r 3) 15 8
def recSectors (r : List Word) : Nat := recW r * recH r * recCount r * (if recPairs r then 2 else 1)
def recLength (r : List Word) : Nat := recNat r 5 % 2 ^ 14 + 1
def recEntry (r : List Word) : Nat := bits (recNat r 5) 29 16
def recResume (r : List Word) : Nat := bits (recNat r 5) 45 32
def recPre (r : List Word) : Bool := bitAt (recNat r 5) 47
/-- The multiple of a present level. -/
def recLevel (r : List Word) (l : Nat) : Option Nat :=
  let b := recNat r 2 / 256 ^ l % 256
  if bitAt b 7 then some (b % 128) else none
/-- Records of one PAIRS, WPS and SHAPE (R419). -/
def sameShape (r q : List Word) : Bool := recPairs r == recPairs q && recWps r == recWps q && recNat r 3 == recNat q 3

/-! ## Checks (R409, R411) -/

/-- The bits that a field may set; reserved bits of a CSR image count as unlisted. -/
def fieldMask (f : Nat) : Nat :=
  match f with
  | 0 => 2 ^ 63 + 0xFF1F7F
  | 1 => 0xF00B
  | 3 => 0xFFFF
  | 5 => 0xBFFF3FFF3FFF
  | 6 | 7 => 0x3FFF
  | 8 => 0x7FFF
  | 9 | 26 => 0xFFFFFFFF
  | 11 | 12 | 13 => 0xFFFFFF0000
  | 17 => 0x1FFF
  | f => if f < 38 then 2 ^ 64 - 1 else 0
def reservedOk (r : List Word) : Bool :=
  bitAt (recNat r 0) 63 && (List.range 64).all fun f => recNat r f &&& fieldMask f == recNat r f
/-- SIZE of a context's fabric group, none where its record is not valid (R459). -/
def Core.groupSize (c : Core) (ctx : Nat) : Option Nat :=
  let g := (c.ctx ctx).group.toNat
  if bitAt g 63 then some (bits g 11 0 + 1) else none
def Core.groupRank (c : Core) (ctx : Nat) : Nat := bits (c.ctx ctx).group.toNat 27 16
/-- A level's declaration (R409, R459). -/
def Core.levelOk (c : Core) (ctx : Nat) (r : List Word) (l : Nat) : Bool :=
  match recLevel r l with
  | none => true
  | some m =>
    let div (n : Nat) : Bool := m != 0 && n % m == 0
    match l with
    | 0 => div 16
    | 1 => div 8
    | 2 => recWps r != 0 && div (recWps r)
    | 3 | 5 => m == 1 || (m == 2 && recPairs r)
    | 4 => recPairs r && div (recW r * recH r * recCount r)
    | 6 => m == 1
    | _ => match c.groupSize ctx with
      | some n => (m == 0 || (m == n && n ≤ 127)) && mget (c.ctx ctx).members (c.groupRank ctx) 0 % 4096 == c.host.modid
      | none => false
def Core.secMax (c : Core) (ctx : Nat) : Nat := ((c.ctx ctx).words.getD 6 0).toNat % 256
def Core.shapeOk (c : Core) (ctx : Nat) (r : List Word) : Bool :=
  1 ≤ recW r && recW r ≤ 10 && 1 ≤ recH r && recH r ≤ 8 && 1 ≤ recCount r && recCount r ≤ 160 && recWps r != 0 && recDu r ≤ 20 &&
  (!recRedun r || recWps r == 4) && recSectors r ≤ 160 && recSectors r ≤ c.secMax ctx
/-- ENTRY, RESUME, TVEC and UEVEC lie in the image. -/
def programOk (r : List Word) : Bool :=
  recEntry r < recLength r && recResume r < recLength r && recNat r 6 < recLength r && recNat r 7 < recLength r
def lengthOk (n limit : Nat) : Bool := n % 8 == 0 && n ≤ limit
def imagesOk (r : List Word) : Bool :=
  recHalves r != 0 && (recNat r 23 == 0 || bitAt (recHalves r) 0) && (recNat r 25 == 0 || bitAt (recHalves r) 1) &&
  lengthOk (recNat r 21) 65536 && lengthOk (recNat r 23) 1966080 && lengthOk (recNat r 25) 1966080 && recNat r 17 ≤ 4096
/-- The first failing check of the record's own fields (R411). -/
def Core.recordErr (c : Core) (ctx : Nat) (r : List Word) : Option Nat :=
  if !reservedOk r then some 1
  else if !((List.range 8).all (c.levelOk ctx r)) then some 2
  else if !c.shapeOk ctx r then some 3
  else if !programOk r then some 4
  else if !imagesOk r then some 6
  else none

/-! ## Tables and images -/

/-- Words of a context's memory from a virtual address; none where a walk or a read fails. -/
def Core.readWords (c : Core) (ctx va : Nat) : Nat → Option (List Word) × Core
  | 0 => (some [], c)
  | n + 1 =>
    match c.readWord ctx va with
    | (none, c) => (none, c)
    | (some x, c) =>
      let (xs, c) := c.readWords ctx (va + 8) n
      (xs.map (x :: ·), c)
/-- Words written to a context's memory; false where a walk or a write fails. -/
def Core.writeWords (c : Core) (ctx va : Nat) : List Word → Bool × Core
  | [] => (true, c)
  | x :: xs => match c.writeWord ctx va x with
    | (false, c) => (false, c)
    | (true, c) => c.writeWords ctx (va + 8) xs
/-- A double-buffer declaration as X, Y and LEN (R341). -/
def dbufOf (x : Word) : Nat × Nat × Nat := (bits x.toNat 15 0, bits x.toNat 31 16, bits x.toNat 47 32)
/-- The halves of declared regions. -/
def dbufHalves (rs : List (Nat × Nat × Nat)) : List (Nat × Nat) :=
  (rs.filter fun r => r.2.2 != 0).flatMap fun r => [(r.1, r.2.2), (r.2.1, r.2.2)]
def apartFrom : List (Nat × Nat) → Bool
  | [] => true
  | x :: xs => (xs.all fun y => x.1 + x.2 ≤ y.1 || y.1 + y.2 ≤ x.1) && apartFrom xs
/-- The declarations keep R341. -/
def dbufOk (xs : List Word) : Bool :=
  (xs.all fun x =>
    let (a, b, n) := dbufOf x
    x.toNat < 2 ^ 48 && (n == 0 || (n % 8 == 0 && n ≤ 32768 && a % 8 == 0 && b % 8 == 0 && a + n ≤ 65536 && b + n ≤ 65536))) &&
  apartFrom (dbufHalves (xs.map dbufOf))
/-- What a record's addresses name (R408). -/
structure Images where
  prog : List Word
  fmts : List Word
  handles : List Word
  tensors : List Word
  dbuf : List Word
  sregs : List Word
  loc : List Word
  halfA : List Word
  halfB : List Word
/-- The tables and images in ascending field number, with the ERR of the first failure (R411). -/
def Core.readImages (c : Core) (ctx : Nat) (r : List Word) : Except Nat Images × Core :=
  let fields : List (Nat × Nat) := [(4, ceilDiv (recLength r) 2), (14, 32), (15, 32), (16, 8 * recNat r 17), (18, 16), (19, 32),
    (20, recNat r 21 / 8), (22, recNat r 23 / 8), (24, recNat r 25 / 8)]
  let (out, c) := fields.foldl (fun (out, c) (f, n) => match out with
    | .error e => (.error e, c)
    | .ok xs =>
      -- a double-buffer table or an s register image of address 0 is absent
      let (x, c) := if (f = 18 ∨ f = 19) ∧ recNat r f = 0 then (some (List.replicate n 0), c) else Core.readWords c ctx (recNat r f) n
      match x with
      | none => (.error 7, c)
      | some x => (if f = 18 ∧ !dbufOk x then .error 5 else .ok (xs ++ [x]), c)) ((.ok [] : Except Nat (List (List Word))), c)
  (out.map fun xs =>
    let x (i : Nat) : List Word := xs.getD i []
    ⟨x 0, x 1, x 2, x 3, x 4, x 5, x 6, x 7, x 8⟩, c)

/-! ## Queues, halts and fault records (R401, R403, R411) -/

/-- A decision of the command processor is asked for in this cycle. -/
def Core.wantDispatch (c : Core) : Core :=
  if c.agenda.any fun e => e.act == .dispatch && e.due == .cycle c.now then c else c.sched c.now bCp 1000000 .dispatch
def Queue.enabled (q : Queue) : Bool := bitAt q.qcfg.toNat 31
def Queue.prio (q : Queue) : Nat := bits q.qcfg.toNat 18 16
def Queue.weight (q : Queue) : Nat := bits q.qcfg.toNat 11 8 + 1
/-- The queue's context has V = 1 (R403). -/
def Core.ctxValid (c : Core) (ctx : Nat) : Bool := bitAt ((c.ctx ctx).words.getD 0 0).toNat 63
/-- The queue reads entries and offers heads, once the module is ready (R479) and not shut down (R472). -/
def Core.serves (c : Core) (q : Nat) : Bool :=
  let x := c.queue q
  c.power.cpOn && !c.power.shut && x.enabled && !x.halted && c.ctxValid x.ctx
/-- A queue halts (R403, R440). -/
def Core.haltQueue (c : Core) (q err num : Nat) : Core :=
  (c.modQ q fun x => { x with halted := true, err := err, recno := num, timers := [] }).raiseSource (66 + q)
/-- A context's fault record is written (R401, R440). -/
def Core.faultRecord (c : Core) (ctx : Nat) (ws : List Word) : Core :=
  (c.modCtx ctx fun x => { x with fault := ws }).raiseSource (2 + ctx)
/-- A refusal (R401, R411): of a record, or of a graph. -/
def Core.refuse (c : Core) (q err num : Nat) (graph : Bool) : Core :=
  (c.haltQueue q err num).faultRecord (c.queue q).ctx [0, 0, allOnes, word err, 0, word (num + bnat graph * 65536)]
/-- A command has completed, or is gone. -/
def Core.finishCommand (c : Core) (q idx : Nat) : Core :=
  (c.modQ q fun x => { x with cmds := x.cmds.filter fun m => m.idx != idx }).wantDispatch

/-! ## Event words (R311, R404, R418) -/

/-- An increment of an event word; false where its walk or an access fails. A host word takes one FetchAdd where AtomicOps
are enabled, else a read and a write (R311), which is in progress until a free cycle (R312, log 40). -/
def Core.eventAdd (c : Core) (ctx va : Nat) (inc : Word) : Core × Bool :=
  match c.place ctx va true with
  | (none, c) => (c, false)
  | (some l, c) =>
    let atomics := l.tgt = 1 ∧ c.hostAdmits ctx ∧ c.host.atomicOps.getD (c.ctx ctx).fn false
    if atomics then
      let f := hostBase + l.addr
      ((c.writeShared f (c.row f + inc) allOnes 4 0 0 none).send (.fetchAdd l.addr inc), true)
    else
      match c.readAt ctx l va with
      | (some x, c) =>
        let v := x + inc
        let c := if l.tgt = 2 then
            -- the same operation reads what it has written
            { c with cpWords := c.cpWords.map fun (y : CpWord) => if some y.op = c.cpOp ∧ y.addr = l.addr ∧ y.val.isSome then { y with val := some (some v) } else y }
          else c
        let c := if l.tgt = 1 then
            let (t, c) := c.freeWait
            c.sched (c.now + t) bHost 0 (.eventWritten l.addr v)
          else c
        c.globalWrite ctx 0 l va (natBytes 8 v.toNat) 4 0 0 none false
      | (_, c) => (c, false)
/-- An event word reaches a value (R404): none where it cannot be read. -/
def Core.eventReached (c : Core) (ctx va : Nat) (value : Word) : Option Bool × Core :=
  let (x, c) := c.readWord ctx va
  (x.map fun x => decide (value.toNat ≤ x.toNat), c)
/-- The interval to the next look at an event word: at most 1 µs (R404). -/
def Core.pollWait (c : Core) : Nat × Core :=
  (1 + Config.freeDelay c.freeCtr % Config.usUnits, { c with freeCtr := c.freeCtr + 1 })
/-- Wall-clock units of a stage of at most so many ns, less the longest cycle, in which the stage is met (R417). -/
def Core.stage (c : Core) (ns : Nat) : Nat × Core :=
  (1 + Config.freeDelay c.freeCtr % (ns * Config.usUnits / 1000 - Config.cycleUnits 4), { c with freeCtr := c.freeCtr + 1 })

end Sys2Proof.Machine
end

