-- ==== Sys2Proof/Machine/Place.lean ====
section
/-! DEFINITION. Placement of launches (R413, R415), initialisation of their sectors (R12, R414) and their start (R416). -/
namespace Sys2Proof.Machine

/-! ## Blocks (R413) -/

/-- The sectors of a block from its first one. -/
def blockSectors (W H : Nat) (pairs : Bool) (base : Nat) : List Nat :=
  let here := (List.range H).flatMap fun y => (List.range W).map fun x => base + 10 * y + x
  if pairs then here ++ here.map partner else here
/-- Candidate positions, by y, then by x, Deck A before Deck B. -/
def positions (W H : Nat) (pairs : Bool) : List Nat :=
  (List.range (if pairs then 1 else 2)).flatMap fun d => (List.range (9 - H)).flatMap fun y =>
    (List.range (11 - W)).map fun x => 80 * d + 10 * y + x
/-- The position of block i, after block i − 1 at `prev`. -/
def pickBlock (free : Nat → Bool) (W H : Nat) (pairs : Bool) (i : Nat) (prev : Option Nat) : Option Nat :=
  let fits (b : Nat) : Bool := (blockSectors W H pairs b).all free
  let ps := positions W H pairs
  let paired := prev.bind fun b => if i % 2 = 1 ∧ fits (partner b) then some (partner b) else none
  let beside := ps.find? fun b => fits b && ((blockSectors W H false b).map partner).all fun s => !free s
  paired.orElse fun _ => beside.orElse fun _ => ps.find? fits
/-- The positions of n blocks, from block i upward; none where one finds no position. -/
def placeBlocks (free : Nat → Bool) (W H : Nat) (pairs : Bool) : Nat → Nat → Option Nat → List Nat → Option (List Nat)
  | 0, _, _, _ => some []
  | n + 1, i, prev, taken =>
    match pickBlock (fun s => free s && !taken.contains s) W H pairs i prev with
    | none => none
    | some b => (placeBlocks free W H pairs n (i + 1) (some b) (taken ++ blockSectors W H pairs b)).map (b :: ·)
/-- The sector was freed for another launch than this one, which still waits for its place (R422; log 63). -/
def Core.heldBack (c : Core) (n : Nat) (x : Sector) : Bool :=
  match x.heldFor with
  | none => false
  | some m => m != n && (match c.launch? m with
    | some l => l.sectors.isEmpty && !l.ended && c.serves l.queue
    | none => false)
/-- A sector that belongs to no context, or that the given launches would give up, for a launch (R402, R413). -/
def Core.sectorFree (c : Core) (n wps : Nat) (freed : List Nat) (s : Nat) : Bool :=
  let x := c.sector s
  !c.heldBack n x && (x.owner.isNone || (match x.launch with | some n => freed.contains n && !x.kept | none => false)) && c.sectorUsable wps s
/-- Sectors of a launch in the order of its blocks. -/
def launchSectors (r : List Word) (bases : List Nat) : List Nat := bases.flatMap (blockSectors (recW r) (recH r) (recPairs r))
/-- The launches that hold sectors, without the given ones. -/
def Core.holding (c : Core) (freed : List Nat) : Map Launch := c.launches.filter fun p => !p.2.sectors.isEmpty && !p.2.ended && !freed.contains p.1
/-- Admission (R415). -/
def Core.admitsLaunch (c : Core) (ctx : Nat) (r : List Word) (secs freed : List Nat) : Bool :=
  let held := (List.range Config.sectorCount).filter fun s => (c.sector s).owner == some ctx &&
    !(match (c.sector s).launch with | some n => freed.contains n | none => false)
  let deckSum (d : Nat) : Nat := (c.holding freed).foldl (fun acc p =>
    acc + recDu p.2.record * (p.2.sectors.filter fun s => s / 80 == d).length) 0
  held.length + secs.length ≤ c.secMax ctx && secs.all (fun s => recDu r ≤ (c.sector s).budget) &&
  (List.range 2).all fun d => deckSum d + recDu r * (secs.filter fun s => s / 80 == d).length ≤ Config.deckCeiling
/-- Where a launch's record would be placed now, once the given launches have given up their sectors: its blocks' positions. -/
def Core.findPlace (c : Core) (n ctx : Nat) (r : List Word) (freed : List Nat) : Option (List Nat) :=
  match placeBlocks (c.sectorFree n (recWps r) freed) (recW r) (recH r) (recPairs r) (recCount r) 0 none [] with
  | none => none
  | some bases => if c.admitsLaunch ctx r (launchSectors r bases) freed then some bases else none

/-! ## Level coordinates (R11, R12, R385, R459) -/

/-- Distinct values in the order of their first occurrence. -/
def distinct (xs : List Nat) : List Nat := xs.foldl (fun l x => if l.contains x then l else l ++ [x]) []
/-- The domain unit of a level that a weave lies in; a redundant pair is one logical weave. -/
def domainOf (redun : Bool) (l w : Nat) : Nat :=
  match l with
  | 2 => if redun then w / 2 else w
  | 3 => w / 4
  | 4 => w / 4 % 80
  | 5 => w / 4 / 80
  | _ => 0
/-- The unit of a present level, of multiple m, that a weave lies in: units never reach beyond a unit of the next larger domain, so
weaves are counted within their sector, and two sectors are those of a pair (R11). -/
def levelUnit (redun : Bool) (ws : List Nat) (l m w : Nat) : Nat :=
  let rank (d : Nat) : Nat := (distinct (ws.map (domainOf redun d))).findIdx (· == domainOf redun d w)
  if l < 2 then 0
  else if l = 2 then 4 * rank 3 + w % 4 / (if redun then 2 else 1) / m
  else if l = 3 ∧ m = 2 then rank 4
  else rank l / m
/-- INDEX and EXTENT of a level at a weave. -/
def Core.levelCoord (c : Core) (ctx : Nat) (r : List Word) (ws : List Nat) (l w : Nat) : Word :=
  match recLevel r l with
  | none => 0
  | some m =>
    let redun := recRedun r
    let next := ((List.range 8).filter fun k => l < k && (recLevel r k).isSome).head?
    let nm := (next.bind (recLevel r)).getD 1
    -- the launch's weaves in the weave's unit of the next present level above
    let same := match next with
      | some k => if k < 2 ∨ 6 ≤ k then ws else ws.filter fun v => levelUnit redun ws k nm v == levelUnit redun ws k nm w
      | none => ws
    let logical := distinct (same.map (domainOf redun 2))
    let at_ := logical.findIdx (· == domainOf redun 2 w)
    let (index, extent) :=
      match l with
      | 0 => match next with
        | some 1 => (0, 16 * nm / m)
        | _ => (at_ * (128 / m), logical.length * (128 / m))
      | 1 => (at_ * (8 / m), logical.length * (8 / m))
      | 6 => if next = some 7 then (c.groupRank ctx, (c.groupSize ctx).getD 1) else (0, 1)
      | 7 => (c.groupRank ctx, (c.groupSize ctx).getD 1)
      | _ =>
        let us := distinct (same.map (levelUnit redun ws l m))
        (us.findIdx (· == levelUnit redun ws l m w), us.length)
    word (index % 2 ^ 32 + extent * 2 ^ 32)

/-! ## Initialisation (R414) -/

/-- A handle of an image in the layout of R317, without cached translations. -/
def handleOf (x y : Word) : Handle :=
  { Handle.reset with base := x.setWidth 56, len := y.setWidth 56, valid := bitAt x.toNat 56, r := bitAt x.toNat 57, w := bitAt x.toNat 58 }
def handlesOf (ws : List Word) : List Handle := (List.range 16).map fun i => handleOf (ws.getD (2 * i) 0) (ws.getD (2 * i + 1) 0)
/-- The words of an image to rows from a flat address. -/
def Core.loadRows (c : Core) (flat : Nat) : List Word → Core
  | [] => c
  | x :: xs => (c.writeRow flat x allOnes none).loadRows (flat + 8) xs
/-- The same to rows that weaves share, at module scope. -/
def Core.loadShared! (c : Core) (flat : Nat) : List Word → Core
  | [] => c
  | x :: xs => (c.writeShared flat x allOnes 4 0 0 none).loadShared! (flat + 8) xs
/-- The program image into a bank of a weave; the bank keeps its syllables beyond the image. -/
def Core.loadProgram (c : Core) (w : Nat) (bank : Bool) (r : List Word) (prog : List Word) : Core :=
  let n := recLength r
  let c := c.loadRows (bankFlat w bank 0) (prog.take (n / 2))
  if n % 2 = 0 then c else c.writeRow (bankFlat w bank (n - 1)) (prog.getD (n / 2) 0) (word 0xFFFFFFFF) none
/-- The descriptors of a tensor-table image; entries from TCNT upward have V = 0. -/
def tensorTable (ws : List Word) : Map (List Word) :=
  (List.range (ws.length / 8)).map fun i => (i, (ws.drop (8 * i)).take 8)
/-- Steps 1, 2 and 4 on a sector. `halves` are the half images still to load. -/
def Core.initSector (c : Core) (sec : Nat) (im : Images) (halves : Nat) : Core :=
  let c := c.modSec sec fun x => { x with
    sems := [], unarrived := [], thandles := tensorTable im.tensors }
  let c := if bitAt halves 0 then c.loadShared! (storeFlat sec 0) im.halfA else c
  if bitAt halves 1 then c.loadShared! (storeFlat sec 0x1E0000) im.halfB else c
/-- MODE of a weave (R41). -/
def modeOf (r : List Word) (w : Nat) : Word := word ((recNat r 1 &&& 0xF00B) + if recRedun r ∧ w % 2 = 1 then 16 else 0)
/-- The scalar registers: SREGS, then ARG0 to ARG7 in s16 to s23. -/
def sregsOf (r : List Word) (im : Images) : List Word :=
  (List.range 32).map fun i => if i = 0 then 0 else if 16 ≤ i ∧ i < 24 then r.getD (14 + i) 0 else im.sregs.getD i 0
/-- Steps 3 to 7 on a weave of a launch: `bank` is the bank that is active afterwards. -/
def Core.initWeave (c : Core) (n : Nat) (l : Launch) (im : Images) (bank : Bool) (w : Nat) : Core :=
  let r := l.record
  let old := c.weave w
  let c := allLanes.foldl (fun c lane =>
    (im.loc.zip (List.range im.loc.length)).foldl (fun c (x, i) =>
      c.writeRow (c.localFlat w lane (8 * i) (List.replicate 16 false)) x allOnes none) c) c
  let c := c.setW w { Weave.reset with
    s := sregsOf r im
    handles := handlesOf im.handles
    fmt := (List.range 64).map fun i => BitVec.ofNat 32 ((im.fmts.getD (i / 2) 0).toNat / 2 ^ (32 * (i % 2)))
    bank := bank
    mode := modeOf r w
    pc := BitVec.ofNat 14 (recEntry r)
    tvec := word (recNat r 6)
    uevec := word (recNat r 7)
    fmtsel := word (recNat r 8)
    chkmask := BitVec.ofNat 32 (lowestEight (recNat r 9))
    ueframe := word (recNat r 10)
    locbase := word (recNat r 11)
    secbase := word (recNat r 12)
    pairbase := word (recNat r 13)
    errinj := mget c.host.inject w 0
    coords := (List.range 8).map fun k => c.levelCoord l.ctx r l.weaves k w
    launch := some n
    dbg := { Debug.reset with dsel := old.dbg.dsel } }
  c.modHost fun h => { h with inject := mdel h.inject w }
/-- A launch takes its sectors, whose slip registers the placement clears (R362). -/
def Core.takeSectors (c : Core) (n : Nat) (bases : List Nat) : Core :=
  match c.launch? n with
  | none => c
  | some l =>
    let r := l.record
    let secs := launchSectors r bases
    let c := c.modL n fun l => { l with
      sectors := secs
      blocks := bases
      weaves := secs.flatMap fun s => (List.range (recWps r)).map fun i => 4 * s + i
      pairs := recPairs r
      timed := recTimed r
      halves := recHalves r
      started := none
      halted := []
      parked := []
      ready := []
      bounds := []
      preempting := none
      yields := none }
    let c := secs.foldl (fun c s => c.modSec s fun x => { x with
      owner := some l.ctx, launch := some n, heldFor := none, slipCount := 0, slipTick := 0 }) c
    c.claimTests secs (secs.flatMap fun s => (List.range (recWps r)).map fun i => 4 * s + i)
/-- Initialisation of every sector of a launch (R414). `keep` leaves the program that is active; `loaded` are the halves whose
image a preload has written, and tells that the program stands in the standby bank. -/
def Core.initLaunch (c : Core) (n : Nat) (im : Images) (keep : Bool) (loaded : Option Nat) : Core :=
  let c := c.modL n fun l => { l with regions := im.dbuf.map dbufOf, bars := [] }
  match c.launch? n with
  | none => c
  | some l =>
    let todo := recHalves l.record &&& (3 ^^^ loaded.getD 0)
    let c := l.sectors.foldl (fun c s => c.initSector s im todo) c
    let c := l.weaves.foldl (fun c w =>
      let bank := (c.weave w).bank
      let c := if keep || loaded.isSome then c else c.loadProgram w (!bank) l.record im.prog
      c.initWeave n l im (if keep then bank else !bank) w) c
    c.claimBanks l.sectors
/-- Each sector is initialised after the stages of R417, and where images are read after a time without a fixed bound. -/
def Core.schedReady (c : Core) (n : Nat) (images : Bool) : Core :=
  match c.launch? n with
  | none => c
  | some l => l.sectors.foldl (fun c s =>
      let (t, c) := c.stage (if l.timed then 280 else 380)
      let (m, c) := if images then c.freeWait else (0, c)
      c.schedWall (t + m * c.cycleLen) bCp s (.launchReady n s)) c
/-- Images that a launch reads beyond the tables (R417). -/
def readsImages (r : List Word) (loaded : Option Nat) : Bool :=
  loaded.isNone || recNat r 21 != 0 || (recNat r 23 != 0 && !bitAt (loaded.getD 0) 0) || (recNat r 25 != 0 && !bitAt (loaded.getD 0) 1) || 256 < recNat r 17

/-! ## Start (R416) -/

/-- A weave is to issue its first bundle at a cycle. -/
def Core.startWeave (c : Core) (n w at_ : Nat) : Core :=
  let saved := ((c.launch? n).map fun l => l.starts.getD (l.weaves.findIdx (· == w)) 0).getD 0
  let c := c.modW w fun x => { x with
    running := true
    fixedAt := some at_
    startCycle := saved
    texp := if x.timed then at_ / Config.tickCycles else 0
    clockSafe := if x.timed then some (at_ / Config.tickCycles) else none }
  let c := c.startRefresh w
  if (c.weave w).partner? then c else c.schedIssue w at_
/-- The launch runs from a cycle on: its run time counts, and looks for its preload and its victims are due. -/
def Core.markStarted (c : Core) (n at_ : Nat) : Core :=
  match c.launch? n with
  | none => c
  | some l =>
    if l.started.isSome then c
    else
      let wall := c.wall + (at_ - c.now) * c.cycleLen
      let c := c.modL n fun l => { l with started := some at_, startTick := at_ / Config.tickCycles, startedWall := wall }
      let limit := recNat l.record 26 * Config.usUnits
      let c := if l.overrun ∨ limit = 0 then c
        else c.schedWall (limit - l.ran + (wall - c.wall)) bCp n (.tlimitOverrun n)
      let c := if recPre l.record then c.schedWall (Config.msUnits + (wall - c.wall)) bCp n .dispatch else c
      c.sched c.now bCp l.queue (.preload l.queue)
/-- LAUNCH_START (R416): the sectors that are initialised start their sequencers; a timed launch waits for all of them and
for the next tick. -/
def execLaunchStart (n : Nat) (s : State) : Out :=
  .next (s.modC fun c =>
    match c.launch? n with
    | none => c
    | some l =>
      if l.ready.isEmpty || l.ended then c
      else if l.timed then
        if l.sectors.all l.ready.contains then
          let at_ := (c.tick + 1) * Config.tickCycles + 128
          let c := (c.modL n fun l => { l with ready := [] }).markStarted n at_
          (l.weaves.filter fun w => !l.halted.contains w).foldl (fun c w => c.startWeave n w at_) c
        else c
      else
        let c := (c.modL n fun l => { l with ready := [] }).markStarted n c.now
        (l.weaves.filter fun w => l.ready.contains (secOf w) && !l.halted.contains w).foldl (fun c w => c.startWeave n w c.now) c)
/-- A sector of a launch is initialised, once the banks that it claims are free (R357). -/
def Core.launchReady (c : Core) (n sec : Nat) : Core :=
  match c.launch? n with
  | none => c
  | some _ =>
    if c.claiming [sec] then c.sched (c.now + 1) bCp sec (.launchReady n sec)
    else (c.modL n fun l => { l with ready := insertNat l.ready sec }).sched c.now bCp n (.launchStart n)

end Sys2Proof.Machine
end

