-- ==== Sys2Proof/Machine/Graph.lean ====
section
/-! DEFINITION. Graphs (R424 to R428): descriptors, readiness, node completion, copy, fill and event nodes, predicates. Kernel
nodes start in Machine/Cp.lean. -/
namespace Sys2Proof.Machine

/-! ## Descriptors (R424, R425) -/

/-- Word k of node i. -/
def nodeWord (ns : List (List Word)) (i k : Nat) : Nat := ((ns.getD i []).getD k 0).toNat
def nodeKind (ns : List (List Word)) (i : Nat) : Nat := nodeWord ns i 0 % 16
def nodePreds (ns : List (List Word)) (i : Nat) : List Nat :=
  ([1, 2, 3].map fun k => nodeWord ns i 0 / 256 ^ k % 256).filter (· != 255)
def nodeLast (ns : List (List Word)) (i : Nat) : Nat := bits (nodeWord ns i 0) 39 32
def nodeTest (ns : List (List Word)) (i : Nat) : Bool := bitAt (nodeWord ns i 0) 40
def nodeArg (ns : List (List Word)) (i : Nat) : Nat := bits (nodeWord ns i 0) 63 48
def nodeRegion (ns : List (List Word)) (i : Nat) : Bool := nodeKind ns i == 6 || nodeKind ns i == 7
/-- Node k lies in the body of node b. -/
def inBody (ns : List (List Word)) (b k : Nat) : Bool := nodeRegion ns b && decide (b < k) && k ≤ nodeLast ns b
/-- The bodies that hold a node, outermost first. -/
def bodiesOf (ns : List (List Word)) (k : Nat) : List Nat := (List.range k).filter fun b => inBody ns b k
/-- The node whose body holds a node directly. -/
def enclosing (ns : List (List Word)) (k : Nat) : Option Nat := (bodiesOf ns k).getLast?
/-- The nodes that a body holds directly. -/
def childrenOf (ns : List (List Word)) (b : Nat) : List Nat :=
  (List.range ns.length).filter fun k => enclosing ns k == some b
/-- The fields of a node that its kind uses; all others are 0. -/
def nodeFieldsOk (ns : List (List Word)) (i : Nat) : Bool :=
  let w := nodeWord ns i
  let zero (ks : List Nat) : Bool := ks.all fun k => w k == 0
  bits (w 0) 7 4 == 0 && bits (w 0) 47 41 == 0 && (nodeRegion ns i || nodeLast ns i == 0) &&
  (match nodeKind ns i with
    | 1 => nodeArg ns i ≤ 4095 && zero [1, 2, 3]
    | 2 | 3 => nodeArg ns i == 0 && w 3 % 8 == 0
    | 4 | 5 => nodeArg ns i == 0 && zero [3]
    | 6 => nodeArg ns i == 0 && zero [2, 3]
    | 7 => nodeArg ns i != 0 && zero [2, 3]
    | _ => false)
/-- The node keeps R425. -/
def nodeOk (ns : List (List Word)) (i : Nat) : Bool :=
  let bodies := bodiesOf ns i
  nodeFieldsOk ns i && (!nodeRegion ns i || nodeLast ns i < ns.length) &&
  (nodePreds ns i).all (fun p => decide (p < i) && bodies.all (fun b => p == b || inBody ns b p) &&
    (bodiesOf ns p).all fun b => bodies.contains b) &&
  (!nodeRegion ns i || bodies.all fun b => nodeLast ns i ≤ nodeLast ns b) && (!nodeRegion ns i || bodies.length < 4)
/-- The descriptor keeps R424 and R425. -/
def graphOk (header : Word) (ns : List (List Word)) : Bool :=
  header.toNat == ns.length && 1 ≤ ns.length && ns.length ≤ 256 && (List.range ns.length).all (nodeOk ns)

/-! ## States of a run -/

def Core.graph? (c : Core) (g : Nat) : Option GraphRun := mget? c.graphs g
def Core.modG (c : Core) (g : Nat) (f : GraphRun → GraphRun) : Core :=
  match mget? c.graphs g with
  | some x => { c with graphs := mset c.graphs g (f x) }
  | none => c
def GraphRun.st (x : GraphRun) (i : Nat) : Nat := mget x.states i 0
def Core.setNode (c : Core) (g i st : Nat) : Core := c.modG g fun x => { x with states := mset x.states i st }
/-- The node is ready (R427). -/
def GraphRun.isReady (x : GraphRun) (i : Nat) : Bool :=
  let b := enclosing x.nodes i
  x.failed.isNone && x.st i == 0 && (match b with | none => true | some b => x.st b == 2) &&
  (nodePreds x.nodes i).all fun p => x.st p == 3 || some p == b
/-- Ready nodes are offered to dispatch (R427). -/
def Core.offer (c : Core) (g : Nat) : Core :=
  (c.modG g fun x => { x with states := (List.range x.nodes.length).foldl (fun st i => if x.isReady i then mset st i 1 else st) x.states }).wantDispatch
/-- The graph of a queue whose node of a kind is in a state: the earliest. -/
def Core.graphAt (c : Core) (q node kind st : Nat) : Option Nat :=
  (c.graphs.find? fun (_, x) => x.queue == q && decide (node < x.nodes.length) && nodeKind x.nodes node == kind && x.st node == st).map (·.1)
def Core.ctxOfQueue (c : Core) (q : Nat) : Nat := (c.queue q).ctx
/-- STATUS of a graph (R424). -/
def GraphRun.status (x : GraphRun) (done : Bool) : Word :=
  word (bnat done + bnat x.loopMax * 2 + bnat x.failed.isSome * 4 + x.failed.getD 0 * 2 ^ 8 + x.lastIters * 2 ^ 32)
/-- Write STATUS. -/
def Core.putStatus (c : Core) (g : Nat) (done : Bool) : Core :=
  match c.graph? g with
  | none => c
  | some x => (c.writeWord (c.ctxOfQueue x.queue) (x.va + 8) (x.status done)).2
/-- The command of a graph that has completed, or has failed and has no running node, is gone. -/
def Core.endGraph (c : Core) (g : Nat) : Core :=
  match c.graph? g with
  | none => c
  | some x => { c with graphs := mdel c.graphs g }.finishCommand x.queue x.cmd
/-- Nothing of a failed graph runs any more. -/
def Core.settleGraph (c : Core) (g : Nat) : Core :=
  match c.graph? g with
  | none => c
  | some x =>
    if x.failed.isSome && !((List.range x.nodes.length).any fun i => x.st i == 2 && !nodeRegion x.nodes i) then c.endGraph g else c
/-- A node has completed: what it completes with it, up to the graph (R427). The number bounds the nesting. -/
def Core.nodeDone (c : Core) (g : Nat) : Nat → Nat → Core
  | 0, _ => c
  | n + 1, i =>
    let c := c.setNode g i 3
    match c.graph? g with
    | none => c
    | some x =>
      if x.failed.isSome then c.settleGraph g
      else match enclosing x.nodes i with
        | some b =>
          if (childrenOf x.nodes b).all fun k => x.st k == 3 then
            if nodeKind x.nodes b = 6 then c.nodeDone g n b
            else (c.offer g).sched c.now bCp x.queue (.loopPredicateRead x.queue b)
          else c.offer g
        | none =>
          if (List.range x.nodes.length).all fun k => (enclosing x.nodes k).isSome || x.st k == 3 then
            c.sched c.now bCp x.queue (.graphCompletion x.queue)
          else c.offer g
def Core.completeNode (c : Core) (g i : Nat) : Core := c.nodeDone g 6 i
/-- The graph fails at a node (R426 to R428): no node starts; running ones are let finish. -/
def Core.failGraph (c : Core) (g i : Nat) : Core :=
  match c.graph? g with
  | none => c
  | some x =>
    let c := if x.failed.isSome then c else (c.modG g fun x => { x with failed := some i }).putStatus g false
    (c.setNode g i 3).settleGraph g
/-- The same for a walk or a read that fails: its queue halts with ERR 0x07 (log 20). -/
def Core.failNode (c : Core) (g i : Nat) : Core :=
  match c.graph? g with
  | none => c
  | some x => (c.refuse x.queue 7 x.num true).failGraph g i
/-- GRAPH_COMPLETION (R427): DONE is written, then the command completes. -/
def execGraphCompletion (q : Nat) (s : State) : Out :=
  .next (s.modC fun c =>
    match c.graphs.find? fun (_, x) => x.queue == q && x.failed.isNone &&
        (List.range x.nodes.length).all fun k => (enclosing x.nodes k).isSome || x.st k == 3 with
    | none => c
    | some (g, _) => (c.putStatus g true).endGraph g)

/-! ## Regions (R427) -/

/-- The body of a region node begins. -/
def Core.beginBody (c : Core) (g b : Nat) : Core :=
  match c.graph? g with
  | none => c
  | some x =>
    let inner := (List.range x.nodes.length).filter (inBody x.nodes b)
    let c := c.modG g fun x => { x with
      states := mset (inner.foldl (fun st k => mset st k 0) x.states) b 2
      copied := inner.foldl mdel x.copied
      launches := inner.foldl mdel x.launches
      iters := (inner.filter fun k => nodeKind x.nodes k == 7).foldl mdel x.iters }
    if inner.isEmpty then
      if nodeKind x.nodes b = 6 then c.completeNode g b else c.sched c.now bCp x.queue (.loopPredicateRead x.queue b)
    else c.offer g
/-- The predicate word of a region node. -/
def Core.predicate (c : Core) (g b : Nat) : Option Bool × Core :=
  match c.graph? g with
  | none => (none, c)
  | some x =>
    let (p, c) := c.readWord (c.ctxOfQueue x.queue) (nodeWord x.nodes b 1)
    (p.map (· != 0), c)
/-- The predicate word of a region node that is offered: none while a peer module is asked for it. -/
def Core.firstPredicate (c : Core) (g b : Nat) : Option (Option Bool) × Core :=
  c.withPeer (.headFetched (((c.graph? g).map (·.queue)).getD 0) g (b + 1)) fun c => c.predicate g b
/-- CONDITIONAL_NODE (R427). -/
def Core.beginConditional (c : Core) (g b : Nat) : Core :=
  match c.firstPredicate g b with
  | (none, c) => c
  | (some none, c) => c.failNode g b
  | (some (some true), c) => c.beginBody g b
  | (some (some false), c) => c.completeNode g b
/-- A loop node has completed after so many iterations: STATUS takes their number (R424). -/
def Core.endLoop (c : Core) (g b iters : Nat) (capped : Bool) : Core :=
  ((c.modG g fun x => { x with lastIters := iters, loopMax := x.loopMax || capped }).putStatus g false).completeNode g b
/-- LOOP_NODE (R427): with TEST the predicate is read before the first iteration. -/
def Core.beginLoop (c : Core) (g b : Nat) : Core :=
  match c.graph? g with
  | none => c
  | some x =>
    let c := c.modG g fun x => { x with iters := mdel x.iters b }
    if !nodeTest x.nodes b then c.beginBody g b
    else match c.firstPredicate g b with
      | (none, c) => c
      | (some none, c) => c.failNode g b
      | (some (some true), c) => c.beginBody g b
      | (some (some false), c) => c.endLoop g b 0 false
/-- LOOP_PREDICATE_READ (R427): after an iteration. -/
def execLoopPredicateRead (q node : Nat) (s : State) : Out :=
  .next (s.modC fun c =>
    match c.graphAt q node 7 2 with
    | none => c
    | some g => match c.graph? g with
      | none => c
      | some x =>
        if x.failed.isSome || !((childrenOf x.nodes node).all fun k => x.st k == 3) then c
        else
          let n := mget x.iters node 0 + 1
          let done (c : Core) : Core := c.modG g fun x => { x with iters := mset x.iters node n }
          match c.withPeer (.loopPredicateRead q node) fun c => c.predicate g node with
          | (none, c) => c
          | (some none, c) => (done c).failNode g node
          | (some (some false), c) => (done c).endLoop g node n false
          | (some (some true), c) => if n < nodeArg x.nodes node then (done c).beginBody g node else (done c).endLoop g node n true)

/-! ## Copy, fill and event nodes (R426) -/

/-- The translations of a range: none where a page does not walk. -/
def Core.rangeWalks (c : Core) (ctx va len : Nat) (r w : Bool) : Option (List PageTr) × Core :=
  if len = 0 then (some [], c)
  else match c.walkHandle ctx (word va) (word len) r w with
    | (.ok ps, c) => (some ps, c)
    | (.error _, c) => (none, c)
/-- A node's next request, after a free time. -/
def Core.schedNode (c : Core) (g i : Nat) : Core :=
  let (t, c) := c.freeWait
  c.sched (c.now + t) bHost g (.nodeStep g i)
/-- COPY_NODE and FILL_NODE: the addresses are walked at the node's start. -/
def Core.beginTransfer (c : Core) (g i : Nat) : Core :=
  match c.graph? g with
  | none => c
  | some x =>
    let ctx := c.ctxOfQueue x.queue
    let w := nodeWord x.nodes i
    let (src, c) := if nodeKind x.nodes i = 2 then c.rangeWalks ctx (w 1) (w 3) true false else (some [], c)
    match src with
    | none => c.failNode g i
    | some src => match c.rangeWalks ctx (if nodeKind x.nodes i = 2 then w 2 else w 1) (w 3) false true with
      | (none, c) => c.failNode g i
      | (some dst, c) => ((c.modG g fun x => { x with pages := mset x.pages i (src, dst) }).setNode g i 2).schedNode g i
/-- Bytes of a request at an offset of a transfer: up to the next 64-byte boundary of the destination, and of a source
that it copies. -/
def requestBytes (dst src off len : Nat) : Nat := min (len - off) (min (64 - (dst + off) % 64) (64 - (src + off) % 64))
/-- Bytes arrive for a transfer's request: they are written at module scope when they apply. A write that is denied or discarded
fails the node (log 20). -/
def Core.putTransfer (c : Core) (g i : Nat) (dst : Nat) (bs : List Nat) : Core :=
  match c.graph? g with
  | none => c
  | some x =>
    match findPage (mget x.pages i ([], [])).2 dst with
    | none => c.failNode g i
    | some p =>
      match c.globalWrite (c.ctxOfQueue x.queue) 0 (p.loc dst) dst bs 4 0 0 none false with
      | (c, false) => c.failNode g i
      | (c, true) => (c.modG g fun x => { x with copied := mset x.copied i (mget x.copied i 0 + bs.length) }).schedNode g i
/-- One 64-byte request of a copy or fill node, or a look or the addition of an event node. -/
def Core.nodeStep (c : Core) (g i : Nat) : Core :=
  match c.graph? g with
  | none => c
  | some x =>
    if x.st i ≠ 2 then c
    else
      let ctx := c.ctxOfQueue x.queue
      let w := nodeWord x.nodes i
      let off := mget x.copied i 0
      match nodeKind x.nodes i with
      | 2 =>
        if w 3 ≤ off then c.completeNode g i
        else
          let n := requestBytes (w 2) (w 1) off (w 3)
          match findPage (mget x.pages i ([], [])).1 (w 1 + off) with
          | none => c.failNode g i
          | some p =>
            let l := p.loc (w 1 + off)
            match c.globalRead ctx l (w 1 + off) n Core.memByte none with
            | (.bytes bs, c) => c.putTransfer g i (w 2 + off) bs
            | (.failed, c) => c.failNode g i
            | (.peer, c) =>
              let (c, ok) := c.askPeer (.graphCopy x.queue i) ctx 0 l.addr (w 1 + off) (ceilDiv n 8)
              if ok then c else (c.logEntry 0xFFFFFFFF 10 0 (c.tagOf ctx) (word l.addr) (word (w 1 + off))).failNode g i
      | 3 =>
        if w 3 ≤ off then c.completeNode g i
        else
          let n := requestBytes (w 1) (w 1) off (w 3)
          c.putTransfer g i (w 1 + off) ((List.range n).map fun k => w 2 / 256 ^ ((off + k) % 8) % 256)
      | 4 =>
        match c.withPeer (.nodeStep g i) fun c => c.eventReached ctx (w 1) (word (w 2)) with
        | (none, c) => c
        | (some none, c) => c.failNode g i
        | (some (some true), c) => c.completeNode g i
        | (some (some false), c) =>
          let (t, c) := c.pollWait
          c.schedWall t bCp g (.nodeStep g i)
      | 5 =>
        -- the write raises the queue's source (R440)
        match c.withPeer (.nodeStep g i) fun c => (c.eventAdd ctx (w 1) (word (w 2))).swap with
        | (none, c) => c
        | (some true, c) => (c.raiseSource (66 + x.queue)).completeNode g i
        | (some false, c) => c.failNode g i
      | _ => c
/-- EVENT_WAIT_NODE. -/
def Core.beginWaitNode (c : Core) (g i : Nat) : Core := (c.setNode g i 2).nodeStep g i
/-- EVENT_SIGNAL_NODE. -/
def Core.beginSignalNode (c : Core) (g i : Nat) : Core := (c.setNode g i 2).nodeStep g i
/-- A node that dispatch serves, but for kernel nodes. -/
def Core.beginNode (c : Core) (g i : Nat) : Core :=
  match c.graph? g with
  | none => c
  | some x =>
    match nodeKind x.nodes i with
    | 2 | 3 => c.beginTransfer g i
    | 4 => c.beginWaitNode g i
    | 5 => c.beginSignalNode g i
    | 6 => c.beginConditional g i
    | 7 => c.beginLoop g i
    | _ => c
/-- A row of the table that names a node: it acts on the earliest graph that offers it. -/
def Core.nodeRow (c : Core) (q node kind : Nat) (f : Core → Nat → Core) : Core :=
  match c.graphAt q node kind 1 with
  | some g => f c g
  | none => c
/-- COPY_NODE (R426). -/
def execCopyNode (q node : Nat) (s : State) : Out := .next (s.modC fun c => c.nodeRow q node 2 fun c g => c.beginTransfer g node)
/-- FILL_NODE (R426). -/
def execFillNode (q node : Nat) (s : State) : Out := .next (s.modC fun c => c.nodeRow q node 3 fun c g => c.beginTransfer g node)
/-- EVENT_WAIT_NODE (R426). -/
def execEventWaitNode (q node : Nat) (s : State) : Out := .next (s.modC fun c => c.nodeRow q node 4 fun c g => c.beginWaitNode g node)
/-- EVENT_SIGNAL_NODE (R426). -/
def execEventSignalNode (q node : Nat) (s : State) : Out := .next (s.modC fun c => c.nodeRow q node 5 fun c g => c.beginSignalNode g node)
/-- CONDITIONAL_NODE (R427). -/
def execConditionalNode (q node : Nat) (s : State) : Out := .next (s.modC fun c => c.nodeRow q node 6 fun c g => c.beginConditional g node)
/-- LOOP_NODE (R427). -/
def execLoopNode (q node : Nat) (s : State) : Out := .next (s.modC fun c => c.nodeRow q node 7 fun c g => c.beginLoop g node)

/-- GRAPH begins (R404, R411, R424): the table entry, then the descriptor, its walk and read before its contents. -/
def Core.beginGraph (c : Core) (q idx num : Nat) : Core :=
  let ctx := c.ctxOfQueue q
  let bad (c : Core) (err : Nat) : Core := (c.refuse q err num true).finishCommand q idx
  let table := ((c.ctx ctx).words.getD 3 0).toNat
  if 255 < num then bad c 8
  else match c.readWord ctx (table + 8 * num) with
    | (none, c) => bad c 7
    | (some va, c) =>
      if va = 0 then bad c 8
      else match c.readWord ctx va.toNat with
        | (none, c) => bad c 7
        | (some h, c) =>
          let n := h.toNat % 512
          match c.readWords ctx (va.toNat + 16) (4 * min n 256) with
          | (none, c) => bad c 7
          | (some ws, c) =>
            let ns := (List.range (min n 256)).map fun i => (ws.drop (4 * i)).take 4
            if !graphOk h ns then bad c 9
            else
              let (g, c) := c.fresh
              let run : GraphRun := ⟨q, idx, num, va.toNat, ns, [], [], [], 0, false, none, [], []⟩
              { c with graphs := mset c.graphs g run }.offer g

end Sys2Proof.Machine
end

