-- ==== Sys2Proof/Machine/Cp.lean ====
section
/-! DEFINITION. The command processor: queues (R403 to R406), dispatch (R405 to R407, R411, R413, R422), completion (R418),
preload (R419, R420), overrun (R420). -/
namespace Sys2Proof.Machine

/-! ## Reading the ring (R403, R404, R439) -/

/-- A queue that may read its next entry does so, within 120 ns (R417). -/
def Core.kickQueue (c : Core) (q : Nat) : Core :=
  let x := c.queue q
  if c.serves q && !x.reading && x.fill != 0 && x.cmds.all (·.began) then
    let (t, c) := c.stage 120
    (c.modQ q fun x => { x with reading := true }).schedWall t bCp q (.queueRead q)
  else c
/-- A ring entry keeps R404. -/
def entryOk (k z : Word) : Bool :=
  let n := k.toNat
  n < 2 ^ 28 && bits n 15 9 == 0 && 1 ≤ n % 256 && n % 256 ≤ 4 && z == 0
/-- The entry at HEAD has been read: it is the queue's head. HEAD moves on when it begins, so that a refused entry is read
again after a restart (log 20). -/
def Core.queueRead (c : Core) (q : Nat) : Core :=
  let c := c.modQ q fun x => { x with reading := false }
  let x := c.queue q
  if !c.serves q || x.fill == 0 || !x.cmds.all (·.began) then c
  else
    let i := x.head
    match c.withPeer (.queueRead q) fun c => c.readWords x.ctx (x.qbase.toNat + 32 * (i % x.ringSize)) 4 with
    | (none, c) => c.modQ q fun x => { x with reading := true }
    | (some (some [k, addr, value, z]), c) =>
      let num := bits k.toNat 27 16
      if !entryOk k z || addr.toNat % 8 != 0 then (c.refuse q 1 num (k.toNat % 256 == 2)).wantDispatch
      else
        let m : Command := ⟨i, k.toNat % 256, bitAt k.toNat 8, num, addr.toNat, value, false, none⟩
        ((c.modQ q fun x => { x with cmds := x.cmds ++ [m] }).sched c.now bCp q (.preload q)).wantDispatch
    | (_, c) => c.refuse q 7 0 false

/-! ## Heads (R405, R406, R422, R427) -/

/-- The heads of a queue in their order: a parked launch stands before the queue's next command. -/
def Core.heads (c : Core) (q : Nat) : List Head :=
  if !c.serves q then []
  else
    let x := c.queue q
    let back := match x.parked.head? with
      | some n => if ((c.launch? n).bind (·.after)).isNone then [.resume n] else []
      | none => []
    let nodes := c.graphs.flatMap fun (g, y) =>
      if y.queue = q ∧ y.failed.isNone then ((List.range y.nodes.length).filter fun i => y.st i == 1).map fun i => .node g i else []
    let next := if x.parked.isEmpty then
        (x.cmds.filter fun m => !m.began && (!m.ord || x.cmds.head? == some m)).map fun m => .cmd m.idx
      else []
    back ++ nodes ++ next
/-- The timers of a queue's heads: one that is new is eligible from here on (R406). -/
def Core.touchQueue (c : Core) (q : Nat) : Core :=
  let hs := c.heads q
  let old := (c.queue q).timers.filter fun p => hs.contains p.1
  let new := hs.filter fun h => old.all fun p => p.1 != h
  let c := c.modQ q fun x => { x with timers := old ++ new.map fun h => (h, c.wall) }
  if new.isEmpty then c else c.schedWall Config.msUnits bCp q (.headPromotion q)
/-- The wall-clock time from which a head has been eligible. -/
def Core.headSince (c : Core) (q : Nat) (h : Head) : Nat :=
  (((c.queue q).timers.find? fun p => p.1 == h).map (·.2)).getD c.wall
/-- Effective priority of a head (R406). -/
def Core.level (c : Core) (q : Nat) (h : Head) : Nat := if c.headSince q h + Config.msUnits ≤ c.wall then 8 else (c.queue q).prio
/-- HEAD_PROMOTION (R406). -/
def execHeadPromotion (q : Nat) (s : State) : Out :=
  .next (s.modC fun c => if (c.heads q).any fun h => c.level q h == 8 then c.wantDispatch else c)
/-- The heads of all queues, by queue. -/
def Core.offers (c : Core) : List (Nat × Head) := c.queues.flatMap fun (q, _) => (c.heads q).map fun h => (q, h)
/-- The head that is served next, of those that are not passed over (R406). -/
def Core.pickHead (c : Core) (passed : List (Nat × Head)) : Option (Nat × Head) :=
  let all := c.offers.filter fun p => !passed.contains p
  let top := all.foldl (fun acc p => max acc (c.level p.1 p.2)) 0
  let best := all.filter fun p => c.level p.1 p.2 == top
  if top = 8 then
    best.foldl (fun (acc : Option (Nat × Head)) p =>
      match acc with
      | some o => if c.headSince p.1 p.2 < c.headSince o.1 o.2 then some p else acc
      | none => some p) none
  else
    let qs := best.map (·.1)
    let last := c.lastServed
    let q := if qs.contains last && decide (0 < (c.queue last).served) && decide ((c.queue last).served < (c.queue last).weight) then some last
      else (qs.find? (last < ·)).orElse fun _ => qs.head?
    q.bind fun q => best.find? fun p => p.1 == q
/-- A queue has been served: its round (R406). -/
def Core.markServed (c : Core) (q : Nat) : Core :=
  let n := if c.lastServed = q ∧ (c.queue q).served < (c.queue q).weight then (c.queue q).served + 1 else 1
  { (c.modQ q fun x => { x with served := n }) with lastServed := q }
/-- OVR of a queue: a launch of it that has passed its TLIMIT is running (R403, R420). -/
def Core.ovr (c : Core) (q : Nat) : Bool :=
  c.launches.any fun (_, l) => l.queue == q && l.overrun && l.started.isSome && !l.ended && l.savedTo.isNone

/-! ## Launches (R408, R411, R413 to R417) -/

/-- A launch of a record whose own fields and images keep R411. -/
def newLaunch (ctx q cmd prio num : Nat) (r : List Word) (node : Option Nat) (event : Nat) (evValue : Word) : Launch where
  ctx := ctx
  queue := q
  cmd := cmd
  prio := prio
  record := r
  sectors := []
  weaves := []
  blocks := []
  pairs := recPairs r
  timed := recTimed r
  started := none
  startTick := 0
  halted := []
  parked := []
  halves := recHalves r
  regions := []
  preempting := none
  savedTo := none
  resumed := false
  bars := []
  bounds := []
  event := event
  evValue := evValue
  fatal := false
  node := node
  overrun := false
  ended := false
  retry := recRetry r
  recNum := num
  startedWall := 0
  ready := []
  starts := []
  pend := []
  energyAt := none
  ran := 0
  savedLen := 0
  after := none
  yields := none
/-- The record is fetched and checked (R408, R411): the launch's number, or the ERR. Its armed entries count as fetched (R142). -/
def Core.fetchLaunch (c : Core) (q cmd num : Nat) (node : Option Nat) (event : Nat) (evValue : Word) : Except Nat Nat × Core :=
  let ctx := c.ctxOfQueue q
  match c.readWords ctx (c.fieldVa ctx num 0) 64 with
  | (none, c) => (.error 7, c)
  | (some r, c) =>
    match c.recordErr ctx r with
    | some e => (.error e, c)
    | none => match c.readImages ctx r with
      | (.error e, c) => (.error e, c)
      | (.ok _, c) =>
        let (n, c) := c.fresh
        let c := if node.isSome then c else c.modQ q fun x => { x with armed := x.armed.filter fun p => p.2 != cmd }
        (.ok n, { c with launches := mset c.launches n (newLaunch ctx q cmd (c.queue q).prio num r node event evValue) })
/-- The launch of a head, fetched now where it has not been: none where it is refused, as the queue's halt records. -/
def Core.headLaunch (c : Core) (q : Nat) (h : Head) : Option Nat × Core :=
  match h with
  | .resume n => (some n, c)
  | .cmd idx =>
    match (c.queue q).cmds.find? fun m => m.idx == idx with
    | none => (none, c)
    | some m =>
      match m.launch with
      | some n => (some n, c)
      | none =>
        match c.fetchLaunch q idx m.num none m.addr m.value with
        | (.error e, c) =>
          let c := c.modQ q fun x => { x with armed := x.armed.filter fun p => p.2 != idx }
          (none, (c.refuse q e m.num false).finishCommand q idx)
        | (.ok n, c) => (some n, c.modQ q fun x => { x with
            cmds := x.cmds.map fun (y : Command) => if y.idx = idx then { y with launch := some n } else y })
  | .node g i =>
    match c.graph? g with
    | none => (none, c)
    | some x =>
      match mget? x.launches i with
      | some n => (some n, c)
      | none =>
        match c.fetchLaunch q g (nodeArg x.nodes i) (some i) 0 0 with
        | (.error e, c) => (none, (c.refuse q e (nodeArg x.nodes i) false).failGraph g i)
        | (.ok n, c) => (some n, c.modG g fun x => { x with launches := mset x.launches i n })
/-- The head has begun. -/
def Core.beginHead (c : Core) (q : Nat) (h : Head) : Core :=
  match h with
  | .cmd idx => c.modQ q fun x => { x with
      head := if idx = x.head then (x.head + 1) % 2 ^ 28 else x.head
      cmds := x.cmds.map fun (m : Command) => if m.idx = idx then { m with began := true } else m }
  | .node g i => c.setNode g i 2
  | .resume n => c.modQ q fun x => { x with parked := x.parked.filter (· != n) }
/-- What a launch's place in its queue is. -/
def Launch.head (l : Launch) (idx : Nat) : Head :=
  match l.node with
  | some i => .node idx i
  | none => .cmd idx
/-- A launch that has sectors is initialised and starts: none while peer modules are asked for images, false where one no longer reads
(R411, R414). -/
def Core.initNow (c : Core) (n : Nat) (keep : Bool) (loaded : Option Nat) : Option Bool × Core :=
  match c.launch? n with
  | none => (some false, c)
  | some l =>
    match c.withPeer (.launchInit n keep loaded) fun c => c.readImages l.ctx l.record with
    | (none, c) => (none, c)
    | (some (.error _), c) => (some false, c)
    | (some (.ok im), c) => (some true, (c.initLaunch n im keep loaded).schedReady n (readsImages l.record loaded))
/-- The sectors of a launch are free of it, and of its weaves' leases; where it gave way to a blocked launch they are kept for that one
(R422; log 63). -/
def Core.leaveSectors (c : Core) (n : Nat) : Core :=
  match c.launch? n with
  | none => c
  | some l =>
    let c := l.weaves.foldl (fun c w => (c.endLeases w false).modW w fun x => { x with running := false, parked := false, launch := none }) c
    let held := l.yields
    let c := { c with gzNet := c.gzNet.filter fun m => !(l.weaves.contains m.src || l.weaves.contains m.dst) }
    l.sectors.foldl (fun c s => c.modSec s fun x => { x with
      launch := none, owner := if x.preloaded.isSome then x.owner else none, heldFor := held }) c
/-- Held writes to a context's Damask table apply once no launch of it runs (R363). -/
def Core.applyDamask (c : Core) (ctx : Nat) : Core :=
  if c.launches.any fun (_, l) => l.ctx == ctx && l.started.isSome && !l.ended && l.savedTo.isNone then c
  else c.modCtx ctx fun x => { x with damask := x.damPend.foldl (fun d p => d.set p.1 p.2) x.damask, damPend := [] }
/-- A launch is refused at placement or as its preload starts; an overrun launch that it was to follow may go on (R420). -/
def Core.refuseLaunch (c : Core) (n err : Nat) : Core :=
  match c.launch? n with
  | none => c
  | some l =>
    let c := (c.leaveSectors n).refuse l.queue err l.recNum false
    let c := { c with launches := (mdel c.launches n).map fun ((m, x) : Nat × Launch) => (m, if x.after = some n then { x with after := none } else x) }
    match l.node with
    | some i => c.failGraph l.cmd i
    | none => c.finishCommand l.queue l.cmd
/-- Place a launch that is not parked: false where it is blocked (R407, R413, R415). A priority is kept from here on (R423). -/
def Core.placeNow (c : Core) (q n : Nat) (h : Head) : Core × Bool :=
  match c.launch? n with
  | none => (c, false)
  | some l =>
    match c.findPlace n l.ctx l.record [] with
    | none => (c, false)
    | some bases =>
      let c := c.modL n fun l => { l with prio := (c.queue q).prio }
      match (c.takeSectors n bases).initNow n false none with
      | (some false, c) => (c.refuseLaunch n 7, true)
      | (_, c) => (c.beginHead q h, true)
/-- Place a parked launch; its state is restored next (R333). -/
def Core.replaceNow (c : Core) (q n : Nat) : Core × Bool :=
  match c.launch? n with
  | none => (c, false)
  | some l =>
    match c.findPlace n l.ctx l.record [] with
    | none => (c, false)
    | some bases =>
      let halted := l.halted.map fun w => l.weaves.findIdx (· == w)
      let old := l.weaves
      let c := (c.beginHead q (.resume n)).takeSectors n bases
      let c := c.modL n fun l => { l with halted := halted.map fun i => l.weaves.getD i 0, parked := old }
      let (t, c) := c.stage 200
      (c.schedWall t bCp n (.launchResume n), true)

/-- The halves of a preloaded launch that stand already. -/
def preloadedHalves (run next : Launch) : Nat := if recHalves next.record + run.halves = 3 then recHalves next.record else 0
/-- The preload on a launch's former sectors begins on them (R419, R420). -/
def Core.startPreload (c : Core) (run : Launch) (m : Nat) : Core :=
  match c.launch? m with
  | none => c
  | some next =>
    let idx := next.cmd
    let c := run.sectors.foldl (fun c s => c.modSec s fun x => { x with preloaded := none }) c
    let c := (c.beginHead next.queue (next.head idx)).modL m fun l => { l with prio := (c.queue next.queue).prio }
    match (c.takeSectors m run.blocks).initNow m false (some (preloadedHalves run next)) with
    | (some false, c) => (c.refuseLaunch m 7).wantDispatch
    | (_, c) => c.wantDispatch
/-- A preloaded launch is admitted on the sectors of the launch that leaves them (R415). -/
def Core.admitsPreload (c : Core) (n : Nat) (run : Launch) (m : Nat) : Bool :=
  match c.launch? m with
  | none => false
  | some x => c.admitsLaunch x.ctx x.record run.sectors [n]

/-! ## Pre-emption for a blocked launch (R422) -/

/-- Running launches that may be pre-empted for a queue priority. -/
def Core.victims (c : Core) (prio : Nat) : Map Launch :=
  c.launches.filter fun p => p.2.started.isSome && !p.2.ended && p.2.preempting.isNone && p.2.savedTo.isNone && recPre p.2.record &&
    decide ((c.queue p.2.queue).prio < prio) && decide (p.2.startedWall + Config.msUnits ≤ c.wall)
/-- The next victim: lowest priority, then youngest start. -/
def Core.nextVictim (c : Core) (vs : Map Launch) : Option (Nat × Launch) :=
  vs.foldl (fun (acc : Option (Nat × Launch)) p =>
    match acc with
    | none => some p
    | some q =>
      let a := (c.queue p.2.queue).prio
      let b := (c.queue q.2.queue).prio
      if a < b ∨ (a = b ∧ q.2.startedWall < p.2.startedWall) then some p else acc) none
/-- A set of victims that makes room for a launch: none where there is none. -/
def Core.victimSet (c : Core) (b ctx : Nat) (r : List Word) : Nat → Map Launch → List Nat → Option (List Nat)
  | 0, _, _ => none
  | n + 1, vs, chosen =>
    if (c.findPlace b ctx r chosen).isSome then some chosen
    else match c.nextVictim vs with
      | none => none
      | some v => c.victimSet b ctx r n (vs.filter fun p => p.1 != v.1) (chosen ++ [v.1])
/-- A blocked launch asks for pre-emption: launches that are already landing count as chosen. What the others leave is kept for it. -/
def Core.makeRoom (c : Core) (n : Nat) : Core :=
  match c.launch? n with
  | none => c
  | some l =>
    let landing := (c.launches.filter fun p => p.2.preempting.isSome && !p.2.ended && p.2.savedTo.isNone).map (·.1)
    match c.victimSet n l.ctx l.record (c.launches.length + 1) (c.victims (c.queue l.queue).prio) landing with
    | none => c
    | some vs => (vs.filter fun v => !landing.contains v).foldl (fun c v => (c.evictLaunch v).modL v fun x => { x with yields := some n }) c

/-! ## Commands (R404) -/

/-- What a head's reads of peer pages are held under. -/
def Head.fetch (q : Nat) : Head → Act
  | .resume n => .headFetched q n 0
  | .node g i => .headFetched q g (i + 1)
  | .cmd idx => .headFetched q idx 0
/-- LAUNCH, a kernel node, or a parked launch: served, or blocked. `hold` forbids placing (R407). -/
def Core.tryLaunch (c : Core) (q : Nat) (h : Head) (hold : Bool) : Core × Bool :=
  match c.withPeer (h.fetch q) fun c => c.headLaunch q h with
  | (none, c) => (c, false)
  | (some none, c) => (c, true)
  | (some (some n), c) =>
    -- a preloaded launch waits for the launch that runs on its sectors, but for one that has ended in an error (R420)
    if c.sectors.any fun p => p.2.preloaded == some n then
      match c.launches.find? fun p => p.2.ended && p.2.fatal && c.preloadOn p.2 == some n with
      | some (dead, run) =>
        if !c.admitsPreload dead run n then (c, false)
        else
        let c := run.sectors.foldl (fun c s => c.modSec s fun x => { x with kept := false }) c
        let c := c.startPreload run n
        ({ c with launches := mdel c.launches dead }, true)
      | none => (c, false)
    else
      let (c', ok) := if hold then (c, false) else match h with
        | .resume _ => c.replaceNow q n
        | _ => c.placeNow q n h
      if ok then (c', true) else (c.makeRoom n, false)
/-- WAIT: complete, or looked at again (R404). -/
def Core.pollWaitCmd (c : Core) (q idx : Nat) : Core :=
  match (c.queue q).cmds.find? fun m => m.idx == idx && m.kind == 3 && m.began with
  | none => c
  | some m =>
    match c.withPeer (.eventWordPoll q idx) fun c => c.eventReached (c.ctxOfQueue q) m.addr m.value with
    | (none, c) => c
    | (some none, c) => (c.refuse q 7 m.num false).finishCommand q idx
    | (some (some true), c) => c.finishCommand q idx
    | (some (some false), c) =>
      let (t, c) := c.pollWait
      c.schedWall t bCp q (.eventWordPoll q idx)
/-- SIGNAL (R404). -/
def Core.signalCmd (c : Core) (q idx : Nat) : Core :=
  match (c.queue q).cmds.find? fun m => m.idx == idx && m.kind == 4 && m.began with
  | none => c
  | some m =>
    match c.withPeer (.signalCmd q idx) fun c => (c.eventAdd (c.ctxOfQueue q) m.addr m.value).swap with
    | (none, c) => c
    | (some ok, c) => (if ok then c else c.refuse q 7 m.num false).finishCommand q idx
/-- Serve a head: false where it is blocked. -/
def Core.serveHead (c : Core) (q : Nat) (h : Head) (hold : Bool) : Core × Bool :=
  match h with
  | .resume _ => c.tryLaunch q h hold
  | .node g i =>
    match c.graph? g with
    | none => (c, false)
    | some x =>
      if nodeKind x.nodes i = 1 then c.tryLaunch q h hold
      else
        let c := c.beginNode g i
        -- a region node that waits for its predicate word is still offered
        (c, (c.heads q).all (· != h))
  | .cmd idx =>
    match (c.queue q).cmds.find? fun m => m.idx == idx with
    | none => (c, false)
    | some m =>
      match m.kind with
      | 1 => c.tryLaunch q h hold
      | 2 =>
        match c.withPeer (h.fetch q) fun c => ((), c.beginGraph q idx m.num) with
        | (none, c) => (c, false)
        | (some _, c) => (if (c.queue q).cmds.any fun y => y.idx == idx then c.beginHead q h else c, true)
      | 3 => ((c.beginHead q h).pollWaitCmd q idx, true)
      | _ => ((c.beginHead q h).signalCmd q idx, true)
/-- One dispatch decision (R406, R407): blocked heads are passed over; one at priority 8 lets no other launch be placed. -/
def Core.dispatchOne (c : Core) : Nat → List (Nat × Head) → Bool → Core × Bool
  | 0, _, _ => (c, false)
  | n + 1, passed, hold =>
    match c.pickHead passed with
    | none => (c, false)
    | some (q, h) =>
      let top := c.level q h == 8
      match c.serveHead q h hold with
      | (c, true) => (c.markServed q, true)
      | (c, false) => c.dispatchOne n (passed ++ [(q, h)]) (hold || top)
/-- Queues read on, and the timers of their heads run. -/
def Core.tendQueues (c : Core) : Core :=
  c.queues.foldl (fun c (q, _) => (c.kickQueue q).touchQueue q) c
/-- DISPATCH (R406). -/
def execDispatch (s : State) : Out :=
  .next (s.modC fun c =>
    let c := c.tendQueues
    match c.dispatchOne (c.offers.length + 1) [] false with
    | (c, true) => c.tendQueues.wantDispatch
    | (c, false) => c)

/-- A command of the table's row stands in its queue and begins (R404). -/
def Core.putCommand (c : Core) (q kind num : Nat) (ord : Bool) (addr value : Word) : Core × Nat :=
  match (c.queue q).cmds.find? fun m => !m.began && m.kind == kind && m.num == num && m.ord == ord && m.addr == addr.toNat && m.value == value with
  | some m => (c, m.idx)
  | none =>
    let (id, c) := c.fresh
    let idx := 2 ^ 28 + id
    let m : Command := ⟨idx, kind, ord, num, addr.toNat, value, false, none⟩
    (c.modQ q fun x => { x with cmds := x.cmds ++ [m] }, idx)
/-- The row of a command: it stands as its queue's head and is served, or waits there blocked. -/
def Core.runCommand (c : Core) (q kind num : Nat) (ord : Bool) (addr value : Word) : Core :=
  let (c, idx) := c.putCommand q kind num ord addr value
  if (c.heads q).contains (.cmd idx) then (c.serveHead q (.cmd idx) false).1.tendQueues else c.tendQueues
/-- LAUNCH (R404). -/
def execLaunch (q : Nat) (num : BitVec 12) (ord : Bool) (addr value : Word) (s : State) : Out :=
  .next (s.modC fun c => c.runCommand q 1 num.toNat ord addr value)
/-- GRAPH (R404, R424). -/
def execGraph (q : Nat) (num : BitVec 12) (ord : Bool) (addr value : Word) (s : State) : Out :=
  .next (s.modC fun c => c.runCommand q 2 num.toNat ord addr value)
/-- WAIT (R404). -/
def execWait (q : Nat) (num : BitVec 12) (ord : Bool) (addr value : Word) (s : State) : Out :=
  .next (s.modC fun c => c.runCommand q 3 num.toNat ord addr value)
/-- SIGNAL (R404). -/
def execSignal (q : Nat) (num : BitVec 12) (ord : Bool) (addr value : Word) (s : State) : Out :=
  .next (s.modC fun c => c.runCommand q 4 num.toNat ord addr value)
/-- EVENT_WORD_POLL (R404). -/
def execEventWordPoll (q cmd : Nat) (s : State) : Out := .next (s.modC fun c => c.pollWaitCmd q cmd)
/-- KERNEL_NODE (R426). -/
def execKernelNode (q node : Nat) (s : State) : Out :=
  .next (s.modC fun c => c.nodeRow q node 1 fun c g => (c.tryLaunch q (.node g node) false).1)

/-! ## Preload (R419) -/

/-- What may be preloaded behind a running launch of the queue: the next command, or the kernel nodes whose only predecessor the
running launch is. -/
def Core.preloadHeads (c : Core) (l : Launch) : List Head :=
  match l.node with
  | some i =>
    match c.graph? l.cmd with
    | none => []
    | some x =>
      if x.failed.isSome then []
      else ((List.range x.nodes.length).filter fun k => nodeKind x.nodes k == 1 && x.st k == 0 && nodePreds x.nodes k == [i] &&
        enclosing x.nodes k == enclosing x.nodes i).map fun k => .node l.cmd k
  | none =>
    match (c.queue l.queue).cmds.dropWhile fun m => m.idx != l.cmd with
    | _ :: m :: _ => if m.kind = 1 ∧ m.ord ∧ !m.began then [.cmd m.idx] else []
    | _ => []
/-- The record number of a head. -/
def Core.headRecord (c : Core) (q : Nat) : Head → Nat
  | .cmd idx => (((c.queue q).cmds.find? fun m => m.idx == idx).map (·.num)).getD 0
  | .node g i => ((c.graph? g).map fun x => nodeArg x.nodes i).getD 0
  | .resume _ => 0
/-- A launch's program into the standby banks, and the half image that the running launch leaves room for. -/
def Core.loadPreload (c : Core) (run : Launch) (m : Nat) (next : Launch) (im : Images) : Core :=
  let c := run.weaves.foldl (fun c w => c.loadProgram w (!(c.weave w).bank) next.record im.prog) c
  let half := recHalves next.record
  let c := run.sectors.foldl (fun c s =>
    let c := c.modSec s fun x => { x with preloaded := some m }
    if half + run.halves = 3 then
      if half = 1 then c.loadShared! (storeFlat s 0) im.halfA else c.loadShared! (storeFlat s 0x1E0000) im.halfB
    else c) c
  c.modL m fun l => { l with pairs := run.pairs }
/-- The first of some heads that is to be preloaded on a running launch's sectors: of its shape, and admitted there (R415, R419). -/
def Core.tryPreload (c : Core) (q n : Nat) (l : Launch) : List Head → Core
  | [] => c
  | h :: hs =>
    match c.readWords l.ctx (c.fieldVa l.ctx (c.headRecord q h) 0) 64 with
    | (none, c) => c.tryPreload q n l hs
    | (some r, c) =>
      if !sameShape r l.record || (c.recordErr l.ctx r).isSome || !c.admitsLaunch l.ctx r l.sectors [n] then c.tryPreload q n l hs
      else match c.readImages l.ctx r with
        | (.error _, c) => c.tryPreload q n l hs
        | (.ok im, c) =>
          match c.headLaunch q h with
          | (some m, c) => match c.launch? m with
            | some next => if next.sectors.isEmpty && m != n then c.loadPreload l m next im else c.tryPreload q n l hs
            | none => c
          | (none, c) => c
/-- The preloads of a queue's running launches. -/
def Core.preloadQueue (c : Core) (q : Nat) : Core :=
  c.launches.foldl (fun c (n, l) =>
    if l.queue ≠ q ∨ l.started.isNone ∨ l.ended ∨ l.savedTo.isSome ∨ l.preempting.isSome ∨ (c.preloadOn l).isSome ∨ !c.serves q then c
    else c.tryPreload q n l (c.preloadHeads l)) c
/-- PRELOAD (R419): the next launch behind the running launches of a queue. A record that is not to be preloaded stays as its
head, fetched or not; its checks are those of its dispatch. -/
def execPreload (q : Nat) (s : State) : Out :=
  .next (s.modC fun c => (c.withPeer (.preload q) fun c => ((), c.preloadQueue q)).2)
/-! ## Completion (R418) -/

/-- A launch has left: what waited on it goes on. -/
def Core.afterLaunch (c : Core) (n : Nat) : Core :=
  let c := { c with launches := (mdel c.launches n).map fun ((m, x) : Nat × Launch) => (m, if x.after = some n then { x with after := none } else x) }
  c.wantDispatch
/-- Every job that a launch launched has completed, and no repeat of it is still issuing. -/
def Core.jobsDone (c : Core) (n : Nat) (l : Launch) : Bool :=
  l.sectors.all (fun s => (c.sectorJobs s).all fun j => j.launch != n) &&
  l.weaves.all fun w => (c.weave w).ports.all fun p => p.rep.isNone
/-- A preload may begin: a command once every earlier one but the launch it stands behind is complete (R405, R420), a
kernel node once it is ready (R427), or behind an overrun of its only predecessor (R428). -/
def Core.preloadReady (c : Core) (run : Launch) (m : Nat) : Bool :=
  match c.launch? m with
  | none => false
  | some x => match x.node with
    | none => ((c.queue x.queue).cmds.takeWhile fun y => y.idx != x.cmd).all fun y => y.idx == run.cmd
    | some i => match c.graph? x.cmd with
      | some g => g.failed.isNone && (g.st i == 1 || (run.overrun && g.st i == 0 && some (nodePreds g.nodes i) == run.node.map fun j => [j]))
      | none => false
/-- The sectors that a preload held go free, and it is fetched again when it is dispatched. -/
def Core.forgoPreload (c : Core) (l : Launch) (m : Nat) : Core :=
  (l.sectors.foldl (fun c s => c.modSec s fun x => { x with owner := none }) c).dropPreload m
/-- An event word of a completion; the write raises the queue's source (R440). -/
def Core.completionEvent (c : Core) (l : Launch) (va : Nat) (inc : Word) : Core :=
  if va = 0 then c
  else match c.eventAdd l.ctx va inc with
    | (c, true) => c.raiseSource (66 + l.queue)
    | (c, false) => c
/-- LAUNCH_COMPLETION (R418): event words, the command, the sectors, the preload; for a parked launch the save (R332). -/
def execLaunchCompletion (n : Nat) (s : State) : Out :=
  .next (s.modC fun c =>
    match c.launch? n with
    | none => c
    | some l =>
      if l.ended ∨ l.started.isNone ∨ l.savedTo.isSome ∨ !(l.weaves.all fun w => l.halted.contains w || l.parked.contains w) ∨ !c.jobsDone n l then c
      else if !l.parked.isEmpty then c.sched c.now bCp n (.preemptSave n)
      else match c.withPeer (.launchCompletion n) fun c =>
          ((), (c.completionEvent l (recNat l.record 27) (word (recNat l.record 28))).completionEvent l l.event l.evValue) with
      | (none, c) => c
      | (some _, c) =>
        let c := l.sectors.foldl (fun c s => c.bankPassed n s) c
        let next := c.preloadOn l
        let admitted := next.any (c.admitsPreload n l)
        let c := c.modL n fun l => { l with ended := true }
        let c := c.unsched fun a => a == .tlimitOverrun n || a == .preemptLandingTimeout n
        let c := c.leaveSectors n
        let c := l.weaves.foldl (fun c w => c.remapCells w) c
        let c := (c.afterLaunch n).applyDamask l.ctx
        let c := match l.node with
          | some i => c.completeNode l.cmd i
          | none => c.finishCommand l.queue l.cmd
        match next with
        | some m =>
          if admitted && c.preloadReady l m && c.serves l.queue then c.startPreload l m else c.forgoPreload l m
        | none => c)
/-- TLIMIT_OVERRUN (R420). -/
def execTlimitOverrun (n : Nat) (s : State) : Out :=
  .next (s.modC fun c =>
    match c.launch? n with
    | none => c
    | some l =>
      if l.started.isNone ∨ l.ended then c
      else
        let c := c.modL n fun l => { l with overrun := true }
        if recPre l.record then c.requestPreempt n else c)

end Sys2Proof.Machine
end

