-- ==== Sys2Proof/Machine/Preempt.lean ====
section
/-! DEFINITION. Fatal context errors and retries (R322, R401, R411, R420, R421); the save area, the save of a pre-empted launch and
its resume (R331 to R333). -/
namespace Sys2Proof.Machine

/-! ## Fatal context errors (R322, R401, R411) -/

/-- Launches that hold sectors of a context. -/
def Core.liveOf (c : Core) (ctx : Nat) : Map Launch := c.launches.filter fun p => p.2.ctx == ctx && !p.2.sectors.isEmpty && !p.2.ended
/-- A launch that died keeps its sectors for the host (R322); its command is gone, and a graph that it is a node of fails. -/
def Core.buryLaunch (c : Core) (n : Nat) (l : Launch) : Core :=
  -- banks whose move waits for a boundary of the launch wait no more (R351, R357)
  let c := l.sectors.foldl (fun c s => c.bankPassed n s) c
  let c := c.modL n fun l => { l with ended := true, fatal := true }
  let c := { c with launches := c.launches.map fun ((m, x) : Nat × Launch) => (m, if x.after = some n then { x with after := none } else x) }
  let c := l.weaves.foldl (fun c w => c.modW w fun x => { x with launch := none, parked := false }) c
  let c := l.sectors.foldl (fun c s => c.modSec s fun x => { x with kept := true }) c
  match l.node with
  | some i => c.failGraph l.cmd i
  | none => c.finishCommand l.queue l.cmd
/-- A fatal context error of a context: its fault record, its launches, its queues (R322, R401, R411). Parked launches and launches
without sectors stay as they are. -/
def Core.contextFatal (c : Core) (ctx : Nat) (record : List Word) : Core :=
  let num := (record.getD 5 0).toNat % 4096
  let live := c.liveOf ctx
  let c := (c.stopContext ctx).faultRecord ctx record
  let c := live.foldl (fun c p => c.buryLaunch p.1 p.2) c
  let c := { c with launches := c.launches.map fun ((m, x) : Nat × Launch) => (m, if x.ended then x else { x with fatal := false }) }
  let qs := (List.range 128).filter fun q => (c.queue q).ctx == ctx
  ((qs.foldl (fun c q => c.haltQueue q 0x10 num) c).applyDamask ctx).wantDispatch
/-- The record number field of a launch's fault record. -/
def launchNum (l : Launch) : Word := word l.recNum
/-- The fault record of the trap frame that a weave has written. -/
def Core.frameRecord (c : Core) (w : Nat) (l : Launch) : List Word :=
  let frame := storeFlat (secOf w) (sysOff w)
  [(c.weave w).tcause, (c.weave w).epc, word w, c.row (frame + 152), c.row (frame + 160), launchNum l]
/-- A retry (R421): the launch's weaves stop, and steps 1 to 7 of R414 are repeated on its sectors with the images as they stand.
None where an image can no longer be read. -/
def Core.retryLaunch (c : Core) (n : Nat) (l : Launch) (bankFailed : Bool) (record : List Word) : Option Core :=
  match c.withPeer (.launchInit n (!bankFailed) none) fun c => c.readImages l.ctx l.record with
  | (some (.error _), _) => none
  | (im, c) =>
    let c := l.weaves.foldl (fun c w => c.stopWeave w) c
    let c := { c with gzNet := c.gzNet.filter fun m => !(l.weaves.contains m.src || l.weaves.contains m.dst) }
    let c := c.unsched fun a =>
      match a with
      | .launchCompletion m => m == n | .preemptLandingTimeout m => m == n | .tlimitOverrun m => m == n
      | .collectiveBoundaryCompletion m _ _ => m == n | .barrierCompletion m _ _ _ => m == n
      | .launchStart m => m == n | .launchReady m _ => m == n | .preemptSave m => m == n
      | _ => false
    let c := c.faultRecord l.ctx record
    let c := if bankFailed then c.dropPreloadOf n else c
    let c := c.modL n fun l => { l with
      retry := l.retry - 1
      started := none
      halted := []
      parked := []
      ready := []
      bounds := []
      preempting := none
      resumed := false
      overrun := false
      starts := []
      ran := 0 }
    match im with
    | some (.ok im) => some ((c.initLaunch n im (!bankFailed) none).schedReady n true)
    | _ => some c
/-- The images of a launch that has its sectors have come from peer modules; where one cannot be read, the launch is refused. -/
def Core.launchInit (c : Core) (n : Nat) (keep : Bool) (loaded : Option Nat) : Core :=
  match c.launch? n with
  | none => c
  | some l =>
    if l.ended || l.started.isSome || l.sectors.isEmpty then c
    else match c.initNow n keep loaded with
      | (some false, c) => (c.refuseLaunch n 7).wantDispatch
      | (_, c) => c
/-- FATAL_CONTEXT_ERROR (R322, R421): raised by a weave that has written its trap frame. -/
def execFatalContextError (w : Nat) (s : State) : Out :=
  .next (s.modC fun c =>
    match (c.weave w).launch, c.launchOf w with
    | some n, some l =>
      if l.ended then c
      else
        let frame := storeFlat (secOf w) (sysOff w)
        let c := c.settleRows fun r => r == frame + 152 || r == frame + 160
        let record := c.frameRecord w l
        let cause := (c.weave w).tcause.toNat % 256
        let bankFailed := cause == 0x0B && (record.getD 3 0).toNat % 256 == 3
        let again := if (cause = 0x0B ∨ cause = 0x16) ∧ 0 < l.retry then c.retryLaunch n l bankFailed record else none
        again.getD (c.contextFatal l.ctx record)
    | _, _ => c)
/-- PREEMPT as a fatal error of a launch (R313, R332): reason, entry, weave where one is named. -/
def Core.preemptFatal (c : Core) (l : Launch) (reason entry : Nat) (w : Option Nat) : Core :=
  let weave : Word := match w with
    | some w => word w
    | none => allOnes
  let epc : Word := match w with
    | some w => (c.weave w).epc
    | none => 0
  c.contextFatal l.ctx [word (0x12 + 0xFF00), epc, weave, word (2 ^ 63 + reason * 2 ^ 56 + entry), 0, launchNum l]
/-- HOST_SECTOR_RELEASE (R322, R402, R420): the kept sectors of a context are free, and what is preloaded on them is discarded. -/
def execHostSectorRelease (ctx : Nat) (s : State) : Out :=
  .next (s.modC fun c =>
    let dead := c.launches.filter fun p => p.2.ctx == ctx && p.2.ended && p.2.fatal
    let c := dead.foldl (fun c p => c.dropPreloadOf p.1) c
    let c := { c with
      sectors := c.sectors.map fun ((s, x) : Nat × Sector) =>
        (s, if x.owner = some ctx ∧ x.kept then { x with owner := none, launch := none, kept := false } else x)
      launches := c.launches.filter fun p => !(p.2.ctx == ctx && p.2.ended && p.2.fatal) }
    c.wantDispatch)
/-! ## The save list (R331) -/

/-- The entries of a weave's save list, as pairs of words; `get` reads a row of its system area. -/
def saveEntries (get : Nat → Word) : List (Word × Word) :=
  (List.range ((get 0x8000).toNat % 256)).map fun i => (get (0x8008 + 16 * i), get (0x8010 + 16 * i))
/-- A row of a weave's system area. -/
def Core.sysRow (c : Core) (w off : Nat) : Word := c.row (storeFlat (secOf w) (sysOff w + off))
/-- An entry is well formed: the range lies in the windows of a weave, or the handle names a tensor. -/
def Core.saveOk (c : Core) (w : Nat) (e : Word × Word) : Bool :=
  let y := e.2.toNat
  if bitAt y 63 then e.1 == 0 && bits y 62 12 == 0 && c.tOk (secOf w) (c.tEntry (secOf w) (y % 4096))
  else y < 2 ^ 32 && y % 8 == 0 && omFields e.1 && decide (omSp e.1 < 2) && (c.omReach w e.1 y).isNone
/-- The flat rows of an entry. -/
def Core.saveRows (c : Core) (w : Nat) (e : Word × Word) : List Nat :=
  let y := e.2.toNat
  if bitAt y 63 then c.tRegion (secOf w) (c.tEntry (secOf w) (y % 4096))
  else (List.range (y / 8)).map fun r => c.omRow w (c.weave w).place e.1 r
/-- The first malformed entry of the parked weaves' lists: weave and entry. -/
def Core.badEntry (c : Core) (ws : List Nat) : Option (Nat × Nat) :=
  ws.findSome? fun w =>
    let es := saveEntries (c.sysRow w)
    ((List.range es.length).find? fun i => !c.saveOk w (es.getD i (0, 0))).map fun i => (w, i)

/-! ## The save area (R332; log 21) -/

/-- A semaphore as one word: COUNT, AB at bit 32, OV at bit 33. -/
def savedSem (x : Sem) : Word := word (x.count + bnat x.ab * 2 ^ 32 + bnat x.ov * 2 ^ 33)
def semOf (x : Word) : Sem := { Sem.reset with count := x.toNat % 2 ^ 32, ab := bitAt x.toNat 32, ov := bitAt x.toNat 33 }
/-- The rows that the save of a launch reads: of its system areas, and of the ranges of the parked weaves' lists. -/
def Launch.systemRows (l : Launch) : List Nat :=
  l.weaves.flatMap fun w => (List.range 8192).map fun i => storeFlat (secOf w) (sysOff w + 8 * i)
def Core.savedRows (c : Core) (l : Launch) : List Nat :=
  l.systemRows ++
  (l.weaves.filter l.parked.contains).flatMap fun w => (saveEntries (c.sysRow w)).flatMap fun e => c.saveRows w e
/-- The words of a launch in the save area, in the order: system areas, semaphores, barrier instances, ranges. The CP itself
keeps what a barrier's word does not hold. -/
def Core.saveWords (c : Core) (l : Launch) : List Word :=
  let sys := l.weaves.flatMap fun w => (List.range 8192).map fun i => c.sysRow w (8 * i)
  let sems := l.sectors.flatMap fun s => (List.range 256).map fun i => savedSem (c.sem s i)
  let bars := (List.range 64).map fun b => match (l.bar b).insts.head? with
    | some (_, x) => word (x.e % 65536 + x.a % 65536 * 2 ^ 16 + bnat x.gen * 2 ^ 32 + (l.bar b).scope * 2 ^ 40)
    | none => 0
  let ranges := (l.weaves.filter l.parked.contains).flatMap fun w => (saveEntries (c.sysRow w)).flatMap fun e => (c.saveRows w e).map c.row
  sys ++ (sems ++ (bars ++ ranges))
/-- Where the next launch of a context is saved: behind those that are parked. -/
def Core.saveBase (c : Core) (ctx : Nat) : Nat :=
  c.launches.foldl (fun acc p => match p.2.savedTo with
    | some a => if p.2.ctx = ctx then max acc (a + p.2.savedLen) else acc
    | none => acc) ((c.ctx ctx).words.getD 4 0).toNat
/-- The launch is parked: its sectors are free, and a preload behind an overrun begins (R420, R422). -/
def Core.parkLaunch (c : Core) (n : Nat) (l : Launch) (va len : Nat) : Core :=
  let c := l.sectors.foldl (fun c s => c.bankPassed n s) c
  let next := if l.overrun then c.preloadOn l else none
  let ready := next.any fun m => c.preloadReady l m && c.admitsPreload n l m
  let starts := l.weaves.map fun w => (c.weave w).startCycle
  let pend := l.weaves.map fun w => ((c.weave w).events, (c.weave w).throttle, (c.weave w).passed)
  let c := c.unsched fun a => a == .tlimitOverrun n || a == .preemptLandingTimeout n
  let c := c.leaveSectors n
  let c := c.modL n fun l => { l with
    sectors := []
    started := none
    preempting := none
    savedTo := some va
    savedLen := len
    starts := starts
    pend := pend
    ran := l.ran + (c.wall - l.startedWall)
    after := if ready then next else none }
  let c := c.modQ l.queue fun q => { q with parked := q.parked ++ [n] }
  let c := l.weaves.foldl (fun c w => c.remapCells w) c
  let c := c.applyDamask l.ctx
  match next with
  | some m =>
    if ready then c.startPreload l m
    else (c.forgoPreload l m).wantDispatch
  | none => c.wantDispatch
/-- PREEMPT_SAVE (R332), once the launch's messages in the network are through (R216). -/
def execPreemptSave (n : Nat) (s : State) : Out :=
  .next (s.modC fun c =>
    match c.launch? n with
    | none => c
    | some l =>
      if l.ended ∨ l.parked.isEmpty ∨ l.savedTo.isSome ∨ !(l.weaves.all fun w => l.halted.contains w || l.parked.contains w) ∨ !c.jobsDone n l ∨ c.gauzeMoving l.weaves then c
      else
        -- the command processor reads the system areas, with the save lists, then the listed ranges (R372, R375)
        let system := l.systemRows
        let c := c.settleRows system.contains
        match c.badEntry l.parked with
        | some (w, i) => c.preemptFatal l 1 i (some w)
        | none =>
          let ranges := (c.savedRows l).filter fun r => !system.contains r
          let c := c.settleRows ranges.contains
          let words := c.saveWords l
          let va := c.saveBase l.ctx
          let room := (((c.ctx l.ctx).words.getD 4 0).toNat + ((c.ctx l.ctx).words.getD 5 0).toNat - va) / 8
          match c.writeWords l.ctx va (words.take room) with
          | (true, c) => if words.length ≤ room then c.parkLaunch n l va (8 * words.length) else c.preemptFatal l 3 0 none
          | (false, c) => c.preemptFatal l 3 0 none)
/-- PREEMPT_LANDING_TIMEOUT (R332): 10 ms after the request, a sequencer has not landed. -/
def execPreemptLandingTimeout (n : Nat) (s : State) : Out :=
  .next (s.modC fun c =>
    match c.launch? n with
    | none => c
    | some l =>
      if l.ended ∨ l.preempting.isNone ∨ l.savedTo.isSome then c
      else if l.weaves.any fun w => !l.halted.contains w && (c.weave w).preempt then c.preemptFatal l 2 0 none
      else c)

/-! ## Resume (R333) -/

/-- The number that takes a weave's place, or a unit's place, after a new placement. -/
def renamed (old new : List Nat) (x : Nat) : Nat := new.getD (old.findIdx (· == x)) x
def renameAll (old new : List Nat) (xs : List Nat) : List Nat := (xs.map (renamed old new)).foldl insertNat []
/-- A barrier whose instances move to the new placement. -/
def Barrier.moved (b : Barrier) (old new : List Nat) : Barrier :=
  let key (w : Nat) : Nat := barKey b.scope (unitOf b.scope w)
  { b with insts := b.insts.foldl (fun (m : Map BarInst) (k, x) =>
      mset m (renamed (old.map key) (new.map key) k) { x with
        arrived := renameAll old new x.arrived
        viaBarr := renameAll old new x.viaBarr
        dropped := renameAll old new x.dropped }) [] }
/-- Registers that the resume leaves open (log 7): s1 to s31, v and k. -/
def Core.openRegs (c : Core) (w : Nat) : Core :=
  let f (i : Nat) : Word := Config.freeWord (c.freeCtr + i)
  let c' := c.modW w fun x => { x with
    s := 0 :: (List.range 31).map f
    v := (List.range 4096).map fun i => (i, f (31 + i))
    k := (List.range 896).map fun i => (128 + i, f (4127 + i) &&& 1)
    slipctr := f 5023 }
  { c' with freeCtr := c.freeCtr + 5024 }
/-- Rows written back to where an entry's range lies now. -/
def Core.restoreRows (c : Core) (rows : List Nat) (ws : List Word) : Core :=
  (rows.zip ws).foldl (fun c (a, x) =>
    if storeBase ≤ a ∧ a < towerBase then c.writeShared a x allOnes 4 0 0 none else c.writeRow a x allOnes none) c
/-- The saved ranges of the parked weaves, from the words of the save area. -/
def Core.restoreRanges (c : Core) (ws : List Word) : List (Nat × Word × Word) → Core
  | [] => c
  | (w, e) :: rest =>
    let rows := c.saveRows w e
    (c.restoreRows rows ws).restoreRanges (ws.drop rows.length) rest
/-- A weave's sequencer before its resume routine (R333 steps 3 to 6). -/
def Core.resumeRegs (c : Core) (w : Nat) (l : Launch) (pend : Map Nat × Option Nat × Option Nat) : Core :=
  let head := c.sysRow w 24
  let st := c.sysRow w 16
  (c.openRegs w).modW w fun x => { x with
    handles := handlesOf ((List.range 32).map fun i => c.sysRow w (768 + 8 * i))
    bank := bitAt head.toNat 16
    status := word (1 + 16 + bnat (bitAt st.toNat 1) * 64)
    phaseno := c.sysRow w 168
    pc := BitVec.ofNat 14 (recResume l.record)
    events := pend.1
    throttle := pend.2.1
    passed := pend.2.2 }
/-- LAUNCH_RESUME (R333): the launch has been placed; `parked` are its weaves before the park. -/
def execLaunchResume (n : Nat) (s : State) : Out :=
  .next (s.modC fun c =>
    match c.launch? n with
    | none => c
    | some l =>
      match l.savedTo with
      | none => c
      | some va =>
        match c.withPeer (.launchResume n) fun c =>
            let (im, c) := c.readImages l.ctx l.record
            let (ws, c) := c.readWords l.ctx va (l.savedLen / 8)
            ((im, ws), c) with
        | (none, c) => c
        | (some (.ok im, some ws), c) =>
          let old := l.parked
          let live := l.weaves.filter fun w => !l.halted.contains w
          let c := c.modL n fun l => { l with
            regions := im.dbuf.map dbufOf
            bars := l.bars.map fun ((b, x) : Nat × Barrier) => (b, x.moved old l.weaves)
            resumed := true
            savedTo := none
            parked := [] }
          let c := l.sectors.foldl (fun c s => c.initSector s im 0) c
          let c := l.weaves.foldl (fun c w =>
            ((c.loadProgram w true l.record im.prog).loadProgram w false l.record im.prog).initWeave n l { im with loc := [] } false w) c
          let (sys, ws) := (ws.take (8192 * l.weaves.length), ws.drop (8192 * l.weaves.length))
          let (sems, ws) := (ws.take (256 * l.sectors.length), ws.drop (256 * l.sectors.length + 64))
          let c := l.weaves.zipIdx.foldl (fun c (w, i) => c.loadShared! (storeFlat (secOf w) (sysOff w)) ((sys.drop (8192 * i)).take 8192)) c
          let c := l.sectors.zipIdx.foldl (fun c (s, i) => c.modSec s fun x => { x with
            sems := ((List.range 256).map fun j => (j, semOf (sems.getD (256 * i + j) 0))) }) c
          let entries := live.flatMap fun w => (saveEntries (c.sysRow w)).map fun e => (w, e)
          let c := c.restoreRanges ws entries
          let c := l.weaves.zipIdx.foldl (fun c (w, i) => c.resumeRegs w l (l.pend.getD i ([], none, none))) c
          (c.claimBanks l.sectors).schedReady n true
        | (some _, c) => c.refuseLaunch n 7)

end Sys2Proof.Machine
end

