-- ==== Sys2Proof/Machine/Fabric.lean ====
section
/-! DEFINITION. The Porlen links (R446 to R449), packets at the receive side (R450 to R457), reads that fail (R442), energy
billing (R458), collectives (R460 to R462). -/
namespace Sys2Proof.Machine

/-! ## Reads that fail (R442) -/

/-- A job's next step, where none is due: its read has been answered. -/
def Core.wakeJob (c : Core) (e : EngId) : Core :=
  match (c.jobsOf e).find? (·.started.isSome) with
  | none => c
  | some j => if c.agenda.any fun x => x.act == .jobStep e j.id || x.act == .jobHeld e j.id then c else c.heldTo e j.id c.now
/-- The graph whose copy node reads. -/
def Core.copying (c : Core) (q node : Nat) : Option Nat := c.graphAt q node 2 2
/-- The context of a reader. -/
def Core.readerCtx (c : Core) : ReadSource → Nat
  | .ldh w => c.ctxOf w
  | .job e => (((c.jobsOf e).find? (·.started.isSome)).map fun j => c.ctxOf j.weave).getD 255
  | .graphCopy q _ => (c.queue q).ctx
  | .cp id => ((c.cpWords.find? fun x => x.id == some id).map (·.ctx)).getD 255
/-- A host or peer read has failed (R442): the error log's entry, and what POISON = FAULT does to its reader. -/
def Core.readFailed (c : Core) (src : ReadSource) (addr va : Nat) : Core :=
  let c := c.logEntry 0xFFFFFFFF 10 0 (c.tagOf (c.readerCtx src)) (word addr) (word va)
  let c := { c with peerReads := c.peerReads.filter fun r => r.src != src }
  match src with
  | .ldh w => c.modW w fun x => if x.ldh = .asked then { x with ldh := .failed } else x
  | .job e =>
    match (c.jobsOf e).find? (·.started.isSome) with
    | some j => c.dropJob e j.id
    | none => c
  | .graphCopy q node =>
    match c.copying q node with
    | some g => c.failNode g node
    | none => c
  | .cp id => c.gotWord id none
/-- HOST_READ_FAILURE (R442). -/
def execHostReadFailure (src : ReadSource) (addr va : Nat) (s : State) : Out := .next (s.modC fun c => c.readFailed src addr va)
/-- A peer has not answered in 50 ms (R442). -/
def Core.peerTimeout (c : Core) (id : Nat) : Core :=
  match c.peerReads.find? fun r => r.id == id && r.data.isNone with
  | none => c
  | some r => c.readFailed r.src (r.dst * 2 ^ 44 + r.addr) r.va

/-! ## Links (R446 to R449) -/

/-- One more packet refused by the access check, or discarded (R445, R447). -/
def Core.deny (c : Core) (p : Nat) : Core := c.modLink p fun l => { l with deny := min 0xFFFF (l.deny + 1) }
/-- Waiting flits go out in their order, as far as credits and room allow (R448, R449). -/
def Core.pump (c : Core) (p : Nat) : Core :=
  let q := (c.link p).sendQ
  q.foldl (fun c f => c.portSend p f.1 f.2) (c.modLink p fun l => { l with sendQ := [] })
/-- CREDIT_RETURN (R448): what is due for every VC goes out in a KIND 0 flit, with the latest SEQ received. -/
def execCreditReturn (port vc : Nat) (s : State) : Out :=
  .next (s.modC fun c =>
    let l := c.link port
    if !l.up || l.due.getD vc 0 == 0 then c
    else
      let ws := [word ((l.expect + 255) % 256 + l.due.getD 0 0 * 2 ^ 8 + l.due.getD 1 0 * 2 ^ 24 + l.due.getD 2 0 * 2 ^ 40)]
      let f : Flit := ⟨0, 0, BitVec.ofNat 12 c.host.modid, 0, 0, 0, 0, 1, 0, 0, ws, 0⟩
      (c.modLink port fun l => { l with due := [0, 0, 0] }).send (.flit port (sealFlit f)))
/-- A flit has filled a place of a VC: its credit falls due. -/
def Core.dueCredit (c : Core) (p vc : Nat) : Core :=
  let c := c.modLink p fun l => { l with due := lmod l.due vc (· + 1) }
  let mine (a : Act) : Bool := a == .creditReturn p vc
  if 8 ≤ (c.link p).due.getD vc 0 then (c.unsched mine).sched c.now bHost p (.creditReturn p vc)
  else if c.agenda.any fun e => mine e.act then c
  else c.schedWall Config.creditUnits bHost p (.creditReturn p vc)
/-- The flit is taken from the link: none where it is discarded, for its CRC or because it follows a discarded one (R449). A KIND 0
flit is local to the link and takes neither a SEQ nor a credit. -/
def Core.takeFlit (c : Core) (p : Nat) (f : Flit) : Option Core :=
  let l := c.link p
  if !l.up || !l.en || flitCrc f != f.crc.toNat then none
  else if f.kind = 0 then some c
  else if f.seq.toNat ≠ l.expect then none
  else some ((c.modLink p fun l => { l with expect := (l.expect + 1) % 256 }).dueCredit p f.vc.toNat)
/-- Payload words of a flit. -/
def flitWords (f : Flit) : List Word := f.payload.take f.nw.toNat
/-- Flits up to an acknowledged SEQ are no longer kept; credits are added (R448, R449). -/
def Core.takeCredits (c : Core) (p : Nat) (f : Flit) : Core :=
  let x := ((flitWords f).headD 0).toNat
  let ack := x % 256
  let c := c.modLink p fun l =>
    let unacked := if l.unacked.any fun g => g.2.seq.toNat == ack then (l.unacked.dropWhile fun g => g.2.seq.toNat != ack).drop 1 else l.unacked
    { l with
      unacked := unacked
      again := if unacked.length < l.unacked.length then none else l.again
      credits := (List.range 3).map fun i => min 64 (l.credits.getD i 0 + bits x (8 + 16 * i + 15) (8 + 16 * i)) }
  c.pump p

/-! ## The receive side (R452 to R457) -/

/-- The local context as which a packet acts (R455): none where it is not accepted. -/
def Core.receiver (c : Core) (f : Flit) : Option Nat :=
  (List.range 256).findSome? fun i =>
    let e := (mget c.host.receive i 0).toNat
    if bitAt e 63 && bits e 51 40 == f.src.toNat && bits e 39 24 == f.tag.toNat then some (bits e 5 0) else none
/-- Energy in pJ billed to an origin and its TAG (R458). -/
def Core.bill (c : Core) (f : Flit) (pJ : Nat) : Core :=
  if pJ = 0 then c
  else
    let k := f.src.toNat * 65536 + f.tag.toNat
    let c := { c with bills := mset c.bills k (mget c.bills k 0 + pJ) }
    let mine (a : Act) : Bool := a == .billingSend f.src.toNat f.tag
    if 1000000 ≤ mget c.bills k 0 then (c.unsched mine).sched c.now bHost k (.billingSend f.src.toNat f.tag)
    else if c.agenda.any fun e => mine e.act then c
    else c.sched ((c.tick + 1) * Config.tickCycles) bHost k (.billingSend f.src.toNat f.tag)
/-- BILLING_SEND (R458): whole nJ go to the origin; the rest stays. -/
def execBillingSend (src : Nat) (tag : BitVec 16) (s : State) : Out :=
  .next (s.modC fun c =>
    let k := src * 65536 + tag.toNat
    let e := mget c.bills k 0
    if e < 1000 then c
    else
      let c := { c with bills := if e % 1000 = 0 then mdel c.bills k else mset c.bills k (e % 1000) }
      (c.sendPacket 0 src 6 tag.toNat 0 7 1 [word (e / 1000)]).1)
/-- pJ of a packet that moves n bytes (R458). -/
def packetEnergy (kind region n : Nat) : Nat := if kind = 4 then 20 * n else if region = 0 then 12 * n else if region = 1 ∧ kind = 1 then 8 * n else 0
/-- A write, reduce-write or signal packet (R452, R453, R455). -/
def Core.takeWrite (c : Core) (p : Nat) (f : Flit) : Core :=
  match c.receiver f with
  | none => c.deny p
  | some ctx =>
    let a := f.addr.toNat
    match c.regionWrite ctx a f.kind.toNat f.op.toNat (flitWords f) false with
    | (c, true) => c.bill f (packetEnergy f.kind.toNat (bits a 43 40) (8 * f.nw.toNat))
    | (c, false) => c.deny p
/-- A read request packet: its response, or an error response (R452, R454, R455). -/
def Core.takeRead (c : Core) (p : Nat) (f : Flit) : Core :=
  let a := f.addr.toNat
  let answer (c : Core) (op : Nat) (ws : List Word) : Core :=
    let (c, ok) := c.sendPacket 0 f.src.toNat 3 f.tag.toNat a op ws.length ws
    if ok then c else c.logEntry 0xFFFFFFFF 12 0 f.tag.toNat (word (a + f.src.toNat * 2 ^ 44)) 0
  match c.receiver f with
  | none => answer (c.deny p) 1 []
  | some ctx => match c.regionRead ctx a f.nw.toNat Core.memByte with
    | (some ws, c) => (answer c 0 ws).bill f (packetEnergy 2 (bits a 43 40) (8 * f.nw.toNat))
    -- a sector that the context does not own is the access check's (R445, R455)
    | (none, c) => answer (if 1 ≤ bits a 43 40 ∧ bits a 43 40 ≤ 3 ∧ !c.owns ctx (bits a 29 22) then c.deny p else c) 1 []
/-- The words of a read reach their reader. -/
def Core.deliverRead (c : Core) (r : PeerRead) (ws : List Word) : Core :=
  let keep (c : Core) : Core := { c with peerReads := c.peerReads.map fun (x : PeerRead) => if x.id = r.id then { x with data := some ws } else x }
  match r.src with
  | .ldh w => (keep c).ldhReturn w
  | .job e => (keep c).wakeJob e
  | .cp id => { c with peerReads := c.peerReads.filter fun x => x.id != r.id }.gotWord id (some (ws.headD 0))
  | .graphCopy q node =>
    let c := { c with peerReads := c.peerReads.filter fun x => x.id != r.id }
    match c.copying q node with
    | none => c
    | some g => match c.graph? g with
      | none => c
      | some x =>
        let w := nodeWord x.nodes node
        let off := mget x.copied node 0
        let bs := ws.flatMap fun (y : Word) => natBytes 8 y.toNat
        c.putTransfer g node (w 2 + off) (bs.take (requestBytes (w 2) (w 1) off (w 3)))
/-- A read response packet (R454, R455). -/
def Core.takeResponse (c : Core) (p : Nat) (f : Flit) : Core :=
  if (c.receiver f).isNone then c.deny p
  else match c.peerReads.find? fun r => r.dst == f.src.toNat && r.addr == f.addr.toNat && r.data.isNone with
  | none => c
  | some r => if f.op = 0 then c.deliverRead r (flitWords f) else c.readFailed r.src (r.dst * 2 ^ 44 + r.addr) r.va
/-- A billing packet (R455, R458): nJ for the context whose TAG matches. -/
def Core.takeBilling (c : Core) (p : Nat) (f : Flit) : Core :=
  if (c.receiver f).isNone then c.deny p
  else match (List.range 64).find? fun i => c.ctxValid i && c.tagOf i == f.tag.toNat with
  | none => c
  | some i => c.modCtx i fun x => { x with energy := x.energy + ((flitWords f).headD 0).toNat }

/-! ## Collectives (R459 to R462; log 22) -/

def collField (d : List Word) (i : Nat) : Nat := (d.getD i 0).toNat
def collKind (d : List Word) : Nat := collField d 0 % 16
def collOp (d : List Word) : Nat := bits (collField d 0) 7 4
def collRoot (d : List Word) : Nat := bits (collField d 0) 15 8
def collSeq (d : List Word) : Nat := bits (collField d 0) 31 16
def collSem (d : List Word) : Nat := bits (collField d 0) 39 32
def collBuf (d : List Word) : Nat := collField d 1
def collLen (d : List Word) : Nat := collField d 2
def collDst (d : List Word) : Nat := collField d 3
/-- End of the application halves (R46). -/
def appEnd : Nat := 0x3C0000
/-- The descriptor keeps R460 in a group of n members. -/
def collOk (d : List Word) (n : Nat) : Bool :=
  collField d 0 < 2 ^ 40 && 1 ≤ collKind d && collKind d ≤ 3 && (if collKind d = 1 then collOp d < 12 else collOp d == 0) &&
  (collKind d != 3 || collRoot d < n) && collBuf d % 8 == 0 && 8 ≤ collLen d && collLen d ≤ 1048576 && collLen d % 8 == 0 &&
  collBuf d + collLen d ≤ appEnd &&
  (if collKind d = 2 then collDst d % 8 == 0 && collDst d + n * collLen d ≤ appEnd else collDst d == 0) &&
  [4, 5, 6, 7].all fun i => collField d i == 0
/-- The descriptors agree (R462). -/
def collAgree (d x : List Word) : Bool :=
  collKind d == collKind x && collOp d == collOp x && collLen d == collLen x && collRoot d == collRoot x && collSeq d == collSeq x
def collKey (ctx n : Nat) : Nat := ctx * 65536 + n % 65536
def Core.coll? (c : Core) (k : Nat) : Option Collective := mget? c.collectives k
def Core.setColl (c : Core) (k : Nat) (x : Collective) : Core := { c with collectives := mset c.collectives k x }
/-- Module of a rank. -/
def Core.member (c : Core) (ctx r : Nat) : Nat := mget (c.ctx ctx).members r 0 % 4096
def Core.otherRanks (c : Core) (ctx : Nat) : List Nat :=
  (List.range ((c.groupSize ctx).getD 0)).filter (· != c.groupRank ctx)
/-- A step of a collective to every other member; false where a route fails. -/
def Core.sendAll (c : Core) (ctx sec op : Nat) (ws : List Word) : Core × Bool :=
  (c.otherRanks ctx).foldl (fun (c, ok) r =>
    let (c, k) := c.sendPacket sec (c.member ctx r) 6 (c.tagOf ctx) (4 * 2 ^ 40 + sec * 2 ^ 22) op ws.length ws
    (c, ok && k)) (c, true)
/-- Every member's descriptor is here. -/
def Collective.exchanged (x : Collective) (n : Nat) : Bool := x.started && (List.range n).all fun r => (mget? x.descs r).isSome
/-- All descriptors are well formed and agree, and carry the number of the collective. -/
def Collective.agrees (x : Collective) (n key : Nat) : Bool :=
  (List.range n).all fun r => match mget? x.descs r with
    | some d => collOk d n && collAgree d x.desc && collSeq d == key % 65536
    | none => false
/-- Every contribution that the result needs is here. -/
def Collective.complete (x : Collective) (n : Nat) : Bool :=
  (List.range n).all fun r => (collKind x.desc == 3 && r != collRoot x.desc) || (mget x.data r []).length == collLen x.desc / 8
/-- The rows of a named buffer. -/
def bufRows (sec off len : Nat) : List Nat := (List.range (len / 8)).map fun i => storeFlat sec off + 8 * i
/-- The weaves of the launch that holds a sector. -/
def Core.viewers (c : Core) (sec : Nat) : List Nat := ((((c.sector sec).launch.bind c.launch?)).map (·.weaves)).getD []
/-- Results into named rows, published at fabric scope, which here is the module, and seen at once by the weaves of the sector's
launch (R302, R309, R461). -/
def Core.putNamed (c : Core) (sec : Nat) (rows : List Nat) (ws : List Word) : Core :=
  let mine := c.viewers sec
  (rows.zip ws).foldl (fun c (a, x) => mine.foldl (fun c w => c.ownView w a) (c.writeShared a x allOnes 4 0 0 none)) c
/-- A collective's completion releases the sector's earlier writes to the named buffers at fabric scope, and the weaves of its
launch see what is published there (R309). -/
def Core.releaseNamed (c : Core) (sec : Nat) (rows : List Nat) : Core :=
  let own (v : Version) : Bool := if v.writer = 0 then v.pubs.contains (1, sec) else secOf (v.writer - 1) == sec
  let c := { c with vers := c.vers.map fun ((a, hist) : Nat × List Version) =>
    (a, if rows.contains a then hist.map fun (v : Version) =>
      if own v ∧ !v.pubs.contains (4, 0) ∧ !v.pubs.isEmpty then { v with pubs := v.pubs ++ [(4, 0)] } else v else hist) }
  (c.viewers sec).foldl (fun c w => c.refreshRows w rows.contains) c
/-- Free words for rows that a failure leaves undefined (R462). -/
def Core.openRows (c : Core) (sec : Nat) (rows : List Nat) : Core :=
  let ws := (List.range rows.length).map fun i => Config.freeWord (c.freeCtr + i)
  ({ c with freeCtr := c.freeCtr + rows.length }).putNamed sec rows ws
/-- A collective ends as a failure at this member (R462); `tell` passes it on to the others. -/
def Core.failColl (c : Core) (k : Nat) (tell : Bool) : Core :=
  match c.coll? k with
  | none => c
  | some x =>
    let ctx := k / 65536
    let n := (c.groupSize ctx).getD 0
    let c := { c with collectives := mdel c.collectives k }
    let d := x.desc
    let c := if 0 < n && x.exchanged n && x.agrees n k then
        let c := c.openRows x.sector (bufRows x.sector (collBuf d) (collLen d))
        if collKind d = 2 then c.openRows x.sector (bufRows x.sector (collDst d) (n * collLen d)) else c
      else c
    let c := c.abortSem x.sector (collSem d)
    if tell then (c.sendAll ctx x.sector 2 [word (k % 65536)]).1 else c
/-- Chunks of a contribution go out, 29 words to a flit. -/
def Core.sendData (c : Core) (ctx sec k : Nat) (ws : List Word) : Core × Bool :=
  (chunks 29 (ceilDiv ws.length 29) ws).foldl (fun (c, ok) xs =>
    let (c, o) := c.sendAll ctx sec 1 (word (k % 65536) :: xs)
    (c, ok && o)) (c, true)
/-- What a collective does once something of it has arrived. -/
def Core.advanceColl (c : Core) (k : Nat) : Core :=
  match c.coll? k with
  | none => c
  | some x =>
    let ctx := k / 65536
    let n := (c.groupSize ctx).getD 0
    if !x.started then c
    else if x.failed then c.failColl k false
    else if !x.exchanged n then c
    else if !x.agrees n k then c.failColl k true
    else
      let rank := c.groupRank ctx
      let gives := collKind x.desc != 3 || collRoot x.desc == rank
      if gives && (mget? x.data rank).isNone then
        let ws := (bufRows x.sector (collBuf x.desc) (collLen x.desc)).map c.row
        let c := c.setColl k { x with data := mset x.data rank ws }
        let (c, ok) := c.sendData ctx x.sector k ws
        if !ok then c.failColl k true
        else if ({ x with data := mset x.data rank ws }).complete n then
          let (t, c) := c.freeWait
          c.sched (c.now + t) bEngine ctx (.collectiveCompletion ctx)
        else c
      else if x.complete n then
        let (t, c) := c.freeWait
        c.sched (c.now + t) bEngine ctx (.collectiveCompletion ctx)
      else c
/-- COLLECTIVE_START (R460): the descriptor is read now, and goes to the other members. -/
def execCollectiveStart (sector off : Nat) (s : State) : Out :=
  .next (s.modC fun c =>
    match (c.sector sector).owner with
    | none => c
    | some ctx =>
      let d := (List.range 8).map fun i => c.row (storeFlat sector off + 8 * i)
      let n := (c.ctx ctx).collNo + 1
      let k := collKey ctx n
      let c := c.modCtx ctx fun x => { x with collNo := n }
      let old : Collective := (c.coll? k).getD ⟨sector, off, [], [], [], false, false⟩
      let c := c.setColl k { old with
        sector := sector, off := off, desc := d, started := true, descs := mset old.descs (c.groupRank ctx) d }
      if (c.groupSize ctx).isNone || !collOk d ((c.groupSize ctx).getD 0) then c.failColl k true
      else
        let (c, ok) := c.sendAll ctx sector 0 (d ++ [word (n % 65536)])
        if ok then c.advanceColl k else c.failColl k true)
/-- A collective step of another member: OP 0 its descriptor, OP 1 words of its contribution, OP 2 a failure. -/
def Core.takeColl (c : Core) (p : Nat) (f : Flit) : Core :=
  match c.receiver f with
  | none => c.deny p
  | some ctx =>
    match (List.range ((c.groupSize ctx).getD 0)).find? fun r => c.member ctx r == f.src.toNat with
    | none => c.deny p
    | some r =>
      let ws := flitWords f
      let n := (if f.op = 0 then ws.getD 8 0 else ws.headD 0).toNat % 65536
      let k := collKey ctx n
      let ahead := (n + 65536 - (c.ctx ctx).collNo % 65536) % 65536
      if (c.coll? k).isNone ∧ (ahead = 0 ∨ 32768 ≤ ahead) then c
      else
        let x : Collective := (c.coll? k).getD ⟨0, 0, [], [], [], false, false⟩
        match f.op.toNat with
        | 0 => (c.setColl k { x with descs := mset x.descs r (ws.take 8) }).advanceColl k
        | 1 => (c.setColl k { x with data := mset x.data r (mget x.data r [] ++ ws.drop 1) }).advanceColl k
        | 2 => (c.setColl k { x with failed := true }).advanceColl k
        | _ => c
/-- COLLECTIVE_COMPLETION (R461): results, then the semaphore. -/
def execCollectiveCompletion (ctx : Nat) (s : State) : Out :=
  .next (s.modC fun c =>
    let n := (c.groupSize ctx).getD 0
    match c.collectives.find? fun (k, x) => k / 65536 == ctx && decide (0 < n) && x.exchanged n && x.agrees n k && x.complete n with
    | none => c
    | some (k, x) =>
      let d := x.desc
      let part (r : Nat) : List Word := mget x.data r []
      let buf := bufRows x.sector (collBuf d) (collLen d)
      let dst := if collKind d = 2 then bufRows x.sector (collDst d) (n * collLen d) else []
      let c := { c with collectives := mdel c.collectives k }.releaseNamed x.sector (buf ++ dst)
      let c := match collKind d with
        | 1 =>
          let fold (i : Nat) : Word := (List.range (n - 1)).foldl (fun acc r =>
            (reduceRow (collOp d) acc ((part (r + 1)).getD i 0)).getD 0) ((part 0).getD i 0)
          c.putNamed x.sector buf ((List.range (collLen d / 8)).map fold)
        | 2 => c.putNamed x.sector dst ((List.range n).flatMap part)
        | _ => c.putNamed x.sector buf (part (collRoot d))
      c.signalSem x.sector (collSem d) 1)
/-- A write of the CANCEL word (R462). -/
def Core.cancelColls (c : Core) (ctx : Nat) (v : Word) : Core :=
  if !bitAt v.toNat 63 then c
  else (c.collectives.filter fun p => p.1 / 65536 == ctx && p.2.started).foldl (fun c p => c.failColl p.1 false) c
/-- COLLECTIVE_CANCEL (R462): a failure at this member. -/
def execCollectiveCancel (ctx : Nat) (v : Word) (s : State) : Out := .next (s.modC fun c => c.cancelColls ctx v)

/-! ## Retirement and replays of a port (R449) -/

/-- A flit that no port can take (R449, R462): a read fails, anything else is discarded and logged, and a collective that it is a step of
fails. -/
def Core.unsendable (c : Core) (f : Flit) : Core :=
  if f.kind = 2 then
    match c.peerReads.find? fun r => r.addr == f.addr.toNat && r.dst == f.dst.toNat && r.data.isNone with
    | some r => c.readFailed r.src (r.dst * 2 ^ 44 + r.addr) r.va
    | none => c
  else
    let c := c.logEntry 0xFFFFFFFF 12 0 f.tag.toNat (word (f.addr.toNat + f.dst.toNat * 2 ^ 44)) 0
    if f.kind ≠ 6 ∨ 7 ≤ f.op.toNat then c
    else match (List.range 64).find? fun i => c.ctxValid i && c.tagOf i == f.tag.toNat with
      | none => c
      | some ctx =>
        let ws := flitWords f
        c.failColl (collKey ctx (if f.op = 0 then ws.getD 8 0 else ws.headD 0).toNat) true
/-- A port is retired: its flits move to the ports of their flows, in order. -/
def Core.retirePort (c : Core) (port : Nat) : Core :=
  let l := c.link port
  if l.dead then c
  else
    let c := c.modLink port fun l => { l with up := false, dead := true, unacked := [], sendQ := [] }
    let c := c.logEntry 0xFFFFFFFF 12 0 0 0 0
    (l.unacked ++ l.sendQ).foldl (fun c f =>
      match c.flowPort f.1 f.2.dst.toNat (flowTarget f.2.addr.toNat) with
      | some p => c.portSend p f.1 f.2
      | none => c.unsendable f.2) c
/-- PORT_RETIREMENT (R449). -/
def execPortRetirement (port : Nat) (s : State) : Out := .next (s.modC fun c => c.retirePort port)
/-- The link partner asks for a replay from a SEQ: the kept flits go out again from there; a flit asked for the eighth time in a row
retires the port (log 24). -/
def Core.replayFlits (c : Core) (p seq : Nat) : Core :=
  let l := c.link p
  if !l.up || !(l.unacked.any fun f => f.2.seq.toNat == seq) then c
  else
    let n := match l.again with
      | some (s, n) => if s = seq then n + 1 else 1
      | none => 1
    let fs := l.unacked.dropWhile fun f => f.2.seq.toNat != seq
    let c := c.modLink p fun l => { l with again := some (seq, n), replay := min 0xFFFF (l.replay + fs.length) }
    if 8 ≤ n then c.retirePort p else fs.foldl (fun c f => c.send (.flit p f.2)) c

/-! ## Arrival of a flit -/

/-- A flit arrives at a port (R447): a kind that the table does not list, or a reserved bit, is discarded and counted. -/
def Core.flitArrives (c : Core) (p : Nat) (f : Flit) : Core :=
  match c.takeFlit p f with
  | none =>
    -- the receiver asks for a replay from the discarded flit's SEQ (R449)
    if flitCrc f = f.crc.toNat || !(c.link p).up || !(c.link p).en then c
    else (c.modLink p fun l => { l with replay := min 0xFFFF (l.replay + 1) }).send (.replayRequest p (c.link p).expect)
  | some c =>
    if 30 < f.nw.toNat ∨ f.rsv ≠ 0 then c.deny p
    else match f.kind.toNat with
      | 0 => c.takeCredits p f
      | 1 | 4 | 5 => c.takeWrite p f
      | 2 => c.takeRead p f
      | 3 => c.takeResponse p f
      | 6 => if f.op.toNat = 7 then c.takeBilling p f else if f.op.toNat < 7 then c.takeColl p f else c.deny p
      | _ => c.deny p
/-- The port of a row that is a flit. -/
noncomputable def flitPort : Instr → Option Nat
  | .creditAcknowledgement p _ | .porlenWrite p _ | .readRequest p _ | .readResponse p _ | .reduceWrite p _ | .semaphoreSignal p _
  | .collectiveControl p _ | .billing p _ => some p
  | _ => none
/-- The row of the inbox that is due next: the first in the list; of flits of its cycle the first of the lowest port (R452). -/
noncomputable def Core.nextRow (c : Core) : Option (Nat × Instr) :=
  (c.inbox.find? fun p => p.1 ≤ c.now).map fun p =>
    (c.inbox.filter fun q => q.1 == p.1).foldl (fun best q =>
      match flitPort best.2, flitPort q.2 with
      | some a, some b => if b < a then q else best
      | _, _ => best) p
/-- CREDIT_ACKNOWLEDGEMENT (R448). -/
def execCreditAcknowledgement (port : Nat) (flit : Flit) (s : State) : Out := .next (s.modC fun c => c.flitArrives port flit)
/-- PORLEN_WRITE (R452). -/
def execPorlenWrite (port : Nat) (flit : Flit) (s : State) : Out := .next (s.modC fun c => c.flitArrives port flit)
/-- READ_REQUEST (R454). -/
def execReadRequest (port : Nat) (flit : Flit) (s : State) : Out := .next (s.modC fun c => c.flitArrives port flit)
/-- READ_RESPONSE (R454). -/
def execReadResponse (port : Nat) (flit : Flit) (s : State) : Out := .next (s.modC fun c => c.flitArrives port flit)
/-- REDUCE_WRITE (R453). -/
def execReduceWrite (port : Nat) (flit : Flit) (s : State) : Out := .next (s.modC fun c => c.flitArrives port flit)
/-- SEMAPHORE_SIGNAL (R452). -/
def execSemaphoreSignal (port : Nat) (flit : Flit) (s : State) : Out := .next (s.modC fun c => c.flitArrives port flit)
/-- COLLECTIVE_CONTROL (R460). -/
def execCollectiveControl (port : Nat) (flit : Flit) (s : State) : Out := .next (s.modC fun c => c.flitArrives port flit)
/-- BILLING (R458). -/
def execBilling (port : Nat) (flit : Flit) (s : State) : Out := .next (s.modC fun c => c.flitArrives port flit)

end Sys2Proof.Machine
end

