-- ==== Sys2Proof/Machine/Host.lean ====
section
/-! DEFINITION. The host link: BAR0 registers (R435, R436), the HBM aperture (R437), doorbells (R438, R439), the debug port
(R335, R444), identity and attestation (R443, R482). -/
namespace Sys2Proof.Machine

/-- A function sees what belongs to a context (R436). -/
def Core.sees (c : Core) (fn ctx : Nat) : Bool := fn == 0 || (c.ctx ctx).fn == fn
/-- A function owns a queue's doorbell page (R438). -/
def Core.ownsQueue (c : Core) (fn q : Nat) : Bool := (c.ctx (c.queue q).ctx).fn == fn
def masked (v : Word) (m : Nat) : Word := word (v.toNat &&& m)
/-- Old value with the bits of a mask replaced. -/
def under (old v : Word) (m : Nat) : Word := mergeBits old v (word m)

/-! ## The aperture (R437) -/

/-- The physical address of a BAR2 offset. -/
def Core.aperture (c : Core) (fn off : Nat) : Nat := bits (c.host.haper.getD fn 0).toNat 38 36 * 2 ^ 36 + off
/-- The access lies in the aperture and in HBM, and the function's access table admits it. -/
def Core.apertureOk (c : Core) (fn off n : Nat) (write : Bool) : Bool :=
  off + n ≤ 2 ^ 36 && c.aperture fn off + n ≤ hbmBytes && c.admits (0x50 + fn) (c.aperture fn off) n write
/-- BAR2_WRITE (R437): a denied write is discarded. -/
def execBar2Write (fn off : Nat) (data : List Byte) (s : State) : Out :=
  .next (s.modC fun c =>
    if c.apertureOk fn off data.length true then
      (c.writeBytes (c.aperture fn off) (data.map (·.toNat)) 4 0 0 none).clearPoison (c.aperture fn off) data.length
    else c)
/-- BAR2_READ (R437): a denied read completes with UR. The aperture gives stored bytes, decoded, whatever poison says (R370, R379). -/
def execBar2Read (fn off len : Nat) (s : State) : Out :=
  .next (s.modC fun c =>
    if c.apertureOk fn off len false then
      let c := c.fireHbm 255 0 (requestsOf (c.aperture fn off) len)
      c.send (.readData fn ((c.bytes (c.aperture fn off) len).map (BitVec.ofNat 8)))
    else c.send (.unsupported fn))
/-- ATOMICOP_REQUEST (R433): UR. -/
def execAtomicopRequest (fn _bar _off : Nat) (s : State) : Out := .next (s.modC fun c => c.send (.unsupported fn))

/-! ## Queues (R403, R438, R439) -/

/-- DOORBELL_TAIL_WRITE (R439). -/
def execDoorbellTailWrite (fn queue : Nat) (v : Word) (s : State) : Out :=
  .next (s.modC fun c =>
    if !c.ownsQueue fn queue then c
    else
      let q := c.queue queue
      let tail := v.toNat % 2 ^ 28
      if q.ringSize < { q with tail := tail }.fill then c.haltQueue queue 1 0
      else ((c.modQ queue fun q => { q with tail := tail }).kickQueue queue).wantDispatch)
/-- SEMSIG (R439). -/
def execSemsig (fn queue : Nat) (v : Word) (s : State) : Out :=
  .next (s.modC fun c =>
    let x := v.toNat
    let sec := bits x 23 16
    if !c.ownsQueue fn queue || bitAt x 63 || bits x 31 24 != 0 || bits x 15 8 != 0 || !c.owns (c.queue queue).ctx sec then c
    else c.signalSem sec (x % 256) (bits x 62 32))
/-- A queue is restarted: it reads on, and preloads that stand on kept sectors may begin (R403, R420). -/
def Core.restartQueue (c : Core) (q : Nat) : Core :=
  if !(c.queue q).halted then c
  else ((c.modQ q fun x => { x with halted := false }).kickQueue q).wantDispatch
/-- QSTAT_HALT_RESTART (R403). -/
def execQstatHaltRestart (fn queue : Nat) (v : Word) (s : State) : Out :=
  .next (s.modC fun c => if bitAt v.toNat 63 && c.sees fn (c.queue queue).ctx then c.restartQueue queue else c)

/-! ## Contexts (R363, R401) -/

/-- The context has a placed, preloaded or parked launch. -/
def Core.ctxBusy (c : Core) (ctx : Nat) : Bool :=
  c.launches.any fun (n, l) => l.ctx == ctx && ((!l.sectors.isEmpty && !l.ended) || l.savedTo.isSome || c.sectors.any fun p => p.2.preloaded == some n)
/-- Bits of a word of a context entry that are stored; addresses are aligned. -/
def entryMask (i : Nat) : Nat :=
  [2 ^ 63 + 0xFFFF, 2 ^ 64 - 2 ^ 16, 2 ^ 64 - 2 ^ 21, 2 ^ 64 - 2 ^ 11, 2 ^ 64 - 2 ^ 16, 2 ^ 64 - 1, 0xFF, 0].getD i 0
def Core.putContext (c : Core) (fn ctx i : Nat) (v : Word) : Core :=
  if !c.sees fn ctx || c.ctxBusy ctx then c
  else (c.modCtx ctx fun x => { x with words := x.words.set i (masked v (entryMask i)) }).wantDispatch
/-- CONTEXT_ENTRY_WRITE (R401). -/
def execContextEntryWrite (fn ctx word : Nat) (v : Word) (s : State) : Out := .next (s.modC fun c => c.putContext fn ctx word v)
def Core.putDamask (c : Core) (fn ctx i : Nat) (v : BitVec 32) : Core :=
  if !c.sees fn ctx then c
  else (c.modCtx ctx fun x => { x with damPend := x.damPend ++ [(i, v)] }).applyDamask ctx
/-- DAMASK_ATTRIBUTE_WRITE (R363): held while a launch of the context runs. -/
def execDamaskAttributeWrite (fn ctx entry : Nat) (v : BitVec 32) (s : State) : Out :=
  .next (s.modC fun c => c.putDamask fn ctx entry v)

/-! ## The debug port (R335, R444) -/

/-- No job of an instance is running. -/
def Core.engineIdle (c : Core) (sec kind idx : Nat) : Bool := (c.eng sec kind idx).jobs.all (·.started.isNone)
/-- The item that DSEL selects. -/
def Core.debugRead (c : Core) (w : Nat) : Word :=
  let wv := c.weave w
  let d := wv.dbg.dsel.toNat
  let i := bits d 55 44
  let lane := d % 128
  match bits d 63 56 with
  | 0 => if i % 32 = 0 then 0 else wv.s.getD (i % 32) 0
  | 1 => handleRow0 (wv.handles.getD i Handle.reset)
  | 2 => handleRow1 (wv.handles.getD i Handle.reset)
  | 3 => mget wv.v (vKey (i % 32) lane) 0
  | 4 => if i % 8 = 0 then 1 else mget wv.k (vKey (i % 8) lane) 0
  | 5 => c.csr w i
  | 6 => (wv.loops[i]?.map levelRow0).getD 0
  | 7 => (wv.loops[i]?.map levelRow1).getD 0
  | 8 => ((wv.dbg.latches[i / 4]?.map (·.words)).getD []).getD (i % 4) 0
  | 9 => (wv.dbg.latches[i / 256]?.map fun l => mget l.data lane 0).getD 0
  | 10 => if i = 0 then segRow0 wv.seg wv.seg.nocyc else segRow1 wv.seg
  | 11 => if c.engineIdle (secOf w) 0 0 then (c.sector (secOf w)).mxa.image (c.sector (secOf w)).mxa.cut i else 0
  | 12 => if c.engineIdle (secOf w) 2 lane then (c.txsOf (secOf w) lane).image.getD i 0 else 0
  | _ => 0
/-- A CSR takes the bits that a system-level `csrw` may set, with what such a write does: EV and TW cleared where it writes 1, the
generators reloaded from SEED (R7, R43, R45, R147). -/
def Core.debugCsr (c : Core) (w n : Nat) (v : Word) : Core :=
  let old := c.csr w n
  let (u, y) := csrMasks n
  let x := csrFix n old (mergeBits old v (u ||| y))
  if !csrAssigned n then c
  else if n = 0x010 then c.modW w fun wv => wv.clearLease v.toNat
  else c.modW w fun wv =>
    let wv := wv.setCsr n x
    if n = 0x002 then { wv with srd := allLanes.map fun l => (l, srdSeed (x.toNat / 2 ^ 32) l) } else wv
/-- The engine state that an image with one word changed holds. -/
def Core.debugTxs (c : Core) (sec unit : Nat) (ws : List Word) : Core :=
  let h := (ws.headD 0).toNat
  c.modTxs sec unit fun t => { txsOfImage ws with state := bits h 23 16, fault := bits h 31 24, busyTo := t.busyTo }
/-- A write of the item that DSEL selects. -/
def Core.debugWrite (c : Core) (w : Nat) (v : Word) : Core :=
  let wv := c.weave w
  let d := wv.dbg.dsel.toNat
  let i := bits d 55 44
  let lane := d % 128
  let sec := secOf w
  let latch (j : Nat) (f : LatchImage → LatchImage) : Core := c.modW w fun x => { x with
    dbg := { x.dbg with latches := lmod x.dbg.latches j f } }
  let level (f : LoopLevel → LoopLevel) : Core := c.modW w fun x => { x with loops := lmod x.loops i f }
  match bits d 63 56 with
  | 0 => if i % 32 = 0 then c else c.modW w fun x => { x with s := x.s.set (i % 32) v }
  | 1 => c.modW w fun x => { x with handles := lmod x.handles i fun h => handleOf v (handleRow1 h) }
  | 2 => c.modW w fun x => { x with handles := lmod x.handles i fun h => handleOf (handleRow0 h) v }
  | 3 => c.modW w fun x => { x with v := mset x.v (vKey (i % 32) lane) v }
  | 4 => if i % 8 = 0 then c else c.modW w fun x => { x with k := mset x.k (vKey (i % 8) lane) (v &&& 1) }
  | 5 => c.debugCsr w i v
  | 6 => level fun l => { l with start := BitVec.ofNat 14 v.toNat, stop := BitVec.ofNat 14 (v.toNat / 2 ^ 16) }
  | 7 => level fun l => { l with remaining := BitVec.ofNat 32 v.toNat, index := BitVec.ofNat 32 (v.toNat / 2 ^ 32) }
  | 8 => latch (i / 4) fun l => { l with words := l.words.set (i % 4) v }
  | 9 => latch (i / 256) fun l => { l with data := mset l.data lane v }
  | 10 => c.modW w fun x => { x with
      seg := if i = 0 then segOfRows v (segRow1 x.seg) x.seg.first x.seg.startPc
        else segOfRows (segRow0 x.seg x.seg.nocyc) v x.seg.first x.seg.startPc }
  | 11 =>
    let m := (c.sector sec).mxa
    if c.engineIdle sec 0 0 then c.restoreMxa sec (((List.range 2320).map (m.image m.cut)).set i v) else c
  | 12 => if c.engineIdle sec 2 lane && lane < 2 then c.debugTxs sec lane ((c.txsOf sec lane).image.set i v) else c
  | _ => c
/-- DEBUG_DATA_ACCESS (R444): 0 and no effect while the weave is not halted. -/
def execDebugDataAccess (w : Nat) (write : Option Word) (s : State) : Out :=
  .next (s.modC fun c =>
    let halted := (c.weave w).dbg.halted.isSome
    match write with
    | some v => if halted then c.debugWrite w v else c
    | none => c.send (.readData 0 ((natBytes 8 (if halted then (c.debugRead w).toNat else 0)).map (BitVec.ofNat 8))))

/-! ## BAR0 (R435, R436) -/

/-- The width of the register at an offset (R435). -/
def barWidth (off : Nat) : Nat :=
  if 0x30000 ≤ off ∧ off < 0x31000 then 4 else if 0x340000 ≤ off ∧ off < 0x3C0000 then 2 else 8
/-- Bits of an access-table word that are stored (R457). -/
def accessMask (i : Nat) : Nat :=
  if i % 2 = 1 then 0x7FFFFF0000 else if i % 16 = 0 then 0xF000007FFFFF0000 else 0xE000007FFFFF0000
/-- A word of a function's MSI-X table; a vector that is no longer masked sends what is pending (R440). -/
def Core.putMsix (c : Core) (fn i : Nat) (v : Word) : Core :=
  let c := c.modHost fun h => { h with msixTable := mset h.msixTable (msixKey fn i) v }
  let vec := i / 2
  let k := fn * 4 + vec / 64
  let p := mget c.host.msixPend k 0
  if !c.msixMasked fn vec && bitAt p.toNat (vec % 64) then
    (c.modHost fun h => { h with msixPend := mset h.msixPend k (setBits p (vec % 64) (vec % 64) 0) }).send (.msix fn vec)
  else c
/-- QCFG: a VF may not give a queue to a context that it does not own (R436). -/
def Core.putQcfg (c : Core) (fn q : Nat) (v : Word) : Core :=
  if c.sees fn (bits v.toNat 29 24) then ((c.modQ q fun x => { x with qcfg := masked v 0xBF070F0F }).kickQueue q).wantDispatch else c
/-- The registers of the identity page (R437, R450, R477). -/
def Core.putIdentity (c : Core) (fn off : Nat) (v : Word) : Core :=
  let haper (n : Nat) : Core := c.modHost fun h => { h with haper := h.haper.set n (masked v 0x7000000000) }
  if fn ≠ 0 then if off = 0x108 then haper fn else c
  else if off = 0x100 then if v.toNat % 4096 = 0xFFF then c else c.modHost fun h => { h with modid := v.toNat % 4096 }
  else if 0x108 ≤ off ∧ off ≤ 0x188 then haper ((off - 0x108) / 8)
  else if off = 0x300 then c.modHost fun h => { h with updAddr := masked v (2 ^ 39 - 1) }
  else if off = 0x308 then c.modHost fun h => { h with updLen := masked v (2 ^ 27 - 1) }
  else c
/-- Registers that a VF also reaches (R436). -/
def Core.putShared (c : Core) (fn off : Nat) (v : Word) : Core :=
  let i (base width : Nat) : Nat := (off - base) / width
  if off < 0x1000 then c.putIdentity fn off v
  else if 0x10000 ≤ off ∧ off < 0x11000 then c.putContext fn (i 0x10000 64) (i 0x10000 8 % 8) v
  else if 0x20000 ≤ off ∧ off < 0x21000 then
    let q := i 0x20000 32
    if !c.sees fn (c.queue q).ctx then c
    else match i 0x20000 8 % 4 with
      | 0 => c.putQcfg fn q v
      | 1 => (c.modQ q fun x => { x with qbase := masked v (2 ^ 56 - 1) }).wantDispatch
      | 2 => if bitAt v.toNat 63 then c.restartQueue q else c
      | _ => c
  else if 0x30000 ≤ off ∧ off < 0x31000 then c.putDamask fn (i 0x30000 64) (i 0x30000 4 % 16) (v.setWidth 32)
  else if 0x31000 ≤ off ∧ off < 0x33000 then
    let ctx := i 0x31000 128
    if c.sees fn ctx && bitAt v.toNat 63 then c.modCtx ctx fun x => { x with damStat := lmod x.damStat (i 0x31000 8 % 16) fun y => masked y (2 ^ 63 - 1) } else c
  else if 0x70000 ≤ off ∧ off < 0x71000 then c.putMsix fn (i 0x70000 8) v
  else c
/-- Registers of the PF alone. -/
def Core.putOwn (c : Core) (off : Nat) (v : Word) : Core :=
  let i (base width : Nat) : Nat := (off - base) / width
  let within (base n width : Nat) : Bool := base ≤ off && off < base + n * width
  if within 0x1000 64 8 then c.modCtx (i 0x1000 8) fun x => { x with fn := v.toNat % 32 }
  else if off = 0x50008 then c.modHost fun h => { h with errLog := { h.errLog with tail := v.toNat } }
  else if off = 0x50020 then c.modHost fun h => { h with poisonLog := { h.poisonLog with tail := v.toNat } }
  else if within 0x60000 194 8 then c.modHost fun h => { h with sources := mset h.sources (i 0x60000 8) (masked v 0x80FF) }
  else if within 0x80000 160 8 then c.modSec (i 0x80000 8) fun x => { x with slipCount := x.slipCount &&& (0xFFFFFFFF ^^^ v.toNat % 2 ^ 32) }
  else if within 0x81000 640 8 then
    c.modHost fun h =>
      let old := mget h.inject (i 0x81000 8) 0
      { h with inject := mset h.inject (i 0x81000 8) (csrFix 0x020 old (masked v 0x8FC0FFFFFFFFFFFF)) }
  else if within 0x200000 (97 * 16) 8 then
    c.modHost fun h => { h with access := mset h.access (i 0x200000 8) (masked v (accessMask (i 0x200000 8))) }
  else if within 0x300000 36 8 then
    (c.modLink (i 0x300000 8) fun l => { l with
      en := bitAt v.toNat 62
      deny := l.deny &&& (0xFFFF ^^^ bits v.toNat 47 32)
      replay := l.replay &&& (0xFFFF ^^^ bits v.toNat 31 16) }).pump (i 0x300000 8)
  else if within 0x301000 256 8 then c.modHost fun h => { h with receive := mset h.receive (i 0x301000 8) (masked v 0x800FFFFFFF00003F) }
  else if within 0x310000 4096 8 then c.modHost fun h => { h with routes := mset h.routes (i 0x310000 8) (masked v (2 ^ 36 - 1)) }
  else if within 0x320000 64 8 then c.modCtx (i 0x320000 8) fun x => { x with group := masked v 0x800000000FFF0FFF, collNo := 0 }
  else if within 0x320200 64 8 then c.cancelColls (i 0x320200 8) v
  else if within 0x340000 (64 * 4096) 2 then
    c.modCtx (i 0x340000 8192) fun x => { x with members := mset x.members (i 0x340000 2 % 4096) (v.toNat % 4096) }
  else if within 0x400000 64 8 then c.modCtx (i 0x400000 8) fun x => { x with att := bitAt v.toNat 0 }
  else if within 0x410000 640 256 ∧ (off - 0x410000) % 256 = 8 then
    c.modW (i 0x410000 256) fun x => { x with dbg := { x.dbg with dsel := masked v 0xFFFFF0000000007F } }
  else c
/-- The offset names a register that PF and VF share, restricted (R436). -/
def sharedOffset (off : Nat) : Bool :=
  off < 0x1000 || (0x10000 ≤ off && off < 0x11000) || (0x20000 ≤ off && off < 0x21000) || (0x30000 ≤ off && off < 0x33000) ||
  (0x70000 ≤ off && off < 0x71000)
/-- The access has the register's width and alignment, and lies in the function's BAR0 (R434, R435). -/
def barAccess (fn off size : Nat) : Bool :=
  size == barWidth off && off % size == 0 && off < (if fn = 0 then 2 ^ 26 else 2 ^ 20)
/-- REGISTER_WRITE (R435): in recovery only the identity page is there (R479). UPDCMD, DCTL and DDATA have rows of their own. -/
def execRegisterWrite (fn off size : Nat) (v : Word) (s : State) : Out :=
  .next (s.modC fun c =>
    if !barAccess fn off size then c.send (.unsupported fn)
    else if c.power.boot = 0xE0 ∧ 0x1000 ≤ off then c
    else if sharedOffset off then c.putShared fn off v
    else if fn = 0 then c.putOwn off v
    else c)

/-! ## What registers read (R395, R397, R401, R403, R445, R478) -/

/-- GOVSTAT (R478). -/
def Core.govstat (c : Core) : Word :=
  let p := c.power
  let tmax := c.sectors.foldl (fun acc x => max acc x.2.temp) 0
  word (p.boot * 2 ^ 56 + p.berr * 2 ^ 48 + min 255 tmax * 2 ^ 40 + min 0xFFFF p.clkev * 2 ^ 16 + (p.railAsked - 600) / 5 * 2 ^ 8 +
    bnat p.shut * 128 + bnat p.safe * 64 + bnat p.hotTrip * 32 + c.clockStep)
/-- SBUD of a sector (R478). -/
def Core.sbud (c : Core) (sec : Nat) : Word := word (c.sectorCharge sec % 32 * 256 + (c.sector sec).budget % 32)
/-- QSTAT of a queue (R403): HEAD reads modulo the ring size. -/
def Core.qstat (c : Core) (q : Nat) : Word :=
  let x := c.queue q
  word (bnat x.halted * 2 ^ 63 + bnat (c.ovr q) * 2 ^ 62 + x.err * 2 ^ 40 + x.recno * 2 ^ 28 + x.head % x.ringSize)
/-- PSTAT of a port (R445). -/
def Core.pstat (c : Core) (p : Nat) : Word :=
  let l := c.link p
  word (bnat l.up * 2 ^ 63 + bnat l.en * 2 ^ 62 + l.deny * 2 ^ 32 + l.replay * 2 ^ 16)
/-- UPDSTAT (R477). -/
def Core.updstat (c : Core) : Word := word (c.host.updState * 2 ^ 56 + c.host.updErr * 2 ^ 48 + bnat c.host.slot)
/-- A word of a log ring's entries, HEAD, TAIL or LOST (R397). -/
def LogRing.at (r : LogRing) (i : Nat) : Word := (mget r.entries (i / 4) []).getD (i % 4) 0
def LogRing.reg (r : LogRing) (i : Nat) : Word := word ([r.head, r.tail, r.lost].getD i 0)
/-- Word i of a tower's remap table, of a weave's cell map, of a pair's bus map (R347 to R349). -/
def Core.remapWord (c : Core) (key i : Nat) : Word :=
  wordOf ((List.range 8).map fun j => ((mget? (c.tower key).remap (8 * i + j)).map (·.toNat)).getD (128 + 8 * i + j))
where wordOf (bs : List Nat) : Word := word (bs.foldr (fun b acc => b + 256 * acc) 0)
def Core.cellMapWord (c : Core) (w : Nat) : Word := Core.remapWord.wordOf ((List.range 8).map (c.physCell w))
def Core.busMapWord (c : Core) (pair i : Nat) : Word := Core.remapWord.wordOf ((List.range 8).map fun j => (c.busMap pair).getD (8 * i + j) 0)
/-- What a register of PF BAR0 reads. -/
def Core.readBar0 (c : Core) (off : Nat) : Word :=
  let i (base width : Nat) : Nat := (off - base) / width
  let within (base n width : Nat) : Bool := base ≤ off && off < base + n * width
  if c.power.boot = 0xE0 ∧ 0x1000 ≤ off then 0
  else if off = 0x100 then word c.host.modid
  else if within 0x108 17 8 then c.host.haper.getD (i 0x108 8) 0
  else if off = 0x200 then c.govstat
  else if off = 0x300 then c.host.updAddr
  else if off = 0x308 then c.host.updLen
  else if off = 0x318 then c.updstat
  else if within 0x400 160 8 then c.sbud (i 0x400 8)
  else if within 0x1000 64 8 then word (c.ctx (i 0x1000 8)).fn
  else if within 0x10000 512 8 then (c.ctx (i 0x10000 64)).words.getD (i 0x10000 8 % 8) 0
  else if within 0x11000 512 8 then (c.ctx (i 0x11000 64)).fault.getD (i 0x11000 8 % 8) 0
  else if within 0x20000 512 8 then
    [(c.queue (i 0x20000 32)).qcfg, (c.queue (i 0x20000 32)).qbase, c.qstat (i 0x20000 32), 0].getD (i 0x20000 8 % 4) 0
  else if within 0x30000 1024 4 then (((c.ctx (i 0x30000 64)).damask.getD (i 0x30000 4 % 16) 0).setWidth 64)
  else if within 0x31000 1024 8 then (c.ctx (i 0x31000 128)).damStat.getD (i 0x31000 8 % 16) 0
  else if within 0x40000 4096 8 then c.host.errLog.at (i 0x40000 8)
  else if within 0x48000 4096 8 then c.host.poisonLog.at (i 0x48000 8)
  else if within 0x50000 3 8 then c.host.errLog.reg (i 0x50000 8)
  else if within 0x50018 3 8 then c.host.poisonLog.reg (i 0x50018 8)
  else if within 0x60000 194 8 then mget c.host.sources (i 0x60000 8) 0
  else if within 0x70000 512 8 then mget c.host.msixTable (msixKey 0 (i 0x70000 8)) (if i 0x70000 8 % 2 = 1 then word (2 ^ 32) else 0)
  else if within 0x71000 4 8 then mget c.host.msixPend (i 0x71000 8) 0
  else if within 0x80000 160 8 then word ((c.sector (i 0x80000 8)).slipTick * 2 ^ 32 + (c.sector (i 0x80000 8)).slipCount)
  else if within 0x81000 640 8 then mget c.host.inject (i 0x81000 8) 0
  else if within 0x100000 (5760 * 8) 8 then c.remapWord (i 0x100000 64) (i 0x100000 8 % 8)
  else if within 0x160000 640 8 then c.cellMapWord (i 0x160000 8)
  else if within 0x162000 160 8 then c.busMapWord (i 0x162000 16) (i 0x162000 8 % 2)
  else if 0x1000000 ≤ off ∧ off < 0x2000000 then ((unitAt (i 0x1000000 32)).map fun u => c.healthEntry u |>.getD (i 0x1000000 8 % 4) 0).getD 0
  else if within 0x200000 (97 * 16) 8 then
    -- V of a range of Alapavor that overlaps a context's is held at 0 (R457)
    let x := mget c.host.access (i 0x200000 8) 0
    if i 0x200000 8 % 2 = 0 ∧ !c.rangeValid (i 0x200000 128) (i 0x200000 16 % 8) then setBits x 63 63 0 else x
  else if within 0x300000 36 8 then c.pstat (i 0x300000 8)
  else if within 0x301000 256 8 then mget c.host.receive (i 0x301000 8) 0
  else if within 0x310000 4096 8 then mget c.host.routes (i 0x310000 8) 0
  else if within 0x320000 64 8 then (c.ctx (i 0x320000 8)).group
  else if within 0x340000 (64 * 4096) 2 then word (mget (c.ctx (i 0x340000 8192)).members (i 0x340000 2 % 4096) 0)
  else if within 0x400000 64 8 then word (bnat (c.ctx (i 0x400000 8)).att)
  else if within 0x410000 (640 * 32) 8 then
    let w := i 0x410000 256
    [word (8 * bnat (c.weave w).dbg.halted.isSome), (c.weave w).dbg.dsel,
      if (c.weave w).dbg.halted.isSome then c.debugRead w else 0].getD (i 0x410000 8 % 32) 0
  else 0

/-- What a register of a function's BAR0 reads: a VF sees its own contexts and queues, its HAPER and its MSI-X words (R436,
R437). -/
def Core.readBar (c : Core) (fn off : Nat) : Word :=
  let i (base width : Nat) : Nat := (off - base) / width
  let within (base n : Nat) : Bool := base ≤ off && off < base + n
  let own (ctx : Nat) : Word := if c.sees fn ctx then c.readBar0 off else 0
  if fn = 0 then c.readBar0 off
  else if off = 0x108 then c.host.haper.getD fn 0
  else if within 0x10000 0x1000 then own (i 0x10000 64)
  else if within 0x11000 0x1000 then own (i 0x11000 64)
  else if within 0x20000 0x1000 then own (c.queue (i 0x20000 32)).ctx
  else if within 0x30000 0x1000 then own (i 0x30000 64)
  else if within 0x31000 0x2000 then own (i 0x31000 128)
  else if within 0x70000 0x1000 then mget c.host.msixTable (msixKey fn (i 0x70000 8)) (if i 0x70000 8 % 2 = 1 then word (2 ^ 32) else 0)
  else if within 0x71000 32 then mget c.host.msixPend (fn * 4 + i 0x71000 8) 0
  else 0

/-- A host read of BAR0 (R434 to R436): at another size, misaligned or across two registers it gets UR. -/
def Core.barRead (c : Core) (fn off size : Nat) : Core :=
  if barAccess fn off size then c.send (.readData fn ((natBytes size (c.readBar fn off).toNat).map (BitVec.ofNat 8)))
  else c.send (.unsupported fn)
/-- The rows that are requests of the host on the link (R435 to R439, R444). -/
def fromHost : Instr → Bool
  | .bar2Write .. | .bar2Read .. | .doorbellTailWrite .. | .semsig .. | .qstatHaltRestart .. | .contextEntryWrite ..
  | .damaskAttributeWrite .. | .collectiveCancel .. | .firmwareStage .. | .firmwareActivate .. | .debugHaltRequest .. | .debugResume ..
  | .debugStep .. | .debugDataAccess .. | .registerWrite .. | .atomicopRequest .. | .keyExchange .. | .challenge .. | .measurements ..
  | .hostSectorRelease .. => true
  | _ => false
/-- What the doorbell page of BAR4 reads (R7, R438): TAIL; SEMSIG, which is write-only, and all else read 0. -/
def Core.readDoorbell (c : Core) (off : Nat) : Word :=
  if off % 4096 = 0 ∧ off / 4096 < 128 then word (c.queue (off / 4096)).tail else 0

/-! ## Identity and attestation (R443, R482) -/

/-- KEY_EXCHANGE (R443): IDE has its keys; the response is signed with the identity key (R482). -/
def execKeyExchange (session : Nat) (s : State) : Out :=
  .next (s.modC fun c => (c.modHost fun h => { h with session := session, ideOn := true }).send (.signature (Config.signature session [])))
/-- CHALLENGE (R482): answered with a signature by the identity key. -/
def execChallenge (nonce : Nat) (s : State) : Out := .next (s.modC fun c => c.send (.signature (Config.signature nonce [])))
/-- The bytes of the health area, which holds the field retirements (R480, R482; log 15). -/
def Core.healthArea (c : Core) : List (BitVec 8) :=
  (c.health.filter fun p => p.2.state == 2).flatMap fun p => (natBytes 4 p.1).map (BitVec.ofNat 8)
/-- The measurements (R482): of the ROM, the active image, the configuration record, the health area. -/
def Core.measurements (c : Core) : List (BitVec 384) :=
  [Config.rom, ((c.host.images[bnat c.host.slot]?).map (·.content)).getD [], c.host.record.content, c.healthArea].map Config.sha384
/-- MEASUREMENTS (R482): the four digests, then the signature over them. -/
def execMeasurements (nonce : Nat) (s : State) : Out :=
  .next (s.modC fun c =>
    let ds := c.measurements
    (ds.foldl (fun (c : Core) d => c.send (.digest d)) c).send (.signature (Config.signature nonce ds)))

end Sys2Proof.Machine
end

