-- ==== Sys2Proof/Machine/LaneInt.lean ====
section
/-! DEFINITION. Class V: lane integer, bit-field, move and predicate forms (R159 to R172). Each writes the active lanes
only (R160). -/
namespace Sys2Proof.Machine

/-- A form of two operands, element by element, in the active lanes (R159, R160). -/
def State.laneBin (s : State) (sz : Sz) (L : Nat) (f : Nat → Nat → Nat → Nat) (d a b : Reg) (k : KReg) : State :=
  s.putV d L (s.active k) fun l => mapElems2 sz.width (f sz.width) (s.vreg a l) (s.vreg b l)
/-- A form of one operand (R170). -/
def State.laneUn (s : State) (sz : Sz) (f : Nat → Nat → Nat) (d a : Reg) (k : KReg) : State :=
  s.putV d 1 (s.active k) fun l => mapElems sz.width (f sz.width) (s.vreg a l)
/-- A form that reads its destination (R167, R169). -/
def State.laneTer (s : State) (sz : Sz) (f : Nat → Nat → Nat → Nat → Nat) (d a b : Reg) (k : KReg) : State :=
  s.putV d 1 (s.active k) fun l => mapElems3 sz.width (f sz.width) (s.vreg d l) (s.vreg a l) (s.vreg b l)
/-- A compare of every element (R165). -/
def State.laneCmp (s : State) (sz : Sz) (f : Nat → Nat → Nat → Bool) (kd : KReg) (a b : Reg) (k : KReg) : State :=
  s.putK kd 1 (s.active k) fun l =>
    (List.range (64 / sz.width)).all fun i => f sz.width (elem (s.vreg a l) sz.width i) (elem (s.vreg b l) sz.width i)
/-- An immediate form (R164): it acts in every lane. -/
def State.laneImm (s : State) (sz : Sz) (f : Nat → Nat → Nat → Nat) (d a : Reg) (imm : BitVec 9) : State :=
  s.putV d 1 allLanes fun l => mapElems sz.width (fun x => f sz.width x (wrap imm.toInt sz.width)) (s.vreg a l)
/-- A shift by an immediate (R164). -/
def State.laneShi (s : State) (sz : Sz) (f : Nat → Nat → Nat → Nat) (d a : Reg) (n : BitVec 6) : State :=
  s.putV d 1 allLanes fun l => mapElems sz.width (fun x => f sz.width x n.toNat) (s.vreg a l)

/-- `vadd` (R163). -/
def execVadd (sz : Sz) (d a b : Reg) (k : KReg) (s : State) : Out := .next (s.laneBin sz 1 iAdd d a b k)
/-- `vsub` (R163). -/
def execVsub (sz : Sz) (d a b : Reg) (k : KReg) (s : State) : Out := .next (s.laneBin sz 1 iSub d a b k)
/-- `vmul` (R163). -/
def execVmul (sz : Sz) (d a b : Reg) (k : KReg) (s : State) : Out := .next (s.laneBin sz 2 iMul d a b k)
/-- `vmulh` (R163). -/
def execVmulh (sz : Sz) (d a b : Reg) (k : KReg) (s : State) : Out := .next (s.laneBin sz 2 iMulh d a b k)
/-- `vmulhu` (R163). -/
def execVmulhu (sz : Sz) (d a b : Reg) (k : KReg) (s : State) : Out := .next (s.laneBin sz 2 iMulhu d a b k)
/-- `vand` (R163). -/
def execVand (sz : Sz) (d a b : Reg) (k : KReg) (s : State) : Out := .next (s.laneBin sz 1 (fun _ => iAnd) d a b k)
/-- `vor` (R163). -/
def execVor (sz : Sz) (d a b : Reg) (k : KReg) (s : State) : Out := .next (s.laneBin sz 1 (fun _ => iOr) d a b k)
/-- `vxor` (R163). -/
def execVxor (sz : Sz) (d a b : Reg) (k : KReg) (s : State) : Out := .next (s.laneBin sz 1 (fun _ => iXor) d a b k)
/-- `vandn` (R163). -/
def execVandn (sz : Sz) (d a b : Reg) (k : KReg) (s : State) : Out := .next (s.laneBin sz 1 iAndn d a b k)
/-- `vshl` (R163). -/
def execVshl (sz : Sz) (d a b : Reg) (k : KReg) (s : State) : Out := .next (s.laneBin sz 1 (fun w x y => iShl w x (shAmt w y)) d a b k)
/-- `vshr` (R163). -/
def execVshr (sz : Sz) (d a b : Reg) (k : KReg) (s : State) : Out := .next (s.laneBin sz 1 (fun w x y => iShr x (shAmt w y)) d a b k)
/-- `vsar` (R163). -/
def execVsar (sz : Sz) (d a b : Reg) (k : KReg) (s : State) : Out := .next (s.laneBin sz 1 (fun w x y => iSar w x (shAmt w y)) d a b k)
/-- `vrot` (R163). -/
def execVrot (sz : Sz) (d a b : Reg) (k : KReg) (s : State) : Out := .next (s.laneBin sz 1 (fun w x y => iRot w x (shAmt w y)) d a b k)
/-- `vmin` (R163). -/
def execVmin (sz : Sz) (d a b : Reg) (k : KReg) (s : State) : Out := .next (s.laneBin sz 1 iMin d a b k)
/-- `vmax` (R163). -/
def execVmax (sz : Sz) (d a b : Reg) (k : KReg) (s : State) : Out := .next (s.laneBin sz 1 iMax d a b k)
/-- `vminu` (R163). -/
def execVminu (sz : Sz) (d a b : Reg) (k : KReg) (s : State) : Out := .next (s.laneBin sz 1 (fun _ => iMinu) d a b k)
/-- `vmaxu` (R163). -/
def execVmaxu (sz : Sz) (d a b : Reg) (k : KReg) (s : State) : Out := .next (s.laneBin sz 1 (fun _ => iMaxu) d a b k)
/-- `vabsd` (R163). -/
def execVabsd (sz : Sz) (d a b : Reg) (k : KReg) (s : State) : Out := .next (s.laneBin sz 1 iAbsd d a b k)
/-- `vaddsat` (R163). -/
def execVaddsat (sz : Sz) (d a b : Reg) (k : KReg) (s : State) : Out := .next (s.laneBin sz 1 iAddsat d a b k)
/-- `vsubsat` (R163). -/
def execVsubsat (sz : Sz) (d a b : Reg) (k : KReg) (s : State) : Out := .next (s.laneBin sz 1 iSubsat d a b k)
/-- `vcmpeq` (R165). -/
def execVcmpeq (sz : Sz) (kd : KReg) (a b : Reg) (k : KReg) (s : State) : Out :=
  .next (s.laneCmp sz (fun _ x y => x == y) kd a b k)
/-- `vcmplt` (R165). -/
def execVcmplt (sz : Sz) (kd : KReg) (a b : Reg) (k : KReg) (s : State) : Out :=
  .next (s.laneCmp sz (fun w x y => decide (signed x w < signed y w)) kd a b k)
/-- `vcmpltu` (R165). -/
def execVcmpltu (sz : Sz) (kd : KReg) (a b : Reg) (k : KReg) (s : State) : Out :=
  .next (s.laneCmp sz (fun _ x y => decide (x < y)) kd a b k)
/-- `vsel` (R166): the predicate selects, and every lane writes. -/
def execVsel (_sz : Sz) (d a b : Reg) (k : KReg) (s : State) : Out :=
  .next (s.putV d 1 allLanes fun l => if s.kreg k l then s.vreg a l else s.vreg b l)
/-- `vbfx` (R167): one control word for every element of the lane. -/
def execVbfx (sz : Sz) (d a b : Reg) (k : KReg) (s : State) : Out :=
  .next (s.putV d 1 (s.active k) fun l => mapElems sz.width (fun x => iBfx sz.width x (s.vreg b l).toNat) (s.vreg a l))
/-- `vbfxs` (R167). -/
def execVbfxs (sz : Sz) (d a b : Reg) (k : KReg) (s : State) : Out :=
  .next (s.putV d 1 (s.active k) fun l => mapElems sz.width (fun x => iBfxs sz.width x (s.vreg b l).toNat) (s.vreg a l))
/-- `vbfi` (R167): reads v[d]. -/
def execVbfi (sz : Sz) (d a b : Reg) (k : KReg) (s : State) : Out :=
  .next (s.putV d 1 (s.active k) fun l =>
    mapElems2 sz.width (fun z x => iBfi sz.width z x (s.vreg b l).toNat) (s.vreg d l) (s.vreg a l))
/-- `vfsh` (R169): amounts in v[d]. -/
def execVfsh (sz : Sz) (d a b : Reg) (k : KReg) (s : State) : Out :=
  .next (s.laneTer sz (fun w t x y => iFsh w x y (shAmt w t)) d a b k)
/-- `vclz` (R170). -/
def execVclz (sz : Sz) (d a : Reg) (k : KReg) (s : State) : Out := .next (s.laneUn sz (fun w x => leadingZeros x w) d a k)
/-- `vpopc` (R170). -/
def execVpopc (sz : Sz) (d a : Reg) (k : KReg) (s : State) : Out := .next (s.laneUn sz (fun w x => popcount x w) d a k)
/-- `vrev` (R170). -/
def execVrev (sz : Sz) (d a : Reg) (k : KReg) (s : State) : Out := .next (s.laneUn sz (fun w x => revBits x w) d a k)
/-- `vbswap` (R170). -/
def execVbswap (sz : Sz) (d a : Reg) (k : KReg) (s : State) : Out := .next (s.laneUn sz (fun w x => revBytes x w) d a k)
/-- `vaddi` (R164). -/
def execVaddi (sz : Sz) (d a : Reg) (imm : BitVec 9) (s : State) : Out := .next (s.laneImm sz iAdd d a imm)
/-- `vandi` (R164). -/
def execVandi (sz : Sz) (d a : Reg) (imm : BitVec 9) (s : State) : Out := .next (s.laneImm sz (fun _ => iAnd) d a imm)
/-- `vori` (R164). -/
def execVori (sz : Sz) (d a : Reg) (imm : BitVec 9) (s : State) : Out := .next (s.laneImm sz (fun _ => iOr) d a imm)
/-- `vxori` (R164). -/
def execVxori (sz : Sz) (d a : Reg) (imm : BitVec 9) (s : State) : Out := .next (s.laneImm sz (fun _ => iXor) d a imm)
/-- `vshli` (R164). -/
def execVshli (sz : Sz) (d a : Reg) (n : BitVec 6) (s : State) : Out := .next (s.laneShi sz iShl d a n)
/-- `vshri` (R164). -/
def execVshri (sz : Sz) (d a : Reg) (n : BitVec 6) (s : State) : Out := .next (s.laneShi sz (fun _ => iShr) d a n)
/-- `vsari` (R164). -/
def execVsari (sz : Sz) (d a : Reg) (n : BitVec 6) (s : State) : Out := .next (s.laneShi sz iSar d a n)
/-- `vbfxi` (R168): over the whole lane, in every lane. -/
def execVbfxi (d a : Reg) (pos : BitVec 6) (len1 : BitVec 5) (s : State) : Out :=
  .next (s.putV d 1 allLanes fun l => word (bits (s.vreg a l).toNat (pos.toNat + len1.toNat) pos.toNat))
/-- `vfshi` (R169): over the whole lane, in every lane. -/
def execVfshi (d a b : Reg) (n : BitVec 6) (s : State) : Out :=
  .next (s.putV d 1 allLanes fun l => word (iFsh 64 (s.vreg a l).toNat (s.vreg b l).toNat n.toNat))
/-- `vmovi` (R171). -/
def execVmovi (d : Reg) (imm : BitVec 16) (s : State) : Out := .next (s.putV d 1 allLanes fun _ => imm.signExtend 64)
/-- `vlid` (R171). -/
def execVlid (d : Reg) (s : State) : Out := .next (s.putV d 1 allLanes fun l => word l)
/-- `vbcs` (R171): s[a] is read at issue. -/
def execVbcs (sz : Sz) (d a : Reg) (k : KReg) (s : State) : Out :=
  .next (s.putV d 1 (s.active k) fun _ => mapElems sz.width (fun _ => elem (s.sreg a) sz.width 0) 0)
/-- `kand` (R172). -/
def execKand (kd ka kb : KReg) (s : State) : Out := .next (s.putK kd 1 allLanes fun l => s.kreg ka l && s.kreg kb l)
/-- `kor` (R172). -/
def execKor (kd ka kb : KReg) (s : State) : Out := .next (s.putK kd 1 allLanes fun l => s.kreg ka l || s.kreg kb l)
/-- `kxor` (R172). -/
def execKxor (kd ka kb : KReg) (s : State) : Out := .next (s.putK kd 1 allLanes fun l => s.kreg ka l != s.kreg kb l)
/-- `knot` (R172). -/
def execKnot (kd ka : KReg) (s : State) : Out := .next (s.putK kd 1 allLanes fun l => !s.kreg ka l)
/-- `kmov` (R172). -/
def execKmov (kd ka : KReg) (s : State) : Out := .next (s.putK kd 1 allLanes fun l => s.kreg ka l)
/-- `kset` (R172). -/
def execKset (kd : KReg) (v : Bool) (s : State) : Out := .next (s.putK kd 1 allLanes fun _ => v)
/-- `vmask` (R172). -/
def execVmask (kd : KReg) (a : Reg) (s : State) : Out := .next (s.putK kd 1 allLanes fun l => s.vreg a l != 0)

end Sys2Proof.Machine
end

