-- ==== Sys2Proof/Machine/Power.lean ====
section
/-! DEFINITION. Supply, clocks and budgets (R463 to R469), thermal limits and cooling (R470 to R472), the safe state (R476),
reset and boot (R479, R480), firmware (R475, R477). -/
namespace Sys2Proof.Machine

/-! ## Clock events and steps (R463 to R467) -/

/-- An entry of kind 13 (R483): a clock event or a forced step change. -/
def Core.logClock (c : Core) (before after flags : Nat) : Core :=
  c.logEntry 0xFFFFFFFF 13 0 0 (word (before + after * 2 ^ 8 + flags)) 0
/-- The rest of the current tick is stretched (R464): one clock event. -/
def Core.stretch (c : Core) : Core :=
  if c.power.stretched = some c.tick then c
  else
    let c := c.modPower fun p => { p with stretched := some c.tick, clkev := min 0xFFFF (p.clkev + 1) }
    c.logClock c.clockStep c.clockStep (2 ^ 16)
/-- A clock step comes into force: a forced change is logged, and launches are notified (R473, R483). -/
def Core.setStep (c : Core) (step : Nat) (forcedBy : Option Nat) : Core :=
  if c.clockStep = step then c
  else
    let c' := { c with clockStep := step }.replanAll c
    (match forcedBy with
      | some f => c'.logClock c.clockStep step f
      | none => c').notifyAll
/-- The current tick is clock-safe (R466): every sequencer of every running timed launch has named it as its target, or starts
in it. -/
def Core.clockSafe (c : Core) : Bool :=
  c.launches.all fun p =>
    let l := p.2
    !l.timed || l.started.isNone || l.ended || decide (c.tick ≤ l.startTick) ||
    l.weaves.all fun w => l.halted.contains w || l.parked.contains w || (c.weave w).clockSafe == some c.tick
/-- The rail holds the step's minimum (R463). -/
def Core.railHolds (c : Core) (step : Nat) : Bool := Config.stepVolts step ≤ c.power.rail
/-- A sector's budget comes into force (R227, R469, R473). -/
def Core.setBudget (c : Core) (sec budget : Nat) : Core :=
  let old := (c.sector sec).budget
  let c := c.modSec sec fun x => { x with budget := budget, pendBudget := none }
  if old = budget then c
  else
    let c := (if budget < old then c.cutBudget sec 16 else c).chargesFell sec
    match (c.sector sec).launch with
    | some n => c.notifyLaunch n
    | none => c
/-- The safe state (R476). -/
def Core.enterSafe (c : Core) : Core :=
  let c := c.modPower fun p => { p with
    safe := true, safePend := false, forced := none, forcedBy := 0, pendStep := none, lowering := false
    safeStep := false, safeBudget := false, railAsked := max 600 p.railAsked }
  (List.range Config.sectorCount).foldl (fun c s => c.setBudget s 12) (c.setStep 4 (some (2 ^ 18)))
/-- The governor looks again at the decks when it may lower a step next, 10 ms after the last (R471). -/
def Core.governLater (c : Core) : Core :=
  if c.power.owed then c
  else (c.modPower fun p => { p with owed := true }).schedWall (c.power.stepAt + 10 * Config.msUnits - c.wall) bHost 0 .governor
/-- A deck junction reads 105 °C or above (R471). -/
def Core.deckHot (c : Core) : Bool := c.sectors.any fun p => decide (105 ≤ p.2.temp)
/-- The step asked for comes into force. Of a step that the governor lowers, the next comes no earlier than 10 ms later, and comes then
while a deck is still hot (R471). -/
def Core.applyStep (c : Core) (step : Nat) : Core :=
  let mine := c.power.lowering
  let c := (c.modPower fun p => { p with pendStep := none, lowering := false, stepAt := if mine then c.wall else p.stepAt }).setStep step none
  if mine && c.deckHot then c.governLater else c
/-- Cycle 0 of a tick: a stretch goes on, the safe state and forced steps come first, then a step that firmware has asked for, which the
safe state holds back (R476). -/
def Core.clockApply (c : Core) : Core :=
  let c := if c.power.tripNow then c.stretch else c
  let c :=
    if c.power.safePend then c.enterSafe
    else match c.power.forced with
      | some s => (c.modPower fun p => { p with forced := none, forcedBy := 0, pendStep := none, lowering := false }).setStep s (some c.power.forcedBy)
      | none => match c.power.pendStep with
        | some s => if c.clockSafe && c.railHolds s && !c.power.safe then c.applyStep s else c
        | none => c
  if c.power.tripNow || c.power.stretched == some c.tick || c.power.pendStep.isSome then c.wantClock else c
/-- Firmware writes are taken: while it runs (R479), not in the safe state before 1 s after ready (R476), nor after a shutdown. -/
def Core.governs (c : Core) : Bool :=
  !c.power.shut && c.power.boot == 4 && (!c.power.safe || decide (c.power.readyAt + Config.secUnits ≤ c.wall))
/-- A budget that firmware has written takes effect at the next tick (R469). -/
def Core.wantBudget (c : Core) (sec : Nat) : Core := c.sched ((c.tick + 1) * Config.tickCycles) bLand 1 (.budgetApply sec)
/-- The safe state ends once firmware has written a step and a budget in it; both then take effect (R476; log 60). -/
def Core.leaveSafe (c : Core) : Core :=
  if c.power.safe && c.power.safeStep && c.power.safeBudget then
    let c := (c.modPower fun p => { p with safe := false }).wantClock
    c.sectors.foldl (fun c p => if p.2.pendBudget.isSome then c.wantBudget p.1 else c) c
  else c
/-- CLOCK_STEP_CHANGE (R466): no step is raised while the 115 °C trip is active (R471). A step that the governor is lowering stays at least
as low. -/
def execClockStepChange (step : Nat) (s : State) : Out :=
  .next (s.modC fun c =>
    if !c.governs || (c.power.hotTrip && step < c.clockStep) then c
    else (c.modPower fun p => { p with
      pendStep := some (if p.lowering then max step (p.pendStep.getD step) else step), safeStep := true }).wantClock.leaveSafe)
/-- RAIL_VOLTAGE_SETTING (R463): clamped, in steps of 5 mV; `measured` is the rail that results. -/
def execRailVoltageSetting (mv measured : Nat) (s : State) : Out :=
  .next (s.modC fun c =>
    let c := c.modPower fun p => { p with railAsked := min 780 (max 600 mv) / 5 * 5, rail := measured }
    if c.power.pendStep.isSome then c.wantClock else c)
/-- SECTOR_BUDGET_CHANGE (R469): clamped to 8 to 20 DU (R474), from the next tick. -/
def execSectorBudgetChange (sector budget : Nat) (s : State) : Out :=
  .next (s.modC fun c =>
    if !c.governs then c
    else
      let c := (c.modSec sector fun x => { x with pendBudget := some (min 20 (max 8 budget)) }).modPower fun p => { p with safeBudget := true }
      if c.power.safe then c.leaveSafe else c.wantBudget sector)
/-- A budget comes into force; the safe state holds it back (R476). -/
def Core.budgetApply (c : Core) (sec : Nat) : Core :=
  match (c.sector sec).pendBudget with
  | some b => if c.power.safe then c else c.setBudget sec b
  | none => c

/-! ## Current, heat, coolant (R464, R470, R471) -/

/-- CURRENT_TRIP (R464): current above 20,000 A, or no longer. -/
def execCurrentTrip (asserted : Bool) (s : State) : Out :=
  .next (s.modC fun c =>
    if asserted then
      let c := c.modPower fun p => { p with tripNow := true, tripSince := some (p.tripSince.getD c.wall) }
      c.stretch.wantClock.schedWall (10 * Config.usUnits) bHost 0 .limits
    else c.modPower fun p => { p with tripNow := false, tripSince := none })
/-- SUSTAINED_CURRENT_LIMIT (R464): the safe state, at the next tick. -/
def execSustainedCurrentLimit (s : State) : Out :=
  .next (s.modC fun c => (c.modPower fun p => { p with safePend := true }).wantClock)
/-- The governor lowers the step by one at the next clock-safe tick, no more often than every 10 ms (R471). -/
def Core.governorLower (c : Core) : Core :=
  if c.power.lowering then c
  else if c.power.stepAt = 0 ∨ c.power.stepAt + 10 * Config.msUnits ≤ c.wall then (c.modPower fun p => { p with lowering := true }).lowerStep
  else c.governLater
/-- The governor looks again: a step that it owes comes now. -/
def Core.govern (c : Core) : Core :=
  if c.power.owed then (c.modPower fun p => { p with owed := false }).governorLower else c
/-- BANK_EVACUATION (R356, R357): where nothing can be evacuated, the governor acts by clock step alone. -/
def execBankEvacuation (w cell bank : Nat) (s : State) : Out :=
  .next (s.modC fun c =>
    let (c, refused) := c.evacuateBank w cell bank
    if refused then c.governorLower else c)
/-- THERMAL_TRIP (R471): a junction sensor reads a temperature in °C. -/
def execThermalTrip (sector temp : Nat) (s : State) : Out :=
  .next (s.modC fun c =>
    let c := c.modSec sector fun x => { x with temp := temp }
    -- the trip clears when every sensor reads 105 °C or less
    let c := if c.sectors.all fun p => decide (p.2.temp ≤ 105) then c.modPower fun p => { p with hotTrip := false, hotSince := none } else c
    if 115 ≤ temp then
      if c.power.hotTrip then c
      else
        let c := c.modPower fun p => { p with hotTrip := true, hotSince := some c.wall, forced := some 4, forcedBy := p.forcedBy ||| 2 ^ 17 }
        c.wantClock.schedWall (100 * Config.msUnits) bHost 0 .limits
    else if 105 ≤ temp then c.governorLower
    else c)
/-- THERMAL_TRIP_CLEAR (R471): every sensor reads 105 °C or less. -/
def execThermalTripClear (s : State) : Out :=
  .next (s.modC fun c =>
    let c := { c with sectors := c.sectors.map fun ((n, x) : Nat × Sector) => (n, { x with temp := min 105 x.temp }) }
    c.modPower fun p => { p with hotTrip := false, hotSince := none })
/-- COOLANT_SAMPLE (R470): °C, °C and L/min. -/
def execCoolantSample (inlet outlet flow : Nat) (s : State) : Out :=
  .next (s.modC fun c =>
    let c := c.modPower fun p => { p with
      inlet := inlet
      outlet := outlet
      flow := flow
      lowFlowSince := if flow < 4 then some (p.lowFlowSince.getD c.wall) else none }
    let hot : Bool := c.sectors.any fun p => decide (105 < p.2.temp)
    let c := if (35 < inlet || flow < 8) && hot then c.governorLower else c
    if flow < 4 then c.schedWall (100 * Config.msUnits) bHost 0 .limits else c)
/-- The conditions of a shutdown that stand now (R472): thermal, current, flow. -/
def Core.limitsHit (c : Core) : Bool × Bool × Bool :=
  let p := c.power
  let since (x : Option Nat) (d : Nat) : Bool := match x with | some t => decide (t + d ≤ c.wall) | none => false
  (p.hotTrip && since p.hotSince (100 * Config.msUnits) && c.sectors.any fun x => decide (115 ≤ x.2.temp),
   p.tripNow && since p.tripSince (10 * Config.usUnits), since p.lowFlowSince (100 * Config.msUnits))
/-- Every context ends, without a fault record (R472). In decks without power no bank moves and no tower is refreshed. -/
def Core.endAll (c : Core) : Core :=
  let c := c.unsched fun a => match a with
    | .refresh _ | .refreshBlackoutEnd _ | .evacuate _ _ _ | .evacuationCommit _ _ _ | .spillCommit _ _ _ => true
    | _ => false
  let c := { c with towers := c.towers.map fun ((k, t) : Nat × Tower) => (k, { t with moving := [] }) }
  let c := (List.range 64).foldl (fun c ctx => if c.launches.any fun p => p.2.ctx == ctx then c.stopContext ctx else c) c
  { c with
    launches := []
    graphs := []
    gzNet := []
    cpWords := []
    tests := []
    weaves := c.weaves.map fun ((w, x) : Nat × Weave) => (w, { x with launch := none, running := false, parked := false })
    sectors := c.sectors.map fun ((s, x) : Nat × Sector) => (s, { x with owner := none, launch := none, preloaded := none, kept := false, heldFor := none })
    queues := c.queues.map fun ((q, x) : Nat × Queue) => (q, { x with cmds := [], parked := [], armed := [], timers := [] }) }
/-- SHUTDOWN (R472). -/
def execShutdown (thermal current flow : Bool) (s : State) : Out :=
  .next (s.modC fun c =>
    if c.power.shut || !(thermal || current || flow) then c
    else
      let c := c.endAll.modPower fun p => { p with shut := true }
      c.logEntry 0xFFFFFFFF 14 0 0 (word (bnat thermal + 2 * bnat current + 4 * bnat flow)) 0)

/-! ## Boot (R479, R480) -/

/-- What a reset leaves of the module: memory with its flipped bits and poison, the flash, and the field retirements and remaps that its
health area holds, which count only where its signature is good (R480). What the outside is yet to do stays as far ahead as it was (log
36). -/
def Core.afterReset (c : Core) (healthOk : Bool) : Core :=
  let r : Core := { State.reset.core with
    mem := c.mem
    poison := c.poison
    hbmPoison := c.hbmPoison
    hbmInjected := c.hbmInjected
    flips := c.flips
    parityFlips := c.parityFlips
    hbmFlips := c.hbmFlips
    hbmFixed := c.hbmFixed
    outbox := c.outbox
    inbox := c.inbox.map fun p => (p.1 - c.now, p.2)
    agenda := State.reset.core.agenda ++ (c.agenda.filter fun (e : Entry) =>
      match e.act with | .outer _ | .patrolRow _ | .hbmPatrolRow _ => true | _ => false).map fun (e : Entry) =>
      match e.due with
      | .cycle t => { e with due := .cycle (t - c.now) }
      | .wall u => { e with due := .wall (u - c.wall) }
    nextId := c.nextId
    freeCtr := c.freeCtr
    host := { HostLink.reset with images := c.host.images, slot := c.host.slot, record := c.host.record, prevVersion := c.host.prevVersion }
    health := if healthOk then (c.health.filter fun p => p.2.state == 2).map fun ((n, h) : Nat × Health) => (n, { Health.reset with state := h.state }) else [] }
  r
/-- What the board's interface has written into the flash (R479). -/
def HostLink.flashed (h : HostLink) (b : BootInputs) : HostLink :=
  let h := { h with images := b.images.foldl (fun xs p => xs.set p.1 p.2) h.images }
  match b.record with
  | some r => { h with record := r, prevVersion := h.record.version }
  | none => h
/-- The image passes its verification (R479): signed, and its security version not below the record's minimum. -/
def HostLink.imageOk (h : HostLink) (slot : Bool) : Bool :=
  match h.images[bnat slot]? with
  | some x => x.signed && decide (h.record.minSecurity ≤ x.version)
  | none => false
/-- The units that the configuration record retires (R393, R395). -/
def Core.retireByRecord (c : Core) (us : List UnitName) : Core :=
  us.foldl (fun c u => (c.modHealth (unitCode u) fun h => { h with state := 3 }).applyRetired u) c
/-- The unit that a word names (R394). -/
def unitOfCode (n : Nat) : UnitName := ⟨n / 2 ^ 28, n / 2 ^ 20 % 256, n % 2 ^ 20⟩
/-- The record is applied (R347 to R349, R393, R480): its maps, its retirements, then those of the health area. -/
def Core.applyRecord (c : Core) (healthOk : Bool) : Core :=
  let r := c.host.record
  let fields := c.health.filter fun p => p.2.state == 2
  let c := { c with
    towers := r.remap.foldl (fun m (p : Nat × List (Nat × BitVec 8)) => mset m p.1 { Tower.reset with remap := p.2.foldl (fun t (q : Nat × BitVec 8) => mset t q.1 q.2) [] }) []
    cellMaps := r.cellMaps.foldl (fun m (p : Nat × List Nat) => mset m p.1 p.2) []
    busMaps := r.busMaps.foldl (fun m (p : Nat × List Nat) => mset m p.1 p.2) [] }
  let c := c.retireByRecord r.retired
  let c := fields.foldl (fun c p => c.applyRetired (unitOfCode p.1)) c
  if healthOk then c else c.logEntry 0xFFFFFFFF 14 0 0 (word 8) 0
/-- Alapavor's boot enters recovery (R479). -/
def Core.recovery (c : Core) (err : Nat) : Core := c.endAll.modPower fun p => { p with boot := 0xE0, berr := err, cpOn := false }
/-- A stage of the boot ends after a free time (log 8). -/
def Core.nextStage (c : Core) (boot : Nat) : Core :=
  let (t, c) := c.freeWait
  (c.modPower fun p => { p with boot := boot }).sched (c.now + t) bHost 0 .bootStage
/-- The stage that BOOT names has done its work (R479): the next is reached, or recovery. Where Alapavor alone starts again, maps and links
stand as they are (log 61). -/
def Core.bootStage (c : Core) : Core :=
  let h := c.host
  let b := c.power.bootIn.getD ⟨[], none, true, true, true⟩
  match c.power.boot with
  | 0 =>
    if !b.pufOk then c.recovery 4
    else if h.imageOk h.slot then c.nextStage 1
    else if h.imageOk !h.slot then (c.modHost fun h => { h with slot := !h.slot }).nextStage 1
    else c.recovery 1
  | 1 =>
    if !h.record.signed then c.recovery 2
    else if h.record.version < h.prevVersion then c.recovery 3
    else if c.power.warm then c.nextStage 3
    else (c.applyRecord b.healthOk).nextStage 2
  | 2 =>
    if !b.hbmOk then c.recovery 5
    else ((List.range 36).foldl (fun c p => c.modLink p fun l => { l with up := true }) c).nextStage 3
  | 3 =>
    let c := c.modHost fun h => if h.updState = 3 then { h with updState := 4 } else h
    c.modPower fun p => { p with boot := 4, cpOn := true, warm := false, readyAt := c.wall, watchdog := some c.wall }
  | _ => c
/-- MODULE_RESET (R479): the boot stages begin, to ready or recovery. -/
def execModuleReset (b : BootInputs) (s : State) : Out :=
  .next (s.modC fun c => (((c.modHost fun h => h.flashed b).afterReset b.healthOk).modPower fun p => { p with bootIn := some b }).nextStage 0)

/-! ## Firmware (R475 to R477) -/

/-- Alapavor starts again, while the module runs on (R475, R477). -/
def Core.restartFirmware (c : Core) : Core :=
  ((c.unsched fun a => a == .bootStage).modPower fun p => { p with warm := true }).nextStage 0
/-- The bytes of the staged image (R477). -/
def Core.stagedImage (c : Core) : List (BitVec 8) :=
  (c.bytes (c.host.updAddr.toNat / 65536 * 65536) c.host.updLen.toNat).map (BitVec.ofNat 8)
/-- The verification of a staged image ends: its ERR, or the inactive slot is written (R477, R479). -/
def Core.firmwareVerdict (c : Core) (flashOk : Bool) : Core :=
  let bytes := c.stagedImage
  let err :=
    if 2 ^ 26 < c.host.updLen.toNat then 3
    -- Alapavor reads the image under its own ranges (R456, R457; log 58)
    else if !c.admits 0x42 (c.host.updAddr.toNat / 65536 * 65536) c.host.updLen.toNat false || !Config.imageSigned bytes then 1
    else if Config.imageVersion bytes < c.host.record.minSecurity then 2
    else if !flashOk then 4
    else 0
  if err = 0 then c.modHost fun h => { h with
    updState := 2, updErr := 0, images := h.images.set (bnat !h.slot) ⟨bytes, true, Config.imageVersion bytes⟩ }
  else c.modHost fun h => { h with updState := 0x80, updErr := err }
/-- FIRMWARE_STAGE (R477): STATE is 1 until the image is verified; `flashOk` tells whether the flash takes it. -/
def execFirmwareStage (flashOk : Bool) (s : State) : Out :=
  .next (s.modC fun c =>
    if c.host.updState = 1 ∨ c.host.updState = 3 then c
    else
      let (t, c) := c.freeWait
      (c.modHost fun h => { h with updState := 1, updErr := 0 }).sched (c.now + t) bHost 0 (.firmwareVerdict flashOk))
/-- FIRMWARE_ACTIVATE (R477): Alapavor starts again in the staged slot, as a trial that reaches ready or not. -/
def execFirmwareActivate (ready : Bool) (s : State) : Out :=
  .next (s.modC fun c =>
    if c.host.updState ≠ 2 then c
    else
      let c := (c.modHost fun h => { h with slot := !h.slot, updState := 3 }).restartFirmware
      if ready then c else c.unsched fun a => a == .bootStage)
/-- WATCHDOG_EXPIRY (R475, R477): 50 ms after the last restart of the watchdog, which ready arms (R479). A trial has failed; the ROM starts
the active image again, and the safe state follows. -/
def execWatchdogExpiry (s : State) : Out :=
  .next (s.modC fun c =>
    if (c.power.watchdog.map fun t => decide (t + 50 * Config.msUnits ≤ c.wall)) != some true then c
    else
      let c := if c.host.updState = 3 then c.modHost fun h => { h with slot := !h.slot, updState := 0x80, updErr := 5 } else c
      ((c.modPower fun p => { p with safePend := true, watchdog := none }).wantClock).restartFirmware)
/-- SAFE_STATE (R476): from the next tick. -/
def execSafeState (s : State) : Out := .next (s.modC fun c => (c.modPower fun p => { p with safePend := true }).wantClock)

end Sys2Proof.Machine
end

