-- ==== Sys2Proof/Machine/Scalar.lean ====
section
/-! DEFINITION. Class S: scalar arithmetic (R108 to R113). Every form lands at issue + 1 and sets no flag. -/
namespace Sys2Proof.Machine

/-- The shift amount of a register form: Bits(y, 5, 0) (R109). -/
def shN (y : Word) : Nat := y.toNat % 64
def b2w (b : Bool) : Word := if b then 1 else 0
/-- An eleven-bit immediate as the instruction sees it, with `lit` where the bundle carries it (R89, R112). -/
def State.imm11 (s : State) (imm : BitVec 11) : Word :=
  match s.core.iss.lit with
  | none => imm.signExtend 64
  | some l => BitVec.ofInt 64 (signed (l.toNat * 2 ^ 11 + imm.toNat) 35)
/-- The immediate of `movi` (R89, R112). -/
def State.imm16 (s : State) (imm : BitVec 16) : Word :=
  match s.core.iss.lit with
  | none => imm.signExtend 64
  | some l => BitVec.ofInt 64 (signed (l.toNat * 2 ^ 16 + imm.toNat) 40)

/-- `add` (R109). -/
def sAdd (x y : Word) : Word := x + y
def execAdd (d a b : Reg) (s : State) : Out := .next (s.putS d 1 (sAdd (s.sreg a) (s.sreg b)))

/-- `sub` (R109). -/
def sSub (x y : Word) : Word := x - y
def execSub (d a b : Reg) (s : State) : Out := .next (s.putS d 1 (sSub (s.sreg a) (s.sreg b)))

/-- `and` (R109). -/
def sAnd (x y : Word) : Word := x &&& y
def execAnd (d a b : Reg) (s : State) : Out := .next (s.putS d 1 (sAnd (s.sreg a) (s.sreg b)))

/-- `or` (R109). -/
def sOr (x y : Word) : Word := x ||| y
def execOr (d a b : Reg) (s : State) : Out := .next (s.putS d 1 (sOr (s.sreg a) (s.sreg b)))

/-- `xor` (R109). -/
def sXor (x y : Word) : Word := x ^^^ y
def execXor (d a b : Reg) (s : State) : Out := .next (s.putS d 1 (sXor (s.sreg a) (s.sreg b)))

/-- `andn` (R109). -/
def sAndn (x y : Word) : Word := x &&& ~~~y
def execAndn (d a b : Reg) (s : State) : Out := .next (s.putS d 1 (sAndn (s.sreg a) (s.sreg b)))

/-- `shl` (R109). -/
def sShl (x y : Word) : Word := x <<< shN y
def execShl (d a b : Reg) (s : State) : Out := .next (s.putS d 1 (sShl (s.sreg a) (s.sreg b)))

/-- `shr` (R109). -/
def sShr (x y : Word) : Word := x >>> shN y
def execShr (d a b : Reg) (s : State) : Out := .next (s.putS d 1 (sShr (s.sreg a) (s.sreg b)))

/-- `sar` (R109). -/
def sSar (x y : Word) : Word := x.sshiftRight (shN y)
def execSar (d a b : Reg) (s : State) : Out := .next (s.putS d 1 (sSar (s.sreg a) (s.sreg b)))

/-- `rot` (R109). -/
def sRot (x y : Word) : Word := x.rotateLeft (shN y)
def execRot (d a b : Reg) (s : State) : Out := .next (s.putS d 1 (sRot (s.sreg a) (s.sreg b)))

/-- `mul` (R109). -/
def sMul (x y : Word) : Word := x * y
def execMul (d a b : Reg) (s : State) : Out := .next (s.putS d 1 (sMul (s.sreg a) (s.sreg b)))

/-- `mulh` (R109). -/
def sMulh (x y : Word) : Word := BitVec.ofInt 64 ((x.toInt * y.toInt) / 2 ^ 64)
def execMulh (d a b : Reg) (s : State) : Out := .next (s.putS d 1 (sMulh (s.sreg a) (s.sreg b)))

/-- `mulhu` (R109). -/
def sMulhu (x y : Word) : Word := word (x.toNat * y.toNat / 2 ^ 64)
def execMulhu (d a b : Reg) (s : State) : Out := .next (s.putS d 1 (sMulhu (s.sreg a) (s.sreg b)))

/-- `min` (R109). -/
def sMin (x y : Word) : Word := if x.toInt ≤ y.toInt then x else y
def execMin (d a b : Reg) (s : State) : Out := .next (s.putS d 1 (sMin (s.sreg a) (s.sreg b)))

/-- `max` (R109). -/
def sMax (x y : Word) : Word := if x.toInt ≤ y.toInt then y else x
def execMax (d a b : Reg) (s : State) : Out := .next (s.putS d 1 (sMax (s.sreg a) (s.sreg b)))

/-- `minu` (R109). -/
def sMinu (x y : Word) : Word := if x.toNat ≤ y.toNat then x else y
def execMinu (d a b : Reg) (s : State) : Out := .next (s.putS d 1 (sMinu (s.sreg a) (s.sreg b)))

/-- `maxu` (R109). -/
def sMaxu (x y : Word) : Word := if x.toNat ≤ y.toNat then y else x
def execMaxu (d a b : Reg) (s : State) : Out := .next (s.putS d 1 (sMaxu (s.sreg a) (s.sreg b)))

/-- `slt` (R109). -/
def sSlt (x y : Word) : Word := b2w (decide (x.toInt < y.toInt))
def execSlt (d a b : Reg) (s : State) : Out := .next (s.putS d 1 (sSlt (s.sreg a) (s.sreg b)))

/-- `sltu` (R109). -/
def sSltu (x y : Word) : Word := b2w (decide (x.toNat < y.toNat))
def execSltu (d a b : Reg) (s : State) : Out := .next (s.putS d 1 (sSltu (s.sreg a) (s.sreg b)))

/-- `seq` (R109). -/
def sSeq (x y : Word) : Word := b2w (x == y)
def execSeq (d a b : Reg) (s : State) : Out := .next (s.putS d 1 (sSeq (s.sreg a) (s.sreg b)))

/-- `sne` (R109). -/
def sSne (x y : Word) : Word := b2w (x != y)
def execSne (d a b : Reg) (s : State) : Out := .next (s.putS d 1 (sSne (s.sreg a) (s.sreg b)))

/-- `bfx` (R110). -/
def sBfx (x y : Word) : Word := word (iBfx 64 x.toNat y.toNat)
def execBfx (d a b : Reg) (s : State) : Out := .next (s.putS d 1 (sBfx (s.sreg a) (s.sreg b)))

/-- `bfxs` (R110). -/
def sBfxs (x y : Word) : Word := word (iBfxs 64 x.toNat y.toNat)
def execBfxs (d a b : Reg) (s : State) : Out := .next (s.putS d 1 (sBfxs (s.sreg a) (s.sreg b)))

/-- `bfi` (R110): reads s[d] at issue. -/
def execBfi (d a b : Reg) (s : State) : Out :=
  .next (s.putS d 1 (word (iBfi 64 (s.sreg d).toNat (s.sreg a).toNat (s.sreg b).toNat)))
/-- `sel` (R109). -/
def execSel (d a b c : Reg) (s : State) : Out := .next (s.putS d 1 (if s.sreg c ≠ 0 then s.sreg a else s.sreg b))
/-- `clz` (R109). -/
def execClz (d a : Reg) (s : State) : Out := .next (s.putS d 1 (word (leadingZeros (s.sreg a).toNat 64)))
/-- `ctz` (R109). -/
def execCtz (d a : Reg) (s : State) : Out := .next (s.putS d 1 (word (trailingZeros (s.sreg a).toNat 64)))
/-- `popc` (R109). -/
def execPopc (d a : Reg) (s : State) : Out := .next (s.putS d 1 (word (popcount (s.sreg a).toNat 64)))
/-- `fsh` (R111). -/
def execFsh (d a b c : Reg) (s : State) : Out :=
  .next (s.putS d 1 (word (iFsh 64 (s.sreg a).toNat (s.sreg b).toNat (shN (s.sreg c)))))
/-- `fshi` (R111). -/
def execFshi (d a b : Reg) (n : BitVec 6) (s : State) : Out :=
  .next (s.putS d 1 (word (iFsh 64 (s.sreg a).toNat (s.sreg b).toNat n.toNat)))
/-- `addi` (R112). -/
def execAddi (d a : Reg) (imm : BitVec 11) (s : State) : Out := .next (s.putS d 1 (s.sreg a + s.imm11 imm))
/-- `andi` (R112). -/
def execAndi (d a : Reg) (imm : BitVec 11) (s : State) : Out := .next (s.putS d 1 (s.sreg a &&& s.imm11 imm))
/-- `ori` (R112). -/
def execOri (d a : Reg) (imm : BitVec 11) (s : State) : Out := .next (s.putS d 1 (s.sreg a ||| s.imm11 imm))
/-- `xori` (R112). -/
def execXori (d a : Reg) (imm : BitVec 11) (s : State) : Out := .next (s.putS d 1 (s.sreg a ^^^ s.imm11 imm))
/-- `shli` (R112). -/
def execShli (d a : Reg) (n : BitVec 6) (s : State) : Out := .next (s.putS d 1 (s.sreg a <<< n.toNat))
/-- `shri` (R112). -/
def execShri (d a : Reg) (n : BitVec 6) (s : State) : Out := .next (s.putS d 1 (s.sreg a >>> n.toNat))
/-- `sari` (R112). -/
def execSari (d a : Reg) (n : BitVec 6) (s : State) : Out := .next (s.putS d 1 ((s.sreg a).sshiftRight n.toNat))
/-- `slti` (R112). -/
def execSlti (d a : Reg) (imm : BitVec 11) (s : State) : Out := .next (s.putS d 1 (sSlt (s.sreg a) (s.imm11 imm)))
/-- `sltiu` (R112). -/
def execSltiu (d a : Reg) (imm : BitVec 11) (s : State) : Out := .next (s.putS d 1 (sSltu (s.sreg a) (s.imm11 imm)))
/-- `movi` (R112). -/
def execMovi (d : Reg) (imm : BitVec 16) (s : State) : Out := .next (s.putS d 1 (s.imm16 imm))
/-- `movhi` (R112): reads s[d] at issue. -/
def execMovhi (d : Reg) (imm : BitVec 16) (s : State) : Out :=
  .next (s.putS d 1 (s.sreg d * 65536 + imm.setWidth 64))

/-- A loop level; an inactive level reads as 0 (R13). -/
def Weave.level (wv : Weave) (n : Nat) : LoopLevel := (wv.loops[n]?).getD LoopLevel.none
/-- `rdli` (R113). -/
def execRdli (d : Reg) (level : BitVec 3) (s : State) : Out :=
  .next (s.putS d 1 ((s.wv.level level.toNat).index.setWidth 64))
/-- `rdlc` (R113). -/
def execRdlc (d : Reg) (level : BitVec 3) (s : State) : Out :=
  .next (s.putS d 1 ((s.wv.level level.toNat).remaining.setWidth 64))

end Sys2Proof.Machine
end

