-- ==== Sys2Proof/Machine/Dispatch.lean ====
section
/-! DEFINITION. One arm for each constructor of Instr: the one direct call of its meaning. -/
namespace Sys2Proof.Machine

def exec (i : Instr) (s : State) : Host.Outcome State Fault Refusal :=
  match i with
  | .add d a b => Sys2Proof.Machine.execAdd d a b s
  | .sub d a b => Sys2Proof.Machine.execSub d a b s
  | .and d a b => Sys2Proof.Machine.execAnd d a b s
  | .or d a b => Sys2Proof.Machine.execOr d a b s
  | .xor d a b => Sys2Proof.Machine.execXor d a b s
  | .andn d a b => Sys2Proof.Machine.execAndn d a b s
  | .shl d a b => Sys2Proof.Machine.execShl d a b s
  | .shr d a b => Sys2Proof.Machine.execShr d a b s
  | .sar d a b => Sys2Proof.Machine.execSar d a b s
  | .rot d a b => Sys2Proof.Machine.execRot d a b s
  | .mul d a b => Sys2Proof.Machine.execMul d a b s
  | .mulh d a b => Sys2Proof.Machine.execMulh d a b s
  | .mulhu d a b => Sys2Proof.Machine.execMulhu d a b s
  | .min d a b => Sys2Proof.Machine.execMin d a b s
  | .max d a b => Sys2Proof.Machine.execMax d a b s
  | .minu d a b => Sys2Proof.Machine.execMinu d a b s
  | .maxu d a b => Sys2Proof.Machine.execMaxu d a b s
  | .slt d a b => Sys2Proof.Machine.execSlt d a b s
  | .sltu d a b => Sys2Proof.Machine.execSltu d a b s
  | .seq d a b => Sys2Proof.Machine.execSeq d a b s
  | .sne d a b => Sys2Proof.Machine.execSne d a b s
  | .sel d a b c => Sys2Proof.Machine.execSel d a b c s
  | .clz d a => Sys2Proof.Machine.execClz d a s
  | .ctz d a => Sys2Proof.Machine.execCtz d a s
  | .popc d a => Sys2Proof.Machine.execPopc d a s
  | .bfx d a b => Sys2Proof.Machine.execBfx d a b s
  | .bfxs d a b => Sys2Proof.Machine.execBfxs d a b s
  | .bfi d a b => Sys2Proof.Machine.execBfi d a b s
  | .fsh d a b c => Sys2Proof.Machine.execFsh d a b c s
  | .fshi d a b n => Sys2Proof.Machine.execFshi d a b n s
  | .addi d a imm => Sys2Proof.Machine.execAddi d a imm s
  | .andi d a imm => Sys2Proof.Machine.execAndi d a imm s
  | .ori d a imm => Sys2Proof.Machine.execOri d a imm s
  | .xori d a imm => Sys2Proof.Machine.execXori d a imm s
  | .shli d a n => Sys2Proof.Machine.execShli d a n s
  | .shri d a n => Sys2Proof.Machine.execShri d a n s
  | .sari d a n => Sys2Proof.Machine.execSari d a n s
  | .slti d a imm => Sys2Proof.Machine.execSlti d a imm s
  | .sltiu d a imm => Sys2Proof.Machine.execSltiu d a imm s
  | .movi d imm => Sys2Proof.Machine.execMovi d imm s
  | .movhi d imm => Sys2Proof.Machine.execMovhi d imm s
  | .rdli d level => Sys2Proof.Machine.execRdli d level s
  | .rdlc d level => Sys2Proof.Machine.execRdlc d level s
  | .j off => Sys2Proof.Machine.execJ off s
  | .call a off => Sys2Proof.Machine.execCall a off s
  | .jr a off => Sys2Proof.Machine.execJr a off s
  | .ret a => Sys2Proof.Machine.execRet a s
  | .bz a off => Sys2Proof.Machine.execBz a off s
  | .bnz a off => Sys2Proof.Machine.execBnz a off s
  | .beq d a off => Sys2Proof.Machine.execBeq d a off s
  | .bne d a off => Sys2Proof.Machine.execBne d a off s
  | .blt d a off => Sys2Proof.Machine.execBlt d a off s
  | .bge d a off => Sys2Proof.Machine.execBge d a off s
  | .bltu d a off => Sys2Proof.Machine.execBltu d a off s
  | .bgeu d a off => Sys2Proof.Machine.execBgeu d a off s
  | .loop a off => Sys2Proof.Machine.execLoop a off s
  | .loopi count off => Sys2Proof.Machine.execLoopi count off s
  | .lbrk cond a => Sys2Proof.Machine.execLbrk cond a s
  | .swait a sem => Sys2Proof.Machine.execSwait a sem s
  | .ssig a sem => Sys2Proof.Machine.execSsig a sem s
  | .sinit a sem => Sys2Proof.Machine.execSinit a sem s
  | .snote sem => Sys2Proof.Machine.execSnote sem s
  | .sread d sem => Sys2Proof.Machine.execSread d sem s
  | .phase scope mask => Sys2Proof.Machine.execPhase scope mask s
  | .realign safe n => Sys2Proof.Machine.execRealign safe n s
  | .barr bar => Sys2Proof.Machine.execBarr bar s
  | .barv d bar => Sys2Proof.Machine.execBarv d bar s
  | .bdrop bar => Sys2Proof.Machine.execBdrop bar s
  | .binit scope a bar => Sys2Proof.Machine.execBinit scope a bar s
  | .lease port kind => Sys2Proof.Machine.execLease port kind s
  | .rel port => Sys2Proof.Machine.execRel port s
  | .lqry d port => Sys2Proof.Machine.execLqry d port s
  | .lwait port => Sys2Proof.Machine.execLwait port s
  | .probe perm d h a b => Sys2Proof.Machine.execProbe perm d h a b s
  | .probew d h => Sys2Proof.Machine.execProbew d h s
  | .hrel h => Sys2Proof.Machine.execHrel h s
  | .ldh d h a => Sys2Proof.Machine.execLdh d h a s
  | .sth b h a => Sys2Proof.Machine.execSth b h a s
  | .sld d a off => Sys2Proof.Machine.execSld d a off s
  | .sst d a off => Sys2Proof.Machine.execSst d a off s
  | .lpatch a b field => Sys2Proof.Machine.execLpatch a b field s
  | .larm a => Sys2Proof.Machine.execLarm a s
  | .trap code => Sys2Proof.Machine.execTrap code s
  | .vany d k => Sys2Proof.Machine.execVany d k s
  | .vall d k => Sys2Proof.Machine.execVall d k s
  | .csrr d csr => Sys2Proof.Machine.execCsrr d csr s
  | .csrw csr a => Sys2Proof.Machine.execCsrw csr a s
  | .csrs csr a => Sys2Proof.Machine.execCsrs csr a s
  | .csrc csr a => Sys2Proof.Machine.execCsrc csr a s
  | .bkpt code => Sys2Proof.Machine.execBkpt code s
  | .clkdiv unit div1 => Sys2Proof.Machine.execClkdiv unit div1 s
  | .fmtw idx a => Sys2Proof.Machine.execFmtw idx a s
  | .refdefer n => Sys2Proof.Machine.execRefdefer n s
  | .hinv a => Sys2Proof.Machine.execHinv a s
  | .gap mark g => Sys2Proof.Machine.execGap mark g s
  | .rep mask n1 => Sys2Proof.Machine.execRep mask n1 s
  | .seg e => Sys2Proof.Machine.execSeg e s
  | .sigl v => Sys2Proof.Machine.execSigl v s
  | .sigh v => Sys2Proof.Machine.execSigh v s
  | .lit v => Sys2Proof.Machine.execLit v s
  | .vadd sz d a b k => Sys2Proof.Machine.execVadd sz d a b k s
  | .vsub sz d a b k => Sys2Proof.Machine.execVsub sz d a b k s
  | .vmul sz d a b k => Sys2Proof.Machine.execVmul sz d a b k s
  | .vmulh sz d a b k => Sys2Proof.Machine.execVmulh sz d a b k s
  | .vmulhu sz d a b k => Sys2Proof.Machine.execVmulhu sz d a b k s
  | .vand sz d a b k => Sys2Proof.Machine.execVand sz d a b k s
  | .vor sz d a b k => Sys2Proof.Machine.execVor sz d a b k s
  | .vxor sz d a b k => Sys2Proof.Machine.execVxor sz d a b k s
  | .vandn sz d a b k => Sys2Proof.Machine.execVandn sz d a b k s
  | .vshl sz d a b k => Sys2Proof.Machine.execVshl sz d a b k s
  | .vshr sz d a b k => Sys2Proof.Machine.execVshr sz d a b k s
  | .vsar sz d a b k => Sys2Proof.Machine.execVsar sz d a b k s
  | .vrot sz d a b k => Sys2Proof.Machine.execVrot sz d a b k s
  | .vmin sz d a b k => Sys2Proof.Machine.execVmin sz d a b k s
  | .vmax sz d a b k => Sys2Proof.Machine.execVmax sz d a b k s
  | .vminu sz d a b k => Sys2Proof.Machine.execVminu sz d a b k s
  | .vmaxu sz d a b k => Sys2Proof.Machine.execVmaxu sz d a b k s
  | .vabsd sz d a b k => Sys2Proof.Machine.execVabsd sz d a b k s
  | .vaddsat sz d a b k => Sys2Proof.Machine.execVaddsat sz d a b k s
  | .vsubsat sz d a b k => Sys2Proof.Machine.execVsubsat sz d a b k s
  | .vcmpeq sz kd a b k => Sys2Proof.Machine.execVcmpeq sz kd a b k s
  | .vcmplt sz kd a b k => Sys2Proof.Machine.execVcmplt sz kd a b k s
  | .vcmpltu sz kd a b k => Sys2Proof.Machine.execVcmpltu sz kd a b k s
  | .vsel sz d a b k => Sys2Proof.Machine.execVsel sz d a b k s
  | .vbfx sz d a b k => Sys2Proof.Machine.execVbfx sz d a b k s
  | .vbfxs sz d a b k => Sys2Proof.Machine.execVbfxs sz d a b k s
  | .vbfi sz d a b k => Sys2Proof.Machine.execVbfi sz d a b k s
  | .vfsh sz d a b k => Sys2Proof.Machine.execVfsh sz d a b k s
  | .vclz sz d a k => Sys2Proof.Machine.execVclz sz d a k s
  | .vpopc sz d a k => Sys2Proof.Machine.execVpopc sz d a k s
  | .vrev sz d a k => Sys2Proof.Machine.execVrev sz d a k s
  | .vbswap sz d a k => Sys2Proof.Machine.execVbswap sz d a k s
  | .vaddi sz d a imm => Sys2Proof.Machine.execVaddi sz d a imm s
  | .vandi sz d a imm => Sys2Proof.Machine.execVandi sz d a imm s
  | .vori sz d a imm => Sys2Proof.Machine.execVori sz d a imm s
  | .vxori sz d a imm => Sys2Proof.Machine.execVxori sz d a imm s
  | .vshli sz d a n => Sys2Proof.Machine.execVshli sz d a n s
  | .vshri sz d a n => Sys2Proof.Machine.execVshri sz d a n s
  | .vsari sz d a n => Sys2Proof.Machine.execVsari sz d a n s
  | .vbfxi d a pos len1 => Sys2Proof.Machine.execVbfxi d a pos len1 s
  | .vfshi d a b n => Sys2Proof.Machine.execVfshi d a b n s
  | .vmovi d imm => Sys2Proof.Machine.execVmovi d imm s
  | .vlid d => Sys2Proof.Machine.execVlid d s
  | .vbcs sz d a k => Sys2Proof.Machine.execVbcs sz d a k s
  | .kand kd ka kb => Sys2Proof.Machine.execKand kd ka kb s
  | .kor kd ka kb => Sys2Proof.Machine.execKor kd ka kb s
  | .kxor kd ka kb => Sys2Proof.Machine.execKxor kd ka kb s
  | .knot kd ka => Sys2Proof.Machine.execKnot kd ka s
  | .kmov kd ka => Sys2Proof.Machine.execKmov kd ka s
  | .kset kd v => Sys2Proof.Machine.execKset kd v s
  | .vmask kd a => Sys2Proof.Machine.execVmask kd a s
  | .vfadd f d a b k => Sys2Proof.Machine.execVfadd f d a b k s
  | .vfsub f d a b k => Sys2Proof.Machine.execVfsub f d a b k s
  | .vfmul f d a b k => Sys2Proof.Machine.execVfmul f d a b k s
  | .vfma f d a b k => Sys2Proof.Machine.execVfma f d a b k s
  | .vfms f d a b k => Sys2Proof.Machine.execVfms f d a b k s
  | .vfnma f d a b k => Sys2Proof.Machine.execVfnma f d a b k s
  | .vfmin f d a b k => Sys2Proof.Machine.execVfmin f d a b k s
  | .vfmax f d a b k => Sys2Proof.Machine.execVfmax f d a b k s
  | .vfabs f d a k => Sys2Proof.Machine.execVfabs f d a k s
  | .vfneg f d a k => Sys2Proof.Machine.execVfneg f d a k s
  | .vfcmpeq f kd a b k => Sys2Proof.Machine.execVfcmpeq f kd a b k s
  | .vfcmplt f kd a b k => Sys2Proof.Machine.execVfcmplt f kd a b k s
  | .vfcmple f kd a b k => Sys2Proof.Machine.execVfcmple f kd a b k s
  | .vfcmpun f kd a b k => Sys2Proof.Machine.execVfcmpun f kd a b k s
  | .vfclass f d a k => Sys2Proof.Machine.execVfclass f d a k s
  | .vfrcp f d a k => Sys2Proof.Machine.execVfrcp f d a k s
  | .vfrsq f d a k => Sys2Proof.Machine.execVfrsq f d a k s
  | .vfexp2 f d a k => Sys2Proof.Machine.execVfexp2 f d a k s
  | .vflog2 f d a k => Sys2Proof.Machine.execVflog2 f d a k s
  | .vfscl f d a b k => Sys2Proof.Machine.execVfscl f d a b k s
  | .vfscli f d a e => Sys2Proof.Machine.execVfscli f d a e s
  | .vfcvt tgt src sat d a k => Sys2Proof.Machine.execVfcvt tgt src sat d a k s
  | .vfcvti tgt src sat d a k => Sys2Proof.Machine.execVfcvti tgt src sat d a k s
  | .vfcvtf tgt src sat d a k => Sys2Proof.Machine.execVfcvtf tgt src sat d a k s
  | .vfdot f d a b k => Sys2Proof.Machine.execVfdot f d a b k s
  | .vfrnd f mode d a k => Sys2Proof.Machine.execVfrnd f mode d a k s
  | .ldr d a o k => Sys2Proof.Machine.execLdr d a o k s
  | .ldrs d a o k => Sys2Proof.Machine.execLdrs d a o k s
  | .str d a o k => Sys2Proof.Machine.execStr d a o k s
  | .strs d a o k => Sys2Proof.Machine.execStrs d a o k s
  | .lds d a o k => Sys2Proof.Machine.execLds d a o k s
  | .sts d a o k => Sys2Proof.Machine.execSts d a o k s
  | .ldp d a o k => Sys2Proof.Machine.execLdp d a o k s
  | .stp d a o k => Sys2Proof.Machine.execStp d a o k s
  | .ldx d a o k => Sys2Proof.Machine.execLdx d a o k s
  | .stx d a o k => Sys2Proof.Machine.execStx d a o k s
  | .ldf slot d a o k => Sys2Proof.Machine.execLdf slot d a o k s
  | .stf slot d a o k => Sys2Proof.Machine.execStf slot d a o k s
  | .rmg d a n k => Sys2Proof.Machine.execRmg d a n k s
  | .rmgv d a b k => Sys2Proof.Machine.execRmgv d a b k s
  | .atm op d a b k => Sys2Proof.Machine.execAtm op d a b k s
  | .atmc d a b k => Sys2Proof.Machine.execAtmc d a b k s
  | .atmz d a k => Sys2Proof.Machine.execAtmz d a k s
  | .cvta win d a k => Sys2Proof.Machine.execCvta win d a k s
  | .cvtw win d a k => Sys2Proof.Machine.execCvtw win d a k s
  | .isw win kd a k => Sys2Proof.Machine.execIsw win kd a k s
  | .tws neg edge d a k => Sys2Proof.Machine.execTws neg edge d a k s
  | .twsl d a n k => Sys2Proof.Machine.execTwsl d a n k s
  | .twb d a cell k => Sys2Proof.Machine.execTwb d a cell k s
  | .twr op d a => Sys2Proof.Machine.execTwr op d a s
  | .vtos d a b => Sys2Proof.Machine.execVtos d a b s
  | .vred op d a k => Sys2Proof.Machine.execVred op d a k s
  | .gzs ch a b k => Sys2Proof.Machine.execGzs ch a b k s
  | .gzr ch d b k => Sys2Proof.Machine.execGzr ch d b k s
  | .gzp ch d b => Sys2Proof.Machine.execGzp ch d b s
  | .lperm d a b k => Sys2Proof.Machine.execLperm d a b k s
  | .push port imm => Sys2Proof.Machine.execPush port imm s
  | .ext port imm => Sys2Proof.Machine.execExt port imm s
  | .dup port => Sys2Proof.Machine.execDup port s
  | .drop port => Sys2Proof.Machine.execDrop port s
  | .swap port => Sys2Proof.Machine.execSwap port s
  | .over port => Sys2Proof.Machine.execOver port s
  | .stackRot port => Sys2Proof.Machine.execStackRot port s
  | .clr port => Sys2Proof.Machine.execClr port s
  | .pushs port n => Sys2Proof.Machine.execPushs port n s
  | .setstr port i_ => Sys2Proof.Machine.execSetstr port i_ s
  | .mxZero port => Sys2Proof.Machine.execMxZero port s
  | .mxLda port => Sys2Proof.Machine.execMxLda port s
  | .mxLdb port => Sys2Proof.Machine.execMxLdb port s
  | .mxMm port slotA slotB sat => Sys2Proof.Machine.execMxMm port slotA slotB sat s
  | .mxPs port => Sys2Proof.Machine.execMxPs port s
  | .mxSt port clr => Sys2Proof.Machine.execMxSt port clr s
  | .mxSv port now => Sys2Proof.Machine.execMxSv port now s
  | .mxRs port => Sys2Proof.Machine.execMxRs port s
  | .mxChk port => Sys2Proof.Machine.execMxChk port s
  | .mxRp port => Sys2Proof.Machine.execMxRp port s
  | .gxCfg port slot => Sys2Proof.Machine.execGxCfg port slot s
  | .gxGth port w64 => Sys2Proof.Machine.execGxGth port w64 s
  | .gxBag port w64 => Sys2Proof.Machine.execGxBag port w64 s
  | .gxSca port w64 => Sys2Proof.Machine.execGxSca port w64 s
  | .gxStat port clr => Sys2Proof.Machine.execGxStat port clr s
  | .cdCmp port => Sys2Proof.Machine.execCdCmp port s
  | .cdExp port => Sys2Proof.Machine.execCdExp port s
  | .cdHash port => Sys2Proof.Machine.execCdHash port s
  | .cdDelta port upd => Sys2Proof.Machine.execCdDelta port upd s
  | .sfExp port slot => Sys2Proof.Machine.execSfExp port slot s
  | .sfSmx port slot => Sys2Proof.Machine.execSfSmx port slot s
  | .sfNrm port slot rms aff => Sys2Proof.Machine.execSfNrm port slot rms aff s
  | .sfRsq port slot => Sys2Proof.Machine.execSfRsq port slot s
  | .sfGelu port slot => Sys2Proof.Machine.execSfGelu port slot s
  | .ksTopk port slot min_ => Sys2Proof.Machine.execKsTopk port slot min_ s
  | .ksSort port slot desc noidx => Sys2Proof.Machine.execKsSort port slot desc noidx s
  | .txLoad port => Sys2Proof.Machine.execTxLoad port s
  | .txGo port res => Sys2Proof.Machine.execTxGo port res s
  | .txStop port save => Sys2Proof.Machine.execTxStop port save s
  | .tloopCount c => Sys2Proof.Machine.execTloopCount c s
  | .tloopWord w => Sys2Proof.Machine.execTloopWord w s
  | .agenImm g f i_ => Sys2Proof.Machine.execAgenImm g f i_ s
  | .agenWord g f w => Sys2Proof.Machine.execAgenWord g f w s
  | .movLen d s_ l => Sys2Proof.Machine.execMovLen d s_ l s
  | .movWord d s_ w => Sys2Proof.Machine.execMovWord d s_ w s
  | .movt d s_ z => Sys2Proof.Machine.execMovt d s_ z s
  | .movcSl d s_ f n => Sys2Proof.Machine.execMovcSl d s_ f n s
  | .movcLs d s_ f n => Sys2Proof.Machine.execMovcLs d s_ f n s
  | .pad d w r => Sys2Proof.Machine.execPad d w r s
  | .twait s_ => Sys2Proof.Machine.execTwait s_ s
  | .tsig s_ => Sys2Proof.Machine.execTsig s_ s
  | .tjmp t => Sys2Proof.Machine.execTjmp t s
  | .swaitServed sector sem => Sys2Proof.Machine.execSwaitServed sector sem s
  | .collectiveBoundaryCompletion launch scope unit => Sys2Proof.Machine.execCollectiveBoundaryCompletion launch scope unit s
  | .barrierCompletion launch bar scope unit => Sys2Proof.Machine.execBarrierCompletion launch bar scope unit s
  | .probeWalkCompletion weave h => Sys2Proof.Machine.execProbeWalkCompletion weave h s
  | .repLaunch weave port => Sys2Proof.Machine.execRepLaunch weave port s
  | .laneAtomicApply weave id cell => Sys2Proof.Machine.execLaneAtomicApply weave id cell s
  | .gauzeMessageArrival weave id => Sys2Proof.Machine.execGauzeMessageArrival weave id s
  | .launchWordEntry weave id => Sys2Proof.Machine.execLaunchWordEntry weave id s
  | .jobStart eng => Sys2Proof.Machine.execJobStart eng s
  | .jobCompletion eng id => Sys2Proof.Machine.execJobCompletion eng id s
  | .resultLanding weave id cell => Sys2Proof.Machine.execResultLanding weave id cell s
  | .wavefrontSkewExecution weave id cell => Sys2Proof.Machine.execWavefrontSkewExecution weave id cell s
  | .trapEntry weave => Sys2Proof.Machine.execTrapEntry weave s
  | .fatalContextError weave => Sys2Proof.Machine.execFatalContextError weave s
  | .userEventEntry weave sem => Sys2Proof.Machine.execUserEventEntry weave sem s
  | .latchLanding weave id cell => Sys2Proof.Machine.execLatchLanding weave id cell s
  | .evict weave => Sys2Proof.Machine.execEvict weave s
  | .graceEnd sector kind idx => Sys2Proof.Machine.execGraceEnd sector kind idx s
  | .leaseGrant sector kind idx => Sys2Proof.Machine.execLeaseGrant sector kind idx s
  | .termEnd sector kind idx => Sys2Proof.Machine.execTermEnd sector kind idx s
  | .drainEnd sector kind idx => Sys2Proof.Machine.execDrainEnd sector kind idx s
  | .leaseHandover sector kind idx => Sys2Proof.Machine.execLeaseHandover sector kind idx s
  | .leasePromotion sector kind idx weave port => Sys2Proof.Machine.execLeasePromotion sector kind idx weave port s
  | .preemptionRequest launch => Sys2Proof.Machine.execPreemptionRequest launch s
  | .preempt weave => Sys2Proof.Machine.execPreempt weave s
  | .preemptSave launch => Sys2Proof.Machine.execPreemptSave launch s
  | .preemptLandingTimeout launch => Sys2Proof.Machine.execPreemptLandingTimeout launch s
  | .launchResume launch => Sys2Proof.Machine.execLaunchResume launch s
  | .recoveryVerdict id => Sys2Proof.Machine.execRecoveryVerdict id s
  | .phaseRerun weave => Sys2Proof.Machine.execPhaseRerun weave s
  | .patrol addr found => Sys2Proof.Machine.execPatrol addr found s
  | .hbmPatrol addr found => Sys2Proof.Machine.execHbmPatrol addr found s
  | .comparePoint weave => Sys2Proof.Machine.execComparePoint weave s
  | .refresh weave => Sys2Proof.Machine.execRefresh weave s
  | .refreshBlackoutEnd weave => Sys2Proof.Machine.execRefreshBlackoutEnd weave s
  | .bankEvacuation weave cell bank => Sys2Proof.Machine.execBankEvacuation weave cell bank s
  | .evacuationCommit weave cell bank => Sys2Proof.Machine.execEvacuationCommit weave cell bank s
  | .spillCommit weave cell bank => Sys2Proof.Machine.execSpillCommit weave cell bank s
  | .bankReturn weave cell bank => Sys2Proof.Machine.execBankReturn weave cell bank s
  | .fieldTestStart unit => Sys2Proof.Machine.execFieldTestStart unit s
  | .fieldTestCompletion unit signature => Sys2Proof.Machine.execFieldTestCompletion unit signature s
  | .busSpareTakeover pair bus => Sys2Proof.Machine.execBusSpareTakeover pair bus s
  | .testOverdue unit => Sys2Proof.Machine.execTestOverdue unit s
  | .monitorSample unit margin => Sys2Proof.Machine.execMonitorSample unit margin s
  | .eolRecompute unit months => Sys2Proof.Machine.execEolRecompute unit months s
  | .launch queue num ord addr value => Sys2Proof.Machine.execLaunch queue num ord addr value s
  | .graph queue num ord addr value => Sys2Proof.Machine.execGraph queue num ord addr value s
  | .wait queue num ord addr value => Sys2Proof.Machine.execWait queue num ord addr value s
  | .eventWordPoll queue cmd => Sys2Proof.Machine.execEventWordPoll queue cmd s
  | .signal queue num ord addr value => Sys2Proof.Machine.execSignal queue num ord addr value s
  | .headPromotion queue => Sys2Proof.Machine.execHeadPromotion queue s
  | .launchStart launch => Sys2Proof.Machine.execLaunchStart launch s
  | .launchCompletion launch => Sys2Proof.Machine.execLaunchCompletion launch s
  | .preload queue => Sys2Proof.Machine.execPreload queue s
  | .tlimitOverrun launch => Sys2Proof.Machine.execTlimitOverrun launch s
  | .kernelNode queue node => Sys2Proof.Machine.execKernelNode queue node s
  | .copyNode queue node => Sys2Proof.Machine.execCopyNode queue node s
  | .fillNode queue node => Sys2Proof.Machine.execFillNode queue node s
  | .eventWaitNode queue node => Sys2Proof.Machine.execEventWaitNode queue node s
  | .eventSignalNode queue node => Sys2Proof.Machine.execEventSignalNode queue node s
  | .conditionalNode queue node => Sys2Proof.Machine.execConditionalNode queue node s
  | .loopNode queue node => Sys2Proof.Machine.execLoopNode queue node s
  | .loopPredicateRead queue node => Sys2Proof.Machine.execLoopPredicateRead queue node s
  | .graphCompletion queue => Sys2Proof.Machine.execGraphCompletion queue s
  | .bar2Write fn off data => Sys2Proof.Machine.execBar2Write fn off data s
  | .bar2Read fn off len_ => Sys2Proof.Machine.execBar2Read fn off len_ s
  | .doorbellTailWrite fn queue v => Sys2Proof.Machine.execDoorbellTailWrite fn queue v s
  | .semsig fn queue v => Sys2Proof.Machine.execSemsig fn queue v s
  | .qstatHaltRestart fn queue v => Sys2Proof.Machine.execQstatHaltRestart fn queue v s
  | .contextEntryWrite fn ctx word v => Sys2Proof.Machine.execContextEntryWrite fn ctx word v s
  | .damaskAttributeWrite fn ctx entry v => Sys2Proof.Machine.execDamaskAttributeWrite fn ctx entry v s
  | .collectiveCancel ctx v => Sys2Proof.Machine.execCollectiveCancel ctx v s
  | .firmwareStage flashOk => Sys2Proof.Machine.execFirmwareStage flashOk s
  | .firmwareActivate ready => Sys2Proof.Machine.execFirmwareActivate ready s
  | .debugHaltRequest weave => Sys2Proof.Machine.execDebugHaltRequest weave s
  | .debugResume weave => Sys2Proof.Machine.execDebugResume weave s
  | .debugStep weave => Sys2Proof.Machine.execDebugStep weave s
  | .debugDataAccess weave write => Sys2Proof.Machine.execDebugDataAccess weave write s
  | .registerWrite fn off size v => Sys2Proof.Machine.execRegisterWrite fn off size v s
  | .atomicopRequest fn bar off => Sys2Proof.Machine.execAtomicopRequest fn bar off s
  | .hostReadFailure src addr va => Sys2Proof.Machine.execHostReadFailure src addr va s
  | .keyExchange session => Sys2Proof.Machine.execKeyExchange session s
  | .challenge nonce => Sys2Proof.Machine.execChallenge nonce s
  | .measurements nonce => Sys2Proof.Machine.execMeasurements nonce s
  | .creditAcknowledgement port flit => Sys2Proof.Machine.execCreditAcknowledgement port flit s
  | .creditReturn port vc => Sys2Proof.Machine.execCreditReturn port vc s
  | .porlenWrite port flit => Sys2Proof.Machine.execPorlenWrite port flit s
  | .portRetirement port => Sys2Proof.Machine.execPortRetirement port s
  | .readRequest port flit => Sys2Proof.Machine.execReadRequest port flit s
  | .readResponse port flit => Sys2Proof.Machine.execReadResponse port flit s
  | .reduceWrite port flit => Sys2Proof.Machine.execReduceWrite port flit s
  | .semaphoreSignal port flit => Sys2Proof.Machine.execSemaphoreSignal port flit s
  | .collectiveControl port flit => Sys2Proof.Machine.execCollectiveControl port flit s
  | .billing port flit => Sys2Proof.Machine.execBilling port flit s
  | .billingSend src tag => Sys2Proof.Machine.execBillingSend src tag s
  | .collectiveStart sector off => Sys2Proof.Machine.execCollectiveStart sector off s
  | .collectiveCompletion ctx => Sys2Proof.Machine.execCollectiveCompletion ctx s
  | .clockStepChange step => Sys2Proof.Machine.execClockStepChange step s
  | .throttleEventEntry weave => Sys2Proof.Machine.execThrottleEventEntry weave s
  | .sectorBudgetChange sector budget => Sys2Proof.Machine.execSectorBudgetChange sector budget s
  | .currentTrip asserted => Sys2Proof.Machine.execCurrentTrip asserted s
  | .thermalTrip sector temp => Sys2Proof.Machine.execThermalTrip sector temp s
  | .coolantSample inlet outlet flow => Sys2Proof.Machine.execCoolantSample inlet outlet flow s
  | .shutdown thermal current flow => Sys2Proof.Machine.execShutdown thermal current flow s
  | .moduleReset boot => Sys2Proof.Machine.execModuleReset boot s
  | .railVoltageSetting mv measured => Sys2Proof.Machine.execRailVoltageSetting mv measured s
  | .hostSectorRelease ctx => Sys2Proof.Machine.execHostSectorRelease ctx s
  | .evret => Sys2Proof.Machine.execEvret s
  | .eret => Sys2Proof.Machine.execEret s
  | .halt => Sys2Proof.Machine.execHalt s
  | .bswap => Sys2Proof.Machine.execBswap s
  | .nop => Sys2Proof.Machine.execNop s
  | .wfe => Sys2Proof.Machine.execWfe s
  | .cpRr => Sys2Proof.Machine.execCpRr s
  | .cpGt => Sys2Proof.Machine.execCpGt s
  | .cpTr => Sys2Proof.Machine.execCpTr s
  | .cpRt => Sys2Proof.Machine.execCpRt s
  | .cpGs => Sys2Proof.Machine.execCpGs s
  | .cpSg => Sys2Proof.Machine.execCpSg s
  | .cpBc => Sys2Proof.Machine.execCpBc s
  | .cpFill => Sys2Proof.Machine.execCpFill s
  | .cpSwp => Sys2Proof.Machine.execCpSwp s
  | .tnop => Sys2Proof.Machine.execTnop s
  | .tend => Sys2Proof.Machine.execTend s
  | .thalt => Sys2Proof.Machine.execThalt s
  | .dispatch => Sys2Proof.Machine.execDispatch s
  | .sustainedCurrentLimit => Sys2Proof.Machine.execSustainedCurrentLimit s
  | .thermalTripClear => Sys2Proof.Machine.execThermalTripClear s
  | .watchdogExpiry => Sys2Proof.Machine.execWatchdogExpiry s
  | .safeState => Sys2Proof.Machine.execSafeState s

end Sys2Proof.Machine
end

