-- ==== Sys2Proof/Machine/Step.lean ====
section
/-! DEFINITION. One step of the machine: the earliest thing that is due happens (the agenda and the inbox merged), or
time advances to the next; and a program word placed where the next step fetches it. -/
namespace Sys2Proof.Machine

/-! ## Time -/

/-- Cycles until an entry is due, at the present clock step. -/
def Core.until (c : Core) (e : Entry) : Nat :=
  match e.due with
  | .cycle n => n - c.now
  | .wall u => ceilDiv (u - c.wall) c.cycleLen
/-- The distance to the next thing that is due: at least one cycle. -/
def Core.distance (c : Core) : Nat :=
  let ds := c.agenda.map c.until ++ c.inbox.map fun p => p.1 - c.now
  match ds with
  | [] => 1
  | d :: rest => max 1 (rest.foldl min d)
/-- Time passes (R6): the wall clock advances by the period of the clock step. -/
def Core.pass (c : Core) (n : Nat) : Core :=
  { c with now := c.now + n, wall := c.wall + n * c.cycleLen }

/-! ## What an entry does -/

/-- The row of the opcode table that an entry is, where it is one. -/
noncomputable def Act.row : Act → Option Instr
  | .swaitServed a b => some (.swaitServed a b)
  | .collectiveBoundaryCompletion a b d => some (.collectiveBoundaryCompletion a b d)
  | .barrierCompletion a b d e => some (.barrierCompletion a b d e)
  | .repLaunch a b => some (.repLaunch a b)
  | .laneAtomicApply a b d => some (.laneAtomicApply a b d)
  | .gauzeMessageArrival a b => some (.gauzeMessageArrival a b)
  | .launchWordEntry a b => some (.launchWordEntry a b)
  | .jobStart a => some (.jobStart a)
  | .jobCompletion a b => some (.jobCompletion a b)
  | .resultLanding a b d => some (.resultLanding a b d)
  | .wavefrontSkewExecution a b d => some (.wavefrontSkewExecution a b d)
  | .trapEntry a => some (.trapEntry a)
  | .fatalContextError a => some (.fatalContextError a)
  | .userEventEntry a b => some (.userEventEntry a b)
  | .throttleEvent a => some (.throttleEventEntry a)
  | .latchLanding a b d => some (.latchLanding a b d)
  | .evict a => some (.evict a)
  | .graceEnd a b d => some (.graceEnd a b d)
  | .leaseGrant a b d => some (.leaseGrant a b d)
  | .termEnd a b d => some (.termEnd a b d)
  | .drainEnd a b d => some (.drainEnd a b d)
  | .leaseHandover a b d => some (.leaseHandover a b d)
  | .leasePromotion a b d e f => some (.leasePromotion a b d e f)
  | .preempt a => some (.preempt a)
  | .preemptSave a => some (.preemptSave a)
  | .preemptLandingTimeout a => some (.preemptLandingTimeout a)
  | .launchResume a => some (.launchResume a)
  | .recoveryVerdict a => some (.recoveryVerdict a)
  | .phaseRerun a => some (.phaseRerun a)
  | .comparePoint a => some (.comparePoint a)
  | .refresh a => some (.refresh a)
  | .refreshBlackoutEnd a => some (.refreshBlackoutEnd a)
  | .evacuate a b d => some (.bankEvacuation a b d)
  | .evacuationCommit a b d => some (.evacuationCommit a b d)
  | .spillCommit a b d => some (.spillCommit a b d)
  | .fieldTestStart a => some (.fieldTestStart a)
  | .busSpareTakeover a b => some (.busSpareTakeover a b)
  | .testOverdue a => some (.testOverdue a)
  | .eventWordPoll a b => some (.eventWordPoll a b)
  | .dispatch => some .dispatch
  | .headPromotion a => some (.headPromotion a)
  | .launchStart a => some (.launchStart a)
  | .launchCompletion a => some (.launchCompletion a)
  | .preload a => some (.preload a)
  | .tlimitOverrun a => some (.tlimitOverrun a)
  | .loopPredicateRead a b => some (.loopPredicateRead a b)
  | .graphCompletion a => some (.graphCompletion a)
  | .creditReturn a b => some (.creditReturn a b)
  | .portRetirement a => some (.portRetirement a)
  | .billingSend a b => some (.billingSend a b)
  | .collectiveStart a b => some (.collectiveStart a b)
  | .collectiveCompletion a => some (.collectiveCompletion a)
  | _ => none
/-- A completion of a walk counts only for the walk that the handle still waits for (R137). -/
def Core.walkLive (c : Core) (w h gen : Nat) : Bool :=
  ((((c.weave w).handles.getD h Handle.reset).walk).map fun x => x.gen == gen) == some true
/-- What an entry does. -/
noncomputable def Core.run (c : Core) (a : Act) : Out :=
  let s : State := { core := c, base := none }
  let back (c : Core) : Out := .next { core := c, base := none }
  match a.row with
  | some i => exec i s
  | none =>
    match a with
    | .issue w => c.issue exec w false
    | .lateIssue w => c.issue exec w true
    | .sample w n id => back (c.sampleSem w n id)
    | .ldhReturn w => back (c.ldhReturn w)
    | .probeUpdate w h gen => back (c.probeUpdate w h gen)
    | .probeWalkCompletion w h gen => if c.walkLive w h gen then exec (.probeWalkCompletion w h) s else back c
    | .gauzeHop id => back (c.gauzeHop id)
    | .gauzeFree w id => back (c.gauzeFree w id)
    | .txsSignal sec _ n => back (c.signalSem sec n 1)
    | .mxrp w v k => back (c.modW w fun x => { x with mxrp := word (bnat v * 2 ^ 63 + k % 2 ^ 32) })
    | .partnerIssue w => back (c.partnerBundle exec w)
    | .partnerTime w n slip => back (c.modW w fun x => x.slipped n slip)
    | .partnerHalt w ret => back (c.partnerHalt w ret)
    | .replay w => back (c.replay exec w)
    | .partnerBoundary w m => back (c.partnerBoundary w m)
    | .weaveBoundary w m => back (c.weaveBoundary w m)
    | .haltPublish w => back (c.publishDue [(w, 4)])
    | .jobStep e id => c.jobStep exec e id
    | .jobHeld e id => c.jobStep exec e id
    | .mxEmit e id => back (c.mmEmit e id)
    | .chkResult sec fail => back (c.testResult ⟨3, sec, 0⟩ none !fail)
    | .txs sec u => c.txsFetch exec sec u
    | .flagWord w row unc inj => back (c.flagWord w row unc inj)
    | .cancelAt w src u row inj => back (c.cancelAt w src u row inj)
    | .outer (.barRead fn off size) => back (c.barRead fn off size)
    | .outer (.replay p seq) => back (c.replayFlits p seq)
    -- a host request: outside the IDE stream the link refuses it (R443)
    | .outer (.tlp ide row) => if fromHost row && row.wf && (ide || !c.host.ideOn) then exec row s else back c
    | .outer u => back (c.outer u)
    | .charges sec => back (c.chargesFell sec)
    | .queueRead q => back (c.queueRead q)
    | .launchReady n sec => back (c.launchReady n sec)
    | .nodeStep g i => back (c.nodeStep g i)
    | .headFetched .. => back c.wantDispatch
    | .launchInit n keep loaded => back (c.launchInit n keep loaded)
    | .signalCmd q idx => back (c.signalCmd q idx)
    | .dropWords id => back (c.dropWords id)
    | .clockApply => back c.clockApply
    | .limits =>
      let (t, k, f) := c.limitsHit
      if t || k || f then exec (.shutdown t k f) s else back c
    | .budgetApply sec => back (c.budgetApply sec)
    | .governor => back c.govern
    | .bootStage => back c.bootStage
    | .firmwareVerdict ok => back (c.firmwareVerdict ok)
    | .peerTimeout id => back (c.peerTimeout id)
    | .patrolRow row => execPatrol row .clean s
    | .hbmPatrolRow r => execHbmPatrol r .clean s
    | .healthScan => back c.healthScan
    | _ => back c

/-- One step: the first due entry of the agenda or row of the inbox, else time passes. Rows of the inbox come after the
landings of their cycle and before everything else (log 12). -/
noncomputable def step (s : State) : Host.Outcome State Fault Refusal :=
  let c := s.core
  let e := c.firstDue c.agenda
  let landing : Bool := match e with
    | some x => decide (x.band < bHost)
    | none => false
  match c.nextRow with
  | some p =>
    if landing then
      match e with
      | some x => Core.run { c with agenda := c.agenda.erase x } x.act
      | none => .next s
    else if p.2.wf then exec p.2 { core := { c with inbox := c.inbox.erase p }, base := none }
    else .fault .illFormed
  | none =>
    match e with
    | some x => Core.run { c with agenda := c.agenda.erase x } x.act
    | none => .next { core := c.pass c.distance, base := none }

/-! ## A word placed for the next step -/

/-- The state with a word where the next step fetches its next instruction: bit 31 tells a syllable, which is put into
the active bank of weave 0 at its PC with an issue of weave 0 due now, from a TXS instruction, which is put into the
memory of TXS 0 of sector 0 at its PC, with a program running there (log 5). -/
def State.withFetchWord (s : State) (nbits w : Nat) : State :=
  if nbits = 32 then
    if w / 2 ^ 31 % 2 = 1 then
      s.modC fun c =>
        let wv := c.weave 0
        let c := { c with mem := memWrite c.mem (bankFlat 0 wv.bank wv.pc.toNat) 4 w }
        let c := c.modW 0 fun x => { x with
          running := true
          mode := x.mode &&& 0xF007
          frozen := false
          preempt := false
          evictWarn := false
          events := []
          throttle := none
          wait := .none
          aside := .none
          landing := none
          passed := none
          pendTrap := none
          lastIssue := none
          fixedAt := none
          dbg := Debug.reset }
        { c with agenda := [⟨.cycle c.now, bIssue, 0, .issue 0⟩], inbox := [] }
    else
      s.modC fun c =>
        let pc := ((c.sector 0).txs.getD 0 Txs.reset).pc
        let job : Job := {
          id := c.nextId
          weave := 0
          port := 0
          kind := 2
          op := 1
          md := 0
          args := []
          wait := 256
          sig := 256
          rings := []
          lanes := []
          cap := Captured.none
          entered := c.now
          served := true
          started := some c.now
          done := 1
          rows := []
          launch := 0
          mark := 0
          suppress := false
          refetch := false
          aux := 0 }
        let c := { c with mem := memWrite c.mem (txsFlat 0 0 pc) 4 w, nextId := c.nextId + 1 }
        let c := c.modEng 0 2 0 fun e => { e with jobs := [job] }
        { c with agenda := [⟨.cycle c.now, bEngine, 36, .txs 0 0⟩], inbox := [] }
  else s

end Sys2Proof.Machine
end

