-- ==== Sys2Proof/Safety.lean ====
section
/-! DEFINITION. What a safe run is, in the terms claims use: the machine goes on, and its memories keep their
canonical form; and what an instruction leaves, seen through the model's reads, with the frame of what it does not
touch. -/
namespace Sys2Proof

/-- What holds of every state that statements speak of: the memories keep the canonical form of log 3, in the machine
and in the snapshot that a bundle under way reads. -/
def Inv (s : Machine.State) : Prop :=
  Machine.Memory.wf s.core.mem = true ∧ ∀ b : Machine.Core, s.base = some b → Machine.Memory.wf b.mem = true

/-- n steps, none of which stops. -/
noncomputable def runsSafely : Nat → Machine.State → Prop
  | 0, _ => True
  | n + 1, s =>
    match Machine.step s with
    | .next t => runsSafely n t
    | .fault _ => False
    | .refused _ => False

end Sys2Proof

namespace Sys2Proof.Claims
open Sys2Proof.Machine

/-! ## Reads and frames -/

/-- The executing weave, as the machine holds it. -/
def me (s : State) : Weave := s.core.weave s.core.cur
/-- `t` is `s` but for the fields of the executing weave that `f` puts back, the agenda, the numbering of results and what
`g` puts back of the rest. Memory, every other weave, every special register and the program counter are as before. -/
def SameBut (s t : State) (f : Weave → Weave → Weave) (g : Core → Core → Core) : Prop :=
  t.base = s.base ∧ g s.core { t.core with weaves := s.core.weaves, agenda := s.core.agenda, nextId := s.core.nextId } = s.core ∧
  (∀ v, v ≠ s.core.cur → t.core.weave v = s.core.weave v) ∧ f (me s) (me t) = me s ∧
  ∀ a, memGet t.core.mem a = memGet s.core.mem a
/-- Only the results in flight of the executing weave differ (with the agenda and the numbering). -/
def SameButFlight (s t : State) : Prop :=
  SameBut s t (fun x y => { y with flight := x.flight }) (fun _ d => d)
/-- No result in flight lands in a lane of a register at or after cycle X in the lane's cell (R18). -/
def Settled (s : State) (file : File) (reg : BitVec 5) (lane cell X : Nat) : Prop :=
  ∀ r ∈ (me s).flight, r.file = file → r.reg = reg → (mget? r.data lane).isSome = true → r.lands cell < X + cell
/-- What reads see of a scalar result: `x` lands in s[d] at issue + L (R17, R18). Reads before the landing cycle and reads of
other registers give what they gave; from it on, reads of s[d] give `x` unless a result that is in flight lands as late. A
write to s0 is discarded. -/
abbrev ReadsS (s t : State) (d : Reg) (L : Nat) (x : Word) : Prop :=
  (∀ T r, (r ≠ d ∨ T < s.now + L) → (me t).sval T r = (me s).sval T r) ∧
  (∀ T r l, (me t).vval T r l = (me s).vval T r l) ∧ (∀ T k l, (me t).kval T k l = (me s).kval T k l) ∧
  (d ≠ 0 → Settled s .s d 0 0 (s.now + L) → ∀ T, s.now + L ≤ T → (me t).sval T d = x)
/-- A scalar result lands, and nothing else changes; s0 discards. -/
def LandsS (s t : State) (d : Reg) (L : Nat) (x : Word) : Prop :=
  SameButFlight s t ∧ ReadsS s t d L x ∧ (d = 0 → t = s)
/-- What reads see of lane results: `f l` lands in v[d] of each lane `l` of the list at issue + c + L, c the lane's cell. -/
abbrev ReadsV (s t : State) (d : Reg) (L : Nat) (lanes : List Nat) (f : Nat → Word) : Prop :=
  (∀ T r, (me t).sval T r = (me s).sval T r) ∧ (∀ T k l, (me t).kval T k l = (me s).kval T k l) ∧
  (∀ T r l, (r ≠ d ∨ l ∉ lanes ∨ T < s.now + L) → (me t).vval T r l = (me s).vval T r l) ∧
  ∀ l ∈ lanes, Settled s .v d l (l / 16) (s.now + L) → ∀ T, s.now + L ≤ T → (me t).vval T d l = f l
/-- What reads see of predicate results: `f l` lands in bit k[d] of each lane of the list at issue + c + L; a write to k0 is
discarded. -/
abbrev ReadsK (s t : State) (d : KReg) (L : Nat) (lanes : List Nat) (f : Nat → Bool) : Prop :=
  (∀ T r, (me t).sval T r = (me s).sval T r) ∧ (∀ T r l, (me t).vval T r l = (me s).vval T r l) ∧
  (∀ T k l, (k ≠ d ∨ l ∉ lanes ∨ T < s.now + L) → (me t).kval T k l = (me s).kval T k l) ∧
  (d ≠ 0 → ∀ l ∈ lanes, Settled s .k (d.setWidth 5) l (l / 16) (s.now + L) → ∀ T, s.now + L ≤ T → (me t).kval T d l = f l)
/-- Lane results land, and nothing else changes. -/
def LandsV (s t : State) (d : Reg) (L : Nat) (lanes : List Nat) (f : Nat → Word) : Prop :=
  SameButFlight s t ∧ ReadsV s t d L lanes f
/-- Predicate results land, and nothing else changes; k0 discards. -/
def LandsK (s t : State) (d : KReg) (L : Nat) (lanes : List Nat) (f : Nat → Bool) : Prop :=
  SameButFlight s t ∧ ReadsK s t d L lanes f ∧ (d = 0 → t = s)

end Sys2Proof.Claims
end

