-- ==== Sys2Proof/Certificates/Slice0/Obligations.lean ====
section
/-! DEFINITION. The statements for the provers.

A statement about an instruction says that `exec` answers a next state and what that state holds: what the instruction
writes, seen through the model's reads, and the frame: that everything else is as it was. -/

open Sys2Proof Sys2Proof.Machine Sys2Proof.Claims

/-! # Scalar instructions -/

namespace Sys2Proof.Claims
open Sys2Proof.Machine

/-- Set bits among the 64 of a word; leading and trailing zeros. -/
def ones (x : Word) : Nat := ((List.range 64).filter fun i => x.getLsbD i).length
def zerosAbove (x : Word) : Nat := ((List.range 64).takeWhile fun i => !x.getLsbD (63 - i)).length
def zerosBelow (x : Word) : Nat := ((List.range 64).takeWhile fun i => !x.getLsbD i).length
/-- pos and hi of a bit-field control word (R110). -/
def fieldPos (y : Word) : Nat := y.toNat % 64
def fieldHi (y : Word) : Nat := min (fieldPos y + (y.toNat / 256 % 64 + 1)) 64 - 1
/-- The immediate of a form of n bits: sign-extended, or extended by the 24 bits of the bundle's `lit` (R89, R112). -/
def immediate (s : State) (n imm : Nat) : Word :=
  match s.core.iss.lit with
  | none => BitVec.ofInt 64 (if imm < 2 ^ (n - 1) then imm else (imm : Int) - 2 ^ n)
  | some l =>
    let v := l.toNat * 2 ^ n + imm
    BitVec.ofInt 64 (if v < 2 ^ (23 + n) then v else (v : Int) - 2 ^ (24 + n))

end Sys2Proof.Claims

/-- R109: the register-to-register forms of class S write their value to s[d] at issue + 1 and change nothing else. -/
def Obligations.ScalarRegisterForms : Prop :=
  ∀ (s : State) (d a b c : Reg),
    let x := s.sreg a
    let y := s.sreg b
    let n := y.toNat % 64
    ∀ i v, (i, v) ∈ ([
      (.add d a b, x + y), (.sub d a b, x - y), (.and d a b, x &&& y), (.or d a b, x ||| y), (.xor d a b, x ^^^ y),
      (.andn d a b, x &&& ~~~y),
      (.shl d a b, BitVec.ofNat 64 (x.toNat * 2 ^ n)), (.shr d a b, BitVec.ofNat 64 (x.toNat / 2 ^ n)),
      (.sar d a b, BitVec.ofInt 64 (x.toInt / (2 ^ n : Nat))), (.rot d a b, x.rotateLeft n),
      (.mul d a b, BitVec.ofNat 64 (x.toNat * y.toNat)),
      (.mulh d a b, BitVec.ofInt 64 (x.toInt * y.toInt / 2 ^ 64)), (.mulhu d a b, BitVec.ofNat 64 (x.toNat * y.toNat / 2 ^ 64)),
      (.min d a b, if x.toInt < y.toInt then x else y), (.max d a b, if x.toInt < y.toInt then y else x),
      (.minu d a b, if x.toNat < y.toNat then x else y), (.maxu d a b, if x.toNat < y.toNat then y else x),
      (.slt d a b, if x.toInt < y.toInt then 1 else 0), (.sltu d a b, if x.toNat < y.toNat then 1 else 0),
      (.seq d a b, if x = y then 1 else 0), (.sne d a b, if x = y then 0 else 1),
      (.sel d a b c, if s.sreg c = 0 then y else x),
      (.clz d a, BitVec.ofNat 64 (zerosAbove x)), (.ctz d a, BitVec.ofNat 64 (zerosBelow x)),
      (.popc d a, BitVec.ofNat 64 (ones x))] : List (Instr × Word)) →
    ∃ t, Machine.exec i s = .next t ∧ LandsS s t d 1 v

/-- R110, R111: `bfx`, `bfxs`, `bfi` and the funnel shifts. -/
def Obligations.ScalarFieldForms : Prop :=
  ∀ (s : State) (d a b c : Reg) (n : BitVec 6),
    let x := s.sreg a
    let y := s.sreg b
    let pos := fieldPos y
    let hi := fieldHi y
    let f := x.toNat / 2 ^ pos % 2 ^ (hi + 1 - pos)
    (∃ t, Machine.exec (.bfx d a b) s = .next t ∧ LandsS s t d 1 (BitVec.ofNat 64 f)) ∧
    (∃ t, Machine.exec (.bfxs d a b) s = .next t ∧
      LandsS s t d 1 (BitVec.ofInt 64 (if x.getLsbD hi then (f : Int) - 2 ^ (hi + 1 - pos) else f))) ∧
    (∃ t v, Machine.exec (.bfi d a b) s = .next t ∧ LandsS s t d 1 v ∧
      ∀ i, i < 64 → v.getLsbD i = if pos ≤ i ∧ i ≤ hi then x.getLsbD (i - pos) else (s.sreg d).getLsbD i) ∧
    (∃ t, Machine.exec (.fsh d a b c) s = .next t ∧
      LandsS s t d 1 (BitVec.ofNat 64 ((x.toNat * 2 ^ 64 + y.toNat) / 2 ^ ((s.sreg c).toNat % 64)))) ∧
    (∃ t, Machine.exec (.fshi d a b n) s = .next t ∧
      LandsS s t d 1 (BitVec.ofNat 64 ((x.toNat * 2 ^ 64 + y.toNat) / 2 ^ n.toNat)))

/-- R112, R113: the immediate forms of class S, and the reads of a loop level. -/
def Obligations.ScalarImmediateForms : Prop :=
  ∀ (s : State) (d a : Reg) (m : BitVec 11) (n : BitVec 6) (h : BitVec 16) (level : BitVec 3),
    let x := s.sreg a
    let imm := immediate s 11 m.toNat
    let lv := s.wv.loops[level.toNat]?
    ∀ i v, (i, v) ∈ ([
      (.addi d a m, x + imm), (.andi d a m, x &&& imm), (.ori d a m, x ||| imm), (.xori d a m, x ^^^ imm),
      (.shli d a n, BitVec.ofNat 64 (x.toNat * 2 ^ n.toNat)), (.shri d a n, BitVec.ofNat 64 (x.toNat / 2 ^ n.toNat)),
      (.sari d a n, BitVec.ofInt 64 (x.toInt / (2 ^ n.toNat : Nat))),
      (.slti d a m, if x.toInt < imm.toInt then 1 else 0), (.sltiu d a m, if x.toNat < imm.toNat then 1 else 0),
      (.movi d h, immediate s 16 h.toNat), (.movhi d h, BitVec.ofNat 64 ((s.sreg d).toNat * 2 ^ 16 + h.toNat)),
      (.rdli d level, (lv.map fun l => BitVec.ofNat 64 l.index.toNat).getD 0),
      (.rdlc d level, (lv.map fun l => BitVec.ofNat 64 l.remaining.toNat).getD 0)] : List (Instr × Word)) →
    ∃ t, Machine.exec i s = .next t ∧ LandsS s t d 1 v

/-! # Lane instructions -/

namespace Sys2Proof.Claims
open Sys2Proof.Machine

/-- A w-bit value read as signed, an integer taken modulo 2^w, and an integer clamped to w signed bits (R10). -/
def signedOf (w x : Nat) : Int := if x < 2 ^ (w - 1) then x else (x : Int) - 2 ^ w
def modOf (w : Nat) (x : Int) : Nat := (x % 2 ^ w).toNat
def clamp (w : Nat) (x : Int) : Int := min (max x (-2 ^ (w - 1))) (2 ^ (w - 1) - 1)
/-- Every element of `x` of width w is what `e` says (R159). -/
def Elems (w : Nat) (x : Word) (e : Nat → Nat) : Prop := ∀ i, i < 64 / w → elem x w i = e i

end Sys2Proof.Claims

/-- R163: in each active lane, each element of v[d] becomes the form's function of the elements of v[a] and v[b]; the three
multiplies land at issue + c + 2, the others at issue + c + 1; nothing else changes. -/
def Obligations.LaneRegisterForms : Prop :=
  ∀ (s : State) (z : Sz) (d a b : Reg) (k : KReg),
    let w := z.width
    ∀ (i : Instr) (L : Nat) (f : Nat → Nat → Nat), (i, L, f) ∈ ([
      (.vadd z d a b k, 1, fun x y => (x + y) % 2 ^ w),
      (.vsub z d a b k, 1, fun x y => modOf w ((x : Int) - y)),
      (.vmul z d a b k, 2, fun x y => x * y % 2 ^ w),
      (.vmulh z d a b k, 2, fun x y => modOf w (signedOf w x * signedOf w y / 2 ^ w)),
      (.vmulhu z d a b k, 2, fun x y => x * y / 2 ^ w),
      (.vand z d a b k, 1, fun x y => x &&& y), (.vor z d a b k, 1, fun x y => x ||| y),
      (.vxor z d a b k, 1, fun x y => x ^^^ y), (.vandn z d a b k, 1, fun x y => x &&& (2 ^ w - 1 - y)),
      (.vshl z d a b k, 1, fun x y => x * 2 ^ (y % w) % 2 ^ w), (.vshr z d a b k, 1, fun x y => x / 2 ^ (y % w)),
      (.vsar z d a b k, 1, fun x y => modOf w (signedOf w x / 2 ^ (y % w))),
      (.vrot z d a b k, 1, fun x y => (x * 2 ^ (y % w) + x * 2 ^ (y % w) / 2 ^ w) % 2 ^ w),
      (.vmin z d a b k, 1, fun x y => if signedOf w x < signedOf w y then x else y),
      (.vmax z d a b k, 1, fun x y => if signedOf w x < signedOf w y then y else x),
      (.vminu z d a b k, 1, fun x y => min x y), (.vmaxu z d a b k, 1, fun x y => max x y),
      (.vabsd z d a b k, 1, fun x y => (signedOf w x - signedOf w y).natAbs),
      (.vaddsat z d a b k, 1, fun x y => modOf w (clamp w (signedOf w x + signedOf w y))),
      (.vsubsat z d a b k, 1, fun x y => modOf w (clamp w (signedOf w x - signedOf w y)))] :
        List (Instr × Nat × (Nat → Nat → Nat))) →
    ∃ t v, Machine.exec i s = .next t ∧ LandsV s t d L (s.active k) v ∧
      ∀ l, Elems w (v l) fun j => f (elem (s.vreg a l) w j) (elem (s.vreg b l) w j)

/-- R164, R168, R169, R171: the immediate forms act in every lane. -/
def Sys2Proof.Claims.LaneImmediateForms : Prop :=
  ∀ (s : State) (z : Sz) (d a b : Reg) (m : BitVec 9) (n pos : BitVec 6) (len : BitVec 5) (h : BitVec 16),
    let w := z.width
    let y := modOf w (signedOf 9 m.toNat)
    (∀ (i : Instr) (f : Nat → Nat), (i, f) ∈ ([
      (.vaddi z d a m, fun x => (x + y) % 2 ^ w), (.vandi z d a m, fun x => x &&& y), (.vori z d a m, fun x => x ||| y),
      (.vxori z d a m, fun x => x ^^^ y), (.vshli z d a n, fun x => x * 2 ^ n.toNat % 2 ^ w),
      (.vshri z d a n, fun x => x / 2 ^ n.toNat), (.vsari z d a n, fun x => modOf w (signedOf w x / 2 ^ n.toNat))] :
        List (Instr × (Nat → Nat))) →
      ∃ t v, Machine.exec i s = .next t ∧ LandsV s t d 1 allLanes v ∧ ∀ l, Elems w (v l) fun j => f (elem (s.vreg a l) w j)) ∧
    ∀ (i : Instr) (v : Nat → Word), (i, v) ∈ ([
      (.vbfxi d a pos len, fun l => BitVec.ofNat 64 ((s.vreg a l).toNat / 2 ^ pos.toNat % 2 ^ (len.toNat + 1))),
      (.vfshi d a b n, fun l => BitVec.ofNat 64 (((s.vreg a l).toNat * 2 ^ 64 + (s.vreg b l).toNat) / 2 ^ n.toNat)),
      (.vmovi d h, fun _ => BitVec.ofInt 64 (signedOf 16 h.toNat)), (.vlid d, fun l => BitVec.ofNat 64 l)] :
        List (Instr × (Nat → Word))) →
      ∃ t, Machine.exec i s = .next t ∧ LandsV s t d 1 allLanes v

/-- R166, R167, R169, R170, R171: selection, bit fields, funnels, bit counts and the broadcast. -/
def Sys2Proof.Claims.LaneFieldForms : Prop :=
  ∀ (s : State) (z : Sz) (d a b : Reg) (k : KReg),
    let w := z.width
    let A (l j : Nat) := elem (s.vreg a l) w j
    let B (l j : Nat) := elem (s.vreg b l) w j
    let D (l j : Nat) := elem (s.vreg d l) w j
    let pos (l : Nat) := fieldPos (s.vreg b l)
    let wide (l : Nat) := min (pos l + ((s.vreg b l).toNat / 256 % 64 + 1)) w - pos l
    (∃ t, Machine.exec (.vsel z d a b k) s = .next t ∧
      LandsV s t d 1 allLanes fun l => if s.kreg k l then s.vreg a l else s.vreg b l) ∧
    (∃ t v, Machine.exec (.vbcs z d a k) s = .next t ∧ LandsV s t d 1 (s.active k) v ∧
      ∀ l, Elems w (v l) fun _ => (s.sreg a).toNat % 2 ^ w) ∧
    ∀ (i : Instr) (e : Nat → Nat → Nat), (i, e) ∈ ([
      (.vbfx z d a b k, fun l j => if w ≤ pos l then 0 else A l j / 2 ^ pos l % 2 ^ wide l),
      (.vbfxs z d a b k, fun l j => if w ≤ pos l then 0 else modOf w (signedOf (wide l) (A l j / 2 ^ pos l % 2 ^ wide l))),
      (.vbfi z d a b k, fun l j => if w ≤ pos l then D l j
        else D l j - D l j / 2 ^ pos l % 2 ^ wide l * 2 ^ pos l + A l j % 2 ^ wide l * 2 ^ pos l),
      (.vfsh z d a b k, fun l j => (A l j * 2 ^ w + B l j) / 2 ^ (D l j % w) % 2 ^ w),
      (.vclz z d a k, fun l j => ((List.range w).takeWhile fun n => !(A l j).testBit (w - 1 - n)).length),
      (.vpopc z d a k, fun l j => ((List.range w).filter fun n => (A l j).testBit n).length),
      (.vrev z d a k, fun l j => ((List.range w).map fun n => if (A l j).testBit n then 2 ^ (w - 1 - n) else 0).sum),
      (.vbswap z d a k, fun l j => ((List.range (w / 8)).map fun n => A l j / 256 ^ n % 256 * 256 ^ (w / 8 - 1 - n)).sum)] :
        List (Instr × (Nat → Nat → Nat))) →
      ∃ t v, Machine.exec i s = .next t ∧ LandsV s t d 1 (s.active k) v ∧ ∀ l, Elems w (v l) (e l)

/-- R165, R172: compares write the predicate of the active lanes, the predicate forms that of every lane. -/
def Obligations.PredicateForms : Prop :=
  ∀ (s : State) (z : Sz) (kd ka kb k : KReg) (a b : Reg) (u : Bool),
    let w := z.width
    (∀ (i : Instr) (r : Nat → Nat → Prop), (i, r) ∈ ([
      (.vcmpeq z kd a b k, fun x y => x = y), (.vcmplt z kd a b k, fun x y => signedOf w x < signedOf w y),
      (.vcmpltu z kd a b k, fun x y => x < y)] : List (Instr × (Nat → Nat → Prop))) →
      ∃ t v, Machine.exec i s = .next t ∧ LandsK s t kd 1 (s.active k) v ∧
        ∀ l, v l = true ↔ ∀ j, j < 64 / w → r (elem (s.vreg a l) w j) (elem (s.vreg b l) w j)) ∧
    ∀ (i : Instr) (v : Nat → Bool), (i, v) ∈ ([
      (.kand kd ka kb, fun l => s.kreg ka l && s.kreg kb l), (.kor kd ka kb, fun l => s.kreg ka l || s.kreg kb l),
      (.kxor kd ka kb, fun l => xor (s.kreg ka l) (s.kreg kb l)), (.knot kd ka, fun l => !s.kreg ka l),
      (.kmov kd ka, fun l => s.kreg ka l), (.kset kd u, fun _ => u),
      (.vmask kd a, fun l => decide (s.vreg a l ≠ 0))] : List (Instr × (Nat → Bool))) →
      ∃ t, Machine.exec i s = .next t ∧ LandsK s t kd 1 allLanes v

/-- Lane forms with immediates and with bit fields. -/
def Obligations.LaneImmediateAndFieldForms : Prop :=
  LaneImmediateForms ∧ LaneFieldForms
/-! # Lane floating point -/

namespace Sys2Proof.Claims
open Sys2Proof.Machine

/-- Every flag of a list. -/
def orAll (xs : List Nat) : Nat := xs.foldl (fun acc x => acc ||| x) 0
/-- The flags `fl` enter FCSR.FLAGS, and those with their TE bit set are noted for FPX (R188, R189); of the rest only
results in flight and lane generators may differ. -/
def Raises (s t : State) (fl : Nat) : Prop :=
  SameBut s t (fun x y => { y with flight := x.flight, fcsr := x.fcsr, srd := x.srd }) (fun c d => { d with iss := c.iss }) ∧
  (me t).fcsr = (me s).fcsr ||| BitVec.ofNat 64 (fl * 16) ∧
  t.core.iss = { s.core.iss with
    flags := s.core.iss.flags ||| fl
    fpx := s.core.iss.fpx ||| (fl &&& s.wv.te)
    fpxSlot := if s.core.iss.fpx = 0 then s.core.iss.slot else s.core.iss.fpxSlot }
/-- In(x) of element j of a lane (R173). -/
def laneIn (s : State) (f : FFmt) (r : Reg) (l j : Nat) : Fp :=
  inFp (specOf f) s.wv.ftz (elem (s.vreg r l) (specOf f).w j)
/-- RoundTo of an exact value with the flags of its operation, under the weave's modes (R60, R173). -/
def rounded (s : State) (f : FSpec) (mode : Nat) (v : Fp × Nat) : Nat × Nat :=
  let r := roundTo f ⟨mode, false, s.wv.ftz, none⟩ v.1
  (r.1, v.2 ||| r.2)
/-- RM' where SRD does not apply (R173). -/
def mode' (s : State) : Nat := if s.wv.fcsr.toNat % 8 = 4 then 0 else s.wv.fcsr.toNat % 8

end Sys2Proof.Claims

/-- R174 to R176, R178 to R181, R186, R187: in each lane that the form acts on, each element of v[d] becomes RoundTo of the
form's function of the inputs, at issue + c + L, and the flags of those elements are ORed into FCSR.FLAGS. -/
def Sys2Proof.Claims.LaneFloatForms : Prop :=
  ∀ (s : State) (f : FFmt) (d a b : Reg) (k : KReg) (e : BitVec 9) (m : BitVec 3),
    let X := laneIn s f a
    let Y := laneIn s f b
    let Z := laneIn s f d
    let sp := specOf f
    let R := rounded s sp (mode' s)
    let N := rounded s sp 0
    let scale (l j : Nat) : Nat := elem (s.vreg b l) 8 j
    ∀ (i : Instr) (L : Nat) (lanes : List Nat) (g : Nat → Nat → Nat × Nat), (i, L, lanes, g) ∈ ([
      (.vfadd f d a b k, 4, s.active k, fun l j => R ((addFp (mode' s) (X l j) (Y l j)).1,
        (addFp (mode' s) (X l j) (Y l j)).2 ||| sigFlag [X l j, Y l j])),
      (.vfsub f d a b k, 4, s.active k, fun l j => R ((addFp (mode' s) (X l j) (Y l j).negate).1,
        (addFp (mode' s) (X l j) (Y l j).negate).2 ||| sigFlag [X l j, Y l j])),
      (.vfmul f d a b k, 4, s.active k, fun l j => R ((mulFp (X l j) (Y l j)).1,
        (mulFp (X l j) (Y l j)).2 ||| sigFlag [X l j, Y l j])),
      (.vfma f d a b k, 4, s.active k, fun l j => R (fmaFp (mode' s) (X l j) (Y l j) (Z l j))),
      (.vfms f d a b k, 4, s.active k, fun l j => R (fmaFp (mode' s) (X l j) (Y l j) (Z l j).negate)),
      (.vfnma f d a b k, 4, s.active k, fun l j => R (fmaFp (mode' s) (X l j).negate (Y l j) (Z l j))),
      (.vfmin f d a b k, 4, s.active k, fun l j => ((roundTo sp rne (minMaxFp false (X l j) (Y l j)).1).1, sigFlag [X l j, Y l j])),
      (.vfmax f d a b k, 4, s.active k, fun l j => ((roundTo sp rne (minMaxFp true (X l j) (Y l j)).1).1, sigFlag [X l j, Y l j])),
      (.vfabs f d a k, 4, s.active k, fun l j => ((roundTo sp rne (X l j).abs).1, sigFlag [X l j])),
      (.vfneg f d a k, 4, s.active k, fun l j => ((roundTo sp rne (X l j).negate).1, sigFlag [X l j])),
      (.vfclass f d a k, 4, s.active k, fun l j => (classFp sp (X l j), 0)),
      (.vfrcp f d a k, 4, s.active k, fun l j => N (rcpFp (X l j))), (.vfrsq f d a k, 4, s.active k, fun l j => N (rsqFp (X l j))),
      (.vfexp2 f d a k, 4, s.active k, fun l j => N (exp2Fp (X l j))), (.vflog2 f d a k, 4, s.active k, fun l j => N (log2Fp (X l j))),
      (.vfscl f d a b k, 4, s.active k, fun l j =>
        if scale l (2 * j) = 255 ∨ scale l (2 * j + 1) = 255 then (defaultNan sp, 0)
        else R (scaleFp (X l j) ((scale l (2 * j) : Int) - 127 + ((scale l (2 * j + 1) : Int) - 127)), 0)),
      (.vfscli f d a e, 4, allLanes, fun l j => R (scaleFp (X l j) (signedOf 9 e.toNat), 0)),
      (.vfrnd f m d a k, 2, s.active k, fun l j => rndFp sp
        (if m.toNat = 7 then mode' s else if m.toNat = 4 then 0 else m.toNat) (X l j))] :
        List (Instr × Nat × List Nat × (Nat → Nat → Nat × Nat))) →
    ∃ t v, Machine.exec i s = .next t ∧ ReadsV s t d L lanes v ∧ (∀ l, Elems sp.w (v l) fun j => (g l j).1 % 2 ^ sp.w) ∧
      Raises s t (orAll (lanes.flatMap fun l => (List.range (64 / sp.w)).map fun j => (g l j).2)) ∧ (me t).srd = (me s).srd

/-- R187: `vfdot` adds each half's products to the accumulator of that half, exactly, with one rounding to FP32; the INT8
form wraps and raises no flag. -/
def Sys2Proof.Claims.PackedDotProduct : Prop :=
  ∀ (s : State) (f : FFmt) (d a b : Reg) (k : KReg),
    let sp := specOf f
    let q := 64 / f.width / 2
    let half (j : Nat) := (List.range q).map (j * q + ·)
    let el (r : Reg) (w l j : Nat) := elem (s.vreg r l) w j
    let float (l j : Nat) : Nat × Nat := rounded s fp32 (mode' s) (dotFp (mode' s) (inFp fp32 s.wv.ftz (el d 32 l j))
      ((half j).map fun i => (inFp sp s.wv.ftz (el a f.width l i), inFp sp s.wv.ftz (el b f.width l i))))
    let int (l j : Nat) : Nat × Nat := (modOf 32 (signedOf 32 (el d 32 l j) +
      ((half j).map fun i => signedOf 8 (el a 8 l i) * signedOf 8 (el b 8 l i)).sum), 0)
    let g := if f = .i then int else float
    ∃ t v, Machine.exec (.vfdot f d a b k) s = .next t ∧ ReadsV s t d 4 (s.active k) v ∧
      (∀ l, Elems 32 (v l) fun j => (g l j).1 % 2 ^ 32) ∧
      Raises s t (orAll ((s.active k).flatMap fun l => (List.range 2).map fun j => (g l j).2)) ∧ (me t).srd = (me s).srd

/-- R177: a compare writes 1 in an active lane when its relation holds for every element, with NV as the form lays down. -/
def Sys2Proof.Claims.LaneFloatCompares : Prop :=
  ∀ (s : State) (f : FFmt) (kd : KReg) (a b : Reg) (k : KReg),
    let w := (specOf f).w
    let unordered (x y : Fp) : Bool := x.isNan || y.isNan
    ∀ (i : Instr) (rel : Fp → Fp → Bool) (nv : Fp → Fp → Bool), (i, rel, nv) ∈ ([
      (.vfcmpeq f kd a b k, fun x y => !unordered x y && !ltFp x y && !ltFp y x, fun x y => x.isSig || y.isSig),
      (.vfcmplt f kd a b k, fun x y => ltFp x y, unordered),
      (.vfcmple f kd a b k, fun x y => ltFp x y || (!unordered x y && !ltFp x y && !ltFp y x), unordered),
      (.vfcmpun f kd a b k, unordered, fun x y => x.isSig || y.isSig)] : List (Instr × (Fp → Fp → Bool) × (Fp → Fp → Bool))) →
    ∃ t v, Machine.exec i s = .next t ∧ ReadsK s t kd 4 (s.active k) v ∧
      (∀ l ∈ s.active k, v l = true ↔ ∀ j, j < 64 / w → rel (laneIn s f a l j) (laneIn s f b l j) = true) ∧
      Raises s t (if ∃ l ∈ s.active k, ∃ j, j < 64 / w ∧ nv (laneIn s f a l j) (laneIn s f b l j) = true then 16 else 0) ∧
      (me t).srd = (me s).srd

/-- R182 to R185: conversions, element by element in ascending order, the lane's generator advancing as they round; bits of
the destination above the converted elements are 0. -/
def Sys2Proof.Claims.LaneConversions : Prop :=
  ∀ (s : State) (tgt src : FFmt) (z : ISz) (sat : Bool) (d a : Reg) (k : KReg),
    ∀ (i : Instr) (ws wd : Nat) (g : BitVec 32 → Nat → Nat × Nat × BitVec 32), (i, ws, wd, g) ∈ ([
      (.vfcvt tgt src sat d a k, src.width, tgt.width, cvtElem (fmtCode src) (fmtCode tgt) s.wv.rm sat s.wv.ftz),
      (.vfcvti z src sat d a k, src.width, z.width, fun gen x =>
        let r := convRnd s.wv.rm false s.wv.ftz z.width gen
        let y := toIntFp z.width r.mode r.srd (inFp (specOf src) s.wv.ftz x)
        (y.1, y.2, if r.srd.isSome then srdStep gen else gen)),
      (.vfcvtf tgt z sat d a k, z.width, tgt.width, fun gen x =>
        let r := convRnd s.wv.rm sat s.wv.ftz tgt.width gen
        let y := roundTo (specOf tgt) r (.ofInt (signedOf z.width x))
        (y.1, y.2, if r.srd.isSome then srdStep gen else gen))] :
        List (Instr × Nat × Nat × (BitVec 32 → Nat → Nat × Nat × BitVec 32))) →
    let n := 64 / max ws wd
    let out (l : Nat) := cvtElems (fun x gen => g gen x) ((List.range n).map (elem (s.vreg a l) ws)) ((me s).gen l)
    ∃ t v, Machine.exec i s = .next t ∧ ReadsV s t d 2 (s.active k) v ∧
      (∀ l ∈ s.active k, (∀ j, j < n → elem (v l) wd j = (out l).1.getD j 0 % 2 ^ wd) ∧ (v l).toNat < 2 ^ (n * wd) ∧
        (me t).gen l = (out l).2.2) ∧
      (∀ l, l ∉ s.active k → (me t).gen l = (me s).gen l) ∧
      Raises s t (orAll ((s.active k).map fun l => (out l).2.1))

/-- Lane float arithmetic and the packed dot product. -/
def Obligations.LaneFloatArithmetic : Prop :=
  LaneFloatForms ∧ PackedDotProduct

/-- Lane float compares and conversions. -/
def Obligations.LaneFloatComparesAndConversions : Prop :=
  LaneFloatCompares ∧ LaneConversions
/-! # Number formats -/

namespace Sys2Proof.Claims
open Sys2Proof.Machine

/-- (−1)^n × m × 2^e. -/
def valQ (n : Bool) (m : Nat) (e : Int) : ℚ := (if n then -1 else 1) * (m : ℚ) * (2 : ℚ) ^ e
/-- The formats of R49 and the elements of R58. -/
def scalarFormats : List FSpec := [fp64, fp32, fp16, bf16, fp8e4, fp8e5, e2m3, e3m2, e2m1]

end Sys2Proof.Claims

/-- R174: sums, products and fused sums of finite values are exact; only RoundTo rounds. -/
def Obligations.FiniteArithmeticIsExact : Prop :=
  ∀ (mode : Nat) (n₁ n₂ n₃ : Bool) (m₁ m₂ m₃ : Nat) (e₁ e₂ e₃ : Int),
    let x := valQ n₁ m₁ e₁
    let y := valQ n₂ m₂ e₂
    let z := valQ n₃ m₃ e₃
    (∃ n m e, addFp mode (.num n₁ m₁ e₁ false) (.num n₂ m₂ e₂ false) = (.num n m e false, 0) ∧ valQ n m e = x + y) ∧
    (∃ n m e, mulFp (.num n₁ m₁ e₁ false) (.num n₂ m₂ e₂ false) = (.num n m e false, 0) ∧ valQ n m e = x * y) ∧
    (∃ n m e, fmaFp mode (.num n₁ m₁ e₁ false) (.num n₂ m₂ e₂ false) (.num n₃ m₃ e₃ false) = (.num n m e false, 0) ∧
      valQ n m e = x * y + z)

/-- R60: the value of an element's bits is delivered as those bits, with no flag: RoundTo changes no representable value. -/
def Obligations.RepresentableValuesRoundToThemselves : Prop :=
  ∀ (f : FSpec) (x : Nat), f ∈ scalarFormats → x < 2 ^ f.w →
    (∃ n m e, decodeFp f x = .num n m e false) → roundTo f rne (decodeFp f x) = (x, 0)

/-- R61: overflow, by mode, sign and saturation, and infinite inputs, in formats with an infinity, in E4M3 and in the rest. -/
def Obligations.OverflowAndInfinities : Prop :=
  ∀ (f : FSpec) (mode : Nat) (sat ftz neg : Bool) (srd : Option Nat), f ∈ scalarFormats → mode ∈ [0, 1, 2, 3, 4] →
    let largest := signBit f neg + maxBits f
    let away := mode = 0 ∨ mode = 4 ∨ mode = 2 ∧ neg = false ∨ mode = 3 ∧ neg = true
    let infinity := match f.special with
      | .ieee => infBits f neg
      | .e4m3 => defaultNan f
      | .none => largest
    overflowBits f mode sat neg = (if sat = false ∧ away then infinity else largest) ∧
    roundTo f ⟨mode, sat, ftz, srd⟩ (.inf neg) =
      (if sat = false then infinity else largest, if sat = false ∧ f.special = .e4m3 then fNV else 0)

/-! # Lane memory -/

namespace Sys2Proof.Claims
open Sys2Proof.Machine

/-- A bundle is under way: the snapshot that its syllables read is there. -/
def UnderWay (s : State) : Prop := ∃ b, s.base = some b
/-- No row is poisoned, no bit of a word is flipped and no weave has an armed injection that matches: no read of an array ends in
an error (R328, R372, R399). -/
def Quiet (s : State) : Prop := s.core.poison = [] ∧ s.core.flips = [] ∧ ∀ p ∈ s.core.weaves, p.2.injecting = false
/-- The groups of R194 that the form belongs to may issue: 2 cycles since the last sector access, 4 since the last pair
access. -/
def Spaced (s : State) (sector pair : Bool) : Prop :=
  (sector = true → ∀ t, s.wv.lastSector = some t → t + 2 ≤ s.now) ∧ (pair = true → ∀ t, s.wv.lastPair = some t → t + 4 ≤ s.now)
/-- Every active lane's access passes the checks of R192 and reaches a row: `own` tells a LOCAL row, `flat` is its address. -/
def ReachRows (s : State) (win : Option Win) (k : KReg) (ea : Nat → Nat) (own : Nat → Bool) (flat : Nat → Nat) : Prop :=
  ∀ l ∈ s.active k, s.reachOf win l (ea l) = .row (own l) (flat l)
/-- No LOCAL access of an active lane executes in a blackout, nor does its redundant partner's 2 cycles later (R195, R344, R385). -/
def NoBlackout (s : State) (k : KReg) (own : Nat → Bool) : Prop :=
  ∀ l ∈ s.active k, own l = true → s.rd.blackout s.core.cur (s.now + l / 16) = none ∧
    (s.rd.hasPartner s.core.cur = true → s.rd.blackout (s.core.cur + 1) (s.now + 2 + l / 16) = none)
/-- No row of a paired store that the active lanes read has still to cross a degraded pair's buses (R350). -/
def Crossed (s : State) (k : KReg) (flat : Nat → Nat) : Prop :=
  s.rd.pairDegraded s.core.cur = true →
    (∃ l ∈ s.active k, storeBase ≤ flat l ∧ flat l < towerBase ∧ flagSector (flat l) ≠ secOf s.core.cur) →
    ∃ t, s.wv.busWait = some t ∧ t ≤ s.now
/-- A row that a store enters whole into the phase buffer has good parity there (R376). -/
def Rebuffered (s t : State) (k : KReg) (own : Nat → Bool) (flat : Nat → Nat) (whole : Nat → Prop) : Prop :=
  ∀ b, b ∈ (me t).bufBad ↔
    b ∈ (me s).bufBad ∧ ¬ (b.1 = 0 ∧ ∃ l ∈ s.active k, own l = false ∧ flat l = b.2 ∧ whole l)
/-- After an access of a group: results in flight, the notes of later reads and the group's last access may differ; the rest
is as before. -/
def Accessed (s t : State) (sector pair : Bool) : Prop :=
  SameBut s t (fun x y => { y with
    flight := x.flight, reads := x.reads, lastSector := x.lastSector, lastPair := x.lastPair }) (fun _ d => d) ∧
  (me t).lastSector = (if sector then some s.now else (me s).lastSector) ∧
  (me t).lastPair = (if pair then some s.now else (me s).lastPair)

end Sys2Proof.Claims

/-- R17, R194 to R196: plain loads. Every active lane's row, as the weave reads it, lands in v[d]; memory is unchanged.
What a LOCAL load gives is found at issue, and found again where an engine writes the row before the cell reads it (log 13). -/
def Obligations.LaneLoads : Prop :=
  ∀ (s : State) (d a : Reg) (o : BitVec 5) (k : KReg) (own : Nat → Bool) (flat : Nat → Nat),
    ∀ (i : Instr) (win : Option Win) (L : Nat) (addr : Nat → Word) (sector pair : Bool), (i, win, L, addr, sector, pair) ∈ ([
      (.ldr d a o k, some .loc, 3, s.vreg a, false, false), (.ldrs d a o k, some .loc, 3, fun _ => s.sreg a, false, false),
      (.lds d a o k, some .sec, 6, s.vreg a, true, false), (.ldp d a o k, some .pair, 12, s.vreg a, false, true),
      (.ldx d a o k, none, 12, s.vreg a, true, true)] : List (Instr × Option Win × Nat × (Nat → Word) × Bool × Bool)) →
    UnderWay s → Quiet s → Spaced s sector pair →
    ReachRows s win k (fun l => (addr l + o.signExtend 64 * 8).toNat) own flat →
    (∀ l ∈ s.active k, s.rd.rowArrived (flat l) = true) → NoBlackout s k own → Crossed s k flat →
    ∃ t v, Machine.exec i s = .next t ∧ ReadsV s t d L (s.active k) v ∧ Accessed s t sector pair ∧
      ∀ l ∈ s.active k, v l = if own l then s.rd.localRow s.core.cur l (flat l) else s.rd.loadShared s.core.cur (flat l)

/-- R15, R194, R196, R197: plain stores. At issue no byte of memory changes: LOCAL rows wait for their cell's execution, in the
order of the lanes; rows of a shared store enter the phase buffer. -/
def Sys2Proof.Claims.LaneStores : Prop :=
  ∀ (s : State) (d a : Reg) (o : BitVec 5) (k : KReg) (own : Nat → Bool) (flat : Nat → Nat),
    ∀ (i : Instr) (win : Option Win) (addr : Nat → Word) (sector pair : Bool), (i, win, addr, sector, pair) ∈ ([
      (.str d a o k, some .loc, s.vreg a, false, false), (.strs d a o k, some .loc, fun _ => s.sreg a, false, false),
      (.sts d a o k, some .sec, s.vreg a, true, false), (.stp d a o k, some .pair, s.vreg a, false, true),
      (.stx d a o k, none, s.vreg a, true, true)] : List (Instr × Option Win × (Nat → Word) × Bool × Bool)) →
    UnderWay s → Spaced s sector pair →
    ReachRows s win k (fun l => (addr l + o.signExtend 64 * 8).toNat) own flat → NoBlackout s k own →
    let buf := ((s.active k).filter fun l => !own l).foldl (fun b l => bufferRow b (flat l) (s.vreg d l) (BitVec.allOnes 64)) (me s).buf
    buf.length ≤ Config.bufferRows →
    ∃ t, Machine.exec i s = .next t ∧ (me t).buf = buf ∧
      (me t).skews = (me s).skews ++ (if (s.active k).any own then
        [⟨s.core.nextId, ((s.active k).filter own).map fun l => ⟨l, flat l, s.vreg d l, BitVec.allOnes 64⟩⟩] else []) ∧
      (∀ l ∈ s.active k, own l = true →
        ⟨.cycle (s.now + l / 16), bWave, s.core.cur, .wavefrontSkewExecution s.core.cur s.core.nextId (l / 16)⟩ ∈ t.core.agenda) ∧
      (me t).lastSector = (if sector then some s.now else (me s).lastSector) ∧
      (me t).lastPair = (if pair then some s.now else (me s).lastPair) ∧
      SameBut s t (fun x y => { y with
        buf := x.buf, bufBad := x.bufBad, skews := x.skews, lastSector := x.lastSector, lastPair := x.lastPair }) (fun _ d => d) ∧
      Rebuffered s t k own flat fun _ => True

/-- R15, R193: when a cell executes a bundle's LOCAL stores, a row holds the value of the last store of it, and no byte outside
the rows stored changes. No stored bit is flipped (log 41). -/
def Sys2Proof.Claims.LocalStoresReachMemory : Prop :=
  ∀ (s : State) (w id cell : Nat) (k : Skew), Memory.wf s.core.mem = true → s.core.flips = [] →
    (s.core.weave w).skews.find? (fun x => x.id == id) = some k →
    ∃ t, Machine.exec (.wavefrontSkewExecution w id cell) s = .next t ∧ t.base = s.base ∧ Memory.wf t.core.mem = true ∧
      (∀ a, (∀ r ∈ k.stores, r.lane / 16 = cell → rowAddr a ≠ rowAddr r.addr) → memGet t.core.mem a = memGet s.core.mem a) ∧
      (∀ pre r post, k.stores = pre ++ r :: post → r.lane / 16 = cell → r.mask = BitVec.allOnes 64 →
        (∀ q ∈ post, q.lane / 16 = cell → rowAddr q.addr ≠ rowAddr r.addr) → t.core.row r.addr = r.val) ∧
      ∀ v, v ≠ w → ({ t.core.weave v with refill := (s.core.weave v).refill } : Weave) = s.core.weave v

/-- R198, R199: typed loads and stores convert as the slot's descriptor says; a load lands at issue + c + 14, a store's bits
wait as those of a plain store do. A LOCAL row, and with it the flags and the draws, are those found at issue; what they become where the
row changes before the cell reads it is log 13. -/
def Sys2Proof.Claims.TypedLaneAccesses : Prop :=
  ∀ (s : State) (slot : BitVec 3) (d a : Reg) (o : BitVec 5) (k : KReg) (own : Nat → Bool) (flat : Nat → Nat),
    let fd := s.wv.descriptor slot.toNat
    let ea (l : Nat) : Nat := (s.vreg a l + o.signExtend 64 * 8).toNat
    let ws := codeWidth (fdSF fd)
    let wl := codeWidth (fdLF fd)
    let n := 64 / max ws wl
    let first (l : Nat) : Nat := ea l % 8 * 8 / ws / n * n
    let mode := if fdRM fd = 7 then s.wv.rm else fdRM fd
    let conv (src dst : Nat) (l : Nat) (xs : List Nat) :=
      cvtElems (fun x g => cvtElem src dst mode (fdSAT fd) s.wv.ftz g x) xs ((me s).gen l)
    let row (l : Nat) := if own l then s.rd.localRow s.core.cur l (flat l) else s.rd.loadShared s.core.cur (flat l)
    let loaded (l : Nat) := conv (fdSF fd) (fdLF fd) l ((List.range n).map fun j => elem (row l) ws (first l + j))
    let stored (l : Nat) := conv (fdLF fd) (fdSF fd) l ((List.range n).map fun j => elem (s.vreg d l) wl j)
    let bits (l : Nat) : Word := packElems ws (stored l).1 <<< (ws * first l)
    let mask (l : Nat) : Word := BitVec.ofNat 64 ((2 ^ (n * ws) - 1) * 2 ^ (ws * first l))
    let buf := ((s.active k).filter fun l => !own l).foldl (fun b l => bufferRow b (flat l) (bits l) (mask l)) (me s).buf
    UnderWay s → Quiet s → Spaced s true true → typedOk fd = true → ReachRows s none k ea own flat → NoBlackout s k own →
    ((∀ l ∈ s.active k, s.rd.rowArrived (flat l) = true) → Crossed s k flat →
      ∃ t v, Machine.exec (.ldf slot d a o k) s = .next t ∧ ReadsV s t d 14 (s.active k) v ∧
        (∀ l ∈ s.active k, v l = packElems wl (loaded l).1 ∧ (me t).gen l = (loaded l).2.2) ∧
        (me t).fcsr = (me s).fcsr ||| BitVec.ofNat 64 (orAll ((s.active k).map fun l => (loaded l).2.1) * 16) ∧
        SameBut s t (fun x y => { y with
          flight := x.flight, reads := x.reads, srd := x.srd, fcsr := x.fcsr, lastSector := x.lastSector, lastPair := x.lastPair })
          (fun c d => { d with iss := c.iss })) ∧
    (buf.length ≤ Config.bufferRows →
      ∃ t, Machine.exec (.stf slot d a o k) s = .next t ∧ (me t).buf = buf ∧
        (me t).skews = (me s).skews ++ (if (s.active k).any own then
          [⟨s.core.nextId, ((s.active k).filter own).map fun l => ⟨l, flat l, bits l, mask l⟩⟩] else []) ∧
        (∀ l ∈ s.active k, (me t).gen l = (stored l).2.2) ∧
        (me t).fcsr = (me s).fcsr ||| BitVec.ofNat 64 (orAll ((s.active k).map fun l => (stored l).2.1) * 16) ∧
        SameBut s t (fun x y => { y with
          buf := x.buf, bufBad := x.bufBad, skews := x.skews, srd := x.srd, fcsr := x.fcsr, lastSector := x.lastSector,
          lastPair := x.lastPair }) (fun c d => { d with iss := c.iss }) ∧
        Rebuffered s t k own flat fun l => mask l = BitVec.allOnes 64)

/-- R200, R201: rotate-merge and window conversion. -/
def Sys2Proof.Claims.WindowForms : Prop :=
  ∀ (s : State) (x : Win) (d a b : Reg) (kd k : KReg) (n : BitVec 3),
    let base := s.wv.winBase x
    let size := if x = .loc then 0x10000 else 0x400000
    let within (l : Nat) : Prop := (x = .pair → s.rd.pairHeld s.core.cur = true) ∧
      base ≤ (s.vreg a l).toNat ∧ (s.vreg a l).toNat < base + size
    let merge (l sh : Nat) : Word := BitVec.ofNat 64 (((s.vreg a l).toNat * 2 ^ 64 + (s.vreg d l).toNat) / 2 ^ (8 * sh))
    (∃ t, Machine.exec (.rmg d a n k) s = .next t ∧ LandsV s t d 1 (s.active k) fun l => merge l n.toNat) ∧
    (∃ t, Machine.exec (.rmgv d a b k) s = .next t ∧ LandsV s t d 1 (s.active k) fun l => merge l ((s.vreg b l).toNat % 8)) ∧
    (∃ t, Machine.exec (.cvta x d a k) s = .next t ∧ LandsV s t d 1 (s.active k) fun l => BitVec.ofNat 64 base + s.vreg a l) ∧
    (∃ t v, Machine.exec (.cvtw x d a k) s = .next t ∧ LandsV s t d 1 (s.active k) v ∧
      ∀ l, (within l → v l = s.vreg a l - BitVec.ofNat 64 base) ∧ (¬ within l → v l = BitVec.allOnes 64)) ∧
    (∃ t v, Machine.exec (.isw x kd a k) s = .next t ∧ LandsK s t kd 1 (s.active k) v ∧ ∀ l, v l = true ↔ within l)

/-- R202, R203: a bundle's atomics are entered, one for each active lane, to apply 2 cycles after the cell's execution; no
byte changes at issue, and ATOM is set. Without an active lane nothing is entered. -/
def Sys2Proof.Claims.SectorAtomicsEnter : Prop :=
  ∀ (s : State) (op : AtmOp) (d a b : Reg) (k : KReg) (flat : Nat → Nat),
    ∀ (i : Instr) (code : Nat) (y z : Nat → Word), (i, code, y, z) ∈ ([
      (.atm op d a b k, (match op with
        | .add => 0 | .and => 1 | .or => 2 | .xor => 3 | .min => 4 | .max => 5 | .swp => 6 | .fadds => 7), s.vreg b, fun _ => 0),
      (.atmc d a b k, 8, s.vreg b, s.vreg d), (.atmz d a k, 9, fun _ => 0, fun _ => 0)] :
        List (Instr × Nat × (Nat → Word) × (Nat → Word))) →
    UnderWay s → Quiet s → Spaced s true false → ReachRows s (some .sec) k (fun l => (s.vreg a l).toNat) (fun _ => false) flat →
    (∀ l ∈ s.active k, s.rd.rowArrived (flat l) = true) → Crossed s k flat →
    ∃ t, Machine.exec i s = .next t ∧ (me t).lastSector = some s.now ∧
      (s.active k = [] → SameBut s t (fun x y => { y with lastSector := x.lastSector }) (fun _ d => d)) ∧
      (s.active k ≠ [] →
        (me t).atomics = (me s).atomics ++ [⟨s.core.nextId + 1, s.now, some s.core.nextId,
          (s.active k).map fun l => ⟨l, flat l, code, y l, z l⟩⟩] ∧
        (∀ l ∈ s.active k, ⟨.cycle (s.now + l / 16 + 2), bAtomic, s.core.cur * 8 + l / 16,
          .laneAtomicApply s.core.cur (s.core.nextId + 1) (l / 16)⟩ ∈ t.core.agenda) ∧
        (me t).flight = (me s).flight ++ [⟨s.core.nextId, s.core.iss.slot, s.now, .v, d, s.now + 8, 0, s.active k, [], false⟩] ∧
        (me t).status = (me s).status ||| 16 ∧
        SameBut s t (fun x y => { y with
          flight := x.flight, atomics := x.atomics, lastSector := x.lastSector, status := x.status }) (fun _ d => d))

namespace Sys2Proof.Claims
open Sys2Proof.Machine

/-- A row after atomics, applied in order, from what it held. -/
def rowAfter (ops : List Atomic) (addr : Nat) (x : Word) : Word :=
  (ops.filter fun o => rowAddr o.addr == rowAddr addr).foldl (fun x o => atomicNew o.op x o.y o.z) x
/-- No row of a frame that takes the operations' old values lies at the address (R318, R319). -/
def Unframed (c : Core) (w : Nat) (rid : Option Nat) (ops : List Atomic) (addr : Nat) : Prop :=
  ∀ v ∈ c.withPartner w, ∀ p ∈ (c.weave v).framed, some p.1 = rid → ∀ o ∈ ops,
    rowAddr addr ≠ rowAddr (p.2.1 + 256 + 32 * p.2.2 + 8 * (1 + o.lane / 64)) ∧
    rowAddr addr ≠ rowAddr (p.2.1 + 1024 + 1024 * p.2.2 + 8 * o.lane)

end Sys2Proof.Claims

/-- R202, R203: where a bundle's atomics apply in a cell, in lane order, each row takes the operations' values of what it held, every
other row is as before, and each old value is that of the row before its operation. No stored bit is flipped (log 41). -/
def Sys2Proof.Claims.SectorAtomicsApply : Prop :=
  ∀ (s : State) (w id cell : Nat) (k : AtomicSet), Memory.wf s.core.mem = true → s.core.flips = [] →
    (s.core.weave w).atomics.find? (fun x => x.id == id) = some k →
    let here := k.ops.filter fun x => x.lane / 16 == cell
    (∀ o ∈ here, Unframed s.core w k.result here o.addr) →
    ∃ t, Machine.exec (.laneAtomicApply w id cell) s = .next t ∧ t.base = s.base ∧
      (∀ addr, Unframed s.core w k.result here addr → t.core.row addr = rowAfter here addr (s.core.row addr)) ∧
      (∀ pre o post, here = pre ++ o :: post → (∀ q ∈ post, q.lane ≠ o.lane) →
        ∀ r ∈ (t.core.weave w).flight, some r.id = k.result →
          r.laneVal o.lane = some (some (rowAfter pre o.addr (s.core.row o.addr))))

/-- Lane stores, at issue and where their skews execute. -/
def Obligations.LaneStoresReachMemory : Prop :=
  LaneStores ∧ LocalStoresReachMemory

/-- Typed accesses and window conversions. -/
def Obligations.TypedAndWindowForms : Prop :=
  TypedLaneAccesses ∧ WindowForms

/-- Atomics of lanes, at issue and at their application. -/
def Obligations.SectorAtomics : Prop :=
  SectorAtomicsEnter ∧ SectorAtomicsApply
/-! # Twill, lane to scalar, Gauze -/

/-- R204 to R206: shifts between cells and lanes, permutation and broadcast of a cell. -/
def Sys2Proof.Claims.TwillForms : Prop :=
  ∀ (s : State) (d a b : Reg) (k : KReg) (n : BitVec 4) (cell : BitVec 3) (neg : Bool) (edge : TwEdge),
    let A (c p : Nat) := s.vreg a (16 * c + p)
    let shift (l : Nat) : Word :=
      let c := l / 16
      let p := l % 16
      if neg then (if c < 7 then A (c + 1) p else match edge with | .z => 0 | .h => A 7 p | .w => A 0 p)
      else (if 0 < c then A (c - 1) p else match edge with | .z => 0 | .h => A 0 p | .w => A 7 p)
    (∃ t v, Machine.exec (.tws neg edge d a k) s = .next t ∧ LandsV s t d (if edge = .w then 8 else 1) (s.active k) v ∧
      ∀ l, l < 128 → v l = shift l) ∧
    (∃ t, Machine.exec (.twsl d a n k) s = .next t ∧ LandsV s t d 1 (s.active k) fun l => A (l / 16) ((l % 16 + n.toNat) % 16)) ∧
    (∃ t, Machine.exec (.lperm d a b k) s = .next t ∧ LandsV s t d 2 (s.active k) fun l => A (l / 16) ((s.vreg b l).toNat % 16)) ∧
    (∃ t, Machine.exec (.twb d a cell k) s = .next t ∧ LandsV s t d 8 (s.active k) fun l => A cell.toNat (l % 16))

namespace Sys2Proof.Claims
open Sys2Proof.Machine

/-- One step of a reduction on 64-bit values (R208), the floating forms under RNE with subnormals honoured. -/
def step2 (op : RedOp) (x y : Word) : Word :=
  match op with
  | .add => x + y
  | .max => if x.toInt < y.toInt then y else x
  | .min => if y.toInt < x.toInt then y else x
  | .or => x ||| y
  | op => redStep op x y
/-- The balanced tree of R210 over 2^n values from the i-th on: each level combines neighbours, the lower one first. -/
def tree (op : RedOp) (f : Nat → Word) : Nat → Nat → Word
  | 0, i => f i
  | n + 1, i => step2 op (tree op f n (2 * i)) (tree op f n (2 * i + 1))

end Sys2Proof.Claims

/-- R207 to R210: reductions along the weave, the extract of one lane, and the reduction over all lanes, where a lane whose
predicate is 0 gives the identity. -/
def Sys2Proof.Claims.ReductionForms : Prop :=
  ∀ (s : State) (op : RedOp) (d a b : Reg) (k : KReg),
    let along (p : Nat) := (List.range 7).foldl (fun x c => step2 op x (s.vreg a (16 * (c + 1) + p))) (s.vreg a p)
    let identity : Word := match op with
      | .add | .or => 0
      | .max => BitVec.ofNat 64 (2 ^ 63)
      | .min => BitVec.ofNat 64 (2 ^ 63 - 1)
      | .faddd => BitVec.ofNat 64 (2 ^ 63)
      | .fadds => 0x8000000080000000
      | .fmaxs | .fmins => 0x7FC000007FC00000
    (∃ t v, Machine.exec (.twr op d a) s = .next t ∧ LandsV s t d 16 allLanes v ∧ ∀ l, l < 128 → v l = along (l % 16)) ∧
    (∃ t, Machine.exec (.vtos d a b) s = .next t ∧ LandsS s t d 10 (s.vreg a ((s.sreg b).toNat % 128))) ∧
    (∃ t, Machine.exec (.vred op d a k) s = .next t ∧
      LandsS s t d 14 (tree op (fun l => if s.kreg k l then s.vreg a l else identity) 7 0))

/-- R211 to R213: a send enters the network with the active lanes' rows, its links X before Y before the deck crossing, and
sets ATOM; its first hop, or inside a sector its arrival, is due as R213 says. That the send buffer's entry is taken at the issue, and not
only when the message enters it at issue + 8, is the model's reading (log 57). -/
def Sys2Proof.Claims.GauzeSend : Prop :=
  ∀ (s : State) (ch : BitVec 3) (a b : Reg) (k : KReg) (l : Launch) (dst : Nat),
    let v := (s.sreg b).toNat
    let w := s.core.cur
    let path := gauzePath (secOf w) (secOf dst)
    let m : GzMsg := ⟨s.core.nextId, w, dst, l.rankOf w, ch.toNat, (s.active k).map fun n => (n, s.vreg a n), path, none, 0⟩
    s.rd.launchOf w = some l → bitAt v 63 = false → l.named v = some dst → s.wv.gzSend.length < 2 →
    ∃ t, Machine.exec (.gzs ch a b k) s = .next t ∧ t.core.gzNet = s.core.gzNet ++ [m] ∧
      (me t).gzSend = (me s).gzSend ++ [s.core.nextId] ∧ (me t).status = (me s).status ||| 16 ∧
      (if path = [] then ⟨.cycle (s.now + 24), bHost, m.rank * 8 + ch.toNat, .gauzeMessageArrival w s.core.nextId⟩ ∈ t.core.agenda
       else ⟨.cycle (s.now + 8), bHost, m.rank * 8 + ch.toNat, .gauzeHop s.core.nextId⟩ ∈ t.core.agenda) ∧
      SameBut s t (fun x y => { y with gzSend := x.gzSend, status := x.status }) (fun c d => { d with gzNet := c.gzNet })

/-- R211, R214, R215: a receive takes the earliest completed message of its channel that matches, whose rows land at
issue + c + 2 in the active lanes that were sent; a poll gives the number of matches and the channel's full bit. -/
def Sys2Proof.Claims.GauzeReceive : Prop :=
  ∀ (s : State) (ch : BitVec 3) (d b : Reg) (k : KReg),
    let v := (s.sreg b).toNat
    let q := s.wv.gauze.getD ch.toNat []
    let matching := q.filter fun m => bitAt v 63 || m.rank == v
    s.rd.gauzeSource s.core.cur v = true →
    (∃ t, Machine.exec (.gzp ch d b) s = .next t ∧
      LandsS s t d 1 (BitVec.ofNat 64 (matching.length + if q.length = 4 then 256 else 0))) ∧
    ∀ m ∈ matching, (∀ n ∈ matching, m.doneAt < n.doneAt ∨ m.doneAt = n.doneAt ∧ m.rank < n.rank ∨ n = m) →
      ∃ t x, Machine.exec (.gzr ch d b k) s = .next t ∧
        ReadsV s t d 2 ((s.active k).filter fun l => (mget? m.rows l).isSome) x ∧
        (∀ l y, mget? m.rows l = some y → x l = y) ∧ (me t).status = (me s).status ||| 16 ∧
        (∀ n, n ≠ ch.toNat → (me t).gauze.getD n [] = (me s).gauze.getD n []) ∧
        (∀ y ∈ (me t).gauze.getD ch.toNat [], y ∈ (me s).gauze.getD ch.toNat [] ∧ y.id ≠ m.id) ∧
        SameBut s t (fun x y => { y with flight := x.flight, gauze := x.gauze, status := x.status }) (fun _ d => d)

/-- R213: a message that completes at its receiver leaves the network for the end of its channel, which holds at most four;
at a full channel, and behind an earlier message of its source and channel, it waits a cycle. -/
def Sys2Proof.Claims.GauzeArrival : Prop :=
  ∀ (s : State) (w id : Nat) (m : GzMsg), s.core.gzNet.find? (fun x => x.id == id) = some m →
    m.chan < (s.core.weave m.dst).gauze.length →
    let q := (s.core.weave m.dst).gauze.getD m.chan []
    let waits : Prop := 4 ≤ q.length ∨ ∃ x ∈ s.core.gzNet, x.src = m.src ∧ x.dst = m.dst ∧ x.chan = m.chan ∧ x.id < m.id
    ∃ t, Machine.exec (.gauzeMessageArrival w id) s = .next t ∧
      (¬ waits → (t.core.weave m.dst).gauze.getD m.chan [] = q ++ [{ m with doneAt := s.now }] ∧
        t.core.gzNet = s.core.gzNet.filter fun x => x.id != id) ∧
      (waits → t.core.gzNet = s.core.gzNet ∧ t.core.weaves = s.core.weaves ∧
        ⟨.cycle (s.now + 1), bHost, m.rank * 8 + m.chan, .gauzeMessageArrival w id⟩ ∈ t.core.agenda)

/-- Twill moves and reductions. -/
def Obligations.TwillAndReductions : Prop :=
  TwillForms ∧ ReductionForms

/-- Gauze messages: sends, receives, arrivals. -/
def Obligations.GauzeMessages : Prop :=
  GauzeSend ∧ GauzeReceive ∧ GauzeArrival
/-! # Control flow -/

namespace Sys2Proof.Claims
open Sys2Proof.Machine

/-- The bundle under way goes on at `target`, none for the sequential bundle; nothing else changes. -/
def Redirects (s t : State) (target : Option Nat) : Prop :=
  t = { s with core := { s.core with iss := { s.core.iss with target := target.orElse fun _ => s.core.iss.target } } }

end Sys2Proof.Claims

/-- R114: a branch that is taken to a target within 0 to 16,383 redirects the next bundle, one that is not taken changes
nothing; a `call` also lands its link. A taken branch outside the bank raises ILLEGAL. -/
def Obligations.Branches : Prop :=
  ∀ (s : State) (d a : Reg) (o : BitVec 16) (n : BitVec 11),
    let P : Int := s.core.iss.pc
    let x := s.sreg a
    let y := s.sreg d
    let far : Int := P + signedOf 16 o.toNat
    let near : Int := P + signedOf 11 n.toNat
    let link : Word := BitVec.ofNat 64 (s.core.iss.pc + s.core.iss.len)
    let inBank (t : Int) : Prop := 0 ≤ t ∧ t ≤ 16383
    (∀ (i : Instr) (taken : Bool) (target : Int), (i, taken, target) ∈ ([
      (.j o, true, far), (.jr a o, true, ((x + BitVec.ofInt 64 (signedOf 16 o.toNat)).toNat : Int)), (.ret a, true, (x.toNat : Int)),
      (.bz a o, decide (x = 0), far), (.bnz a o, decide (x ≠ 0), far),
      (.beq d a n, decide (y = x), near), (.bne d a n, decide (y ≠ x), near),
      (.blt d a n, decide (y.toInt < x.toInt), near), (.bge d a n, decide (x.toInt ≤ y.toInt), near),
      (.bltu d a n, decide (y.toNat < x.toNat), near), (.bgeu d a n, decide (x.toNat ≤ y.toNat), near)] :
        List (Instr × Bool × Int)) →
      (taken = true → inBank target → ∃ t, Machine.exec i s = .next t ∧ Redirects s t (some target.toNat)) ∧
      (taken = false → Machine.exec i s = .next s) ∧
      (taken = true → ¬ inBank target → Machine.exec i s = .next (s.illegal (BitVec.ofInt 64 target)))) ∧
    (inBank far → ∃ t u, Machine.exec (.call a o) s = .next t ∧ LandsS s u a 1 link ∧ Redirects u t (some far.toNat)) ∧
    (UnderWay s → ¬ inBank far → Machine.exec (.call a o) s = .next (s.illegal (BitVec.ofInt 64 far)))

/-- R115: a loop opens a level over the body from the next bundle to its end; a count of 0 skips the body, with no branch taken; an end before the
start or past the bank raises ILLEGAL, a seventh level LOOPSTACK. -/
def Sys2Proof.Claims.LoopsOpen : Prop :=
  ∀ (s : State) (a : Reg) (o : BitVec 16) (c : BitVec 10) (e : BitVec 11) (i : Instr) (count off : Nat),
    (i, count, off) ∈ ([(.loop a o, (s.sreg a).toNat % 2 ^ 32, o.toNat), (.loopi c e, c.toNat, e.toNat)] : List (Instr × Nat × Nat)) →
    let S := s.core.iss.pc + s.core.iss.len
    let T := s.core.iss.pc + off
    (S ≤ T ∧ T ≤ 16383 → s.wv.loops.length < 6 → 0 < count →
      ∃ t, Machine.exec i s = .next t ∧
        (me t).loops = (me s).loops ++ [⟨BitVec.ofNat 14 S, BitVec.ofNat 14 T, BitVec.ofNat 32 count, 0⟩] ∧
        t.core.iss = s.core.iss ∧ SameBut s t (fun x y => { y with loops := x.loops }) (fun _ d => d)) ∧
    (S ≤ T ∧ T ≤ 16383 → s.wv.loops.length < 6 → count = 0 →
      Machine.exec i s = .next { s with core := { s.core with iss := { s.core.iss with
        skip := some (T + s.rd.bundleLen s.core.cur T) } } }) ∧
    (T < S ∨ 16383 < T → Machine.exec i s = .next (s.illegal 0)) ∧
    (S ≤ T ∧ T ≤ 16383 → 6 ≤ s.wv.loops.length → Machine.exec i s = .next (s.raise 0x17 (BitVec.ofNat 64 s.wv.loops.length) 0))

/-- R116: a bundle at the end of the innermost levels steps them, innermost first: a level with iterations left goes back to
its start, one with none is popped and the next is looked at; a level with another end stops it. -/
def Sys2Proof.Claims.LoopsStep : Prop :=
  (∀ pc, stepLoopStack pc [] = ([], none)) ∧
  ∀ (pc : Nat) (ls : List LoopLevel) (l : LoopLevel),
    (l.stop.toNat ≠ pc → stepLoopStack pc (ls ++ [l]) = (ls ++ [l], none)) ∧
    (l.stop.toNat = pc → 1 < l.remaining.toNat → stepLoopStack pc (ls ++ [l]) =
      (ls ++ [{ l with remaining := l.remaining - 1, index := l.index + 1 }], some l.start.toNat)) ∧
    (l.stop.toNat = pc → l.remaining.toNat ≤ 1 → stepLoopStack pc (ls ++ [l]) = stepLoopStack pc ls)

/-- R117: `lbrk` pops the innermost level and goes on after the bundle at its end when its condition holds; false, it has no
effect; at depth 0 it raises LOOPSTACK. -/
def Sys2Proof.Claims.LoopsBreak : Prop :=
  ∀ (s : State) (cond : LbrkCond) (a : Reg),
    let holds : Prop := match cond with
      | .always => True
      | .nz => s.sreg a ≠ 0
      | .z => s.sreg a = 0
    (¬ holds → Machine.exec (.lbrk cond a) s = .next s) ∧
    (holds → ∀ ls l, s.wv.loops = ls ++ [l] →
      ∃ t, Machine.exec (.lbrk cond a) s = .next t ∧ (me t).loops = (me s).loops.dropLast ∧
        t.core.iss = { s.core.iss with target := some (l.stop.toNat + s.rd.bundleLen s.core.cur l.stop.toNat) } ∧
        SameBut s t (fun x y => { y with loops := x.loops }) (fun c d => { d with iss := c.iss })) ∧
    (holds → s.wv.loops = [] → Machine.exec (.lbrk cond a) s = .next (s.raise 0x17 0 0))

/-- Loops: opening, stepping, breaking. -/
def Obligations.Loops : Prop :=
  LoopsOpen ∧ LoopsStep ∧ LoopsBreak
/-! # Semaphores, phases, barriers -/

namespace Sys2Proof.Claims
open Sys2Proof.Machine

/-- A semaphore of the executing weave's sector, as it stands. -/
def semOf (s : State) (n : BitVec 8) : Sem := s.core.sem (secOf s.core.cur) n.toNat
/-- The sector of the executing weave with its semaphores put back; every other sector, and all else but what `f` puts back
in the weave, is as before. -/
def SameButSem (s t : State) (n : BitVec 8) (f : Weave → Weave → Weave) : Prop :=
  SameBut s t f (fun c d => { d with sectors := c.sectors }) ∧
  (∀ k, k ≠ secOf s.core.cur → t.core.sector k = s.core.sector k) ∧
  (∀ m, m ≠ n.toNat → t.core.sem (secOf s.core.cur) m = s.core.sem (secOf s.core.cur) m) ∧
  { t.core.sector (secOf s.core.cur) with sems := (s.core.sector (secOf s.core.cur)).sems } = s.core.sector (secOf s.core.cur)
/-- The amount that a weave waits for; 1 for an engine (R119, R231). -/
def amountIn : Waiter → Nat
  | .weave _ a _ => a
  | _ => 1

end Sys2Proof.Claims

/-- R119, R120: an `swait` that has been served completes. Before the services of its cycle it is held: it takes its place in the wait
order, or keeps it with the amount that it has now; an amount of 0 takes none. After them one of amount 0 completes, one still to be
served is held, AB raises ENGJOB and OV SEMOVF. An amount above 2^31 − 1 raises SEMOVF. -/
def Sys2Proof.Claims.SemaphoreWaits : Prop :=
  ∀ (s : State) (a : Reg) (n : BitVec 8),
    let amt := s.sreg a
    let x := s.rd.sem s.sec n.toNat
    let mine (y : Waiter) : Bool := match y with
      | .weave v _ _ => v == s.core.cur
      | _ => false
    let held (t : State) : Prop := t.base = none ∧ t.core.iss.held = some 3 ∧ (semOf t n).count = (semOf s n).count
    let tested (t : State) : Prop := ⟨.cycle s.now, bService, s.sec * 256 + n.toNat, .swaitServed s.sec n.toNat⟩ ∈ t.core.agenda
    (s.wv.served.isSome = true → ∃ t, Machine.exec (.swait a n) s = .next t ∧ (me t).served = none ∧
      t.core.iss = { s.core.iss with outside := t.core.iss.outside } ∧
      SameBut s t (fun x y => { y with served := x.served }) (fun c d => { d with iss := c.iss })) ∧
    (s.wv.served = none → amt.toNat ≤ 2 ^ 31 - 1 → s.core.iss.late = false → s.base = some s.core → s.core.iss.fpx = 0 →
      ∃ t, Machine.exec (.swait a n) s = .next t ∧ held t ∧
        (amt ≠ 0 → tested t ∧
          (s.core.weaveWaits s.sec n.toNat s.core.cur = false → .weave s.core.cur amt.toNat s.now ∈ (semOf t n).waiters) ∧
          (s.core.weaveWaits s.sec n.toNat s.core.cur = true →
            (∀ b since, .weave s.core.cur b since ∈ (semOf s n).waiters → .weave s.core.cur amt.toNat since ∈ (semOf t n).waiters) ∧
            ∀ y ∈ (semOf t n).waiters, mine y = true → amountIn y = amt.toNat)) ∧
        (amt = 0 → (semOf t n).waiters.any mine = false)) ∧
    (s.wv.served = none → amt = 0 → s.core.iss.late = true → x.ab = false → x.ov = false →
      ∃ t, Machine.exec (.swait a n) s = .next t ∧ t.core.sectors = s.core.sectors ∧ t.core.mem = s.core.mem ∧
        (∀ T r, (me t).sval T r = (me s).sval T r) ∧ t.core.iss = { s.core.iss with outside := t.core.iss.outside } ∧
        ((mget? (me t).consumed n.toNat).isSome = true ∨ (me t).consumedOver = true) ∧
        (∀ v, v ≠ s.core.cur → t.core.weave v = s.core.weave v) ∧
        { me t with views := (me s).views, consumed := (me s).consumed, consumedOver := (me s).consumedOver, status := (me s).status } =
          me s) ∧
    (s.wv.served = none → amt ≠ 0 → amt.toNat ≤ 2 ^ 31 - 1 → s.core.iss.late = true → x.ab = false → x.ov = false →
      s.base = some s.core → s.core.iss.fpx = 0 →
      ∃ t, Machine.exec (.swait a n) s = .next t ∧ held t ∧ (semOf t n).waiters = (semOf s n).waiters) ∧
    (s.wv.served = none → 2 ^ 31 - 1 < amt.toNat → Machine.exec (.swait a n) s = .next (s.raise 0x10 (n.setWidth 64) amt)) ∧
    (s.wv.served = none → amt.toNat ≤ 2 ^ 31 - 1 → s.core.iss.late = true → x.ab = true →
      Machine.exec (.swait a n) s = .next (s.raise 0x0F (BitVec.ofNat 64 (3 * 256)) (BitVec.ofNat 64 n.toNat))) ∧
    (s.wv.served = none → amt.toNat ≤ 2 ^ 31 - 1 → s.core.iss.late = true → x.ab = false → x.ov = true →
      Machine.exec (.swait a n) s = .next (s.raise 0x10 (n.setWidth 64) amt))

namespace Sys2Proof.Claims
open Sys2Proof.Machine

/-- How many waiters, from the first on, a count covers, and what is left of it (R119). -/
def servedBy : Nat → List Waiter → Nat × Nat
  | count, [] => (0, count)
  | count, x :: xs => if amountIn x ≤ count then ((servedBy (count - amountIn x) xs).1 + 1, (servedBy (count - amountIn x) xs).2) else (0, count)
/-- A waiter that is the weave w. -/
def isWeave (w : Nat) : Waiter → Bool
  | .weave v _ _ => v == w
  | _ => false

end Sys2Proof.Claims

/-- R119, R120: in wait order, each waiter whose amount COUNT covers is served and its amount subtracted, up to the first that it does
not cover; a weave that is served has its bundle tested again in this cycle. With AB or OV set no weave is served: each is tested again. -/
def Sys2Proof.Claims.SemaphoreService : Prop :=
  ∀ (s : State) (sec n : Nat),
    let x := s.core.sem sec n
    ∃ t, Machine.exec (.swaitServed sec n) s = .next t ∧ t.base = s.base ∧
      (x.ab = false → x.ov = false →
        (t.core.sem sec n).count = (servedBy x.count x.waiters).2 ∧
        (t.core.sem sec n).waiters = x.waiters.drop (servedBy x.count x.waiters).1 ∧
        ∀ w amount since, .weave w amount since ∈ x.waiters.take (servedBy x.count x.waiters).1 →
          (x.waiters.filter (isWeave w)).length = 1 →
          ((t.core.weave w).served.map fun y => (y.sem, y.amount)) = some (n, amount) ∧
          ⟨.cycle s.now, bLate, w, .lateIssue w⟩ ∈ t.core.agenda) ∧
      (x.ab = true ∨ x.ov = true → ∀ w, x.waiters.any (isWeave w) = true →
        (t.core.sem sec n).waiters.any (isWeave w) = false ∧ ⟨.cycle s.now, bLate, w, .lateIssue w⟩ ∈ t.core.agenda)

/-- R121, R122, R124: `ssig` adds and fires the arms, `sinit` sets and clears, `snote` arms; the first two set ATOM. A sum or
value above 2^31 − 1 raises SEMOVF. -/
def Sys2Proof.Claims.SemaphoreUpdates : Prop :=
  ∀ (s : State) (a : Reg) (n : BitVec 8),
    let v := s.sreg a
    let st (s t : State) : Prop := (me t).status = (me s).status ||| 16
    ((s.rd.sem s.sec n.toNat).count + v.toNat ≤ 2 ^ 31 - 1 → ∃ t, Machine.exec (.ssig a n) s = .next t ∧ st s t ∧
      (semOf t n).count = (semOf s n).count + v.toNat ∧ (v ≠ 0 → (semOf t n).arms = []) ∧
      (v ≠ 0 → ∀ w ∈ (semOf s n).arms, (mget? (t.core.weave w).events n.toNat).isSome = true) ∧
      (∀ m, m ≠ n.toNat → t.core.sem s.sec m = s.core.sem s.sec m) ∧ t.core.mem = s.core.mem) ∧
    (2 ^ 31 - 1 < (s.rd.sem s.sec n.toNat).count + v.toNat →
      Machine.exec (.ssig a n) s = .next (s.raise 0x10 (n.setWidth 64) v)) ∧
    (v.toNat ≤ 2 ^ 31 - 1 → ∃ t, Machine.exec (.sinit a n) s = .next t ∧ st s t ∧
      (semOf t n).count = v.toNat ∧ (semOf t n).ab = false ∧ (semOf t n).ov = false ∧ (semOf t n).arms = [] ∧
      SameButSem s t n (fun x y => { y with status := x.status })) ∧
    (2 ^ 31 - 1 < v.toNat → Machine.exec (.sinit a n) s = .next (s.raise 0x10 (n.setWidth 64) v)) ∧
    (∃ t, Machine.exec (.snote n) s = .next t ∧ s.core.cur ∈ (semOf t n).arms ∧ (semOf t n).count = (semOf s n).count ∧
      SameButSem s t n (fun _ y => y))

/-- R118, R123: `sread` lands COUNT, ARM of the reading weave, OV and AB in their places at issue + 1, and is sampled again
after the operations of its cycle. -/
def Sys2Proof.Claims.SemaphoreRead : Prop :=
  ∀ (s : State) (d : Reg) (n : BitVec 8),
    let x := s.rd.sem s.sec n.toNat
    let bit (b : Bool) (p : Nat) : Nat := if b then 2 ^ p else 0
    ∃ t, Machine.exec (.sread d n) s = .next t ∧
      LandsS s t d 1 (BitVec.ofNat 64 (x.count + bit (x.arms.contains s.core.cur) 61 + bit x.ov 62 + bit x.ab 63)) ∧
      (d ≠ 0 → ⟨.cycle s.now, bSample, s.core.cur, .sample s.core.cur n.toNat s.core.nextId⟩ ∈ t.core.agenda)

/-- R124, R125: a signal of an engine, the fabric or a doorbell adds to COUNT; past 2^31 − 1 COUNT stays there and OV is set; the
arms fire where COUNT increases, and an amount of 0 does nothing. -/
def Sys2Proof.Claims.SemaphoreSignals : Prop :=
  ∀ (c : Core) (sec n amount : Nat),
    let x := c.sem sec n
    let y := (c.signalSem sec n amount).sem sec n
    (amount = 0 → c.signalSem sec n amount = c) ∧
    (0 < amount → y.count = min (x.count + amount) (2 ^ 31 - 1) ∧ y.ov = (x.ov || decide (2 ^ 31 - 1 < x.count + amount)) ∧
      y.ab = x.ab ∧ y.arms = (if x.count < 2 ^ 31 - 1 then [] else x.arms) ∧ y.waiters = x.waiters)

/-- R25, R126, R128: `phase` and `realign` complete with what their bundle reaches. In a user event both raise ILLEGAL; a mask bit of a
region that the launch does not declare is a WINDOW error; a late `realign` raises TIMING, but in a stretched tick goes to the next one. -/
def Sys2Proof.Claims.PhaseAndRealign : Prop :=
  ∀ (s : State) (scope : BitVec 3) (mask n : BitVec 16) (safe : Bool),
    let reaches (r : Reaches) : State := { s with core := { s.core with iss := { s.core.iss with reaches := r } } }
    let tick := s.now / Config.tickCycles
    let texp := s.wv.texp + n.toNat
    (s.wv.inue = false → undeclared (s.rd.regions s.core.cur) mask.toNat = false →
      ∃ t, Machine.exec (.phase scope mask) s = .next t ∧ t = reaches (.phase scope.toNat mask.toNat)) ∧
    (s.wv.inue = false → undeclared (s.rd.regions s.core.cur) mask.toNat = true →
      Machine.exec (.phase scope mask) s = .next (s.raiseFatal 0x07 (BitVec.ofNat 64 0xFF) 0)) ∧
    (s.wv.inue = true → Machine.exec (.phase scope mask) s = .next (s.illegal 0) ∧
      Machine.exec (.realign safe n) s = .next (s.illegal 0)) ∧
    (s.wv.inue = false → s.wv.timed = false →
      ∃ t, Machine.exec (.realign safe n) s = .next t ∧ t = reaches (.realign (tick + 1) s.wv.texp safe)) ∧
    (s.wv.inue = false → s.wv.timed = true → s.now < texp * Config.tickCycles →
      ∃ t, Machine.exec (.realign safe n) s = .next t ∧ t = reaches (.realign texp texp safe)) ∧
    (s.wv.inue = false → s.wv.timed = true → texp * Config.tickCycles ≤ s.now → s.core.power.stretched = some tick →
      ∃ t, Machine.exec (.realign safe n) s = .next t ∧ t = reaches (.realign (tick + 1) texp safe)) ∧
    (s.wv.inue = false → s.wv.timed = true → texp * Config.tickCycles ≤ s.now → s.core.power.stretched ≠ some tick →
      Machine.exec (.realign safe n) s = .next (s.timing 8))

/-- R23, R26, R126 to R128: what a committed bundle reaches. A phase at weave scope passes its boundary in this cycle; at a wider
scope its weave waits with its mask and has arrived, and the last participant's arrival makes the completion due C cycles on. A realign
holds the next bundle until its tick begins. -/
def Sys2Proof.Claims.BoundariesReached : Prop :=
  ∀ (c : Core) (w scope mask tick texp : Nat) (safe : Bool),
    let x := c.weave w
    c.reach! w (.phase 0 mask) = c.sched c.now bPublish w (.weaveBoundary w mask) ∧
    (scope ≠ 0 → ∀ n l, x.launch = some n → c.launch? n = some l →
      let d := c.reach! w (.phase scope mask)
      let here (b : Boundary) : Bool := b.bar.isNone && b.scope == scope && b.unit == unitOf scope w
      let waiting := insertNat (((l.bounds.find? here).map (·.waiting)).getD []) w
      d.weave w = { x with wait := .boundary false scope mask none } ∧
      ((d.launch? n).bind fun l => l.bounds.find? here) = some ⟨none, scope, unitOf scope w, waiting⟩ ∧
      ((∀ v ∈ l.participants scope (unitOf scope w), v ∈ waiting) →
        ⟨.cycle (c.now + Config.boundaryCycles scope), bPublish, n, .collectiveBoundaryCompletion n scope (unitOf scope w)⟩ ∈ d.agenda) ∧
      ((∃ v ∈ l.participants scope (unitOf scope w), v ∉ waiting) → d.agenda = c.agenda)) ∧
    (c.reach! w (.realign tick texp safe)).weave w = { x with
      texp := if x.timed then texp else x.texp, fixedAt := some (tick * Config.tickCycles), realignTo := some tick
      clockSafe := if safe then some tick else x.clockSafe }

/-- R27: the steps of a boundary after its publication: regions of the mask exchange places, pending bank exchange and
divisors take effect, the checkpoint is captured at the PC and loop stack that follow, with ATOM and CONTAINED clear, and
PHASENO increases by 1. -/
def Sys2Proof.Claims.BoundarySteps : Prop :=
  ∀ (c : Core) (w mask pc : Nat) (loops : List LoopLevel),
    let x := c.weave w
    let y := (c.boundaryTail w mask pc loops).weave w
    y.phaseno = x.phaseno + 1 ∧ bitAt y.status.toNat 3 = false ∧ bitAt y.status.toNat 4 = false ∧
    y.bank = (if x.pendBswap then !x.bank else x.bank) ∧ y.pendBswap = false ∧ y.pendDiv = [none, none, none] ∧
    y.pendHinv = [] ∧ y.consumed = [] ∧ y.consumedOver = false ∧ y.preempted = false ∧
    (∀ i, i < 16 → i < x.place.length → y.place[i]? = (x.place[i]?).map fun b => b != bitAt mask i) ∧
    ∃ k, y.ckpt = some k ∧ k.pc = pc ∧ k.loops = loops ∧ k.s = x.s ∧ k.cycle = c.now ∧ k.fcsr = x.fcsr ∧
      k.place = y.place ∧ bitAt k.status.toNat 3 = false ∧ bitAt k.status.toNat 4 = false ∧
      ∀ r l, bitAt x.chkmask.toNat (vKey r l / 128) = true → mget? k.v (vKey r l) = mget? x.v (vKey r l)

namespace Sys2Proof.Claims
open Sys2Proof.Machine

/-- The instance of a barrier that a weave's launch has, after a step. -/
def instOf (t : State) (n bar w : Nat) : BarInst := ((t.core.launch? n).map fun l => l.inst bar w).getD BarInst.reset

end Sys2Proof.Claims

/-- R129 to R132: arrivals count, the last completes the instance, which starts anew; `barv` gives the ordinal and sets ATOM;
`bdrop` lowers E; `binit` sets scope and E. Each raises BARRIER_OVER where its entry says. -/
def Obligations.Barriers : Prop :=
  ∀ (s : State) (d a : Reg) (bar : BitVec 6) (scope : BitVec 3) (n : Nat) (l : Launch),
    let w := s.core.cur
    let x := l.inst bar.toNat w
    let sc := (l.bar bar.toNat).scope
    let turned (y : BarInst) : State := s.raise 0x11 (bar.setWidth 64) (BitVec.ofNat 64 (y.e % 2 ^ 32 + y.a * 2 ^ 32))
    let bad : Prop := x.e = 0 ∨ x.dropped.contains w = true ∨ x.arrived.contains w = true
    let new := mget (l.bar bar.toNat).insts (barKey scope.toNat (unitOf scope.toNat w)) BarInst.reset
    let e := (s.sreg a).toNat
    let size := (l.participants scope.toNat (unitOf scope.toNat w)).length
    let completes (t : State) (y : BarInst) : Prop :=
      instOf t n bar.toNat w = { y with a := 0, arrived := [], viaBarr := [], gen := !x.gen } ∧
      ⟨.cycle (s.now + if l.redun then max 2 (Config.boundaryCycles sc) else Config.boundaryCycles sc), bPublish, n,
        .barrierCompletion n bar.toNat sc (unitOf sc w)⟩ ∈ t.core.agenda
    let same (t : State) (f : Weave → Weave → Weave) : Prop := SameBut s t f (fun c d => { d with launches := c.launches, iss := c.iss })
    s.wv.launch = some n → s.rd.launchOf w = some l → s.core.launch? n = some l →
    (s.wv.inue = false → ¬ bad → ∃ t, Machine.exec (.barr bar) s = .next t ∧ same t (fun _ y => y) ∧
      t.core.iss = { s.core.iss with reaches := .barr sc } ∧
      (x.a + 1 ≠ x.e → instOf t n bar.toNat w = { x with
        a := x.a + 1, arrived := insertNat x.arrived w, viaBarr := insertNat x.viaBarr w }) ∧
      (x.a + 1 = x.e → completes t x)) ∧
    (¬ bad → ∃ t, Machine.exec (.barv d bar) s = .next t ∧ (me t).status = (me s).status ||| 16 ∧
      same t (fun x y => { y with status := x.status, flight := x.flight }) ∧
      (d ≠ 0 → Settled s .s d 0 0 (s.now + 1) → ∀ T, s.now + 1 ≤ T → (me t).sval T d = BitVec.ofNat 64 (x.a + 1)) ∧
      (x.a + 1 ≠ x.e → instOf t n bar.toNat w = { x with a := x.a + 1, arrived := insertNat x.arrived w }) ∧
      (x.a + 1 = x.e → completes t x)) ∧
    (¬ bad → ∃ t, Machine.exec (.bdrop bar) s = .next t ∧ (me t).status = (me s).status ||| 16 ∧
      same t (fun x y => { y with status := x.status }) ∧
      (x.a ≠ x.e - 1 ∨ x.e = 1 → instOf t n bar.toNat w = { x with e := x.e - 1, dropped := insertNat x.dropped w }) ∧
      (x.a = x.e - 1 → x.e ≠ 1 → completes t { x with e := x.e - 1, dropped := insertNat x.dropped w })) ∧
    (new.a = 0 → 0 < e → e ≤ size → ∃ t, Machine.exec (.binit scope a bar) s = .next t ∧
      same t (fun x y => { y with status := x.status }) ∧
      (me t).status = (me s).status ||| 16 ∧ ((t.core.launch? n).map fun l => (l.bar bar.toNat).scope) = some scope.toNat ∧
      instOf t n bar.toNat w = { new with e := e, a := 0, arrived := [], viaBarr := [], dropped := [] }) ∧
    (bad → s.wv.inue = false → Machine.exec (.barr bar) s = .next (turned x)) ∧
    (s.wv.inue = true → Machine.exec (.barr bar) s = .next (s.illegal 0)) ∧
    (bad → Machine.exec (.barv d bar) s = .next (turned x)) ∧
    (bad → Machine.exec (.bdrop bar) s = .next (turned x)) ∧
    (new.a ≠ 0 ∨ e = 0 ∨ size < e → Machine.exec (.binit scope a bar) s = .next (turned new))

namespace Sys2Proof.Claims
open Sys2Proof.Machine

/-- A boundary of some weaves has completed: it is awaited no more, each weave that waited for it has passed a boundary, in its buffer
nothing is left to publish, and its wait has ended now. -/
def Passed (s t : State) (n : Nat) (l : Launch) (b : Boundary) : Prop :=
  ((t.core.launch? n).map (·.bounds)) = some (l.bounds.erase b) ∧
  ∀ w ∈ b.waiting, (t.core.weave w).phaseno = (s.core.weave w).phaseno + 1 ∧ (t.core.weave w).buf = [] ∧
    ∀ via m, (s.core.weave w).wait = .boundary via b.scope m none → (t.core.weave w).wait = .boundary via b.scope m (some s.now)
end Sys2Proof.Claims

/-- R127, R131: COLLECTIVE_BOUNDARY_COMPLETION and BARRIER_COMPLETION complete in every state: a boundary that is not awaited changes
nothing; where the phase buffers hold, every weave that waited passes the boundary; where one fails its parity, its phase is cancelled
and the boundary is still awaited, which is log 29's reading of R376. -/
def Sys2Proof.Claims.BoundaryCompletion : Prop :=
  ∀ (s : State) (n scope unit : Nat) (i : Instr) (bar : Option Nat),
    (i = .collectiveBoundaryCompletion n scope unit ∧ bar = none ∨ ∃ k, i = .barrierCompletion n k scope unit ∧ bar = some k) →
    ∃ t, Machine.exec i s = .next t ∧ t.base = s.base ∧
      let mine (b : Boundary) : Bool := b.bar == bar && b.scope == scope && b.unit == unit
      ((s.core.launch? n).bind (fun l => l.bounds.find? mine) = none → t = s) ∧
      ∀ l b, s.core.launch? n = some l → l.bounds.find? mine = some b →
        ((∀ w ∈ b.waiting, (s.core.weave w).bufBad = []) → (∀ v, (s.core.weave v).gbuf = []) → Passed s t n l b) ∧
        ((∃ w ∈ b.waiting, (s.core.weave w).bufBad ≠ []) → t.core.launches = s.core.launches ∧ t.core.mem = s.core.mem ∧
          ∀ w ∈ b.waiting, (s.core.weave w).bufBad ≠ [] →
            ⟨.cycle s.now, bLand, w, .cancelAt w 5 (unitCode ⟨0, secOf w, w % 4⟩) 0 false⟩ ∈ t.core.agenda)

/-- Semaphore waits and their service. -/
def Obligations.SemaphoreWaitsAndService : Prop :=
  SemaphoreWaits ∧ SemaphoreService

/-- Semaphore updates, reads and signals. -/
def Obligations.SemaphoreCounts : Prop :=
  SemaphoreUpdates ∧ SemaphoreRead ∧ SemaphoreSignals

/-- Phases, realigns and boundaries. -/
def Obligations.PhasesAndBoundaries : Prop :=
  PhaseAndRealign ∧ BoundariesReached ∧ BoundarySteps ∧ BoundaryCompletion

/-! # CSRs, lead syllables, handles, sequencer memory, small instructions -/

namespace Sys2Proof.Claims
open Sys2Proof.Machine

/-- The CSRs whose every field is SYS (R40): TVEC, TCAUSE, TFRAME, EPC, ERRINJ. -/
def systemCsr (n : BitVec 12) : Prop := n = 0x006 ∨ n = 0x007 ∨ n = 0x008 ∨ n = 0x009 ∨ n = 0x020
/-- Bits of a word at positions lo to hi. -/
def span (hi lo : Nat) : Word := BitVec.ofNat 64 ((2 ^ (hi + 1 - lo) - 1) * 2 ^ lo)
/-- The bits of a CSR that are written at user level, and those that only system level changes (R40 to R44, R253, R294,
R398). -/
def writable (n : BitVec 12) : Word × Word :=
  if n = 0x000 then (0, span 15 12 ||| span 1 1)
  else if n = 0x001 then (span 1 1, span 6 5)
  else if n = 0x002 then (span 63 32 ||| span 13 0, 0)
  else if n = 0x003 then (span 14 0, 0)
  else if n = 0x004 ∨ n = 0x00F then (span 63 0, 0)
  else if n = 0x006 ∨ n = 0x009 ∨ n = 0x00B then (0, span 63 0)
  else if n = 0x007 then (0, span 31 0)
  else if n = 0x00E then (span 31 0, 0)
  else if n = 0x012 then (0, span 63 63 ||| span 31 0)
  else if n = 0x014 ∨ n = 0x015 ∨ n = 0x016 then (0, span 39 16)
  else if n = 0x020 then (0, span 63 63 ||| span 59 54 ||| span 47 0)
  else (0, 0)
/-- The eight lowest set bits of a mask of 32 (R28). -/
def keepEight (x : Word) : Word :=
  BitVec.ofNat 64 (((List.range 32).filter fun i => x.getLsbD i && decide (((List.range i).filter fun j => x.getLsbD j).length < 8)).foldl
    (fun acc i => acc + 2 ^ i) 0)
/-- What the CSR holds after a write of `x` to its writable bits, `old` before it; ATOM stays as the bundle has it (R28, R42, R43,
R188, R398). -/
def csrAfter (s : State) (n : BitVec 12) (old x : Word) : Word :=
  if n = 0x001 then (x &&& ~~~ span 4 4) ||| ((me s).status &&& span 4 4)
  else if n = 0x002 then
    (if 5 ≤ x.toNat % 8 then (x &&& ~~~ span 2 0) ||| (old &&& span 2 0) else x) ||| BitVec.ofNat 64 (s.core.iss.flags * 16)
  else if n = 0x00E then keepEight x
  else if n = 0x020 ∧ (9 ≤ x.toNat / 2 ^ 56 % 16 ∨ 2 ≤ x.toNat / 2 ^ 54 % 4) then old
  else x
/-- The CSR fields of a weave, its generators and its ports put back. -/
def sameCsrs (x y : Weave) : Weave := { y with
  mode := x.mode, status := x.status, fcsr := x.fcsr, fmtsel := x.fmtsel, uevec := x.uevec, tvec := x.tvec, tcause := x.tcause
  epc := x.epc, slipctr := x.slipctr, chkmask := x.chkmask, ueframe := x.ueframe, mxrp := x.mxrp, locbase := x.locbase
  secbase := x.secbase, pairbase := x.pairbase, errinj := x.errinj, srd := x.srd, ports := x.ports }

end Sys2Proof.Claims

/-- R40, R147, R148: reads and writes of CSRs. A write changes the writable bits of its own CSR alone (of LEASESTAT, EV and
TW of the leasable ports, bit by bit; of FCSR with SEED, the generators); what user level may not do raises PRIV. -/
def Obligations.CsrReadsAndWrites : Prop :=
  ∀ (s : State) (d a : Reg) (n : BitVec 12),
    let y := s.sreg a
    let old := s.rd.csr s.core.cur n.toNat
    let barred := s.wv.priv = false ∧ systemCsr n
    (barred → Machine.exec (.csrr d n) s = .next (s.privTrap 0)) ∧
    (¬ barred → ∃ t, Machine.exec (.csrr d n) s = .next t ∧ LandsS s t d 1 old) ∧
    ∀ (i : Instr) (new : Word) (seed : Bool) (clears : Word), (i, new, seed, clears) ∈ ([
      (.csrw n a, y, true, y), (.csrs n a, old ||| y, decide (2 ^ 32 ≤ y.toNat), y),
      (.csrc n a, old &&& ~~~y, decide (2 ^ 32 ≤ y.toNat), 0)] : List (Instr × Word × Bool × Word)) →
      let denied := barred ∨ (s.wv.priv = false ∧ (old ^^^ new) &&& (writable n).2 ≠ 0)
      (denied → Machine.exec i s = .next (s.privTrap 0)) ∧
      (¬ denied → ∃ t, Machine.exec i s = .next t ∧ SameBut s t sameCsrs (fun _ d => d) ∧
        (let m := (writable n).1 ||| (writable n).2
         m ≠ 0 → t.core.csr s.core.cur n.toNat = csrAfter s n old ((old &&& ~~~m) ||| (new &&& m))) ∧
        (∀ m : BitVec 12, m ≠ n → (n = 0x015 → m ≠ 0x008) →
          t.core.csr s.core.cur m.toNat = s.core.csr s.core.cur m.toNat) ∧
        (s.core.iss.flags < 32 → (me t).srd = if n = 0x002 ∧ seed = true then (List.range 128).map fun l => (l, srdSeed ((me t).fcsr.toNat / 2 ^ 32) l)
          else (me s).srd) ∧
        (n ≠ 0x010 → (me t).ports = (me s).ports) ∧
        (n = 0x010 → ∀ p q, p < 4 → (me s).ports[p]? = some q → (me t).ports[p]? = some (if p = 3 then q else
          { q with ev := q.ev && !clears.getLsbD (16 * p + 5), tw := q.tw && !clears.getLsbD (16 * p + 3) })))

/-- R85 to R90: a lead syllable tells the rest of its bundle, or its issue, what it carries, and does nothing else. -/
def Sys2Proof.Claims.LeadSyllables : Prop :=
  ∀ (s : State) (mark : Bool) (g mask : BitVec 8) (n : BitVec 12) (e : BitVec 20) (v : BitVec 16) (l : BitVec 24),
    let tells (f : Iss → Iss) : State := { s with core := { s.core with iss := f s.core.iss } }
    ∀ i t, (i, t) ∈ ([
      (.gap mark g, tells fun i => { i with gap := some g.toNat, mark := mark }),
      (.rep mask n, tells fun i => { i with rep := some (mask, n), repSlot := i.slot, repWord := i.word }),
      (.seg e, tells fun i => { i with seg := some e.toNat }), (.sigl v, tells fun i => { i with sigl := some v.toNat }),
      (.sigh v, tells fun i => { i with sigh := some v.toNat }), (.lit l, tells fun i => { i with lit := some l })] :
        List (Instr × State)) →
    Machine.exec i s = .next t

namespace Sys2Proof.Claims
open Sys2Proof.Machine

/-- The size of the page that an `hinv` names. -/
def invalidated (s : State) (a : Reg) : Nat :=
  match s.core.walkPage (s.core.ctxOf s.core.cur) (s.sreg a).toNat false false with
  | .page p _ => p.size
  | .fail _ _ => 65536

end Sys2Proof.Claims

/-- R146, R152 to R157, R345: predicate summaries and the small system instructions. That `hinv` names the page that the tables map, of
64 KiB where they map none, is the model's reading (log 47), and so is that `wfe` goes on at a throttle notification (log 28). -/
def Sys2Proof.Claims.SmallInstructions : Prop :=
  ∀ (s : State) (d a : Reg) (k : KReg) (unit div1 n : BitVec 3) (idx : BitVec 6),
    let w := s.core.cur
    let r := s.core.refreshOf w
    (∃ t, Machine.exec (.vany d k) s = .next t ∧ LandsS s t d 9 (if (List.range 128).any (s.kreg k) then 1 else 0)) ∧
    (∃ t, Machine.exec (.vall d k) s = .next t ∧ LandsS s t d 9 (if (List.range 128).all (s.kreg k) then 1 else 0)) ∧
    (∃ t, Machine.exec (.clkdiv unit div1) s = .next t ∧ SameBut s t (fun x y => { y with pendDiv := x.pendDiv }) (fun _ d => d) ∧
      ∀ i, i < 3 → i < (me s).pendDiv.length → (me t).pendDiv[i]? =
        if unit = 3 ∨ unit.toNat = i then some (some (div1.toNat + 1)) else (me s).pendDiv[i]?) ∧
    (∃ t, Machine.exec (.fmtw idx a) s = .next t ∧ SameBut s t (fun x y => { y with fmt := x.fmt }) (fun _ d => d) ∧
      (me t).fmt = (me s).fmt.set idx.toNat ((s.sreg a).setWidth 32)) ∧
    (s.wv.priv = false → Machine.exec (.hinv a) s = .next (s.privTrap 0)) ∧
    (s.wv.priv = true → ∃ t, Machine.exec (.hinv a) s = .next t ∧ t.core.mem = s.core.mem ∧
      (∀ v, ({ t.core.weave v with pendHinv := (s.core.weave v).pendHinv } : Weave) = s.core.weave v) ∧
      ∀ p ∈ s.core.launches, p.2.ctx = s.core.ctxOf w → ∀ v ∈ p.2.weaves, ((s.sreg a).toNat, invalidated s a, w) ∈ (t.core.weave v).pendHinv) ∧
    (∃ t, Machine.exec .bswap s = .next t ∧ t.core.mem = s.core.mem ∧ me t = { me s with pendBswap := true } ∧
      ∀ v, v ≠ w → t.core.weave v = s.core.weave v) ∧
    Machine.exec .nop s = .next s ∧
    (s.wv.timed = true → Machine.exec .wfe s = .next (s.illegal 0)) ∧
    (s.wv.timed = false → ((∃ p ∈ s.wv.events, p.2 < s.now) ∨ s.wv.throttle.isSome = true ∨ s.wv.preempt = true) →
      Machine.exec .wfe s = .next s) ∧
    (s.wv.timed = false → (∀ p ∈ s.wv.events, s.now ≤ p.2) → s.wv.throttle = none → s.wv.preempt = false →
      Machine.exec .wfe s = .next { core := { s.rd with iss := { s.core.iss with held := some 0 } }, base := none }) ∧
    (∃ t, Machine.exec (.refdefer n) s = .next t ∧ t.core.weaves = s.core.weaves ∧ t.core.mem = s.core.mem ∧
      t.core.refreshOf w = { r with
        defer_ := r.defer_ + min n.toNat (r.last + s.core.refreshSpan - (designatedAfter w r.last + r.defer_)) } ∧
      ∀ v, v ≠ w → t.core.refreshOf v = s.core.refreshOf v)

namespace Sys2Proof.Claims
open Sys2Proof.Machine

/-- A handle of the executing weave. -/
def handleOf (s : State) (h : HReg) : Handle := (me s).handles.getD h.toNat Handle.reset
/-- Every byte of the range lies in cached pages of the handle that permit the access, within the address space (R137). -/
def cached (h : Handle) (base len : Word) (r w : Bool) : Prop :=
  h.valid = true ∧ len ≠ 0 ∧ (r = true → h.r = true) ∧ (w = true → h.w = true) ∧ base.toNat + len.toNat ≤ 2 ^ 56 ∧
  pagesCover (h.pages.filter (·.permits r w)) (base.toNat + len.toNat) (h.pages.length + 1) base.toNat = true

end Sys2Proof.Claims

/-- R137, R138, R139: probes, their walks, waits for a walk, releases. That a release drops the cached pages with the valid bit is the
model's choice (log 47). -/
def Obligations.Handles : Prop :=
  (∀ (s : State) (perm : Perm) (d : Reg) (h : HReg) (a b : Reg),
    let x := s.wv.handles.getD h.toNat Handle.reset
    let r := decide (perm ≠ .w)
    let w := decide (perm ≠ .r)
    let walking := x.walk.isSome = true ∨ ∃ p ∈ x.pend, p.1 ≠ 0
    ∃ t res, Machine.exec (.probe perm d h a b) s = .next t ∧ ReadsS s t d 64 (BitVec.ofNat 64 res) ∧
      (walking → res = 2) ∧ (¬ walking → cached x (s.sreg a) (s.sreg b) r w → res = 0) ∧
      (¬ walking → ¬ cached x (s.sreg a) (s.sreg b) r w → res = 1) ∧
      (h.toNat < (me s).handles.length →
        (handleOf t h).pend = (handleOf s h).pend ++ [(res, ⟨s.sreg a, s.sreg b, r, w, x.gen + 1⟩)]) ∧
      ⟨.cycle (s.now + 64), bLand, h.toNat, .probeUpdate s.core.cur h.toNat (x.gen + 1)⟩ ∈ t.core.agenda ∧
      SameBut s t (fun x y => { y with flight := x.flight, handles := x.handles }) (fun _ d => d)) ∧
  (∀ (s : State) (w n : Nat) (h : Handle) (wk : Walk), (s.core.weave w).handles[n]? = some h → h.walk = some wk →
    let r := s.core.walkHandle (s.core.ctxOf w) wk.base wk.len wk.r wk.w
    ∃ t, Machine.exec (.probeWalkCompletion w n) s = .next t ∧ t.base = s.base ∧ t.core.mem = r.2.mem ∧
      (∀ ps, r.1 = .ok ps → (t.core.weave w).handles[n]? = ((r.2.weave w).handles[n]?).map fun h =>
        { h with walk := none, valid := true, pages := ps, fail := none }) ∧
      (∀ f, r.1 = .error f → (t.core.weave w).handles[n]? = ((r.2.weave w).handles[n]?).map fun h =>
        { h with walk := none, valid := false, fail := some f })) ∧
  ∀ (s : State) (d : Reg) (h : HReg),
    let x := s.wv.handles.getD h.toNat Handle.reset
    let walking := x.walk.isSome = true ∨ ∃ p ∈ x.pend, p.1 ≠ 0
    let f := x.fail.getD ⟨0, 5, 0⟩
    (¬ walking → x.valid = true → ∃ t, Machine.exec (.probew d h) s = .next t ∧ (me t).walkWaited = none ∧
      ReadsS s t d 1 (BitVec.ofNat 64 (s.now - s.wv.walkWaited.getD s.now)) ∧
      SameBut s t (fun x y => { y with flight := x.flight, walkWaited := x.walkWaited }) (fun _ d => d)) ∧
    (walking → s.core.iss.fpx = 0 → ∃ t, Machine.exec (.probew d h) s = .next t ∧ t.base = none ∧ t.core.iss.held = some 11 ∧ t.core.mem = s.rd.mem) ∧
    (¬ walking → x.valid = false → ∃ t, Machine.exec (.probew d h) s = .next t ∧ t.core.mem =
      (s.raise 0x05 (BitVec.ofNat 64 (h.toNat + f.level * 16 + f.reason * 256)) f.va).core.mem ∧ (me t).walkWaited = none) ∧
    (∃ t, Machine.exec (.hrel h) s = .next t ∧ SameBut s t (fun x y => { y with handles := x.handles }) (fun _ d => d) ∧
      ∀ i, (me t).handles[i]? = ((me s).handles[i]?).map fun y => if i = h.toNat then { y with valid := false, pages := [] } else y)

/-- R140, R141, R303: `ldh` reads and `sth` buffers the row that a valid handle with the permission gives, and `sld` and `sst`
the row of a generic address in the SECTOR or PAIR window; outside, each takes the trap its entry names. -/
def Sys2Proof.Claims.SequencerMemory : Prop :=
  ∀ (s : State) (d a b : Reg) (h : HReg) (off : BitVec 11),
    let x := s.wv.handles.getD h.toNat Handle.reset
    let w := s.core.cur
    let o := s.sreg a
    let va := (x.base.toNat + o.toNat) / 8 * 8
    let inside := x.valid = true ∧ o.toNat < x.len.toNat
    let g : Nat := (o + off.signExtend 64 * 8).toNat
    let declared (offset : Nat) : Prop := offset < 0x3C0000 → s.rd.halfHeld w offset = true
    (s.wv.timed = true → Machine.exec (.ldh d h a) s = .next (s.illegal 0) ∧ Machine.exec (.sth b h a) s = .next (s.illegal 0)) ∧
    (s.wv.timed = false → ¬ (inside ∧ x.r = true) →
      Machine.exec (.ldh d h a) s = .next (s.raiseFatal 0x06 (BitVec.ofNat 64 h.toNat) o)) ∧
    (s.wv.timed = false → ¬ (inside ∧ x.w = true) →
      Machine.exec (.sth b h a) s = .next (s.raiseFatal 0x06 (BitVec.ofNat 64 h.toNat) o)) ∧
    (∀ x' p, UnderWay s → s.wv.timed = false → inside → x.r = true → (s.rd.useHandle w h.toNat va 8).1 = .ok x' →
      findPage x'.pages va = some p →
      let c2 := (s.core.useHandle w h.toNat va 8).2
      (∀ e, gbufFind s.wv.gbuf (p.loc va) = some e →
        ∃ t, Machine.exec (.ldh d h a) s = .next t ∧ t.core.mem = c2.mem ∧
          (d ≠ 0 → Settled { s with core := c2 } .s d 0 0 (c2.now + 1) → ∀ T, c2.now + 1 ≤ T → (me t).sval T d = e.val)) ∧
      (gbufFind s.wv.gbuf (p.loc va) = none → s.wv.ldh = .returned → s.rd.peerReads = [] → s.rd.host.modid = c2.host.modid →
        ∀ bs c3, c2.globalRead (c2.ctxOf w) (p.loc va) va 8 (fun c => c.viewByte w) (some (unitCode ⟨0, secOf w, w % 4⟩)) = (.bytes bs, c3) →
        ∃ t, Machine.exec (.ldh d h a) s = .next t ∧ t.core.mem = c3.mem ∧ (me t).ldh = .none ∧
          (d ≠ 0 → Settled { s with core := c3 } .s d 0 0 (c3.now + 1) → ∀ T, c3.now + 1 ≤ T →
            (me t).sval T d = BitVec.ofNat 64 (bytesNat bs)))) ∧
    (∀ x' p u, UnderWay s → s.wv.timed = false → inside → x.w = true →
      -- the translation is cached, or the walk at use has taken its time (R158)
      ((findPage (x.pages.filter (·.permits x.r x.w)) va).isSome = true ∧ u = s ∨
        findPage (x.pages.filter (·.permits x.r x.w)) va = none ∧ s.wv.ldh = .returned ∧ u = s.modW fun v => { v with ldh := .none }) →
      (s.rd.useHandle w h.toNat va 8).1 = .ok x' → findPage x'.pages va = some p →
      let c2 := (u.core.useHandle w h.toNat va 8).2
      let l := p.loc va
      let e : BufGlobal := ⟨l.tgt, l.addr, l.attr, va, s.sreg b⟩
      (gbufFind s.wv.gbuf l = none → s.wv.gbuf.length < Config.bufferGlobals →
        ∃ t, Machine.exec (.sth b h a) s = .next t ∧ t.core.mem = c2.mem ∧ (me t).gbuf = (c2.weave c2.cur).gbuf ++ [e]) ∧
      (gbufFind s.wv.gbuf l ≠ none → ∃ t, Machine.exec (.sth b h a) s = .next t ∧ t.core.mem = c2.mem ∧
        (me t).gbuf = (c2.weave c2.cur).gbuf.map fun y => if y.tgt = l.tgt ∧ y.addr = l.addr ∧ y.attr = l.attr then e else y)) ∧
    (∀ win offset row, s.rd.generic w g = some (win, offset) → win ≠ .loc → declared offset → s.rd.reach w 0 win offset = .row false row →
      (Quiet s → (s.rd.pairDegraded w = true → storeBase ≤ row → row < towerBase → flagSector row ≠ secOf w →
          ∃ t, s.wv.busWait = some t ∧ t ≤ s.now) →
        ∃ t, Machine.exec (.sld d a off) s = .next t ∧ t.core.mem = s.core.mem ∧
          LandsS s t d (if win = .pair then 12 else 6) (s.rd.loadShared w row)) ∧
      (let buf := bufferRow (me s).buf row (s.sreg d) (BitVec.allOnes 64)
       buf.length ≤ Config.bufferRows → ∃ t, Machine.exec (.sst d a off) s = .next t ∧ (me t).buf = buf ∧
        SameBut s t (fun x y => { y with buf := x.buf, bufBad := x.bufBad }) (fun _ d => d) ∧
        ∀ b, b ∈ (me t).bufBad ↔ b ∈ (me s).bufBad ∧ b ≠ (0, row))) ∧
    (∀ win offset, s.rd.generic w g = some (win, offset) → win ≠ .loc → declared offset → s.rd.reach w 0 win offset = .priv →
      Machine.exec (.sld d a off) s = .next (s.privTrap (BitVec.ofNat 64 g)) ∧
      Machine.exec (.sst d a off) s = .next (s.privTrap (BitVec.ofNat 64 g))) ∧
    ((∀ win offset, s.rd.generic w g = some (win, offset) →
        win = .loc ∨ ¬ declared offset ∨ s.rd.reach w 0 win offset = .window) →
      Machine.exec (.sld d a off) s = .next (s.raiseFatal 0x07 0xFF (BitVec.ofNat 64 g)) ∧
      Machine.exec (.sst d a off) s = .next (s.raiseFatal 0x07 0xFF (BitVec.ofNat 64 g)))

/-- R142, R143: `lpatch` writes a field that the record's mask admits, unless the record is armed and unfetched; `larm` puts an
entry at the tail of the queue that the record names; both set ATOM. A record above 4,095 raises ILLEGAL, a record that cannot be reached
HANDLE, for both. What the record's walks leave stays in each case (R298). That either is held until a peer module has answered is log 62;
that TAIL advances over a ring that cannot be written is log 48. -/
def Sys2Proof.Claims.RecordForms : Prop :=
  ∀ (s : State) (a b : Reg) (field : BitVec 6),
    let w := s.core.cur
    let r := (s.sreg a).toNat
    let f := field.toNat
    let ctx := s.rd.ctxOf w
    let walked (k : Nat) (c : Core) : Core := (c.recordWord ctx r k).2
    let held (k : Nat) : State := { core := walked k { s.rd with iss := { s.core.iss with held := some 12 } }, base := none }
    let handle (k : Nat) : State := s.raiseFatal 0x06 (BitVec.ofNat 64 (2 ^ 63 + r)) (BitVec.ofNat 64 k)
    (4095 < r → Machine.exec (.lpatch a b field) s = .next (s.illegal 0) ∧ Machine.exec (.larm a) s = .next (s.illegal 0)) ∧
    (r ≤ 4095 → s.core.iss.fpx = 0 →
      ((s.rd.recordWord ctx r 29).1 = none → Machine.exec (.lpatch a b field) s = .next (held 29)) ∧
      ((s.core.recordWord ctx r 0).1 = none → Machine.exec (.larm a) s = .next (held 0))) ∧
    (r ≤ 4095 →
      ((s.rd.recordWord ctx r 29).1 = some none → Machine.exec (.lpatch a b field) s = .next ((handle f).modC (walked 29))) ∧
      ((s.core.recordWord ctx r 0).1 = some none → Machine.exec (.larm a) s = .next ((handle 0).modC (walked 0)))) ∧
    (∀ mask, r ≤ 4095 → (s.rd.recordWord ctx r 29).1 = some (some mask) →
      (f = 0 ∨ f = 29 ∨ mask.getLsbD f = false → Machine.exec (.lpatch a b field) s = .next ((s.illegal 0).modC (walked 29))) ∧
      (f ≠ 0 → f ≠ 29 → mask.getLsbD f = true → s.rd.armedRec ctx r = true → s.core.iss.fpx = 0 →
        Machine.exec (.lpatch a b field) s = .next (held 29)) ∧
      (f ≠ 0 → f ≠ 29 → mask.getLsbD f = true → s.rd.armedRec ctx r = false →
        ∀ c2, ((walked 29 s.core).writeWord ctx (s.rd.fieldVa ctx r f) (s.sreg b) = (true, c2) →
          ∃ t, Machine.exec (.lpatch a b field) s = .next t ∧ t.base = s.base ∧ t.core.mem = c2.mem ∧ t.core.queues = c2.queues ∧
            (me t).status = (c2.weave c2.cur).status ||| 16) ∧
          ((walked 29 s.core).writeWord ctx (s.rd.fieldVa ctx r f) (s.sreg b) = (false, c2) →
            Machine.exec (.lpatch a b field) s = .next ((handle f).modC fun c =>
              ((walked 29 c).writeWord ctx (c.fieldVa ctx r f) (s.sreg b)).2)))) ∧
    (r ≤ 4095 → ∀ ctrl c, s.core.recordWord ctx r 0 = (some (some ctrl), c) →
      let n := ctrl.toNat % 128
      let q := c.queue n
      let put (c : Core) (i : Nat) (x : Word) : Core := (c.writeWord q.ctx (q.qbase.toNat + 32 * (q.tail % q.ringSize) + 8 * i) x).2
      let c2 := put (put (put (put c 0 (BitVec.ofNat 64 (1 + 256 + r * 2 ^ 16))) 1 0) 2 0) 3 0
      (q.ringSize ≤ q.fill → s.core.iss.fpx = 0 → Machine.exec (.larm a) s = .next (held 0)) ∧
      (q.fill < q.ringSize → ∃ t, Machine.exec (.larm a) s = .next t ∧ t.base = s.base ∧ t.core.mem = c2.mem ∧
        (me t).status = (c2.weave c2.cur).status ||| 16 ∧
        t.core.queue n = { c2.queue n with
          tail := ((c2.queue n).tail + 1) % 2 ^ 28, armed := (c2.queue n).armed ++ [(r, (c2.queue n).tail)] } ∧
        (∀ m, m ≠ n → t.core.queue m = c2.queue m)))

/-- Lead syllables and the small system instructions. -/
def Obligations.SystemForms : Prop :=
  LeadSyllables ∧ SmallInstructions

/-- Sequencer memory and the record instructions. -/
def Obligations.SequencerMemoryAndRecords : Prop :=
  SequencerMemory ∧ RecordForms

/-! # Traps, events, returns, landings -/

namespace Sys2Proof.Claims
open Sys2Proof.Machine

/-- The weave is no leader of a redundant pair and no wait of its was served in this cycle. -/
def Alone (c : Core) (w : Nat) : Prop := (c.weave w).redun = false ∧ (c.weave w).served = none
/-- The results in flight at T, and that a frame can hold them (R31); no stored bit is flipped (log 41). -/
def InFlight (c : Core) (w : Nat) : List Result := inFlightAt (c.weave w).flight c.now
def Holdable (c : Core) (w : Nat) : Prop :=
  (InFlight c w).length ≤ 16 ∧ (c.weave w).handles.length = 16 ∧ (∀ r ∈ InFlight c w, ∀ p ∈ r.data, p.1 < 128) ∧ c.flips = []
/-- The trap frame in the weave's system region (R46). -/
def trapFrame (w : Nat) : Nat := storeFlat (secOf w) (sysOff w)
/-- The weave has entered a trap (R315, R316): what it saved in registers and in the frame, where it goes on, and what it kept.
The first latch descriptors name the results in flight. Memory outside the frame is as before. -/
def Entered (c t : Core) (w : Nat) (ti : TrapInfo) : Prop :=
  let x := c.weave w
  let y := t.weave w
  let n := (InFlight c w).length
  let f := trapFrame w
  let cause : Word := BitVec.ofNat 64 (ti.cause + ti.slot % 256 * 2 ^ 8 + ti.code * 2 ^ 16)
  y.tcause = cause ∧ y.epc = BitVec.ofNat 64 ti.epc ∧ y.pc = BitVec.ofNat 14 x.tvec.toNat ∧
  y.priv = true ∧ y.uee = false ∧ y.status.getLsbD 5 = x.priv ∧ y.status.getLsbD 6 = x.uee ∧
  (ti.preempt = true → y.atom = true) ∧
  (∀ i, i ≠ 0 → i ≠ 1 → i ≠ 5 → i ≠ 6 → (i = 4 → ti.preempt = false) → y.status.getLsbD i = x.status.getLsbD i) ∧
  y.s = x.s ∧ y.v = x.v ∧ y.k = x.k ∧ y.loops = x.loops ∧ y.fcsr = x.fcsr ∧ y.flight = [] ∧
  t.row f = cause ∧ t.row (f + 8) = y.epc ∧ t.row (f + 16) = x.status ∧
  t.row (f + 24) = BitVec.ofNat 64 (x.loops.length + n * 2 ^ 8 + (if x.bank then 1 else 0) * 2 ^ 16) ∧
  (∀ i l, i < 6 → x.loops[i]? = some l → t.row (f + 32 + 16 * i) = levelRow0 l ∧ t.row (f + 40 + 16 * i) = levelRow1 l) ∧
  t.row (f + 144) = BitVec.ofNat 64 (c.now - x.startCycle) ∧ t.row (f + 152) = ti.info0 ∧ t.row (f + 160) = ti.info1 ∧
  t.row (f + 168) = x.phaseno ∧ t.row (f + 184) = x.sval c.now 1 ∧ t.row (f + 192) = x.sval c.now 2 ∧
  (∀ i r, (InFlight c w)[i]? = some r → t.row (f + 256 + 32 * i) =
    BitVec.ofNat 64 (1 + 2 * fileCode r.file + 16 * r.reg.toNat + 2 ^ 16 * wrap (latchRec c.now r).delay 8)) ∧
  (∀ a, (a < f ∨ f + 17408 ≤ a) → memGet t.mem a = memGet c.mem a) ∧
  (ti.fatal = false → y.fixedAt = some (c.now + 16 + 2 * n) ∧ ⟨.cycle (c.now + 16 + 2 * n), bIssue, w, .issue w⟩ ∈ t.agenda) ∧
  (ti.fatal = true → ⟨.cycle c.now, bAfter, w, .fatalContextError w⟩ ∈ t.agenda)
/-- The weave has entered a user event from a frame at `f` (R33, R316). -/
def EventEntered (c t : Core) (w f : Nat) (cause : Word) : Prop :=
  let x := c.weave w
  let y := t.weave w
  let n := (InFlight c w).length
  y.inue = true ∧ y.uecause = cause ∧ y.pc = BitVec.ofNat 14 x.uevec.toNat ∧
  (∀ i, i ≠ 2 → y.status.getLsbD i = x.status.getLsbD i) ∧
  y.s = x.s.take 24 ++ x.shadow ∧ y.shadow = x.s.drop 24 ∧ y.v = x.v ∧ y.k = x.k ∧ y.loops = x.loops ∧ y.flight = [] ∧
  y.tcause = x.tcause ∧ y.epc = x.epc ∧
  t.row f = cause ∧ t.row (f + 8) = BitVec.ofNat 64 x.pc.toNat ∧ t.row (f + 16) = x.status ∧
  t.row (f + 24) = BitVec.ofNat 64 (x.loops.length + n * 2 ^ 8 + (if x.bank then 1 else 0) * 2 ^ 16) ∧
  t.row (f + 144) = BitVec.ofNat 64 (c.now - x.startCycle) ∧
  (∀ a, (a < f ∨ f + 17408 ≤ a) → memGet t.mem a = memGet c.mem a) ∧
  ⟨.cycle (c.now + 16 + 2 * n), bIssue, w, .issue w⟩ ∈ t.agenda
/-- The weave has returned from a frame at `f`: the bundle at `pc` is fixed at cycle ret, the results of the frame come back
after it, and memory is as it was (R32, R320). -/
def Returned (s t : State) (f pc : Nat) : Prop :=
  let w := s.core.cur
  let n := ((List.range 16).filter fun i => (s.rd.loadShared w (f + 256 + 32 * i)).getLsbD 0).length
  let ret := s.now + 8 + 2 * n
  (me t).pc = BitVec.ofNat 14 pc ∧ (me t).fixedAt = some ret ∧ t.core.iss.done = true ∧
  ⟨.cycle ret, bIssue, w, .issue w⟩ ∈ t.core.agenda ∧
  (∀ r ∈ (me t).flight, r ∈ (me s).flight ∨ ∀ cell, ret + 1 ≤ r.lands cell) ∧
  (me t).v = (me s).v ∧ (me t).k = (me s).k ∧ ∀ a, memGet t.core.mem a = memGet s.core.mem a

end Sys2Proof.Claims

/-- R31, R144, R315, R316: `trap`, `bkpt` without a debugger and the entry of a pending trap: what an entry saves and where it
goes. Which results count as in flight, and so N in the frame and the entry cycle, is log 43; that a vector is taken modulo the bank is
log 16. -/
def Sys2Proof.Claims.TrapsEnter : Prop :=
  (∀ (s : State) (code : BitVec 16), s.core.iss.fpx = 0 → Alone s.rd s.core.cur → s.rd.cur = s.core.cur →
    Holdable s.rd s.core.cur → Memory.wf s.rd.mem = true →
    (∃ t, Machine.exec (.trap code) s = .next t ∧ t.base = none ∧
      Entered s.rd t.core s.core.cur ⟨0x14, s.core.iss.slot, code.toNat, 0, 0, s.core.iss.pc, s.wv.priv, false, s.rd.now⟩) ∧
    (s.rd.attached s.core.cur = false → ∃ t, Machine.exec (.bkpt code) s = .next t ∧ t.base = none ∧
      Entered s.rd t.core s.core.cur ⟨0x13, s.core.iss.slot, code.toNat, 0, 0, s.core.iss.pc, false, false, s.rd.now⟩)) ∧
  ∀ (s : State) (w : Nat) (ti : TrapInfo), (s.core.weave w).pendTrap = some ti → Memory.wf s.core.mem = true →
    (Holdable s.core w → ∃ t, Machine.exec (.trapEntry w) s = .next t ∧ Entered s.core t.core w ti) ∧
    (16 < (InFlight s.core w).length → ∃ t, Machine.exec (.trapEntry w) s = .next t ∧
      ⟨.cycle (s.now + 1), bIssue, w, .trapEntry w⟩ ∈ t.core.agenda ∧ t.core.weaves = s.core.weaves ∧ t.core.mem = s.core.mem)

/-- R33, R473, R35, R330: user events, throttle events and PREEMPT are taken when they may be; a pre-emption request makes
PREEMPT pending for every sequencer of the launch, and what is preloaded behind it is discarded (R419). The results in flight and the
vector are those of log 43 and log 16. -/
def Sys2Proof.Claims.EventsEnter : Prop :=
  (∀ (s : State) (w f : Nat), (s.core.weave w).uee = true → (s.core.weave w).inue = false → (s.core.weave w).priv = false →
    Alone s.core w → Holdable s.core w → Memory.wf s.core.mem = true → s.core.eventFrame w = some f → f % 8 = 0 →
    (∀ sem, sem < 256 → (mget? (s.core.weave w).events sem).isSome = true →
      ∃ t, Machine.exec (.userEventEntry w sem) s = .next t ∧ EventEntered s.core t.core w f (BitVec.ofNat 64 (sem * 256 + 1)) ∧
        mget? (t.core.weave w).events sem = none) ∧
    ((s.core.weave w).throttle.isSome = true →
      ∃ t, Machine.exec (.throttleEventEntry w) s = .next t ∧ EventEntered s.core t.core w f 0xFF02 ∧
        (t.core.weave w).throttle = none)) ∧
  (∀ (s : State) (w info : Nat), (s.core.weave w).preempt = true → (s.core.weave w).landing = some info →
    (s.core.weave w).priv = false → (s.core.weave w).inue = false → Alone s.core w → Holdable s.core w →
    Memory.wf s.core.mem = true →
    ∃ t, Machine.exec (.preempt w) s = .next t ∧
      Entered s.core t.core w ⟨0x12, 0xFF, 0, BitVec.ofNat 64 info, 0, (s.core.weave w).pc.toNat, false, true, s.now⟩) ∧
  ∀ (s : State) (n : Nat) (l : Launch), s.core.launch? n = some l → l.preempting = none → l.started.isSome = true → l.ended = false →
    s.core.preloadOn l ≠ some n →
    ∃ t, Machine.exec (.preemptionRequest n) s = .next t ∧ t.core.mem = s.core.mem ∧
      ((t.core.launch? n).map fun l => l.preempting) = some (some s.now) ∧
      (∀ w ∈ l.weaves, l.halted.contains w = false → (t.core.weave w).preempt = true) ∧
      (∀ w, w ∉ l.weaves → t.core.weave w = s.core.weave w) ∧ (∀ m, s.core.preloadOn l = some m → t.core.launch? m = none) ∧
      ⟨.wall (s.core.wall + 10 * Config.msUnits), bCp, n, .preemptLandingTimeout n⟩ ∈ t.core.agenda

/-- R145, R149, R320: `eret` restores PC, PRIV and UEE and takes the loop stack from the frame; `evret` reverses the entry of a
user event. At user level, and outside an event, each traps. That a PC is taken modulo the bank is log 16, a depth of 7 that reads as 6
log 45, and the trap of an `evret` whose UEFRAME is no frame log 46. -/
def Obligations.Returns : Prop :=
  ∀ s : State,
    let w := s.core.cur
    let f := trapFrame w
    (s.wv.priv = false → Machine.exec .eret s = .next (s.privTrap 0)) ∧
    (s.wv.priv = true → s.core.now = s.rd.now → ∃ t, Machine.exec .eret s = .next t ∧ Returned s t f (s.wv.epc.toNat % 16384) ∧
      (me t).priv = s.wv.status.getLsbD 5 ∧ (me t).uee = s.wv.status.getLsbD 6 ∧
      (∀ i, 2 ≤ i → (me t).status.getLsbD i = (me s).status.getLsbD i) ∧
      (me t).loops = s.rd.readLevels w f ((s.rd.loadShared w (f + 24)).toNat % 8) ∧ (me t).s = (me s).s) ∧
    (s.wv.inue = false → Machine.exec .evret s = .next (s.illegal 0)) ∧
    (s.wv.inue = true → s.rd.eventFrame w = none →
      Machine.exec .evret s = .next (s.raiseFatal 0x07 0xFF (BitVec.ofNat 64 s.wv.ueframe.toNat))) ∧
    (∀ f, s.wv.inue = true → s.rd.eventFrame w = some f → s.core.now = s.rd.now →
      ∃ t, Machine.exec .evret s = .next t ∧ Returned s t f ((s.rd.loadShared w (f + 8)).toNat % 16384) ∧
        (me t).inue = false ∧ (∀ i, i ≠ 2 → (me t).status.getLsbD i = (me s).status.getLsbD i) ∧
        (me t).s = (me s).s.take 24 ++ (me s).shadow ∧ (me t).shadow = (me s).s.drop 24 ∧
        (me t).loops = (me s).loops.take ((s.rd.loadShared w (f + 24)).toNat % 8))

/-- Entry to traps and user events. -/
def Obligations.TrapsAndEvents : Prop :=
  TrapsEnter ∧ EventsEnter

/-! # Landings, halts, fatal errors, the debugger -/

/-- R17, R18, R320: a result, or a latch, lands in a cell: the register of each of its lanes there takes its value, the other
registers keep theirs, and the cell's data has left the flight; what lands has good parity (R376). -/
def Sys2Proof.Claims.Landings : Prop :=
  ∀ (s : State) (w id cell : Nat) (x : Result),
    (s.core.weave w).flight.find? (fun r => r.id == id) = some x → (x.data.map (·.1)).Nodup → (∀ p ∈ x.data, p.1 < 128) →
    ∀ i ∈ [Instr.resultLanding w id cell, .latchLanding w id cell],
      let old := s.core.weave w
      ∃ t, Machine.exec i s = .next t ∧ t.base = s.base ∧ { t.core with weaves := s.core.weaves } = s.core ∧
        (∀ v, v ≠ w → t.core.weave v = s.core.weave v) ∧
        (let new := t.core.weave w
         ({ new with flight := old.flight, s := old.s, v := old.v, k := old.k, badRegs := old.badRegs } : Weave) = old ∧
         (∀ b, b ∈ new.badRegs ↔ b ∈ old.badRegs ∧ ¬ (b.1 = x.file ∧ b.2.1 = x.reg.toNat ∧
           ∃ p ∈ x.data, p.1 = b.2.2 ∧ (x.file = .s ∨ p.1 / 16 = cell))) ∧
         (x.file = .s → ∀ y, x.data = [(0, y)] → new.s = old.s.set x.reg.toNat y ∧ new.v = old.v ∧ new.k = old.k) ∧
         (x.file = .v → new.s = old.s ∧ new.k = old.k ∧
           (∀ l y, mget? x.data l = some y → l / 16 = cell → mget? new.v (vKey x.reg.toNat l) = some y) ∧
           ∀ n, (∀ p ∈ x.data, p.1 / 16 = cell → n ≠ vKey x.reg.toNat p.1) → mget? new.v n = mget? old.v n) ∧
         (x.file = .k → new.s = old.s ∧ new.v = old.v ∧
           (∀ l y, mget? x.data l = some y → l / 16 = cell → mget? new.k (vKey x.reg.toNat l) = some y) ∧
           ∀ n, (∀ p ∈ x.data, p.1 / 16 = cell → n ≠ vKey x.reg.toNat p.1) → mget? new.k n = mget? old.k n) ∧
         ∀ r ∈ new.flight, r.id = id → ∀ p ∈ r.data, x.file ≠ .s ∧ p.1 / 16 ≠ cell)

/-- R150, R376: `halt` ends its weave's part of the launch, whose completion is tested when its results have landed, and what the weave
has buffered is published in this cycle; the leader of a redundant pair ends at its compare point; a phase buffer that fails its parity is
consumed instead. The halt cycle's place is log 28. -/
def Sys2Proof.Claims.Halts : Prop :=
  ∀ s : State,
    let w := s.core.cur
    ((s.core.weave w).redun = true → w % 2 = 0 → Machine.exec .halt s =
      .next { s with core := { s.core with iss := { s.core.iss with done := true, reaches := .halt } } }) ∧
    (((s.core.weave w).redun = false ∨ w % 2 = 1) → (s.core.weave w).bufBad ≠ [] →
      ∃ t, Machine.exec .halt s = .next t ∧ t.core.iss.done = true ∧ (me t).running = (me s).running ∧ t.core.mem = s.core.mem ∧
        ⟨.cycle s.now, bLand, w, .cancelAt w 5 (unitCode ⟨0, secOf w, w % 4⟩) 0 false⟩ ∈ t.core.agenda) ∧
    (∀ n l, ((s.core.weave w).redun = false ∨ w % 2 = 1) → (s.core.weave w).bufBad = [] → (s.core.weave w).saving = false →
      (s.core.weave w).launch = some n → s.core.launch? n = some l →
      ∃ t, Machine.exec .halt s = .next t ∧ t.core.iss.done = true ∧ (me t).running = false ∧ (me t).halted = true ∧
        ⟨.cycle s.now, bPublish, w, .haltPublish w⟩ ∈ t.core.agenda ∧
        (me t).buf = (me s).buf ∧ (me t).s = (me s).s ∧ (me t).v = (me s).v ∧ (me t).k = (me s).k ∧ t.core.mem = s.core.mem ∧
        (∀ v, v ≠ w → t.core.weave v = s.core.weave v) ∧
        ((t.core.launch? n).map fun l => l.halted.contains w) = some true ∧
        ∃ T, s.now + 9 ≤ T ∧ (∀ r ∈ (me s).flight, r.lands 7 ≤ T) ∧ ⟨.cycle T, bCp, n, .launchCompletion n⟩ ∈ t.core.agenda)

/-- R27, R203, R300, R301: the publications of a cycle. A weave that alone publishes at a scope leaves its phase buffer empty; its
buffered bits are in memory, every other byte is as before, and its view takes the rows that it has published. -/
def Sys2Proof.Claims.Publications : Prop :=
  ∀ (c : Core) (w scope : Nat), c.duePublishers = [] → (c.weave w).gbuf = [] → Memory.wf c.mem = true → c.flips = [] →
    ((c.weave w).buf.map fun p => rowAddr p.1).Nodup →
    let d := c.publishDue [(w, scope)]
    (d.weave w).buf = [] ∧
    (∀ a b, (a, b) ∈ (c.weave w).buf → d.row a = mergeBits (c.row a) b.val b.mask ∧ d.view w a = d.row a) ∧
    (∀ x, (∀ p ∈ (c.weave w).buf, rowAddr x ≠ rowAddr p.1) → memGet d.mem x = memGet c.mem x) ∧
    (∀ v, v ≠ w → (d.weave v).buf = (c.weave v).buf ∧ (d.weave v).views = (c.weave v).views)

/-- R322, R401: a fatal context error of a running launch that has no retry left for it ends the launch in error: none of its
weaves runs on, and its sectors are kept for the host; the rows of the frame that the fault record takes are good (log 59). R228: EVICT is taken at user level, with the warned ports. -/
def Obligations.FatalErrorsAndEvictions : Prop :=
  (∀ (s : State) (w n : Nat) (l : Launch), (s.core.weave w).launch = some n → s.core.launches = [(n, l)] → l.ended = false →
    w ∈ l.weaves → (∀ v ∈ l.weaves, (s.core.weave v).launch = some n) → l.node = none → l.sectors ≠ [] → Quiet s →
    (l.retry = 0 ∨ ((s.core.weave w).tcause.toNat % 256 ≠ 0x0B ∧ (s.core.weave w).tcause.toNat % 256 ≠ 0x16)) →
    ∃ t, Machine.exec (.fatalContextError w) s = .next t ∧ t.core.mem = s.core.mem ∧
      (∀ v ∈ l.weaves, (t.core.weave v).running = false ∧ (t.core.weave v).launch = none) ∧
      (∀ k ∈ l.sectors, (t.core.sector k).kept = true) ∧
      ((t.core.launch? n).map fun l => (l.ended, l.fatal)) = some (true, true)) ∧
  ∀ (s : State) (w : Nat), (s.core.weave w).evictWarn = true → (s.core.weave w).priv = false →
    let mask := (List.range 3).foldl (fun acc p => if ((s.core.weave w).ports.getD p Port.reset).ew then acc + 2 ^ p else acc) 0
    mask ≠ 0 → Alone s.core w → Holdable s.core w → Memory.wf s.core.mem = true →
    ∃ t, Machine.exec (.evict w) s = .next t ∧ (t.core.weave w).evictWarn = false ∧
      Entered s.core t.core w ⟨0x0D, 0xFF, 0, BitVec.ofNat 64 mask, 0, (s.core.weave w).pc.toNat, false, false, s.now⟩

/-- R334 to R336, R385, R444: an attached debugger halts a weave, or all weaves of its timed launch; resumes it; steps an untimed one;
reads and writes its state only while it is halted. What it asks of a redundant partner it asks of the pair's leader. That an untimed weave
goes on in the next cycle is log 16. -/
def Obligations.DebuggerActs : Prop :=
  ∀ (s : State) (w : Nat),
    (s.core.attached w = true → (s.core.weave w).running = true → (s.core.weave (s.core.leadOf w)).dbg.halted = none →
      ∃ t, Machine.exec (.debugHaltRequest w) s = .next t ∧ t.core.mem = s.core.mem ∧
        ∀ v, t.core.weave v = if v ∈ s.core.haltSet w then
          { s.core.weave v with dbg := { (s.core.weave v).dbg with haltReq := true } } else s.core.weave v) ∧
    (s.core.attached w = false → Machine.exec (.debugHaltRequest w) s = .next s) ∧
    (s.rd.attached w = true → s.core.cur = w → s.rd.cur = w → (s.rd.weave w).served = none → s.rd.haltSet w = [w] →
      (InFlight s.rd w).length ≤ 16 → ∀ code, ∃ t, Machine.exec (.bkpt code) s = .next t ∧ t.base = none ∧
        (t.core.weave w).dbg.halted = some s.rd.now ∧ (t.core.weave w).flight = [] ∧ t.core.mem = s.rd.mem ∧
        (∀ e ∈ t.core.agenda, e.act ≠ .issue w) ∧
        (s.rd.hasPartner w = true →
          ⟨.cycle (s.rd.now + 2), bHost, w + 1, .partnerHalt (w + 1) none⟩ ∈ t.core.agenda)) ∧
    (∀ v, s.core.leadOf w = v → s.core.leadOf v = v →
      Machine.exec (.debugResume w) s = Machine.exec (.debugResume v) s ∧ Machine.exec (.debugStep w) s = Machine.exec (.debugStep v) s) ∧
    (∀ h, s.core.leadOf w = w → (s.core.weave w).dbg.halted = some h → h ≤ s.now → (s.core.weave w).timed = false →
      let at_ := if (s.core.weave w).realignTo.isSome then max (s.now + 1) ((s.core.weave w).fixedAt.getD 0) else s.now + 1
      ∀ i step, (i, step) ∈ [(Instr.debugResume w, false), (.debugStep w, true)] →
      ∃ t, Machine.exec i s = .next t ∧ t.core.mem = s.core.mem ∧ (t.core.weave w).dbg.halted = none ∧
        (t.core.weave w).dbg.step = step ∧ (t.core.weave w).fixedAt = some at_ ∧
        (t.core.weave w).pc = (s.core.weave w).pc ∧ (t.core.weave w).s = (s.core.weave w).s ∧
        ⟨.cycle at_, bIssue, w, .issue w⟩ ∈ t.core.agenda) ∧
    (s.core.leadOf w = w → (s.core.weave w).timed = true → Machine.exec (.debugStep w) s = .next s) ∧
    (s.core.leadOf w = w → (s.core.weave w).dbg.halted = none → Machine.exec (.debugResume w) s = .next s) ∧
    ((s.core.weave w).dbg.halted = none →
      (∀ v, Machine.exec (.debugDataAccess w (some v)) s = .next s) ∧
      ∃ t, Machine.exec (.debugDataAccess w none) s = .next t ∧ t.core.weaves = s.core.weaves ∧ t.core.mem = s.core.mem ∧
        t.core.outbox = s.core.outbox ++ [.readData 0 (List.replicate 8 0)]) ∧
    (∀ h, (s.core.weave w).dbg.halted = some h →
      (∃ t, Machine.exec (.debugDataAccess w none) s = .next t ∧ t.core.weaves = s.core.weaves ∧ t.core.mem = s.core.mem ∧
        t.core.outbox = s.core.outbox ++ [.readData 0 ((natBytes 8 (s.core.debugRead w).toNat).map (BitVec.ofNat 8))]) ∧
      ∀ v, ∃ t, Machine.exec (.debugDataAccess w (some v)) s = .next t ∧ t.core.mem = s.core.mem ∧
        (let d := (s.core.weave w).dbg.dsel.toNat
         let r := d / 2 ^ 44 % 32
         (d / 2 ^ 56 = 0 → r ≠ 0 → (t.core.weave w).s = (s.core.weave w).s.set r v) ∧
         (d / 2 ^ 56 = 3 → mget? (t.core.weave w).v (vKey r (d % 128)) = some v) ∧
         (d / 2 ^ 56 = 4 → r % 8 ≠ 0 → mget? (t.core.weave w).k (vKey (r % 8) (d % 128)) = some (v &&& 1))))

/-- Landings of results, halts, and publications. -/
def Obligations.LandingsAndHalts : Prop :=
  Landings ∧ Halts ∧ Publications

/-! # Ports, launch words, leases, jobs -/

namespace Sys2Proof.Claims
open Sys2Proof.Machine

/-- A port of the executing weave, as read at issue, and as the machine holds it. -/
def portRead (s : State) (p : Sys2Proof.Port) : Machine.Port := s.wv.ports.getD p.toNat Port.reset
def portOf (s : State) (p : Nat) : Machine.Port := (me s).ports.getD p Port.reset
/-- The port has its engine and no repeat under way: a word of its may issue (R20, R91). -/
def Granted (s : State) (p : Sys2Proof.Port) : Prop :=
  (portRead s p).kind ≠ 7 ∧ (portRead s p).g = true ∧ (portRead s p).rep = none
/-- Only the ports of the executing weave differ, and of them only port p. -/
def SameButPort (s t : State) (p : Nat) : Prop :=
  SameBut s t (fun x y => { y with ports := x.ports }) (fun _ d => d) ∧ ∀ q, q ≠ p → (me t).ports[q]? = (me s).ports[q]?
/-- The sector has instance i of an engine kind. -/
def HasEngine (c : Core) (sec kind i : Nat) : Prop := ∃ es, (c.sector sec).engines[kind]? = some es ∧ i < es.length

end Sys2Proof.Claims

/-- R92: the stack words. Each has the stack effect of its entry; where its needs are not met it raises ENGSTACK; without a
lease it raises ENGJOB, without a grant it is held; after a `rep` it raises ILLEGAL. -/
def Sys2Proof.Claims.StackWords : Prop :=
  ∀ (s : State) (p : Sys2Proof.Port) (imm : BitVec 14) (n : Reg) (j : BitVec 3),
    let st := (portRead s p).stack
    let k := p.toNat
    let room (m : Nat) (x : List Word) : Option (List Word) := if st.length + m ≤ 8 then some x else none
    ∀ (i : Instr) (new : Option (List Word)), (i, new) ∈ ([
      (.push p imm, room 1 (imm.signExtend 64 :: st)), (.pushs p n, room 1 (s.sreg n :: st)),
      (.ext p imm, match st with | x :: r => some ((x * 16384 + imm.setWidth 64) :: r) | [] => none),
      (.dup p, match st with | x :: r => room 1 (x :: x :: r) | [] => none),
      (.drop p, match st with | _ :: r => some r | [] => none),
      (.swap p, match st with | y :: x :: r => some (x :: y :: r) | _ => none),
      (.over p, match st with | y :: x :: r => room 1 (x :: y :: x :: r) | _ => none),
      (.stackRot p, match st with | z :: y :: x :: r => some (x :: z :: y :: r) | _ => none),
      (.clr p, some []), (.setstr p j, match st with | _ :: r => some r | [] => none)] : List (Instr × Option (List Word))) →
    (s.core.iss.rep = none → Granted s p → k < (me s).ports.length →
      (∀ x, new = some x → ∃ t, Machine.exec i s = .next t ∧ SameButPort s t k ∧
        portOf t k = { portOf s k with
          stack := x, pstd := if i = .setstr p j then (portOf s k).pstd.set j.toNat (st.headD 0) else (portOf s k).pstd }) ∧
      (new = none → Machine.exec i s = .next (s.raise 0x0E (BitVec.ofNat 64 (k + st.length * 256)) 0))) ∧
    (s.core.iss.rep = none → (portRead s p).kind = 7 → Machine.exec i s = .next (s.raise 0x0F (BitVec.ofNat 64 (k + 256)) 0)) ∧
    (s.core.iss.rep = none → (portRead s p).kind ≠ 7 → ¬ Granted s p → s.core.iss.fpx = 0 →
      Machine.exec i s = .next { core := { s.rd with iss := { s.core.iss with held := some 2 } }, base := none }) ∧
    (s.core.iss.rep ≠ none →
      Machine.exec i s = .next (s.raiseAt 0x01 s.core.iss.repSlot 0 (s.core.iss.repWord.setWidth 64) 0 false))

/-- R93, R230 to R233: a launch word whose checks pass pops its arguments, wait and signal from its port and puts its job on the
way to its engine's queue, 8 cycles on; a failed check traps, a full queue or a held ring lane holds the word. Memory is as it
was, but for the A and D bits of a walk at use.
Reasons of argument faults are log 26. -/
def Sys2Proof.Claims.LaunchWords : Prop :=
  ∀ (s : State) (p : Sys2Proof.Port) (sl sm : BitVec 3) (f g : Bool),
    let bit (b : Bool) : Nat := if b then 1 else 0
    let st := (portRead s p).stack
    ∀ (i : Instr) (op md n : Nat) (check : Core → Nat → List Word → Check), (i, op, md, n, check) ∈ ([
      (.mxZero p, 0, 0, 0, checkMxPlain), (.mxLda p, 1, 0, 3, checkMxLd), (.mxLdb p, 2, 0, 3, checkMxLd),
      (.mxMm p sl sm f, 3, sl.toNat + 8 * sm.toNat + 64 * bit f, 2, checkMxMm (sl.toNat + 8 * sm.toNat + 64 * bit f)),
      (.mxPs p, 4, 0, 3, checkMxPs), (.mxSt p f, 5, bit f, 3, checkMxSt), (.mxSv p f, 6, bit f, 1, checkMxImage 18560),
      (.mxRs p, 7, 0, 1, checkMxImage 18560), (.mxChk p, 8, 0, 1, checkMxImage 8), (.mxRp p, 9, 0, 1, checkMxRp),
      (.gxCfg p sl, 0, sl.toNat, 2, checkGxCfg sl.toNat),
      (.gxGth p f, 1, bit f, 4, fun c w a => checkGxRows (bit f) (c.portRowb w p.toNat) c w a),
      (.gxBag p f, 2, bit f, 5, fun c w a => checkGxBag (bit f) (c.portRowb w p.toNat) c w a),
      (.gxSca p f, 3, bit f, 4, fun c w a => checkGxRows (bit f) (c.portRowb w p.toNat) c w a),
      (.gxStat p f, 4, bit f, 1, checkGxStat),
      (.cdCmp p, 0, 0, 5, checkCdCmp), (.cdExp p, 1, 0, 5, checkCdExp), (.cdHash p, 2, 0, 5, checkCdHash),
      (.cdDelta p f, 3, bit f, 6, checkCdDelta f),
      (.sfExp p sl, 0, sl.toNat, 4, checkSf 0 sl.toNat), (.sfSmx p sl, 1, sl.toNat, 4, checkSf 1 sl.toNat),
      (.sfNrm p sl f g, 2, sl.toNat + 8 * bit f + 16 * bit g, 6, checkSf 2 (sl.toNat + 8 * bit f + 16 * bit g)),
      (.sfRsq p sl, 3, sl.toNat, 4, checkSf 3 sl.toNat), (.sfGelu p sl, 4, sl.toNat, 4, checkSf 4 sl.toNat),
      (.ksTopk p sl f, 0, sl.toNat + 8 * bit f, 6, checkKsTopk (sl.toNat + 8 * bit f)),
      (.ksSort p sl f g, 1, sl.toNat + 8 * bit f + 16 * bit g, 5, checkKsSort (sl.toNat + 8 * bit f + 16 * bit g)),
      (.txLoad p, 0, 0, 4, checkTxLoad), (.txGo p f, 1, bit f, 3, checkTxGo f),
      (.txStop p f, 2, bit f, 1, checkTxStop f (st.getD 1 0).toNat),
      (.cpRr, 0, 0, 4, checkRr), (.cpGt, 1, 0, 5, checkGt), (.cpTr, 2, 0, 5, checkTr), (.cpRt, 3, 0, 5, checkRt),
      (.cpGs, 4, 0, 4, checkGs), (.cpSg, 5, 0, 4, checkSg), (.cpBc, 6, 0, 5, checkBc), (.cpFill, 7, 0, 4, checkFill),
      (.cpSwp, 0x3F, 0, 3, checkSwp)] : List (Instr × Nat × Nat × Nat × (Core → Nat → List Word → Check))) →
    (i ∈ [Instr.cpRr, .cpGt, .cpTr, .cpRt, .cpGs, .cpSg, .cpBc, .cpFill, .cpSwp] → p.toNat = 3) →
    (i = .cpSwp → s.wv.priv = false → Machine.exec i s = .next (s.privTrap 0)) ∧
    ((i = .cpSwp → s.wv.priv = true) → Granted s p →
      let w := s.core.cur
      let args := (st.take n).reverse
      let wait := (st.getD n 0).toNat
      let sig := (st.getD (n + 1) 0).toNat
      let e := s.rd.portQueue w p.toNat op
      (st.length < n + 2 → Machine.exec i s = .next (s.raise 0x0E (BitVec.ofNat 64 (p.toNat + st.length * 256)) 0)) ∧
      (n + 2 ≤ st.length → 256 < sig → Machine.exec i s =
        .next (s.raise 0x0F (BitVec.ofNat 64 (p.toNat + 2 * 256)) (BitVec.ofNat 64 sig))) ∧
      (n + 2 ≤ st.length → sig ≤ 256 → 256 < wait → Machine.exec i s =
        .next (s.raise 0x0F (BitVec.ofNat 64 (p.toNat + 2 * 256)) (BitVec.ofNat 64 wait))) ∧
      (n + 2 ≤ st.length → sig ≤ 256 → wait ≤ 256 →
        (∀ r, check s.rd w args = .job r →
          Machine.exec i s = .next (s.raise 0x0F (BitVec.ofNat 64 (p.toNat + r * 256)) 0)) ∧
        (∀ a, check s.rd w args = .window a → Machine.exec i s = .next (s.windowTrap 0xFF a)) ∧
        (∀ a, check s.rd w args = .priv a → Machine.exec i s = .next (s.privTrap (BitVec.ofNat 64 a))) ∧
        (∀ h off, check s.rd w args = .handle h off none →
          Machine.exec i s = .next (s.handleTrap h (BitVec.ofNat 64 off))) ∧
        ∀ cap rings h, check s.rd w args = .ok cap rings h → s.core.iss.fpx = 0 → wordBypasses (portRead s p).kind op md = false →
          (queueRoom e ≤ (s.rd.jobsOf e).length →
            Machine.exec i s = .next { core := { s.rd with iss := { s.core.iss with held := some 2 } }, base := none }) ∧
          ((s.rd.jobsOf e).length < queueRoom e → (∃ L ∈ rings, L < 16 ∧ s.rd.laneHeld (secOf w) L = true) →
            Machine.exec i s = .next { core := { s.rd with iss := { s.core.iss with held := some 5 } }, base := none })) ∧
      (n + 2 ≤ st.length → sig ≤ 256 → wait ≤ 256 → s.base = some s.core → s.core.iss.rep = none →
        (s.core.weave w).redun = false → p.toNat < (me s).ports.length →
        (∀ k i, e = .pool (secOf w) k i → HasEngine s.core (secOf w) k i) →
        ∀ cap rings h, check s.core w args = .ok cap rings h → ((s.core.jobsOf e).length < queueRoom e ∨ wordBypasses (portRead s p).kind op md = true) →
        (∀ L ∈ rings, L < 16 → s.core.laneHeld (secOf w) L = false) →
        ∃ t j, Machine.exec i s = .next t ∧ j ∈ t.core.jobsOf e ∧
          (j.weave, j.port, j.kind, j.op, j.md, j.args, j.wait, j.sig) =
            (w, p.toNat, (portRead s p).kind, op, md, args, wait, sig) ∧
          j.entered = s.core.now + 8 ∧ j.started = none ∧ j.cap = cap ∧ j.rings = rings ∧
          ⟨.cycle (s.core.now + 8), bEngine, 1000 + j.id, .launchWordEntry w j.id⟩ ∈ t.core.agenda ∧
          (portOf t p.toNat).stack = st.drop (n + 2) ∧ (me t).s = (me s).s ∧ (me t).v = (me s).v ∧ (me t).k = (me s).k ∧
          (h = none → t.core.mem = s.core.mem)))

/-- R133 to R136, R220: `lease` wakes an idle engine that fits both budgets and that no earlier request waits for, else it
queues; `rel` gives the lease back or withdraws the request; `lqry` reads the lease group; `lwait` holds until the request is
settled. -/
def Sys2Proof.Claims.LeaseWords : Prop :=
  ∀ (s : State) (p : Sys2Proof.Port) (kind : BitVec 3) (d : Reg),
    let w := s.core.cur
    let k := p.toNat
    let x := portRead s p
    let n := kind.toNat
    let prio := ((s.rd.launchOf w).map (·.prio)).getD 0
    let req : LeaseReq := ⟨w, k, prio, s.now, false⟩
    let idle (i : Nat) : Prop := (s.core.instances s.sec n).find? (fun i => (s.core.eng s.sec n i).idle) = some i
    let earlier : Prop := ∃ y ∈ s.core.budgetWaiters s.sec, reqBefore y.2.2 req = true
    let bit (b : Bool) (i : Nat) : Nat := if b then 2 ^ i else 0
    let group := bit x.g 0 + bit x.wk 1 + bit x.q 2 + bit x.tw 3 + bit x.ew 4 + bit x.ev 5 + s.rd.qpos w k % 8 * 64 + x.kind * 512
    (k = 3 → ∀ i ∈ [Instr.lease p kind, .rel p, .lqry d p, .lwait p], Machine.exec i s = .next (s.illegal 0)) ∧
    (6 ≤ n → Machine.exec (.lease p kind) s = .next (s.illegal 0)) ∧
    (k ≠ 3 → n < 6 → x.kind ≠ 7 → Machine.exec (.lease p kind) s = .next (s.raise 0x0F (BitVec.ofNat 64 (k + 4 * 256)) 0)) ∧
    (k ≠ 3 → n < 6 → x.kind = 7 → k < (me s).ports.length →
      (∀ i, idle i → HasEngine s.core s.sec n i → s.core.fits s.sec n 0 = true → ¬ earlier →
        ∃ t, Machine.exec (.lease p kind) s = .next t ∧ t.core.mem = s.core.mem ∧
          portOf t k = { portOf s k with kind := n, inst := i, wk := true, q := false } ∧
          (t.core.eng s.sec n i).waking = some (w, k) ∧ (t.core.eng s.sec n i).charge = Config.weight n ∧
          ⟨.cycle (s.now + Config.wake n), bLand, engRank (.pool s.sec n i), .leaseGrant s.sec n i⟩ ∈ t.core.agenda) ∧
      (∀ i, (idle i ∧ (s.core.fits s.sec n 0 = false ∨ earlier)) ∨ ((∀ i, ¬ idle i) ∧ s.core.shortest s.sec n = some i) →
        HasEngine s.core s.sec n i →
        ∃ t, Machine.exec (.lease p kind) s = .next t ∧ t.core.mem = s.core.mem ∧
          portOf t k = { portOf s k with kind := n, inst := i, q := true, wk := false } ∧
          (t.core.eng s.sec n i).queue = insertReq req (s.core.eng s.sec n i).queue) ∧
      ((∀ i, ¬ idle i) → s.core.shortest s.sec n = none →
        Machine.exec (.lease p kind) s = .next (s.raise 0x0F (BitVec.ofNat 64 (k + 4 * 256)) 0))) ∧
    (k ≠ 3 → x.kind = 7 → Machine.exec (.rel p) s = .next s) ∧
    (k ≠ 3 → x.kind ≠ 7 → portOf s k = x → k < (me s).ports.length → HasEngine s.core s.sec x.kind x.inst →
      ∃ t, Machine.exec (.rel p) s = .next t ∧ t.core.mem = s.core.mem ∧
        ((portOf t k).kind, (portOf t k).ev, (portOf t k).ew, (portOf t k).tw, (portOf t k).q, (portOf t k).wk, (portOf t k).g) =
          (7, false, false, false, false, false, false) ∧ (portOf t k).stack = x.stack ∧ (portOf t k).pstd = x.pstd ∧
        (x.g = true → (t.core.eng s.sec x.kind x.inst).holder = none ∧ (t.core.eng s.sec x.kind x.inst).draining = some (w, k) ∧
          (t.core.eng s.sec x.kind x.inst).jobs = (s.core.eng s.sec x.kind x.inst).jobs) ∧
        (x.g = false → x.q = true → ∀ r ∈ (t.core.eng s.sec x.kind x.inst).queue, r.weave = w → r.port ≠ k)) ∧
    (k ≠ 3 → ∃ t, Machine.exec (.lqry d p) s = .next t ∧ LandsS s t d 1 (BitVec.ofNat 64 (if x.g then
      group + (Config.termWords - x.termWords) * 2 ^ 16 + (x.termStart + Config.termCycles - s.now) * 2 ^ 32 else group))) ∧
    (k ≠ 3 → (x.g = true ∨ x.kind = 7 ∨ x.ev = true) → Machine.exec (.lwait p) s = .next s) ∧
    (k ≠ 3 → x.g = false → x.kind ≠ 7 → x.ev = false → s.core.iss.fpx = 0 →
      Machine.exec (.lwait p) s = .next { core := { s.rd with iss := { s.core.iss with held := some 2 } }, base := none })

/-- R219, R221 to R225, R228: a waking engine grants; a waiting request is promoted; a term that is over ends, or is renewed
where nobody waits; a drained engine sleeps or is handed to its queue's head; a grace ends the lease with EV.
Corners of leases are logs 27, 54 and 70. -/
def Sys2Proof.Claims.LeasesRunTheirCourse : Prop :=
  ∀ (s : State) (sec kind i w p : Nat),
    let e := s.core.eng sec kind i
    let x := (s.core.weave w).ports.getD p Port.reset
    let port (t : State) : Machine.Port := (t.core.weave w).ports.getD p Port.reset
    let rank := engRank (.pool sec kind i)
    let ends (t : State) : Prop := ⟨.cycle (s.now + Config.termCycles), bLand, rank, .termEnd sec kind i⟩ ∈ t.core.agenda
    let holds (t : State) : Prop := (t.core.eng sec kind i).holder = some (w, p) ∧ (t.core.eng sec kind i).waking = none ∧
      (t.core.eng sec kind i).draining = none ∧ (t.core.eng sec kind i).charge = Config.weight kind ∧ (port t).g = true ∧
      (port t).wk = false ∧ (port t).q = false ∧ (port t).kind = kind ∧ (port t).inst = i ∧ (port t).termStart = s.now ∧ ends t
    HasEngine s.core sec kind i → p < (s.core.weave w).ports.length →
    (e.waking = some (w, p) → ∃ t, Machine.exec (.leaseGrant sec kind i) s = .next t ∧ holds t ∧
      (kind ≠ 2 → t.core.mem = s.core.mem) ∧ (kind = 2 → ∀ a, a < 16384 → Memory.wf s.core.mem = true → s.core.flips = [] →
        memGet t.core.mem (txsFlat sec i 0 + a) = 0)) ∧
    (∀ r, e.queue.find? (fun r => r.weave == w && r.port == p) = some r →
      ∃ t, Machine.exec (.leasePromotion sec kind i w p) s = .next t ∧
        { r with promoted := true } ∈ (t.core.eng sec kind i).queue ∧ t.core.weaves = s.core.weaves ∧ t.core.mem = s.core.mem) ∧
    (e.holder = some (w, p) → (x.termStart + Config.termCycles ≤ s.now ∨ Config.termWords ≤ x.termWords) →
      (e.queue = [] → ∃ t, Machine.exec (.termEnd sec kind i) s = .next t ∧ ends t ∧
        port t = { x with termStart := s.now, termWords := 0 } ∧ t.core.eng sec kind i = e) ∧
      (e.queue ≠ [] → e.graceAt = none → secOf w = sec → x.kind = kind → x.inst = i → ∃ t, Machine.exec (.termEnd sec kind i) s = .next t ∧
        (t.core.eng sec kind i).holder = none ∧ (t.core.eng sec kind i).draining = some (w, p) ∧
        (port t).tw = true ∧ (port t).g = false ∧ (port t).q = true ∧ t.core.mem = s.core.mem)) ∧
    (e.draining.isSome = true → e.jobs = [] → e.queue = [] → ∃ t, Machine.exec (.drainEnd sec kind i) s = .next t ∧
      (t.core.eng sec kind i).free = true ∧ (t.core.eng sec kind i).charge = 0 ∧ t.core.mem = s.core.mem) ∧
    (e.draining.isSome = true → e.jobs = [] → e.queue ≠ [] → e.retired = false → s.core.fits sec kind e.charge = true →
      ∃ t, Machine.exec (.drainEnd sec kind i) s = .next t ∧ (t.core.eng sec kind i).charge = Config.weight kind ∧
        ⟨.cycle (s.now + 16), bLand, rank, .leaseHandover sec kind i⟩ ∈ t.core.agenda) ∧
    (∀ r rest, e.queue = r :: rest → r.weave = w → r.port = p →
      ∃ t, Machine.exec (.leaseHandover sec kind i) s = .next t ∧ holds t ∧ (t.core.eng sec kind i).queue = rest) ∧
    (e.graceAt.isSome = true → e.holder = some (w, p) → e.queue = [] →
      ∃ t, Machine.exec (.graceEnd sec kind i) s = .next t ∧ (t.core.eng sec kind i).free = true ∧
        (t.core.eng sec kind i).jobs = [] ∧ (port t).ev = true ∧ (port t).g = false ∧ t.core.mem = s.core.mem)

/-- R87, R230, R231, R241: a launch word enters its queue and the rows that it will write count as not arrived; the head of a
queue starts once its wait is served and its ring lanes are free; a completed job signals and leaves; a repeat launches again, each
launch one cycle after the one before or, where it has waited for room, as an entry frees, and ends a cycle after its last (R88).
What a job writes and when, inside its duration, follows log 18. -/
def Obligations.JobsRun : Prop :=
  (∀ (s : State) (w id : Nat) (e : EngId) (j : Job), s.core.queueOf w id = some e → s.core.job? e id = some j →
    j.bypasses = false → (∀ x ∈ s.core.jobsOf e, x.id = id → x = j) →
    ∃ t k, Machine.exec (.launchWordEntry w id) s = .next t ∧ t.core.job? e id = some k ∧ t.core.mem = s.core.mem ∧
      k.cap.place = (s.core.weave w).place ∧ k.args = j.args ∧ k.entered = min j.entered s.now ∧
      (∀ r ∈ k.rows, t.core.rowArrived r = false) ∧ ⟨.cycle s.now, bMark, engRank e, .jobStart e⟩ ∈ t.core.agenda) ∧
  (∀ (s : State) (e : EngId) (j : Job) (rest : List Job), s.core.jobsOf e = j :: rest → j.started = none → j.entered ≤ s.now →
    (s.core.weave j.weave).dbg.halted = none → s.core.stopWaits e j = false → s.core.saveWaits e j = false → (∀ x ∈ rest, x.id ≠ j.id) →
    let sem := s.core.sem (engSector e) j.wait
    ((256 ≤ j.wait ∨ j.served = true) → ∀ ls, s.core.takeLanes (engSector e) j (s.core.startRings e j) [] = some ls →
      ∃ t, Machine.exec (.jobStart e) s = .next t ∧ t.core.jobsOf e = { j with started := some s.now, lanes := ls } :: rest ∧
        ⟨.cycle s.now, bAfter, engRank e, .jobStep e j.id⟩ ∈ t.core.agenda ∧ t.core.weaves = s.core.weaves ∧
        t.core.mem = s.core.mem) ∧
    (j.wait < 256 → j.served = false → sem.ab = false → (∀ z ∈ sem.waiters, ∀ u, z ≠ .job e u) →
      ∃ t, Machine.exec (.jobStart e) s = .next t ∧ .job e s.now ∈ (t.core.sem (engSector e) j.wait).waiters ∧
        t.core.jobsOf e = s.core.jobsOf e ∧ t.core.mem = s.core.mem)) ∧
  (∀ (s : State) (e : EngId) (id : Nat) (j : Job), s.core.job? e id = some j → j.suppress = false → j.sig < 256 → j.swaps = false →
    ∃ t, Machine.exec (.jobCompletion e id) s = .next t ∧ t.core.job? e id = none ∧ t.core.mem = s.core.mem ∧
      (t.core.sem (engSector e) j.sig).count = min ((s.core.sem (engSector e) j.sig).count + 1) (2 ^ 31 - 1)) ∧
  ∀ (s : State) (w p : Nat) (r : RepRun), ((s.core.weave w).ports.getD p Port.reset).rep = some r → p < (s.core.weave w).ports.length →
    (r.left = 0 → ∃ t, Machine.exec (.repLaunch w p) s = .next t ∧ ((t.core.weave w).ports.getD p Port.reset).rep = none ∧
      t.core.mem = s.core.mem) ∧
    (r.left ≠ 0 → queueRoom r.eng ≤ (s.core.jobsOf r.eng).length → ∃ t, Machine.exec (.repLaunch w p) s = .next t ∧
      t.core.weaves = s.core.weaves ∧ ⟨.cycle (s.now + 1), bIssue, w, .repLaunch w p⟩ ∈ t.core.agenda) ∧
    ((s.core.jobsOf r.eng).length < queueRoom r.eng → 2 ≤ r.left → (s.core.weave w).redun = false →
      (∀ k i, r.eng = .pool (engSector r.eng) k i → HasEngine s.core (engSector r.eng) k i) →
      let n := r.frame.length - 2
      let args := ((r.frame.take n).zip (List.range n)).map fun (x, i) => if r.mask.testBit i then x + r.steps.getD i 0 else x
      let wait := (r.frame.getD n 256).toNat
      let sig := (r.frame.getD (n + 1) 256).toNat
      ∀ cap rings, launchCheck p r.kind (r.word / 256) (r.word % 256) wait s.core w args = .ok cap rings none →
      ∃ t j, Machine.exec (.repLaunch w p) s = .next t ∧ j ∈ t.core.jobsOf r.eng ∧ t.core.mem = s.core.mem ∧
        (j.weave, j.port, j.kind, j.op, j.md, j.args, j.wait, j.sig) = (w, p, r.kind, r.word / 256, r.word % 256, args, wait, sig) ∧
        j.entered = max s.now (r.virt + 8) ∧ ⟨.cycle (s.now + 1), bIssue, w, .repLaunch w p⟩ ∈ t.core.agenda ∧
        ((((t.core.weave w).ports.getD p Port.reset).rep).map fun x => (x.left, x.frame.take n)) = some (r.left - 1, args))

/-! # The transform sequencer -/

namespace Sys2Proof.Claims
open Sys2Proof.Machine

/-- The instruction under way belongs to the running `tx.go` j of a TXS that the sector has, at an address below the last. -/
def Running (s : State) (j : Job) : Prop :=
  let (sec, u) := s.core.curTxs
  s.core.goJob sec u = some j ∧ u < (s.core.sector sec).txs.length ∧ (s.core.txsOf sec u).pc < 4095
/-- The TXS of the instruction, as it stands. -/
def txs (s : State) : Txs := s.core.txsOf s.core.curTxs.1 s.core.curTxs.2
/-- The instruction goes on at `pc` after n engine cycles, with the state that f gives; lanes, weaves and memory but for `mem`
are as they were (R287). -/
def TxsGoes (s t : State) (f : Txs → Txs) (pc n : Nat) (mem : List Host.Cell) : Prop :=
  let (sec, u) := s.core.curTxs
  let at_ := s.now + n * s.core.divOf (.pool sec 2 u)
  txs t = { f (txs s) with pc := pc, busyTo := at_ } ∧ ⟨.cycle at_, bEngine, 36 + u, .txs sec u⟩ ∈ t.core.agenda ∧
  t.core.mem = mem
/-- The program stops with a fault (R291). -/
def TxsStops (s t : State) (code : Nat) : Prop :=
  (txs t).state = 2 ∧ (txs t).fault = code ∧ t.core.goJob s.core.curTxs.1 s.core.curTxs.2 = none ∧ t.core.mem = s.core.mem

end Sys2Proof.Claims

/-- R285 to R288, R290: the control instructions of the TXS, with the faults of their entries. A `tsig` of a cancelled phase's job
signals nothing (R327). -/
def Sys2Proof.Claims.TransformControl : Prop :=
  ∀ (s : State) (j : Job) (n26 : BitVec 26) (g f : BitVec 3) (i20 : BitVec 20) (w : BitVec 5) (sem : BitVec 8) (target : BitVec 12),
    Running s j → (∀ x ∈ s.core.jobsOf (.pool s.core.curTxs.1 2 s.core.curTxs.2), x.id = j.id → x = j) →
    (∀ k ∈ s.core.jobsOf (.pool s.core.curTxs.1 2 s.core.curTxs.2), k.op = 1 → k.started.isSome = true → k = j) →
    let x := txs s
    let put (v : Word) (x : Txs) : Txs := { x with gens := (x.gens.zip (List.range x.gens.length)).map fun (y, m) =>
      if m ≠ g.toNat then y
      else if f = 0 then { y with base := v } else if f = 7 then { y with pitch := v }
      else { y with strides := y.strides.set (f.toNat - 1) v } }
    let goes (i : Instr) (f : Txs → Txs) (pc : Nat) : Prop :=
      ∃ t, Machine.exec i s = .next t ∧ TxsGoes s t f pc 1 s.core.mem ∧ t.core.weaves = s.core.weaves
    let stops (i : Instr) (code : Nat) : Prop := ∃ t, Machine.exec i s = .next t ∧ TxsStops s t code
    goes .tnop id (x.pc + 1) ∧
    (∀ (i : Instr) (n : Nat), (i, n) ∈ [(Instr.tloopCount n26, n26.toNat), (.tloopWord w, (x.words.getD w.toNat 0).toNat % 2 ^ 32)] →
      (0 < n → n < 2 ^ 26 → x.levels.length < 6 →
        goes i (fun x => { x with levels := x.levels ++ [(⟨x.pc + 1, n, 0⟩ : TxsLevel)] }) (x.pc + 1)) ∧
      (n = 0 ∨ 2 ^ 26 ≤ n ∨ 6 ≤ x.levels.length → stops i 3)) ∧
    (x.levels = [] → stops .tend 3) ∧
    (∀ ls l, x.levels = ls ++ [l] →
      (l.remaining ≤ 1 → goes .tend (fun x => { x with levels := ls }) (x.pc + 1)) ∧
      (1 < l.remaining → goes .tend (fun x => { x with levels := ls ++ [⟨l.start, l.remaining - 1, l.index + 1⟩] }) l.start)) ∧
    (f ≠ 0 → goes (.agenImm g f i20) (put (i20.signExtend 64)) (x.pc + 1)) ∧
    goes (.agenWord g f w) (put (x.words.getD w.toNat 0)) (x.pc + 1) ∧
    goes (.tjmp target) id target.toNat ∧
    (∃ t, Machine.exec (.tsig sem) s = .next t ∧ TxsGoes s t id (x.pc + 1) 1 s.core.mem ∧
      let (sec, u) := s.core.curTxs
      j.suppress = false → ⟨.cycle (s.now + s.core.divOf (.pool sec 2 u)), bEngine, 36 + u, .txsSignal sec u sem.toNat⟩ ∈ t.core.agenda) ∧
    (let (sec, u) := s.core.curTxs
     ((s.core.sem sec sem.toNat).ab = true → stops (.twait sem) 5) ∧
     ((s.core.sem sec sem.toNat).ab = false → ∃ t, Machine.exec (.twait sem) s = .next t ∧ t.core.mem = s.core.mem ∧
       .txs sec u s.now ∈ (t.core.sem sec sem.toNat).waiters ∧ txs t = txs s) ∧
     ∃ t, Machine.exec .thalt s = .next t ∧ txs t = { x with state := 0, busyTo := s.now } ∧ t.core.mem = s.core.mem ∧
       ⟨.cycle (s.now + s.core.divOf (.pool sec 2 u)), bEngine, engRank (.pool sec 2 u), .jobCompletion (.pool sec 2 u) j.id⟩ ∈
         t.core.agenda)

namespace Sys2Proof.Claims
open Sys2Proof.Machine

/-- An access of n bytes at (SP, L) is valid, and no blackout closes its rows. -/
def OpenTo (s : State) (j : Job) (sp : Nat) (l : Int) (n : Nat) : Prop :=
  s.core.txsReach j.weave sp l n = true ∧ ∀ x ∈ Core.txsSides j sp l.toNat n, s.core.sideClosed x = none
/-- Its rows have arrived as well. -/
def Arrived (s : State) (j : Job) (sp : Nat) (l : Int) (n : Nat) : Prop :=
  ∀ x ∈ Core.txsSides j sp l.toNat n, ∀ r ∈ s.core.sideRows x 0 8, s.core.rowArrived r = true

/-- No request of HBM, where spilled banks lie, is in error or poisoned (R351, R379, R380). -/
def CleanHbm (s : State) : Prop := s.core.hbmFlips = [] ∧ s.core.hbmPoison = []

end Sys2Proof.Claims

/-- R286, R289: `mov` copies, `movt` transposes an 8 by 8 block, `movc` converts, `pad` fills; each takes the cycles of its
entry, and 12 more with the paired store. -/
def Sys2Proof.Claims.TransformData : Prop :=
  ∀ (s : State) (j : Job) (d g f : BitVec 3) (z : BitVec 2) (w : BitVec 5) (n20 : BitVec 20) (n17 : BitVec 17) (r : BitVec 19),
    Running s j → Quiet s → CleanHbm s → s.core.pairDegraded (4 * s.core.curTxs.1) = false → (txs s).baseOk d.toNat = true →
    let x := txs s
    let (sp, l) := x.addr g.toNat
    let (sp', l') := x.addr d.toNat
    let late : Nat := if sp = 2 ∨ sp' = 2 then 12 else 0
    let up (a b : Nat) : Nat := (a + b - 1) / b
    (∀ (i : Instr) (n : Nat), (i, n) ∈ [(Instr.movLen d g n20, n20.toNat), (.movWord d g w, (x.words.getD w.toNat 0).toNat)] →
      0 < n → n % 8 = 0 → x.baseOk g.toNat = true → OpenTo s j sp l n → Arrived s j sp l n → OpenTo s j sp' l' n →
      ∃ t, Machine.exec i s = .next t ∧ TxsGoes s t id (x.pc + 1) (8 + up n 256 + late)
        (s.core.txsWrite j sp' l'.toNat (s.core.txsBytes j sp l.toNat n)).mem) ∧
    (let n := 2 ^ z.toNat
     let ps := (x.gens.getD g.toNat Agen.reset).pitch.toInt
     let pd := (x.gens.getD d.toNat Agen.reset).pitch.toInt
     x.baseOk g.toNat = true → (∀ i : Nat, i < 8 → OpenTo s j sp (l + i * ps) (8 * n) ∧ Arrived s j sp (l + i * ps) (8 * n) ∧
       OpenTo s j sp' (l' + i * pd) (8 * n)) →
     ∃ t, Machine.exec (.movt d g z) s = .next t ∧ TxsGoes s t id (x.pc + 1) (10 + late)
       ((List.range 8).foldl (fun c (k : Nat) => c.txsWrite j sp' (l' + k * pd).toNat
         ((List.range 8).flatMap fun (i : Nat) => ((s.core.txsBytes j sp (l + i * ps).toNat (8 * n)).drop (k * n)).take n)) s.core).mem) ∧
    (let fd := j.cap.fmts.getD f.toNat 0
     let k := 16 * n17.toNat
     let rd := fdEngineRnd fd
     ∀ (i : Instr) (src dst : Nat), (i, src, dst) ∈ [(Instr.movcSl d g f n17, fdSF fd, fdLF fd), (.movcLs d g f n17, fdLF fd, fdSF fd)] →
      0 < n17.toNat → x.baseOk g.toNat = true → fdValid fd = true → isBlock src = false → isBlock dst = false →
      let a := 2 * n17.toNat * codeWidth src
      let b := 2 * n17.toNat * codeWidth dst
      OpenTo s j sp l a → Arrived s j sp l a → OpenTo s j sp' l' b →
      ∃ t bs, Machine.exec i s = .next t ∧ TxsGoes s t id (x.pc + 1) (8 + up k 32 + late) (s.core.txsWrite j sp' l'.toNat bs).mem ∧
        bs.length = b ∧
        ∀ e, e < k → bytesNat bs / 2 ^ (codeWidth dst * e) % 2 ^ codeWidth dst =
          (cvtElem src dst rd.mode rd.sat false 0
            (bytesNat (s.core.txsBytes j sp l.toNat a) / 2 ^ (codeWidth src * e) % 2 ^ codeWidth src)).1 % 2 ^ codeWidth dst) ∧
    (let n := 8 * r.toNat
     0 < n → OpenTo s j sp' l' n → ∃ t, Machine.exec (.pad d w r) s = .next t ∧
      TxsGoes s t id (x.pc + 1) (2 + up n 256 + (if sp' = 2 then 12 else 0))
        (s.core.txsWrite j sp' l'.toNat ((List.range r.toNat).flatMap fun _ => natBytes 8 (x.words.getD w.toNat 0).toNat)).mem)

/-- Stack words and launch words of engine ports. -/
def Obligations.StackAndLaunchWords : Prop :=
  StackWords ∧ LaunchWords

/-- Leases: their words and their course. -/
def Obligations.Leases : Prop :=
  LeaseWords ∧ LeasesRunTheirCourse

/-- The transform sequencer. -/
def Obligations.TransformSequencer : Prop :=
  TransformControl ∧ TransformData

/-! # Errors, checkpoints, pre-emption, towers, tests -/

namespace Sys2Proof.Claims
open Sys2Proof.Machine

/-- An entry of kind `kind` has been appended to the log of its kind (R397): kinds 9 to 11 to the poison log, but the kind 10 of a
failed peer read, which R442 puts into the error log (log 64). -/
def Logged (c t : Core) (unit kind flags tag : Nat) (addr va : Word) : Prop :=
  let e := [BitVec.ofNat 64 (unit + kind * 2 ^ 32 + flags * 2 ^ 40 + tag * 2 ^ 48), addr, va, BitVec.ofNat 64 (c.now / Config.tickCycles)]
  if 9 ≤ kind ∧ kind ≤ 11 ∧ ¬(kind = 10 ∧ unit = 0xFFFFFFFF) then t.host.poisonLog = c.host.poisonLog.push e ∧ t.host.errLog = c.host.errLog
  else t.host.errLog = c.host.errLog.push e ∧ t.host.poisonLog = c.host.poisonLog

end Sys2Proof.Claims

/-- R373 to R375, R377, R380: a correctable verdict rebuilds the word, logs kind 1 and thaws the reader that waited for it alone; an
uncorrectable one without a reader logs kind 2 and poisons the row; patrols log what they find, and rebuild a flagged word; they do
nothing at a row or a request that is poisoned. An error of storage stands in the state as flipped bits, and memory holds what a reader
gets (logs 14 and 41); the tag of a corrected error's entry is the reader's context (log 29). -/
def Obligations.ArrayErrors : Prop :=
  (∀ (s : State) (id : Nat) (r : Recovery), s.core.recoveries = [r] → r.id = id →
    let u := (arrayOf r.row).2.2
    let inj := if r.injected then 2 else 0
    let at_ : Word := BitVec.ofNat 64 (arrayAddr r.row)
    (r.unc = false → (r.injected = true ∨ (∀ f ∈ s.core.flips, f.row = r.row) ∧ s.core.wordFlagged r.row = true ∧
        s.core.groupFails r.row = false) →
      ∃ t, Machine.exec (.recoveryVerdict id) s = .next t ∧ t.core.recoveries = [] ∧ t.core.mem = s.core.mem ∧
      (r.injected = false → t.core.wordFlagged r.row = false) ∧ t.core.poison = s.core.poison ∧ Logged s.core t.core (unitCode u) 1 inj (s.core.readerTag r) at_ 0 ∧
      ∀ w, r.weave = some w → (t.core.weave w).frozen = false ∧ (t.core.weave w).pc = (s.core.weave w).pc) ∧
    (r.unc = true → r.weave = none → r.job = none → ∃ t, Machine.exec (.recoveryVerdict id) s = .next t ∧
      t.core.recoveries = [] ∧ r.row ∈ t.core.poison ∧ Logged s.core t.core (unitCode u) 2 inj 0 at_ 0 ∧
      t.core.weaves = s.core.weaves)) ∧
  ∀ (s : State) (addr : Nat),
    let row := rowAddr addr
    let u := unitCode (arrayOf row).2.2
    let at_ : Word := BitVec.ofNat 64 (arrayAddr row)
    let r := addr / 64 * 64
    let hbm := unitCode ⟨7, 0xFF, hbmStack r⟩
    (row ∈ s.core.poison ∨ s.core.unpowered = true → ∀ f, Machine.exec (.patrol addr f) s = .next s) ∧
    (r ∈ s.core.hbmPoison → ∀ f, Machine.exec (.hbmPatrol addr f) s = .next s) ∧
    (row ∉ s.core.poison → s.core.unpowered = false → s.core.wordFlagged row = true → s.core.groupFails row = false → ∀ f, ∃ t, Machine.exec (.patrol addr f) s = .next t ∧
      t.core.wordFlagged row = false ∧ Logged s.core t.core u 1 16 0 at_ 0 ∧ t.core.poison = s.core.poison) ∧
    (s.core.flips = [] → s.core.parityFlips = [] → Machine.exec (.patrol addr .clean) s = .next s) ∧
    (row ∉ s.core.poison → s.core.unpowered = false → s.core.flips = [] → s.core.parityFlips = [] → ∀ f ∈ [PatrolFind.corrected, .parityRow], ∃ t, Machine.exec (.patrol addr f) s = .next t ∧
      Logged s.core t.core u 1 16 0 at_ 0 ∧ t.core.mem = s.core.mem ∧ t.core.poison = s.core.poison) ∧
    (row ∉ s.core.poison → s.core.unpowered = false → s.core.flips = [] → s.core.parityFlips = [] →
      ∃ t, Machine.exec (.patrol addr .uncorrectable) s = .next t ∧ Logged s.core t.core u 2 16 0 at_ 0 ∧ row ∈ t.core.poison ∧
      t.core.weaves = s.core.weaves) ∧
    (mget? s.core.hbmFlips r = none → r ∉ s.core.hbmPoison → ∃ t, Machine.exec (.hbmPatrol addr .corrected) s = .next t ∧ Logged s.core t.core hbm 9 16 0 (BitVec.ofNat 64 r) 0 ∧
      t.core.mem = s.core.mem ∧ t.core.hbmPoison = s.core.hbmPoison) ∧
    (mget? s.core.hbmFlips r = none → r ∉ s.core.hbmPoison → ∃ t, Machine.exec (.hbmPatrol addr .uncorrectable) s = .next t ∧ Logged s.core t.core hbm 10 16 0 (BitVec.ofNat 64 r) 0 ∧
      t.core.mem = s.core.mem ∧ r ∈ t.core.hbmPoison)

/-- R27, R326, R327, R329: cancelling a phase that nothing refuses puts back what the checkpoint holds, discards the phase's
buffered stores and sets CONTAINED; its bundle issues again at the re-run. R387: equal hashes at a compare point start the pair
anew. An error in a vector register that the checkpoint does not hold stays (log 14). -/
def Obligations.CancelledPhases : Prop :=
  (∀ (c : Core) (w : Nat) (k : Checkpoint),
    let x := c.weave w
    let y := (c.restore w k).weave w
    y.pc = BitVec.ofNat 14 k.pc ∧ y.loops = k.loops ∧ y.s = k.s ∧ y.k = k.k ∧ y.fcsr = k.fcsr ∧ y.fmtsel = k.fmtsel ∧
    y.place = k.place ∧ y.handles = k.handles ∧ y.contained = true ∧ y.buf = [] ∧ y.gbuf = [] ∧ y.flight = [] ∧ y.phaseno = x.phaseno ∧
    y.badRegs = x.badRegs.filter (fun b => b.1 == .v && !bitAt k.chkmask.toNat b.2.1) ∧
    (∀ r l, l < 128 → r < 32 → bitAt k.chkmask.toNat r = false → (∀ p ∈ k.v, bitAt k.chkmask.toNat (p.1 / 128) = true) →
      mget? y.v (vKey r l) = mget? x.v (vKey r l)) ∧
    (c.restore w k).mem = c.mem ∧ ∀ v, v ≠ w → ((c.restore w k).weave v).s = (c.weave v).s ∧ ((c.restore w k).weave v).pc = (c.weave v).pc) ∧
  (∀ (c : Core) (w : Nat), let x := c.weave w
    x.contained = false → x.preempted = false → x.atom = false → x.consumed = [] →
    ∀ k, x.ckpt = some k → k.parityBad = false → c.refusal w = none) ∧
  (∀ (c : Core) (w : Nat), (c.weave w).contained = true → c.refusal w = some 1) ∧
  (∀ (s : State) (w : Nat) (ids : List Nat) (k : Checkpoint), (s.core.weave w).rerun = some ids → (s.core.weave w).ckpt = some k →
    (s.core.weave w).redun = false →
    ∃ t, Machine.exec (.phaseRerun w) s = .next t ∧ (t.core.weave w).rerun = none ∧ (t.core.weave w).fixedAt = some s.now ∧
      ⟨.cycle s.now, bIssue, w, .issue w⟩ ∈ t.core.agenda ∧ t.core.mem = s.core.mem ∧
      (t.core.weave w).pc = (s.core.weave w).pc ∧ (t.core.weave w).s = (s.core.weave w).s) ∧
  ∀ (s : State) (w : Nat), (s.core.weave w).red.point.isSome = true → (s.core.weave w).injecting = false →
    (s.core.weave (w + 1)).injecting = false → (s.core.weave w).red.hash = (s.core.weave (w + 1)).red.hash →
    (s.core.weave w).red.reach = .no → (s.core.weave w).red.held = [] → (s.core.weave w).red.mark = false →
    ∃ t, Machine.exec (.comparePoint w) s = .next t ∧
      (t.core.weave w).red = { Redundancy.reset with compared := (s.core.weave w).red.compared } ∧
      (t.core.weave (w + 1)).red = Redundancy.reset ∧ t.core.mem = s.core.mem ∧ t.core.agenda = s.core.agenda

/-- R332, R333: a launch whose weaves have all parked or halted, and whose save list is good, is saved, and its sectors go free;
a landing that is late, or a bad list, ends the launch in error; a resumed launch has its regions back, once
the images and the save area have been read (log 62). The layout of the save area is log 21. -/
def Obligations.PreemptedLaunches : Prop :=
  (∀ (s : State) (n : Nat) (l : Launch) (c : Core), s.core.launches = [(n, l)] → l.ended = false → l.parked ≠ [] → l.savedTo = none →
    (∀ w ∈ l.weaves, l.halted.contains w = true ∨ l.parked.contains w = true) → s.core.jobsDone n l = true →
    s.core.badEntry l.parked = none → l.overrun = false → s.core.gauzeMoving l.weaves = false → s.core.flips = [] →
    s.core.poison = [] → (∀ p ∈ s.core.weaves, p.2.injecting = false) →
    let va := s.core.saveBase l.ctx
    let ws := s.core.saveWords l
    8 * ws.length ≤ ((s.core.ctx l.ctx).words.getD 4 0).toNat + ((s.core.ctx l.ctx).words.getD 5 0).toNat - va →
    s.core.writeWords l.ctx va ws = (true, c) →
    ∃ t, Machine.exec (.preemptSave n) s = .next t ∧ t.core.mem = c.mem ∧
      ((t.core.launch? n).map fun l => (l.savedTo, l.savedLen, l.sectors, l.started)) = some (some va, 8 * ws.length, [], none) ∧
      n ∈ (t.core.queue l.queue).parked ∧ ∀ k ∈ l.sectors, (t.core.sector k).launch = none) ∧
  (∀ (s : State) (n : Nat) (l : Launch), s.core.launches = [(n, l)] → l.ended = false → l.preempting.isSome = true → l.savedTo = none →
    ((∀ w ∈ l.weaves, l.halted.contains w = true ∨ (s.core.weave w).preempt = false) →
      Machine.exec (.preemptLandingTimeout n) s = .next s) ∧
    (∀ w ∈ l.weaves, l.halted.contains w = false → (s.core.weave w).preempt = true → l.sectors ≠ [] → l.node = none →
      (∀ v ∈ l.weaves, (s.core.weave v).launch = some n) →
      ∃ t, Machine.exec (.preemptLandingTimeout n) s = .next t ∧ t.core.mem = s.core.mem ∧
        ((t.core.launch? n).map fun l => (l.ended, l.fatal)) = some (true, true) ∧
        ∀ v ∈ l.weaves, (t.core.weave v).running = false)) ∧
  ∀ (s : State) (n va : Nat) (l : Launch), s.core.launch? n = some l → l.savedTo = some va →
    let r := s.core.withPeer (.launchResume n) fun c =>
      let (im, c) := c.readImages l.ctx l.record
      let (ws, c) := c.readWords l.ctx va (l.savedLen / 8)
      ((im, ws), c)
    (r.1 = none → Machine.exec (.launchResume n) s = .next { s with core := r.2 }) ∧
    ∀ (im : Images) (ws : List Word), r.1 = some (.ok im, some ws) → r.2.launch? n = some l → ∃ t, Machine.exec (.launchResume n) s = .next t ∧
      ((t.core.launch? n).map fun x => (x.resumed, x.savedTo, x.parked, x.regions)) = some (true, none, [], im.dbuf.map dbufOf)

/-- R343 to R345, R350, R351, R356, R357: refreshes and their blackouts; banks move, commit and return, and a bank that can move
nowhere leaves the governor its clock step; a spare bus takes over. A bank that spills when its mark is cleared returns after it has
spilled, and the access tables admit the spill's writes (log 58). -/
def Obligations.TowersMoveAndRefresh : Prop :=
  (∀ (s : State) (w : Nat),
    (∃ t, Machine.exec (.refresh w) s = .next t ∧ t.core.mem = s.core.mem ∧ t.core.weaves = s.core.weaves ∧
      t.core.refreshOf w = ⟨s.core.tick, 0, s.now + 64⟩ ∧
      ⟨.cycle (s.now + 64), bLand, w, .refreshBlackoutEnd w⟩ ∈ t.core.agenda ∧ ∀ v, v ≠ w → t.core.refreshOf v = s.core.refreshOf v) ∧
    (∃ t, Machine.exec (.refreshBlackoutEnd w) s = .next t ∧ t.core.mem = s.core.mem ∧ t.core.weaves = s.core.weaves ∧
      t.core.refreshOf w = { s.core.refreshOf w with blackoutEnd := 0 })) ∧
  (∀ (s : State) (w cell bank : Nat), s.core.unpowered = false →
    let key := s.core.towerKey w cell
    let t0 := s.core.tower key
    let other := s.core.towerKey (4 * partner (secOf w) + w % 4) cell
    let free (b : Nat) : Bool := !s.core.covered (partner (secOf w)) other b && !s.core.bankShort other b && !s.core.bankOccupied other b
    let pair := secOf w % 80
    (mget? t0.evac bank = none → mget? t0.spilled bank = none → mget? t0.moving bank = none →
      (s.core.evacuated pair).length + s.core.evacuating pair < 4 * s.core.busesLeft pair → s.core.swapTouches key bank = false →
      ∀ b, ((List.range 15).map (· + 1)).find? free = some b →
      ∃ t, Machine.exec (.bankEvacuation w cell bank) s = .next t ∧ t.core.mem = s.core.mem ∧
        mget? (t.core.tower key).moving bank = some ⟨w, cell, .evacuate, ⟨other, b, s.core.verCtr⟩, false, [], false⟩) ∧
    (mget? t0.evac bank = none → mget? t0.spilled bank = none → mget? t0.moving bank = none →
      (4 * s.core.busesLeft pair ≤ (s.core.evacuated pair).length + s.core.evacuating pair ∨
        (s.core.swapTouches key bank = false ∧ ∀ b, 1 ≤ b → b < 16 → free b = false)) →
      Machine.exec (.bankEvacuation w cell bank) s = .next { s with core := s.core.governorLower }) ∧
    (∀ m, mget? t0.moving bank = some m → m.kind = .evacuate → s.core.swapTouches key bank = false →
      -- the launches that reference the bank are notified (R473)
      ((m.copied = true ∧ m.waits = []) ∨ (m.copied = false ∧ s.core.timedRefs key bank = [])) →
      ∃ t, Machine.exec (.evacuationCommit w cell bank) s = .next t ∧ mget? (t.core.tower key).moving bank = none ∧
        mget? (t.core.tower key).evac bank = some m.target ∧
        (∀ v, (t.core.weave v).pc = (s.core.weave v).pc ∧ (t.core.weave v).s = (s.core.weave v).s ∧ (t.core.weave v).v = (s.core.weave v).v) ∧
        ∀ p ∈ s.core.references key bank, ∀ v ∈ p.2.weaves, s.core.launch? p.1 = some p.2 → (t.core.weave v).throttle.isSome = true) ∧
    (∀ m x, mget? t0.moving bank = some m → m.kind = .spill → mget? t0.evac bank = some x → s.core.swapTouches key bank = false →
      m.copied = true → m.waits = [] → m.back = false → s.core.admits 0x40 m.target.seq (2 ^ 20) true = true →
      ∃ t, Machine.exec (.spillCommit w cell bank) s = .next t ∧ mget? (t.core.tower key).moving bank = none ∧
        mget? (t.core.tower key).evac bank = none ∧ mget? (t.core.tower key).spilled bank = some m.target.seq) ∧
    (∀ m, mget? t0.moving bank = some m → m.kind = .evacuate →
      ∃ t, Machine.exec (.bankReturn w cell bank) s = .next t ∧ mget? (t.core.tower key).moving bank = none ∧ t.core.mem = s.core.mem) ∧
    (∀ m, mget? t0.moving bank = some m → m.kind ≠ .evacuate →
      ∃ t, Machine.exec (.bankReturn w cell bank) s = .next t ∧ mget? (t.core.tower key).moving bank = some { m with back := m.kind == .spill } ∧
        t.core.mem = s.core.mem) ∧
    (mget? t0.moving bank = none → ((mget? t0.evac bank).isSome = true ∨ (mget? t0.spilled bank).isSome = true) →
      ∃ t, Machine.exec (.bankReturn w cell bank) s = .next t ∧ t.core.mem = s.core.mem ∧
        ((mget? (t.core.tower key).moving bank).map (·.kind)) = some .return)) ∧
  ∀ (s : State) (pair bus : Nat), (s.core.busMap pair).contains bus = true → 2 ≤ (s.core.healthOf (busUnit pair bus)).state →
    (s.core.evacuated pair) = [] →
    let spare := (List.range 18).find? fun b => !(s.core.busMap pair).contains b && (s.core.healthOf (busUnit pair b)).state < 2
    ∃ t, Machine.exec (.busSpareTakeover pair bus) s = .next t ∧ t.core.mem = s.core.mem ∧
      t.core.busMap pair = (s.core.busMap pair).map (fun b => if b = bus then spare.getD 0x1F else b) ∧
      ∀ p, p ≠ pair → t.core.busMap p = s.core.busMap p

/-- R390 to R396: a field test starts on a unit that may be tested and that comes first; its signature passes or fails the unit;
an overdue test, a margin below 0 and an end-of-life estimate are recorded; R483 gives the entry that the first fall below 6 months
logs. A margin below 0 of a tower is taken as a retention below 10 s (log 29). -/
def Obligations.FieldTestsAndMonitors : Prop :=
  ∀ (s : State) (u : UnitName) (sig : BitVec 32) (m : BitVec 16),
    let n := unitCode u
    let h := s.core.healthOf n
    let sec := s.core.wall / Config.secUnits
    (s.core.testable u = true → (∀ v ∈ testUnitsOf, s.core.testable v = true → s.core.testsBefore v u = false) →
      ∃ t, Machine.exec (.fieldTestStart u) s = .next t ∧ t.core.tests = s.core.tests ++ [⟨u, s.core.wall + testUnits u⟩] ∧
        t.core.mem = s.core.mem ∧ t.core.weaves = s.core.weaves) ∧
    ((∃ x ∈ s.core.tests, x.unit = u ∧ x.endsAt ≤ s.core.wall) →
      (sig = Config.testSignature s.core.host.record.content n → ∃ t, Machine.exec (.fieldTestCompletion u sig) s = .next t ∧ t.core.mem = s.core.mem ∧
        t.core.tests = s.core.tests.filter (fun x => x.unit != u) ∧ t.core.healthOf n = { h with
          sig := sig.toNat, ltime := sec, overdue := false, lastFail := false, pass := min 0xFFFF (h.pass + 1)
          state := if h.state = 1 then 0 else h.state }) ∧
      (sig ≠ Config.testSignature s.core.host.record.content n → h.lastFail = false → ∃ t, Machine.exec (.fieldTestCompletion u sig) s = .next t ∧
        t.core.mem = s.core.mem ∧ Logged s.core t.core n 7 0 0 0 0 ∧ t.core.healthOf n = { h with
          sig := sig.toNat, ltime := sec, overdue := false, lastFail := true, fail := min 0xFFFF (h.fail + 1), state := max h.state 1 })) ∧
    (86400 ≤ sec - h.ltime → ∃ t, Machine.exec (.testOverdue u) s = .next t ∧ t.core.mem = s.core.mem ∧
      t.core.healthOf n = { h with overdue := true }) ∧
    (u.type = 6 ∨ u.type = 7 → Machine.exec (.monitorSample u m) s = .next s) ∧
    (u.type ≠ 6 → u.type ≠ 7 → m.getLsbD 15 = false → ∃ t, Machine.exec (.monitorSample u m) s = .next t ∧ t.core.mem = s.core.mem ∧
      t.core.healthOf n = { h with margin := m.toNat } ∧ t.core.power = s.core.power) ∧
    (m.getLsbD 15 = true → u.type = 1 → ∃ t, Machine.exec (.monitorSample u m) s = .next t ∧
      t.core.healthOf n = { h with margin := m.toNat, state := max h.state 1 }) ∧
    (m.getLsbD 15 = true → u.type ≠ 1 → u.type ≠ 6 → u.type ≠ 7 → ∃ t, Machine.exec (.monitorSample u m) s = .next t ∧
      t.core.power.pendStep.isSome = true ∧ t.core.clockStep = s.core.clockStep) ∧
    (let low := m.toNat < 6 ∧ h.eolSeen = false
     ∃ t, Machine.exec (.eolRecompute u m) s = .next t ∧ t.core.mem = s.core.mem ∧
      t.core.healthOf n = { h with eol := m.toNat, eolSeen := h.eolSeen || decide (m.toNat < 6) } ∧
      (low → Logged s.core t.core n 7 0 0 0 0) ∧ (¬ low → t.core.host = s.core.host))

/-! # The command processor -/

namespace Sys2Proof.Claims
open Sys2Proof.Machine

/-- The row's command stands in its queue with index idx, and the queue offers it, in the machine `c` (R404, R405). -/
def Stands (s : State) (q kind : Nat) (num : BitVec 12) (ord : Bool) (addr value : Word) (c : Core) (idx : Nat) : Prop :=
  s.core.putCommand q kind num.toNat ord addr value = (c, idx) ∧ (c.heads q).contains (.cmd idx) = true ∧
  ∃ m, (c.queue q).cmds.find? (fun m => m.idx == idx) = some m ∧ m.kind = kind ∧ m.num = num.toNat ∧ m.addr = addr.toNat ∧ m.value = value
/-- The queue's command with index idx has completed, or is gone. -/
def Gone (c : Core) (q idx : Nat) : Prop := ∀ m ∈ (c.queue q).cmds, m.idx ≠ idx
/-- Launch n stands placed at the blocks `bases`: its sectors are its own, and each is being initialised (R413, R414). -/
def Placed (c : Core) (n : Nat) (l : Launch) (bases : List Nat) : Prop :=
  ((c.launch? n).map fun x => (x.sectors, x.blocks, x.started)) = some (launchSectors l.record bases, bases, none) ∧
  ∀ k ∈ launchSectors l.record bases, (c.sector k).launch = some n ∧ (c.sector k).owner = some l.ctx ∧
    ∃ e ∈ c.agenda, e.act = .launchReady n k
/-- In `c`, launch n is fetched, not preloaded, finds a place and its images read. -/
def Placeable (c : Core) (q n : Nat) (l : Launch) (bases : List Nat) : Prop :=
  (c.sectors.any fun p => p.2.preloaded == some n) = false ∧ c.launch? n = some l ∧ c.findPlace n l.ctx l.record [] = some bases ∧
  ∃ d, ((c.modL n fun l => { l with prio := (c.queue q).prio }).takeSectors n bases).initNow n false none = (some true, d)
/-- The record of head h of queue q has been read, and the launch fetched, as `c1` then stands: launch n (R411; log 62). -/
def Fetched (c : Core) (q : Nat) (h : Head) (n : Nat) (c1 : Core) : Prop :=
  c.withPeer (h.fetch q) (fun c => c.headLaunch q h) = (some (some n), c1)
/-- No word that operation `op` has asked a peer module for is still awaited (log 62). -/
def Answered (c : Core) (op : Act) : Prop := ∀ y ∈ c.cpWords, y.op = op → y.val.isSome = true
/-- Node `node` of graph g of queue q is offered, is of the kind, and the graph's run is x. -/
def Offered (c : Core) (q node kind g : Nat) (x : GraphRun) : Prop :=
  c.graphAt q node kind 1 = some g ∧ c.graph? g = some x ∧ x.failed = none
/-- The state of a node. -/
def nodeSt (c : Core) (g node : Nat) : Option Nat := (c.graph? g).map fun x => x.st node

end Sys2Proof.Claims

/-- R404, R407, R413, R424: the commands of a queue. LAUNCH takes the sectors of the place it finds; GRAPH starts the run of a
good descriptor, whose nodes without predecessors are offered; WAIT ends once its event word has reached VALUE and is looked at
again within 1 µs until then; SIGNAL adds VALUE to its event word.
Readings of the queue are log 20, free times log 9; words of peer pages log 62. -/
def Obligations.Commands : Prop :=
  ∀ (s : State) (q : Nat) (num : BitVec 12) (ord : Bool) (addr value : Word) (c : Core) (idx : Nat),
    (Stands s q 1 num ord addr value c idx → ∀ c1 n l bases, Fetched c q (.cmd idx) n c1 → Placeable c1 q n l bases →
      ∃ t, Machine.exec (.launch q num ord addr value) s = .next t ∧ Placed t.core n l bases) ∧
    (Stands s q 2 num ord addr value c idx → num.toNat ≤ 255 →
      let ctx := c.ctxOfQueue q
      let op := Head.fetch q (.cmd idx)
      ∀ va c1 h c2 ws c3, ({ c with cpOp := some op } : Core).readWord ctx (((c.ctx ctx).words.getD 3 0).toNat + 8 * num.toNat) = (some va, c1) → va ≠ 0 →
        c1.readWord ctx va.toNat = (some h, c2) → c2.readWords ctx (va.toNat + 16) (4 * h.toNat) = (some ws, c3) → Answered c3 op →
        let ns := (List.range h.toNat).map fun i => (ws.drop (4 * i)).take 4
        graphOk h ns = true →
        ∃ t g x, Machine.exec (.graph q num ord addr value) s = .next t ∧ t.core.graph? g = some x ∧
          (x.queue, x.cmd, x.va, x.nodes, x.failed) = (q, idx, va.toNat, ns, none) ∧ t.core.mem = c3.mem ∧
          ∀ i, i < ns.length → x.st i = if nodePreds ns i = [] ∧ enclosing ns i = none then 1 else 0) ∧
    (Stands s q 3 num ord addr value c idx →
      let b := c.beginHead q (.cmd idx)
      let look := b.withPeer (.eventWordPoll q idx) fun c => c.eventReached (c.ctxOfQueue q) addr.toNat value
      (∀ c1, look = (some (some true), c1) →
        ∃ t, Machine.exec (.wait q num ord addr value) s = .next t ∧ Gone t.core q idx ∧ t.core.mem = c1.mem) ∧
      (∀ c1, look = (some (some false), c1) →
        ∃ t T, Machine.exec (.wait q num ord addr value) s = .next t ∧ t.core.mem = c1.mem ∧ T ≤ c1.wall + Config.usUnits ∧
          ⟨.wall T, bCp, q, .eventWordPoll q idx⟩ ∈ t.core.agenda ∧ (c1.queues = b.queues → ¬ Gone t.core q idx))) ∧
    (Stands s q 4 num ord addr value c idx →
      let b := c.beginHead q (.cmd idx)
      ∀ c1, (b.withPeer (.signalCmd q idx) fun c => (c.eventAdd (c.ctxOfQueue q) addr.toNat value).swap) = (some true, c1) →
        ∃ t, Machine.exec (.signal q num ord addr value) s = .next t ∧ Gone t.core q idx ∧ t.core.mem = c1.mem)

/-- R404, R406, R419, R420: the timers and decisions of the queues. A head that has been eligible for 1 ms has priority 8.
Readings of the queue are log 20; words of peer pages log 62. -/
def Obligations.QueueTimers : Prop :=
  (∀ (s : State) (q idx : Nat) (m : Command), (s.core.queue q).cmds.find? (fun m => m.idx == idx && m.kind == 3 && m.began) = some m →
    let look := s.core.withPeer (.eventWordPoll q idx) fun c => c.eventReached (c.ctxOfQueue q) m.addr m.value
    (∀ c, look = (some (some true), c) →
      ∃ t, Machine.exec (.eventWordPoll q idx) s = .next t ∧ Gone t.core q idx ∧ t.core.mem = c.mem) ∧
    (∀ c, look = (some (some false), c) →
      ∃ t T, Machine.exec (.eventWordPoll q idx) s = .next t ∧ t.core.queues = c.queues ∧ c.wall < T ∧ T ≤ c.wall + Config.usUnits ∧
        t.core.agenda = c.agenda ++ [⟨.wall T, bCp, q, .eventWordPoll q idx⟩])) ∧
  (∀ (s : State) (q : Nat) (h : Head), h ∈ s.core.heads q → s.core.headSince q h + Config.msUnits ≤ s.core.wall →
    ∃ t, Machine.exec (.headPromotion q) s = .next t ∧ t.core.level q h = 8 ∧ t.core.queues = s.core.queues ∧
      (∃ e ∈ t.core.agenda, e.act = .dispatch ∧ e.due = .cycle s.now) ∧ t.core.mem = s.core.mem ∧ t.core.weaves = s.core.weaves) ∧
  (∀ (s : State) (q : Nat) (h : Head) (c : Core), s.core.tendQueues.pickHead [] = some (q, h) →
    s.core.tendQueues.serveHead q h false = (c, true) →
    (∀ p ∈ s.core.tendQueues.queues.map (·.1), ∀ x ∈ s.core.tendQueues.heads p, s.core.tendQueues.level p x ≤ s.core.tendQueues.level q h) ∧
    ∃ t, Machine.exec .dispatch s = .next t ∧ t.core.mem = c.mem ∧ t.core.weaves = c.weaves ∧ t.core.launches = c.launches ∧
      t.core.graphs = c.graphs ∧ t.core.lastServed = q) ∧
  (∀ (s : State) (n : Nat) (l : Launch), s.core.launch? n = some l → l.started.isSome = true → l.ended = false →
    (recPre l.record = false → ∃ t, Machine.exec (.tlimitOverrun n) s = .next t ∧ t.core.launch? n = some { l with overrun := true } ∧
      (l.savedTo = none → t.core.ovr l.queue = true) ∧ t.core.weaves = s.core.weaves ∧ t.core.agenda = s.core.agenda) ∧
    (recPre l.record = true → l.preempting = none → ∃ t, Machine.exec (.tlimitOverrun n) s = .next t ∧
      t.core.launch? n = some { l with overrun := true, preempting := some s.core.now } ∧ (l.savedTo = none → t.core.ovr l.queue = true) ∧
      (∀ w, (t.core.weave w).preempt = ((s.core.weave w).preempt || (l.weaves.contains w && !l.halted.contains w))) ∧
      ⟨.wall (s.core.wall + 10 * Config.msUnits), bCp, n, .preemptLandingTimeout n⟩ ∈ t.core.agenda)) ∧
  ∀ (s : State) (q n idx m : Nat) (l next : Launch) (x y : Command) (r : List Word) (im : Images) (c0 c1 c2 : Core),
    s.core.launches = [(n, l)] → l.queue = q → l.started.isSome = true → l.ended = false → l.savedTo = none → l.preempting = none →
    l.node = none → s.core.preloadOn l = none → s.core.serves q = true →
    ((s.core.queue q).cmds.dropWhile fun z => z.idx != l.cmd).take 2 = [x, y] → y.idx = idx → y.kind = 1 → y.ord = true →
    y.began = false → (s.core.queue q).cmds.find? (fun z => z.idx == idx) = some y →
    let op : Act := .preload q
    ({ s.core with cpOp := some op } : Core).readWords l.ctx (s.core.fieldVa l.ctx y.num 0) 64 = (some r, c0) → sameShape r l.record = true →
    c0.recordErr l.ctx r = none → c0.admitsLaunch l.ctx r l.sectors [n] = true → c0.readImages l.ctx r = (.ok im, c1) →
    c1.headLaunch q (.cmd idx) = (some m, c2) → Answered c2 op → c2.launch? m = some next → next.sectors = [] → m ≠ n →
    ∃ t, Machine.exec (.preload q) s = .next t ∧ (∀ k ∈ l.sectors, (t.core.sector k).preloaded = some m) ∧
      t.core.launch? m = some { next with pairs := l.pairs } ∧ t.core.queues = c2.queues ∧
      ∀ w, (t.core.weave w).pc = (c2.weave w).pc ∧ (t.core.weave w).bank = (c2.weave w).bank ∧ (t.core.weave w).s = (c2.weave w).s

/-- R416, R418: a launch starts on the sectors that are initialised, a timed one on all of them at cycle 128 of the next tick;
once all its weaves have halted it completes: its event words are written, its command is gone and its sectors go free.
Times the manual does not fix are free (logs 8, 9). -/
def Obligations.LaunchesStartAndComplete : Prop :=
  (∀ (s : State) (n : Nat) (l : Launch), s.core.launch? n = some l → l.ready ≠ [] → l.ended = false →
    let starts (t : State) (w at_ : Nat) : Prop := (t.core.weave w).running = true ∧ (t.core.weave w).pc = (s.core.weave w).pc ∧
      (t.core.weave w).s = (s.core.weave w).s ∧
      ((s.core.weave w).partner? = false → ⟨.cycle at_, bIssue, w, .issue w⟩ ∈ t.core.agenda)
    (l.timed = false → ∃ t, Machine.exec (.launchStart n) s = .next t ∧ t.core.mem = s.core.mem ∧
      (l.started = none → ((t.core.launch? n).map fun x => (x.started, x.ready)) = some (some s.now, [])) ∧
      (∀ w ∈ l.weaves, l.ready.contains (secOf w) = true → l.halted.contains w = false → starts t w s.now) ∧
      ∀ w, (w ∉ l.weaves ∨ l.ready.contains (secOf w) = false ∨ l.halted.contains w = true) → t.core.weave w = s.core.weave w) ∧
    (l.timed = true → l.sectors.all l.ready.contains = true →
      let at_ := (s.core.tick + 1) * Config.tickCycles + 128
      ∃ t, Machine.exec (.launchStart n) s = .next t ∧ t.core.mem = s.core.mem ∧
        (l.started = none → ((t.core.launch? n).map fun x => (x.started, x.startTick)) = some (some at_, s.core.tick + 1)) ∧
        ∀ w ∈ l.weaves, l.halted.contains w = false → starts t w at_)) ∧
  ∀ (s : State) (n : Nat) (l : Launch), s.core.launches = [(n, l)] → l.ended = false → l.started.isSome = true → l.savedTo = none →
    (∀ w ∈ l.weaves, l.halted.contains w = true) → l.parked = [] → s.core.jobsDone n l = true → l.node = none →
    -- its event words; a write raises the queue's source (R440)
    let event (c : Core) (va : Nat) (v : Word) : Core :=
      if va = 0 then c
      else
        let (c, ok) := c.eventAdd l.ctx va v
        if ok then c.raiseSource (66 + l.queue) else c
    ∀ c1, (s.core.withPeer (.launchCompletion n) fun c =>
      ((), event (event c (recNat l.record 27) (word (recNat l.record 28))) l.event l.evValue)) = (some (), c1) →
    c1.launches = [(n, l)] → c1.preloadOn l = none →
    ∃ t, Machine.exec (.launchCompletion n) s = .next t ∧ t.core.mem = c1.mem ∧ t.core.launches = [] ∧ Gone t.core l.queue l.cmd ∧
      (∀ k ∈ l.sectors, (t.core.sector k).launch = none ∧ (t.core.sector k).owner = none) ∧
      ∀ w ∈ l.weaves, (t.core.weave w).running = false ∧ (t.core.weave w).launch = none

/-- R12, R362, R408, R414: what initialisation leaves in a weave of a launch. -/
def Obligations.WeavesInitialise : Prop :=
  ∀ (c : Core) (n : Nat) (l : Launch) (im : Images) (bank : Bool) (w : Nat),
    let x := (c.initWeave n l im bank w).weave w
    let r := l.record
    x.pc = BitVec.ofNat 14 (recEntry r) ∧ x.bank = bank ∧ x.launch = some n ∧ x.loops = [] ∧ x.status = 0 ∧ x.fcsr = 0 ∧
    x.phaseno = 0 ∧ x.v = [] ∧ x.k = [] ∧ x.flight = [] ∧ x.ckpt = none ∧ x.events = [] ∧
    (∀ i : Nat, i < 32 → x.s[i]? = some (if i = 0 then 0 else if 16 ≤ i ∧ i < 24 then r.getD (14 + i) 0 else im.sregs.getD i 0)) ∧
    (∀ i : Nat, i < 64 → x.fmt[i]? = some ((im.fmts.getD (i / 2) 0 >>> (32 * (i % 2))).setWidth 32)) ∧
    (∀ i : Nat, i < 16 → (x.handles[i]?).map (fun h => (h.base, h.len, h.valid)) =
      some ((im.handles.getD (2 * i) 0).setWidth 56, (im.handles.getD (2 * i + 1) 0).setWidth 56, (im.handles.getD (2 * i) 0).getLsbD 56)) ∧
    x.tvec = r.getD 6 0 ∧ x.uevec = r.getD 7 0 ∧ x.fmtsel = r.getD 8 0 ∧ x.ueframe = r.getD 10 0 ∧ x.locbase = r.getD 11 0 ∧
    x.secbase = r.getD 12 0 ∧ x.pairbase = r.getD 13 0 ∧
    (x.mode.getLsbD 0 = recTimed r ∧ x.mode.getLsbD 3 = recRedun r ∧ x.mode.getLsbD 4 = (recRedun r && decide (w % 2 = 1))) ∧
    ∀ v, v ≠ w → ((c.initWeave n l im bank w).weave v).pc = (c.weave v).pc ∧ ((c.initWeave n l im bank w).weave v).s = (c.weave v).s

/-- R426, R427: the nodes of a graph. A kernel node's launch is placed; copies and fills begin once their
ranges walk and keep those translations; event
nodes wait and signal; a conditional runs its body or completes; a loop starts its first iteration or, tested, ends with none; after an
iteration it goes round while its word is not 0 and the cap allows.
Corners of event words are log 24, words of peer pages log 62. -/
def Obligations.GraphNodes : Prop :=
  ∀ (s : State) (q node g : Nat) (x : GraphRun),
    let ctx := s.core.ctxOfQueue x.queue
    let word_ (k : Nat) : Nat := nodeWord x.nodes node k
    -- the loop completes, and STATUS takes its iterations; `c` is the machine after the predicate's read
    let ends (c : Core) (t : State) (iters : Nat) (max : Bool) : Prop := nodeSt t.core g node = some 3 ∧
      ((t.core.graph? g).map fun y => (y.lastIters, y.loopMax)) = some (iters, x.loopMax || max) ∧
      t.core.mem = ((c.modG g fun y => { y with lastIters := iters, loopMax := y.loopMax || max }).putStatus g false).mem
    let top := enclosing x.nodes node = none
    (Offered s.core q node 1 g x → ∀ c n l bases, Fetched s.core q (.node g node) n c → Placeable c q n l bases →
      ∃ t, Machine.exec (.kernelNode q node) s = .next t ∧ Placed t.core n l bases ∧ nodeSt t.core g node = some 2) ∧
    (Offered s.core q node 2 g x → ∀ src dst c1 c2, s.core.rangeWalks ctx (word_ 1) (word_ 3) true false = (some src, c1) →
      c1.rangeWalks ctx (word_ 2) (word_ 3) false true = (some dst, c2) → c2.graphs = s.core.graphs →
      ∃ t e, Machine.exec (.copyNode q node) s = .next t ∧ nodeSt t.core g node = some 2 ∧ t.core.mem = c2.mem ∧
        ((t.core.graph? g).map fun y => mget y.pages node ([], [])) = some (src, dst) ∧
        t.core.agenda = c2.agenda ++ [e] ∧ e.act = .nodeStep g node) ∧
    (Offered s.core q node 3 g x → ∀ dst c, s.core.rangeWalks ctx (word_ 1) (word_ 3) false true = (some dst, c) → c.graphs = s.core.graphs →
      ∃ t e, Machine.exec (.fillNode q node) s = .next t ∧ nodeSt t.core g node = some 2 ∧ t.core.mem = c.mem ∧
        ((t.core.graph? g).map fun y => mget y.pages node ([], [])) = some ([], dst) ∧
        t.core.agenda = c.agenda ++ [e] ∧ e.act = .nodeStep g node) ∧
    (Offered s.core q node 4 g x → top → ∀ b c,
      ((s.core.setNode g node 2).withPeer (.nodeStep g node) fun c => c.eventReached ctx (word_ 1) (word (word_ 2))) = (some (some b), c) →
      c.graphs = (s.core.setNode g node 2).graphs →
      ∃ t, Machine.exec (.eventWaitNode q node) s = .next t ∧ t.core.mem = c.mem ∧
        nodeSt t.core g node = some (if b then 3 else 2) ∧
        (b = false → ∃ T, T ≤ c.wall + Config.usUnits ∧ ⟨.wall T, bCp, g, .nodeStep g node⟩ ∈ t.core.agenda)) ∧
    (Offered s.core q node 5 g x → top → ∀ c,
      ((s.core.setNode g node 2).withPeer (.nodeStep g node) fun c => (c.eventAdd ctx (word_ 1) (word (word_ 2))).swap) = (some true, c) →
      c.graphs = (s.core.setNode g node 2).graphs →
      ∃ t, Machine.exec (.eventSignalNode q node) s = .next t ∧ nodeSt t.core g node = some 3 ∧ t.core.mem = c.mem) ∧
    (Offered s.core q node 6 g x → top → ∀ b c, s.core.firstPredicate g node = (some (some b), c) → c.graphs = s.core.graphs →
      (∃ k, inBody x.nodes node k = true ∧ k < x.nodes.length) →
      ∃ t, Machine.exec (.conditionalNode q node) s = .next t ∧ t.core.mem = c.mem ∧
        nodeSt t.core g node = some (if b then 2 else 3)) ∧
    (Offered s.core q node 7 g x → top → (∃ k, inBody x.nodes node k = true ∧ k < x.nodes.length) →
      (nodeTest x.nodes node = false → ∃ t, Machine.exec (.loopNode q node) s = .next t ∧ nodeSt t.core g node = some 2 ∧
        ((t.core.graph? g).map fun y => mget y.iters node 0) = some 0) ∧
      (nodeTest x.nodes node = true → ∀ b c,
        (s.core.modG g fun x => { x with iters := mdel x.iters node }).firstPredicate g node = (some (some b), c) →
        c.graphs = (s.core.modG g fun x => { x with iters := mdel x.iters node }).graphs →
        ∃ t, Machine.exec (.loopNode q node) s = .next t ∧ (b = true → t.core.mem = c.mem ∧ nodeSt t.core g node = some 2) ∧
          (b = false → ends c t 0 false))) ∧
    (s.core.graphAt q node 7 2 = some g → s.core.graph? g = some x → x.failed = none → top →
      (∃ k, inBody x.nodes node k = true ∧ k < x.nodes.length) → (childrenOf x.nodes node).all (fun k => x.st k == 3) = true →
      let n := mget x.iters node 0 + 1
      ∀ b c, (s.core.withPeer (.loopPredicateRead q node) fun c => c.predicate g node) = (some (some b), c) → c.graphs = s.core.graphs →
        let c0 := c.modG g fun x => { x with iters := mset x.iters node n }
        ∃ t, Machine.exec (.loopPredicateRead q node) s = .next t ∧
          (b = true → n < nodeArg x.nodes node → t.core.mem = c.mem ∧ nodeSt t.core g node = some 2) ∧
          (b = true → nodeArg x.nodes node ≤ n → ends c0 t n true) ∧ (b = false → ends c0 t n false)) ∧
    (s.core.graphs = [(g, x)] → x.queue = q → x.failed = none →
      (∀ k, k < x.nodes.length → enclosing x.nodes k = none → x.st k = 3) →
      ∀ c, s.core.writeWord ctx (x.va + 8) (x.status true) = (true, c) → c.graphs = s.core.graphs →
        ∃ t, Machine.exec (.graphCompletion q) s = .next t ∧ t.core.graphs = [] ∧ Gone t.core q x.cmd ∧ t.core.mem = c.mem)

/-! # The host link -/

namespace Sys2Proof.Claims
open Sys2Proof.Machine

/-- The module has sent `xs`, and nothing else has changed. -/
def Sends (s t : State) (xs : List Sent) : Prop := t = { s with core := { s.core with outbox := s.core.outbox ++ xs } }
/-- Only the fields that f puts back differ. -/
def OnlyCore (s t : State) (f : Core → Core → Core) : Prop := t.base = s.base ∧ f s.core t.core = s.core
/-- The parts of the machine that the command processor's tables do not hold are as they were. -/
def KeepsRest (s t : State) : Prop :=
  t.core.mem = s.core.mem ∧ t.core.weaves = s.core.weaves ∧ t.core.sectors = s.core.sectors ∧ t.core.launches = s.core.launches ∧
  t.core.host = s.core.host ∧ t.core.links = s.core.links ∧ t.core.power = s.core.power

end Sys2Proof.Claims

/-- R433 to R437, R450, R459, R479: what the host reads and writes. A write through the aperture that the function's table admits
stores its bytes and ends the poison that it covers; a denied one is discarded, a denied read and an AtomicOp complete with UR; an
access of a wrong width, alignment or offset completes with UR; registers take the bits that they store. -/
def Obligations.HostAccesses : Prop :=
  ∀ (s : State) (fn off len size k : Nat) (data : List Byte) (v : Word), Memory.wf s.core.mem = true →
    let a := s.core.aperture fn off
    let puts (off : Nat) (f : Core → Core) : Prop := barAccess 0 off (barWidth off) = true →
      (s.core.power.boot ≠ 0xE0 ∨ off < 0x1000) → Machine.exec (.registerWrite 0 off (barWidth off) v) s = .next { s with core := f s.core }
    (s.core.apertureOk fn off data.length true = true → ∃ t, Machine.exec (.bar2Write fn off data) s = .next t ∧
      (s.core.flips = [] → ∀ b, memGet t.core.mem b = if a ≤ b ∧ b < a + data.length then data.getD (b - a) 0 else memGet s.core.mem b) ∧
      (∀ r, r ∈ t.core.hbmPoison ↔ r ∈ s.core.hbmPoison ∧ ¬(a ≤ r ∧ r + 64 ≤ a + data.length)) ∧ t.core.outbox = s.core.outbox) ∧
    (s.core.apertureOk fn off data.length true = false → Machine.exec (.bar2Write fn off data) s = .next s) ∧
    (∃ t, Machine.exec (.bar2Read fn off len) s = .next t ∧
      (((s.core.hbmFlips = [] ∧ ∀ p ∈ s.core.weaves, p.2.injecting = false) ∨ s.core.apertureOk fn off len false = false) → Sends s t [if s.core.apertureOk fn off len false = true then
        .readData fn ((List.range len).map fun i => memGet s.core.mem (a + i)) else .unsupported fn])) ∧
    (∃ t, Machine.exec (.atomicopRequest fn k off) s = .next t ∧ Sends s t [.unsupported fn]) ∧
    (barAccess fn off size = false → ∃ t, Machine.exec (.registerWrite fn off size v) s = .next t ∧ Sends s t [.unsupported fn]) ∧
    (barAccess fn off size = true → ((s.core.power.boot = 0xE0 ∧ 0x1000 ≤ off) ∨ (fn ≠ 0 ∧ 0x80000 ≤ off)) →
      Machine.exec (.registerWrite fn off size v) s = .next s) ∧
    puts 0x100 (fun c => if v.toNat % 4096 = 0xFFF then c else { c with host := { c.host with modid := v.toNat % 4096 } }) ∧
    (k < 17 → puts (0x108 + 8 * k) fun c => { c with host := { c.host with haper := c.host.haper.set k (v &&& 0x7000000000) } }) ∧
    puts 0x300 (fun c => { c with host := { c.host with updAddr := v &&& 0x7FFFFFFFFF } }) ∧
    puts 0x308 (fun c => { c with host := { c.host with updLen := v &&& 0x7FFFFFF } }) ∧
    (k < 64 → puts (0x1000 + 8 * k) fun c => c.modCtx k fun x => { x with fn := v.toNat % 32 }) ∧
    (k < 194 → puts (0x60000 + 8 * k) fun c => { c with host := { c.host with sources := mset c.host.sources k (v &&& 0x80FF) } }) ∧
    (k < 256 → puts (0x301000 + 8 * k) fun c => { c with host := { c.host with receive := mset c.host.receive k (v &&& 0x800FFFFFFF00003F) } }) ∧
    (k < 4096 → puts (0x310000 + 8 * k) fun c => { c with host := { c.host with routes := mset c.host.routes k (v &&& 0xFFFFFFFFF) } }) ∧
    (k < 64 → puts (0x320000 + 8 * k) fun c => c.modCtx k fun x => { x with group := v &&& 0x800000000FFF0FFF, collNo := 0 }) ∧
    (k < 64 → puts (0x400000 + 8 * k) fun c => c.modCtx k fun x => { x with att := v.getLsbD 0 }) ∧
    (k < 640 → puts (0x410008 + 256 * k) fun c => c.modW k fun x => { x with dbg := { x.dbg with dsel := v &&& 0xFFFFF0000000007F } })

/-- R363, R401 to R403, R439, R462: what a function may do with the queues and contexts that are its own. A TAIL that overflows the
ring halts the queue; a restart ends the halt; entries are held still while launches of the context stand.
That such an overflow leaves TAIL and writes no fault record, and that low reserved bits of a context's entry are stored as 0, is log
34. -/
def Obligations.HostQueues : Prop :=
  ∀ (s : State) (fn q ctx i k : Nat) (v : Word) (e : BitVec 32) (x : Collective),
    let tail := v.toNat % 2 ^ 28
    let old := s.core.queue q
    let new : Queue := { old with tail := tail }
    let sec := v.toNat / 65536 % 256
    let others (t : State) : Prop := (∀ p, p ≠ q → t.core.queue p = s.core.queue p) ∧ t.core.mem = s.core.mem ∧
      t.core.weaves = s.core.weaves ∧ t.core.launches = s.core.launches ∧ t.core.contexts = s.core.contexts
    (s.core.ownsQueue fn q = false → Machine.exec (.doorbellTailWrite fn q v) s = .next s ∧ Machine.exec (.semsig fn q v) s = .next s) ∧
    (s.core.ownsQueue fn q = true → old.ringSize < new.fill → ∃ t, Machine.exec (.doorbellTailWrite fn q v) s = .next t ∧ others t ∧
      t.core.queue q = { old with halted := true, err := 1, recno := 0, timers := [] }) ∧
    (s.core.ownsQueue fn q = true → new.fill ≤ old.ringSize → ∃ t, Machine.exec (.doorbellTailWrite fn q v) s = .next t ∧ others t ∧
      (let reads := s.core.serves q = true ∧ old.reading = false ∧ new.fill ≠ 0 ∧ old.cmds.all (·.began) = true
       (reads → t.core.queue q = { new with reading := true } ∧
         ∃ T, T ≤ s.core.wall + 120 * Config.usUnits / 1000 ∧ ⟨.wall T, bCp, q, .queueRead q⟩ ∈ t.core.agenda) ∧
       (¬ reads → t.core.queue q = new))) ∧
    (s.core.ownsQueue fn q = true → v.toNat / 2 ^ 63 = 0 → v.toNat / 2 ^ 24 % 256 = 0 → v.toNat / 256 % 256 = 0 →
      s.core.owns old.ctx sec = true →
      Machine.exec (.semsig fn q v) s = .next { s with core := s.core.signalSem sec (v.toNat % 256) (v.toNat / 2 ^ 32 % 2 ^ 31) }) ∧
    (v.toNat / 2 ^ 63 = 1 → s.core.sees fn old.ctx = true → old.halted = true →
      ∃ t b, Machine.exec (.qstatHaltRestart fn q v) s = .next t ∧ others t ∧ t.core.queue q = { old with halted := false, reading := b }) ∧
    ((v.toNat / 2 ^ 63 = 0 ∨ s.core.sees fn old.ctx = false ∨ old.halted = false) →
      Machine.exec (.qstatHaltRestart fn q v) s = .next s) ∧
    (s.core.sees fn ctx = true → s.core.ctxBusy ctx = false → ∃ t, Machine.exec (.contextEntryWrite fn ctx i v) s = .next t ∧
      KeepsRest s t ∧ t.core.queues = s.core.queues ∧ (∀ j, j ≠ ctx → t.core.ctx j = s.core.ctx j) ∧
      t.core.ctx ctx = { s.core.ctx ctx with words := (s.core.ctx ctx).words.set i (v &&& word (entryMask i)) }) ∧
    ((s.core.sees fn ctx = false ∨ s.core.ctxBusy ctx = true) → Machine.exec (.contextEntryWrite fn ctx i v) s = .next s) ∧
    (let runs := s.core.launches.any fun (_, l) => l.ctx == ctx && l.started.isSome && !l.ended && l.savedTo.isNone
     let y := s.core.ctx ctx
     (s.core.sees fn ctx = true → runs = false → y.damPend = [] → ∃ t, Machine.exec (.damaskAttributeWrite fn ctx i e) s = .next t ∧
       KeepsRest s t ∧ t.core.ctx ctx = { y with damask := y.damask.set i e } ∧ ∀ j, j ≠ ctx → t.core.ctx j = s.core.ctx j) ∧
     (s.core.sees fn ctx = true → runs = true → ∃ t, Machine.exec (.damaskAttributeWrite fn ctx i e) s = .next t ∧
       KeepsRest s t ∧ t.core.ctx ctx = { y with damPend := y.damPend ++ [(i, e)] }) ∧
     (s.core.sees fn ctx = false → Machine.exec (.damaskAttributeWrite fn ctx i e) s = .next s)) ∧
    (v.toNat / 2 ^ 63 = 0 → Machine.exec (.collectiveCancel ctx v) s = .next s) ∧
    (v.toNat / 2 ^ 63 = 1 → s.core.collectives = [(k, x)] → k / 65536 = ctx → x.started = true →
      x.exchanged ((s.core.groupSize ctx).getD 0) = false →
      Machine.exec (.collectiveCancel ctx v) s =
        .next { s with core := ({ s.core with collectives := [] }).abortSem x.sector (collSem x.desc) }) ∧
    ∃ t, Machine.exec (.hostSectorRelease ctx) s = .next t ∧ t.core.mem = s.core.mem ∧ t.core.weaves = s.core.weaves ∧
      (∀ n l, (n, l) ∈ t.core.launches → (n, l) ∈ s.core.launches ∧ ¬(l.ctx = ctx ∧ l.ended = true ∧ l.fatal = true)) ∧
      ∀ n, let y := s.core.sector n
        let z := t.core.sector n
        ((y.owner = some ctx ∧ y.kept = true) → (z.owner, z.launch, z.kept) = (none, none, false)) ∧
        (¬(y.owner = some ctx ∧ y.kept = true) → (z.owner, z.launch, z.kept) = (y.owner, y.launch, y.kept)) ∧
        z.sems = y.sems ∧ z.engines = y.engines ∧ z.budget = y.budget

/-- R442, R443, R477, R482: firmware update, IDE keys, attestation, and a host read that fails. STAGE makes STATE 1 until the verdict,
which tests the length, the signature and the security version of the image at UPDADDR, and then writes the inactive slot.
Keys and digests are opaque values (log 15). That ACTIVATE is ignored in every STATE but 2 is log 34, that Alapavor's read of the image
must be admitted log 58. -/
def Obligations.HostServices : Prop :=
  ∀ (s : State) (flashOk ready : Bool) (n w addr va : Nat),
    let h := s.core.host
    let p := s.core.power
    (h.updState ≠ 1 → h.updState ≠ 3 → ∃ t T, Machine.exec (.firmwareStage flashOk) s = .next t ∧
      OnlyCore s t (fun c d => { d with host := c.host, agenda := c.agenda, freeCtr := c.freeCtr }) ∧
      t.core.host = { h with updState := 1, updErr := 0 } ∧
      t.core.agenda = s.core.agenda ++ [⟨.cycle T, bHost, 0, .firmwareVerdict flashOk⟩]) ∧
    ((h.updState = 1 ∨ h.updState = 3) → Machine.exec (.firmwareStage flashOk) s = .next s) ∧
    (let bytes := s.core.stagedImage
     let t := s.core.firmwareVerdict flashOk
     let reads := s.core.admits 0x42 (h.updAddr.toNat / 65536 * 65536) h.updLen.toNat false = true
     let fails (err : Nat) : Prop := t = { s.core with host := { h with updState := 0x80, updErr := err } }
     let long := 2 ^ 26 < h.updLen.toNat
     (long → fails 3) ∧
     (¬ long → ¬ reads ∨ Config.imageSigned bytes = false → fails 1) ∧
     (¬ long → reads → Config.imageSigned bytes = true → Config.imageVersion bytes < h.record.minSecurity → fails 2) ∧
     (¬ long → reads → Config.imageSigned bytes = true → h.record.minSecurity ≤ Config.imageVersion bytes → flashOk = false → fails 4) ∧
     (¬ long → reads → Config.imageSigned bytes = true → h.record.minSecurity ≤ Config.imageVersion bytes → flashOk = true →
       t = { s.core with host := { h with
         updState := 2, updErr := 0, images := h.images.set (if h.slot then 0 else 1) ⟨bytes, true, Config.imageVersion bytes⟩ } })) ∧
    (h.updState = 2 → ∃ t, Machine.exec (.firmwareActivate ready) s = .next t ∧
      OnlyCore s t (fun c d => { d with host := c.host, power := c.power, agenda := c.agenda, freeCtr := c.freeCtr }) ∧
      t.core.host = { h with slot := !h.slot, updState := 3 } ∧ t.core.power = { p with warm := true, boot := 0 } ∧
      (ready = true ↔ ∃ e ∈ t.core.agenda, e.act = .bootStage)) ∧
    (h.updState ≠ 2 → Machine.exec (.firmwareActivate ready) s = .next s) ∧
    (∃ t, Machine.exec (.keyExchange n) s = .next t ∧ OnlyCore s t (fun c d => { d with host := c.host, outbox := c.outbox }) ∧
      t.core.host = { h with session := n, ideOn := true } ∧ t.core.outbox = s.core.outbox ++ [.signature (Config.signature n [])]) ∧
    (∃ t, Machine.exec (.challenge n) s = .next t ∧ Sends s t [.signature (Config.signature n [])]) ∧
    (let ds := [Config.rom, ((h.images[if h.slot then 1 else 0]?).map (·.content)).getD [], h.record.content, s.core.healthArea].map Config.sha384
     ∃ t, Machine.exec (.measurements n) s = .next t ∧ Sends s t (ds.map .digest ++ [.signature (Config.signature n ds)])) ∧
    ((s.core.weave w).ldh = .asked → ∃ t, Machine.exec (.hostReadFailure (.ldh w) addr va) s = .next t ∧
      Logged s.core t.core 0xFFFFFFFF 10 0 (s.core.tagOf (s.core.ctxOf w)) (BitVec.ofNat 64 addr) (BitVec.ofNat 64 va) ∧
      (t.core.weave w).ldh = .failed ∧ t.core.mem = s.core.mem ∧ (∀ v, v ≠ w → t.core.weave v = s.core.weave v) ∧
      ∀ r ∈ t.core.peerReads, r.src ≠ .ldh w)

/-! # The Porlen fabric -/

namespace Sys2Proof.Claims
open Sys2Proof.Machine

/-- The words stand in the rows from `at_`, and every byte outside them is as it was, where no stored bit is flipped and no injection
armed (log 41). -/
def RowsWritten (c t : Core) (at_ : Nat) (ws : List Word) : Prop :=
  c.flips = [] → (∀ p ∈ c.weaves, p.2.injecting = false) → (∀ i x, ws[i]? = some x → t.row (at_ + 8 * i) = x) ∧
  ∀ b, (b < rowAddr at_ ∨ rowAddr at_ + 8 * ws.length ≤ b) → memGet t.mem b = memGet c.mem b
/-- The flit has been taken from its port's link in `c`, and acts there as context ctx (R449, R455). -/
def Taken (s : State) (port : Nat) (f : Flit) (c : Core) (ctx : Nat) : Prop :=
  s.core.takeFlit port f = some c ∧ f.nw.toNat ≤ 30 ∧ f.rsv = 0 ∧ c.receiver f = some ctx ∧ Memory.wf s.core.mem = true
/-- One more packet has been denied at the port, and memory is as it was. -/
def Denied (c t : Core) (port : Nat) : Prop :=
  (t.link port).deny = min 0xFFFF ((c.link port).deny + 1) ∧ t.mem = c.mem ∧ t.sectors = c.sectors ∧ t.weaves = c.weaves

end Sys2Proof.Claims

/-- R446 to R449: a flit is taken from a link that is up and enabled, with the right CRC and the next SEQ; it makes a credit of its
VC due. A flit of a wrong CRC is not taken: on a link that is up and enabled it counts as a replay, which is asked for from the SEQ that is
expected; one out of its order does nothing. When a credit is returned is the model's reading (log 32), the request's form is log 24. -/
def Obligations.FlitsAreTakenInOrder : Prop :=
  ∀ (s : State) (port : Nat) (f : Flit),
    let l := s.core.link port
    let good := l.up = true ∧ l.en = true ∧ flitCrc f = f.crc.toNat ∧ f.kind ≠ 0 ∧ f.seq.toNat = l.expect
    (good → ∃ c, s.core.takeFlit port f = some c ∧ (c.link port).expect = (l.expect + 1) % 256 ∧
      (∀ v, v < l.due.length → (c.link port).due[v]? = some (l.due.getD v 0 + if v = f.vc.toNat then 1 else 0)) ∧
      c.mem = s.core.mem ∧ c.sectors = s.core.sectors ∧ c.weaves = s.core.weaves ∧ c.host = s.core.host ∧
      (8 ≤ l.due.getD f.vc.toNat 0 + 1 → f.vc.toNat < l.due.length →
        ⟨.cycle s.core.now, bHost, port, .creditReturn port f.vc.toNat⟩ ∈ c.agenda)) ∧
    ∀ i ∈ [Instr.creditAcknowledgement port f, .porlenWrite port f, .readRequest port f, .readResponse port f, .reduceWrite port f,
        .semaphoreSignal port f, .collectiveControl port f, .billing port f],
      (l.up = true → l.en = true → flitCrc f ≠ f.crc.toNat → ∃ t, Machine.exec i s = .next t ∧
        (t.core.link port).replay = min 0xFFFF (l.replay + 1) ∧ t.core.outbox = s.core.outbox ++ [.replayRequest port l.expect] ∧
        OnlyCore s t fun c d => { d with links := c.links, outbox := c.outbox }) ∧
      ((l.up = false ∨ l.en = false) → Machine.exec i s = .next s) ∧
      (flitCrc f = f.crc.toNat → f.kind ≠ 0 → f.seq.toNat ≠ l.expect → Machine.exec i s = .next s)

/-- R447, R452 to R456, R458: packets at the receive side. Writes land in HBM within the context's ranges or in a sector that the
context holds; reduce-writes combine; signals add to a semaphore; reads are answered; what is not admitted, a read response and a billing packet among
it, is denied; a
billing packet adds its nJ to the context of its TAG. -/
def Obligations.PacketsAct : Prop :=
  (∀ (s : State) (port : Nat) (f : Flit) (c : Core) (ctx : Nat), Taken s port f c ctx →
    let a := f.addr.toNat
    let region := a / 2 ^ 40
    let p := a % 2 ^ 39
    let sec := a / 2 ^ 22 % 256
    let off := a % 2 ^ 22
    let ws := flitWords f
    let n := 8 * ws.length
    (f.kind = 1 → region = 0 → a / 2 ^ 39 % 2 = 0 →
      (p + n ≤ hbmBytes → c.admits ctx p n true = true → ∃ t, Machine.exec (.porlenWrite port f) s = .next t ∧
        RowsWritten s.core t.core p ws ∧ t.core.sectors = s.core.sectors) ∧
      ((hbmBytes < p + n ∨ c.admits ctx p n true = false) → ∃ t, Machine.exec (.porlenWrite port f) s = .next t ∧
        Denied s.core t.core port)) ∧
    (f.kind = 1 → region = 1 → a / 2 ^ 30 % 2 ^ 10 = 0 →
      (c.owns ctx sec = true → off + n ≤ 2 ^ 22 → ∃ t, Machine.exec (.porlenWrite port f) s = .next t ∧
        RowsWritten s.core t.core (storeFlat sec off) ws ∧ t.core.sectors = s.core.sectors) ∧
      ((c.owns ctx sec = false ∨ 2 ^ 22 < off + n) → ∃ t, Machine.exec (.porlenWrite port f) s = .next t ∧ Denied s.core t.core port)) ∧
    (f.kind = 5 → region = 2 → regionOk a = true →
      (c.owns ctx sec = true → Machine.exec (.semaphoreSignal port f) s =
        .next { s with core := c.signalSem sec (a / 8 % 256) (ws.headD 0).toNat }) ∧
      (c.owns ctx sec = false → ∃ t, Machine.exec (.semaphoreSignal port f) s = .next t ∧ Denied s.core t.core port)) ∧
    (f.kind = 4 → region = 3 → a / 2 ^ 30 % 2 ^ 6 = 0 →
      (f.op.toNat < 12 → c.owns ctx sec = true → off + n ≤ 2 ^ 22 → ∃ t, Machine.exec (.reduceWrite port f) s = .next t ∧
        RowsWritten s.core t.core (storeFlat sec (rowAddr off)) (ws.zipIdx.map fun p =>
          (reduceRow f.op.toNat (s.core.row (storeFlat sec (rowAddr off) + 8 * p.2)) p.1).getD 0) ∧
        t.core.sectors = s.core.sectors) ∧
      ((12 ≤ f.op.toNat ∨ c.owns ctx sec = false ∨ 2 ^ 22 < off + n) → ∃ t, Machine.exec (.reduceWrite port f) s = .next t ∧
        Denied s.core t.core port)) ∧
    (f.kind = 2 → (∀ rs c0 c1, c.regionRead ctx a f.nw.toNat Core.memByte = (some rs, c0) →
      c0.sendPacket 0 f.src.toNat 3 f.tag.toNat a 0 rs.length rs = (c1, true) →
        ∃ t, Machine.exec (.readRequest port f) s = .next t ∧ t.core.outbox = c1.outbox ∧ t.core.links = c1.links ∧ t.core.mem = c1.mem) ∧
      (∀ c0 c1, c.regionRead ctx a f.nw.toNat Core.memByte = (none, c0) →
        (if 1 ≤ region % 16 ∧ region % 16 ≤ 3 ∧ c0.owns ctx sec = false then c0.deny port else c0).sendPacket 0 f.src.toNat 3 f.tag.toNat a 1 0 [] = (c1, true) →
        Machine.exec (.readRequest port f) s = .next { s with core := c1 })) ∧
    (f.kind = 3 → ∀ r w, c.peerReads = [r] → r.src = .ldh w → r.dst = f.src.toNat → r.addr = a → r.data = none →
      (s.core.weave w).ldh = .asked →
      (f.op = 0 → ∃ t, Machine.exec (.readResponse port f) s = .next t ∧ (t.core.weave w).ldh = .returned ∧
        t.core.peerReads = [{ r with data := some ws }] ∧ t.core.mem = s.core.mem) ∧
      (f.op ≠ 0 → ∃ t, Machine.exec (.readResponse port f) s = .next t ∧ (t.core.weave w).ldh = .failed ∧
        t.core.peerReads = [] ∧ t.core.mem = s.core.mem)) ∧
    (f.kind = 6 → f.op = 7 → ∀ i, (List.range 64).find? (fun i => c.ctxValid i && c.tagOf i == f.tag.toNat) = some i →
      ∃ t, Machine.exec (.billing port f) s = .next t ∧
        t.core.ctx i = { s.core.ctx i with energy := (s.core.ctx i).energy + (ws.headD 0).toNat } ∧
        (∀ j, j ≠ i → t.core.ctx j = s.core.ctx j) ∧ t.core.mem = s.core.mem)) ∧
  -- a packet that no entry of the receive table names
  ∀ (s : State) (port : Nat) (f : Flit) (c : Core), s.core.takeFlit port f = some c → f.nw.toNat ≤ 30 → f.rsv = 0 → c.receiver f = none →
    f.kind ≠ 0 → f.kind ≠ 2 → ∀ i ∈ [Instr.creditAcknowledgement port f, .porlenWrite port f, .readRequest port f, .readResponse port f,
      .reduceWrite port f, .semaphoreSignal port f, .collectiveControl port f, .billing port f],
      ∃ t, Machine.exec i s = .next t ∧ Denied s.core t.core port

/-- R448, R449, R458: credits come back and acknowledge; credits that are due are returned; the flits of a port that retires go to
other ports; whole nJ of a bill are sent to their origin.
Which credits one CREDIT row returns, and what ENERGY counts, follow logs 32 and 33. -/
def Obligations.LinksAndBills : Prop :=
  ∀ (s : State) (port vc src : Nat) (tag : BitVec 16) (f : Flit),
    let l := s.core.link port
    (l.up = true → l.en = true → flitCrc f = f.crc.toNat → f.kind = 0 → f.nw.toNat ≤ 30 → f.rsv = 0 → l.sendQ = [] →
      let x := ((flitWords f).headD 0).toNat
      ∃ t, Machine.exec (.creditAcknowledgement port f) s = .next t ∧ t.core.mem = s.core.mem ∧ t.core.outbox = s.core.outbox ∧
        (∀ v, v < 3 → (t.core.link port).credits[v]? = some (min 64 (l.credits.getD v 0 + x / 2 ^ (8 + 16 * v) % 2 ^ 16))) ∧
        (∀ before g after, l.unacked = before ++ g :: after → g.2.seq.toNat = x % 256 → (∀ y ∈ before, y.2.seq.toNat ≠ x % 256) →
          (t.core.link port).unacked = after) ∧
        ((∀ y ∈ l.unacked, y.2.seq.toNat ≠ x % 256) → (t.core.link port).unacked = l.unacked) ∧
        (t.core.link port).expect = l.expect ∧ (t.core.link port).nextSeq = l.nextSeq) ∧
    (l.up = true → l.due.getD vc 0 ≠ 0 → ∃ t g, Machine.exec (.creditReturn port vc) s = .next t ∧
      t.core.outbox = s.core.outbox ++ [.flit port g] ∧ t.core.link port = { l with due := [0, 0, 0] } ∧ t.core.mem = s.core.mem ∧
      g.kind = 0 ∧ g.nw = 1 ∧ flitCrc g = g.crc.toNat ∧ g.payload = [BitVec.ofNat 64 ((l.expect + 255) % 256 +
        l.due.getD 0 0 * 2 ^ 8 + l.due.getD 1 0 * 2 ^ 24 + l.due.getD 2 0 * 2 ^ 40)]) ∧
    ((l.up = false ∨ l.due.getD vc 0 = 0) → Machine.exec (.creditReturn port vc) s = .next s) ∧
    (l.dead = true → Machine.exec (.portRetirement port) s = .next s) ∧
    (l.dead = false →
      let c := (s.core.modLink port fun l => { l with up := false, dead := true, unacked := [], sendQ := [] }).logEntry 0xFFFFFFFF 12 0 0 0 0
      (l.unacked ++ l.sendQ = [] → Machine.exec (.portRetirement port) s = .next { s with core := c }) ∧
      (∀ o g p, l.unacked ++ l.sendQ = [(o, g)] → c.flowPort o g.dst.toNat (flowTarget g.addr.toNat) = some p →
        p ≠ port ∧ Machine.exec (.portRetirement port) s = .next { s with core := c.portSend p o g })) ∧
    (let k := src * 65536 + tag.toNat
     let e := mget s.core.bills k 0
     (e < 1000 → Machine.exec (.billingSend src tag) s = .next s) ∧
     (1000 ≤ e → ∃ t bs, Machine.exec (.billingSend src tag) s = .next t ∧ mget t.core.bills k 0 = e % 1000 ∧
       (∀ j, j ≠ k → mget t.core.bills j 0 = mget s.core.bills j 0) ∧
       t = { s with core := (({ s.core with bills := bs }).sendPacket 0 src 6 tag.toNat 0 7 1 [BitVec.ofNat 64 (e / 1000)]).1 }))

/-- R460 to R462: a collective starts with the descriptor as it stands and sends it to the other members; a bad descriptor sets AB;
descriptors, contributions and failures of others are kept; the completion writes the results and signals.
Start, numbering of instances and the packets of the exchange are the model's (log 22). -/
def Obligations.CollectivesRun : Prop :=
  (∀ (s : State) (sec off ctx : Nat), (s.core.sector sec).owner = some ctx →
    let d := (List.range 8).map fun i => s.core.row (storeFlat sec off + 8 * i)
    let n := (s.core.ctx ctx).collNo + 1
    let k := ctx * 65536 + n % 65536
    s.core.coll? k = none →
    let c := (s.core.modCtx ctx fun x => { x with collNo := n }).setColl k
      ⟨sec, off, d, [(s.core.groupRank ctx, d)], [], true, false⟩
    (2 ≤ (s.core.groupSize ctx).getD 0 → collOk d ((s.core.groupSize ctx).getD 0) = true →
      ∀ c1, c.sendAll ctx sec 0 (d ++ [BitVec.ofNat 64 (n % 65536)]) = (c1, true) →
      Machine.exec (.collectiveStart sec off) s = .next { s with core := c1 }) ∧
    ((s.core.groupSize ctx = none ∨ collOk d ((s.core.groupSize ctx).getD 0) = false) → ∃ t, Machine.exec (.collectiveStart sec off) s = .next t ∧
      t.core.coll? k = none ∧ (t.core.sem sec (collSem d)).ab = true ∧ (t.core.ctx ctx).collNo = n ∧ t.core.mem = s.core.mem)) ∧
  (∀ (s : State) (port : Nat) (f : Flit) (c : Core) (ctx r : Nat) (x : Collective), Taken s port f c ctx → f.kind = 6 →
    (List.range ((c.groupSize ctx).getD 0)).find? (fun r => c.member ctx r == f.src.toNat) = some r →
    let ws := flitWords f
    let k (i : Nat) : Nat := ctx * 65536 + (ws.getD i 0).toNat % 65536
    x.started = false →
    (f.op = 0 → c.coll? (k 8) = some x → Machine.exec (.collectiveControl port f) s =
      .next { s with core := c.setColl (k 8) { x with descs := mset x.descs r (ws.take 8) } }) ∧
    (f.op = 1 → c.coll? (k 0) = some x → Machine.exec (.collectiveControl port f) s =
      .next { s with core := c.setColl (k 0) { x with data := mset x.data r (mget x.data r [] ++ ws.drop 1) } }) ∧
    (f.op = 2 → c.coll? (k 0) = some x → Machine.exec (.collectiveControl port f) s =
      .next { s with core := c.setColl (k 0) { x with failed := true } })) ∧
  ∀ (s : State) (ctx k : Nat) (x : Collective), s.core.collectives = [(k, x)] → k / 65536 = ctx → Memory.wf s.core.mem = true →
    let n := (s.core.groupSize ctx).getD 0
    let d := x.desc
    let part (r : Nat) : List Word := mget x.data r []
    x.exchanged n = true → x.agrees n k = true → x.complete n = true → 0 < n →
    ∃ t, Machine.exec (.collectiveCompletion ctx) s = .next t ∧ t.core.collectives = [] ∧
      (t.core.sem x.sector (collSem d)).count = min ((s.core.sem x.sector (collSem d)).count + 1) (2 ^ 31 - 1) ∧
      (collKind d = 1 → RowsWritten s.core t.core (storeFlat x.sector (collBuf d)) ((List.range (collLen d / 8)).map fun i =>
        ((List.range (n - 1)).foldl (fun acc r => acc.bind fun a => reduceRow (collOp d) a ((part (r + 1)).getD i 0))
          (some ((part 0).getD i 0))).getD 0)) ∧
      (collKind d = 2 → RowsWritten s.core t.core (storeFlat x.sector (collDst d)) ((List.range n).flatMap part)) ∧
      (collKind d = 3 → RowsWritten s.core t.core (storeFlat x.sector (collBuf d)) (part (collRoot d)))

/-! # Supply, clocks, heat, reset -/

namespace Sys2Proof.Claims
open Sys2Proof.Machine

/-- Cycle 0 of a coming tick looks at the clocks. -/
def ClockDue (t : State) : Prop := ∃ e ∈ t.core.agenda, e.act = .clockApply
/-- Only the governor's state and the agenda differ. -/
def OnlyPower (s t : State) : Prop := OnlyCore s t fun c d => { d with power := c.power, agenda := c.agenda }

/-- The governor lowers the step by one, from power `q` (R471): at the next clock-safe tick, or later where 10 ms have not passed since
the last. -/
def Lowers (s t : State) (q : Power) : Prop :=
  let step := min 4 (s.core.clockStep + 1)
  let may := q.stepAt = 0 ∨ q.stepAt + 10 * Config.msUnits ≤ s.core.wall
  (q.lowering = true → t.core.power = q) ∧
  (q.lowering = false → may → t.core.power = { q with lowering := true, pendStep := some (max step (q.pendStep.getD step)) } ∧ ClockDue t) ∧
  (q.lowering = false → ¬ may → t.core.power = { q with owed := true } ∧
    (q.owed = false → ⟨.wall (q.stepAt + 10 * Config.msUnits), bHost, 0, .governor⟩ ∈ t.core.agenda))
/-- The boot has entered recovery with an error (R479). -/
def Recovers (t : Core) (err : Nat) : Prop := t.power.boot = 0xE0 ∧ t.power.berr = err ∧ t.power.cpOn = false ∧ t.launches = []

end Sys2Proof.Claims

/-- R463, R464, R466, R467, R469, R473, R476: steps and budgets that firmware asks for stand for the coming tick; a step comes into
force once its tick is clock-safe and the rail holds it; an over-current stretches the tick; the rail is set in steps of 5 mV.
The safe state ends once a step and a budget have been written in it; a watchdog of 50 ms leads to it.
Corners of the governor are log 35, of the safe state's end log 60, of the restart log 61. -/
def Obligations.ClocksAndSupply : Prop :=
  ∀ (s : State) (step sector budget mv measured : Nat),
    let p := s.core.power
    (s.core.governs = true → (p.hotTrip = false ∨ s.core.clockStep ≤ step) → ∃ t, Machine.exec (.clockStepChange step) s = .next t ∧
      OnlyPower s t ∧ t.core.power = { p with
        pendStep := some (if p.lowering = true then max step (p.pendStep.getD step) else step)
        safeStep := true
        safe := p.safe && !p.safeBudget } ∧ ClockDue t) ∧
    ((s.core.governs = false ∨ (p.hotTrip = true ∧ step < s.core.clockStep)) → Machine.exec (.clockStepChange step) s = .next s) ∧
    (p.pendStep = some step → p.tripNow = false → p.safePend = false → p.forced = none → p.safe = false →
      (s.core.clockSafe = true → s.core.railHolds step = true → s.core.clockApply.clockStep = step ∧
        s.core.clockApply.power.pendStep = none ∧ s.core.clockApply.mem = s.core.mem) ∧
      ((s.core.clockSafe = false ∨ s.core.railHolds step = false) → s.core.clockApply.clockStep = s.core.clockStep ∧
        s.core.clockApply.power = p)) ∧
    (s.core.governs = true → ∃ t, Machine.exec (.sectorBudgetChange sector budget) s = .next t ∧
      t.core.sector sector = { s.core.sector sector with pendBudget := some (min 20 (max 8 budget)) } ∧
      (∀ k, k ≠ sector → t.core.sector k = s.core.sector k) ∧ t.core.weaves = s.core.weaves ∧ t.core.mem = s.core.mem ∧
      t.core.power = { p with safeBudget := true, safe := p.safe && !p.safeStep } ∧
      ((p.safe = false ∨ p.safeStep = true) →
        ⟨.cycle ((s.core.tick + 1) * Config.tickCycles), bLand, 1, .budgetApply sector⟩ ∈ t.core.agenda)) ∧
    (s.core.governs = false → Machine.exec (.sectorBudgetChange sector budget) s = .next s) ∧
    (∃ t, Machine.exec (.currentTrip true) s = .next t ∧ t.core.power.tripNow = true ∧ t.core.power.stretched = some s.core.tick ∧
      t.core.power.tripSince = some (p.tripSince.getD s.core.wall) ∧ t.core.clockStep = s.core.clockStep ∧
      t.core.weaves = s.core.weaves ∧ t.core.mem = s.core.mem ∧ ClockDue t ∧
      ⟨.wall (s.core.wall + 10 * Config.usUnits), bHost, 0, .limits⟩ ∈ t.core.agenda ∧
      (p.stretched ≠ some s.core.tick → t.core.power.clkev = min 0xFFFF (p.clkev + 1) ∧ Logged s.core t.core 0xFFFFFFFF 13 0 0
        (BitVec.ofNat 64 (s.core.clockStep + s.core.clockStep * 2 ^ 8 + 2 ^ 16)) 0) ∧
      (p.stretched = some s.core.tick → t.core.power.clkev = p.clkev ∧ t.core.host = s.core.host)) ∧
    (∃ t, Machine.exec (.currentTrip false) s = .next t ∧ OnlyPower s t ∧ t.core.agenda = s.core.agenda ∧
      t.core.power = { p with tripNow := false, tripSince := none }) ∧
    (∃ t, Machine.exec (.railVoltageSetting mv measured) s = .next t ∧ OnlyPower s t ∧ (p.pendStep.isSome = true → ClockDue t) ∧
      t.core.power = { p with railAsked := min 780 (max 600 mv) / 5 * 5, rail := measured }) ∧
    (∀ i ∈ [Instr.sustainedCurrentLimit, .safeState], ∃ t, Machine.exec i s = .next t ∧ OnlyPower s t ∧ ClockDue t ∧
      t.core.power = { p with safePend := true }) ∧
    (∀ T, p.watchdog = some T → T + 50 * Config.msUnits ≤ s.core.wall → ∃ t, Machine.exec .watchdogExpiry s = .next t ∧
      OnlyCore s t (fun c d => { d with power := c.power, agenda := c.agenda, host := c.host, freeCtr := c.freeCtr }) ∧ ClockDue t ∧
      t.core.power = { p with safePend := true, watchdog := none, warm := true, boot := 0 } ∧ (∃ e ∈ t.core.agenda, e.act = .bootStage) ∧
      t.core.host = if s.core.host.updState = 3 then { s.core.host with slot := !s.core.host.slot, updState := 0x80, updErr := 5 }
        else s.core.host) ∧
    ((p.watchdog = none ∨ ∃ T, p.watchdog = some T ∧ s.core.wall < T + 50 * Config.msUnits) → Machine.exec .watchdogExpiry s = .next s)

/-- R470 to R472, R479, R480: what sensors report, the shutdown, and the boot, stage by stage.
That memories stay through a module reset is the model's choice (log 36), as are the entries of the outside (log 41); a start of Alapavor
alone leaves maps and links (log 61). -/
def Obligations.HeatShutdownAndReset : Prop :=
  ∀ (s : State) (k temp inlet outlet flow : Nat) (a b c : Bool) (boot : BootInputs),
    let p := s.core.power
    let warm (t : State) : Prop := t.core.sector k = { s.core.sector k with temp := temp } ∧
      (∀ j, j ≠ k → t.core.sector j = s.core.sector j) ∧ t.core.weaves = s.core.weaves ∧ t.core.mem = s.core.mem ∧
      t.core.clockStep = s.core.clockStep
    -- the trip is over once every sensor reads 105 °C or less
    let cooled (t : State) : Power :=
      if t.core.sectors.all (fun x => decide (x.2.temp ≤ 105)) = true then { p with hotTrip := false, hotSince := none } else p
    (∃ t, Machine.exec (.thermalTrip k temp) s = .next t ∧ warm t ∧
      (temp < 105 → t.core.power = cooled t) ∧ (105 ≤ temp → temp < 115 → Lowers s t (cooled t)) ∧
      (115 ≤ temp → p.hotTrip = true → t.core.power = p) ∧
      (115 ≤ temp → p.hotTrip = false → ClockDue t ∧
        t.core.power = { p with hotTrip := true, hotSince := some s.core.wall, forced := some 4, forcedBy := p.forcedBy ||| 2 ^ 17 } ∧
        ⟨.wall (s.core.wall + 100 * Config.msUnits), bHost, 0, .limits⟩ ∈ t.core.agenda)) ∧
    (∃ t, Machine.exec .thermalTripClear s = .next t ∧ t.core.power = { p with hotTrip := false, hotSince := none } ∧
      (∀ x ∈ t.core.sectors, x.2.temp ≤ 105) ∧ t.core.weaves = s.core.weaves ∧ t.core.mem = s.core.mem ∧ t.core.agenda = s.core.agenda) ∧
    (let q := { p with inlet := inlet, outlet := outlet, flow := flow, lowFlowSince := if flow < 4 then some (p.lowFlowSince.getD s.core.wall) else none }
     let hot := ∃ x ∈ s.core.sectors, 105 < x.2.temp
     ∃ t, Machine.exec (.coolantSample inlet outlet flow) s = .next t ∧ OnlyPower s t ∧
       (¬((35 < inlet ∨ flow < 8) ∧ hot) → t.core.power = q) ∧ ((35 < inlet ∨ flow < 8) → hot → Lowers s t q) ∧
       (flow < 4 → ⟨.wall (s.core.wall + 100 * Config.msUnits), bHost, 0, .limits⟩ ∈ t.core.agenda)) ∧
    ((p.shut = true ∨ (a || b || c) = false) → Machine.exec (.shutdown a b c) s = .next s) ∧
    (p.shut = false → (a || b || c) = true → ∃ t, Machine.exec (.shutdown a b c) s = .next t ∧ t.core.power.shut = true ∧
      t.core.launches = [] ∧ t.core.graphs = [] ∧ (∀ w, (t.core.weave w).running = false ∧ (t.core.weave w).launch = none) ∧
      (∀ j, (t.core.sector j).owner = none ∧ (t.core.sector j).launch = none) ∧ (∀ q, (t.core.queue q).cmds = []) ∧
      ∀ x ∈ t.core.agenda, ∀ w, x.act ≠ .refresh w) ∧
    (∃ t, Machine.exec (.moduleReset boot) s = .next t ∧ t.core.mem = s.core.mem ∧ t.core.weaves = [] ∧
      (∀ j, (t.core.sector j).owner = none ∧ (t.core.sector j).launch = none) ∧
      (∀ x ∈ t.core.agenda, (∃ u, x.act = .outer u) ∨ (∃ r, x.act = .patrolRow r ∨ x.act = .hbmPatrolRow r) ∨ x.act = .healthScan ∨ x.act = .bootStage) ∧
      (∃ x ∈ t.core.agenda, x.act = .bootStage) ∧ t.core.launches = [] ∧ t.core.queues = [] ∧ t.core.contexts = [] ∧ t.core.links = [] ∧
      t.core.inbox = s.core.inbox.map (fun p => (p.1 - s.core.now, p.2)) ∧ t.core.clockStep = 4 ∧ t.core.now = 0 ∧
      t.core.power = { Power.reset with bootIn := some boot } ∧ t.core.host.slot = s.core.host.slot ∧
      t.core.host.images = boot.images.foldl (fun xs p => xs.set p.1 p.2) s.core.host.images ∧
      t.core.host.record = boot.record.getD s.core.host.record) ∧
    (let h := s.core.host
     let u := s.core.bootStage
     let good (slot : Bool) : Prop := ∃ x, h.images[if slot then 1 else 0]? = some x ∧ x.signed = true ∧ h.record.minSecurity ≤ x.version
     let at_ (n : Nat) : Prop := u.power.boot = n ∧ u.power.berr = p.berr ∧ u.mem = s.core.mem ∧ ∃ e ∈ u.agenda, e.act = .bootStage
     p.bootIn = some boot →
     (p.boot = 0 →
       (boot.pufOk = false → Recovers u 4) ∧
       (boot.pufOk = true → good h.slot → at_ 1 ∧ u.host = h) ∧
       (boot.pufOk = true → ¬ good h.slot → good (!h.slot) → at_ 1 ∧ u.host = { h with slot := !h.slot }) ∧
       (boot.pufOk = true → ¬ good h.slot → ¬ good (!h.slot) → Recovers u 1)) ∧
     (p.boot = 1 →
       (h.record.signed = false → Recovers u 2) ∧
       (h.record.signed = true → h.record.version < h.prevVersion → Recovers u 3) ∧
       (h.record.signed = true → h.prevVersion ≤ h.record.version → if p.warm = true then at_ 3 else at_ 2)) ∧
     (p.boot = 2 →
       (boot.hbmOk = false → Recovers u 5) ∧ (boot.hbmOk = true → at_ 3 ∧ ∀ j, j < 36 → (u.link j).up = true)) ∧
     (p.boot = 3 →
       u.power = { p with boot := 4, cpOn := true, warm := false, readyAt := s.core.wall, watchdog := some s.core.wall } ∧
       u.host = if h.updState = 3 then { h with updState := 4 } else h))

/-! # Steps, decoding, reset -/

namespace Sys2Proof.Claims
open Sys2Proof.Machine

/-- The entry is the first that is due, and no row of the inbox is. -/
def DueFirst (s : State) (x : Entry) : Prop :=
  s.core.nextRow = none ∧ s.core.firstDue s.core.agenda = some x
/-- The bundle at the weave's PC issues now: nothing at its boundary comes before it (R19, R20, R321, R335), its rows are clean,
no check of R83 fails, no segment is open or opened, and the weave has its checkpoint. -/
def Issues (c : Core) (w : Nat) (xs : List Syl) : Prop :=
  let x := c.weave w
  let ws := c.bundle w
  x.running = true ∧ x.frozen = false ∧ x.dbg.halted = none ∧ x.partner? = false ∧ c.dueIssue w ≤ c.now ∧ c.boundaryTrap w = none ∧
  c.breaksNow w = false ∧ c.boundaryEvent w = none ∧ x.wait = .none ∧ (∀ row, c.poison.contains row = false ∧ c.flagOf row = none) ∧
  xs = syllables (fun p => (x.port p).kind) ws ∧ staticFault x.pc.toNat x.priv xs = none ∧ x.seg.isOpen = false ∧
  ws.any (isLead 2) = false ∧ (x.redun = true → (c.bundle (w + 1)).any (isLead 2) = false) ∧ x.ckpt.isSome = true ∧ x.injecting = false
/-- The bundle is no phase mark of a timed launch (R25). -/
def NoMark (c : Core) (w : Nat) (xs : List Syl) : Prop := (c.weave w).timed = false ∨ c.launchOf w = none ∨ markSlot xs = none

end Sys2Proof.Claims

/-- R5, R9, R14, R81, R83, R285: a step is `exec` of the instruction that is due. A row that the machine has scheduled, or that
comes from outside, runs on the machine without its entry; the bundle at a PC runs its decoded syllables in the order of their
slots, and takes effect or is left where a syllable traps, and as a phase mark where every participant marks in its cycle; a TXS runs the instruction that its PC reads; else time passes.
The order of equal times and the free waits of idle time are logs 12 and 8. -/
def Obligations.StepsRunTheDecodedInstruction : Prop :=
  (∀ (s : State) (x : Entry) (i : Instr), DueFirst s x → x.act.row = some i →
    Machine.step s = Machine.exec i { core := { s.core with agenda := s.core.agenda.erase x }, base := none }) ∧
  (∀ (s : State) (p : Nat × Instr), s.core.nextRow = some p →
    (∀ x, s.core.firstDue s.core.agenda = some x → bHost ≤ x.band) →
    Machine.step s = if p.2.wf then Machine.exec p.2 { core := { s.core with inbox := s.core.inbox.erase p }, base := none }
      else .fault .illFormed) ∧
  (∀ (s : State) (x : Entry) (w : Nat) (xs : List Syl), DueFirst s x → x.act = .issue w →
    let c := { s.core with agenda := s.core.agenda.erase x }
    let s0 := (c.resolveAtomics w).begin! w (c.bundle w).length false
    Issues c w xs → ∀ t, runBundle Machine.exec s0 xs = .next t →
      (t.base.isSome = true → NoMark (c.resolveAtomics w) w xs → Machine.step s = .next { core := t.commit w xs false, base := none }) ∧
      (t.base.isSome = true → ¬ NoMark (c.resolveAtomics w) w xs → (t.commit w xs true).allMark Machine.exec w = true →
        Machine.step s = .next { core := t.commit w xs true, base := none }) ∧
      (t.base = none → t.core.iss.held = none → NoMark (c.resolveAtomics w) w xs → Machine.step s = .next { core := t.core, base := none })) ∧
  (∀ (s : State) (y : Syl) (rest : List Syl) (i : Instr), y.dec = .ok i →
    let s1 := { s with core := { s.core with iss := { s.core.iss with slot := y.slot, word := BitVec.ofNat 32 y.word } } }
    ∀ full t, Machine.exec i s1 = .next t →
      runSlots Machine.exec full (y :: rest) s = if t.base.isNone then .next t else if full && y.bounds then .next (t.hold 6 id)
        else runSlots Machine.exec full rest t) ∧
  (∀ (kinds : Nat → Nat) (ws : List Nat) (n x : Nat), ws[n]? = some x →
    ((syllables kinds ws)[n]?).map (fun y => (y.slot, y.word)) = some (n, x) ∧
    ((syllables kinds ws)[n]?).map (·.dec) = some (decodeSyl kinds (x % 2 ^ 31))) ∧
  (∀ (s : State) (w : Nat) (xs : List Syl), s.core.cur = w → s.wv.slipping = none → (s.core.weave w).redun = false →
    s.core.iss.reaches = .no → s.core.iss.done = false → s.core.iss.skip = none → s.wv.dbg.step = false → (s.core.weave w).loops = [] →
    let c := s.commit w xs false
    (c.weave w).pc = BitVec.ofNat 14 (s.core.iss.target.getD (s.core.iss.pc + s.core.iss.len)) ∧ (c.weave w).s = (s.core.weave w).s ∧
    (c.weave w).lastIssue = some s.now ∧ ⟨.cycle (s.now + 1), bIssue, w, .issue w⟩ ∈ c.agenda ∧ c.mem = s.core.mem ∧
    ∀ v, v ≠ w → c.weave v = s.core.weave v) ∧
  (∀ (s : State) (x : Entry) (sec u : Nat) (j : Job) (c1 : Core), DueFirst s x → x.act = .txs sec u →
    let c := { s.core with agenda := s.core.agenda.erase x }
    let at_ := txsFlat sec u (c.txsOf sec u).pc
    c.goJob sec u = some j → (c.stopNext (txsEng sec u) = false ∨ (c.txsOf sec u).busyTo < c.now) → c.poison.contains (rowAddr at_) = false → c.jobRead (.pool sec 2 u) j [rowAddr at_] = (c1, true) →
    (∀ i, decodeTxs (memRead c1.mem at_ 4) = some i →
      Machine.step s = Machine.exec i { core := { c1 with curTxs := (sec, u) }, base := none }) ∧
    (decodeTxs (memRead c1.mem at_ 4) = none → Machine.step s = .next { core := c1.txsFault sec u 1, base := none })) ∧
  ∀ s : State, s.core.nextRow = none → s.core.firstDue s.core.agenda = none →
    ∃ n, 1 ≤ n ∧ Machine.step s = .next { core := { s.core with now := s.core.now + n, wall := s.core.wall + n * s.core.cycleLen }, base := none }

/-- R78, R285: words of the manual's examples (chapters 03 to 08), with E set where the example is inside a bundle, decode to the
instructions that they stand for. -/
def Obligations.WordsOfTheManualDecode : Prop :=
  ∀ p ∈ ([(0xB0640889, .vfma .s 4 1 2 1), (0x84052FFD, .addi 5 5 0x7FD), (0x90A5FFFA, .bnz 5 0xFFFA), (0xA2430891, .vaddsat .h 3 1 2 2),
      (0xA4873C05, .vshli .w 7 7 5), (0xA6030880, .kand 3 1 2), (0xC0030FC0, .ldr 3 1 0x1F 0), (0xC0851088, .lds 5 2 2 1),
      (0xC2072185, .atm .max 7 4 6 0), (0xD0021000, .tws false .z 2 2 0), (0xD009401D, .tws true .w 9 8 3), (0xD0A45014, .vred .faddd 4 10 2),
      (0x92201803, .loopi 3 3), (0x95000000, .lease 0 0), (0x18100000, .agenWord 0 0 0), (0x18200100, .agenImm 0 1 256),
      (0x29080000, .movt 1 0 1), (0x40480000, .twait 9), (0x48500000, .tsig 10), (0x58000000, .thalt)] : List (Nat × Instr)),
    decodeTableWord 32 p.1 = some p.2

/-- R78 to R100, R285: for every well-formed instruction that a word encodes, at every value of its operands, decoding the word
gives the instruction back, where the ports report the kind that an engine word asks for. -/
def Obligations.EncodingsDecodeBack : Prop :=
  ∀ i : Instr, i.wf = true →
    (∀ w, encode i = some w → w < 2 ^ 31 ∧ ∀ kinds : Nat → Nat, (∀ p, kinds p ≠ 7) →
      (∀ p k, i.opKind = some (p, k) → kinds p.toNat = k) → decodeSyl kinds w = .ok i) ∧
    ∀ w, encodeTxs i = some w → w < 2 ^ 31 ∧ decodeTxs w = some i

/-- R345, R218, R363, R479: what module reset leaves, and that it meets the invariant. Nothing runs, and the health
table's first look is all that is due (the model's choices of where boot begins and when the table looks, logs 5 and 52). -/
def Obligations.ResetState : Prop :=
  Inv State.reset ∧
  (∀ k, (State.reset.core.sector k).budget = 16 ∧ (State.reset.core.sector k).owner = none) ∧
  (∀ w, State.reset.core.refreshOf w = ⟨0, 0, 0⟩) ∧ (∀ k, ((State.reset.core.ctx k).damask.head?) = some 0x80000000) ∧
  State.reset.core.tick = 0 ∧ State.reset.core.agenda = [⟨.wall Config.secUnits, 14, 0, .healthScan⟩] ∧ State.reset.core.launches = [] ∧ State.reset.base = none

/-- The invariant: a step that answers a next state keeps the canonical form of memory, in the machine and in its snapshot. That form is
the model's choice (log 3). -/
def Obligations.MemoryStaysCanonical : Prop :=
  ∀ s t : State, Inv s → Machine.step s = .next t → Inv t
end

