-- ==== Sys2Proof/Laws/State.lean ====
section
/-! SUPPORT. What each update of the state leaves of each field: one lemma per field per update, so that no later proof
unfolds a record update. The sparse maps come first. -/
namespace Sys2Proof.Laws
open Sys2Proof.Machine

/-! ## Sparse maps -/

theorem mget?_mset_same {α : Type} (m : Map α) (k : Nat) (v : α) : mget? (mset m k v) k = some v := by
  induction m with
  | nil => simp [mset, mget?]
  | cons p m ih =>
    obtain ⟨j, x⟩ := p
    simp only [mset]
    split
    · have h : j ≠ k := by omega
      simp [mget?, h, ih]
    · split <;> simp [mget?]
theorem mget?_mset_other {α : Type} (m : Map α) {k n : Nat} (v : α) (h : n ≠ k) : mget? (mset m k v) n = mget? m n := by
  induction m with
  | nil => simp [mset, mget?, Ne.symm h]
  | cons p m ih =>
    obtain ⟨j, x⟩ := p
    simp only [mset]
    split
    · simp [mget?, ih]
    · split
      · rename_i h₂; subst h₂; simp [mget?, Ne.symm h]
      · simp [mget?, Ne.symm h]
@[simp] theorem mget_mset_same {α : Type} (m : Map α) (k : Nat) (v d : α) : mget (mset m k v) k d = v := by
  simp [mget, mget?_mset_same]
theorem mget_mset_other {α : Type} (m : Map α) {k n : Nat} (v d : α) (h : n ≠ k) : mget (mset m k v) n d = mget m n d := by
  simp [mget, mget?_mset_other m v h]

/-! ## Weaves and sectors -/

@[simp] theorem setW_weave_same (c : Core) (w : Nat) (x : Weave) : (c.setW w x).weave w = x := by
  simp [Core.setW, Core.weave]
theorem setW_weave_other (c : Core) {w v : Nat} (x : Weave) (h : v ≠ w) : (c.setW w x).weave v = c.weave v := by
  simp [Core.setW, Core.weave, mget_mset_other _ _ _ h]
@[simp] theorem modW_weave_same (c : Core) (w : Nat) (f : Weave → Weave) : (c.modW w f).weave w = f (c.weave w) := by
  simp [Core.modW]
theorem modW_weave_other (c : Core) {w v : Nat} (f : Weave → Weave) (h : v ≠ w) : (c.modW w f).weave v = c.weave v := by
  simp [Core.modW, setW_weave_other _ _ h]
@[simp] theorem setSec_sector_same (c : Core) (n : Nat) (x : Sector) : (c.setSec n x).sector n = x := by
  simp [Core.setSec, Core.sector]
theorem setSec_sector_other (c : Core) {n m : Nat} (x : Sector) (h : m ≠ n) : (c.setSec n x).sector m = c.sector m := by
  simp [Core.setSec, Core.sector, mget_mset_other _ _ _ h]
@[simp] theorem modSec_sector_same (c : Core) (n : Nat) (f : Sector → Sector) : (c.modSec n f).sector n = f (c.sector n) := by
  simp [Core.modSec]
theorem modSec_sector_other (c : Core) {n m : Nat} (f : Sector → Sector) (h : m ≠ n) :
    (c.modSec n f).sector m = c.sector m := by
  simp [Core.modSec, setSec_sector_other _ _ h]
@[simp] theorem sched_weave (c : Core) (t b n w : Nat) (a : Act) : (c.sched t b n a).weave w = c.weave w := rfl
@[simp] theorem sched_sector (c : Core) (t b n k : Nat) (a : Act) : (c.sched t b n a).sector k = c.sector k := rfl
@[simp] theorem modW_sector (c : Core) (w k : Nat) (f : Weave → Weave) : (c.modW w f).sector k = c.sector k := rfl
@[simp] theorem modSec_weave (c : Core) (n w : Nat) (f : Sector → Sector) : (c.modSec n f).weave w = c.weave w := rfl


/-! ## sched -/

@[simp] theorem sched_now (c : Core) (t b n : Nat) (a : Act) : (c.sched t b n a).now = c.now := rfl
@[simp] theorem sched_wall (c : Core) (t b n : Nat) (a : Act) : (c.sched t b n a).wall = c.wall := rfl
@[simp] theorem sched_nextId (c : Core) (t b n : Nat) (a : Act) : (c.sched t b n a).nextId = c.nextId := rfl
@[simp] theorem sched_freeCtr (c : Core) (t b n : Nat) (a : Act) : (c.sched t b n a).freeCtr = c.freeCtr := rfl
@[simp] theorem sched_verCtr (c : Core) (t b n : Nat) (a : Act) : (c.sched t b n a).verCtr = c.verCtr := rfl
@[simp] theorem sched_weaves (c : Core) (t b n : Nat) (a : Act) : (c.sched t b n a).weaves = c.weaves := rfl
@[simp] theorem sched_sectors (c : Core) (t b n : Nat) (a : Act) : (c.sched t b n a).sectors = c.sectors := rfl
@[simp] theorem sched_copies (c : Core) (t b n : Nat) (a : Act) : (c.sched t b n a).copies = c.copies := rfl
@[simp] theorem sched_mem (c : Core) (t b n : Nat) (a : Act) : (c.sched t b n a).mem = c.mem := rfl
@[simp] theorem sched_vers (c : Core) (t b n : Nat) (a : Act) : (c.sched t b n a).vers = c.vers := rfl
@[simp] theorem sched_poison (c : Core) (t b n : Nat) (a : Act) : (c.sched t b n a).poison = c.poison := rfl
@[simp] theorem sched_hbmPoison (c : Core) (t b n : Nat) (a : Act) : (c.sched t b n a).hbmPoison = c.hbmPoison := rfl
@[simp] theorem sched_hbmInjected (c : Core) (t b n : Nat) (a : Act) : (c.sched t b n a).hbmInjected = c.hbmInjected := rfl
@[simp] theorem sched_flips (c : Core) (t b n : Nat) (a : Act) : (c.sched t b n a).flips = c.flips := rfl
@[simp] theorem sched_parityFlips (c : Core) (t b n : Nat) (a : Act) : (c.sched t b n a).parityFlips = c.parityFlips := rfl
@[simp] theorem sched_hbmFlips (c : Core) (t b n : Nat) (a : Act) : (c.sched t b n a).hbmFlips = c.hbmFlips := rfl
@[simp] theorem sched_hbmFixed (c : Core) (t b n : Nat) (a : Act) : (c.sched t b n a).hbmFixed = c.hbmFixed := rfl
@[simp] theorem sched_busHits (c : Core) (t b n : Nat) (a : Act) : (c.sched t b n a).busHits = c.busHits := rfl
@[simp] theorem sched_gzNet (c : Core) (t b n : Nat) (a : Act) : (c.sched t b n a).gzNet = c.gzNet := rfl
@[simp] theorem sched_gzLinks (c : Core) (t b n : Nat) (a : Act) : (c.sched t b n a).gzLinks = c.gzLinks := rfl
@[simp] theorem sched_recoveries (c : Core) (t b n : Nat) (a : Act) : (c.sched t b n a).recoveries = c.recoveries := rfl
@[simp] theorem sched_recBusy (c : Core) (t b n : Nat) (a : Act) : (c.sched t b n a).recBusy = c.recBusy := rfl
@[simp] theorem sched_towers (c : Core) (t b n : Nat) (a : Act) : (c.sched t b n a).towers = c.towers := rfl
@[simp] theorem sched_cellMaps (c : Core) (t b n : Nat) (a : Act) : (c.sched t b n a).cellMaps = c.cellMaps := rfl
@[simp] theorem sched_busMaps (c : Core) (t b n : Nat) (a : Act) : (c.sched t b n a).busMaps = c.busMaps := rfl
@[simp] theorem sched_refreshes (c : Core) (t b n : Nat) (a : Act) : (c.sched t b n a).refreshes = c.refreshes := rfl
@[simp] theorem sched_launches (c : Core) (t b n : Nat) (a : Act) : (c.sched t b n a).launches = c.launches := rfl
@[simp] theorem sched_contexts (c : Core) (t b n : Nat) (a : Act) : (c.sched t b n a).contexts = c.contexts := rfl
@[simp] theorem sched_queues (c : Core) (t b n : Nat) (a : Act) : (c.sched t b n a).queues = c.queues := rfl
@[simp] theorem sched_lastServed (c : Core) (t b n : Nat) (a : Act) : (c.sched t b n a).lastServed = c.lastServed := rfl
@[simp] theorem sched_graphs (c : Core) (t b n : Nat) (a : Act) : (c.sched t b n a).graphs = c.graphs := rfl
@[simp] theorem sched_links (c : Core) (t b n : Nat) (a : Act) : (c.sched t b n a).links = c.links := rfl
@[simp] theorem sched_peerReads (c : Core) (t b n : Nat) (a : Act) : (c.sched t b n a).peerReads = c.peerReads := rfl
@[simp] theorem sched_cpOp (c : Core) (t b n : Nat) (a : Act) : (c.sched t b n a).cpOp = c.cpOp := rfl
@[simp] theorem sched_cpWords (c : Core) (t b n : Nat) (a : Act) : (c.sched t b n a).cpWords = c.cpWords := rfl
@[simp] theorem sched_collectives (c : Core) (t b n : Nat) (a : Act) : (c.sched t b n a).collectives = c.collectives := rfl
@[simp] theorem sched_bills (c : Core) (t b n : Nat) (a : Act) : (c.sched t b n a).bills = c.bills := rfl
@[simp] theorem sched_outbox (c : Core) (t b n : Nat) (a : Act) : (c.sched t b n a).outbox = c.outbox := rfl
@[simp] theorem sched_health (c : Core) (t b n : Nat) (a : Act) : (c.sched t b n a).health = c.health := rfl
@[simp] theorem sched_tests (c : Core) (t b n : Nat) (a : Act) : (c.sched t b n a).tests = c.tests := rfl
@[simp] theorem sched_host (c : Core) (t b n : Nat) (a : Act) : (c.sched t b n a).host = c.host := rfl
@[simp] theorem sched_power (c : Core) (t b n : Nat) (a : Act) : (c.sched t b n a).power = c.power := rfl
@[simp] theorem sched_clockStep (c : Core) (t b n : Nat) (a : Act) : (c.sched t b n a).clockStep = c.clockStep := rfl
@[simp] theorem sched_inbox (c : Core) (t b n : Nat) (a : Act) : (c.sched t b n a).inbox = c.inbox := rfl
@[simp] theorem sched_played (c : Core) (t b n : Nat) (a : Act) : (c.sched t b n a).played = c.played := rfl
@[simp] theorem sched_fixes (c : Core) (t b n : Nat) (a : Act) : (c.sched t b n a).fixes = c.fixes := rfl
@[simp] theorem sched_cur (c : Core) (t b n : Nat) (a : Act) : (c.sched t b n a).cur = c.cur := rfl
@[simp] theorem sched_curTxs (c : Core) (t b n : Nat) (a : Act) : (c.sched t b n a).curTxs = c.curTxs := rfl
@[simp] theorem sched_iss (c : Core) (t b n : Nat) (a : Act) : (c.sched t b n a).iss = c.iss := rfl

/-! ## schedWall -/

@[simp] theorem schedWall_now (c : Core) (t b n : Nat) (a : Act) : (c.schedWall t b n a).now = c.now := rfl
@[simp] theorem schedWall_wall (c : Core) (t b n : Nat) (a : Act) : (c.schedWall t b n a).wall = c.wall := rfl
@[simp] theorem schedWall_nextId (c : Core) (t b n : Nat) (a : Act) : (c.schedWall t b n a).nextId = c.nextId := rfl
@[simp] theorem schedWall_freeCtr (c : Core) (t b n : Nat) (a : Act) : (c.schedWall t b n a).freeCtr = c.freeCtr := rfl
@[simp] theorem schedWall_verCtr (c : Core) (t b n : Nat) (a : Act) : (c.schedWall t b n a).verCtr = c.verCtr := rfl
@[simp] theorem schedWall_weaves (c : Core) (t b n : Nat) (a : Act) : (c.schedWall t b n a).weaves = c.weaves := rfl
@[simp] theorem schedWall_sectors (c : Core) (t b n : Nat) (a : Act) : (c.schedWall t b n a).sectors = c.sectors := rfl
@[simp] theorem schedWall_copies (c : Core) (t b n : Nat) (a : Act) : (c.schedWall t b n a).copies = c.copies := rfl
@[simp] theorem schedWall_mem (c : Core) (t b n : Nat) (a : Act) : (c.schedWall t b n a).mem = c.mem := rfl
@[simp] theorem schedWall_vers (c : Core) (t b n : Nat) (a : Act) : (c.schedWall t b n a).vers = c.vers := rfl
@[simp] theorem schedWall_poison (c : Core) (t b n : Nat) (a : Act) : (c.schedWall t b n a).poison = c.poison := rfl
@[simp] theorem schedWall_hbmPoison (c : Core) (t b n : Nat) (a : Act) : (c.schedWall t b n a).hbmPoison = c.hbmPoison := rfl
@[simp] theorem schedWall_hbmInjected (c : Core) (t b n : Nat) (a : Act) : (c.schedWall t b n a).hbmInjected = c.hbmInjected := rfl
@[simp] theorem schedWall_flips (c : Core) (t b n : Nat) (a : Act) : (c.schedWall t b n a).flips = c.flips := rfl
@[simp] theorem schedWall_parityFlips (c : Core) (t b n : Nat) (a : Act) : (c.schedWall t b n a).parityFlips = c.parityFlips := rfl
@[simp] theorem schedWall_hbmFlips (c : Core) (t b n : Nat) (a : Act) : (c.schedWall t b n a).hbmFlips = c.hbmFlips := rfl
@[simp] theorem schedWall_hbmFixed (c : Core) (t b n : Nat) (a : Act) : (c.schedWall t b n a).hbmFixed = c.hbmFixed := rfl
@[simp] theorem schedWall_busHits (c : Core) (t b n : Nat) (a : Act) : (c.schedWall t b n a).busHits = c.busHits := rfl
@[simp] theorem schedWall_gzNet (c : Core) (t b n : Nat) (a : Act) : (c.schedWall t b n a).gzNet = c.gzNet := rfl
@[simp] theorem schedWall_gzLinks (c : Core) (t b n : Nat) (a : Act) : (c.schedWall t b n a).gzLinks = c.gzLinks := rfl
@[simp] theorem schedWall_recoveries (c : Core) (t b n : Nat) (a : Act) : (c.schedWall t b n a).recoveries = c.recoveries := rfl
@[simp] theorem schedWall_recBusy (c : Core) (t b n : Nat) (a : Act) : (c.schedWall t b n a).recBusy = c.recBusy := rfl
@[simp] theorem schedWall_towers (c : Core) (t b n : Nat) (a : Act) : (c.schedWall t b n a).towers = c.towers := rfl
@[simp] theorem schedWall_cellMaps (c : Core) (t b n : Nat) (a : Act) : (c.schedWall t b n a).cellMaps = c.cellMaps := rfl
@[simp] theorem schedWall_busMaps (c : Core) (t b n : Nat) (a : Act) : (c.schedWall t b n a).busMaps = c.busMaps := rfl
@[simp] theorem schedWall_refreshes (c : Core) (t b n : Nat) (a : Act) : (c.schedWall t b n a).refreshes = c.refreshes := rfl
@[simp] theorem schedWall_launches (c : Core) (t b n : Nat) (a : Act) : (c.schedWall t b n a).launches = c.launches := rfl
@[simp] theorem schedWall_contexts (c : Core) (t b n : Nat) (a : Act) : (c.schedWall t b n a).contexts = c.contexts := rfl
@[simp] theorem schedWall_queues (c : Core) (t b n : Nat) (a : Act) : (c.schedWall t b n a).queues = c.queues := rfl
@[simp] theorem schedWall_lastServed (c : Core) (t b n : Nat) (a : Act) : (c.schedWall t b n a).lastServed = c.lastServed := rfl
@[simp] theorem schedWall_graphs (c : Core) (t b n : Nat) (a : Act) : (c.schedWall t b n a).graphs = c.graphs := rfl
@[simp] theorem schedWall_links (c : Core) (t b n : Nat) (a : Act) : (c.schedWall t b n a).links = c.links := rfl
@[simp] theorem schedWall_peerReads (c : Core) (t b n : Nat) (a : Act) : (c.schedWall t b n a).peerReads = c.peerReads := rfl
@[simp] theorem schedWall_cpOp (c : Core) (t b n : Nat) (a : Act) : (c.schedWall t b n a).cpOp = c.cpOp := rfl
@[simp] theorem schedWall_cpWords (c : Core) (t b n : Nat) (a : Act) : (c.schedWall t b n a).cpWords = c.cpWords := rfl
@[simp] theorem schedWall_collectives (c : Core) (t b n : Nat) (a : Act) : (c.schedWall t b n a).collectives = c.collectives := rfl
@[simp] theorem schedWall_bills (c : Core) (t b n : Nat) (a : Act) : (c.schedWall t b n a).bills = c.bills := rfl
@[simp] theorem schedWall_outbox (c : Core) (t b n : Nat) (a : Act) : (c.schedWall t b n a).outbox = c.outbox := rfl
@[simp] theorem schedWall_health (c : Core) (t b n : Nat) (a : Act) : (c.schedWall t b n a).health = c.health := rfl
@[simp] theorem schedWall_tests (c : Core) (t b n : Nat) (a : Act) : (c.schedWall t b n a).tests = c.tests := rfl
@[simp] theorem schedWall_host (c : Core) (t b n : Nat) (a : Act) : (c.schedWall t b n a).host = c.host := rfl
@[simp] theorem schedWall_power (c : Core) (t b n : Nat) (a : Act) : (c.schedWall t b n a).power = c.power := rfl
@[simp] theorem schedWall_clockStep (c : Core) (t b n : Nat) (a : Act) : (c.schedWall t b n a).clockStep = c.clockStep := rfl
@[simp] theorem schedWall_inbox (c : Core) (t b n : Nat) (a : Act) : (c.schedWall t b n a).inbox = c.inbox := rfl
@[simp] theorem schedWall_played (c : Core) (t b n : Nat) (a : Act) : (c.schedWall t b n a).played = c.played := rfl
@[simp] theorem schedWall_fixes (c : Core) (t b n : Nat) (a : Act) : (c.schedWall t b n a).fixes = c.fixes := rfl
@[simp] theorem schedWall_cur (c : Core) (t b n : Nat) (a : Act) : (c.schedWall t b n a).cur = c.cur := rfl
@[simp] theorem schedWall_curTxs (c : Core) (t b n : Nat) (a : Act) : (c.schedWall t b n a).curTxs = c.curTxs := rfl
@[simp] theorem schedWall_iss (c : Core) (t b n : Nat) (a : Act) : (c.schedWall t b n a).iss = c.iss := rfl

/-! ## unsched -/

@[simp] theorem unsched_now (c : Core) (p : Act → Bool) : (c.unsched p).now = c.now := rfl
@[simp] theorem unsched_wall (c : Core) (p : Act → Bool) : (c.unsched p).wall = c.wall := rfl
@[simp] theorem unsched_nextId (c : Core) (p : Act → Bool) : (c.unsched p).nextId = c.nextId := rfl
@[simp] theorem unsched_freeCtr (c : Core) (p : Act → Bool) : (c.unsched p).freeCtr = c.freeCtr := rfl
@[simp] theorem unsched_verCtr (c : Core) (p : Act → Bool) : (c.unsched p).verCtr = c.verCtr := rfl
@[simp] theorem unsched_weaves (c : Core) (p : Act → Bool) : (c.unsched p).weaves = c.weaves := rfl
@[simp] theorem unsched_sectors (c : Core) (p : Act → Bool) : (c.unsched p).sectors = c.sectors := rfl
@[simp] theorem unsched_copies (c : Core) (p : Act → Bool) : (c.unsched p).copies = c.copies := rfl
@[simp] theorem unsched_mem (c : Core) (p : Act → Bool) : (c.unsched p).mem = c.mem := rfl
@[simp] theorem unsched_vers (c : Core) (p : Act → Bool) : (c.unsched p).vers = c.vers := rfl
@[simp] theorem unsched_poison (c : Core) (p : Act → Bool) : (c.unsched p).poison = c.poison := rfl
@[simp] theorem unsched_hbmPoison (c : Core) (p : Act → Bool) : (c.unsched p).hbmPoison = c.hbmPoison := rfl
@[simp] theorem unsched_hbmInjected (c : Core) (p : Act → Bool) : (c.unsched p).hbmInjected = c.hbmInjected := rfl
@[simp] theorem unsched_flips (c : Core) (p : Act → Bool) : (c.unsched p).flips = c.flips := rfl
@[simp] theorem unsched_parityFlips (c : Core) (p : Act → Bool) : (c.unsched p).parityFlips = c.parityFlips := rfl
@[simp] theorem unsched_hbmFlips (c : Core) (p : Act → Bool) : (c.unsched p).hbmFlips = c.hbmFlips := rfl
@[simp] theorem unsched_hbmFixed (c : Core) (p : Act → Bool) : (c.unsched p).hbmFixed = c.hbmFixed := rfl
@[simp] theorem unsched_busHits (c : Core) (p : Act → Bool) : (c.unsched p).busHits = c.busHits := rfl
@[simp] theorem unsched_gzNet (c : Core) (p : Act → Bool) : (c.unsched p).gzNet = c.gzNet := rfl
@[simp] theorem unsched_gzLinks (c : Core) (p : Act → Bool) : (c.unsched p).gzLinks = c.gzLinks := rfl
@[simp] theorem unsched_recoveries (c : Core) (p : Act → Bool) : (c.unsched p).recoveries = c.recoveries := rfl
@[simp] theorem unsched_recBusy (c : Core) (p : Act → Bool) : (c.unsched p).recBusy = c.recBusy := rfl
@[simp] theorem unsched_towers (c : Core) (p : Act → Bool) : (c.unsched p).towers = c.towers := rfl
@[simp] theorem unsched_cellMaps (c : Core) (p : Act → Bool) : (c.unsched p).cellMaps = c.cellMaps := rfl
@[simp] theorem unsched_busMaps (c : Core) (p : Act → Bool) : (c.unsched p).busMaps = c.busMaps := rfl
@[simp] theorem unsched_refreshes (c : Core) (p : Act → Bool) : (c.unsched p).refreshes = c.refreshes := rfl
@[simp] theorem unsched_launches (c : Core) (p : Act → Bool) : (c.unsched p).launches = c.launches := rfl
@[simp] theorem unsched_contexts (c : Core) (p : Act → Bool) : (c.unsched p).contexts = c.contexts := rfl
@[simp] theorem unsched_queues (c : Core) (p : Act → Bool) : (c.unsched p).queues = c.queues := rfl
@[simp] theorem unsched_lastServed (c : Core) (p : Act → Bool) : (c.unsched p).lastServed = c.lastServed := rfl
@[simp] theorem unsched_graphs (c : Core) (p : Act → Bool) : (c.unsched p).graphs = c.graphs := rfl
@[simp] theorem unsched_links (c : Core) (p : Act → Bool) : (c.unsched p).links = c.links := rfl
@[simp] theorem unsched_peerReads (c : Core) (p : Act → Bool) : (c.unsched p).peerReads = c.peerReads := rfl
@[simp] theorem unsched_cpOp (c : Core) (p : Act → Bool) : (c.unsched p).cpOp = c.cpOp := rfl
@[simp] theorem unsched_cpWords (c : Core) (p : Act → Bool) : (c.unsched p).cpWords = c.cpWords := rfl
@[simp] theorem unsched_collectives (c : Core) (p : Act → Bool) : (c.unsched p).collectives = c.collectives := rfl
@[simp] theorem unsched_bills (c : Core) (p : Act → Bool) : (c.unsched p).bills = c.bills := rfl
@[simp] theorem unsched_outbox (c : Core) (p : Act → Bool) : (c.unsched p).outbox = c.outbox := rfl
@[simp] theorem unsched_health (c : Core) (p : Act → Bool) : (c.unsched p).health = c.health := rfl
@[simp] theorem unsched_tests (c : Core) (p : Act → Bool) : (c.unsched p).tests = c.tests := rfl
@[simp] theorem unsched_host (c : Core) (p : Act → Bool) : (c.unsched p).host = c.host := rfl
@[simp] theorem unsched_power (c : Core) (p : Act → Bool) : (c.unsched p).power = c.power := rfl
@[simp] theorem unsched_clockStep (c : Core) (p : Act → Bool) : (c.unsched p).clockStep = c.clockStep := rfl
@[simp] theorem unsched_inbox (c : Core) (p : Act → Bool) : (c.unsched p).inbox = c.inbox := rfl
@[simp] theorem unsched_played (c : Core) (p : Act → Bool) : (c.unsched p).played = c.played := rfl
@[simp] theorem unsched_fixes (c : Core) (p : Act → Bool) : (c.unsched p).fixes = c.fixes := rfl
@[simp] theorem unsched_cur (c : Core) (p : Act → Bool) : (c.unsched p).cur = c.cur := rfl
@[simp] theorem unsched_curTxs (c : Core) (p : Act → Bool) : (c.unsched p).curTxs = c.curTxs := rfl
@[simp] theorem unsched_iss (c : Core) (p : Act → Bool) : (c.unsched p).iss = c.iss := rfl

/-! ## setW -/

@[simp] theorem setW_now (c : Core) (w : Nat) (x : Weave) : (c.setW w x).now = c.now := rfl
@[simp] theorem setW_wall (c : Core) (w : Nat) (x : Weave) : (c.setW w x).wall = c.wall := rfl
@[simp] theorem setW_nextId (c : Core) (w : Nat) (x : Weave) : (c.setW w x).nextId = c.nextId := rfl
@[simp] theorem setW_freeCtr (c : Core) (w : Nat) (x : Weave) : (c.setW w x).freeCtr = c.freeCtr := rfl
@[simp] theorem setW_verCtr (c : Core) (w : Nat) (x : Weave) : (c.setW w x).verCtr = c.verCtr := rfl
@[simp] theorem setW_sectors (c : Core) (w : Nat) (x : Weave) : (c.setW w x).sectors = c.sectors := rfl
@[simp] theorem setW_copies (c : Core) (w : Nat) (x : Weave) : (c.setW w x).copies = c.copies := rfl
@[simp] theorem setW_mem (c : Core) (w : Nat) (x : Weave) : (c.setW w x).mem = c.mem := rfl
@[simp] theorem setW_vers (c : Core) (w : Nat) (x : Weave) : (c.setW w x).vers = c.vers := rfl
@[simp] theorem setW_poison (c : Core) (w : Nat) (x : Weave) : (c.setW w x).poison = c.poison := rfl
@[simp] theorem setW_hbmPoison (c : Core) (w : Nat) (x : Weave) : (c.setW w x).hbmPoison = c.hbmPoison := rfl
@[simp] theorem setW_hbmInjected (c : Core) (w : Nat) (x : Weave) : (c.setW w x).hbmInjected = c.hbmInjected := rfl
@[simp] theorem setW_flips (c : Core) (w : Nat) (x : Weave) : (c.setW w x).flips = c.flips := rfl
@[simp] theorem setW_parityFlips (c : Core) (w : Nat) (x : Weave) : (c.setW w x).parityFlips = c.parityFlips := rfl
@[simp] theorem setW_hbmFlips (c : Core) (w : Nat) (x : Weave) : (c.setW w x).hbmFlips = c.hbmFlips := rfl
@[simp] theorem setW_hbmFixed (c : Core) (w : Nat) (x : Weave) : (c.setW w x).hbmFixed = c.hbmFixed := rfl
@[simp] theorem setW_busHits (c : Core) (w : Nat) (x : Weave) : (c.setW w x).busHits = c.busHits := rfl
@[simp] theorem setW_gzNet (c : Core) (w : Nat) (x : Weave) : (c.setW w x).gzNet = c.gzNet := rfl
@[simp] theorem setW_gzLinks (c : Core) (w : Nat) (x : Weave) : (c.setW w x).gzLinks = c.gzLinks := rfl
@[simp] theorem setW_recoveries (c : Core) (w : Nat) (x : Weave) : (c.setW w x).recoveries = c.recoveries := rfl
@[simp] theorem setW_recBusy (c : Core) (w : Nat) (x : Weave) : (c.setW w x).recBusy = c.recBusy := rfl
@[simp] theorem setW_towers (c : Core) (w : Nat) (x : Weave) : (c.setW w x).towers = c.towers := rfl
@[simp] theorem setW_cellMaps (c : Core) (w : Nat) (x : Weave) : (c.setW w x).cellMaps = c.cellMaps := rfl
@[simp] theorem setW_busMaps (c : Core) (w : Nat) (x : Weave) : (c.setW w x).busMaps = c.busMaps := rfl
@[simp] theorem setW_refreshes (c : Core) (w : Nat) (x : Weave) : (c.setW w x).refreshes = c.refreshes := rfl
@[simp] theorem setW_launches (c : Core) (w : Nat) (x : Weave) : (c.setW w x).launches = c.launches := rfl
@[simp] theorem setW_contexts (c : Core) (w : Nat) (x : Weave) : (c.setW w x).contexts = c.contexts := rfl
@[simp] theorem setW_queues (c : Core) (w : Nat) (x : Weave) : (c.setW w x).queues = c.queues := rfl
@[simp] theorem setW_lastServed (c : Core) (w : Nat) (x : Weave) : (c.setW w x).lastServed = c.lastServed := rfl
@[simp] theorem setW_graphs (c : Core) (w : Nat) (x : Weave) : (c.setW w x).graphs = c.graphs := rfl
@[simp] theorem setW_links (c : Core) (w : Nat) (x : Weave) : (c.setW w x).links = c.links := rfl
@[simp] theorem setW_peerReads (c : Core) (w : Nat) (x : Weave) : (c.setW w x).peerReads = c.peerReads := rfl
@[simp] theorem setW_cpOp (c : Core) (w : Nat) (x : Weave) : (c.setW w x).cpOp = c.cpOp := rfl
@[simp] theorem setW_cpWords (c : Core) (w : Nat) (x : Weave) : (c.setW w x).cpWords = c.cpWords := rfl
@[simp] theorem setW_collectives (c : Core) (w : Nat) (x : Weave) : (c.setW w x).collectives = c.collectives := rfl
@[simp] theorem setW_bills (c : Core) (w : Nat) (x : Weave) : (c.setW w x).bills = c.bills := rfl
@[simp] theorem setW_outbox (c : Core) (w : Nat) (x : Weave) : (c.setW w x).outbox = c.outbox := rfl
@[simp] theorem setW_health (c : Core) (w : Nat) (x : Weave) : (c.setW w x).health = c.health := rfl
@[simp] theorem setW_tests (c : Core) (w : Nat) (x : Weave) : (c.setW w x).tests = c.tests := rfl
@[simp] theorem setW_host (c : Core) (w : Nat) (x : Weave) : (c.setW w x).host = c.host := rfl
@[simp] theorem setW_power (c : Core) (w : Nat) (x : Weave) : (c.setW w x).power = c.power := rfl
@[simp] theorem setW_clockStep (c : Core) (w : Nat) (x : Weave) : (c.setW w x).clockStep = c.clockStep := rfl
@[simp] theorem setW_agenda (c : Core) (w : Nat) (x : Weave) : (c.setW w x).agenda = c.agenda := rfl
@[simp] theorem setW_inbox (c : Core) (w : Nat) (x : Weave) : (c.setW w x).inbox = c.inbox := rfl
@[simp] theorem setW_played (c : Core) (w : Nat) (x : Weave) : (c.setW w x).played = c.played := rfl
@[simp] theorem setW_fixes (c : Core) (w : Nat) (x : Weave) : (c.setW w x).fixes = c.fixes := rfl
@[simp] theorem setW_cur (c : Core) (w : Nat) (x : Weave) : (c.setW w x).cur = c.cur := rfl
@[simp] theorem setW_curTxs (c : Core) (w : Nat) (x : Weave) : (c.setW w x).curTxs = c.curTxs := rfl
@[simp] theorem setW_iss (c : Core) (w : Nat) (x : Weave) : (c.setW w x).iss = c.iss := rfl

/-! ## modW -/

@[simp] theorem modW_now (c : Core) (w : Nat) (f : Weave → Weave) : (c.modW w f).now = c.now := rfl
@[simp] theorem modW_wall (c : Core) (w : Nat) (f : Weave → Weave) : (c.modW w f).wall = c.wall := rfl
@[simp] theorem modW_nextId (c : Core) (w : Nat) (f : Weave → Weave) : (c.modW w f).nextId = c.nextId := rfl
@[simp] theorem modW_freeCtr (c : Core) (w : Nat) (f : Weave → Weave) : (c.modW w f).freeCtr = c.freeCtr := rfl
@[simp] theorem modW_verCtr (c : Core) (w : Nat) (f : Weave → Weave) : (c.modW w f).verCtr = c.verCtr := rfl
@[simp] theorem modW_sectors (c : Core) (w : Nat) (f : Weave → Weave) : (c.modW w f).sectors = c.sectors := rfl
@[simp] theorem modW_copies (c : Core) (w : Nat) (f : Weave → Weave) : (c.modW w f).copies = c.copies := rfl
@[simp] theorem modW_mem (c : Core) (w : Nat) (f : Weave → Weave) : (c.modW w f).mem = c.mem := rfl
@[simp] theorem modW_vers (c : Core) (w : Nat) (f : Weave → Weave) : (c.modW w f).vers = c.vers := rfl
@[simp] theorem modW_poison (c : Core) (w : Nat) (f : Weave → Weave) : (c.modW w f).poison = c.poison := rfl
@[simp] theorem modW_hbmPoison (c : Core) (w : Nat) (f : Weave → Weave) : (c.modW w f).hbmPoison = c.hbmPoison := rfl
@[simp] theorem modW_hbmInjected (c : Core) (w : Nat) (f : Weave → Weave) : (c.modW w f).hbmInjected = c.hbmInjected := rfl
@[simp] theorem modW_flips (c : Core) (w : Nat) (f : Weave → Weave) : (c.modW w f).flips = c.flips := rfl
@[simp] theorem modW_parityFlips (c : Core) (w : Nat) (f : Weave → Weave) : (c.modW w f).parityFlips = c.parityFlips := rfl
@[simp] theorem modW_hbmFlips (c : Core) (w : Nat) (f : Weave → Weave) : (c.modW w f).hbmFlips = c.hbmFlips := rfl
@[simp] theorem modW_hbmFixed (c : Core) (w : Nat) (f : Weave → Weave) : (c.modW w f).hbmFixed = c.hbmFixed := rfl
@[simp] theorem modW_busHits (c : Core) (w : Nat) (f : Weave → Weave) : (c.modW w f).busHits = c.busHits := rfl
@[simp] theorem modW_gzNet (c : Core) (w : Nat) (f : Weave → Weave) : (c.modW w f).gzNet = c.gzNet := rfl
@[simp] theorem modW_gzLinks (c : Core) (w : Nat) (f : Weave → Weave) : (c.modW w f).gzLinks = c.gzLinks := rfl
@[simp] theorem modW_recoveries (c : Core) (w : Nat) (f : Weave → Weave) : (c.modW w f).recoveries = c.recoveries := rfl
@[simp] theorem modW_recBusy (c : Core) (w : Nat) (f : Weave → Weave) : (c.modW w f).recBusy = c.recBusy := rfl
@[simp] theorem modW_towers (c : Core) (w : Nat) (f : Weave → Weave) : (c.modW w f).towers = c.towers := rfl
@[simp] theorem modW_cellMaps (c : Core) (w : Nat) (f : Weave → Weave) : (c.modW w f).cellMaps = c.cellMaps := rfl
@[simp] theorem modW_busMaps (c : Core) (w : Nat) (f : Weave → Weave) : (c.modW w f).busMaps = c.busMaps := rfl
@[simp] theorem modW_refreshes (c : Core) (w : Nat) (f : Weave → Weave) : (c.modW w f).refreshes = c.refreshes := rfl
@[simp] theorem modW_launches (c : Core) (w : Nat) (f : Weave → Weave) : (c.modW w f).launches = c.launches := rfl
@[simp] theorem modW_contexts (c : Core) (w : Nat) (f : Weave → Weave) : (c.modW w f).contexts = c.contexts := rfl
@[simp] theorem modW_queues (c : Core) (w : Nat) (f : Weave → Weave) : (c.modW w f).queues = c.queues := rfl
@[simp] theorem modW_lastServed (c : Core) (w : Nat) (f : Weave → Weave) : (c.modW w f).lastServed = c.lastServed := rfl
@[simp] theorem modW_graphs (c : Core) (w : Nat) (f : Weave → Weave) : (c.modW w f).graphs = c.graphs := rfl
@[simp] theorem modW_links (c : Core) (w : Nat) (f : Weave → Weave) : (c.modW w f).links = c.links := rfl
@[simp] theorem modW_peerReads (c : Core) (w : Nat) (f : Weave → Weave) : (c.modW w f).peerReads = c.peerReads := rfl
@[simp] theorem modW_cpOp (c : Core) (w : Nat) (f : Weave → Weave) : (c.modW w f).cpOp = c.cpOp := rfl
@[simp] theorem modW_cpWords (c : Core) (w : Nat) (f : Weave → Weave) : (c.modW w f).cpWords = c.cpWords := rfl
@[simp] theorem modW_collectives (c : Core) (w : Nat) (f : Weave → Weave) : (c.modW w f).collectives = c.collectives := rfl
@[simp] theorem modW_bills (c : Core) (w : Nat) (f : Weave → Weave) : (c.modW w f).bills = c.bills := rfl
@[simp] theorem modW_outbox (c : Core) (w : Nat) (f : Weave → Weave) : (c.modW w f).outbox = c.outbox := rfl
@[simp] theorem modW_health (c : Core) (w : Nat) (f : Weave → Weave) : (c.modW w f).health = c.health := rfl
@[simp] theorem modW_tests (c : Core) (w : Nat) (f : Weave → Weave) : (c.modW w f).tests = c.tests := rfl
@[simp] theorem modW_host (c : Core) (w : Nat) (f : Weave → Weave) : (c.modW w f).host = c.host := rfl
@[simp] theorem modW_power (c : Core) (w : Nat) (f : Weave → Weave) : (c.modW w f).power = c.power := rfl
@[simp] theorem modW_clockStep (c : Core) (w : Nat) (f : Weave → Weave) : (c.modW w f).clockStep = c.clockStep := rfl
@[simp] theorem modW_agenda (c : Core) (w : Nat) (f : Weave → Weave) : (c.modW w f).agenda = c.agenda := rfl
@[simp] theorem modW_inbox (c : Core) (w : Nat) (f : Weave → Weave) : (c.modW w f).inbox = c.inbox := rfl
@[simp] theorem modW_played (c : Core) (w : Nat) (f : Weave → Weave) : (c.modW w f).played = c.played := rfl
@[simp] theorem modW_fixes (c : Core) (w : Nat) (f : Weave → Weave) : (c.modW w f).fixes = c.fixes := rfl
@[simp] theorem modW_cur (c : Core) (w : Nat) (f : Weave → Weave) : (c.modW w f).cur = c.cur := rfl
@[simp] theorem modW_curTxs (c : Core) (w : Nat) (f : Weave → Weave) : (c.modW w f).curTxs = c.curTxs := rfl
@[simp] theorem modW_iss (c : Core) (w : Nat) (f : Weave → Weave) : (c.modW w f).iss = c.iss := rfl

/-! ## setSec -/

@[simp] theorem setSec_now (c : Core) (n : Nat) (x : Sector) : (c.setSec n x).now = c.now := rfl
@[simp] theorem setSec_wall (c : Core) (n : Nat) (x : Sector) : (c.setSec n x).wall = c.wall := rfl
@[simp] theorem setSec_nextId (c : Core) (n : Nat) (x : Sector) : (c.setSec n x).nextId = c.nextId := rfl
@[simp] theorem setSec_freeCtr (c : Core) (n : Nat) (x : Sector) : (c.setSec n x).freeCtr = c.freeCtr := rfl
@[simp] theorem setSec_verCtr (c : Core) (n : Nat) (x : Sector) : (c.setSec n x).verCtr = c.verCtr := rfl
@[simp] theorem setSec_weaves (c : Core) (n : Nat) (x : Sector) : (c.setSec n x).weaves = c.weaves := rfl
@[simp] theorem setSec_copies (c : Core) (n : Nat) (x : Sector) : (c.setSec n x).copies = c.copies := rfl
@[simp] theorem setSec_mem (c : Core) (n : Nat) (x : Sector) : (c.setSec n x).mem = c.mem := rfl
@[simp] theorem setSec_vers (c : Core) (n : Nat) (x : Sector) : (c.setSec n x).vers = c.vers := rfl
@[simp] theorem setSec_poison (c : Core) (n : Nat) (x : Sector) : (c.setSec n x).poison = c.poison := rfl
@[simp] theorem setSec_hbmPoison (c : Core) (n : Nat) (x : Sector) : (c.setSec n x).hbmPoison = c.hbmPoison := rfl
@[simp] theorem setSec_hbmInjected (c : Core) (n : Nat) (x : Sector) : (c.setSec n x).hbmInjected = c.hbmInjected := rfl
@[simp] theorem setSec_flips (c : Core) (n : Nat) (x : Sector) : (c.setSec n x).flips = c.flips := rfl
@[simp] theorem setSec_parityFlips (c : Core) (n : Nat) (x : Sector) : (c.setSec n x).parityFlips = c.parityFlips := rfl
@[simp] theorem setSec_hbmFlips (c : Core) (n : Nat) (x : Sector) : (c.setSec n x).hbmFlips = c.hbmFlips := rfl
@[simp] theorem setSec_hbmFixed (c : Core) (n : Nat) (x : Sector) : (c.setSec n x).hbmFixed = c.hbmFixed := rfl
@[simp] theorem setSec_busHits (c : Core) (n : Nat) (x : Sector) : (c.setSec n x).busHits = c.busHits := rfl
@[simp] theorem setSec_gzNet (c : Core) (n : Nat) (x : Sector) : (c.setSec n x).gzNet = c.gzNet := rfl
@[simp] theorem setSec_gzLinks (c : Core) (n : Nat) (x : Sector) : (c.setSec n x).gzLinks = c.gzLinks := rfl
@[simp] theorem setSec_recoveries (c : Core) (n : Nat) (x : Sector) : (c.setSec n x).recoveries = c.recoveries := rfl
@[simp] theorem setSec_recBusy (c : Core) (n : Nat) (x : Sector) : (c.setSec n x).recBusy = c.recBusy := rfl
@[simp] theorem setSec_towers (c : Core) (n : Nat) (x : Sector) : (c.setSec n x).towers = c.towers := rfl
@[simp] theorem setSec_cellMaps (c : Core) (n : Nat) (x : Sector) : (c.setSec n x).cellMaps = c.cellMaps := rfl
@[simp] theorem setSec_busMaps (c : Core) (n : Nat) (x : Sector) : (c.setSec n x).busMaps = c.busMaps := rfl
@[simp] theorem setSec_refreshes (c : Core) (n : Nat) (x : Sector) : (c.setSec n x).refreshes = c.refreshes := rfl
@[simp] theorem setSec_launches (c : Core) (n : Nat) (x : Sector) : (c.setSec n x).launches = c.launches := rfl
@[simp] theorem setSec_contexts (c : Core) (n : Nat) (x : Sector) : (c.setSec n x).contexts = c.contexts := rfl
@[simp] theorem setSec_queues (c : Core) (n : Nat) (x : Sector) : (c.setSec n x).queues = c.queues := rfl
@[simp] theorem setSec_lastServed (c : Core) (n : Nat) (x : Sector) : (c.setSec n x).lastServed = c.lastServed := rfl
@[simp] theorem setSec_graphs (c : Core) (n : Nat) (x : Sector) : (c.setSec n x).graphs = c.graphs := rfl
@[simp] theorem setSec_links (c : Core) (n : Nat) (x : Sector) : (c.setSec n x).links = c.links := rfl
@[simp] theorem setSec_peerReads (c : Core) (n : Nat) (x : Sector) : (c.setSec n x).peerReads = c.peerReads := rfl
@[simp] theorem setSec_cpOp (c : Core) (n : Nat) (x : Sector) : (c.setSec n x).cpOp = c.cpOp := rfl
@[simp] theorem setSec_cpWords (c : Core) (n : Nat) (x : Sector) : (c.setSec n x).cpWords = c.cpWords := rfl
@[simp] theorem setSec_collectives (c : Core) (n : Nat) (x : Sector) : (c.setSec n x).collectives = c.collectives := rfl
@[simp] theorem setSec_bills (c : Core) (n : Nat) (x : Sector) : (c.setSec n x).bills = c.bills := rfl
@[simp] theorem setSec_outbox (c : Core) (n : Nat) (x : Sector) : (c.setSec n x).outbox = c.outbox := rfl
@[simp] theorem setSec_health (c : Core) (n : Nat) (x : Sector) : (c.setSec n x).health = c.health := rfl
@[simp] theorem setSec_tests (c : Core) (n : Nat) (x : Sector) : (c.setSec n x).tests = c.tests := rfl
@[simp] theorem setSec_host (c : Core) (n : Nat) (x : Sector) : (c.setSec n x).host = c.host := rfl
@[simp] theorem setSec_power (c : Core) (n : Nat) (x : Sector) : (c.setSec n x).power = c.power := rfl
@[simp] theorem setSec_clockStep (c : Core) (n : Nat) (x : Sector) : (c.setSec n x).clockStep = c.clockStep := rfl
@[simp] theorem setSec_agenda (c : Core) (n : Nat) (x : Sector) : (c.setSec n x).agenda = c.agenda := rfl
@[simp] theorem setSec_inbox (c : Core) (n : Nat) (x : Sector) : (c.setSec n x).inbox = c.inbox := rfl
@[simp] theorem setSec_played (c : Core) (n : Nat) (x : Sector) : (c.setSec n x).played = c.played := rfl
@[simp] theorem setSec_fixes (c : Core) (n : Nat) (x : Sector) : (c.setSec n x).fixes = c.fixes := rfl
@[simp] theorem setSec_cur (c : Core) (n : Nat) (x : Sector) : (c.setSec n x).cur = c.cur := rfl
@[simp] theorem setSec_curTxs (c : Core) (n : Nat) (x : Sector) : (c.setSec n x).curTxs = c.curTxs := rfl
@[simp] theorem setSec_iss (c : Core) (n : Nat) (x : Sector) : (c.setSec n x).iss = c.iss := rfl

/-! ## modSec -/

@[simp] theorem modSec_now (c : Core) (n : Nat) (f : Sector → Sector) : (c.modSec n f).now = c.now := rfl
@[simp] theorem modSec_wall (c : Core) (n : Nat) (f : Sector → Sector) : (c.modSec n f).wall = c.wall := rfl
@[simp] theorem modSec_nextId (c : Core) (n : Nat) (f : Sector → Sector) : (c.modSec n f).nextId = c.nextId := rfl
@[simp] theorem modSec_freeCtr (c : Core) (n : Nat) (f : Sector → Sector) : (c.modSec n f).freeCtr = c.freeCtr := rfl
@[simp] theorem modSec_verCtr (c : Core) (n : Nat) (f : Sector → Sector) : (c.modSec n f).verCtr = c.verCtr := rfl
@[simp] theorem modSec_weaves (c : Core) (n : Nat) (f : Sector → Sector) : (c.modSec n f).weaves = c.weaves := rfl
@[simp] theorem modSec_copies (c : Core) (n : Nat) (f : Sector → Sector) : (c.modSec n f).copies = c.copies := rfl
@[simp] theorem modSec_mem (c : Core) (n : Nat) (f : Sector → Sector) : (c.modSec n f).mem = c.mem := rfl
@[simp] theorem modSec_vers (c : Core) (n : Nat) (f : Sector → Sector) : (c.modSec n f).vers = c.vers := rfl
@[simp] theorem modSec_poison (c : Core) (n : Nat) (f : Sector → Sector) : (c.modSec n f).poison = c.poison := rfl
@[simp] theorem modSec_hbmPoison (c : Core) (n : Nat) (f : Sector → Sector) : (c.modSec n f).hbmPoison = c.hbmPoison := rfl
@[simp] theorem modSec_hbmInjected (c : Core) (n : Nat) (f : Sector → Sector) : (c.modSec n f).hbmInjected = c.hbmInjected := rfl
@[simp] theorem modSec_flips (c : Core) (n : Nat) (f : Sector → Sector) : (c.modSec n f).flips = c.flips := rfl
@[simp] theorem modSec_parityFlips (c : Core) (n : Nat) (f : Sector → Sector) : (c.modSec n f).parityFlips = c.parityFlips := rfl
@[simp] theorem modSec_hbmFlips (c : Core) (n : Nat) (f : Sector → Sector) : (c.modSec n f).hbmFlips = c.hbmFlips := rfl
@[simp] theorem modSec_hbmFixed (c : Core) (n : Nat) (f : Sector → Sector) : (c.modSec n f).hbmFixed = c.hbmFixed := rfl
@[simp] theorem modSec_busHits (c : Core) (n : Nat) (f : Sector → Sector) : (c.modSec n f).busHits = c.busHits := rfl
@[simp] theorem modSec_gzNet (c : Core) (n : Nat) (f : Sector → Sector) : (c.modSec n f).gzNet = c.gzNet := rfl
@[simp] theorem modSec_gzLinks (c : Core) (n : Nat) (f : Sector → Sector) : (c.modSec n f).gzLinks = c.gzLinks := rfl
@[simp] theorem modSec_recoveries (c : Core) (n : Nat) (f : Sector → Sector) : (c.modSec n f).recoveries = c.recoveries := rfl
@[simp] theorem modSec_recBusy (c : Core) (n : Nat) (f : Sector → Sector) : (c.modSec n f).recBusy = c.recBusy := rfl
@[simp] theorem modSec_towers (c : Core) (n : Nat) (f : Sector → Sector) : (c.modSec n f).towers = c.towers := rfl
@[simp] theorem modSec_cellMaps (c : Core) (n : Nat) (f : Sector → Sector) : (c.modSec n f).cellMaps = c.cellMaps := rfl
@[simp] theorem modSec_busMaps (c : Core) (n : Nat) (f : Sector → Sector) : (c.modSec n f).busMaps = c.busMaps := rfl
@[simp] theorem modSec_refreshes (c : Core) (n : Nat) (f : Sector → Sector) : (c.modSec n f).refreshes = c.refreshes := rfl
@[simp] theorem modSec_launches (c : Core) (n : Nat) (f : Sector → Sector) : (c.modSec n f).launches = c.launches := rfl
@[simp] theorem modSec_contexts (c : Core) (n : Nat) (f : Sector → Sector) : (c.modSec n f).contexts = c.contexts := rfl
@[simp] theorem modSec_queues (c : Core) (n : Nat) (f : Sector → Sector) : (c.modSec n f).queues = c.queues := rfl
@[simp] theorem modSec_lastServed (c : Core) (n : Nat) (f : Sector → Sector) : (c.modSec n f).lastServed = c.lastServed := rfl
@[simp] theorem modSec_graphs (c : Core) (n : Nat) (f : Sector → Sector) : (c.modSec n f).graphs = c.graphs := rfl
@[simp] theorem modSec_links (c : Core) (n : Nat) (f : Sector → Sector) : (c.modSec n f).links = c.links := rfl
@[simp] theorem modSec_peerReads (c : Core) (n : Nat) (f : Sector → Sector) : (c.modSec n f).peerReads = c.peerReads := rfl
@[simp] theorem modSec_cpOp (c : Core) (n : Nat) (f : Sector → Sector) : (c.modSec n f).cpOp = c.cpOp := rfl
@[simp] theorem modSec_cpWords (c : Core) (n : Nat) (f : Sector → Sector) : (c.modSec n f).cpWords = c.cpWords := rfl
@[simp] theorem modSec_collectives (c : Core) (n : Nat) (f : Sector → Sector) : (c.modSec n f).collectives = c.collectives := rfl
@[simp] theorem modSec_bills (c : Core) (n : Nat) (f : Sector → Sector) : (c.modSec n f).bills = c.bills := rfl
@[simp] theorem modSec_outbox (c : Core) (n : Nat) (f : Sector → Sector) : (c.modSec n f).outbox = c.outbox := rfl
@[simp] theorem modSec_health (c : Core) (n : Nat) (f : Sector → Sector) : (c.modSec n f).health = c.health := rfl
@[simp] theorem modSec_tests (c : Core) (n : Nat) (f : Sector → Sector) : (c.modSec n f).tests = c.tests := rfl
@[simp] theorem modSec_host (c : Core) (n : Nat) (f : Sector → Sector) : (c.modSec n f).host = c.host := rfl
@[simp] theorem modSec_power (c : Core) (n : Nat) (f : Sector → Sector) : (c.modSec n f).power = c.power := rfl
@[simp] theorem modSec_clockStep (c : Core) (n : Nat) (f : Sector → Sector) : (c.modSec n f).clockStep = c.clockStep := rfl
@[simp] theorem modSec_agenda (c : Core) (n : Nat) (f : Sector → Sector) : (c.modSec n f).agenda = c.agenda := rfl
@[simp] theorem modSec_inbox (c : Core) (n : Nat) (f : Sector → Sector) : (c.modSec n f).inbox = c.inbox := rfl
@[simp] theorem modSec_played (c : Core) (n : Nat) (f : Sector → Sector) : (c.modSec n f).played = c.played := rfl
@[simp] theorem modSec_fixes (c : Core) (n : Nat) (f : Sector → Sector) : (c.modSec n f).fixes = c.fixes := rfl
@[simp] theorem modSec_cur (c : Core) (n : Nat) (f : Sector → Sector) : (c.modSec n f).cur = c.cur := rfl
@[simp] theorem modSec_curTxs (c : Core) (n : Nat) (f : Sector → Sector) : (c.modSec n f).curTxs = c.curTxs := rfl
@[simp] theorem modSec_iss (c : Core) (n : Nat) (f : Sector → Sector) : (c.modSec n f).iss = c.iss := rfl

/-! ## modSem -/

@[simp] theorem modSem_now (c : Core) (n k : Nat) (f : Sem → Sem) : (c.modSem n k f).now = c.now := rfl
@[simp] theorem modSem_wall (c : Core) (n k : Nat) (f : Sem → Sem) : (c.modSem n k f).wall = c.wall := rfl
@[simp] theorem modSem_nextId (c : Core) (n k : Nat) (f : Sem → Sem) : (c.modSem n k f).nextId = c.nextId := rfl
@[simp] theorem modSem_freeCtr (c : Core) (n k : Nat) (f : Sem → Sem) : (c.modSem n k f).freeCtr = c.freeCtr := rfl
@[simp] theorem modSem_verCtr (c : Core) (n k : Nat) (f : Sem → Sem) : (c.modSem n k f).verCtr = c.verCtr := rfl
@[simp] theorem modSem_weaves (c : Core) (n k : Nat) (f : Sem → Sem) : (c.modSem n k f).weaves = c.weaves := rfl
@[simp] theorem modSem_copies (c : Core) (n k : Nat) (f : Sem → Sem) : (c.modSem n k f).copies = c.copies := rfl
@[simp] theorem modSem_mem (c : Core) (n k : Nat) (f : Sem → Sem) : (c.modSem n k f).mem = c.mem := rfl
@[simp] theorem modSem_vers (c : Core) (n k : Nat) (f : Sem → Sem) : (c.modSem n k f).vers = c.vers := rfl
@[simp] theorem modSem_poison (c : Core) (n k : Nat) (f : Sem → Sem) : (c.modSem n k f).poison = c.poison := rfl
@[simp] theorem modSem_hbmPoison (c : Core) (n k : Nat) (f : Sem → Sem) : (c.modSem n k f).hbmPoison = c.hbmPoison := rfl
@[simp] theorem modSem_hbmInjected (c : Core) (n k : Nat) (f : Sem → Sem) : (c.modSem n k f).hbmInjected = c.hbmInjected := rfl
@[simp] theorem modSem_flips (c : Core) (n k : Nat) (f : Sem → Sem) : (c.modSem n k f).flips = c.flips := rfl
@[simp] theorem modSem_parityFlips (c : Core) (n k : Nat) (f : Sem → Sem) : (c.modSem n k f).parityFlips = c.parityFlips := rfl
@[simp] theorem modSem_hbmFlips (c : Core) (n k : Nat) (f : Sem → Sem) : (c.modSem n k f).hbmFlips = c.hbmFlips := rfl
@[simp] theorem modSem_hbmFixed (c : Core) (n k : Nat) (f : Sem → Sem) : (c.modSem n k f).hbmFixed = c.hbmFixed := rfl
@[simp] theorem modSem_busHits (c : Core) (n k : Nat) (f : Sem → Sem) : (c.modSem n k f).busHits = c.busHits := rfl
@[simp] theorem modSem_gzNet (c : Core) (n k : Nat) (f : Sem → Sem) : (c.modSem n k f).gzNet = c.gzNet := rfl
@[simp] theorem modSem_gzLinks (c : Core) (n k : Nat) (f : Sem → Sem) : (c.modSem n k f).gzLinks = c.gzLinks := rfl
@[simp] theorem modSem_recoveries (c : Core) (n k : Nat) (f : Sem → Sem) : (c.modSem n k f).recoveries = c.recoveries := rfl
@[simp] theorem modSem_recBusy (c : Core) (n k : Nat) (f : Sem → Sem) : (c.modSem n k f).recBusy = c.recBusy := rfl
@[simp] theorem modSem_towers (c : Core) (n k : Nat) (f : Sem → Sem) : (c.modSem n k f).towers = c.towers := rfl
@[simp] theorem modSem_cellMaps (c : Core) (n k : Nat) (f : Sem → Sem) : (c.modSem n k f).cellMaps = c.cellMaps := rfl
@[simp] theorem modSem_busMaps (c : Core) (n k : Nat) (f : Sem → Sem) : (c.modSem n k f).busMaps = c.busMaps := rfl
@[simp] theorem modSem_refreshes (c : Core) (n k : Nat) (f : Sem → Sem) : (c.modSem n k f).refreshes = c.refreshes := rfl
@[simp] theorem modSem_launches (c : Core) (n k : Nat) (f : Sem → Sem) : (c.modSem n k f).launches = c.launches := rfl
@[simp] theorem modSem_contexts (c : Core) (n k : Nat) (f : Sem → Sem) : (c.modSem n k f).contexts = c.contexts := rfl
@[simp] theorem modSem_queues (c : Core) (n k : Nat) (f : Sem → Sem) : (c.modSem n k f).queues = c.queues := rfl
@[simp] theorem modSem_lastServed (c : Core) (n k : Nat) (f : Sem → Sem) : (c.modSem n k f).lastServed = c.lastServed := rfl
@[simp] theorem modSem_graphs (c : Core) (n k : Nat) (f : Sem → Sem) : (c.modSem n k f).graphs = c.graphs := rfl
@[simp] theorem modSem_links (c : Core) (n k : Nat) (f : Sem → Sem) : (c.modSem n k f).links = c.links := rfl
@[simp] theorem modSem_peerReads (c : Core) (n k : Nat) (f : Sem → Sem) : (c.modSem n k f).peerReads = c.peerReads := rfl
@[simp] theorem modSem_cpOp (c : Core) (n k : Nat) (f : Sem → Sem) : (c.modSem n k f).cpOp = c.cpOp := rfl
@[simp] theorem modSem_cpWords (c : Core) (n k : Nat) (f : Sem → Sem) : (c.modSem n k f).cpWords = c.cpWords := rfl
@[simp] theorem modSem_collectives (c : Core) (n k : Nat) (f : Sem → Sem) : (c.modSem n k f).collectives = c.collectives := rfl
@[simp] theorem modSem_bills (c : Core) (n k : Nat) (f : Sem → Sem) : (c.modSem n k f).bills = c.bills := rfl
@[simp] theorem modSem_outbox (c : Core) (n k : Nat) (f : Sem → Sem) : (c.modSem n k f).outbox = c.outbox := rfl
@[simp] theorem modSem_health (c : Core) (n k : Nat) (f : Sem → Sem) : (c.modSem n k f).health = c.health := rfl
@[simp] theorem modSem_tests (c : Core) (n k : Nat) (f : Sem → Sem) : (c.modSem n k f).tests = c.tests := rfl
@[simp] theorem modSem_host (c : Core) (n k : Nat) (f : Sem → Sem) : (c.modSem n k f).host = c.host := rfl
@[simp] theorem modSem_power (c : Core) (n k : Nat) (f : Sem → Sem) : (c.modSem n k f).power = c.power := rfl
@[simp] theorem modSem_clockStep (c : Core) (n k : Nat) (f : Sem → Sem) : (c.modSem n k f).clockStep = c.clockStep := rfl
@[simp] theorem modSem_agenda (c : Core) (n k : Nat) (f : Sem → Sem) : (c.modSem n k f).agenda = c.agenda := rfl
@[simp] theorem modSem_inbox (c : Core) (n k : Nat) (f : Sem → Sem) : (c.modSem n k f).inbox = c.inbox := rfl
@[simp] theorem modSem_played (c : Core) (n k : Nat) (f : Sem → Sem) : (c.modSem n k f).played = c.played := rfl
@[simp] theorem modSem_fixes (c : Core) (n k : Nat) (f : Sem → Sem) : (c.modSem n k f).fixes = c.fixes := rfl
@[simp] theorem modSem_cur (c : Core) (n k : Nat) (f : Sem → Sem) : (c.modSem n k f).cur = c.cur := rfl
@[simp] theorem modSem_curTxs (c : Core) (n k : Nat) (f : Sem → Sem) : (c.modSem n k f).curTxs = c.curTxs := rfl
@[simp] theorem modSem_iss (c : Core) (n k : Nat) (f : Sem → Sem) : (c.modSem n k f).iss = c.iss := rfl

/-! ## modTower -/

@[simp] theorem modTower_now (c : Core) (k : Nat) (f : Tower → Tower) : (c.modTower k f).now = c.now := rfl
@[simp] theorem modTower_wall (c : Core) (k : Nat) (f : Tower → Tower) : (c.modTower k f).wall = c.wall := rfl
@[simp] theorem modTower_nextId (c : Core) (k : Nat) (f : Tower → Tower) : (c.modTower k f).nextId = c.nextId := rfl
@[simp] theorem modTower_freeCtr (c : Core) (k : Nat) (f : Tower → Tower) : (c.modTower k f).freeCtr = c.freeCtr := rfl
@[simp] theorem modTower_verCtr (c : Core) (k : Nat) (f : Tower → Tower) : (c.modTower k f).verCtr = c.verCtr := rfl
@[simp] theorem modTower_weaves (c : Core) (k : Nat) (f : Tower → Tower) : (c.modTower k f).weaves = c.weaves := rfl
@[simp] theorem modTower_sectors (c : Core) (k : Nat) (f : Tower → Tower) : (c.modTower k f).sectors = c.sectors := rfl
@[simp] theorem modTower_copies (c : Core) (k : Nat) (f : Tower → Tower) : (c.modTower k f).copies = c.copies := rfl
@[simp] theorem modTower_mem (c : Core) (k : Nat) (f : Tower → Tower) : (c.modTower k f).mem = c.mem := rfl
@[simp] theorem modTower_vers (c : Core) (k : Nat) (f : Tower → Tower) : (c.modTower k f).vers = c.vers := rfl
@[simp] theorem modTower_poison (c : Core) (k : Nat) (f : Tower → Tower) : (c.modTower k f).poison = c.poison := rfl
@[simp] theorem modTower_hbmPoison (c : Core) (k : Nat) (f : Tower → Tower) : (c.modTower k f).hbmPoison = c.hbmPoison := rfl
@[simp] theorem modTower_hbmInjected (c : Core) (k : Nat) (f : Tower → Tower) : (c.modTower k f).hbmInjected = c.hbmInjected := rfl
@[simp] theorem modTower_flips (c : Core) (k : Nat) (f : Tower → Tower) : (c.modTower k f).flips = c.flips := rfl
@[simp] theorem modTower_parityFlips (c : Core) (k : Nat) (f : Tower → Tower) : (c.modTower k f).parityFlips = c.parityFlips := rfl
@[simp] theorem modTower_hbmFlips (c : Core) (k : Nat) (f : Tower → Tower) : (c.modTower k f).hbmFlips = c.hbmFlips := rfl
@[simp] theorem modTower_hbmFixed (c : Core) (k : Nat) (f : Tower → Tower) : (c.modTower k f).hbmFixed = c.hbmFixed := rfl
@[simp] theorem modTower_busHits (c : Core) (k : Nat) (f : Tower → Tower) : (c.modTower k f).busHits = c.busHits := rfl
@[simp] theorem modTower_gzNet (c : Core) (k : Nat) (f : Tower → Tower) : (c.modTower k f).gzNet = c.gzNet := rfl
@[simp] theorem modTower_gzLinks (c : Core) (k : Nat) (f : Tower → Tower) : (c.modTower k f).gzLinks = c.gzLinks := rfl
@[simp] theorem modTower_recoveries (c : Core) (k : Nat) (f : Tower → Tower) : (c.modTower k f).recoveries = c.recoveries := rfl
@[simp] theorem modTower_recBusy (c : Core) (k : Nat) (f : Tower → Tower) : (c.modTower k f).recBusy = c.recBusy := rfl
@[simp] theorem modTower_cellMaps (c : Core) (k : Nat) (f : Tower → Tower) : (c.modTower k f).cellMaps = c.cellMaps := rfl
@[simp] theorem modTower_busMaps (c : Core) (k : Nat) (f : Tower → Tower) : (c.modTower k f).busMaps = c.busMaps := rfl
@[simp] theorem modTower_refreshes (c : Core) (k : Nat) (f : Tower → Tower) : (c.modTower k f).refreshes = c.refreshes := rfl
@[simp] theorem modTower_launches (c : Core) (k : Nat) (f : Tower → Tower) : (c.modTower k f).launches = c.launches := rfl
@[simp] theorem modTower_contexts (c : Core) (k : Nat) (f : Tower → Tower) : (c.modTower k f).contexts = c.contexts := rfl
@[simp] theorem modTower_queues (c : Core) (k : Nat) (f : Tower → Tower) : (c.modTower k f).queues = c.queues := rfl
@[simp] theorem modTower_lastServed (c : Core) (k : Nat) (f : Tower → Tower) : (c.modTower k f).lastServed = c.lastServed := rfl
@[simp] theorem modTower_graphs (c : Core) (k : Nat) (f : Tower → Tower) : (c.modTower k f).graphs = c.graphs := rfl
@[simp] theorem modTower_links (c : Core) (k : Nat) (f : Tower → Tower) : (c.modTower k f).links = c.links := rfl
@[simp] theorem modTower_peerReads (c : Core) (k : Nat) (f : Tower → Tower) : (c.modTower k f).peerReads = c.peerReads := rfl
@[simp] theorem modTower_cpOp (c : Core) (k : Nat) (f : Tower → Tower) : (c.modTower k f).cpOp = c.cpOp := rfl
@[simp] theorem modTower_cpWords (c : Core) (k : Nat) (f : Tower → Tower) : (c.modTower k f).cpWords = c.cpWords := rfl
@[simp] theorem modTower_collectives (c : Core) (k : Nat) (f : Tower → Tower) : (c.modTower k f).collectives = c.collectives := rfl
@[simp] theorem modTower_bills (c : Core) (k : Nat) (f : Tower → Tower) : (c.modTower k f).bills = c.bills := rfl
@[simp] theorem modTower_outbox (c : Core) (k : Nat) (f : Tower → Tower) : (c.modTower k f).outbox = c.outbox := rfl
@[simp] theorem modTower_health (c : Core) (k : Nat) (f : Tower → Tower) : (c.modTower k f).health = c.health := rfl
@[simp] theorem modTower_tests (c : Core) (k : Nat) (f : Tower → Tower) : (c.modTower k f).tests = c.tests := rfl
@[simp] theorem modTower_host (c : Core) (k : Nat) (f : Tower → Tower) : (c.modTower k f).host = c.host := rfl
@[simp] theorem modTower_power (c : Core) (k : Nat) (f : Tower → Tower) : (c.modTower k f).power = c.power := rfl
@[simp] theorem modTower_clockStep (c : Core) (k : Nat) (f : Tower → Tower) : (c.modTower k f).clockStep = c.clockStep := rfl
@[simp] theorem modTower_agenda (c : Core) (k : Nat) (f : Tower → Tower) : (c.modTower k f).agenda = c.agenda := rfl
@[simp] theorem modTower_inbox (c : Core) (k : Nat) (f : Tower → Tower) : (c.modTower k f).inbox = c.inbox := rfl
@[simp] theorem modTower_played (c : Core) (k : Nat) (f : Tower → Tower) : (c.modTower k f).played = c.played := rfl
@[simp] theorem modTower_fixes (c : Core) (k : Nat) (f : Tower → Tower) : (c.modTower k f).fixes = c.fixes := rfl
@[simp] theorem modTower_cur (c : Core) (k : Nat) (f : Tower → Tower) : (c.modTower k f).cur = c.cur := rfl
@[simp] theorem modTower_curTxs (c : Core) (k : Nat) (f : Tower → Tower) : (c.modTower k f).curTxs = c.curTxs := rfl
@[simp] theorem modTower_iss (c : Core) (k : Nat) (f : Tower → Tower) : (c.modTower k f).iss = c.iss := rfl

/-! ## fresh -/

@[simp] theorem fresh_now (c : Core) : c.fresh.2.now = c.now := rfl
@[simp] theorem fresh_wall (c : Core) : c.fresh.2.wall = c.wall := rfl
@[simp] theorem fresh_freeCtr (c : Core) : c.fresh.2.freeCtr = c.freeCtr := rfl
@[simp] theorem fresh_verCtr (c : Core) : c.fresh.2.verCtr = c.verCtr := rfl
@[simp] theorem fresh_weaves (c : Core) : c.fresh.2.weaves = c.weaves := rfl
@[simp] theorem fresh_sectors (c : Core) : c.fresh.2.sectors = c.sectors := rfl
@[simp] theorem fresh_copies (c : Core) : c.fresh.2.copies = c.copies := rfl
@[simp] theorem fresh_mem (c : Core) : c.fresh.2.mem = c.mem := rfl
@[simp] theorem fresh_vers (c : Core) : c.fresh.2.vers = c.vers := rfl
@[simp] theorem fresh_poison (c : Core) : c.fresh.2.poison = c.poison := rfl
@[simp] theorem fresh_hbmPoison (c : Core) : c.fresh.2.hbmPoison = c.hbmPoison := rfl
@[simp] theorem fresh_hbmInjected (c : Core) : c.fresh.2.hbmInjected = c.hbmInjected := rfl
@[simp] theorem fresh_flips (c : Core) : c.fresh.2.flips = c.flips := rfl
@[simp] theorem fresh_parityFlips (c : Core) : c.fresh.2.parityFlips = c.parityFlips := rfl
@[simp] theorem fresh_hbmFlips (c : Core) : c.fresh.2.hbmFlips = c.hbmFlips := rfl
@[simp] theorem fresh_hbmFixed (c : Core) : c.fresh.2.hbmFixed = c.hbmFixed := rfl
@[simp] theorem fresh_busHits (c : Core) : c.fresh.2.busHits = c.busHits := rfl
@[simp] theorem fresh_gzNet (c : Core) : c.fresh.2.gzNet = c.gzNet := rfl
@[simp] theorem fresh_gzLinks (c : Core) : c.fresh.2.gzLinks = c.gzLinks := rfl
@[simp] theorem fresh_recoveries (c : Core) : c.fresh.2.recoveries = c.recoveries := rfl
@[simp] theorem fresh_recBusy (c : Core) : c.fresh.2.recBusy = c.recBusy := rfl
@[simp] theorem fresh_towers (c : Core) : c.fresh.2.towers = c.towers := rfl
@[simp] theorem fresh_cellMaps (c : Core) : c.fresh.2.cellMaps = c.cellMaps := rfl
@[simp] theorem fresh_busMaps (c : Core) : c.fresh.2.busMaps = c.busMaps := rfl
@[simp] theorem fresh_refreshes (c : Core) : c.fresh.2.refreshes = c.refreshes := rfl
@[simp] theorem fresh_launches (c : Core) : c.fresh.2.launches = c.launches := rfl
@[simp] theorem fresh_contexts (c : Core) : c.fresh.2.contexts = c.contexts := rfl
@[simp] theorem fresh_queues (c : Core) : c.fresh.2.queues = c.queues := rfl
@[simp] theorem fresh_lastServed (c : Core) : c.fresh.2.lastServed = c.lastServed := rfl
@[simp] theorem fresh_graphs (c : Core) : c.fresh.2.graphs = c.graphs := rfl
@[simp] theorem fresh_links (c : Core) : c.fresh.2.links = c.links := rfl
@[simp] theorem fresh_peerReads (c : Core) : c.fresh.2.peerReads = c.peerReads := rfl
@[simp] theorem fresh_cpOp (c : Core) : c.fresh.2.cpOp = c.cpOp := rfl
@[simp] theorem fresh_cpWords (c : Core) : c.fresh.2.cpWords = c.cpWords := rfl
@[simp] theorem fresh_collectives (c : Core) : c.fresh.2.collectives = c.collectives := rfl
@[simp] theorem fresh_bills (c : Core) : c.fresh.2.bills = c.bills := rfl
@[simp] theorem fresh_outbox (c : Core) : c.fresh.2.outbox = c.outbox := rfl
@[simp] theorem fresh_health (c : Core) : c.fresh.2.health = c.health := rfl
@[simp] theorem fresh_tests (c : Core) : c.fresh.2.tests = c.tests := rfl
@[simp] theorem fresh_host (c : Core) : c.fresh.2.host = c.host := rfl
@[simp] theorem fresh_power (c : Core) : c.fresh.2.power = c.power := rfl
@[simp] theorem fresh_clockStep (c : Core) : c.fresh.2.clockStep = c.clockStep := rfl
@[simp] theorem fresh_agenda (c : Core) : c.fresh.2.agenda = c.agenda := rfl
@[simp] theorem fresh_inbox (c : Core) : c.fresh.2.inbox = c.inbox := rfl
@[simp] theorem fresh_played (c : Core) : c.fresh.2.played = c.played := rfl
@[simp] theorem fresh_fixes (c : Core) : c.fresh.2.fixes = c.fixes := rfl
@[simp] theorem fresh_cur (c : Core) : c.fresh.2.cur = c.cur := rfl
@[simp] theorem fresh_curTxs (c : Core) : c.fresh.2.curTxs = c.curTxs := rfl
@[simp] theorem fresh_iss (c : Core) : c.fresh.2.iss = c.iss := rfl

/-! ## free -/

@[simp] theorem free_now (c : Core) : c.free.2.now = c.now := rfl
@[simp] theorem free_wall (c : Core) : c.free.2.wall = c.wall := rfl
@[simp] theorem free_nextId (c : Core) : c.free.2.nextId = c.nextId := rfl
@[simp] theorem free_verCtr (c : Core) : c.free.2.verCtr = c.verCtr := rfl
@[simp] theorem free_weaves (c : Core) : c.free.2.weaves = c.weaves := rfl
@[simp] theorem free_sectors (c : Core) : c.free.2.sectors = c.sectors := rfl
@[simp] theorem free_copies (c : Core) : c.free.2.copies = c.copies := rfl
@[simp] theorem free_mem (c : Core) : c.free.2.mem = c.mem := rfl
@[simp] theorem free_vers (c : Core) : c.free.2.vers = c.vers := rfl
@[simp] theorem free_poison (c : Core) : c.free.2.poison = c.poison := rfl
@[simp] theorem free_hbmPoison (c : Core) : c.free.2.hbmPoison = c.hbmPoison := rfl
@[simp] theorem free_hbmInjected (c : Core) : c.free.2.hbmInjected = c.hbmInjected := rfl
@[simp] theorem free_flips (c : Core) : c.free.2.flips = c.flips := rfl
@[simp] theorem free_parityFlips (c : Core) : c.free.2.parityFlips = c.parityFlips := rfl
@[simp] theorem free_hbmFlips (c : Core) : c.free.2.hbmFlips = c.hbmFlips := rfl
@[simp] theorem free_hbmFixed (c : Core) : c.free.2.hbmFixed = c.hbmFixed := rfl
@[simp] theorem free_busHits (c : Core) : c.free.2.busHits = c.busHits := rfl
@[simp] theorem free_gzNet (c : Core) : c.free.2.gzNet = c.gzNet := rfl
@[simp] theorem free_gzLinks (c : Core) : c.free.2.gzLinks = c.gzLinks := rfl
@[simp] theorem free_recoveries (c : Core) : c.free.2.recoveries = c.recoveries := rfl
@[simp] theorem free_recBusy (c : Core) : c.free.2.recBusy = c.recBusy := rfl
@[simp] theorem free_towers (c : Core) : c.free.2.towers = c.towers := rfl
@[simp] theorem free_cellMaps (c : Core) : c.free.2.cellMaps = c.cellMaps := rfl
@[simp] theorem free_busMaps (c : Core) : c.free.2.busMaps = c.busMaps := rfl
@[simp] theorem free_refreshes (c : Core) : c.free.2.refreshes = c.refreshes := rfl
@[simp] theorem free_launches (c : Core) : c.free.2.launches = c.launches := rfl
@[simp] theorem free_contexts (c : Core) : c.free.2.contexts = c.contexts := rfl
@[simp] theorem free_queues (c : Core) : c.free.2.queues = c.queues := rfl
@[simp] theorem free_lastServed (c : Core) : c.free.2.lastServed = c.lastServed := rfl
@[simp] theorem free_graphs (c : Core) : c.free.2.graphs = c.graphs := rfl
@[simp] theorem free_links (c : Core) : c.free.2.links = c.links := rfl
@[simp] theorem free_peerReads (c : Core) : c.free.2.peerReads = c.peerReads := rfl
@[simp] theorem free_cpOp (c : Core) : c.free.2.cpOp = c.cpOp := rfl
@[simp] theorem free_cpWords (c : Core) : c.free.2.cpWords = c.cpWords := rfl
@[simp] theorem free_collectives (c : Core) : c.free.2.collectives = c.collectives := rfl
@[simp] theorem free_bills (c : Core) : c.free.2.bills = c.bills := rfl
@[simp] theorem free_outbox (c : Core) : c.free.2.outbox = c.outbox := rfl
@[simp] theorem free_health (c : Core) : c.free.2.health = c.health := rfl
@[simp] theorem free_tests (c : Core) : c.free.2.tests = c.tests := rfl
@[simp] theorem free_host (c : Core) : c.free.2.host = c.host := rfl
@[simp] theorem free_power (c : Core) : c.free.2.power = c.power := rfl
@[simp] theorem free_clockStep (c : Core) : c.free.2.clockStep = c.clockStep := rfl
@[simp] theorem free_agenda (c : Core) : c.free.2.agenda = c.agenda := rfl
@[simp] theorem free_inbox (c : Core) : c.free.2.inbox = c.inbox := rfl
@[simp] theorem free_played (c : Core) : c.free.2.played = c.played := rfl
@[simp] theorem free_fixes (c : Core) : c.free.2.fixes = c.fixes := rfl
@[simp] theorem free_cur (c : Core) : c.free.2.cur = c.cur := rfl
@[simp] theorem free_curTxs (c : Core) : c.free.2.curTxs = c.curTxs := rfl
@[simp] theorem free_iss (c : Core) : c.free.2.iss = c.iss := rfl

/-! ## freeWait -/

@[simp] theorem freeWait_now (c : Core) : c.freeWait.2.now = c.now := rfl
@[simp] theorem freeWait_wall (c : Core) : c.freeWait.2.wall = c.wall := rfl
@[simp] theorem freeWait_nextId (c : Core) : c.freeWait.2.nextId = c.nextId := rfl
@[simp] theorem freeWait_verCtr (c : Core) : c.freeWait.2.verCtr = c.verCtr := rfl
@[simp] theorem freeWait_weaves (c : Core) : c.freeWait.2.weaves = c.weaves := rfl
@[simp] theorem freeWait_sectors (c : Core) : c.freeWait.2.sectors = c.sectors := rfl
@[simp] theorem freeWait_copies (c : Core) : c.freeWait.2.copies = c.copies := rfl
@[simp] theorem freeWait_mem (c : Core) : c.freeWait.2.mem = c.mem := rfl
@[simp] theorem freeWait_vers (c : Core) : c.freeWait.2.vers = c.vers := rfl
@[simp] theorem freeWait_poison (c : Core) : c.freeWait.2.poison = c.poison := rfl
@[simp] theorem freeWait_hbmPoison (c : Core) : c.freeWait.2.hbmPoison = c.hbmPoison := rfl
@[simp] theorem freeWait_hbmInjected (c : Core) : c.freeWait.2.hbmInjected = c.hbmInjected := rfl
@[simp] theorem freeWait_flips (c : Core) : c.freeWait.2.flips = c.flips := rfl
@[simp] theorem freeWait_parityFlips (c : Core) : c.freeWait.2.parityFlips = c.parityFlips := rfl
@[simp] theorem freeWait_hbmFlips (c : Core) : c.freeWait.2.hbmFlips = c.hbmFlips := rfl
@[simp] theorem freeWait_hbmFixed (c : Core) : c.freeWait.2.hbmFixed = c.hbmFixed := rfl
@[simp] theorem freeWait_busHits (c : Core) : c.freeWait.2.busHits = c.busHits := rfl
@[simp] theorem freeWait_gzNet (c : Core) : c.freeWait.2.gzNet = c.gzNet := rfl
@[simp] theorem freeWait_gzLinks (c : Core) : c.freeWait.2.gzLinks = c.gzLinks := rfl
@[simp] theorem freeWait_recoveries (c : Core) : c.freeWait.2.recoveries = c.recoveries := rfl
@[simp] theorem freeWait_recBusy (c : Core) : c.freeWait.2.recBusy = c.recBusy := rfl
@[simp] theorem freeWait_towers (c : Core) : c.freeWait.2.towers = c.towers := rfl
@[simp] theorem freeWait_cellMaps (c : Core) : c.freeWait.2.cellMaps = c.cellMaps := rfl
@[simp] theorem freeWait_busMaps (c : Core) : c.freeWait.2.busMaps = c.busMaps := rfl
@[simp] theorem freeWait_refreshes (c : Core) : c.freeWait.2.refreshes = c.refreshes := rfl
@[simp] theorem freeWait_launches (c : Core) : c.freeWait.2.launches = c.launches := rfl
@[simp] theorem freeWait_contexts (c : Core) : c.freeWait.2.contexts = c.contexts := rfl
@[simp] theorem freeWait_queues (c : Core) : c.freeWait.2.queues = c.queues := rfl
@[simp] theorem freeWait_lastServed (c : Core) : c.freeWait.2.lastServed = c.lastServed := rfl
@[simp] theorem freeWait_graphs (c : Core) : c.freeWait.2.graphs = c.graphs := rfl
@[simp] theorem freeWait_links (c : Core) : c.freeWait.2.links = c.links := rfl
@[simp] theorem freeWait_peerReads (c : Core) : c.freeWait.2.peerReads = c.peerReads := rfl
@[simp] theorem freeWait_cpOp (c : Core) : c.freeWait.2.cpOp = c.cpOp := rfl
@[simp] theorem freeWait_cpWords (c : Core) : c.freeWait.2.cpWords = c.cpWords := rfl
@[simp] theorem freeWait_collectives (c : Core) : c.freeWait.2.collectives = c.collectives := rfl
@[simp] theorem freeWait_bills (c : Core) : c.freeWait.2.bills = c.bills := rfl
@[simp] theorem freeWait_outbox (c : Core) : c.freeWait.2.outbox = c.outbox := rfl
@[simp] theorem freeWait_health (c : Core) : c.freeWait.2.health = c.health := rfl
@[simp] theorem freeWait_tests (c : Core) : c.freeWait.2.tests = c.tests := rfl
@[simp] theorem freeWait_host (c : Core) : c.freeWait.2.host = c.host := rfl
@[simp] theorem freeWait_power (c : Core) : c.freeWait.2.power = c.power := rfl
@[simp] theorem freeWait_clockStep (c : Core) : c.freeWait.2.clockStep = c.clockStep := rfl
@[simp] theorem freeWait_agenda (c : Core) : c.freeWait.2.agenda = c.agenda := rfl
@[simp] theorem freeWait_inbox (c : Core) : c.freeWait.2.inbox = c.inbox := rfl
@[simp] theorem freeWait_played (c : Core) : c.freeWait.2.played = c.played := rfl
@[simp] theorem freeWait_fixes (c : Core) : c.freeWait.2.fixes = c.fixes := rfl
@[simp] theorem freeWait_cur (c : Core) : c.freeWait.2.cur = c.cur := rfl
@[simp] theorem freeWait_curTxs (c : Core) : c.freeWait.2.curTxs = c.curTxs := rfl
@[simp] theorem freeWait_iss (c : Core) : c.freeWait.2.iss = c.iss := rfl

@[simp] theorem sched_agenda (c : Core) (t b n : Nat) (a : Act) : (c.sched t b n a).agenda = c.agenda ++ [⟨.cycle t, b, n, a⟩] := rfl
@[simp] theorem fresh_id (c : Core) : c.fresh.1 = c.nextId := rfl
@[simp] theorem fresh_nextId (c : Core) : c.fresh.2.nextId = c.nextId + 1 := rfl

/-! ## The state of a bundle under way -/

@[simp] theorem modC_core (s : State) (f : Core → Core) : (s.modC f).core = f s.core := rfl
@[simp] theorem modC_base (s : State) (f : Core → Core) : (s.modC f).base = s.base := rfl
@[simp] theorem modW_base (s : State) (f : Weave → Weave) : (s.modW f).base = s.base := rfl
@[simp] theorem modIss_base (s : State) (f : Iss → Iss) : (s.modIss f).base = s.base := rfl
@[simp] theorem modIss_iss (s : State) (f : Iss → Iss) : (s.modIss f).core.iss = f s.core.iss := rfl
@[simp] theorem stateModW_core (s : State) (f : Weave → Weave) : (s.modW f).core = s.core.modW s.core.cur f := rfl
@[simp] theorem modIss_now (s : State) (f : Iss → Iss) : (s.modIss f).core.now = s.core.now := rfl
@[simp] theorem modIss_wall (s : State) (f : Iss → Iss) : (s.modIss f).core.wall = s.core.wall := rfl
@[simp] theorem modIss_nextId (s : State) (f : Iss → Iss) : (s.modIss f).core.nextId = s.core.nextId := rfl
@[simp] theorem modIss_freeCtr (s : State) (f : Iss → Iss) : (s.modIss f).core.freeCtr = s.core.freeCtr := rfl
@[simp] theorem modIss_verCtr (s : State) (f : Iss → Iss) : (s.modIss f).core.verCtr = s.core.verCtr := rfl
@[simp] theorem modIss_weaves (s : State) (f : Iss → Iss) : (s.modIss f).core.weaves = s.core.weaves := rfl
@[simp] theorem modIss_sectors (s : State) (f : Iss → Iss) : (s.modIss f).core.sectors = s.core.sectors := rfl
@[simp] theorem modIss_copies (s : State) (f : Iss → Iss) : (s.modIss f).core.copies = s.core.copies := rfl
@[simp] theorem modIss_mem (s : State) (f : Iss → Iss) : (s.modIss f).core.mem = s.core.mem := rfl
@[simp] theorem modIss_vers (s : State) (f : Iss → Iss) : (s.modIss f).core.vers = s.core.vers := rfl
@[simp] theorem modIss_poison (s : State) (f : Iss → Iss) : (s.modIss f).core.poison = s.core.poison := rfl
@[simp] theorem modIss_hbmPoison (s : State) (f : Iss → Iss) : (s.modIss f).core.hbmPoison = s.core.hbmPoison := rfl
@[simp] theorem modIss_hbmInjected (s : State) (f : Iss → Iss) : (s.modIss f).core.hbmInjected = s.core.hbmInjected := rfl
@[simp] theorem modIss_flips (s : State) (f : Iss → Iss) : (s.modIss f).core.flips = s.core.flips := rfl
@[simp] theorem modIss_parityFlips (s : State) (f : Iss → Iss) : (s.modIss f).core.parityFlips = s.core.parityFlips := rfl
@[simp] theorem modIss_hbmFlips (s : State) (f : Iss → Iss) : (s.modIss f).core.hbmFlips = s.core.hbmFlips := rfl
@[simp] theorem modIss_hbmFixed (s : State) (f : Iss → Iss) : (s.modIss f).core.hbmFixed = s.core.hbmFixed := rfl
@[simp] theorem modIss_busHits (s : State) (f : Iss → Iss) : (s.modIss f).core.busHits = s.core.busHits := rfl
@[simp] theorem modIss_gzNet (s : State) (f : Iss → Iss) : (s.modIss f).core.gzNet = s.core.gzNet := rfl
@[simp] theorem modIss_gzLinks (s : State) (f : Iss → Iss) : (s.modIss f).core.gzLinks = s.core.gzLinks := rfl
@[simp] theorem modIss_recoveries (s : State) (f : Iss → Iss) : (s.modIss f).core.recoveries = s.core.recoveries := rfl
@[simp] theorem modIss_recBusy (s : State) (f : Iss → Iss) : (s.modIss f).core.recBusy = s.core.recBusy := rfl
@[simp] theorem modIss_towers (s : State) (f : Iss → Iss) : (s.modIss f).core.towers = s.core.towers := rfl
@[simp] theorem modIss_cellMaps (s : State) (f : Iss → Iss) : (s.modIss f).core.cellMaps = s.core.cellMaps := rfl
@[simp] theorem modIss_busMaps (s : State) (f : Iss → Iss) : (s.modIss f).core.busMaps = s.core.busMaps := rfl
@[simp] theorem modIss_refreshes (s : State) (f : Iss → Iss) : (s.modIss f).core.refreshes = s.core.refreshes := rfl
@[simp] theorem modIss_launches (s : State) (f : Iss → Iss) : (s.modIss f).core.launches = s.core.launches := rfl
@[simp] theorem modIss_contexts (s : State) (f : Iss → Iss) : (s.modIss f).core.contexts = s.core.contexts := rfl
@[simp] theorem modIss_queues (s : State) (f : Iss → Iss) : (s.modIss f).core.queues = s.core.queues := rfl
@[simp] theorem modIss_lastServed (s : State) (f : Iss → Iss) : (s.modIss f).core.lastServed = s.core.lastServed := rfl
@[simp] theorem modIss_graphs (s : State) (f : Iss → Iss) : (s.modIss f).core.graphs = s.core.graphs := rfl
@[simp] theorem modIss_links (s : State) (f : Iss → Iss) : (s.modIss f).core.links = s.core.links := rfl
@[simp] theorem modIss_peerReads (s : State) (f : Iss → Iss) : (s.modIss f).core.peerReads = s.core.peerReads := rfl
@[simp] theorem modIss_cpOp (s : State) (f : Iss → Iss) : (s.modIss f).core.cpOp = s.core.cpOp := rfl
@[simp] theorem modIss_cpWords (s : State) (f : Iss → Iss) : (s.modIss f).core.cpWords = s.core.cpWords := rfl
@[simp] theorem modIss_collectives (s : State) (f : Iss → Iss) : (s.modIss f).core.collectives = s.core.collectives := rfl
@[simp] theorem modIss_bills (s : State) (f : Iss → Iss) : (s.modIss f).core.bills = s.core.bills := rfl
@[simp] theorem modIss_outbox (s : State) (f : Iss → Iss) : (s.modIss f).core.outbox = s.core.outbox := rfl
@[simp] theorem modIss_health (s : State) (f : Iss → Iss) : (s.modIss f).core.health = s.core.health := rfl
@[simp] theorem modIss_tests (s : State) (f : Iss → Iss) : (s.modIss f).core.tests = s.core.tests := rfl
@[simp] theorem modIss_host (s : State) (f : Iss → Iss) : (s.modIss f).core.host = s.core.host := rfl
@[simp] theorem modIss_power (s : State) (f : Iss → Iss) : (s.modIss f).core.power = s.core.power := rfl
@[simp] theorem modIss_clockStep (s : State) (f : Iss → Iss) : (s.modIss f).core.clockStep = s.core.clockStep := rfl
@[simp] theorem modIss_agenda (s : State) (f : Iss → Iss) : (s.modIss f).core.agenda = s.core.agenda := rfl
@[simp] theorem modIss_inbox (s : State) (f : Iss → Iss) : (s.modIss f).core.inbox = s.core.inbox := rfl
@[simp] theorem modIss_played (s : State) (f : Iss → Iss) : (s.modIss f).core.played = s.core.played := rfl
@[simp] theorem modIss_fixes (s : State) (f : Iss → Iss) : (s.modIss f).core.fixes = s.core.fixes := rfl
@[simp] theorem modIss_cur (s : State) (f : Iss → Iss) : (s.modIss f).core.cur = s.core.cur := rfl
@[simp] theorem modIss_curTxs (s : State) (f : Iss → Iss) : (s.modIss f).core.curTxs = s.core.curTxs := rfl

/-! ## Reset -/

@[simp] theorem reset_memory : State.reset.core.mem = [] := rfl
@[simp] theorem reset_base : State.reset.base = none := rfl

end Sys2Proof.Laws
end

