-- ==== Sys2Proof/Laws/Memory.lean ====
section
/-! SUPPORT. Memory: every operation keeps the canonical form, a read after a write gives what was written, every other
byte reads as before. -/
namespace Sys2Proof.Laws
open Sys2Proof.Machine

/-- Every address of a canonical list above `lo` is above `lo`. -/
theorem memWf_mono {lo : Option Nat} {l : Nat} {m : List Host.Cell} (h : memWfFrom (some l) m = true)
    (hl : ∀ k, lo = some k → k ≤ l) : memWfFrom lo m = true := by
  cases m with
  | nil => simp [memWfFrom]
  | cons p m =>
    obtain ⟨j, x⟩ := p
    cases lo with
    | none => simp_all [memWfFrom]
    | some k =>
      have := hl k rfl
      simp only [memWfFrom, Bool.and_eq_true, decide_eq_true_eq] at h ⊢
      exact ⟨⟨by omega, h.1.2⟩, h.2⟩

/-- A write keeps the canonical form (log 3). -/
theorem memSet_wf {lo : Option Nat} {m : List Host.Cell} (h : memWfFrom lo m = true) (a : Nat) (v : Byte)
    (ha : ∀ l, lo = some l → l < a) : memWfFrom lo (memSet m a v) = true := by
  induction m generalizing lo with
  | nil =>
    simp only [memSet]
    split
    · simp [memWfFrom]
    · rename_i hv
      have hv' : ¬ v = 0#8 := hv
      cases lo with
      | none => simp [memWfFrom, hv']
      | some l => simp [memWfFrom, ha l rfl, hv']
  | cons p m ih =>
    obtain ⟨j, x⟩ := p
    simp only [memWfFrom, Bool.and_eq_true] at h
    simp only [memSet]
    split
    · rename_i hj
      simp only [memWfFrom, Bool.and_eq_true]
      exact ⟨h.1, ih h.2 (by intro l e; cases e; exact hj)⟩
    · split
      · rename_i hj
        subst hj
        split
        · exact memWf_mono h.2 (fun k e => Nat.le_of_lt (ha k e))
        · simp only [memWfFrom, Bool.and_eq_true]
          exact ⟨⟨h.1.1, by simpa using ‹¬v = 0›⟩, h.2⟩
      · split
        · simp only [memWfFrom, Bool.and_eq_true]
          exact h
        · have hj : a < j := by omega
          simp only [memWfFrom, Bool.and_eq_true, decide_eq_true_eq]
          refine ⟨⟨?_, by simpa using ‹¬v = 0›⟩, ⟨hj, h.1.2⟩, h.2⟩
          cases lo with
          | none => rfl
          | some l => simpa using ha l rfl
theorem memSet_keeps_wf {m : List Host.Cell} (h : Memory.wf m = true) (a : Nat) (v : Byte) : Memory.wf (memSet m a v) = true :=
  memSet_wf h a v (by intro l e; cases e)
/-- A write of n bytes keeps the canonical form. -/
theorem memWrite_keeps_wf {m : List Host.Cell} (h : Memory.wf m = true) (a n v : Nat) : Memory.wf (memWrite m a n v) = true := by
  induction n generalizing m a v with
  | zero => exact h
  | succ n ih => exact ih (memSet_keeps_wf h _ _) _ _

/-- Below a canonical list every address reads 0. -/
theorem memGet_below {m : List Host.Cell} {l a : Nat} (h : memWfFrom (some l) m = true) (ha : a ≤ l) : memGet m a = 0 := by
  cases m with
  | nil => rfl
  | cons p m =>
    obtain ⟨j, x⟩ := p
    simp only [memWfFrom, Bool.and_eq_true, decide_eq_true_eq] at h
    have h₁ : j ≠ a := by omega
    have h₂ : a < j := by omega
    simp [memGet, h₁, h₂]
/-- A byte reads what was written to it. -/
theorem memGet_memSet_same {lo : Option Nat} {m : List Host.Cell} (h : memWfFrom lo m = true) (a : Nat) (v : Byte) :
    memGet (memSet m a v) a = v := by
  induction m generalizing lo with
  | nil => simp only [memSet]; split <;> simp_all [memGet]
  | cons p m ih =>
    obtain ⟨j, x⟩ := p
    simp only [memWfFrom, Bool.and_eq_true] at h
    simp only [memSet]
    split
    · have h₁ : j ≠ a := by omega
      have h₂ : ¬ a < j := by omega
      simp [memGet, h₁, h₂, ih h.2]
    · split
      · rename_i hj; subst hj
        split
        · rename_i hv; rw [hv]; exact memGet_below h.2 (Nat.le_refl _)
        · simp [memGet]
      · split
        · rename_i hv
          have h₁ : j ≠ a := by omega
          have h₂ : a < j := by omega
          simp [memGet, h₁, h₂, hv]
        · simp [memGet]
/-- Every other byte reads as before. -/
theorem memGet_memSet_other {lo : Option Nat} {m : List Host.Cell} (h : memWfFrom lo m = true) {a b : Nat} (v : Byte)
    (hb : b ≠ a) : memGet (memSet m a v) b = memGet m b := by
  induction m generalizing lo with
  | nil => simp only [memSet]; split <;> simp [memGet, Ne.symm hb]
  | cons p m ih =>
    obtain ⟨j, x⟩ := p
    simp only [memWfFrom, Bool.and_eq_true] at h
    simp only [memSet]
    split
    · simp [memGet, ih h.2]
    · split
      · rename_i hj; subst hj
        split
        · by_cases hlt : b < j
          · simp [memGet, Ne.symm hb, hlt, memGet_below h.2 (Nat.le_of_lt hlt)]
          · simp [memGet, Ne.symm hb, hlt]
        · simp [memGet, Ne.symm hb]
      · split
        · rfl
        · by_cases hlt : b < a
          · have h₁ : j ≠ b := by omega
            have h₂ : b < j := by omega
            simp [memGet, Ne.symm hb, hlt, h₁, h₂]
          · simp [memGet, Ne.symm hb, hlt]
/-- Bytes outside a written range read as before. -/
theorem memGet_memWrite_other {m : List Host.Cell} (h : Memory.wf m = true) (a n v : Nat) {b : Nat} (hb : b < a ∨ a + n ≤ b) :
    memGet (memWrite m a n v) b = memGet m b := by
  induction n generalizing m a v with
  | zero => rfl
  | succ n ih =>
    rw [memWrite, ih (memSet_keeps_wf h _ _) _ _ (by omega)]
    exact memGet_memSet_other h _ (by omega)
/-- A read of the bytes that a write wrote gives their value. -/
theorem memRead_memWrite_same {m : List Host.Cell} (h : Memory.wf m = true) (a n v : Nat) :
    memRead (memWrite m a n v) a n = v % 256 ^ n := by
  induction n generalizing m a v with
  | zero => simp [memRead, Nat.mod_one]
  | succ n ih =>
    have hw := memSet_keeps_wf h a (BitVec.ofNat 8 v)
    rw [memWrite, memRead, ih hw, memGet_memWrite_other hw _ _ _ (by omega), memGet_memSet_same h]
    rw [BitVec.toNat_ofNat, show (2 : Nat) ^ 8 = 256 from rfl, Nat.pow_succ, Nat.mul_comm (256 ^ n) 256, Nat.mod_mul]
/-- A read that no written byte lies in is as before. -/
theorem memRead_memWrite_other {m : List Host.Cell} (h : Memory.wf m = true) (a n v : Nat) {b k : Nat}
    (hb : b + k ≤ a ∨ a + n ≤ b) : memRead (memWrite m a n v) b k = memRead m b k := by
  induction k generalizing b with
  | zero => rfl
  | succ k ih => rw [memRead, memRead, ih (by omega), memGet_memWrite_other h _ _ _ (by omega)]

theorem xorRow_keeps_wf {c : Core} (h : Memory.wf c.mem = true) (row : Nat) (x : Word) : Memory.wf (c.xorRow row x).mem = true := by
  unfold Core.xorRow
  split
  · exact h
  · exact memWrite_keeps_wf h _ _ _
/-- New flipped bits keep the canonical form. -/
theorem putFlips_keeps_wf {c : Core} (h : Memory.wf c.mem = true) (fs ps : List Flip) (skip : Option Nat) :
    Memory.wf (c.putFlips fs ps skip).mem = true := by
  have key : ∀ (l : List Nat) (f : Nat → Word) (k : Core), Memory.wf k.mem = true →
      Memory.wf (l.foldl (fun k r => k.xorRow r (f r)) k).mem = true := by
    intro l f
    induction l with
    | nil => exact fun _ h => h
    | cons r l ih => exact fun k h => ih _ (xorRow_keeps_wf h _ _)
  exact key _ _ _ h
/-- A row write keeps the canonical form. -/
theorem writeRow_keeps_wf {c : Core} (h : Memory.wf c.mem = true) (addr : Nat) (val mask : Word) (job : Option Nat) :
    Memory.wf (c.writeRow addr val mask job).mem = true := by
  unfold Core.writeRow
  dsimp only
  split <;> split <;> first
    | exact memWrite_keeps_wf h _ _ _
    | exact memWrite_keeps_wf (putFlips_keeps_wf h _ _ _) _ _ _
/-- A write of a shared row keeps the canonical form. -/
theorem writeShared_keeps_wf {c : Core} (h : Memory.wf c.mem = true) (addr : Nat) (val mask : Word) (scope unit writer : Nat)
    (job : Option Nat) : Memory.wf (c.writeShared addr val mask scope unit writer job).mem = true :=
  writeRow_keeps_wf h (rowAddr addr) val mask job

end Sys2Proof.Laws
end

