-- ==== Sys2Proof/Laws/Arrays.lean ====
section
/-! SUPPORT. Errors of the arrays: what no flipped bit leaves unflagged, what the operations on stored bits do to memory. -/
namespace Sys2Proof.Laws
open Sys2Proof.Machine

theorem horizontal_zero : horizontal 0 = 0 := by decide
/-- Without flipped bits no word is flagged (R372). -/
theorem wordFlagged_of_none {c : Core} (h : c.flips = []) (row : Nat) : c.wordFlagged row = false := by
  simp only [Core.wordFlagged, Core.flip, flipOf, h, Flip.flagged, List.find?_nil, Option.getD_none]
  rw [horizontal_zero]; rfl
/-- A read fires nothing without flipped bits and armed injections (R372, R399). -/
theorem flagOf_of_none {c : Core} (h : c.flips = []) (g : ∀ p ∈ c.weaves, p.2.injecting = false) (row : Nat) :
    c.flagOf row = none := by
  have f : c.firing row = none := by
    rw [Core.firing, Option.map_eq_none_iff, List.find?_eq_none]
    exact fun p hp => by simp [g p hp]
  simp [Core.flagOf, f, wordFlagged_of_none h]
/-- A word that has been rebuilt is no longer flagged (R373). -/
theorem flagged_horizontal (row : Nat) (x : Word) : (Flip.mk row x (horizontal x)).flagged = false := by simp [Flip.flagged]

theorem setFlip_keeps_wf {c : Core} (h : Memory.wf c.mem = true) (f : Flip) : Memory.wf (c.setFlip f).mem = true :=
  putFlips_keeps_wf h _ _ _
theorem rebuildWord_keeps_wf {c : Core} (h : Memory.wf c.mem = true) (row : Nat) : Memory.wf (c.rebuildWord row).mem = true :=
  setFlip_keeps_wf h _
theorem poisonRow_keeps_wf {c : Core} (h : Memory.wf c.mem = true) (row : Nat) : Memory.wf (c.poisonRow row).mem = true := by
  unfold Core.poisonRow
  split
  · exact h
  · exact memWrite_keeps_wf h _ _ _
/-- The log, a corrected and an uncorrectable error leave memory alone. -/
theorem raiseSource_mem (c : Core) (n : Nat) : (c.raiseSource n).mem = c.mem := by
  unfold Core.raiseSource Core.msix
  dsimp only
  repeat (first | rfl | split)
theorem logEntry_mem (c : Core) (unit kind flags tag : Nat) (addr va : Word) : (c.logEntry unit kind flags tag addr va).mem = c.mem := by
  unfold Core.logEntry
  dsimp only
  split <;> split <;> first | rfl | (rw [raiseSource_mem]; rfl)
theorem noteCorrected_mem (c : Core) (u : UnitName) (injected : Bool) : (c.noteCorrected u injected).mem = c.mem := by
  unfold Core.noteCorrected
  split
  · rfl
  · dsimp only
    split <;> rfl
theorem noteUncorrectable_mem (c : Core) (u : UnitName) (injected : Bool) : (c.noteUncorrectable u injected).mem = c.mem := by
  unfold Core.noteUncorrectable
  split <;> rfl
theorem settleRow_keeps_wf {c : Core} (h : Memory.wf c.mem = true) (row : Nat) (unc injected : Bool) :
    Memory.wf (c.settleRow row unc injected).mem = true := by
  unfold Core.settleRow
  dsimp only
  split
  · rw [logEntry_mem]
    exact poisonRow_keeps_wf (by rw [noteUncorrectable_mem]; exact h) _
  · rw [logEntry_mem, noteCorrected_mem]
    split
    · exact h
    · exact rebuildWord_keeps_wf h _
/-- A fold of updates that each keep the canonical form keeps it. -/
theorem foldl_keeps_wf {α : Type} (f : Core → α → Core) (hf : ∀ c x, Memory.wf c.mem = true → Memory.wf (f c x).mem = true) (xs : List α)
    {c : Core} (h : Memory.wf c.mem = true) : Memory.wf (xs.foldl f c).mem = true := by
  induction xs generalizing c with
  | nil => exact h
  | cons x xs ih => exact ih (hf c x h)
theorem settleRows_keeps_wf {c : Core} (h : Memory.wf c.mem = true) (mine : Nat → Bool) : Memory.wf (c.settleRows mine).mem = true := by
  unfold Core.settleRows
  refine foldl_keeps_wf _ (fun c r hc => ?_) _ (foldl_keeps_wf _ (fun c x hc => ?_) _ (foldl_keeps_wf _ (fun c p hc => ?_) _ h))
  · rw [logEntry_mem]
    exact hc
  · split
    · exact settleRow_keeps_wf hc _ _ _
    · exact hc
  · exact settleRow_keeps_wf (c := Core.disarm c p.1) hc _ _ _
/-- The decoding of an HBM request keeps the form (R379). -/
theorem settleRequest_keeps_wf {c : Core} (h : Memory.wf c.mem = true) (r : Nat) (fix : Nat × Nat) :
    Memory.wf (c.settleRequest r fix).mem = true := by
  refine foldl_keeps_wf _ (fun d i hd => ?_) _ h
  dsimp only
  generalize (c.symbolError r (i + 3) ^^^ _) = x
  split
  · exact hd
  · exact memWrite_keeps_wf hd _ _ _
theorem poisonRequest_mem (c : Core) (r : Nat) : (c.poisonRequest r).mem = c.mem := by
  unfold Core.poisonRequest
  split <;> rfl
theorem decodeRequest_keeps_wf {c : Core} (h : Memory.wf c.mem = true) (tag flags r va : Nat) :
    Memory.wf (c.decodeRequest tag flags r va).mem = true := by
  unfold Core.decodeRequest
  split
  · exact h
  · dsimp only
    split
    · exact settleRequest_keeps_wf h _ _
    · rw [logEntry_mem, noteCorrected_mem]
      exact settleRequest_keeps_wf h _ _
    · rw [logEntry_mem, poisonRequest_mem, noteUncorrectable_mem]
      exact settleRequest_keeps_wf h _ _
/-- Filtering and moving a range keep the canonical form. -/
theorem memWfFrom_filter {m : List Host.Cell} {lo : Option Nat} (h : memWfFrom lo m = true) (p : Host.Cell → Bool) :
    memWfFrom lo (m.filter p) = true := by
  induction m generalizing lo with
  | nil => exact h
  | cons x m ih =>
    obtain ⟨j, v⟩ := x
    simp only [memWfFrom, Bool.and_eq_true] at h
    rw [List.filter_cons]
    split
    · simp only [memWfFrom, Bool.and_eq_true]
      exact ⟨h.1, ih h.2⟩
    · refine memWf_mono (ih h.2) fun k e => ?_
      subst e
      have := h.1.1
      simp only [decide_eq_true_eq] at this
      omega
theorem moveRange_keeps_wf {c : Core} (h : Memory.wf c.mem = true) (a b len : Nat) : Memory.wf (c.moveRange a b len).mem = true := by
  have fold : ∀ (cells : List Host.Cell) (f : Nat → Nat) (m : List Host.Cell), Memory.wf m = true →
      Memory.wf (cells.foldl (fun m (x : Host.Cell) => memSet m (f x.1) x.2) m) = true := by
    intro cells f
    induction cells with
    | nil => exact fun _ h => h
    | cons x xs ih => exact fun m h => ih _ (memSet_keeps_wf h _ _)
  have flags : ∀ (l : List Nat) (f : Nat → Nat) (c : Core), (l.foldl (fun c r => (c.setArrived r).clearArrived (f r)) c).mem = c.mem := by
    intro l f
    induction l with
    | nil => exact fun _ => rfl
    | cons r l ih => exact fun c => (ih _).trans rfl
  have decoded := foldl_keeps_wf (fun (c : Core) (p : Nat × List (Nat × BitVec 16)) => c.decodeRequest 0 0 p.1 0)
    (fun _ _ hc => decodeRequest_keeps_wf hc _ _ _ _) (c.hbmFlips.filter fun p => a ≤ p.1 && p.1 < a + len) h
  unfold Core.moveRange
  rw [flags]
  split
  · exact fold _ _ _ (memWfFrom_filter (settleRows_keeps_wf decoded _) _)
  · exact fold _ _ _ (memWfFrom_filter (settleRows_keeps_wf decoded _) _)

end Sys2Proof.Laws
end

