-- ==== Sys2Proof/Laws/Elements.lean ====
section
/-! SUPPORT. Elements of 64-bit values: what packing and the element-wise maps leave in each element (R159). -/
namespace Sys2Proof.Laws
open Sys2Proof.Machine

/-- The packed number of a list of elements. -/
def packed (w : Nat) (es : List Nat) : Nat := es.foldr (fun e acc => acc * 2 ^ w + e % 2 ^ w) 0
theorem packed_lt (w : Nat) (es : List Nat) : packed w es < 2 ^ (w * es.length) := by
  induction es with
  | nil => simp [packed]
  | cons e es ih =>
    have h : packed w (e :: es) = packed w es * 2 ^ w + e % 2 ^ w := rfl
    have he : e % 2 ^ w < 2 ^ w := Nat.mod_lt _ (Nat.two_pow_pos w)
    rw [h, List.length_cons, Nat.mul_succ, Nat.pow_add]
    calc packed w es * 2 ^ w + e % 2 ^ w < packed w es * 2 ^ w + 2 ^ w := by omega
      _ = (packed w es + 1) * 2 ^ w := by ring
      _ ≤ 2 ^ (w * es.length) * 2 ^ w := Nat.mul_le_mul_right _ ih
theorem packed_elem (w : Nat) (es : List Nat) (i : Nat) : packed w es / 2 ^ (w * i) % 2 ^ w = (es[i]?.getD 0) % 2 ^ w := by
  induction es generalizing i with
  | nil => simp [packed]
  | cons e es ih =>
    have h : packed w (e :: es) = e % 2 ^ w + packed w es * 2 ^ w := by rw [Nat.add_comm]; rfl
    have hp : 0 < 2 ^ w := Nat.two_pow_pos w
    cases i with
    | zero => simp [h, Nat.add_mul_mod_self_right]
    | succ i =>
      rw [h, Nat.mul_succ, Nat.add_comm (w * i) w, Nat.pow_add, ← Nat.div_div_eq_div_mul, Nat.add_mul_div_right _ _ hp,
        Nat.div_eq_of_lt (Nat.mod_lt _ hp), Nat.zero_add, ih]
      simp
/-- An element of a packed value. -/
theorem elem_packElems (w : Nat) (es : List Nat) (i : Nat) (h : w * es.length ≤ 64) :
    elem (packElems w es) w i = (es[i]?.getD 0) % 2 ^ w := by
  have hl : packed w es < 2 ^ 64 := Nat.lt_of_lt_of_le (packed_lt w es) (Nat.pow_le_pow_right (by omega) h)
  have e : (packElems w es).toNat = packed w es := by
    show (BitVec.ofNat 64 (packed w es)).toNat = _
    rw [BitVec.toNat_ofNat, Nat.mod_eq_of_lt hl]
  rw [elem, e, packed_elem]
/-- Elements of the element-wise maps. -/
theorem elem_mapElems {w i : Nat} (f : Nat → Nat) (x : Word) (h : i < 64 / w) :
    elem (mapElems w f x) w i = f (elem x w i) % 2 ^ w := by
  have : w * (64 / w) ≤ 64 := Nat.mul_div_le 64 w
  rw [mapElems, elem_packElems _ _ _ (by simpa using this)]
  simp [h]
theorem elem_mapElems2 {w i : Nat} (f : Nat → Nat → Nat) (x y : Word) (h : i < 64 / w) :
    elem (mapElems2 w f x y) w i = f (elem x w i) (elem y w i) % 2 ^ w := by
  have : w * (64 / w) ≤ 64 := Nat.mul_div_le 64 w
  rw [mapElems2, elem_packElems _ _ _ (by simpa using this)]
  simp [h]
theorem elem_mapElems3 {w i : Nat} (f : Nat → Nat → Nat → Nat) (x y z : Word) (h : i < 64 / w) :
    elem (mapElems3 w f x y z) w i = f (elem x w i) (elem y w i) (elem z w i) % 2 ^ w := by
  have : w * (64 / w) ≤ 64 := Nat.mul_div_le 64 w
  rw [mapElems3, elem_packElems _ _ _ (by simpa using this)]
  simp [h]
theorem elem_lt (x : Word) (w i : Nat) : elem x w i < 2 ^ w := Nat.mod_lt _ (Nat.two_pow_pos w)

end Sys2Proof.Laws
end

