-- ==== Sys2Proof/Laws/Results.lean ====
section
/-! SUPPORT. Results in flight: what `deliver` and its forms can do, and what reads see of it (R14 to R18). -/
namespace Sys2Proof.Laws
open Sys2Proof.Machine Sys2Proof.Claims

/-! ## The fold over the results in flight -/

/-- The step of `latest`. -/
def pick (file : File) (reg : BitVec 5) (lane cell t : Nat) (acc : Option (Nat × Nat × Word)) (x : Result) :
    Option (Nat × Nat × Word) :=
  if x.file = file ∧ x.reg = reg ∧ x.lands cell ≤ t + cell then
    match mget? x.data lane with
    | none => acc
    | some d =>
      match acc with
      | none => some (x.lands cell, x.id, d)
      | some (l, i, d') => if l < x.lands cell ∨ (l = x.lands cell ∧ i < x.id) then some (x.lands cell, x.id, d) else some (l, i, d')
  else acc
theorem latest_eq (fs : List Result) (file : File) (reg : BitVec 5) (lane cell t : Nat) :
    latest fs file reg lane cell t = (fs.foldl (pick file reg lane cell t) none).map (·.2.2) := by
  unfold latest
  congr 2
  funext acc x
  unfold pick
  split
  · cases mget? x.data lane <;> simp
    cases acc <;> simp
  · rfl
theorem latest_append (fs : List Result) (x : Result) (file : File) (reg : BitVec 5) (lane cell t : Nat) :
    latest (fs ++ [x]) file reg lane cell t =
      (pick file reg lane cell t (fs.foldl (pick file reg lane cell t) none) x).map (·.2.2) := by
  simp [latest_eq]
/-- A result that is not of the register, not of the lane or not landed changes no read. -/
theorem latest_append_skip (fs : List Result) (x : Result) (file : File) (reg : BitVec 5) (lane cell t : Nat)
    (h : x.file ≠ file ∨ x.reg ≠ reg ∨ t + cell < x.lands cell ∨ mget? x.data lane = none) :
    latest (fs ++ [x]) file reg lane cell t = latest fs file reg lane cell t := by
  rw [latest_append, latest_eq]
  congr 1
  unfold pick
  split
  · rename_i hc
    rcases h with h | h | h | h
    · exact absurd hc.1 h
    · exact absurd hc.2.1 h
    · omega
    · simp [h]
  · rfl
/-- What a fold has found lies below a bound that every landing of the register and lane lies below. -/
theorem fold_pick_bound (fs : List Result) (file : File) (reg : BitVec 5) (lane cell t B : Nat)
    (h : ∀ x ∈ fs, x.file = file → x.reg = reg → (mget? x.data lane).isSome → x.lands cell < B) :
    ∀ acc, (∀ l i d, acc = some (l, i, d) → l < B) →
      ∀ l i d, fs.foldl (pick file reg lane cell t) acc = some (l, i, d) → l < B := by
  induction fs with
  | nil => intro acc ha l i d e; exact ha l i d e
  | cons x fs ih =>
    intro acc ha
    refine ih (fun y hy => h y (List.mem_cons_of_mem _ hy)) _ ?_
    intro l i d e
    unfold pick at e
    split at e
    · rename_i hc
      split at e
      · exact ha l i d e
      · rename_i d' hd
        have hb : x.lands cell < B := h x List.mem_cons_self hc.1 hc.2.1 (by simp [hd])
        split at e
        · cases e; exact hb
        · rename_i l' i' d'' 
          split at e
          · cases e; exact hb
          · cases e; exact ha _ _ _ rfl
    · exact ha l i d e
/-- A landed result that lands after every other of its register and lane is what a read gives. -/
theorem latest_append_take (fs : List Result) (x : Result) (lane cell t : Nat) (d : Word) (ht : x.lands cell ≤ t + cell)
    (hd : mget? x.data lane = some d)
    (h : ∀ y ∈ fs, y.file = x.file → y.reg = x.reg → (mget? y.data lane).isSome → y.lands cell < x.lands cell) :
    latest (fs ++ [x]) x.file x.reg lane cell t = some d := by
  rw [latest_append]
  have hb := fold_pick_bound fs x.file x.reg lane cell t (x.lands cell) h none (by intro l i d e; cases e)
  generalize fs.foldl (pick x.file x.reg lane cell t) none = acc at hb
  unfold pick
  simp only [ht, hd, and_self, if_true]
  cases acc with
  | none => rfl
  | some p =>
    obtain ⟨l, i, d'⟩ := p
    have := hb l i d' rfl
    simp [this]

/-! ## Deliver -/

/-- A fold of schedulings changes the agenda alone, which it extends. -/
theorem sched_fold (L : List Nat) (f : Nat → Nat × Nat × Nat × Act) (c : Core) :
    ∃ es, L.foldl (fun c cell => c.sched (f cell).1 (f cell).2.1 (f cell).2.2.1 (f cell).2.2.2) c =
      { c with agenda := c.agenda ++ es } := by
  induction L generalizing c with
  | nil => exact ⟨[], by simp⟩
  | cons x L ih =>
    obtain ⟨es, h⟩ := ih (c.sched (f x).1 (f x).2.1 (f x).2.2.1 (f x).2.2.2)
    refine ⟨⟨.cycle (f x).1, (f x).2.1, (f x).2.2.1, (f x).2.2.2⟩ :: es, ?_⟩
    rw [List.foldl_cons, h]
    simp [Core.sched]
/-- Putting a result in flight: the weave's flight and the agenda grow, nothing else changes. -/
theorem putResult_eq (c : Core) (w : Nat) (x : Result) :
    ∃ es, c.putResult w x =
      { c.modW w (fun v => { v with flight := v.flight ++ [x] }) with agenda := c.agenda ++ es } := by
  unfold Core.putResult
  obtain ⟨es, h⟩ := sched_fold (if x.file = .s then [0] else cellsOf x.lanes)
    (fun cell => (x.lands cell, bLand, x.id, if x.latch then .latchLanding w x.id cell else .resultLanding w x.id cell))
    (c.modW w fun v => { v with flight := v.flight ++ [x] })
  exact ⟨es, by simpa using h⟩
/-- What `deliver` does (R17, R18): nothing for s0 and k0, else one result more in flight. -/
theorem deliver_eq (s : State) (file : File) (reg : BitVec 5) (L : Nat) (lanes : List Nat) (data : Map Word)
    (h : file = .v ∨ reg ≠ 0) :
    ∃ es, s.deliver file reg L lanes data = { s with core :=
      { s.core.modW s.core.cur (fun v => { v with flight := v.flight ++
          [⟨s.core.nextId, s.core.iss.slot, s.core.now, file, reg, s.core.now + L, 0, lanes, data, false⟩] }) with
        agenda := s.core.agenda ++ es, nextId := s.core.nextId + 1 } } := by
  have hn : ¬ (file ≠ .v ∧ reg = 0) := by
    rintro ⟨h₁, h₂⟩
    rcases h with h | h
    · exact h₁ h
    · exact h h₂
  obtain ⟨es, he⟩ := putResult_eq s.core.fresh.2 s.core.cur
    ⟨s.core.nextId, s.core.iss.slot, s.core.now, file, reg, s.core.now + L, 0, lanes, data, false⟩
  refine ⟨es, ?_⟩
  unfold State.deliver
  rw [if_neg hn]
  exact congrArg (fun c => ({ core := c, base := s.base } : State)) he
theorem deliver_discard (s : State) (file : File) (L : Nat) (lanes : List Nat) (data : Map Word) (h : file ≠ .v) :
    s.deliver file 0 L lanes data = s := by
  simp [State.deliver, h]

/-- A list of lane values holds each lane's value. -/
theorem mget?_map {lanes : List Nat} (f : Nat → Word) {l : Nat} (h : l ∈ lanes) :
    mget? (lanes.map fun x => (x, f x)) l = some (f l) := by
  induction lanes with
  | nil => cases h
  | cons x xs ih =>
    simp only [List.map_cons, mget?]
    split
    · rename_i e; rw [e]
    · rename_i e
      cases h with
      | head => exact absurd rfl e
      | tail _ h => exact ih h
theorem mget?_map_none {lanes : List Nat} (f : Nat → Word) {l : Nat} (h : l ∉ lanes) :
    mget? (lanes.map fun x => (x, f x)) l = none := by
  induction lanes with
  | nil => rfl
  | cons x xs ih =>
    simp only [List.mem_cons, not_or] at h
    simp [mget?, Ne.symm h.1, ih h.2]
theorem active_sub (s : State) (k : KReg) {l : Nat} (h : l ∈ s.active k) : l < 128 ∧ s.kreg k l = true := by
  simpa [State.active, allLanes] using h
theorem mem_active (s : State) (k : KReg) (l : Nat) : l ∈ s.active k ↔ l < 128 ∧ s.kreg k l = true := by
  simp [State.active, allLanes]

/-! ## What lands -/

/-- A weave's state depends on the map of weaves alone. -/
theorem weave_congr {c d : Core} (h : c.weaves = d.weaves) (w : Nat) : c.weave w = d.weave w := by
  simp [Core.weave, h]
theorem modW_weaves (c : Core) (w : Nat) (f : Weave → Weave) : (c.modW w f).weaves = mset c.weaves w (f (c.weave w)) := rfl
/-- The executing weave after a delivery: one result more in flight. -/
theorem me_deliver (s : State) (file : File) (reg : BitVec 5) (L : Nat) (lanes : List Nat) (data : Map Word)
    (h : file = .v ∨ reg ≠ 0) : me (s.deliver file reg L lanes data) = { me s with flight := (me s).flight ++
      [⟨s.core.nextId, s.core.iss.slot, s.core.now, file, reg, s.core.now + L, 0, lanes, data, false⟩] } := by
  obtain ⟨es, e⟩ := deliver_eq s file reg L lanes data h
  have hw : (s.deliver file reg L lanes data).core.weaves = (s.core.modW s.core.cur fun v => { v with flight := v.flight ++
      [⟨s.core.nextId, s.core.iss.slot, s.core.now, file, reg, s.core.now + L, 0, lanes, data, false⟩] }).weaves := by rw [e]
  have hc : (s.deliver file reg L lanes data).core.cur = s.core.cur := by rw [e]; rfl
  unfold me
  rw [hc, weave_congr hw, modW_weave_same]
/-- A delivery changes nothing but results in flight (R17, R18). -/
theorem deliver_frame (s : State) (file : File) (reg : BitVec 5) (L : Nat) (lanes : List Nat) (data : Map Word) :
    SameButFlight s (s.deliver file reg L lanes data) := by
  by_cases h : file = .v ∨ reg ≠ 0
  · obtain ⟨es, e⟩ := deliver_eq s file reg L lanes data h
    have hw : (s.deliver file reg L lanes data).core.weaves = (s.core.modW s.core.cur fun v => { v with flight := v.flight ++
        [⟨s.core.nextId, s.core.iss.slot, s.core.now, file, reg, s.core.now + L, 0, lanes, data, false⟩] }).weaves := by rw [e]
    refine ⟨by rw [e], by rw [e]; rfl, ?_, ?_, by rw [e]; exact fun _ => rfl⟩
    · intro v hv
      rw [weave_congr hw, modW_weave_other _ _ hv]
    · rw [me_deliver s file reg L lanes data h]
  · have h' : file ≠ .v ∧ reg = 0 := ⟨fun e => h (.inl e), Classical.byContradiction fun e => h (.inr e)⟩
    obtain ⟨h₁, rfl⟩ := h'
    rw [deliver_discard _ _ _ _ _ h₁]
    exact ⟨rfl, rfl, fun _ _ => rfl, rfl, fun _ => rfl⟩
theorem same_refl (s : State) : SameButFlight s s := ⟨rfl, rfl, fun _ _ => rfl, rfl, fun _ => rfl⟩
/-- A scalar result lands in its register, and nothing else changes. -/
theorem putS_lands (s : State) (d : Reg) (L : Nat) (x : Word) : LandsS s (s.putS d L x) d L x := by
  by_cases hd : d = 0
  · subst hd
    have : s.putS 0 L x = s := deliver_discard _ _ _ _ _ (by decide)
    rw [this]
    exact ⟨same_refl s, ⟨fun _ _ _ => rfl, fun _ _ _ => rfl, fun _ _ _ => rfl, fun h => absurd rfl h⟩, fun _ => rfl⟩
  · refine ⟨deliver_frame .., ⟨?_, ?_, ?_, ?_⟩, fun h => absurd h hd⟩
    · intro T r h
      rw [State.putS, me_deliver _ _ _ _ _ _ (.inr hd)]
      simp only [Weave.sval]
      split
      · rfl
      · rw [latest_append_skip]
        rcases h with h | h
        · exact .inr (.inl (Ne.symm h))
        · refine .inr (.inr (.inl ?_))
          simp only [Result.lands]; simp only [State.now] at h; omega
    · intro T r l
      rw [State.putS, me_deliver _ _ _ _ _ _ (.inr hd)]
      simp only [Weave.vval]
      rw [latest_append_skip]; exact .inl File.noConfusion
    · intro T k l
      rw [State.putS, me_deliver _ _ _ _ _ _ (.inr hd)]
      simp only [Weave.kval]
      rw [latest_append_skip]; exact .inl File.noConfusion
    · intro _ hs T hT
      rw [State.putS, me_deliver _ _ _ _ _ _ (.inr hd)]
      simp only [Weave.sval, if_neg hd]
      rw [latest_append_take (me s).flight
        ⟨s.core.nextId, s.core.iss.slot, s.core.now, .s, d, s.core.now + L, 0, [0], [(0, x)], false⟩ 0 0 T x
        (by simp only [Result.lands]; simp only [State.now] at hT; omega) rfl
        (fun y hy h₁ h₂ h₃ => by simpa [Result.lands, State.now] using hs y hy h₁ h₂ h₃)]
      rfl
/-- Lane results land in their lanes, and nothing else changes. -/
theorem putV_lands (s : State) (d : Reg) (L : Nat) (lanes : List Nat) (f : Nat → Word) :
    LandsV s (s.putV d L lanes f) d L lanes f := by
  refine ⟨deliver_frame .., ?_, ?_, ?_, ?_⟩
  · intro T r
    rw [State.putV, me_deliver _ _ _ _ _ _ (.inl rfl)]
    simp only [Weave.sval]
    split
    · rfl
    · rw [latest_append_skip]; exact .inl File.noConfusion
  · intro T k l
    rw [State.putV, me_deliver _ _ _ _ _ _ (.inl rfl)]
    simp only [Weave.kval]
    rw [latest_append_skip]; exact .inl File.noConfusion
  · intro T r l h
    rw [State.putV, me_deliver _ _ _ _ _ _ (.inl rfl)]
    simp only [Weave.vval]
    rw [latest_append_skip]
    rcases h with h | h | h
    · exact .inr (.inl (Ne.symm h))
    · exact .inr (.inr (.inr (mget?_map_none f h)))
    · refine .inr (.inr (.inl ?_))
      simp only [Result.lands]; simp only [State.now] at h; omega
  · intro l hl hs T hT
    rw [State.putV, me_deliver _ _ _ _ _ _ (.inl rfl)]
    simp only [Weave.vval]
    rw [latest_append_take (me s).flight
      ⟨s.core.nextId, s.core.iss.slot, s.core.now, .v, d, s.core.now + L, 0, lanes, lanes.map fun l => (l, f l), false⟩ l (l / 16) T (f l)
      (by simp only [Result.lands]; simp only [State.now] at hT; omega) (mget?_map f hl)
      (fun y hy h₁ h₂ h₃ => by simpa [Result.lands, State.now] using hs y hy h₁ h₂ h₃)]
    rfl
/-- Predicate results land in their lanes, and nothing else changes. -/
theorem putK_lands (s : State) (d : KReg) (L : Nat) (lanes : List Nat) (f : Nat → Bool) :
    LandsK s (s.putK d L lanes f) d L lanes f := by
  by_cases hd : d = 0
  · subst hd
    have : s.putK 0 L lanes f = s := deliver_discard _ _ _ _ _ (by decide)
    rw [this]
    exact ⟨same_refl s, ⟨fun _ _ => rfl, fun _ _ _ => rfl, fun _ _ _ _ => rfl, fun h => absurd rfl h⟩, fun _ => rfl⟩
  · have hd' : d.setWidth 5 ≠ (0 : BitVec 5) := by revert d; decide
    have inj : ∀ k : KReg, k ≠ d → d.setWidth 5 ≠ k.setWidth 5 := by
      intro k h e
      apply h
      have := congrArg BitVec.toNat e
      simp only [BitVec.toNat_setWidth] at this
      apply BitVec.eq_of_toNat_eq
      omega
    refine ⟨deliver_frame .., ⟨?_, ?_, ?_, ?_⟩, fun h => absurd h hd⟩
    · intro T r
      rw [State.putK, me_deliver _ _ _ _ _ _ (.inr hd')]
      simp only [Weave.sval]
      split
      · rfl
      · rw [latest_append_skip]; exact .inl File.noConfusion
    · intro T r l
      rw [State.putK, me_deliver _ _ _ _ _ _ (.inr hd')]
      simp only [Weave.vval]
      rw [latest_append_skip]; exact .inl File.noConfusion
    · intro T k l h
      rw [State.putK, me_deliver _ _ _ _ _ _ (.inr hd')]
      simp only [Weave.kval]
      split
      · rfl
      · rw [latest_append_skip]
        rcases h with h | h | h
        · exact .inr (.inl (inj k h))
        · exact .inr (.inr (.inr (mget?_map_none (fun l => if f l then 1 else 0) h)))
        · refine .inr (.inr (.inl ?_))
          simp only [Result.lands]; simp only [State.now] at h; omega
    · intro _ l hl hs T hT
      rw [State.putK, me_deliver _ _ _ _ _ _ (.inr hd')]
      simp only [Weave.kval, if_neg hd]
      rw [latest_append_take (me s).flight
        ⟨s.core.nextId, s.core.iss.slot, s.core.now, .k, d.setWidth 5, s.core.now + L, 0, lanes,
          lanes.map fun l => (l, if f l then 1 else 0), false⟩ l (l / 16) T (if f l then 1 else 0)
        (by simp only [Result.lands]; simp only [State.now] at hT; omega) (mget?_map (fun l => if f l then 1 else 0) hl)
        (fun y hy h₁ h₂ h₃ => by simpa [Result.lands, State.now] using hs y hy h₁ h₂ h₃)]
      cases f l <;> rfl

end Sys2Proof.Laws
end

