-- ==== Sys2Proof/Tests/Slice0.lean ====
section
/-! SUPPORT. Tests. The expected results are the manual's worked examples and encodings, or hand calculation from its rules.
The theorems hyp_<statement> show, for each statement with hypotheses, a concrete state and operands that meet them. -/
set_option Elab.async false
namespace Sys2Proof.Tests
open Sys2Proof.Machine Sys2Proof.Claims

/-! # Well-formedness: an ill-formed term for each check -/

theorem test_wf_levels : ([.rdli 1 6, .rdlc 1 7, .loop 1 0, .loop 1 0x8000, .loopi 1 0, .phase 5 0, .binit 5 1 0, .realign false 0] : List Instr).all
    (fun i => i.wf = false) = true := by decide +kernel
theorem test_wf_ports : ([.lease 3 0, .lease 0 6, .rel 3, .lwait 3, .lqry 1 3, .mxZero 3, .mxLda 3, .mxLdb 3, .mxMm 3 0 0 false, .mxPs 3, .mxSt 3 false,
    .mxSv 3 false, .mxRs 3, .mxChk 3, .mxRp 3, .gxCfg 3 0, .gxGth 3 false, .gxBag 3 false, .gxSca 3 false, .gxStat 3 false] : List Instr).all
    (fun i => i.wf = false) = true := by decide +kernel
theorem test_wf_ports2 : ([.cdCmp 3, .cdExp 3, .cdHash 3, .cdDelta 3 false, .sfExp 3 0, .sfSmx 3 0, .sfNrm 3 0 false false, .sfRsq 3 0, .sfGelu 3 0,
    .ksTopk 3 0 false, .ksSort 3 0 false false, .txLoad 3, .txGo 3 false, .txStop 3 false] : List Instr).all
    (fun i => i.wf = false) = true := by decide +kernel
theorem test_wf_csrs : ([.csrr 1 0x011, .csrw 0x019 1, .csrs 0x022 1, .csrc 0xFFF 1, .clkdiv 4 0, .refdefer 0, .refdefer 5] : List Instr).all
    (fun i => i.wf = false) = true := by decide +kernel
theorem test_wf_lanes : ([.vshli .b 1 1 8, .vshri .h 1 1 16, .vsari .w 1 1 32, .vbfxi 1 1 63 1] : List Instr).all
    (fun i => i.wf = false) = true := by decide +kernel
theorem test_wf_formats : ([.vfadd .e4 1 1 1 0, .vfsub .e5 1 1 1 0, .vfmul .i 1 1 1 0, .vfma .e4 1 1 1 0, .vfms .e5 1 1 1 0, .vfnma .i 1 1 1 0,
    .vfmin .e4 1 1 1 0, .vfmax .e5 1 1 1 0, .vfabs .i 1 1 0, .vfneg .e4 1 1 0, .vfclass .e5 1 1 0, .vfcmpeq .i 1 1 1 0, .vfcmplt .e4 1 1 1 0,
    .vfcmple .e5 1 1 1 0, .vfcmpun .i 1 1 1 0] : List Instr).all (fun i => i.wf = false) = true := by decide +kernel
theorem test_wf_functions : ([.vfrcp .d 1 1 0, .vfrsq .e4 1 1 0, .vfexp2 .d 1 1 0, .vflog2 .i 1 1 0, .vfscl .h 1 1 1 0, .vfscli .bf 1 1 0,
    .vfcvt .i .s false 1 1 0, .vfcvt .s .i false 1 1 0, .vfcvti .b .i false 1 1 0, .vfcvtf .i .b false 1 1 0, .vfdot .s 1 1 1 0,
    .vfrnd .e4 0 1 1 0, .vfrnd .s 5 1 1 0, .vfrnd .s 6 1 1 0] : List Instr).all (fun i => i.wf = false) = true := by decide +kernel
theorem test_wf_steps : ([.swaitServed 160 0, .swaitServed 0 256, .collectiveBoundaryCompletion 0 5 0, .barrierCompletion 0 64 0 0,
    .barrierCompletion 0 0 5 0, .probeWalkCompletion 640 0, .probeWalkCompletion 0 16, .repLaunch 640 0, .repLaunch 0 4, .laneAtomicApply 640 0 0,
    .resultLanding 0 0 8, .wavefrontSkewExecution 640 0 0, .latchLanding 0 0 8, .gauzeMessageArrival 640 0, .launchWordEntry 640 0,
    .jobStart (.pool 160 0 0), .jobCompletion (.pool 0 6 0) 0, .jobStart (.copy 640 true)] : List Instr).all (fun i => i.wf = false) = true := by
  decide +kernel
theorem test_wf_weaves : ([.trapEntry 640, .fatalContextError 640, .evict 640, .preempt 640, .phaseRerun 640, .comparePoint 640, .refresh 640,
    .refreshBlackoutEnd 640, .throttleEventEntry 640, .debugHaltRequest 640, .debugResume 640, .debugStep 640, .debugDataAccess 640 none,
    .userEventEntry 640 0, .userEventEntry 0 256] : List Instr).all (fun i => i.wf = false) = true := by decide +kernel
theorem test_wf_units : ([.graceEnd 160 0 0, .leaseGrant 0 6 0, .termEnd 0 0 1, .drainEnd 0 1 2, .leaseHandover 160 0 0, .leasePromotion 160 0 0 0 0,
    .leasePromotion 0 0 0 640 0, .leasePromotion 0 0 0 0 3, .bankEvacuation 640 0 1, .evacuationCommit 0 8 1, .spillCommit 0 0 0, .bankReturn 0 0 16,
    .patrol 0 .clean, .hbmPatrol (2 ^ 39) .clean, .hbmPatrol 0 .parityRow, .busSpareTakeover 80 0, .busSpareTakeover 0 18] : List Instr).all
    (fun i => i.wf = false) = true := by decide +kernel
theorem test_wf_queues : ([.launch 128 0 false 0 0, .graph 128 0 false 0 0, .wait 128 0 false 0 0, .signal 128 0 false 0 0, .eventWordPoll 128 0,
    .headPromotion 128, .preload 128, .graphCompletion 128, .kernelNode 128 0, .copyNode 0 256, .fillNode 128 0, .eventWaitNode 0 256,
    .eventSignalNode 128 0, .conditionalNode 0 256, .loopNode 128 0, .loopPredicateRead 0 256] : List Instr).all (fun i => i.wf = false) = true := by
  decide +kernel
theorem test_wf_host : ([.bar2Write 17 0 [], .bar2Read 17 0 0, .registerWrite 17 0 8 0, .atomicopRequest 17 0 0, .doorbellTailWrite 17 0 0,
    .doorbellTailWrite 0 128 0, .semsig 17 0 0, .qstatHaltRestart 0 128 0, .contextEntryWrite 17 0 0 0, .contextEntryWrite 0 64 0 0,
    .contextEntryWrite 0 0 8 0, .damaskAttributeWrite 17 0 0 0, .damaskAttributeWrite 0 64 0 0, .damaskAttributeWrite 0 0 16 0,
    .collectiveCancel 64 0, .collectiveCompletion 64, .hostSectorRelease 64] : List Instr).all (fun i => i.wf = false) = true := by decide +kernel
def flit0 : Flit := ⟨0, 0, 0, 0, 0, 0, 0, 0, 0, 0, [], 0⟩
theorem test_wf_fabric : ([.creditAcknowledgement 36 flit0, .porlenWrite 36 flit0, .portRetirement 36, .readRequest 36 flit0, .readResponse 36 flit0,
    .reduceWrite 36 flit0, .semaphoreSignal 36 flit0, .collectiveControl 36 flit0, .billing 36 flit0, .creditReturn 36 0, .creditReturn 0 3,
    .billingSend 4096 0, .collectiveStart 160 0, .collectiveStart 0 4, .collectiveStart 0 4194304, .clockStepChange 5, .sectorBudgetChange 160 0,
    .thermalTrip 160 0] : List Instr).all (fun i => i.wf = false) = true := by decide +kernel

/-! # Decoding: words written out from the encodings of the manual -/

/-- A syllable as its class, opcode and fields place it, E in bit 31 (R78, R79). -/
noncomputable def syl (w : Nat) : Option Instr := decodeTableWord 32 w
theorem test_decode_thalt : decodeTableWord 32 0x58000000 = some .thalt := by decide +kernel
theorem test_decode_lanes : [0xB0640889, 0xA2430891, 0xA4873C05, 0xA6030880, 0xB3052042, 0xA5030860].map syl =
    [some (.vfma .s 4 1 2 1), some (.vaddsat .h 3 1 2 2), some (.vshli .w 7 7 5), some (.kand 3 1 2), some (.vfcvt .h .s false 5 4 0),
     some (.vfshi 3 1 1 32)] := by decide +kernel
theorem test_decode_scalar : [0x84052FFD, 0x84042001, 0x90A5FFFA, 0x92201803, 0x92201002].map syl =
    [some (.addi 5 5 0x7FD), some (.addi 4 4 1), some (.bnz 5 0xFFFA), some (.loopi 3 3), some (.loopi 2 2)] := by decide +kernel
theorem test_decode_memory : [0xC0030FC0, 0xC0851088, 0xC2072185].map syl =
    [some (.ldr 3 1 0x1F 0), some (.lds 5 2 2 1), some (.atm .max 7 4 6 0)] := by decide +kernel
theorem test_decode_twill : [0xD0021000, 0xD009401D, 0xD0A45014, 0xD06A4806, 0xD0A55016].map syl =
    [some (.tws false .z 2 2 0), some (.tws true .w 9 8 3), some (.vred .faddd 4 10 2), some (.twr .fmaxs 10 9), some (.vred .fmaxs 5 10 2)] := by
  decide +kernel
theorem test_decode_control : [0x95000000, 0x95000001].map syl = [some (.lease 0 0), some (.lease 0 1)] := by decide +kernel
theorem test_decode_engines : decodeSyl (fun _ => 0) 0x60008308 = .ok (.mxMm 0 0 1 false) ∧
    decodeSyl (fun _ => 2) 0x64008000 = .ok (.txLoad 1) ∧ decodeSyl (fun _ => 2) 0x64008100 = .ok (.txGo 1 false) := by decide +kernel
theorem test_decode_transform : [0x18100000, 0x18200100, 0x29080000, 0x40480000, 0x48500000].map (decodeTableWord 32) =
    [some (.agenWord 0 0 0), some (.agenImm 0 1 256), some (.movt 1 0 1), some (.twait 9), some (.tsig 10)] := by decide +kernel
/-- R78, R100: an opcode that no form uses is refused. -/
theorem test_decode_reserved : decodeTableWord 32 0xFFFFFFFF = none := by decide +kernel

/-! # Worked values of the manual -/

/-- R446: CRC-16 of the check string "123456789". R24: CRC-32C of the same. -/
theorem test_crc16 : crc16 [0x31, 0x32, 0x33, 0x34, 0x35, 0x36, 0x37, 0x38, 0x39] = 0x29B1 := by decide +kernel
theorem test_crc32c : crc32c [0x31, 0x32, 0x33, 0x34, 0x35, 0x36, 0x37, 0x38, 0x39] = 0xE3069283 := by decide +kernel

/-! # Hypotheses that are met -/

/-- An option that gives something with a property. -/
theorem gives {α : Type} {o : Option α} (p : α → Bool) (h : o.any p = true) : ∃ x, o = some x ∧ p x = true := by
  cases o with
  | none => simp at h
  | some x => exact ⟨x, rfl, by simpa using h⟩
/-- The same of a result. -/
def okWith {ε α : Type} (o : Except ε α) (p : α → Bool) : Bool :=
  match o with
  | .ok x => p x
  | .error _ => false
theorem givesOk {ε α : Type} {o : Except ε α} (p : α → Bool) (h : okWith o p = true) : ∃ x, o = .ok x ∧ p x = true := by
  cases o with
  | error e => simp [okWith] at h
  | ok x => exact ⟨x, rfl, h⟩

/-- A machine at work: context 0 reaches all of HBM, and its page table maps the first GiB onto itself, A and D set; launch 1
runs on weave 0 of sector 0. -/
def context0 : Context := { Context.reset with words := [0x8000000000000000, 0x10000, 0x100000, 0x200000, 0x300000, 0x100000, 16, 0] }
def host0 : HostLink := { HostLink.reset with access := [(0, 0xF000000000000000), (1, 0x7FFFFF0000)] }
def pages0 : List Host.Cell := [(0x10000, 1), (0x10002, 2), (0x20000, 63)]
/-- One sector, one weave, both halves, an image of one syllable. -/
def record0 : List Word := (List.replicate 64 0).set 0 0x8000000000001800 |>.set 3 0x111 |>.set 29 0x4
def launch1 : Launch := { newLaunch 0 0 0 0 0 record0 none 0 0 with
  sectors := [0], weaves := [0], blocks := [0], regions := List.replicate 16 (0, 0, 0), started := some 0, cmd := 3 }
def weave0 : Weave := { Weave.reset with launch := some 1, running := true, secbase := 0x400000, pairbase := 0x800000 }
def core0 : Core := { State.reset.core with
  now := 1000, nextId := 100, weaves := [(0, weave0)], launches := [(1, launch1)], mem := pages0, contexts := [(0, context0)], host := host0,
  power := { Power.reset with boot := 4, cpOn := true } }
/-- A bundle of weave 0 is under way. -/
def under (c : Core) : State := ⟨c, some c⟩
def state0 : State := under core0
def withWeave (f : Weave → Weave) : State := under { core0 with weaves := [(0, f weave0)] }

theorem underWay (c : Core) : UnderWay (under c) := ⟨c, rfl⟩
theorem quiet (c : Core) (h : c.poison = [] ∧ c.flips = []) (g : ∀ p ∈ c.weaves, p.2.injecting = false) : Quiet (under c) := ⟨h.1, h.2, g⟩

theorem hyp_FiniteArithmeticIsExact : valQ true 3 (-1) = -3 / 2 := by norm_num [valQ]
theorem hyp_RepresentableValuesRoundToThemselves : fp8e4 ∈ scalarFormats ∧ 0x7E < 2 ^ fp8e4.w ∧
    decodeFp fp8e4 0x7E = .num false 14 5 false := by
  decide +kernel
theorem hyp_OverflowAndInfinities : fp8e4 ∈ scalarFormats ∧ 4 ∈ ([0, 1, 2, 3, 4] : List Nat) := by simp [scalarFormats]

/-- LaneLoads, LaneStores: in lane 127 the last row of the LOCAL window, of the stores' half A, of the paired window. -/
def laneCore : Core := { core0 with
  weaves := [(0, { weave0 with locbase := 0x10000, v := [(vKey 1 127, 0x10000), (vKey 2 127, 0xFFF8), (vKey 3 127, 0x1DFFF8)] })]
  launches := [(1, { launch1 with pairs := true, sectors := [0, 80] })] }
/-- Only lane 127 is active under k1. -/
def oneLane (c : Core) : Core := { c with weaves := c.weaves.map fun p => (p.1, { p.2 with k := [(vKey 1 127, 1)] }) }
def lanes : State := under (oneLane laneCore)
theorem spaced {s : State} (h : s.wv.lastSector = none) (g : s.wv.lastPair = none) (a b : Bool) : Spaced s a b :=
  ⟨fun _ t e => by simp [h] at e, fun _ t e => by simp [g] at e⟩
/-- A pair that keeps two buses or more carries its loads in 12 cycles. -/
theorem crossed {s : State} (h : s.rd.pairDegraded s.core.cur = false) (k : KReg) (flat : Nat → Nat) : Crossed s k flat :=
  fun e => by simp [h] at e
theorem hyp_LaneLoads : UnderWay lanes ∧ Quiet lanes ∧ Spaced lanes true true ∧
    ReachRows lanes (some .loc) 1 (fun l => (lanes.vreg 2 l).toNat) (fun _ => true) (fun l => lanes.rd.localFlat 0 l 0xFFF8 lanes.wv.place) ∧
    ReachRows lanes (some .sec) 1 (fun l => (lanes.vreg 3 l).toNat) (fun _ => false) (fun _ => storeFlat 0 0x1DFFF8) ∧
    ReachRows lanes (some .pair) 1 (fun l => (lanes.vreg 3 l).toNat) (fun _ => false) (fun _ => storeFlat 80 0x1DFFF8) ∧
    ReachRows lanes none 1 (fun l => (lanes.vreg 1 l).toNat) (fun _ => true) (fun l => lanes.rd.localFlat 0 l 0 lanes.wv.place) ∧
    NoBlackout lanes 1 (fun _ => true) ∧ lanes.active 1 = [127] ∧
    (∀ l ∈ lanes.active 1, lanes.rd.rowArrived (storeFlat 80 0x1DFFF8) = true ∧
      lanes.rd.rowArrived (lanes.rd.localFlat 0 l 0xFFF8 lanes.wv.place) = true) ∧
    lanes.rd.pairDegraded lanes.core.cur = false := by
  refine ⟨underWay _, quiet _ ⟨rfl, rfl⟩ (by decide +kernel), spaced rfl rfl _ _, ?_⟩
  unfold ReachRows NoBlackout
  decide +kernel
theorem hyp_LaneLoads_crossed : Crossed lanes 1 fun _ => storeFlat 80 0x1DFFF8 := crossed (by decide +kernel) _ _
/-- R350: in a degraded pair a load of the paired store goes on once its rows have come over. -/
def degraded : State := under { lanes.core with
  busMaps := [(0, [0x1F, 1])], weaves := lanes.core.weaves.map fun p => (p.1, { p.2 with busWait := some 1000 }) }
theorem hyp_LaneLoads_degraded : degraded.rd.pairDegraded degraded.core.cur = true ∧ Crossed degraded 1 fun _ => storeFlat 80 0x1DFFF8 :=
  ⟨by decide +kernel, fun _ _ => ⟨1000, by decide +kernel, by decide +kernel⟩⟩
theorem hyp_LaneStores : (bufferRow (me lanes).buf (storeFlat 0 0x1DFFF8) 0 (BitVec.allOnes 64)).length ≤ Config.bufferRows := by decide +kernel
/-- LocalStoresReachMemory: two stores of one row, the later one counts. -/
def skewCore : Core := { core0 with weaves := [(0, { weave0 with skews := [⟨7, [⟨16, 8, 5, BitVec.allOnes 64⟩, ⟨17, 8, 6, BitVec.allOnes 64⟩]⟩] })] }
theorem hyp_LocalStoresReachMemory : Memory.wf skewCore.mem = true ∧
    ((skewCore.weave 0).skews.find? fun x => x.id == 7) = some ⟨7, [⟨16, 8, 5, BitVec.allOnes 64⟩, ⟨17, 8, 6, BitVec.allOnes 64⟩]⟩ ∧
    skewCore.flips = [] ∧ (17 / 16 = 1 ∧ ∀ q ∈ ([] : List RowWrite), q.lane / 16 = 1 → rowAddr q.addr ≠ rowAddr 8) := by
  decide +kernel
theorem test_local_store : (match Machine.exec (.wavefrontSkewExecution 0 7 1) (under skewCore) with
    | .next t => t.core.row 8 == 6
    | _ => false) = true := by decide +kernel
/-- TypedLaneAccesses: format 2 in memory, format 1 in the lane, at the first row of the SECTOR window's half A. -/
def typedState : State := under (oneLane { laneCore with weaves := [(0, { weave0 with
  v := [(vKey 3 127, 0x400000)], fmt := Weave.reset.fmt.set 0 0x80010200 })] })
theorem hyp_TypedLaneAccesses : UnderWay typedState ∧ Quiet typedState ∧ Spaced typedState true true ∧
    typedOk (typedState.wv.descriptor 0) = true ∧
    ReachRows typedState none 1 (fun l => (typedState.vreg 3 l + (0 : BitVec 5).signExtend 64 * 8).toNat) (fun _ => false) (fun _ => storeFlat 0 0) ∧
    NoBlackout typedState 1 (fun _ => false) ∧ (∀ l ∈ typedState.active 1, typedState.rd.rowArrived (storeFlat 0 0) = true) ∧
    (bufferRow (me typedState).buf (storeFlat 0 0) 0 (BitVec.allOnes 64)).length ≤ Config.bufferRows ∧
    typedState.rd.pairDegraded typedState.core.cur = false := by
  refine ⟨underWay _, quiet _ ⟨rfl, rfl⟩ (by decide +kernel), spaced rfl rfl _ _, ?_⟩
  unfold ReachRows NoBlackout
  decide +kernel
theorem hyp_WindowForms : (lanes.rd.pairHeld lanes.core.cur = true) ∧ lanes.wv.winBase .loc ≤ (lanes.vreg 1 127).toNat ∧
    (lanes.vreg 1 127).toNat < lanes.wv.winBase .loc + 0x10000 ∧ ¬ lanes.wv.winBase .loc ≤ (lanes.vreg 2 127).toNat := by decide +kernel
theorem hyp_SectorAtomicsEnter : UnderWay lanes ∧ Quiet lanes ∧ Spaced lanes true false ∧
    ReachRows lanes (some .sec) 1 (fun l => (lanes.vreg 3 l).toNat) (fun _ => false) (fun _ => storeFlat 0 0x1DFFF8) ∧
    (∀ l ∈ lanes.active 1, lanes.rd.rowArrived (storeFlat 0 0x1DFFF8) = true) ∧ lanes.active 1 ≠ [] := by
  refine ⟨underWay _, quiet _ ⟨rfl, rfl⟩ (by decide +kernel), spaced rfl rfl _ _, ?_⟩
  unfold ReachRows
  decide +kernel
/-- One add of 5 to a row that holds 0. -/
def atomic0 : AtomicSet := ⟨9, 990, none, [⟨17, storeFlat 0 8, 0, 5, 0⟩]⟩
def atomicState : State := under { core0 with weaves := [(0, { weave0 with atomics := [atomic0] })] }
theorem hyp_SectorAtomicsApply : Memory.wf atomicState.core.mem = true ∧ atomicState.core.flips = [] ∧
    ((atomicState.core.weave 0).atomics.find? fun x => x.id == 9) = some atomic0 ∧
    (atomic0.ops.filter fun x => x.lane / 16 == 1) = [⟨17, storeFlat 0 8, 0, 5, 0⟩] ∧
    Unframed atomicState.core 0 none atomic0.ops (storeFlat 0 8) := by
  unfold Unframed
  decide +kernel
theorem test_atomic_add : (match Machine.exec (.laneAtomicApply 0 9 1) atomicState with
    | .next t => t.core.row (storeFlat 0 8) == 5
    | _ => false) = true := by decide +kernel

/-! ## Twill and Gauze -/

/-- Lane n holds n in v1, minus 1 in every odd lane of v2. -/
def twillState : State := withWeave fun x => { x with v := ((List.range 128).map fun l => (vKey 1 l, BitVec.ofNat 64 l)) }
/-- R204: a shift towards the higher cells takes the row of the cell below. -/
theorem test_tws : (match Machine.exec (.tws false .z 2 1 0) twillState with
    | .next t => (me t).vval 1001 2 16 == 0 && (me t).vval 1001 2 127 == 111
    | _ => false) = true := by decide +kernel
def gauzeMsg : GzMsg := ⟨5, 0, 0, 0, 2, [(0, 77)], [], none, 980⟩
def gauzeState : State := withWeave fun x => { x with gauze := Weave.reset.gauze.set 2 [gauzeMsg], s := Weave.reset.s.set 4 0 }
theorem hyp_GauzeSend : gauzeState.rd.launchOf 0 = some launch1 ∧ bitAt (gauzeState.sreg 4).toNat 63 = false ∧
    launch1.named (gauzeState.sreg 4).toNat = some 0 ∧ gauzeState.wv.gzSend.length < 2 := by decide +kernel
theorem hyp_GauzeReceive : gauzeState.rd.gauzeSource 0 (gauzeState.sreg 4).toNat = true ∧
    (let matching := (gauzeState.wv.gauze.getD 2 []).filter fun m => bitAt (gauzeState.sreg 4).toNat 63 || m.rank == (gauzeState.sreg 4).toNat
     gauzeMsg ∈ matching ∧ ∀ n ∈ matching, gauzeMsg.doneAt < n.doneAt ∨ gauzeMsg.doneAt = n.doneAt ∧ gauzeMsg.rank < n.rank ∨ n = gauzeMsg) := by
  decide +kernel
def gauzeNet (n : Nat) : Core :=
  { core0 with gzNet := [gauzeMsg], weaves := [(0, { weave0 with gauze := Weave.reset.gauze.set 2 (List.replicate n gauzeMsg) })] }
theorem hyp_GauzeArrival : ((gauzeNet 3).gzNet.find? fun x => x.id == 5) = some gauzeMsg ∧
    gauzeMsg.chan < ((gauzeNet 3).weave 0).gauze.length ∧ (((gauzeNet 3).weave 0).gauze.getD 2 []).length < 4 ∧
    gauzeMsg.chan < ((gauzeNet 4).weave 0).gauze.length ∧ 4 ≤ (((gauzeNet 4).weave 0).gauze.getD 2 []).length := by decide +kernel
/-- R214: a receive takes the row that was sent, at issue + 2. -/
theorem test_gzr : (match Machine.exec (.gzr 2 6 4 0) gauzeState with
    | .next t => (me t).vval 1002 6 0 == 77 && ((me t).gauze.getD 2 []).isEmpty
    | _ => false) = true := by decide +kernel

/-! ## Control flow -/

/-- The bundle under way starts at a PC and holds one syllable. -/
def atPc (pc : Nat) (f : Weave → Weave) : State :=
  let c := { core0 with weaves := [(0, f weave0)], iss := { Iss.reset with pc := pc } }
  ⟨c, some c⟩
/-- Branches: a taken branch to the first and to the last index of the bank, one outside it on either side, one not taken. -/
theorem hyp_Branches : (0 : Int) ≤ ((atPc 5 id).core.iss.pc : Int) + signedOf 16 0xFFFB ∧ ((atPc 5 id).core.iss.pc : Int) + signedOf 16 0xFFFA < 0 ∧
    ((atPc 16382 id).core.iss.pc : Int) + signedOf 11 1 ≤ 16383 ∧ 16383 < ((atPc 16382 id).core.iss.pc : Int) + signedOf 11 2 ∧
    decide ((atPc 5 id).sreg 0 = 0) = true ∧ decide ((atPc 5 id).sreg 0 ≠ 0) = false := by decide +kernel
theorem test_bz : (match Machine.exec (.bz 0 0xFFFB) (atPc 5 id) with
    | .next t => t.core.iss.target == some 0
    | _ => false) = true := by decide +kernel
def level0 : LoopLevel := ⟨4, 5, 2, 0⟩
def deep (n : Nat) : State := atPc 5 fun x => { x with loops := List.replicate n level0, s := Weave.reset.s.set 3 2 }
/-- LoopsOpen: the shortest body and the end of the bank at depth 5; an empty body; a seventh level. -/
theorem hyp_LoopsOpen : (deep 5).core.iss.pc + (deep 5).core.iss.len ≤ (deep 5).core.iss.pc + 1 ∧
    (deep 5).core.iss.pc + 16378 ≤ 16383 ∧ (deep 5).wv.loops.length < 6 ∧ 0 < ((deep 5).sreg 3).toNat % 2 ^ 32 ∧
    ((deep 5).sreg 0).toNat % 2 ^ 32 = 0 ∧ (deep 5).core.iss.pc + 0 < (deep 5).core.iss.pc + (deep 5).core.iss.len ∧
    16383 < (deep 5).core.iss.pc + 16379 ∧ 6 ≤ (deep 6).wv.loops.length := by decide +kernel
theorem hyp_LoopsStep : level0.stop.toNat ≠ 4 ∧ level0.stop.toNat = 5 ∧ 1 < level0.remaining.toNat ∧ ({ level0 with remaining := 1 }).remaining.toNat ≤ 1 := by
  decide +kernel
/-- R116: the last iteration of an inner level and the first of an outer one that end at the same bundle. -/
theorem test_loops : stepLoopStack 5 [level0, { level0 with remaining := 1, index := 1 }] = ([{ level0 with remaining := 1, index := 1 }], some 4) := by
  decide +kernel
theorem hyp_LoopsBreak : (deep 1).wv.loops = [] ++ [level0] ∧ (deep 1).sreg 3 ≠ 0 ∧ (deep 1).sreg 0 = 0 ∧ (deep 0).wv.loops = [] := by decide +kernel

/-! ## Semaphores, phases, barriers -/

/-- Semaphore 7 of sector 0 as given; s3 holds an amount. -/
def semState (x : Sem) (amount : Word) (f : Weave → Weave) : State := under { core0 with
  weaves := [(0, f { weave0 with s := Weave.reset.s.set 3 amount })], sectors := [(0, { Sector.reset with sems := [(7, x)] })] }
def served7 : Served := ⟨7, 2, [], 0, [], false, false⟩
/-- The bundle is tested after the services of its cycle. -/
def tested (s : State) : State := under { s.core with iss := { s.core.iss with late := true } }
theorem hyp_SemaphoreWaits :
    ((semState ⟨0, false, false, [], []⟩ 2 fun x => { x with served := some served7 }).wv.served.isSome = true) ∧
    (let s := semState ⟨1, false, false, [], []⟩ 0x7FFFFFFF id
     s.wv.served = none ∧ (s.sreg 3).toNat ≤ 2 ^ 31 - 1 ∧ s.core.iss.late = false ∧ s.sreg 0 = 0 ∧
       s.sreg 3 ≠ 0 ∧ s.core.weaveWaits s.sec 7 s.core.cur = false ∧ s.base = some s.core ∧ s.core.iss.fpx = 0) ∧
    (let s := semState ⟨1, false, false, [], [.weave 0 2 990]⟩ 3 id
     s.core.weaveWaits s.sec 7 s.core.cur = true ∧ .weave 0 2 990 ∈ (semOf s 7).waiters) ∧
    (let s := tested (semState ⟨1, false, false, [], []⟩ 0x7FFFFFFF id)
     s.wv.served = none ∧ (s.sreg 3).toNat ≤ 2 ^ 31 - 1 ∧ s.core.iss.late = true ∧ (s.rd.sem s.sec 7).ab = false ∧ (s.rd.sem s.sec 7).ov = false ∧
       s.sreg 0 = 0 ∧ s.sreg 3 ≠ 0 ∧ s.base = some s.core ∧ s.core.iss.fpx = 0) ∧
    (let s := semState ⟨1, false, false, [], []⟩ 0x80000000 id
     s.wv.served = none ∧ 2 ^ 31 - 1 < (s.sreg 3).toNat) ∧
    (let s := tested (semState ⟨1, true, true, [], []⟩ 2 id)
     s.wv.served = none ∧ (s.sreg 3).toNat ≤ 2 ^ 31 - 1 ∧ s.core.iss.late = true ∧ (s.rd.sem s.sec 7).ab = true) ∧
    (let s := tested (semState ⟨1, false, true, [], []⟩ 2 id)
     s.wv.served = none ∧ s.core.iss.late = true ∧ (s.rd.sem s.sec 7).ab = false ∧ (s.rd.sem s.sec 7).ov = true) := by decide +kernel
theorem hyp_SemaphoreService :
    (let s := semState ⟨2, false, false, [], [.weave 0 2 990]⟩ 2 id
     let x := s.core.sem 0 7
     x.ab = false ∧ x.ov = false ∧ x.waiters = [.weave 0 2 990] ∧ (x.waiters.filter (isWeave 0)).length = 1 ∧ servedBy x.count x.waiters = (1, 0)) ∧
    (let x := (semState ⟨1, true, false, [], [.weave 0 2 990]⟩ 2 id).core.sem 0 7
     x.ab = true ∧ x.waiters.any (isWeave 0) = true) ∧
    (servedBy 1 [.weave 0 2 990]) = (0, 1) := by decide +kernel
theorem hyp_SemaphoreUpdates :
    (let s := semState ⟨1, false, false, [0], []⟩ 0x7FFFFFFE id
     (s.rd.sem s.sec 7).count + (s.sreg 3).toNat ≤ 2 ^ 31 - 1 ∧ s.sreg 3 ≠ 0 ∧ (0 : Nat) ∈ (semOf s 7).arms) ∧
    (let s := semState ⟨1, false, false, [0], []⟩ 0x7FFFFFFF id
     2 ^ 31 - 1 < (s.rd.sem s.sec 7).count + (s.sreg 3).toNat ∧ (s.sreg 3).toNat ≤ 2 ^ 31 - 1) ∧
    2 ^ 31 - 1 < ((semState ⟨1, false, false, [], []⟩ 0x80000000 id).sreg 3).toNat := by decide +kernel
theorem hyp_SemaphoreRead : (5 : Reg) ≠ 0 := by decide
theorem hyp_SemaphoreSignals : 0 < (1 : Nat) := by decide
/-- R125: a sum above 2^31 − 1 leaves COUNT there, with OV. -/
theorem test_signal_overflow : (((semState ⟨0x7FFFFFFF, false, false, [], []⟩ 0 id).core.signalSem 0 7 1).sem 0 7) = ⟨0x7FFFFFFF, false, true, [], []⟩ := by
  decide +kernel

theorem hyp_PhaseAndRealign :
    (state0.wv.inue = false ∧ undeclared (state0.rd.regions 0) 0 = false ∧ state0.wv.timed = false) ∧
    (let s := under { core0 with launches := [(1, { launch1 with regions := [] })] }
     s.wv.inue = false ∧ undeclared (s.rd.regions 0) 1 = true) ∧
    (withWeave fun x => { x with status := 4 }).wv.inue = true ∧
    (let s := withWeave fun x => { x with mode := 1, texp := 0 }
     let c := { s.core with now := 4096 * 3 }
     let late : State := ⟨c, some c⟩
     s.wv.inue = false ∧ s.wv.timed = true ∧ s.now < (s.wv.texp + 1) * Config.tickCycles ∧ late.wv.timed = true ∧
       (late.wv.texp + 1) * Config.tickCycles ≤ late.now ∧ late.core.power.stretched ≠ some (late.now / Config.tickCycles) ∧
       ({ c with power := { c.power with stretched := some 3 } }).power.stretched = some (late.now / Config.tickCycles)) := by decide +kernel
/-- BoundariesReached: one participant, who arrives last; a second participant, who has not arrived. -/
theorem hyp_BoundariesReached : (core0.weave 0).launch = some 1 ∧ core0.launch? 1 = some launch1 ∧ (1 : Nat) ≠ 0 ∧
    (∀ v ∈ launch1.participants 1 (unitOf 1 0), v ∈ insertNat [] 0) ∧
    (∃ v ∈ ({ launch1 with weaves := [0, 1] }).participants 1 (unitOf 1 0), v ∉ insertNat [] 0) :=
  ⟨by decide +kernel, by decide +kernel, by decide, by decide +kernel, 1, by decide +kernel, by decide⟩
theorem hyp_BoundarySteps : (3 : Nat) < 16 ∧ 3 < (core0.weave 0).place.length ∧
    bitAt (BitVec.toNat ({ weave0 with chkmask := 2 }).chkmask) (vKey 1 5 / 128) = true := by decide +kernel

/-- Barrier 4 at scope 1, of which the instance is x. -/
def barrierLaunch (x : BarInst) : Launch := { launch1 with weaves := [0, 1, 2], bars := [(4, ⟨1, [(barKey 1 0, x)]⟩)] }
def barrierState (x : BarInst) (n : Word) : State :=
  under { core0 with launches := [(1, barrierLaunch x)], weaves := [(0, { weave0 with s := Weave.reset.s.set 3 n })] }
def barrierBad (x : BarInst) : Prop := x.e = 0 ∨ x.dropped.contains 0 = true ∨ x.arrived.contains 0 = true
theorem hyp_Barriers :
    (let x : BarInst := { BarInst.reset with e := 3, a := 1, arrived := [1] }
     let s := barrierState x 3
     s.wv.launch = some 1 ∧ s.rd.launchOf 0 = some (barrierLaunch x) ∧ s.core.launch? 1 = some (barrierLaunch x) ∧ s.wv.inue = false ∧
       (barrierLaunch x).inst 4 0 = x ∧ ¬(x.e = 0 ∨ x.dropped.contains 0 = true ∨ x.arrived.contains 0 = true) ∧ x.a + 1 ≠ x.e ∧ x.a ≠ x.e - 1) ∧
    (let x : BarInst := { BarInst.reset with e := 2, a := 1, arrived := [1] }
     (barrierLaunch x).inst 4 0 = x ∧ ¬(x.e = 0 ∨ x.dropped.contains 0 = true ∨ x.arrived.contains 0 = true) ∧ x.a + 1 = x.e) ∧
    (let x : BarInst := { BarInst.reset with e := 2, a := 0 }
     let s := barrierState x 3
     (mget ((barrierLaunch x).bar 4).insts (barKey 1 (unitOf 1 0)) BarInst.reset).a = 0 ∧ 0 < (s.sreg 3).toNat ∧
       (s.sreg 3).toNat ≤ ((barrierLaunch x).participants 1 (unitOf 1 0)).length ∧ (s.sreg 0).toNat = 0) ∧
    ((barrierLaunch { BarInst.reset with e := 2, a := 1, arrived := [0] }).inst 4 0).arrived.contains 0 = true ∧
    ((barrierLaunch BarInst.reset).inst 4 0).e = 0 := by decide +kernel
def boundaryCore (bar : Option Nat) : Core := { core0 with
  launches := [(1, { launch1 with bounds := [⟨bar, 1, 0, [0]⟩] })], weaves := [(0, { weave0 with launch := none, wait := .boundary false 1 3 none })] }
theorem hyp_BoundaryCompletion : ∀ bar ∈ [none, some 4],
    ((boundaryCore bar).launch? 1).map (·.bounds) = some [⟨bar, 1, 0, [0]⟩] ∧
    ((boundaryCore bar).weave 0).wait = .boundary false 1 3 none ∧
    (∀ p ∈ (boundaryCore bar).weaves, p.2.gbuf = []) ∧ ((boundaryCore bar).weave 0).bufBad = [] ∧ Weave.reset.gbuf = [] ∧
    ({ weave0 with bufBad := [(0, storeFlat 0 8)] }).bufBad ≠ [] ∧ (core0.launch? 1).bind (fun l => l.bounds.find? fun _ => true) = none := by decide +kernel

/-! ## CSRs and the system -/

/-- CsrReadsAndWrites: SYS registers and bits at user level, at system level, a user field, the two CSRs of one field each. -/
theorem hyp_CsrReadsAndWrites : (state0.wv.priv = false ∧ systemCsr 0x009 ∧ ¬ systemCsr 0x002 ∧ ¬ systemCsr 0x010) ∧
    (let old := state0.rd.csr 0 0
     (old ^^^ 2) &&& (writable 0).2 ≠ 0 ∧ (old ^^^ 1) &&& (writable 0).2 = 0) ∧
    (withWeave fun x => { x with status := 1 }).wv.priv = true ∧ (writable 0x002).1 ||| (writable 0x002).2 ≠ 0 ∧ state0.core.iss.flags < 32 ∧
    (me state0).ports[2]? = some Port.reset := by
  refine ⟨⟨by decide +kernel, ?_, ?_, ?_⟩, by decide +kernel⟩ <;> simp [systemCsr]
/-- R147, R188: `csrw` of FCSR takes the mode in the same bundle's successor; mode 5 keeps the old one. -/
theorem test_csrw : (match Machine.exec (.csrw 0x002 3) (withWeave fun x => { x with fcsr := 2, s := Weave.reset.s.set 3 0x15 }) with
    | .next t => (me t).fcsr == 0x12
    | _ => false) = true := by decide +kernel
theorem hyp_SmallInstructions :
    (state0.wv.priv = false ∧ state0.wv.timed = false ∧ (∀ p ∈ state0.wv.events, state0.now ≤ p.2) ∧ state0.wv.throttle = none ∧
      state0.wv.preempt = false ∧ (0 : Nat) < (me state0).pendDiv.length) ∧
    (let s := withWeave fun x => { x with status := 1, mode := 1 }
     s.wv.priv = true ∧ s.wv.timed = true ∧ ∀ p ∈ s.core.launches, p.2.ctx = s.core.ctxOf 0) ∧
    (∃ p ∈ (withWeave fun x => { x with events := [(7, 999)] }).wv.events, p.2 < state0.now) ∧
    (withWeave fun x => { x with throttle := some 999 }).wv.throttle.isSome = true := by
  refine ⟨by decide +kernel, by decide +kernel, ⟨(7, 999), by decide +kernel⟩, rfl⟩

def page0 : PageTr := ⟨0, 2 ^ 30, 0, 0, 0, true, true, true⟩
def handle0 : Handle := { Handle.reset with base := 0x40000, len := 0x1000, r := true, w := true, valid := true, pages := [page0] }
def withHandle (h : Handle) : State :=
  withWeave fun x => { x with handles := x.handles.set 2 h, s := (Weave.reset.s.set 3 0x40000).set 4 0x1000 }
/-- Handles: a cached range and one that is not, a walk under way, a walk that succeeds and one that fails, a valid handle, one that is not. -/
theorem hyp_Handles :
    (let s := withHandle handle0
     let x := s.wv.handles.getD 2 Handle.reset
     ¬ (x.walk.isSome = true ∨ ∃ p ∈ x.pend, p.1 ≠ 0) ∧ cached x (s.sreg 3) (s.sreg 4) true true ∧ ¬ cached x (s.sreg 3) 0 true true ∧
       (2 : HReg).toNat < (me s).handles.length ∧ x.valid = true) ∧
    (let x := (withHandle { handle0 with walk := some ⟨0x40000, 0x1000, true, true, 1⟩ }).wv.handles.getD 2 Handle.reset
     x.walk.isSome = true) ∧
    ((withHandle { handle0 with valid := false }).wv.handles.getD 2 Handle.reset).valid = false := by
  refine ⟨⟨by decide +kernel, ?_, ?_, by decide +kernel⟩, by decide +kernel, by decide +kernel⟩ <;> unfold cached <;> decide +kernel
theorem hyp_Handles_walk : (match (core0.walkHandle (core0.ctxOf 0) 0x40000 0x1000 true true).1 with
      | .ok ps => ps == [page0] | .error _ => false) = true ∧
    ((core0.setW 0 { weave0 with handles := weave0.handles.set 2 { handle0 with walk := some ⟨0x40000, 0x1000, true, true, 1⟩ } }).weave 0).handles[2]?.bind
      (·.walk) = some ⟨0x40000, 0x1000, true, true, 1⟩ ∧
    (match (core0.walkHandle (core0.ctxOf 0) 0x40000000 0x1000 true false).1 with
      | .error f => f == ⟨1, 1, 0x40000000⟩ | .ok _ => false) = true :=
  ⟨by decide +kernel, by decide +kernel, by decide +kernel⟩

/-- SequencerMemory: the first and the last row of a handle, one byte past it; a row buffered and one not. -/
def seqState (h : Handle) (f : Weave → Weave) : State :=
  withWeave fun x => f { x with handles := x.handles.set 2 h, s := (Weave.reset.s.set 3 0xFFF).set 4 0x1000 }
theorem hyp_SequencerMemory :
    (let s := seqState handle0 id
     let x := s.wv.handles.getD 2 Handle.reset
     s.wv.timed = false ∧ (x.valid = true ∧ (s.sreg 3).toNat < x.len.toNat) ∧ x.r = true ∧ x.w = true ∧ ¬ (s.sreg 4).toNat < x.len.toNat) ∧
    (seqState handle0 fun x => { x with mode := 1 }).wv.timed = true ∧
    (let s := seqState handle0 fun x => { x with ldh := .returned }
     gbufFind s.wv.gbuf (page0.loc 0x40FF8) = none ∧ s.wv.ldh = .returned ∧ s.rd.peerReads = [] ∧ s.rd.host.modid = s.core.host.modid ∧ s.wv.gbuf.length < Config.bufferGlobals) ∧
    gbufFind [⟨0, 0x40FF8, 0, 0x40FF8, 5⟩] (page0.loc 0x40FF8) = some ⟨0, 0x40FF8, 0, 0x40FF8, 5⟩ := by decide +kernel
theorem hyp_SequencerMemory_use :
    (∃ x, ((seqState handle0 id).rd.useHandle 0 2 0x40FF8 8).1 = .ok x ∧ (findPage x.pages 0x40FF8 == some page0) = true) ∧
    (findPage (handle0.pages.filter (·.permits handle0.r handle0.w)) 0x40FF8).isSome = true ∧
    -- a handle without cached pages: its row is walked for at use
    (∃ x, ((seqState { handle0 with pages := [] } id).rd.useHandle 0 2 0x40FF8 8).1 = .ok x ∧ (findPage x.pages 0x40FF8 == some page0) = true) ∧
    (match core0.globalRead (core0.ctxOf 0) (page0.loc 0x40FF8) 0x40FF8 8 (fun c => c.viewByte 0) (some 0) with
      | (.bytes bs, _) => bytesNat bs == 0
      | _ => false) = true :=
  ⟨givesOk (fun x : Handle => findPage x.pages 0x40FF8 == some page0) (by decide +kernel), by decide +kernel,
    givesOk (fun x : Handle => findPage x.pages 0x40FF8 == some page0) (by decide +kernel), by decide +kernel⟩
theorem hyp_SequencerMemory_windows :
    (state0.rd.generic 0 0x5DFFF8 = some (.sec, 0x1DFFF8) ∧ state0.rd.reach 0 0 .sec 0x1DFFF8 = .row false (storeFlat 0 0x1DFFF8) ∧ Quiet state0) ∧
    (state0.rd.generic 0 0x7C0000 = some (.sec, 0x3C0000) ∧ state0.rd.reach 0 0 .sec 0x3C0000 = .priv) ∧
    (state0.rd.generic 0 0x800000 = none ∧ (state0.rd.generic 0 0xFFF8).map (·.1) = some .loc) ∧
    (state0.rd.halfHeld 0 0x1DFFF8 = true ∧ ¬ (0x3C0000 : Nat) < 0x3C0000 ∧ state0.rd.pairDegraded 0 = false) ∧
    (bufferRow (me state0).buf (storeFlat 0 0x1DFFF8) 0 (BitVec.allOnes 64)).length ≤ Config.bufferRows := by
  refine ⟨⟨by decide +kernel, by decide +kernel, quiet _ ⟨rfl, rfl⟩ (by decide +kernel)⟩, by decide +kernel⟩

/-- Words in memory. -/
def putWords (m : List Host.Cell) (a : Nat) (ws : List Word) : List Host.Cell :=
  ((ws.zip (List.range ws.length)).foldl fun m (x, i) => memWrite m (a + 8 * i) 8 x.toNat) m
/-- Record 5 is in place; queue 0 is enabled for context 0 with a ring of 16. -/
def queue0 : Queue := { Queue.reset with qcfg := 0x80000000, qbase := 0x280000 }
def recCore : Core := { core0 with mem := putWords pages0 (0x100000 + 512 * 5) record0, queues := [(0, queue0)] }
def recState (q : Queue) : State :=
  under { recCore with queues := [(0, q)], weaves := [(0, { weave0 with s := (Weave.reset.s.set 3 5).set 4 4096 })] }
theorem hyp_RecordForms :
    (let s := recState queue0
     4095 < (s.sreg 4).toNat ∧ (s.sreg 3).toNat ≤ 4095 ∧ s.rd.ctxOf 0 = 0 ∧ s.rd.armedRec 0 5 = false ∧
       (2 : BitVec 6).toNat ≠ 0 ∧ (2 : BitVec 6).toNat ≠ 29 ∧ ((0x4 : Word).getLsbD 2 = true) ∧ (0x4 : Word).getLsbD 3 = false) ∧
    (recState { queue0 with armed := [(5, 0)], tail := 1 }).rd.armedRec 0 5 = true := by decide +kernel
theorem hyp_RecordForms_reads :
    ((recState queue0).rd.recordWord 0 5 29).1 = some (some 4) ∧
    (let p := ((recState queue0).core.recordWord 0 5 29).2.writeWord 0 ((recState queue0).rd.fieldVa 0 5 2) 9
     p.1 = true ∧ p.2.queues = [(0, queue0)]) ∧
    (let p := (recState queue0).core.recordWord 0 5 0
     p.1.any (fun x => x.any fun y => y.toNat % 128 == 0) = true ∧ (p.2.queue 0).fill < (p.2.queue 0).ringSize) ∧
    (let p := (recState { queue0 with tail := 16 }).core.recordWord 0 5 0
     (p.1.any (·.isSome)) = true ∧ (p.2.queue 0).ringSize ≤ (p.2.queue 0).fill) := by decide +kernel
/-- Record 5 behind a page whose leaf is the given one; port 3 leads to module 5. -/
def recordsAt (leaf : Word) : Core := { recCore with
  mem := putWords recCore.mem 0x20000 [leaf], host := { host0 with routes := [(5, 8)] }, links := [(3, { Link.reset with up := true, en := true })] }
/-- A record that no leaf maps, one of a peer module, which has still to answer, and one on a page that cannot be written. -/
theorem hyp_RecordForms_fails :
    (((recordsAt 0).recordWord 0 5 29).1 = some none ∧ ((recordsAt 0).recordWord 0 5 0).1 = some none) ∧
    (((recordsAt 0x5000000000083F).recordWord 0 5 29).1 = none ∧ ((recordsAt 0x5000000000083F).recordWord 0 5 0).1 = none) ∧
    (let p := (recordsAt 55).recordWord 0 5 29
     p.1 = some (some 4) ∧ (p.2.writeWord 0 (p.2.fieldVa 0 5 2) 9).1 = false) := by decide +kernel

/-! ## Traps, events, returns, landings, halts -/

def result0 : Result := ⟨40, 1, 995, .v, 6, 1010, 0, [5], [(5, 9)], false⟩
def trapCore (n : Nat) (f : Weave → Weave) : Core :=
  let x := { weave0 with flight := (List.range n).map (fun i => { result0 with id := 40 + i }), tvec := 0x100, uevec := 0x200, ueframe := 0x400400 }
  { core0 with weaves := [(0, f x)] }
def ti0 : TrapInfo := ⟨0x01, 2, 0, 7, 8, 300, false, false, 1000⟩
theorem hyp_TrapsEnter :
    (let s := under (trapCore 16 id)
     s.core.iss.fpx = 0 ∧ ((s.rd.weave 0).redun = false ∧ (s.rd.weave 0).served = none) ∧ s.rd.cur = s.core.cur ∧
       ((inFlightAt (s.rd.weave 0).flight s.rd.now).length ≤ 16 ∧ (s.rd.weave 0).handles.length = 16 ∧
         ∀ r ∈ inFlightAt (s.rd.weave 0).flight s.rd.now, ∀ p ∈ r.data, p.1 < 128) ∧ Memory.wf s.rd.mem = true ∧ s.rd.attached 0 = false) ∧
    ((trapCore 16 fun x => { x with pendTrap := some ti0 }).weave 0).pendTrap = some ti0 ∧
    16 < (inFlightAt ((trapCore 17 id).weave 0).flight 1000).length := by decide +kernel
/-- R31, R144, R315: `trap 5` saves its own PC, its cause with slot and code, and goes to TVEC at system level. -/
theorem test_trap : (match Machine.exec (.trap 5) (under { trapCore 1 id with iss := { Iss.reset with pc := 77, slot := 3 } }) with
    | .next t => let y := t.core.weave 0
      y.tcause == 0x50314 && y.epc == 77 && y.pc == 0x100 && y.priv && t.core.row (trapFrame 0) == 0x50314 && t.core.row (trapFrame 0 + 8) == 77
    | _ => false) = true := by decide +kernel
theorem hyp_EventsEnter :
    (let c := trapCore 16 fun x => { x with status := 2, events := [(255, 990)], throttle := some 995 }
     let x := c.weave 0
     x.uee = true ∧ x.inue = false ∧ x.priv = false ∧ x.redun = false ∧ x.served = none ∧ (inFlightAt x.flight c.now).length ≤ 16 ∧
       Memory.wf c.mem = true ∧ c.eventFrame 0 = some (storeFlat 0 0x400) ∧ storeFlat 0 0x400 % 8 = 0 ∧ (255 : Nat) < 256 ∧
       (mget? x.events 255).isSome = true ∧ x.throttle.isSome = true ∧ c.flips = []) ∧
    (let x := (trapCore 16 fun x => { x with preempt := true, landing := some 4 }).weave 0
     x.preempt = true ∧ x.landing = some 4 ∧ x.priv = false ∧ x.inue = false) ∧
    core0.launch? 1 = some launch1 ∧ launch1.preempting = none ∧ launch1.started.isSome = true ∧ launch1.ended = false ∧
    (0 : Nat) ∈ launch1.weaves ∧ launch1.halted.contains 0 = false ∧ core0.preloadOn launch1 = none ∧
    ({ core0 with sectors := [(0, { Sector.reset with preloaded := some 9 })] }).preloadOn launch1 = some 9 := by decide +kernel
theorem hyp_Returns :
    state0.wv.priv = false ∧ (withWeave fun x => { x with status := 1 }).wv.priv = true ∧ state0.core.now = state0.rd.now ∧
    state0.wv.inue = false ∧ (withWeave fun x => { x with status := 4, ueframe := 1 }).wv.inue = true ∧
    (withWeave fun x => { x with status := 4, ueframe := 1 }).rd.eventFrame 0 = none ∧
    (withWeave fun x => { x with status := 4, ueframe := 0x400400 }).rd.eventFrame 0 = some (storeFlat 0 0x400) := by decide +kernel
/-- R149, R320: `eret` goes to EPC with PRIV and UEE from PPRIV and PUEE. -/
theorem test_eret : (match Machine.exec .eret (withWeave fun x => { x with status := 0x41, epc := 55 }) with
    | .next t => (me t).pc == 55 && (me t).status == 0x42 && (me t).fixedAt == some 1008
    | _ => false) = true := by decide +kernel
def landState (f : File) (d : Map Word) : State := withWeave fun x => { x with flight := [{ result0 with file := f, data := d, lanes := d.map (·.1) }] }
theorem hyp_Landings : ∀ p ∈ [(File.s, [(0, (9 : Word))]), (.v, [(5, 9), (17, 3)]), (.k, [(5, 1)])],
    (let s := landState p.1 p.2
     ((s.core.weave 0).flight.find? fun r => r.id == 40) = some { result0 with file := p.1, data := p.2, lanes := p.2.map (·.1) } ∧
       (p.2.map (·.1)).Nodup ∧ (∀ q ∈ p.2, q.1 < 128)) := by decide +kernel
theorem hyp_Halts :
    (let s := withWeave fun x => { x with mode := 8 }
     (s.core.weave 0).redun = true ∧ (0 : Nat) % 2 = 0) ∧
    (let s := withWeave fun x => { x with buf := [(storeFlat 0 8, ⟨5, BitVec.allOnes 64⟩)] }
     (s.core.weave 0).redun = false ∧ (s.core.weave 0).saving = false ∧ (s.core.weave 0).bufBad = [] ∧ (s.core.weave 0).launch = some 1 ∧
       s.core.launch? 1 = some launch1 ∧ Memory.wf s.core.mem = true ∧ (me s).buf = [(storeFlat 0 8, ⟨5, BitVec.allOnes 64⟩)]) ∧
    (me state0).buf = [] ∧ ({ weave0 with bufBad := [(0, storeFlat 0 8)] }).bufBad ≠ [] := by decide +kernel
/-- Publications: a weave with one buffered row publishes at every scope. -/
theorem hyp_Publications : (let c := { core0 with weaves := [(0, { weave0 with buf := [(storeFlat 0 8, ⟨5, BitVec.allOnes 64⟩)] })] }
    c.duePublishers = [] ∧ (c.weave 0).gbuf = [] ∧ Memory.wf c.mem = true ∧ c.flips = [] ∧
      ((c.weave 0).buf.map fun p => rowAddr p.1) = [storeFlat 0 8] ∧ (c.publishDue [(0, 1)]).row (storeFlat 0 8) = 5) := by decide +kernel
theorem hyp_FatalErrorsAndEvictions :
    ((core0.weave 0).launch = some 1 ∧ core0.launches = [(1, launch1)] ∧ launch1.ended = false ∧ (0 : Nat) ∈ launch1.weaves ∧
      (∀ v ∈ launch1.weaves, (core0.weave v).launch = some 1) ∧ Quiet state0 ∧
      launch1.node = none ∧ launch1.sectors ≠ [] ∧ launch1.retry = 0) ∧
    (let x := { weave0 with evictWarn := true, ports := weave0.ports.set 1 { Port.reset with kind := 0, g := true, ew := true } }
     x.evictWarn = true ∧ x.priv = false ∧ x.redun = false ∧ x.served = none ∧ (inFlightAt x.flight 1000).length ≤ 16 ∧
       (List.range 3).foldl (fun acc p => if (x.ports.getD p Port.reset).ew then acc + 2 ^ p else acc) 0 ≠ 0) := by
  unfold Quiet
  decide +kernel
def debugCore (f : Weave → Weave) : Core := { core0 with contexts := [(0, { context0 with att := true })], weaves := [(0, f weave0)] }
theorem hyp_DebuggerActs :
    ((debugCore id).attached 0 = true ∧ ((debugCore id).weave 0).running = true ∧ ((debugCore id).weave 0).dbg.halted = none ∧
      core0.attached 0 = false ∧ ((debugCore id).weave 0).served = none ∧ (debugCore id).haltSet 0 = [0] ∧
      (inFlightAt ((debugCore id).weave 0).flight 1000).length ≤ 16) ∧
    (let x := (debugCore fun x => { x with dbg := { Debug.reset with halted := some 900, dsel := 0x0300500000000011 } }).weave 0
     x.dbg.halted = some 900 ∧ x.timed = false ∧ x.dbg.dsel.toNat / 2 ^ 56 = 3) ∧
    ((debugCore fun x => { x with mode := 1 }).weave 0).timed = true ∧
    ((debugCore id).leadOf 0 = 0 ∧ (debugCore id).hasPartner 0 = false) ∧
    (let c := { debugCore fun x => { x with mode := 8 } with
       weaves := [(0, { weave0 with mode := 8 }), (1, { weave0 with mode := 24 })] }
     c.leadOf 1 = 0 ∧ c.leadOf 0 = 0 ∧ c.hasPartner 0 = true ∧ c.haltSet 0 = [0]) := by decide +kernel

/-! ## Ports, leases, jobs -/

/-- Port 1 holds the SFU of the sector, granted; its stack holds the arguments. -/
def portState (f : Machine.Port → Machine.Port) : State :=
  withWeave fun x => { x with ports := x.ports.set 1 (f { Port.reset with kind := 3, g := true }) }
theorem hyp_StackWords :
    (let s := portState fun p => { p with stack := List.replicate 7 5 }
     s.core.iss.rep = none ∧ (portRead s 1).kind ≠ 7 ∧ (portRead s 1).g = true ∧ (portRead s 1).rep = none ∧ 1 < (me s).ports.length ∧
       (portRead s 1).stack.length + 1 ≤ 8) ∧
    (let s := portState fun p => { p with stack := List.replicate 8 5 }
     ¬ (portRead s 1).stack.length + 1 ≤ 8) ∧
    (portState id |> fun s => (portRead s 0).kind) = 7 ∧
    (let s := portState fun p => { p with g := false, wk := true }
     (portRead s 1).kind ≠ 7 ∧ (portRead s 1).g = false) ∧
    ({ Iss.reset with rep := some (1, 2) }).rep ≠ none := by decide +kernel
/-- R92: `sub` of the stack words, on the top entry. -/
theorem test_swap : (match Machine.exec (.swap 1) (portState fun p => { p with stack := [1, 2, 3] }) with
    | .next t => (portOf t 1).stack == [2, 1, 3]
    | _ => false) = true := by decide +kernel
/-- LaunchWords: a fill of 64 bytes at 0x100 of half A, on port 3 of the copy engine; wait 256 and signal 7. -/
def fillArgs : List Word := [0x10, 0x40000100, 0, 64]
def fillStack : List Word := fillArgs.reverse ++ [256, 7]
def entryJob : Job := ⟨30, 0, 3, 6, 7, 0, fillArgs, 256, 7, [16], [], Captured.none, 900, false, none, 0, [], 1, 0, false, false, 0⟩
def fillState (st : List Word) : State := withWeave fun x => { x with ports := x.ports.set 3 { Port.copyEngine with stack := st } }
theorem hyp_LaunchWords :
    (let s := fillState fillStack
     let st := (portRead s 3).stack
     ((portRead s 3).kind ≠ 7 ∧ (portRead s 3).g = true ∧ (portRead s 3).rep = none) ∧ 4 + 2 ≤ st.length ∧ (st.getD 5 0).toNat ≤ 256 ∧
       (st.getD 4 0).toNat ≤ 256 ∧ (st.take 4).reverse = fillArgs ∧ s.base = some s.core ∧ s.core.iss.rep = none ∧ (s.core.weave 0).redun = false ∧
       (3 : Sys2Proof.Port).toNat < (me s).ports.length ∧ s.rd.portQueue 0 3 7 = .copy 0 false ∧
       (s.core.jobsOf (.copy 0 false)).length < queueRoom (.copy 0 false)) ∧
    (match checkFill core0 0 fillArgs with | .ok _ rings h => rings == [16] && h.isNone | _ => false) = true ∧
    (match checkFill core0 0 (fillArgs.set 3 7) with | .job r => r == 2 | _ => false) = true ∧
    ((portRead (fillState [1, 2, 3, 4, 5]) 3).stack.length < 4 + 2) ∧ 256 < ((fillStack.set 5 257).getD 5 0).toNat ∧
    (withWeave fun x => { x with status := 1 }).wv.priv = true ∧ state0.wv.priv = false := by decide +kernel
/-- What the word's checks may answer, a wait past 256, a full queue, a lane that a job holds. -/
theorem hyp_LaunchWords_stops : 256 < ((fillStack.set 4 257).getD 4 0).toNat ∧
    (match checkFill core0 0 (fillArgs.set 1 0x80000100) with | .window _ => true | _ => false) = true ∧
    (match checkFill core0 0 (fillArgs.set 1 0x403C0000) with | .priv _ => true | _ => false) = true ∧
    (match checkGt core0 0 [0x10, 0, 0, 0, 0x0001000100010001] with | .handle _ _ none => true | _ => false) = true ∧
    (let c := { core0 with copies := [(copyKey 0 false, ⟨List.replicate 32 { entryJob with lanes := [] }⟩)] }
     queueRoom (.copy 0 false) ≤ (c.jobsOf (.copy 0 false)).length) ∧
    ({ core0 with copies := [(copyKey 0 false, ⟨[{ entryJob with rings := [3], lanes := [3], started := some 950 }]⟩)] }).laneHeld 0 3 = true ∧
    wordBypasses 7 7 0 = false := by decide +kernel
theorem test_fill : (match Machine.exec .cpFill (fillState fillStack) with
    | .next t => (t.core.jobsOf (.copy 0 false)).map (fun j => (j.op, j.args, j.sig, j.entered)) == [(7, fillArgs, 7, 1008)]
    | _ => false) = true := by decide +kernel

/-- Engines of sector 0: kind 3 has two instances. -/
def sectorWith (f : Sector → Sector) : Core := { core0 with sectors := [(0, f Sector.reset)] }
def engines (e0 e1 : Engine) : Core := sectorWith fun x => { x with engines := x.engines.set 3 [e0, e1] }
def holdsP1 : Engine := { Engine.reset with holder := some (0, 1), charge := Config.weight 3 }
def req9 (w : Nat) : LeaseReq := ⟨w, 0, 0, 900, false⟩
theorem hyp_LeaseWords :
    (let s := under (engines Engine.reset Engine.reset)
     (portRead s 1).kind = 7 ∧ (1 : Nat) < (me s).ports.length ∧ ((s.core.instances s.sec 3).find? fun i => (s.core.eng s.sec 3 i).idle) = some 0 ∧
       s.core.fits s.sec 3 0 = true ∧ s.core.budgetWaiters s.sec = []) ∧
    (let s := under (engines holdsP1 { holdsP1 with holder := some (1, 0), queue := [req9 2] })
     ((s.core.instances s.sec 3).find? fun i => (s.core.eng s.sec 3 i).idle) = none ∧ s.core.shortest s.sec 3 = some 0) ∧
    (let s := under (engines { holdsP1 with queue := List.replicate 8 (req9 2) } { holdsP1 with queue := List.replicate 8 (req9 2) })
     ((s.core.instances s.sec 3).find? fun i => (s.core.eng s.sec 3 i).idle) = none ∧ s.core.shortest s.sec 3 = none) ∧
    (let c := { engines Engine.reset Engine.reset with sectors := [(0, { Sector.reset with budget := 0 })] }
     c.fits 0 3 0 = false) ∧
    (let s := portState id
     (portRead s 1).kind ≠ 7 ∧ portOf s 1 = portRead s 1 ∧ (portRead s 1).g = true) ∧
    (portRead (portState fun p => { p with g := false, q := true }) 1).g = false ∧ (6 : BitVec 3).toNat ≥ 6 := by decide +kernel
theorem hyp_LeaseWords_units : HasEngine (engines Engine.reset Engine.reset) 0 3 1 := ⟨[Engine.reset, Engine.reset], by decide +kernel, by decide⟩
theorem hyp_LeasesRunTheirCourse :
    (let e := (engines { Engine.reset with waking := some (0, 1) } Engine.reset).eng 0 3 0
     e.waking = some (0, 1)) ∧
    (let e := (engines { holdsP1 with queue := [req9 2] } Engine.reset).eng 0 3 0
     e.holder = some (0, 1) ∧ e.graceAt = none ∧ e.queue ≠ [] ∧ (e.queue.find? fun r => r.weave == 2 && r.port == 0) = some (req9 2)) ∧
    (let e := (engines { Engine.reset with draining := some (0, 1), charge := Config.weight 3, queue := [req9 2] } Engine.reset).eng 0 3 0
     e.draining.isSome = true ∧ e.jobs = [] ∧ e.queue = req9 2 :: [] ∧ e.retired = false) ∧
    (engines { Engine.reset with draining := some (0, 1), charge := Config.weight 3 } Engine.reset).fits 0 3 (Config.weight 3) = true ∧
    (let e := (engines { holdsP1 with graceAt := some 2000 } Engine.reset).eng 0 3 0
     e.graceAt.isSome = true ∧ e.holder = some (0, 1) ∧ e.queue = []) ∧
    (let x := ((withWeave fun x => { x with ports := x.ports.set 1 { Port.reset with kind := 3, g := true, termWords := Config.termWords } }).core.weave 0).ports.getD 1 Port.reset
     Config.termWords ≤ x.termWords ∧ x.kind = 3 ∧ x.inst = 0 ∧ secOf 0 = 0) := by decide +kernel
def job0 : Job := ⟨30, 0, 3, 6, 7, 0, fillArgs, 256, 7, [16], [], ⟨none, [], [], List.replicate 16 false, 0⟩, 1000, false, none, 0, [], 1, 0, false, false, 0⟩
def jobCore (f : Job → Job) : Core := { core0 with copies := [(copyKey 0 false, ⟨[f job0]⟩)] }
theorem hyp_JobsRun :
    ((jobCore id).queueOf 0 30 = some (.copy 0 false) ∧ (jobCore id).job? (.copy 0 false) 30 = some job0 ∧ job0.bypasses = false) ∧
    ((jobCore id).jobsOf (.copy 0 false) = job0 :: [] ∧ job0.started = none ∧ job0.entered ≤ (jobCore id).now ∧
      ((jobCore id).weave 0).dbg.halted = none ∧ 256 ≤ job0.wait ∧ (jobCore id).stopWaits (.copy 0 false) job0 = false ∧ (jobCore id).saveWaits (.copy 0 false) job0 = false ∧
      (jobCore id).takeLanes 0 job0 ((jobCore id).startRings (.copy 0 false) job0) [] = some [0]) ∧
    (let j := { job0 with wait := 9 }
     j.wait < 256 ∧ j.served = false ∧ ((jobCore fun j => { j with wait := 9 }).sem 0 9).ab = false ∧ ((jobCore id).sem 0 9).waiters = []) ∧
    (job0.suppress = false ∧ job0.sig < 256 ∧ job0.swaps = false) := by decide +kernel
/-- A repeat of the fill, of which two launches remain: the destination steps by 64. -/
def rep0 : RepRun := ⟨7 * 256, 2, 2, fillArgs ++ [256, 7], [0, 64, 0, 0, 0, 0, 0, 0], .copy 0 false, 6, 50, 992⟩
def repCore (n : Nat) : Core := { core0 with
  weaves := [(0, { weave0 with ports := weave0.ports.set 3 { Port.copyEngine with rep := some rep0 } })], copies := [(copyKey 0 false, ⟨List.replicate n job0⟩)] }
theorem hyp_JobsRun_repeat :
    ((((repCore 31).weave 0).ports.getD 3 Port.reset).rep = some rep0 ∧ 3 < ((repCore 31).weave 0).ports.length ∧
      ((repCore 31).jobsOf rep0.eng).length < queueRoom rep0.eng ∧ 2 ≤ rep0.left ∧ ((repCore 31).weave 0).redun = false) ∧
    (match launchCheck 3 6 7 0 256 (repCore 31) 0 [0x10, 0x40000140, 0, 64] with | .ok _ rings none => rings == [16] | _ => false) = true ∧
    (rep0.left ≠ 0 ∧ queueRoom rep0.eng ≤ ((repCore 32).jobsOf rep0.eng).length) ∧ ({ rep0 with left := 0 }).left = 0 := by decide +kernel

/-! ## The transform sequencer -/

def goJob0 : Job := { job0 with kind := 2, op := 1, started := some 950, id := 31 }
def txs0 : Txs := { Txs.reset with
  state := 1
  levels := [⟨2, 2, 0⟩]
  words := Txs.reset.words.set 4 64
  gens := (Txs.reset.gens.set 1 { Agen.reset with base := 0x40001000, pitch := 8 }).set 2 { Agen.reset with base := 0x40002000, pitch := 8 } }
def txsState (f : Txs → Txs) : State := under { core0 with
  sectors := [(0, { Sector.reset with txs := [f txs0, Txs.reset], engines := Sector.reset.engines.set 2 [{ Engine.reset with jobs := [goJob0] }, Engine.reset] })] }
theorem hyp_TransformControl :
    (let s := txsState id
     Running s goJob0 ∧ (∀ x ∈ s.core.jobsOf (.pool s.core.curTxs.1 2 s.core.curTxs.2), x.id = goJob0.id → x = goJob0) ∧
       (∀ k ∈ s.core.jobsOf (.pool s.core.curTxs.1 2 s.core.curTxs.2), k.op = 1 → k.started.isSome = true → k = goJob0) ∧
       (txs s).levels = [] ++ [⟨2, 2, 0⟩] ∧ ((txs s).words.getD 4 0).toNat % 2 ^ 32 = 64 ∧ (s.core.sem 0 9).ab = false) ∧
    (txs (txsState fun x => { x with levels := [] })).levels = [] ∧ 6 ≤ (txs (txsState fun x => { x with levels := List.replicate 6 ⟨2, 2, 0⟩ })).levels.length ∧
    ((semState ⟨1, true, false, [], []⟩ 0 id).core.sem 0 7).ab = true := by
  unfold Running
  decide +kernel
theorem hyp_TransformData : Running (txsState id) goJob0 ∧ Quiet (txsState id) ∧ CleanHbm (txsState id) ∧ (txsState id).core.pairDegraded 0 = false ∧
    ((txs (txsState id)).baseOk 2 = true ∧ (txs (txsState id)).baseOk 1 = true) ∧ (txs (txsState id)).addr 1 = (1, 0x1000) ∧
    OpenTo (txsState id) goJob0 1 0x1000 64 ∧ Arrived (txsState id) goJob0 1 0x1000 64 ∧ OpenTo (txsState id) goJob0 1 0x2000 64 := by
  refine ⟨?_, quiet _ ⟨rfl, rfl⟩ (by decide +kernel), ⟨rfl, rfl⟩, by decide +kernel, by decide +kernel, by decide +kernel, ?_⟩
  · unfold Running; decide +kernel
  · unfold OpenTo Arrived; decide +kernel
theorem hyp_TransformData_block : ∀ i ∈ List.range 8,
    OpenTo (txsState id) goJob0 1 (0x1000 + i * 8) (8 * 1) ∧ Arrived (txsState id) goJob0 1 (0x1000 + i * 8) (8 * 1) ∧
      OpenTo (txsState id) goJob0 1 (0x2000 + i * 8) (8 * 1) := by
  unfold OpenTo Arrived
  decide +kernel
theorem hyp_TransformData_convert : fdValid 0x80010200 = true ∧ isBlock (fdSF 0x80010200) = false ∧ isBlock (fdLF 0x80010200) = false := by decide +kernel

/-! ## Errors, checkpoints, pre-emption, towers, tests -/

def recovery0 (unc : Bool) (w : Option Nat) : Recovery := ⟨60, 0, storeFlat 0 64, w, none, unc, false, 990⟩
theorem hyp_ArrayErrors : ({ core0 with recoveries := [recovery0 false (some 0)] }).recoveries = [recovery0 false (some 0)] ∧
    (recovery0 false (some 0)).id = 60 ∧ (recovery0 false (some 0)).unc = false ∧ (recovery0 true none).unc = true ∧
    (recovery0 true none).weave = none ∧ (recovery0 true none).job = none ∧
    (let c := { core0 with flips := [⟨storeFlat 0 64, 2, 0⟩], recoveries := [recovery0 false (some 0)] }
     c.wordFlagged (recovery0 false (some 0)).row = true ∧ c.groupError (recovery0 false (some 0)).row = 0 ∧
       c.groupFails (recovery0 false (some 0)).row = false) ∧
    core0.flips = [] ∧ core0.parityFlips = [] ∧ mget? core0.hbmFlips 64 = none ∧
    (rowAddr 8 ∉ core0.poison ∧ core0.unpowered = false ∧ 64 ∉ core0.hbmPoison) ∧
    (8 ∈ ({ core0 with poison := [8] }).poison ∧ ({ core0 with power := { core0.power with shut := true } }).unpowered = true ∧
      64 ∈ ({ core0 with hbmPoison := [64] }).hbmPoison) := by decide +kernel
/-- R371, R372: a cluster of four bits is flagged, two bits of one parity group are not; groups of 31 rows and the rest. -/
theorem test_parity_and_groups : (Flip.mk 0 0x1E 0).flagged = true ∧ (Flip.mk 0 0x11 0).flagged = false ∧
    (core0.groupRows (storeFlat 0 64)).length = 31 ∧ (core0.groupRows (storeFlat 0 (2 ^ 17 - 8))).length = 2 ∧
    (core0.groupRows (core0.towerHome 0 8)).take 2 = [core0.towerHome 0 0, core0.towerHome 0 8] ∧
    (core0.groupRows (core0.towerHome 0 (2 ^ 20 + 8))).take 2 = [core0.towerHome 0 (2 ^ 20 + 8), core0.towerHome 0 (2 ^ 20 + 136)] ∧
    (core0.groupRows (bankFlat 3 true 16383 / 8 * 8)).length = 8 ∧ (core0.groupRows (txsFlat 2 1 4094)).length = 2 := by decide +kernel
/-- R379: no symbol in error, one, which is corrected, and two, which are detected. -/
theorem test_request_code : (let word := rsCheck (List.range 32) ++ List.range 32
    rsDecode word = .clean ∧ rsDecode (word.set 34 (31 ^^^ 0x8001)) = .fix 34 0x8001 ∧
      rsDecode ((word.set 34 (31 ^^^ 1)).set 3 (0 ^^^ 0xFFFF)) = .bad) := by decide +kernel
def checkpoint0 : Checkpoint where
  cycle := 900
  pc := 12
  loops := []
  s := Weave.reset.s.set 4 44
  shadow := Weave.reset.shadow
  handles := Weave.reset.handles
  k := []
  v := [(vKey 1 5, 7)]
  fcsr := 0
  fmtsel := 0
  slipctr := 0
  ueframe := 0
  status := 0
  epc := 0
  tcause := 0
  srd := []
  latches := []
  tdelta := 0
  seg := Segment.reset
  place := Weave.reset.place
  chkmask := 2
  parityBad := false
  jobMark := 0
  aside := .none
  trapSched := 0
  eventSched := 0
theorem hyp_CancelledPhases :
    (bitAt checkpoint0.chkmask.toNat 3 = false ∧ ∀ p ∈ checkpoint0.v, bitAt checkpoint0.chkmask.toNat (p.1 / 128) = true) ∧
    (let x := { weave0 with ckpt := some checkpoint0 }
     x.contained = false ∧ x.preempted = false ∧ x.atom = false ∧ x.consumed = [] ∧ checkpoint0.parityBad = false) ∧
    ({ weave0 with status := 8 }).contained = true ∧
    (let x := { weave0 with ckpt := some checkpoint0, rerun := some [] }
     x.rerun = some [] ∧ x.ckpt = some checkpoint0 ∧ x.redun = false) ∧
    (let c := { core0 with weaves := [(0, { weave0 with mode := 8, red := { Redundancy.reset with point := some 998 } }), (1, { weave0 with mode := 24 })] }
     (c.weave 0).red.point.isSome = true ∧ (c.weave 0).injecting = false ∧ (c.weave 1).injecting = false ∧
       (c.weave 0).red.hash = (c.weave 1).red.hash ∧ (c.weave 0).red.reach = .no ∧ (c.weave 0).red.held = [] ∧ (c.weave 0).red.mark = false) := by decide +kernel
/-- R326, R327: a restored weave is at the checkpoint's PC with its registers. -/
theorem test_restore : (let y := (core0.restore 0 checkpoint0).weave 0
    y.pc == 12 && y.s.getD 4 0 == 44 && y.contained) = true := by decide +kernel

/-- PreemptedLaunches: a launch whose parked weave has no save list; with no sector to save, the area is 64 barrier words. -/
def parkLaunch : Launch := { launch1 with sectors := [], weaves := [], parked := [0], preempting := some 500 }
def parkCore : Core := { core0 with launches := [(1, parkLaunch)] }
theorem hyp_PreemptedLaunches :
    (parkCore.launches = [(1, parkLaunch)] ∧ parkLaunch.ended = false ∧ parkLaunch.parked ≠ [] ∧ parkLaunch.savedTo = none ∧
      (∀ w ∈ parkLaunch.weaves, parkLaunch.halted.contains w = true ∨ parkLaunch.parked.contains w = true) ∧
      parkCore.jobsDone 1 parkLaunch = true ∧ parkCore.badEntry parkLaunch.parked = none ∧ parkLaunch.overrun = false ∧
      parkCore.gauzeMoving parkLaunch.weaves = false ∧ parkCore.flips = [] ∧ parkCore.poison = [] ∧
      (∀ p ∈ parkCore.weaves, p.2.injecting = false) ∧
      8 * (parkCore.saveWords parkLaunch).length ≤
        ((parkCore.ctx 0).words.getD 4 0).toNat + ((parkCore.ctx 0).words.getD 5 0).toNat - parkCore.saveBase 0) ∧
    (parkCore.writeWords 0 (parkCore.saveBase 0) (parkCore.saveWords parkLaunch)).1 = true ∧
    (let l := { launch1 with preempting := some 500 }
     l.preempting.isSome = true ∧ (0 : Nat) ∈ l.weaves ∧ l.halted.contains 0 = false ∧ l.sectors ≠ [] ∧ l.node = none ∧
       ({ weave0 with preempt := true }).preempt = true ∧ weave0.preempt = false) := by decide +kernel
def savedLaunch : Launch := { parkLaunch with savedTo := some 0x300000, savedLen := 16, sectors := [] }
def savedCore : Core := { core0 with launches := [(1, savedLaunch)] }
theorem hyp_PreemptedLaunches_resume : savedCore.launch? 1 = some savedLaunch ∧ savedLaunch.savedTo = some 0x300000 ∧
    (let r := savedCore.withPeer (.launchResume 1) fun c =>
       let (im, c) := c.readImages 0 savedLaunch.record
       let (ws, c) := c.readWords 0 0x300000 (16 / 8)
       ((im, ws), c)
     r.1.any (fun x => okWith x.1 (fun y => y.prog == [0]) && x.2 == some [0, 0]) = true ∧ r.2.launch? 1 = some savedLaunch) := by decide +kernel

def move0 (kind : MoveKind) (copied : Bool) : Move := ⟨0, 0, kind, ⟨2880, 1, 3⟩, copied, [], false⟩
def towerCore (t : Tower) : Core := { core0 with towers := [(0, t)] }
/-- The access tables admit what MID 0x40 writes. -/
def mover : Core := { core0 with host := { host0 with access := host0.access ++ [(16 * 0x40, 0xF000000000000000), (16 * 0x40 + 1, 0x7FFFFF0000)] } }
theorem hyp_TowersMoveAndRefresh : core0.unpowered = false ∧
    mover.admits 0x40 (move0 .spill true).target.seq (2 ^ 20) true = true ∧
    (let key := core0.towerKey 0 0
     mget? (core0.tower key).evac 1 = none ∧ mget? (core0.tower key).spilled 1 = none ∧ mget? (core0.tower key).moving 1 = none ∧
       (core0.evacuated 0).length + core0.evacuating 0 < 4 * core0.busesLeft 0 ∧ core0.swapTouches key 1 = false ∧
       (((List.range 15).map (· + 1)).find? fun b => !core0.covered 80 (core0.towerKey 320 0) b && !core0.bankShort (core0.towerKey 320 0) b &&
         !core0.bankOccupied (core0.towerKey 320 0) b) = some 1) ∧
    (let c := towerCore { Tower.reset with moving := [(1, move0 .evacuate false)] }
     mget? (c.tower (c.towerKey 0 0)).moving 1 = some (move0 .evacuate false) ∧ c.swapTouches 0 1 = false ∧ c.timedRefs 0 1 = []) ∧
    (let c := towerCore { Tower.reset with moving := [(1, move0 .spill true)], evac := [(1, ⟨2880, 1, 3⟩)] }
     mget? (c.tower (c.towerKey 0 0)).moving 1 = some (move0 .spill true) ∧ (move0 .spill true).copied = true ∧ (move0 .spill true).waits = [] ∧
       (move0 .spill true).back = false ∧ (move0 .spill true).kind ≠ .evacuate) ∧
    (let c := { core0 with busMaps := [(0, List.replicate 16 0x1F)] }
     4 * c.busesLeft 0 ≤ (c.evacuated 0).length + c.evacuating 0) ∧
    (let c := towerCore { Tower.reset with evac := [(1, ⟨2880, 1, 3⟩)] }
     mget? (c.tower (c.towerKey 0 0)).moving 1 = none ∧ (mget? (c.tower (c.towerKey 0 0)).evac 1).isSome = true) ∧
    (let c := { core0 with health := [(busUnit 3 15, { Health.reset with state := 2 })] }
     (c.busMap 3).contains 15 = true ∧ 2 ≤ (c.healthOf (busUnit 3 15)).state ∧ c.evacuated 3 = []) := by decide +kernel
def lut : UnitName := ⟨3, 1, 16 * 3⟩
def later (u : Nat) : Core := { core0 with wall := u }
theorem hyp_FieldTestsAndMonitors :
    (core0.testable lut = true) ∧ (∀ v ∈ testUnitsOf, core0.testable v = true → core0.testsBefore v lut = false) ∧
    (∃ x ∈ ({ core0 with tests := [⟨lut, 0⟩] }).tests, x.unit = lut ∧ x.endsAt ≤ core0.wall) ∧
    86400 ≤ (later (86400 * Config.secUnits)).wall / Config.secUnits - ((later 0).healthOf (unitCode lut)).ltime ∧
    (core0.healthOf (unitCode lut)).lastFail = false ∧ (0x8000 : BitVec 16).getLsbD 15 = true ∧ (5 : BitVec 16).getLsbD 15 = false ∧
    lut.type ≠ 1 ∧ lut.type ≠ 6 ∧ lut.type ≠ 7 ∧ (UnitName.mk 1 0 0).type = 1 ∧ (UnitName.mk 6 0 0).type = 6 ∧ (5 : BitVec 16).toNat < 6 ∧ (core0.healthOf (unitCode lut)).eolSeen = false := by
  refine ⟨by decide +kernel, fun v _ _ => rfl, ⟨⟨lut, 0⟩, by decide +kernel⟩, by decide +kernel⟩

/-! ## The command processor -/

/-- An idle module: context 0, queue 0 with a ring of 16, record 0, a graph descriptor at 0x240000 in place of number 3. -/
def graphWords : List Word := [1, 0, 0xFFFFFF01, 0, 0, 0]
def idle : Core := { core0 with
  launches := [], weaves := [], queues := [(0, queue0)], sectors := [(80, { Sector.reset with owner := some 1 })]
  mem := putWords (putWords (putWords pages0 0x100000 record0) 0x200018 [0x240000]) 0x240000 graphWords }
def idleState : State := ⟨idle, none⟩
theorem stands (c : Core) (q kind : Nat) (num : BitVec 12) (addr value : Word)
    (h : (let p := c.putCommand q kind num.toNat false addr value
      (p.1.heads q).contains (.cmd p.2) && ((p.1.queue q).cmds.find? fun m => m.idx == p.2).any fun m =>
        m.kind == kind && m.num == num.toNat && m.addr == addr.toNat && m.value == value) = true) :
    ∃ c1 idx, Stands ⟨c, none⟩ q kind num false addr value c1 idx := by
  refine ⟨_, _, rfl, ?_⟩
  simp only [Bool.and_eq_true] at h
  obtain ⟨m, hm, hp⟩ := gives _ h.2
  simp only [Bool.and_eq_true, beq_iff_eq] at hp
  exact ⟨h.1, m, hm, hp.1.1.1, hp.1.1.2, hp.1.2, hp.2⟩
theorem hyp_Commands : (∃ c i, Stands idleState 0 1 0 false 0 0 c i) ∧ (∃ c i, Stands idleState 0 2 3 false 0 0 c i) ∧
    (∃ c i, Stands idleState 0 3 0 false 0x260000 1 c i) ∧ ∃ c i, Stands idleState 0 4 0 false 0x260000 1 c i :=
  ⟨stands _ _ _ _ _ _ (by decide +kernel), stands _ _ _ _ _ _ (by decide +kernel), stands _ _ _ _ _ _ (by decide +kernel),
    stands _ _ _ _ _ _ (by decide +kernel)⟩
/-- The rest of what the clauses of Commands ask: the launch is fetched and finds a place, the graph's words read, event words read and add. -/
def placeableB (c : Core) (q : Nat) (h : Head) : Bool :=
  let p := c.withPeer (h.fetch q) fun c => c.headLaunch q h
  p.1.any fun o => o.any fun n => !(p.2.sectors.any fun x => x.2.preloaded == some n) && (p.2.launch? n).any fun l =>
    (p.2.findPlace n l.ctx l.record []).any fun bases =>
      (((p.2.modL n fun l => { l with prio := (p.2.queue q).prio }).takeSectors n bases).initNow n false none).1 == some true
theorem hyp_Commands_launch : (let p := idle.putCommand 0 1 0 false 0 0
    placeableB p.1 0 (.cmd p.2)) = true := by decide +kernel
theorem placeable {c : Core} {q : Nat} {h : Head} (g : placeableB c q h = true) :
    ∃ c1 n l bases, Fetched c q h n c1 ∧ Placeable c1 q n l bases := by
  obtain ⟨o, ho, g⟩ := gives _ g
  obtain ⟨n, rfl, g⟩ := gives _ g
  obtain ⟨g1, g⟩ := Bool.and_eq_true_iff.1 g
  obtain ⟨l, hl, g2⟩ := gives _ g
  obtain ⟨b, hb, g3⟩ := gives _ g2
  exact ⟨_, n, l, b, Prod.ext ho rfl, by simpa using g1, hl, hb, _, Prod.ext (beq_iff_eq.1 g3) rfl⟩
theorem hyp_Commands_words :
    (let p := idle.putCommand 0 2 3 false 0 0
     let op := Head.fetch 0 (.cmd p.2)
     let x := ({ p.1 with cpOp := some op } : Core).readWord 0 (0x200000 + 8 * 3)
     let y := x.2.readWord 0 0x240000
     let z := y.2.readWords 0 (0x240000 + 16) 4
     x.1 == some 0x240000 && y.1 == some 1 && (z.1.any fun z => graphOk 1 [z]) && z.2.cpWords.all fun w => w.op != op || w.val.isSome) = true ∧
    (let p := idle.putCommand 0 3 0 false 0x260000 1
     let b := p.1.beginHead 0 (.cmd p.2)
     let look (v : Word) := b.withPeer (.eventWordPoll 0 p.2) fun c => c.eventReached (c.ctxOfQueue 0) 0x260000 v
     (look 0).1 == some (some true) && (look 1).1 == some (some false) && (look 1).2.queues == b.queues) = true ∧
    (let p := idle.putCommand 0 4 0 false 0x260000 1
     ((p.1.beginHead 0 (.cmd p.2)).withPeer (.signalCmd 0 p.2) fun c => (c.eventAdd (c.ctxOfQueue 0) 0x260000 1).swap).1 == some true) = true := by
  decide +kernel
def waitCmd : Command := ⟨3, 3, true, 0, 0x260000, 0, true, none⟩
def queueWith (f : Queue → Queue) : Core := { idle with queues := [(0, f queue0)] }
theorem hyp_QueueTimers :
    (let c := queueWith fun q => { q with cmds := [waitCmd] }
     ((c.queue 0).cmds.find? fun m => m.idx == 3 && m.kind == 3 && m.began) = some waitCmd ∧
       (c.withPeer (.eventWordPoll 0 3) fun c => c.eventReached (c.ctxOfQueue 0) 0x260000 0).1 = some (some true) ∧
       (c.withPeer (.eventWordPoll 0 3) fun c => c.eventReached (c.ctxOfQueue 0) 0x260000 1).1 = some (some false)) ∧
    (let c := { queueWith fun q => { q with cmds := [{ waitCmd with began := false }], timers := [(.cmd 3, 5)] } with wall := 5 + Config.msUnits }
     .cmd 3 ∈ c.heads 0 ∧ c.headSince 0 (.cmd 3) + Config.msUnits ≤ c.wall ∧ c.tendQueues.pickHead [] = some (0, .cmd 3) ∧
       (c.tendQueues.serveHead 0 (.cmd 3) false).2 = true) ∧
    (core0.launch? 1 = some launch1 ∧ launch1.started.isSome = true ∧ launch1.ended = false ∧ recPre launch1.record = false ∧
      recPre (record0.set 5 0x800000000000) = true ∧ launch1.preempting = none) := by decide +kernel
/-- The launch that runs is command 3; command 4 follows it. -/
def preloadCore : Core := { core0 with
  mem := putWords pages0 0x100000 record0
  queues := [(0, { queue0 with cmds := [⟨3, 1, true, 0, 0, 0, true, some 1⟩, ⟨4, 1, true, 0, 0, 0, false, none⟩] })] }
theorem hyp_QueueTimers_preload :
    (let c := preloadCore
     c.launches = [(1, launch1)] ∧ launch1.queue = 0 ∧ launch1.savedTo = none ∧ launch1.preempting = none ∧ launch1.node = none ∧ c.preloadOn launch1 = none ∧ c.serves 0 = true ∧
       ((c.queue 0).cmds.dropWhile fun z => z.idx != launch1.cmd).take 2 = [⟨3, 1, true, 0, 0, 0, true, some 1⟩, ⟨4, 1, true, 0, 0, 0, false, none⟩] ∧
       (let p := ({ c with cpOp := some (.preload 0) } : Core).readWords 0 (c.fieldVa 0 0 0) 64
        p.1.any (fun x => sameShape x launch1.record && (p.2.recordErr 0 x).isNone && p.2.admitsLaunch 0 x launch1.sectors [1] &&
          okWith (p.2.readImages 0 x).1 fun _ => true) = true ∧
        (let r := (p.2.readImages 0 record0).2.headLaunch 0 (.cmd 4)
         (r.1.any fun m => m != 1 && (r.2.launch? m).any fun l => l.sectors.isEmpty) = true ∧
           r.2.cpWords.all (fun w => w.op != .preload 0 || w.val.isSome) = true))) := by decide +kernel
def readyLaunch (timed : Bool) : Launch := { launch1 with ready := [0], started := none, timed := timed }
theorem hyp_LaunchesStartAndComplete :
    (∀ t ∈ [false, true], (readyLaunch t).ready ≠ [] ∧ (readyLaunch t).ended = false ∧ (readyLaunch t).timed = t ∧
      (readyLaunch t).sectors.all (readyLaunch t).ready.contains = true) ∧
    (let l := { launch1 with halted := [0] }
     let c := { core0 with launches := [(1, l)] }
     c.launches = [(1, l)] ∧ l.ended = false ∧ l.started.isSome = true ∧ l.savedTo = none ∧ (∀ w ∈ l.weaves, l.halted.contains w = true) ∧
       l.parked = [] ∧ c.jobsDone 1 l = true ∧ l.node = none ∧ (let r := c.withPeer (.launchCompletion 1) fun c => ((), c)
        r.1 = some () ∧ r.2.launches = [(1, l)] ∧ r.2.preloadOn l = none) ∧
       recNat l.record 27 = 0 ∧ l.event = 0) := by decide +kernel

/-- GraphNodes: a run of one node, or of a region node with its body, in a state; the words at 0x260000 read 0, those at 0x100000 do not. -/
def run (nodes : List (List Word)) (states : Map Nat) : GraphRun := ⟨0, 3, 3, 0x240000, nodes, states, [], [(0, 1)], 0, false, none, [], []⟩
def graphCore (nodes : List (List Word)) (states : Map Nat) : Core := { idle with graphs := [(70, run nodes states)] }
def offeredB (nodes : List (List Word)) (kind : Nat) : Bool :=
  let c := graphCore nodes [(0, 1)]
  c.graphAt 0 0 kind 1 == some 70 && c.graph? 70 == some (run nodes [(0, 1)]) && (run nodes [(0, 1)]).failed.isNone && enclosing nodes 0 == none
def node (kind : Word) (a b c : Word) : List Word := [0xFFFFFF00 + kind, a, b, c]
def bodyNodes (kind : Word) : List (List Word) := [node (kind + 0x0002000100000000 ||| 0) 0x260000 0 0, node 5 0x260000 1 0]
theorem hyp_GraphNodes :
    offeredB [node 1 0 0 0] 1 = true ∧ offeredB [node 2 0x100000 0x260000 64] 2 = true ∧ offeredB [node 3 5 0x260000 64] 3 = true ∧
    offeredB [node 4 0x260000 1 0] 4 = true ∧ offeredB [node 5 0x260000 1 0] 5 = true ∧ offeredB (bodyNodes 6) 6 = true ∧
    offeredB (bodyNodes 7) 7 = true ∧ inBody (bodyNodes 6) 0 1 = true ∧ inBody (bodyNodes 7) 0 1 = true := by decide +kernel
theorem hyp_GraphNodes_reads :
    placeableB (graphCore [node 1 0 0 0] [(0, 1)]) 0 (.node 70 0) = true ∧
    (let p := idle.rangeWalks 0 0x100000 64 true false
     let q := p.2.rangeWalks 0 0x260000 64 false true
     p.1.isSome && q.1.isSome && q.2.graphs.isEmpty) = true ∧
    (let c := (graphCore [node 4 0x260000 1 0] [(0, 1)]).setNode 70 0 2
     let p := c.withPeer (.nodeStep 70 0) fun c => c.eventReached 0 0x260000 1
     p.1 == some (some false) && p.2.graphs == c.graphs) = true ∧
    (let c := (graphCore [node 5 0x260000 1 0] [(0, 1)]).setNode 70 0 2
     let p := c.withPeer (.nodeStep 70 0) fun c => (c.eventAdd 0 0x260000 1).swap
     p.1 == some true && p.2.graphs == c.graphs) = true ∧
    ((graphCore (bodyNodes 6) [(0, 1)]).firstPredicate 70 0).1 = some (some false) ∧
    (let c := (graphCore (bodyNodes 7) [(0, 1)]).modG 70 fun x => { x with iters := mdel x.iters 0 }
     let p := c.firstPredicate 70 0
     p.1 == some (some false) && p.2.graphs == c.graphs) = true ∧
    (let c := graphCore (bodyNodes 7) [(0, 2), (1, 3)]
     c.graphAt 0 0 7 2 == some 70 && (childrenOf (bodyNodes 7) 0).all (fun k => (run (bodyNodes 7) [(0, 2), (1, 3)]).st k == 3) &&
       (let p := c.withPeer (.loopPredicateRead 0 0) fun c => c.predicate 70 0
        p.1 == some (some false) && p.2.graphs == c.graphs)) = true ∧
    (let c := graphCore [node 1 0 0 0] [(0, 3)]
     let p := c.writeWord 0 0x240008 ((run [node 1 0 0 0] [(0, 3)]).status true)
     p.1 && p.2.graphs == c.graphs) = true := by decide +kernel

/-! ## The host link -/

def hostCore : Core := { core0 with host := { host0 with access := host0.access ++ [(16 * 0x50, 0xE000000000000000), (16 * 0x50 + 1, 0x7FFFFF0000)] } }
theorem hyp_HostAccesses :
    Memory.wf hostCore.mem = true ∧ hostCore.flips = [] ∧ hostCore.hbmFlips = [] ∧ hostCore.apertureOk 0 (2 ^ 36 - 4) 4 true = true ∧ hostCore.apertureOk 0 (2 ^ 36 - 3) 4 true = false ∧
    barAccess 0 0x100 (barWidth 0x100) = true ∧ barAccess 0 0x104 4 = false ∧ hostCore.power.boot ≠ 0xE0 ∧ (∀ p ∈ hostCore.weaves, p.2.injecting = false) ∧
    (∀ p ∈ [(0x108, 16), (0x1000, 63), (0x60000, 193), (0x301000, 255), (0x310000, 4095), (0x320000, 63), (0x400000, 63)],
      barAccess 0 (p.1 + 8 * p.2) (barWidth (p.1 + 8 * p.2)) = true) ∧ barAccess 0 (0x410008 + 256 * 639) (barWidth (0x410008 + 256 * 639)) = true ∧
    (barAccess 1 0x80000 8 = true ∧ (1 : Nat) ≠ 0 ∧ 0x80000 ≤ 0x80000) := by decide +kernel
/-- R435, R436: MODID takes its twelve bits, and 0xFFF is not taken. -/
theorem test_modid : [0x1005, 0x0FFF].map (fun v => match Machine.exec (.registerWrite 0 0x100 8 v) (under hostCore) with
    | .next t => t.core.host.modid
    | _ => 9999) = [5, 0] := by decide +kernel
def coll0 : Collective := ⟨0, 0x40, [0x0000000700000001, 0x100, 8, 0, 0, 0, 0, 0], [], [], true, false⟩
def ownCore (f : Core → Core) : Core := f { queueWith id with sectors := [(0, { Sector.reset with owner := some 0, kept := true })] }
theorem hyp_HostQueues :
    (let c := queueWith id
     c.ownsQueue 0 0 = true ∧ c.ownsQueue 1 0 = false ∧ (c.queue 0).ringSize < ({ c.queue 0 with tail := 17 } : Queue).fill ∧
       ({ c.queue 0 with tail := 16 } : Queue).fill ≤ (c.queue 0).ringSize ∧ c.serves 0 = true ∧ (c.queue 0).reading = false ∧
       (c.queue 0).cmds.all (·.began) = true ∧ c.sees 0 0 = true ∧ c.sees 1 0 = false ∧ c.ctxBusy 0 = false ∧ core0.ctxBusy 0 = true) ∧
    (ownCore id).owns 0 0 = true ∧ ((queueWith fun q => { q with halted := true }).queue 0).halted = true ∧
    (let runs (c : Core) := c.launches.any fun (_, l) => l.ctx == 0 && l.started.isSome && !l.ended && l.savedTo.isNone
     runs idle = false ∧ runs core0 = true ∧ (idle.ctx 0).damPend = []) ∧
    (idle.sees 0 0 = true ∧ (0x8000000000000000 : Word).toNat / 2 ^ 63 = 1 ∧ (7 + 0 * 256 : Word).toNat / 2 ^ 24 % 256 = 0) := by decide +kernel
def groupContext : Context := { context0 with group := 0x8000000000000001, members := [(0, 5), (1, 6)], collNo := 0 }
theorem hyp_HostQueues_cancel : (let c := { idle with contexts := [(0, groupContext)], collectives := [(1, coll0)] }
    c.collectives = [(1, coll0)] ∧ 1 / 65536 = 0 ∧ c.groupSize 0 = some 2 ∧ coll0.started = true ∧ coll0.exchanged ((c.groupSize 0).getD 0) = false) := by decide +kernel
/-- Alapavor's ranges admit the staged image. Whether an image is signed, and its version, are opaque. -/
def staged : Core := { core0 with host := { host0 with
  access := [(16 * 0x42, 0xE000000000000000), (16 * 0x42 + 1, 0x7FFFFF0000)], updAddr := 0x100000, updLen := 64 } }
theorem hyp_HostServices : HostLink.reset.updState ≠ 1 ∧ HostLink.reset.updState ≠ 3 ∧ ({ HostLink.reset with updState := 2 }).updState = 2 ∧
    ({ HostLink.reset with updState := 3 }).updState = 3 ∧ ({ weave0 with ldh := .asked }).ldh = .asked ∧
    (2 ^ 26 < (0x4000001 : Word).toNat ∧ ¬ 2 ^ 26 < staged.host.updLen.toNat) ∧ staged.admits 0x42 (0x100000 / 65536 * 65536) 64 false = true ∧
    core0.admits 0x42 (0x100000 / 65536 * 65536) 64 false = false := by decide +kernel

/-! ## The fabric -/

/-- Port 3 is up and enabled; packets of module 5 with tag 0 act as context 0, which holds sector 0 in a group of two. -/
def link0 : Link := { Link.reset with up := true, en := true }
def fabric : Core := { core0 with
  links := [(3, link0)], contexts := [(0, groupContext)]
  host := { host0 with receive := [(0, 0x8000050000000000)], routes := [(5, 8), (6, 8)] }
  sectors := [(0, { Sector.reset with owner := some 0 })] }
def packet (kind addr op : Nat) (ws : List Word) : Flit :=
  sealFlit ⟨0, BitVec.ofNat 4 kind, 5, BitVec.ofNat 2 (kindVc kind), 0, BitVec.ofNat 44 addr, BitVec.ofNat 4 op, BitVec.ofNat 5 ws.length, 0, 0, ws, 0⟩
theorem crc16Bits_lt (n r : Nat) : crc16Bits (n + 1) r < 65536 := by
  induction n generalizing r with
  | zero =>
    simp only [crc16Bits]
    split
    · exact Nat.xor_lt_two_pow (n := 16) (Nat.mod_lt _ (by decide)) (by decide)
    · exact Nat.mod_lt _ (by decide)
  | succ n ih => exact ih _
theorem crc16_lt (bs : List Nat) : crc16 bs < 65536 := by
  suffices h : ∀ r, r < 65536 → bs.foldl (fun r b => crc16Bits 8 (r ^^^ (b * 256))) r < 65536 from h _ (by decide)
  induction bs with
  | nil => exact fun r h => h
  | cons b bs ih => exact fun r _ => ih _ (crc16Bits_lt 7 _)
/-- A sealed flit carries its CRC; with another one it does not. -/
theorem sealed_crc (f : Flit) : flitCrc (sealFlit f) = (sealFlit f).crc.toNat := by
  have h : flitCrc (sealFlit f) = flitCrc f := rfl
  rw [h]
  exact (Nat.mod_eq_of_lt (crc16_lt _)).symm
theorem spoiled_crc (f : Flit) : flitCrc { sealFlit f with crc := (sealFlit f).crc + 1 } ≠ ((sealFlit f).crc + 1).toNat := by
  have h : flitCrc { sealFlit f with crc := (sealFlit f).crc + 1 } = flitCrc (sealFlit f) := rfl
  rw [h, sealed_crc]
  intro e
  have := BitVec.eq_of_toNat_eq e
  bv_omega
/-- What is left to see of a packet: kind, length, sequence, receiver. -/
def arrivesAs (c : Core) (ctx : Option Nat) (f : Flit) : Bool :=
  f.nw.toNat ≤ 30 && f.rsv == 0 && f.kind != 0 && f.seq.toNat == 0 &&
    ((c.modLink 3 fun l => { l with expect := (l.expect + 1) % 256 }).dueCredit 3 f.vc.toNat).receiver f == ctx
def arrives (f : Flit) : Bool := arrivesAs fabric (some 0) f
theorem takenAs {c : Core} {ctx : Option Nat} {f : Flit} (hl : c.link 3 = link0) (h : arrivesAs c ctx (sealFlit f) = true) :
    ∃ d, c.takeFlit 3 (sealFlit f) = some d ∧ (sealFlit f).nw.toNat ≤ 30 ∧ (sealFlit f).rsv = 0 ∧ d.receiver (sealFlit f) = ctx := by
  simp only [arrivesAs, Bool.and_eq_true, decide_eq_true_eq, beq_iff_eq, bne_iff_ne] at h
  obtain ⟨⟨⟨⟨hn, hv⟩, hk⟩, hs⟩, hr⟩ := h
  refine ⟨_, ?_, hn, hv, hr⟩
  unfold Core.takeFlit
  rw [hl, sealed_crc]
  simp only [link0, Link.reset, hs]
  simp
  exact fun e => absurd e hk
theorem taken {f : Flit} (h : arrives (sealFlit f) = true) : ∃ c, Taken (under fabric) 3 (sealFlit f) c 0 := by
  obtain ⟨c, h1, h2, h3, h4⟩ := takenAs (by decide +kernel) h
  exact ⟨c, h1, h2, h3, h4, by decide +kernel⟩
/-- A packet of a module that the receive table does not name. -/
theorem hyp_PacketsAct_unnamed : ∃ c, fabric.takeFlit 3 (sealFlit { packet 1 0x40 0 [7] with src := 9 }) = some c ∧
    (sealFlit { packet 1 0x40 0 [7] with src := 9 }).nw.toNat ≤ 30 ∧ (sealFlit { packet 1 0x40 0 [7] with src := 9 }).rsv = 0 ∧
    c.receiver (sealFlit { packet 1 0x40 0 [7] with src := 9 }) = none := takenAs (by decide +kernel) (by decide +kernel)
theorem hyp_FlitsAreTakenInOrder :
    ({ link0 with en := false }).en = false ∧
    (link0.up = true ∧ link0.en = true ∧ (packet 1 0x40 0 [7]).kind ≠ 0 ∧ (packet 1 0x40 0 [7]).seq.toNat = (fabric.link 3).expect) ∧
    ({ packet 1 0x40 0 [7] with seq := 1 } : Flit).seq.toNat ≠ (fabric.link 3).expect ∧
    (8 ≤ ({ link0 with due := [7, 0, 0] }).due.getD 0 0 + 1 ∧ 0 < link0.due.length) := by decide +kernel
/-- PacketsAct: writes of HBM and of a store's last row, a signal, a reduction, reads, a bill. -/
theorem hyp_PacketsAct_taken :
    (∃ c, Taken (under fabric) 3 (packet 1 0x40 0 [7]) c 0) ∧ (∃ c, Taken (under fabric) 3 (packet 1 (2 ^ 40 + 0x3FFFF8) 0 [7]) c 0) ∧
    (∃ c, Taken (under fabric) 3 (packet 5 (2 ^ 41 + 8 * 7) 0 [1]) c 0) ∧ (∃ c, Taken (under fabric) 3 (packet 4 (3 * 2 ^ 40 + 8) 9 [1]) c 0) ∧
    (∃ c, Taken (under fabric) 3 (packet 2 0x20000 0 [0]) c 0) ∧ (∃ c, Taken (under fabric) 3 (packet 3 0x40 0 [7]) c 0) ∧
    ∃ c, Taken (under fabric) 3 (packet 6 0 7 [9]) c 0 :=
  ⟨taken (by decide +kernel), taken (by decide +kernel), taken (by decide +kernel), taken (by decide +kernel), taken (by decide +kernel), taken (by decide +kernel), taken (by decide +kernel)⟩
theorem hyp_PacketsAct :
    (fabric.admits 0 0x40 8 true = true ∧ fabric.admits 1 0x40 8 true = false ∧ fabric.owns 0 0 = true ∧ fabric.owns 0 1 = false ∧
      regionOk (2 ^ 41 + 8 * 7) = true ∧ (2 ^ 40 + 0x3FFFF8) % 2 ^ 22 + 8 ≤ 2 ^ 22) ∧
    (let p := fabric.regionRead 0 0x20000 1 Core.memByte
     let q := fabric.regionRead 0 (2 ^ 39) 1 Core.memByte
     p.1 = some [63] ∧ (p.2.sendPacket 0 5 3 0 0x20000 0 1 [63]).2 = true ∧ q.1 = none ∧ (q.2.sendPacket 0 5 3 0 (2 ^ 39) 1 0 []).2 = true ∧
       fabric.flips = [] ∧ (∀ p ∈ fabric.weaves, p.2.injecting = false) ∧ 2 ^ 39 / 2 ^ 40 % 16 = 0 ∧
       (fabric.regionRead 0 (2 ^ 40 + 2 ^ 22) 1 Core.memByte).1 = none ∧ (2 ^ 40 + 2 ^ 22) / 2 ^ 40 % 16 = 1 ∧ fabric.owns 0 1 = false) ∧
    ((List.range 64).find? fun i => fabric.ctxValid i && fabric.tagOf i == 0) = some 0 ∧
    (let r : PeerRead := ⟨80, .ldh 0, 3, 0x40, 5, 0x40, 1, none, false, 900⟩
     r.src = .ldh 0 ∧ r.dst = (packet 3 0x40 0 [7]).src.toNat ∧ r.addr = (packet 3 0x40 0 [7]).addr.toNat ∧ r.data = none ∧
       (packet 3 0x40 0 [7]).op = 0 ∧ (packet 3 0x40 1 []).op ≠ 0) := by decide +kernel
/-- The CRC of each packet is good by sealed_crc. -/
def sent0 : Nat × Flit := (0, packet 1 0x40 0 [7])
theorem hyp_LinksAndBills :
    (let f := packet 0 0 0 [0x100]
     f.kind = 0 ∧ f.nw.toNat ≤ 30 ∧ link0.sendQ = [] ∧ sent0.2.seq.toNat = 0x100 % 256) ∧
    ({ link0 with due := [8, 0, 0] }).due.getD 0 0 ≠ 0 ∧ link0.due.getD 0 0 = 0 ∧ link0.dead = false ∧ ({ link0 with dead := true }).dead = true ∧
    link0.unacked ++ link0.sendQ = [] ∧
    (let c := { fabric with links := [(3, { link0 with unacked := [(0, { packet 1 0x40 0 [7] with dst := 5 })] }), (4, link0)],
                            host := { fabric.host with routes := [(5, 0x18)] } }
     let d := (c.modLink 3 fun l => { l with up := false, dead := true, unacked := [], sendQ := [] }).logEntry 0xFFFFFFFF 12 0 0 0 0
     d.flowPort 0 5 (flowTarget 0x40) = some 4) ∧
    (mget [(5 * 65536, 999)] (5 * 65536) 0 < 1000 ∧ 1000 ≤ mget [(5 * 65536, 1000)] (5 * 65536) 0) := by decide +kernel
/-- CollectivesRun: an all-reduce of one row of INT64 sums between two members. -/
def reduceDesc : List Word := [0x0000000700010091, 0x100, 8, 0, 0, 0, 0, 0]
def collCore : Core := { fabric with mem := putWords pages0 (storeFlat 0 0x40) reduceDesc }
def full : Collective := ⟨0, 0x40, reduceDesc, [(0, reduceDesc), (1, reduceDesc)], [(0, [3]), (1, [4])], true, false⟩
theorem hyp_CollectivesRun :
    ((collCore.sector 0).owner = some 0 ∧ collCore.coll? 1 = none ∧ 2 ≤ (collCore.groupSize 0).getD 0 ∧
      ((List.range 8).map fun i => collCore.row (storeFlat 0 0x40 + 8 * i)) = reduceDesc ∧ collOk reduceDesc 2 = true ∧
      (collCore.sendAll 0 0 0 (reduceDesc ++ [1])).2 = true ∧ collOk (reduceDesc.set 2 4) 2 = false ∧ core0.groupSize 0 = none) ∧
    (arrives (packet 6 (4 * 2 ^ 40) 0 (reduceDesc ++ [1])) = true ∧ arrives (packet 6 (4 * 2 ^ 40) 1 [1, 4]) = true ∧
      ((List.range 2).find? fun r => fabric.member 0 r == 5) = some 0 ∧ ({ full with started := false }).started = false) ∧
    (full.exchanged 2 = true ∧ full.agrees 2 1 = true ∧ full.complete 2 = true ∧ collKind reduceDesc = 1 ∧
      ({ fabric with collectives := [(1, full)] }).collectives = [(1, full)] ∧ Memory.wf fabric.mem = true ∧ fabric.flips = []) := by decide +kernel
theorem test_all_reduce : (match Machine.exec (.collectiveCompletion 0) (under { collCore with collectives := [(1, full)] }) with
    | .next t => t.core.row (storeFlat 0 0x100) == 7 && (t.core.sem 0 7).count == 1
    | _ => false) = true := by decide +kernel

/-! ## Supply, clocks, heat -/

def hot (f : Power → Power) : Core := { core0 with power := f core0.power }
theorem hyp_ClocksAndSupply :
    (core0.governs = true ∧ core0.power.hotTrip = false ∧ core0.clockStep ≤ 4 ∧ (hot fun p => { p with shut := true }).governs = false ∧
      (hot fun p => { p with hotTrip := true }).power.hotTrip = true ∧ 3 < core0.clockStep) ∧
    (let c := hot fun p => { p with pendStep := some 4 }
     c.power.pendStep = some 4 ∧ c.power.tripNow = false ∧ c.power.safePend = false ∧ c.power.forced = none ∧ c.clockSafe = true ∧
       c.railHolds 4 = true ∧ c.railHolds 0 = false) ∧
    (core0.power.safe = false ∧ (hot fun p => { p with pendStep := some 0 }).railHolds 0 = false) ∧
    ((hot fun p => { p with watchdog := some 0 }).power.watchdog = some 0 ∧ core0.power.watchdog = none ∧
      0 + 50 * Config.msUnits ≤ ({ core0 with wall := 50 * Config.msUnits }).wall ∧ core0.wall < 0 + 50 * Config.msUnits) ∧
    core0.power.stretched ≠ some core0.tick ∧ (hot fun p => { p with stretched := some 0 }).power.stretched = some (hot id).tick := by decide +kernel
theorem hyp_HeatShutdownAndReset :
    (core0.power.stepAt = 0 ∧ ¬ (1 + 10 * Config.msUnits ≤ core0.wall) ∧ core0.power.hotTrip = false ∧ core0.power.shut = false) ∧
    (∃ x ∈ ({ core0 with sectors := [(0, { Sector.reset with temp := 106 })] }).sectors, 105 < x.2.temp) ∧
    (core0.power.lowering = false ∧ (hot fun p => { p with lowering := true }).power.lowering = true ∧ (hot fun p => { p with stepAt := 1 }).power.stepAt ≠ 0) := by
  refine ⟨by decide +kernel, ⟨(0, { Sector.reset with temp := 106 }), by simp, by decide⟩, by decide +kernel⟩
/-- A boot at a stage, with two images and a record. -/
def boot0 : BootInputs := ⟨[], none, true, true, true⟩
def booting (stage : Nat) (b : BootInputs) (im0 im1 : FirmwareImage) (r : ConfigRecord) : Core := { core0 with
  power := { Power.reset with boot := stage, bootIn := some b }, host := { host0 with images := [im0, im1], record := r, prevVersion := 2 } }
theorem hyp_HeatShutdownAndReset_boot :
    let im : FirmwareImage := ⟨[], true, 3⟩
    let bad : FirmwareImage := ⟨[], false, 3⟩
    let rec_ : ConfigRecord := { ConfigRecord.reset with signed := true, version := 2, minSecurity := 3 }
    (∀ n ∈ [0, 1, 2, 3], (booting n boot0 im im rec_).power.boot = n ∧ (booting n boot0 im im rec_).power.bootIn = some boot0) ∧
    ((booting 0 boot0 im bad rec_).host.imageOk false = true ∧ (booting 0 boot0 bad im rec_).host.imageOk false = false ∧
      (booting 0 boot0 bad im rec_).host.imageOk true = true ∧ (booting 0 boot0 bad bad rec_).host.imageOk true = false) ∧
    (rec_.signed = true ∧ ¬ rec_.version < 2 ∧ ({ rec_ with version := 1 }).version < 2 ∧ ({ rec_ with signed := false }).signed = false) ∧
    (boot0.pufOk = true ∧ boot0.hbmOk = true ∧ ({ boot0 with pufOk := false }).pufOk = false ∧ ({ boot0 with hbmOk := false }).hbmOk = false) := by
  decide +kernel

/-! ## Steps -/

def land0 : Entry := ⟨.cycle 1000, bLand, 40, .resultLanding 0 40 0⟩
def issue0 : Entry := ⟨.cycle 1000, bIssue, 0, .issue 0⟩
/-- `thalt`'s word is no bundle; the bank holds `nop`-free code: `addi s4, s4, 1` at the PC. -/
def stepCore : Core := { core0 with
  weaves := [(0, { weave0 with ckpt := some checkpoint0, fixedAt := some 1000 })], mem := memWrite pages0 (bankFlat 0 true 0) 4 0x84042001
  agenda := [issue0] }
theorem hyp_StepsRunTheDecodedInstruction :
    (({ core0 with agenda := [land0] }).nextRow = none ∧ ({ core0 with agenda := [land0] }).firstDue [land0] = some land0 ∧
      land0.act.row = some (.resultLanding 0 40 0)) ∧
    ({ core0 with inbox := [(1000, .watchdogExpiry)] }).nextRow = some (1000, .watchdogExpiry) ∧
    core0.firstDue core0.agenda = none ∧
    (let s : State := ⟨core0, none⟩
     s.core.cur = 0 ∧ s.wv.slipping = none ∧ (s.core.weave 0).redun = false ∧ s.core.iss.reaches = .no ∧ s.core.iss.done = false ∧ s.core.iss.skip = none ∧
       s.wv.dbg.step = false ∧ (s.core.weave 0).loops = []) := by decide +kernel
noncomputable def stepSyls : List Syl := syllables (fun p => ((stepCore.weave 0).port p).kind) (stepCore.bundle 0)
/-- The weave is timed and its bundle is a marked `gap`, then `addi s4, s4, 1`: as the only participant, it marks. -/
def markCore : Core := { stepCore with
  weaves := [(0, { weave0 with ckpt := some checkpoint0, fixedAt := some 1000, mode := 1 })]
  mem := memWrite (memWrite pages0 (bankFlat 0 true 0) 4 0x70100008) (bankFlat 0 true 1) 4 0x84042001, agenda := [] }
noncomputable def markSyls : List Syl := syllables (fun p => ((markCore.weave 0).port p).kind) (markCore.bundle 0)
theorem hyp_StepsRunTheDecodedInstruction_mark_issues : Issues markCore 0 markSyls := by
  refine ⟨by decide +kernel, by decide +kernel, by decide +kernel, by decide +kernel, by decide +kernel, ?_,
    by decide +kernel, ?_, by decide +kernel, fun row => ⟨rfl, Laws.flagOf_of_none rfl (by decide +kernel) row⟩, rfl, by decide +kernel⟩
  · rfl
  · rfl
theorem hyp_StepsRunTheDecodedInstruction_mark : ¬ NoMark markCore 0 markSyls ∧
    (match runBundle Machine.exec (markCore.begin! 0 (markCore.bundle 0).length false) markSyls with
      | .next t => t.base.isSome && (t.commit 0 markSyls true).allMark Machine.exec 0
      | _ => false) = true := by
  unfold NoMark
  decide +kernel
theorem hyp_StepsRunTheDecodedInstruction_issue : NoMark stepCore 0 stepSyls ∧ DueFirst ⟨stepCore, none⟩ issue0 ∧
    Issues { stepCore with agenda := [] } 0 stepSyls := by
  refine ⟨.inl (by decide +kernel), ⟨rfl, by decide +kernel⟩, by decide +kernel, by decide +kernel, by decide +kernel, by decide +kernel, by decide +kernel, ?_,
    by decide +kernel, ?_, by decide +kernel, fun row => ⟨rfl, Laws.flagOf_of_none rfl (by decide +kernel) row⟩, rfl, by decide +kernel⟩
  · rfl
  · rfl
/-- A whole step: the bundle at the PC issues, and its sum lands in the next cycle. -/
theorem test_step : (match Machine.step ⟨stepCore, none⟩ with
    | .next t => (t.core.weave 0).sval 1001 4 == 1 && (t.core.weave 0).pc == 1
    | _ => false) = true := by decide +kernel
def txsStep : Core := { (txsState id).core with agenda := [⟨.cycle 1000, bEngine, 36, .txs 0 0⟩], mem := memWrite pages0 (txsFlat 0 0 0) 4 0x58000000 }
theorem hyp_StepsRunTheDecodedInstruction_txs : txsStep.goJob 0 0 = some goJob0 ∧ txsStep.stopNext (txsEng 0 0) = false ∧
    txsStep.poison.contains (rowAddr (txsFlat 0 0 (txsStep.txsOf 0 0).pc)) = false ∧
    (txsStep.jobRead (.pool 0 2 0) goJob0 [rowAddr (txsFlat 0 0 (txsStep.txsOf 0 0).pc)]).2 = true ∧
    decodeTxs (memRead txsStep.mem (txsFlat 0 0 (txsStep.txsOf 0 0).pc) 4) = some .thalt ∧ decodeTxs 0x7FFFFFFF = none := by decide +kernel
theorem hyp_EncodingsDecodeBack : (Instr.mxMm 0 0 1 false).wf = true ∧ encode (.mxMm 0 0 1 false) = some 0x60008308 ∧
    encodeTxs (.movt 1 0 1) = some 0x29080000 ∧ encode .bswap ≠ none := by decide +kernel
/-- MemoryStaysCanonical: a state that meets the invariant and answers a next state. -/
theorem hyp_MemoryStaysCanonical : Inv ⟨stepCore, none⟩ ∧ ∃ t, Machine.step ⟨stepCore, none⟩ = .next t := by
  refine ⟨by unfold Inv; decide +kernel, ?_⟩
  have h := test_step
  split at h
  · exact ⟨_, by assumption⟩
  · simp at h

end Sys2Proof.Tests
end

section
/-! SUPPORT. A step runs the decoded instruction (O56). First what the rows of a frame and the late values of an atomic leave of a weave's
mode, then the way of a bundle that issues, then what its commit leaves, then the step itself. -/
namespace Sys2Proof.Proofs
open Sys2Proof.Machine Sys2Proof.Claims Sys2Proof.Laws

/-! ## What leaves the mode of every weave -/

/-- Every weave has the mode of before. -/
def KeepsModes (c d : Core) : Prop := ∀ v, (d.weave v).mode = (c.weave v).mode

theorem KeepsModes.refl (c : Core) : KeepsModes c c := fun _ => rfl
theorem KeepsModes.trans {c d e : Core} (h : KeepsModes c d) (h' : KeepsModes d e) : KeepsModes c e :=
  fun v => (h' v).trans (h v)
theorem KeepsModes.of_weaves {c d : Core} (h : d.weaves = c.weaves) : KeepsModes c d := fun v => by rw [weave_congr h v]
theorem KeepsModes.modW (c : Core) (w : Nat) {f : Weave → Weave} (h : ∀ x, (f x).mode = x.mode) : KeepsModes c (c.modW w f) := by
  intro v
  by_cases hv : v = w
  · subst hv; rw [modW_weave_same, h]
  · rw [modW_weave_other _ _ hv]
theorem KeepsModes.foldl {α : Type} {f : Core → α → Core} (h : ∀ c x, KeepsModes c (f c x)) (xs : List α) :
    ∀ c, KeepsModes c (xs.foldl f c) := by
  induction xs with
  | nil => exact KeepsModes.refl
  | cons x xs ih => exact fun c => (h c x).trans (ih _)

theorem mget?_map_value {α : Type} (f : Nat × α → α) (m : Map α) (k : Nat) :
    mget? (m.map fun p => (p.1, f p)) k = (mget? m k).map fun x => f (k, x) := by
  induction m with
  | nil => rfl
  | cons p m ih =>
    obtain ⟨j, x⟩ := p
    by_cases h : j = k
    · subst h; simp [mget?]
    · simpa [mget?, h] using ih

theorem xorRow_weaves (c : Core) (row : Nat) (x : Word) : (c.xorRow row x).weaves = c.weaves := by
  unfold Core.xorRow
  split <;> rfl
theorem putFlips_weaves (c : Core) (fs ps : List Flip) (skip : Option Nat) : (c.putFlips fs ps skip).weaves = c.weaves := by
  have key : ∀ (rows : List Nat) (f : Nat → Word) (k : Core), (rows.foldl (fun k r => k.xorRow r (f r)) k).weaves = k.weaves := by
    intro rows f
    induction rows with
    | nil => exact fun _ => rfl
    | cons r rows ih => exact fun k => (ih _).trans (xorRow_weaves k r (f r))
  exact key _ _ _

/-- A write of a row takes entries out of refill logs and changes no mode (R328). -/
theorem writeRow_keepsModes (c : Core) (addr : Nat) (val mask : Word) (job : Option Nat) : KeepsModes c (c.writeRow addr val mask job) := by
  have refills : ∀ (d : Core) (q : RefillEntry → Bool), KeepsModes d { d with weaves := d.weaves.map fun (w, x) =>
      if x.refill.isEmpty then (w, x) else (w, { x with refill := x.refill.filter q }) } := by
    intro d q v
    have hmap : (d.weaves.map fun (w, x) => if x.refill.isEmpty then (w, x) else (w, { x with refill := x.refill.filter q })) =
        d.weaves.map fun p => (p.1, if p.2.refill.isEmpty then p.2 else { p.2 with refill := p.2.refill.filter q }) :=
      List.map_congr_left fun ⟨_, x⟩ _ => by cases h : x.refill.isEmpty <;> simp [h]
    simp only [Core.weave, mget, hmap, mget?_map_value]
    cases mget? d.weaves v with
    | none => rfl
    | some x =>
      simp only [Option.map_some, Option.getD_some]
      split <;> rfl
  unfold Core.writeRow
  refine KeepsModes.trans (.of_weaves ?_) (refills _ _)
  dsimp only
  split <;> split <;> simp only [putFlips_weaves]
theorem writeShared_keepsModes (c : Core) (addr : Nat) (val mask : Word) (scope unit writer : Nat) (job : Option Nat) :
    KeepsModes c (c.writeShared addr val mask scope unit writer job) :=
  (writeRow_keepsModes c (rowAddr addr) val mask job).trans (.of_weaves rfl)
theorem ownView_keepsModes (c : Core) (w addr : Nat) : KeepsModes c (c.ownView w addr) := by
  unfold Core.ownView
  split
  · exact .refl c
  · split
    · exact .refl c
    · exact .modW c w fun _ => rfl
theorem frameRow_keepsModes (c : Core) (w addr : Nat) (x : Word) : KeepsModes c (c.frameRow w addr x) :=
  (writeShared_keepsModes c addr x allOnes 1 (secOf w) 0 none).trans (ownView_keepsModes _ w addr)
theorem putLane_keepsModes (c : Core) (w rid lane : Nat) (x : LaneVal) : KeepsModes c (c.putLane w rid lane x) := by
  unfold Core.putLane
  extract_lets wv c₁ c₂
  have h₁ : KeepsModes c c₁ := by
    unfold c₁
    split
    · exact .of_weaves rfl
    · exact .refl c
  have h₂ : KeepsModes c c₂ := h₁.trans (.modW c₁ w fun _ => rfl)
  split
  · exact h₂
  · extract_lets at_ c₃
    have h₃ : KeepsModes c c₃ := by
      unfold c₃
      split
      · exact h₂
      · exact h₂.trans (frameRow_keepsModes _ _ _ _)
    split
    · exact h₃.trans (frameRow_keepsModes _ _ _ _)
    · exact h₃
theorem noteFix_keepsModes (c : Core) (w rid lane : Nat) (x : Word) (row : Option (Nat × Word × Word)) :
    KeepsModes c (c.noteFix w rid lane x row) := by
  unfold Core.noteFix
  extract_lets
  split
  · exact .of_weaves rfl
  · exact .refl c
theorem produce_keepsModes (c : Core) (w rid lane : Nat) (x : Word) (row : Option (Nat × Word × Word)) :
    KeepsModes c (c.produce w rid lane x row) :=
  .foldl (fun _ _ => (noteFix_keepsModes _ _ _ _ _ _).trans (putLane_keepsModes _ _ _ _ _)) _ c
/-- The old values that an issue resolves go to results in flight and change no mode (R203; log 13). -/
theorem resolveAtomics_keepsModes (c : Core) (w : Nat) : KeepsModes c (c.resolveAtomics w) := by
  refine .foldl (fun d k => ?_) _ c
  split
  · split
    · exact .foldl (fun _ _ => produce_keepsModes _ _ _ _ _ _) _ d
    · exact .refl d
  · exact .refl d
theorem resolveAtomics_timed (c : Core) (w : Nat) : ((c.resolveAtomics w).weave w).timed = (c.weave w).timed := by
  simp only [Weave.timed, resolveAtomics_keepsModes c w w]

/-! ## The issue of a bundle -/

/-- The slot of the bundle's phase mark, where the weave's launch is timed (R25). -/
def bundleMark (c : Core) (w : Nat) (xs : List Syl) : Option Nat :=
  if (c.weave w).timed && (c.launchOf w).isSome then markSlot xs else none
theorem noMark_iff (c : Core) (w : Nat) (xs : List Syl) : NoMark c w xs ↔ bundleMark c w xs = none := by
  unfold NoMark bundleMark
  cases (c.weave w).timed <;> cases c.launchOf w <;> simp

/-- Rows without poison and flags are read without effect (R372, R399). -/
theorem readRows_clean {c : Core} (h : ∀ row, c.poison.contains row = false ∧ c.flagOf row = none) (w : Nat) (rows : List Nat) (X : Nat) :
    c.readRows w rows X = c := by
  unfold Core.readRows
  induction rows with
  | nil => rfl
  | cons r rows ih =>
    obtain ⟨hp, hf⟩ := h r
    rw [List.foldl_cons, if_neg (by rw [hp]; exact Bool.false_ne_true), hf]
    exact ih

theorem leadField_none {ws : List Nat} {k : Nat} (h : ws.any (isLead k) = false) (n : Nat) : leadField k n ws = none := by
  simpa [leadField] using h
theorem segmentBefore_none {ws : List Nat} (h : ws.any (isLead 2) = false) (g : Segment) (timed : Bool) (obs : Nat) :
    segmentBefore g timed ws obs = none := by
  rw [segmentBefore, leadField_none h]
theorem segmentAtHalt_none {ws : List Nat} (h : ws.any (isLead 2) = false) {g : Segment} (hg : g.isOpen = false) (timed : Bool)
    (now obs pc : Nat) : segmentAtHalt g timed ws now obs pc = none := by
  simp [segmentAtHalt, leadField_none h, hg]
/-- Where no segment is open or opened, none differs (R24). -/
theorem segmentFaults_nil {c : Core} {w : Nat} {xs : List Syl} (h : Issues c w xs) (halts : Bool) :
    c.segmentFaults w (c.bundle w) halts = [] := by
  obtain ⟨-, -, -, -, -, -, -, -, -, -, -, -, hopen, hseg, hpair, -, -⟩ := h
  have other : (c.hasPartner w && (c.weave (w + 1)).segChecks) = true → (c.bundle (w + 1)).any (isLead 2) = false := by
    intro hp
    rw [Core.hasPartner, Bool.and_eq_true, Bool.and_eq_true] at hp
    exact hpair hp.1.1
  simp only [Core.segmentFaults, segmentBefore_none hseg, segmentAtHalt_none hseg hopen]
  by_cases hp : (c.hasPartner w && (c.weave (w + 1)).segChecks) = true
  · simp [segmentBefore_none (other hp)]
  · simp [hp]

/-- The bundle of a weave whose boundary is clear is fetched and runs. -/
theorem issueWith_of_issues {c : Core} {w : Nat} {xs : List Syl} (h : Issues c w xs) (ex : Exec) (ok : Core → Nat → Bool) :
    c.issueWith ex ok w false = c.issueBundle ex ok w false := by
  obtain ⟨hrun, hfrozen, hhalted, hpartner, hdue, htrap, hbreak, hevent, hwait, hclean, -⟩ := h
  have hlate : ¬ c.now < c.dueIssue w := by omega
  have hfetch : c.fetchIssue ex ok w false = c.issueBundle ex ok w false := by
    simp [Core.fetchIssue, hwait, Core.fetchBundle, readRows_clean hclean]
  simp [Core.issueWith, hrun, hfrozen, hhalted, hpartner, hlate, htrap, hbreak, hevent, hfetch]

/-- What the issue makes of a bundle whose syllables have run: it takes effect, as a phase mark too where every participant marks, or
the machine is as its trap has left it (R25, R31). -/
theorem issueBundle_of_issues {c : Core} {w : Nat} {xs : List Syl} (h : Issues c w xs) (ex : Exec) (ok : Core → Nat → Bool) {t : State}
    (hrun : runBundle ex ((c.resolveAtomics w).begin! w (c.bundle w).length false) xs = .next t) :
    (t.base.isSome = true → NoMark (c.resolveAtomics w) w xs →
      c.issueBundle ex ok w false = .next { core := t.commit w xs false, base := none }) ∧
    (t.base.isSome = true → ¬ NoMark (c.resolveAtomics w) w xs → ok (t.commit w xs true) w = true →
      c.issueBundle ex ok w false = .next { core := t.commit w xs true, base := none }) ∧
    (t.base = none → t.core.iss.held = none → NoMark (c.resolveAtomics w) w xs →
      c.issueBundle ex ok w false = .next { core := t.core, base := none }) := by
  have hfaults := segmentFaults_nil h
  obtain ⟨-, -, -, -, -, -, -, -, -, -, hxs, hstatic, hopen, -, -, hckpt, -⟩ := h
  rw [← Option.not_isNone, Bool.not_eq_true'] at hckpt
  have hmark : (if (c.weave w).timed && ((c.resolveAtomics w).launchOf w).isSome then markSlot xs else none) =
      bundleMark (c.resolveAtomics w) w xs := by rw [bundleMark, resolveAtomics_timed]
  rw [Core.issueBundle, ← hxs, noMark_iff]
  simp only [hstatic, hopen, hfaults, hckpt, hmark, hrun, Bool.and_false, Bool.false_and, Bool.false_eq_true, if_false]
  refine ⟨fun ht hm => ?_, fun ht hm hok => ?_, fun ht hheld hm => ?_⟩
  · simp [← Option.not_isSome, ht, hm]
  · obtain ⟨slot, hslot⟩ := Option.ne_none_iff_exists'.mp hm
    simp [← Option.not_isSome, ht, hslot, hok]
  · simp [ht, hheld, hm]

/-! ## The commit of a bundle -/

/-- What the issue does to a machine before the PC of weave w moves: of that weave its registers, loops and mode stand, and all of the
other weaves. -/
structure KeepsIssue (w : Nat) (c d : Core) : Prop where
  now : d.now = c.now
  iss : d.iss = c.iss
  mem : d.mem = c.mem
  other : ∀ v, v ≠ w → d.weave v = c.weave v
  s : (d.weave w).s = (c.weave w).s
  loops : (d.weave w).loops = (c.weave w).loops
  mode : (d.weave w).mode = (c.weave w).mode

theorem KeepsIssue.refl (w : Nat) (c : Core) : KeepsIssue w c c := ⟨rfl, rfl, rfl, fun _ _ => rfl, rfl, rfl, rfl⟩
theorem KeepsIssue.trans {w : Nat} {c d e : Core} (h : KeepsIssue w c d) (g : KeepsIssue w d e) : KeepsIssue w c e :=
  ⟨g.now.trans h.now, g.iss.trans h.iss, g.mem.trans h.mem, fun v hv => (g.other v hv).trans (h.other v hv), g.s.trans h.s,
    g.loops.trans h.loops, g.mode.trans h.mode⟩
theorem KeepsIssue.sched (w : Nat) (c : Core) (t b n : Nat) (a : Act) : KeepsIssue w c (c.sched t b n a) :=
  ⟨rfl, rfl, rfl, fun _ _ => rfl, rfl, rfl, rfl⟩
theorem KeepsIssue.modW {w : Nat} (c : Core) {f : Weave → Weave}
    (h : ∀ x, (f x).s = x.s ∧ (f x).loops = x.loops ∧ (f x).mode = x.mode) : KeepsIssue w c (c.modW w f) := by
  obtain ⟨hs, hl, hm⟩ := h (c.weave w)
  exact ⟨rfl, rfl, rfl, fun _ hv => modW_weave_other c f hv, by rw [modW_weave_same, hs], by rw [modW_weave_same, hl],
    by rw [modW_weave_same, hm]⟩
theorem KeepsIssue.foldl {α : Type} {w : Nat} {f : Core → α → Core} (h : ∀ c x, KeepsIssue w c (f c x)) (xs : List α) :
    ∀ c, KeepsIssue w c (xs.foldl f c) := by
  induction xs with
  | nil => exact KeepsIssue.refl w
  | cons x xs ih => exact fun c => (h c x).trans (ih _)

theorem notePlayed_keepsIssue (c : Core) (w : Nat) (at_ : Core) (words : List Nat) : KeepsIssue w c (c.notePlayed w at_ words) :=
  ⟨rfl, rfl, rfl, fun _ _ => rfl, rfl, rfl, rfl⟩
theorem disarm_keepsIssue (c : Core) (w : Nat) : KeepsIssue w c (c.disarm w) := .modW c fun _ => ⟨rfl, rfl, rfl⟩
theorem partnerTime_keepsIssue (c : Core) (w n : Nat) (slip : Bool) : KeepsIssue w c (c.partnerTime w n slip) := by
  unfold Core.partnerTime
  split
  · exact .sched w c _ _ _ _
  · exact .refl w c
theorem laneParity_keepsIssue (c at_ : Core) (w : Nat) (xs : List Syl) : KeepsIssue w c (c.laneParity at_ w xs) := by
  unfold Core.laneParity
  extract_lets wv s c' e lane
  have h : KeepsIssue w c c' := .foldl (fun d p => by
    dsimp only
    split
    · exact .sched w d _ _ _ _
    · exact .refl w d) _ c
  split
  · exact (h.trans (disarm_keepsIssue c' w)).trans (.sched w _ _ _ _ _)
  · exact h
theorem slipped_keeps (x : Weave) (n : Nat) (slip : Bool) :
    (x.slipped n slip).s = x.s ∧ (x.slipped n slip).loops = x.loops ∧ (x.slipped n slip).mode = x.mode := ⟨rfl, rfl, rfl⟩
theorem endSlip_keepsIssue (c : Core) (w : Nat) : KeepsIssue w c (c.endSlip w) := by
  unfold Core.endSlip
  cases (c.weave w).slipping with
  | none => exact .refl w c
  | some t =>
    refine .trans ?_ (partnerTime_keepsIssue _ w _ true)
    exact .modW c fun x => slipped_keeps x (c.now - t) true

/-- The PC after a bundle of a weave without loops: a branch's target, the PC after a loop of count 0, else the next bundle (R116). -/
theorem advance_of_noLoops (c : Core) (w : Nat) (before : List LoopLevel) (hdone : c.iss.done = false) (hloops : (c.weave w).loops = []) :
    ∃ f : Weave → Weave, c.advance w before = c.modW w f ∧ (∀ x, (f x).s = x.s ∧ (f x).mode = x.mode) ∧
      ∀ x, (f x).pc = BitVec.ofNat 14 (c.iss.target.getD (c.iss.skip.getD (c.iss.pc + c.iss.len))) := by
  unfold Core.advance
  extract_lets i wv passed
  rw [if_neg (by simp [i, hdone])]
  cases ht : i.target with
  | some t => exact ⟨_, rfl, fun _ => ⟨rfl, rfl⟩, fun _ => by simp⟩
  | none => exact ⟨_, rfl, fun _ => ⟨rfl, rfl⟩, fun _ => by simp [wv, i, hloops, stepLoops]⟩

@[simp] theorem schedIssue_weave (c : Core) (w t v : Nat) : (c.schedIssue w t).weave v = c.weave v := rfl
@[simp] theorem schedIssue_mem (c : Core) (w t : Nat) : (c.schedIssue w t).mem = c.mem := rfl
theorem schedIssue_mem_agenda (c : Core) (w t : Nat) : ⟨.cycle t, bIssue, w, .issue w⟩ ∈ (c.schedIssue w t).agenda := by
  simp [Core.schedIssue]

/-- The commit of a bundle that reaches nothing, of a weave without partner, loops and debugger's step: the PC moves, the issue is
noted, the next one is in the agenda (R14, R116). -/
theorem commit_moves_on {s : State} {w : Nat} (xs : List Syl) (hredun : (s.core.weave w).redun = false)
    (hreach : s.core.iss.reaches = .no) (hdone : s.core.iss.done = false) (hskip : s.core.iss.skip = none)
    (hstep : s.wv.dbg.step = false) (hloops : (s.core.weave w).loops = []) :
    let c := s.commit w xs false
    (c.weave w).pc = BitVec.ofNat 14 (s.core.iss.target.getD (s.core.iss.pc + s.core.iss.len)) ∧
    (c.weave w).s = (s.core.weave w).s ∧ (c.weave w).lastIssue = some s.now ∧
    ⟨.cycle (s.now + 1), bIssue, w, .issue w⟩ ∈ c.agenda ∧ c.mem = s.core.mem ∧ ∀ v, v ≠ w → c.weave v = s.core.weave v := by
  unfold State.commit
  extract_lets wv0 c₀ i ws c₁ c₂ c₃ pair c₄ c₅ c₆ reach now c₇ c₈ c₉ c
  have h₀ : KeepsIssue w s.core c₀ :=
    ((notePlayed_keepsIssue _ w _ _).trans (laneParity_keepsIssue _ _ w xs)).trans (endSlip_keepsIssue _ w)
  have h₁ : KeepsIssue w s.core c₁ := by
    unfold c₁
    split
    · exact h₀
    · exact h₀.trans (.modW c₀ fun x => ⟨rfl, rfl, rfl⟩)
  have hi : i = s.core.iss := h₀.iss
  obtain ⟨f, hc₂, hf, hpc⟩ := advance_of_noLoops c₁ w wv0.loops (by rw [h₁.iss, hdone]) (by rw [h₁.loops, hloops])
  obtain ⟨hfs, hfm⟩ := hf (c₁.weave w)
  have hnow : c₃.now = s.now := by simp [c₃, c₂, hc₂, h₁.now, State.now]
  have hpair : pair = false := by
    have hmode : (c₃.weave w).mode = (s.core.weave w).mode := by simp [c₃, c₂, hc₂, hfm, h₁.mode]
    simp only [pair, Core.hasPartner, Weave.redun, hmode]
    rw [Weave.redun] at hredun
    rw [hredun, Bool.false_and]
  have hc₈ : c₈ = c₃ := by simp [c₈, c₆, hpair, reach, hi, hreach, Core.reach!]
  have hc : c = c₃.schedIssue w (s.now + 1) := by simp [c, c₉, wv0, hstep, hi, hdone, hc₈, hnow]
  rw [hc]
  refine ⟨?_, ?_, ?_, schedIssue_mem_agenda _ _ _, ?_, fun v hv => ?_⟩
  · simp [c₃, c₂, hc₂, hpc, h₁.iss, hskip]
  · simp [c₃, c₂, hc₂, hfs, h₁.s]
  · simp [c₃, c₂, hc₂, h₁.now, State.now]
  · simp [c₃, c₂, hc₂, h₁.mem]
  · simp [c₃, c₂, hc₂, modW_weave_other _ _ hv, h₁.other v hv]

/-! ## Syllables -/

/-- A bundle's syllables stand at their words' places and decode without the E bit (R78, R81). -/
theorem syllables_getElem? {kinds : Nat → Nat} {ws : List Nat} {n x : Nat} (h : ws[n]? = some x) :
    (syllables kinds ws)[n]? = some ⟨n, x, decodeSyl kinds (x % 2 ^ 31), formOf kinds (x % 2 ^ 31)⟩ := by
  have hn : n < ws.length := (List.getElem?_eq_some_iff.mp h).1
  have hz : (ws.zip (List.range ws.length))[n]? = some (x, n) :=
    List.getElem?_zip_eq_some.mpr ⟨h, List.getElem?_range hn⟩
  rw [syllables, List.getElem?_map, hz]
  rfl

/-- A syllable that decodes runs, and the rest of the bundle follows unless it trapped or held the bundle (R9, R31, R83). -/
theorem runSlots_cons (ex : Exec) (full : Bool) {s t : State} {y : Syl} {i : Instr} (rest : List Syl) (hy : y.dec = .ok i)
    (ht : ex i (s.modIss fun c => { c with slot := y.slot, word := BitVec.ofNat 32 y.word }) = .next t) :
    runSlots ex full (y :: rest) s = if t.base.isNone then .next t else if full && y.bounds then .next (t.hold 6 id)
      else runSlots ex full rest t := by
  simp only [runSlots, hy, ht]

/-! ## A TXS -/

/-- A TXS whose program runs executes what its PC reads, or faults on it (R285, R291). -/
theorem txsFetch_of_read {c c1 : Core} {sec u : Nat} {j : Job} (ex : Exec) (hjob : c.goJob sec u = some j)
    (hstop : c.stopNext (txsEng sec u) = false ∨ (c.txsOf sec u).busyTo < c.now)
    (hpoison : c.poison.contains (rowAddr (txsFlat sec u (c.txsOf sec u).pc)) = false)
    (hread : c.jobRead (txsEng sec u) j [rowAddr (txsFlat sec u (c.txsOf sec u).pc)] = (c1, true)) :
    (∀ i, decodeTxs (memRead c1.mem (txsFlat sec u (c.txsOf sec u).pc) 4) = some i →
      c.txsFetch ex sec u = ex i { core := { c1 with curTxs := (sec, u) }, base := none }) ∧
    (decodeTxs (memRead c1.mem (txsFlat sec u (c.txsOf sec u).pc) 4) = none →
      c.txsFetch ex sec u = .next { core := c1.txsFault sec u 1, base := none }) := by
  have hgo : (c.stopNext (txsEng sec u) && decide (c.now ≤ (c.txsOf sec u).busyTo)) = false := by
    rcases hstop with h | h
    · rw [h, Bool.false_and]
    · rw [decide_eq_false (by omega), Bool.and_false]
  simp only [Core.txsFetch, hjob, hgo, hpoison, hread, Bool.false_eq_true, if_false, Bool.not_true]
  exact ⟨fun i hi => by rw [hi], fun hi => by rw [hi]⟩

/-! ## The step -/

/-- The first entry that is due runs on the machine without it. -/
theorem step_of_dueFirst {s : State} {x : Entry} (h : DueFirst s x) :
    Machine.step s = Core.run { s.core with agenda := s.core.agenda.erase x } x.act := by
  obtain ⟨hrow, hdue⟩ := h
  simp only [Machine.step, hrow, hdue]
theorem step_of_row {s : State} {x : Entry} {i : Instr} (h : DueFirst s x) (hi : x.act.row = some i) :
    Machine.step s = Machine.exec i { core := { s.core with agenda := s.core.agenda.erase x }, base := none } := by
  simp only [step_of_dueFirst h, Core.run, hi]
/-- A row from outside runs where no landing comes before it (log 12), if its operands name what the module has. -/
theorem step_of_nextRow {s : State} {p : Nat × Instr} (h : s.core.nextRow = some p)
    (hband : ∀ x, s.core.firstDue s.core.agenda = some x → bHost ≤ x.band) :
    Machine.step s = if p.2.wf then Machine.exec p.2 { core := { s.core with inbox := s.core.inbox.erase p }, base := none }
      else .fault .illFormed := by
  cases hdue : s.core.firstDue s.core.agenda with
  | none => simp [Machine.step, h, hdue]
  | some x => simp [Machine.step, h, hdue, Nat.not_lt.mpr (hband x hdue)]
theorem step_of_issue {s : State} {x : Entry} {w : Nat} {xs : List Syl} (h : DueFirst s x) (hx : x.act = .issue w)
    (hi : Issues { s.core with agenda := s.core.agenda.erase x } w xs) :
    Machine.step s = Core.issueBundle Machine.exec (Core.allMark Machine.exec) { s.core with agenda := s.core.agenda.erase x } w false := by
  rw [step_of_dueFirst h, hx, ← issueWith_of_issues hi]
  rfl
theorem step_of_txs {s : State} {x : Entry} {sec u : Nat} (h : DueFirst s x) (hx : x.act = .txs sec u) :
    Machine.step s = Core.txsFetch { s.core with agenda := s.core.agenda.erase x } Machine.exec sec u := by
  rw [step_of_dueFirst h, hx]
  rfl
theorem one_le_distance (c : Core) : 1 ≤ c.distance := by
  rw [Core.distance]
  split
  · exact le_refl 1
  · exact Nat.le_max_left _ _
/-- Where nothing is due, time passes (R6). -/
theorem step_idle {s : State} (hrow : s.core.nextRow = none) (hdue : s.core.firstDue s.core.agenda = none) :
    Machine.step s = .next { core := s.core.pass s.core.distance, base := none } := by
  simp only [Machine.step, hrow, hdue]

/-- Settles O56: each way that an entry, a row from outside, a bundle or a TXS takes through `step` ends in `exec` of its instruction,
and the commit of a bundle moves the weave on. -/
theorem stepsRunTheDecodedInstruction : Obligations.StepsRunTheDecodedInstruction := by
  refine ⟨fun s x i => step_of_row, fun s p => step_of_nextRow, ?issue, ?slots, ?syllables, ?commit, ?txs, ?idle⟩
  case issue =>
    intro s x w xs hdue hx c s0 hi t hrun
    rw [step_of_issue hdue hx hi]
    exact issueBundle_of_issues hi _ _ hrun
  case slots =>
    intro s y rest i hy s1 full t ht
    exact runSlots_cons Machine.exec full rest hy ht
  case syllables =>
    intro kinds ws n x h
    rw [syllables_getElem? h]
    exact ⟨rfl, rfl⟩
  case commit =>
    intro s w xs _ _ hredun hreach hdone hskip hstep hloops
    exact commit_moves_on xs hredun hreach hdone hskip hstep hloops
  case txs =>
    intro s x sec u j c1 hdue hx c at_ hjob hstop hpoison hread
    rw [step_of_txs hdue hx]
    exact txsFetch_of_read Machine.exec hjob hstop hpoison hread
  case idle =>
    intro s hrow hdue
    exact ⟨s.core.distance, one_le_distance s.core, step_idle hrow hdue⟩
end Sys2Proof.Proofs
end
section
/-! SUPPORT. What writes of rows leave: of a weave all but its refill log and its views, of memory every other byte, of the rest all. -/
namespace Sys2Proof.Proofs
open Sys2Proof.Machine Sys2Proof.Claims Sys2Proof.Laws

/-! ## Weaves and the rest of the machine -/

/-- A weave but for its refill log and its views, which alone writes of rows change (R302, R328). -/
def bare (x : Weave) : Weave := { x with refill := [], views := [] }

/-- `d` is `c` but for memory with its versions, poison and flipped bits, and for refill logs and views. -/
structure RowsWritten (c d : Core) : Prop where
  weave : ∀ v, bare (d.weave v) = bare (c.weave v)
  rest : { d with mem := c.mem, vers := c.vers, verCtr := c.verCtr, poison := c.poison, flips := c.flips, weaves := c.weaves } = c

theorem RowsWritten.refl (c : Core) : RowsWritten c c := ⟨fun _ => rfl, rfl⟩
theorem RowsWritten.trans {c d e : Core} (h : RowsWritten c d) (g : RowsWritten d e) : RowsWritten c e :=
  ⟨fun v => (g.weave v).trans (h.weave v), by rw [← g.rest] at h; exact h.rest⟩
theorem RowsWritten.foldl {α : Type} {f : Core → α → Core} (h : ∀ c x, RowsWritten c (f c x)) (xs : List α) :
    ∀ c, RowsWritten c (xs.foldl f c) := by
  induction xs with
  | nil => exact RowsWritten.refl
  | cons x xs ih => exact fun c => (h c x).trans (ih _)
/-- A field of the machine that no write of rows touches. -/
theorem RowsWritten.field {α : Type} {c d : Core} (h : RowsWritten c d) (f : Core → α)
    (hf : ∀ x m vs n p fs ws, f { x with mem := m, vers := vs, verCtr := n, poison := p, flips := fs, weaves := ws } = f x) : f d = f c := by
  have := congrArg f h.rest
  rwa [hf] at this
theorem RowsWritten.now {c d : Core} (h : RowsWritten c d) : d.now = c.now := h.field Core.now fun _ _ _ _ _ _ _ => rfl
theorem RowsWritten.agenda {c d : Core} (h : RowsWritten c d) : d.agenda = c.agenda := h.field Core.agenda fun _ _ _ _ _ _ _ => rfl
theorem RowsWritten.launches {c d : Core} (h : RowsWritten c d) : d.launches = c.launches :=
  h.field Core.launches fun _ _ _ _ _ _ _ => rfl
/-- A field of a weave that no write of rows touches. -/
theorem RowsWritten.weaveField {α : Type} {c d : Core} (h : RowsWritten c d) (f : Weave → α) (hf : ∀ x, f (bare x) = f x) (v : Nat) :
    f (d.weave v) = f (c.weave v) := by
  rw [← hf, h.weave, hf]
theorem RowsWritten.of_rest {c d : Core} (hw : d.weaves = c.weaves)
    (h : { d with mem := c.mem, vers := c.vers, verCtr := c.verCtr, poison := c.poison, flips := c.flips, weaves := c.weaves } = c) :
    RowsWritten c d := ⟨fun v => by rw [weave_congr hw], h⟩

theorem xorRow_written (c : Core) (row : Nat) (x : Word) : RowsWritten c (c.xorRow row x) := by
  unfold Core.xorRow
  split
  · exact .refl c
  · exact .of_rest rfl rfl
theorem putFlips_written (c : Core) (fs : List Flip) (skip : Option Nat) : RowsWritten c (c.putFlips fs c.parityFlips skip) := by
  unfold Core.putFlips
  extract_lets c' rows
  have h : RowsWritten c c' := .of_rest rfl rfl
  exact h.trans (.foldl (fun k r => xorRow_written k r _) rows c')
/-- The refill logs lose the entries that a write has made useless (R328). -/
theorem refill_weave (c : Core) (q : RefillEntry → Bool) (v : Nat) :
    ∃ rs, ({ c with weaves := c.weaves.map fun (w, x) =>
      if x.refill.isEmpty then (w, x) else (w, { x with refill := x.refill.filter q }) } : Core).weave v =
      { c.weave v with refill := rs } := by
  have hmap : (c.weaves.map fun (w, x) => if x.refill.isEmpty then (w, x) else (w, { x with refill := x.refill.filter q })) =
      c.weaves.map fun p => (p.1, if p.2.refill.isEmpty then p.2 else { p.2 with refill := p.2.refill.filter q }) :=
    List.map_congr_left fun ⟨_, x⟩ _ => by cases h : x.refill.isEmpty <;> simp [h]
  simp only [Core.weave, mget, hmap, mget?_map_value]
  cases mget? c.weaves v with
  | none => exact ⟨[], rfl⟩
  | some x =>
    simp only [Option.map_some, Option.getD_some]
    split
    · exact ⟨x.refill, rfl⟩
    · exact ⟨_, rfl⟩
theorem writeRow_weave (c : Core) (addr : Nat) (val mask : Word) (job : Option Nat) (v : Nat) :
    ∃ rs, (c.writeRow addr val mask job).weave v = { c.weave v with refill := rs } := by
  unfold Core.writeRow
  extract_lets a x c₁ c₂ c₃
  have h : c₃.weave v = c.weave v := by
    refine weave_congr ?_ v
    unfold c₃ c₂ c₁
    split <;> split <;> simp only [putFlips_weaves]
  obtain ⟨rs, hrs⟩ := refill_weave c₃ (fun e => e.job.rows.all (· != a) || job == some e.job.id) v
  exact ⟨rs, hrs.trans (congrArg (fun x : Weave => { x with refill := rs }) h)⟩
theorem writeRow_written (c : Core) (addr : Nat) (val mask : Word) (job : Option Nat) : RowsWritten c (c.writeRow addr val mask job) := by
  refine ⟨fun v => ?_, ?_⟩
  · obtain ⟨rs, h⟩ := writeRow_weave c addr val mask job v
    rw [h]
    rfl
  · unfold Core.writeRow
    extract_lets a x c₁ c₂ c₃
    have h : RowsWritten c c₁ := by
      unfold c₁
      split
      · exact putFlips_written c _ _
      · exact .refl c
    have h₃ : { c₃ with mem := c.mem, vers := c.vers, verCtr := c.verCtr, poison := c.poison, flips := c.flips, weaves := c.weaves } = c := by
      unfold c₃ c₂
      split <;> exact h.rest
    exact h₃
theorem writeShared_written (c : Core) (addr : Nat) (val mask : Word) (scope unit writer : Nat) (job : Option Nat) :
    RowsWritten c (c.writeShared addr val mask scope unit writer job) :=
  (writeRow_written c (rowAddr addr) val mask job).trans (.of_rest rfl rfl)
theorem modW_views_written (c : Core) (w : Nat) (f : Weave → Map Nat) : RowsWritten c (c.modW w fun x => { x with views := f x }) := by
  refine ⟨fun v => ?_, rfl⟩
  by_cases hv : v = w
  · subst hv; rw [modW_weave_same]; rfl
  · rw [modW_weave_other _ _ hv]
theorem ownView_written (c : Core) (w addr : Nat) : RowsWritten c (c.ownView w addr) := by
  unfold Core.ownView
  split
  · exact .refl c
  · split
    · exact .refl c
    · exact modW_views_written c w _
theorem frameRow_written (c : Core) (w addr : Nat) (x : Word) : RowsWritten c (c.frameRow w addr x) :=
  (writeShared_written c addr x allOnes 1 (secOf w) 0 none).trans (ownView_written _ w addr)

/-! ## Memory -/

/-- Memory is canonical and no stored bit is flipped: rows read as they were written. -/
structure Plain (c : Core) : Prop where
  wf : Memory.wf c.mem = true
  flips : c.flips = []

theorem rowAddr_rowAddr (a : Nat) : rowAddr (rowAddr a) = rowAddr a := by unfold rowAddr; omega
theorem row_congr {c : Core} {a b : Nat} (h : rowAddr a = rowAddr b) : c.row a = c.row b := by simp only [Core.row, h]
theorem row_of_mem {c d : Core} (h : d.mem = c.mem) (a : Nat) : d.row a = c.row a := by simp only [Core.row, h]
theorem writeRow_mem {c : Core} (h : c.flips = []) (addr : Nat) (val mask : Word) (job : Option Nat) :
    (c.writeRow addr val mask job).mem = memWrite c.mem (rowAddr addr) 8 (mergeBits (c.row (rowAddr addr)) val mask).toNat := by
  unfold Core.writeRow
  simp only [h, List.any_nil, Bool.false_eq_true, and_false, if_false]
  split <;> rfl
theorem writeRow_flips {c : Core} (h : c.flips = []) (addr : Nat) (val mask : Word) (job : Option Nat) :
    (c.writeRow addr val mask job).flips = [] := by
  unfold Core.writeRow
  simp only [h, List.any_nil, Bool.false_eq_true, and_false, if_false]
  split <;> rfl
theorem Plain.writeRow {c : Core} (h : Plain c) (addr : Nat) (val mask : Word) (job : Option Nat) : Plain (c.writeRow addr val mask job) :=
  ⟨writeRow_keeps_wf h.wf _ _ _ _, writeRow_flips h.flips _ _ _ _⟩
theorem row_writeRow_same {c : Core} (h : Plain c) {a addr : Nat} (val mask : Word) (job : Option Nat) (ha : rowAddr a = rowAddr addr) :
    (c.writeRow addr val mask job).row a = mergeBits (c.row a) val mask := by
  rw [Core.row, writeRow_mem h.flips, ha, memRead_memWrite_same h.wf, row_congr (rowAddr_rowAddr addr), row_congr ha.symm]
  simp only [word]
  exact BitVec.eq_of_toNat_eq (by simpa using (mergeBits (c.row a) val mask).isLt)
theorem memGet_writeRow_other {c : Core} (h : Plain c) {a addr : Nat} (val mask : Word) (job : Option Nat) (ha : rowAddr a ≠ rowAddr addr) :
    memGet (c.writeRow addr val mask job).mem a = memGet c.mem a := by
  rw [writeRow_mem h.flips]
  exact memGet_memWrite_other h.wf _ _ _ (by unfold rowAddr at *; omega)
theorem row_writeRow_other {c : Core} (h : Plain c) {a addr : Nat} (val mask : Word) (job : Option Nat) (ha : rowAddr a ≠ rowAddr addr) :
    (c.writeRow addr val mask job).row a = c.row a := by
  rw [Core.row, writeRow_mem h.flips, memRead_memWrite_other h.wf _ _ _ (by unfold rowAddr at *; omega), Core.row]
theorem mergeBits_allOnes (old val : Word) : mergeBits old val allOnes = val := by
  rw [mergeBits, allOnes, BitVec.not_allOnes, BitVec.and_zero, BitVec.zero_or, BitVec.and_allOnes]

end Sys2Proof.Proofs
end
section
/-! SUPPORT. What initialisation leaves in a weave of a launch (O45). -/
namespace Sys2Proof.Proofs
open Sys2Proof.Machine Sys2Proof.Claims Sys2Proof.Laws

theorem bitAt_eq_testBit (x n : Nat) : bitAt x n = x.testBit n := by
  rw [bitAt, Nat.testBit_eq_decide_div_mod_eq]
  rfl
theorem bitAt_toNat {w : Nat} (x : BitVec w) (n : Nat) : bitAt x.toNat n = x.getLsbD n := by
  rw [bitAt_eq_testBit, BitVec.testBit_toNat]
theorem word_recNat (r : List Word) (n : Nat) : word (recNat r n) = r.getD n 0 := by simp [word, recNat]

/-- The bits of MODE that a launch record gives a weave (R41): TIMED, REDUN, and for REDUN which of its pair it is. -/
theorem modeOf_getLsbD (r : List Word) (w : Nat) : (modeOf r w).getLsbD 0 = recTimed r ∧ (modeOf r w).getLsbD 3 = recRedun r ∧
    (modeOf r w).getLsbD 4 = (recRedun r && decide (w % 2 = 1)) := by
  have hmode : modeOf r w = (r.getD 1 0 &&& 0xF00B) ||| (if recRedun r ∧ w % 2 = 1 then 16 else 0) := by
    rw [modeOf, word, BitVec.ofNat_add, ← BitVec.add_eq_or_of_and_eq_zero]
    · congr 1
      · exact BitVec.eq_of_toNat_eq (by simp [recNat])
      · split <;> rfl
    · split <;> rw [BitVec.and_assoc] <;> exact BitVec.and_zero
  simp only [hmode, recTimed, recRedun, recNat, bitAt_toNat, BitVec.getLsbD_or, BitVec.getLsbD_and]
  generalize r.getD 1 0 = x
  by_cases hw : w % 2 = 1
  · cases x.getLsbD 3 <;> simp [hw]
  · cases x.getLsbD 3 <;> simp [hw]

@[simp] theorem modHost_weave (c : Core) (f : HostLink → HostLink) (w : Nat) : (c.modHost f).weave w = c.weave w := rfl
/-- An entry of a list that a function gives over a range. -/
theorem getElem?_map_range {α : Type} (f : Nat → α) {n i : Nat} (h : i < n) : ((List.range n).map f)[i]? = some (f i) := by
  simp [h]
/-- Settles O45, by what `initWeave` puts into the weave; other weaves have rows of their refill logs taken out only. -/
theorem weavesInitialise : Obligations.WeavesInitialise := by
  intro c n l im bank w
  obtain ⟨htimed, hredun, hpartner⟩ := modeOf_getLsbD l.record w
  simp only [Core.initWeave, modHost_weave, setW_weave_same, word_recNat, true_and]
  refine ⟨rfl, rfl, rfl, rfl, rfl, rfl, rfl, rfl, rfl, fun i hi => getElem?_map_range _ hi, fun i hi => ?fmt, fun i hi => ?handles,
    ⟨htimed, hredun, hpartner⟩, fun v hv => ?other⟩
  case fmt =>
    rw [getElem?_map_range _ hi]
    congr 1
    apply BitVec.eq_of_toNat_eq
    simp [Nat.shiftRight_eq_div_pow]
  case handles =>
    rw [handlesOf, getElem?_map_range _ hi]
    simp [Machine.handleOf, bitAt_toNat]
  case other =>
    rw [setW_weave_other _ _ hv]
    have h : ∀ k, RowsWritten k (allLanes.foldl (fun c lane => (im.loc.zip (List.range im.loc.length)).foldl (fun c (x, i) =>
        c.writeRow (c.localFlat w lane (8 * i) (List.replicate 16 false)) x allOnes none) c) k) :=
      .foldl (fun k lane => .foldl (fun k p => writeRow_written k _ _ _ _) _ k) _
    exact ⟨(h c).weaveField Weave.pc (fun _ => rfl) v, (h c).weaveField Weave.s (fun _ => rfl) v⟩
end Sys2Proof.Proofs
end
section
/-! SUPPORT. A publication whose version number is in use (O32). -/
namespace Sys2Proof.Proofs
open Sys2Proof.Machine Sys2Proof.Claims Sys2Proof.Laws

/-- Weave 0 has buffered a row of zeros for address 0, whose history holds a version with the number that the next version gets. -/
def usedVersion : Core := { State.reset.core with
  vers := [(0, [⟨State.reset.core.verCtr, 5, [], 0⟩])]
  weaves := [(0, { Weave.reset with buf := [(0, ⟨0, 0⟩)] })] }

/-- The number stands in the weave's view for the row that it has published; the first version of the row with that number is the
earlier one. -/
theorem usedVersion_published : (usedVersion.publishDue [(0, 0)]).view 0 0 = 5 ∧ (usedVersion.publishDue [(0, 0)]).row 0 = 0 := by
  decide

/-- Refutes O32: `Publications` speaks of every machine, and on `usedVersion`, whose version counter stands at a number that a
version of the row has already, weave 0 reads the earlier version of the row that it has published. -/
theorem not_landingsAndHalts : ¬ Obligations.LandingsAndHalts := by
  rintro ⟨-, -, h⟩
  obtain ⟨-, hrows, -, -⟩ := h usedVersion 0 0 rfl rfl rfl rfl (by decide)
  obtain ⟨-, hview⟩ := hrows 0 ⟨0, 0⟩ (List.mem_singleton.mpr rfl)
  obtain ⟨hv, hr⟩ := usedVersion_published
  rw [hv, hr] at hview
  exact absurd hview (by decide)
end Sys2Proof.Proofs
end
section
/-! SUPPORT. Cancelled phases: what the restoration of a checkpoint leaves, what a re-run and a passed compare point do (O38). -/
namespace Sys2Proof.Proofs
open Sys2Proof.Machine Sys2Proof.Claims Sys2Proof.Laws

/-! ## Sparse maps -/

theorem mget?_filter {α : Type} (m : Map α) {p : Nat × α → Bool} {k : Nat} (h : ∀ x, p (k, x) = true) : mget? (m.filter p) k = mget? m k := by
  induction m with
  | nil => rfl
  | cons q m ih =>
    obtain ⟨j, x⟩ := q
    by_cases hj : j = k
    · subst hj
      rw [List.filter_cons_of_pos (h x)]
      simp [mget?]
    · rw [List.filter_cons]
      split <;> simp [mget?, hj, ih]
theorem mget?_filter_none {α : Type} (m : Map α) {p : Nat × α → Bool} {k : Nat} (h : ∀ x, p (k, x) = false) : mget? (m.filter p) k = none := by
  induction m with
  | nil => rfl
  | cons q m ih =>
    obtain ⟨j, x⟩ := q
    by_cases hj : j = k
    · subst hj
      rw [List.filter_cons_of_neg (by simp [h x]), ih]
    · rw [List.filter_cons]
      split <;> simp [mget?, hj, ih]
/-- Values that a fold stores under other keys leave a key's value. -/
theorem mget?_foldl_mset_other {α β : Type} (key : β → Nat) (val : β → α) (xs : List β) {k : Nat} (h : ∀ x ∈ xs, k ≠ key x) (m : Map α) :
    mget? (xs.foldl (fun m x => mset m (key x) (val x)) m) k = mget? m k := by
  induction xs generalizing m with
  | nil => rfl
  | cons x xs ih =>
    rw [List.foldl_cons, ih fun y hy => h y (List.mem_cons_of_mem _ hy), mget?_mset_other _ _ (h x List.mem_cons_self)]
theorem vKey_reg (r : Nat) {l : Nat} (h : l < 128) : vKey r l / 128 = r := by
  rw [vKey, Nat.mul_add_div (by decide), Nat.div_eq_of_lt h, Nat.add_zero]

/-! ## The restoration of a checkpoint -/

@[simp] theorem dropFlight_weave_same (c : Core) (w : Nat) : (c.dropFlight w).weave w = { c.weave w with flight := [] } :=
  modW_weave_same c w fun x => { x with flight := [] }
theorem dropFlight_weave_other (c : Core) {w v : Nat} (h : v ≠ w) : (c.dropFlight w).weave v = c.weave v  :=
  modW_weave_other c (fun x => { x with flight := [] }) h
@[simp] theorem unsched_weave (c : Core) (p : Act → Bool) (v : Nat) : (c.unsched p).weave v = c.weave v := rfl

/-- The pending invalidations of a weave go from every other weave. -/
theorem pendHinv_weave (c : Core) (q : Nat × Nat × Nat → Bool) {d : Core}
    (hd : d.weaves = c.weaves.map fun (v, x) => (v, { x with pendHinv := x.pendHinv.filter q })) (v : Nat) :
    d.weave v = { c.weave v with pendHinv := (c.weave v).pendHinv.filter q } := by
  have hmap : d.weaves = c.weaves.map fun p => (p.1, { p.2 with pendHinv := p.2.pendHinv.filter q }) := hd
  simp only [Core.weave, mget, hmap, mget?_map_value]
  cases mget? c.weaves v <;> rfl

theorem restore_mem (c : Core) (w : Nat) (k : Checkpoint) : (c.restore w k).mem = c.mem := rfl
theorem restore_weave_other (c : Core) {w v : Nat} (k : Checkpoint) (hv : v ≠ w) :
    ∃ p, (c.restore w k).weave v = { c.weave v with pendHinv := p } := by
  unfold Core.restore
  extract_lets c₁ earlier earlierRep c₂ c₃
  have h₃ := pendHinv_weave c₂ (fun p => p.2.2 != w) (d := c₃) rfl v
  have h₂ : c₂.weave v = c.weave v := dropFlight_weave_other c hv
  rw [h₂] at h₃
  exact ⟨_, (modW_weave_other c₃ _ hv).trans h₃⟩
/-- The registers that a restored weave has from its checkpoint, and those that it keeps (R27, R327). -/
theorem restore_weave_same (c : Core) (w : Nat) (k : Checkpoint) :
    let x := c.weave w
    let y := (c.restore w k).weave w
    (y.pc = BitVec.ofNat 14 k.pc ∧ y.loops = k.loops ∧ y.s = k.s ∧ y.k = k.k ∧ y.fcsr = k.fcsr ∧ y.fmtsel = k.fmtsel ∧
      y.place = k.place ∧ y.handles = k.handles ∧ y.status = setBits k.status 4 3 1 ∧ y.buf = [] ∧ y.gbuf = [] ∧ y.flight = []) ∧
    y.phaseno = x.phaseno ∧ y.badRegs = x.badRegs.filter (fun b => b.1 == .v && !bitAt k.chkmask.toNat b.2.1) ∧
    y.v = k.v.foldl (fun m p => mset m p.1 p.2) (x.v.filter fun p => !bitAt k.chkmask.toNat (p.1 / 128)) := by
  intro x y
  have hy : y = (c.restore w k).weave w := rfl
  unfold Core.restore at hy
  extract_lets c₁ earlier earlierRep c₂ c₃ at hy
  have h₂ : c₂.weave w = { x with flight := [] } := dropFlight_weave_same c w
  have h₃ := pendHinv_weave c₂ (fun p => p.2.2 != w) (d := c₃) rfl w
  rw [h₂] at h₃
  rw [modW_weave_same, h₃] at hy
  rw [hy]
  exact ⟨⟨rfl, rfl, rfl, rfl, rfl, rfl, rfl, rfl, rfl, rfl, rfl, rfl⟩, rfl, rfl, rfl⟩
/-- A vector register that the checkpoint does not hold stays (log 14). -/
theorem restore_v_other (c : Core) (w : Nat) (k : Checkpoint) {r l : Nat} (hl : l < 128) (hr : bitAt k.chkmask.toNat r = false)
    (hk : ∀ p ∈ k.v, bitAt k.chkmask.toNat (p.1 / 128) = true) :
    mget? ((c.restore w k).weave w).v (vKey r l) = mget? (c.weave w).v (vKey r l) := by
  obtain ⟨-, -, -, hv⟩ := restore_weave_same c w k
  rw [hv]
  refine (mget?_foldl_mset_other (fun p => p.1) (fun p => p.2) k.v (fun p hp hkey => ?_) _).trans (mget?_filter _ fun x => ?_)
  · have := hk p hp
    rw [← hkey, vKey_reg r hl, hr] at this
    exact absurd this (by decide)
  · rw [vKey_reg r hl, hr]
    rfl
theorem contained_setBits (x : Word) : (setBits x 4 3 1).getLsbD 3 = true := by
  simp [setBits, mergeBits, word]

/-! ## The re-run -/

/-- What a re-run does to a machine: of weave w it changes results in flight alone, and it takes nothing out of the agenda. -/
structure Reinjects (w : Nat) (c d : Core) : Prop where
  now : d.now = c.now
  mem : d.mem = c.mem
  weave : { d.weave w with flight := (c.weave w).flight } = c.weave w

theorem Reinjects.refl (w : Nat) (c : Core) : Reinjects w c c := ⟨rfl, rfl, rfl⟩
theorem Reinjects.trans {w : Nat} {c d e : Core} (h : Reinjects w c d) (g : Reinjects w d e) : Reinjects w c e :=
  ⟨g.now.trans h.now, g.mem.trans h.mem, by
    have := congrArg (fun x : Weave => { x with flight := (c.weave w).flight }) g.weave
    exact this.trans h.weave⟩
theorem Reinjects.foldl {α : Type} {w : Nat} {f : Core → α → Core} (h : ∀ c x, Reinjects w c (f c x)) (xs : List α) :
    ∀ c, Reinjects w c (xs.foldl f c) := by
  induction xs with
  | nil => exact Reinjects.refl w
  | cons x xs ih => exact fun c => (h c x).trans (ih _)
theorem putResult_reinjects (c : Core) (w : Nat) (x : Result) : Reinjects w c (c.putResult w x) := by
  obtain ⟨es, h⟩ := putResult_eq c w x
  have hw : (c.putResult w x).weave w = { c.weave w with flight := (c.weave w).flight ++ [x] } := by
    rw [h]
    exact modW_weave_same c w fun v => { v with flight := v.flight ++ [x] }
  exact ⟨by rw [h]; rfl, by rw [h]; rfl, by rw [hw]⟩
theorem inject_reinjects (c : Core) (w ret : Nat) (ls : List LatchRec) : Reinjects w c (c.inject w ret ls) := by
  refine .foldl (fun d l => ?_) ls c
  split
  · exact .refl w d
  · exact .trans (d := { d with nextId := d.nextId + 1 }) ⟨rfl, rfl, rfl⟩ (putResult_reinjects _ w _)
theorem rewalk_reinjects (c : Core) (w ckptCycle ret : Nat) : Reinjects w c (c.rewalk w ckptCycle ret) := by
  refine .foldl (fun d p => ?_) _ c
  have h : Reinjects w d (p.1.pend.foldl (fun e q =>
      e.sched (ret + (p.1.walkSince + 64 - ckptCycle)) bLand p.2 (.probeUpdate w p.2 q.2.gen)) d) :=
    Reinjects.foldl (f := fun (e : Core) (q : Nat × Walk) => e.sched (ret + (p.1.walkSince + 64 - ckptCycle)) bLand p.2 (.probeUpdate w p.2 q.2.gen))
      (fun e q => ⟨rfl, rfl, rfl⟩) _ d
  dsimp only
  split
  · exact h.trans ⟨rfl, rfl, rfl⟩
  · exact h
/-- A weave's part of a re-run: it issues at `ret` at the PC and with the registers that it has (R327). -/
theorem rerunWeave_of_ckpt {c : Core} {w : Nat} {k : Checkpoint} (ret : Nat) (h : (c.weave w).ckpt = some k) :
    let d := c.rerunWeave w ret
    d.now = c.now ∧ d.mem = c.mem ∧ (d.weave w).rerun = none ∧ (d.weave w).fixedAt = some ret ∧ (d.weave w).mode = (c.weave w).mode ∧
    (d.weave w).pc = (c.weave w).pc ∧ (d.weave w).s = (c.weave w).s := by
  simp only [Core.rerunWeave, h]
  set f : Weave → Weave := _ with hf
  obtain ⟨hnow, hmem, hweave⟩ := (inject_reinjects (c.modW w f) w ret k.latches).trans (rewalk_reinjects _ w k.cycle ret)
  rw [modW_weave_same] at hweave
  refine ⟨hnow, hmem, ?_, ?_, ?_, ?_, ?_⟩
  · exact congrArg Weave.rerun hweave
  · exact congrArg Weave.fixedAt hweave
  · exact (congrArg Weave.mode hweave :)
  · exact (congrArg Weave.pc hweave :)
  · exact (congrArg Weave.s hweave :)

/-- Settles O38, by what `restore` leaves of weave w and of the others, by the order of the refusals, and by the way of a re-run and of a
compare point whose hashes are equal. -/
theorem cancelledPhases : Obligations.CancelledPhases := by
  refine ⟨fun c w k => ?restore, ?refuses, ?contained, ?rerun, ?compare⟩
  case restore =>
    obtain ⟨⟨hpc, hloops, hs, hk, hfcsr, hfmtsel, hplace, hhandles, hstatus, hbuf, hgbuf, hflight⟩, hphaseno, hbad, -⟩ :=
      restore_weave_same c w k
    refine ⟨hpc, hloops, hs, hk, hfcsr, hfmtsel, hplace, hhandles, ?_, hbuf, hgbuf, hflight, hphaseno, hbad,
      fun r l hl _ hr hk => restore_v_other c w k hl hr hk, restore_mem c w k, fun v hv => ?_⟩
    · rw [Weave.contained, hstatus, bitAt_toNat, contained_setBits]
    · obtain ⟨p, hp⟩ := restore_weave_other c k hv
      rw [hp]
      exact ⟨rfl, rfl⟩
  case refuses =>
    intro c w x hcont hpre hatom hcons k hk hparity
    simp only [Core.refusal]
    simp [x, hcont, hpre, hatom, hcons, hk, hparity]
  case contained =>
    intro c w h
    simp only [Core.refusal, h, if_true]
  case rerun =>
    intro s w ids k hrerun hckpt hredun
    obtain ⟨hnow, hmem, hnone, hfixed, hmode, hpc, hs⟩ := rerunWeave_of_ckpt s.core.now hckpt
    have hpartner : (s.core.rerunWeave w s.core.now).hasPartner w = false := by
      rw [Core.hasPartner, Weave.redun, hmode, ← Weave.redun, hredun, Bool.false_and]
    refine ⟨_, rfl, ?_⟩
    simp only [State.modC, hrerun, hpartner, hnow, Option.isNone_some, Bool.false_eq_true, if_false, schedIssue_weave, schedIssue_mem]
    exact ⟨hnone, hfixed, schedIssue_mem_agenda _ w s.core.now, hmem, hpc, hs⟩
  case compare =>
    intro s w hpoint hinj hinj' hhash hreach hheld hmark
    obtain ⟨r, hr⟩ := Option.isSome_iff_exists.mp hpoint
    have hhit : [w, w + 1].find? (fun v => (s.core.weave v).injecting && bits (s.core.weave v).errinj.toNat 59 56 == 7) = none := by
      simp [hinj, hinj']
    refine ⟨_, rfl, ?_⟩
    simp only [State.modC, hr, hhit, hhash, hreach, hheld, hmark, Core.reach!, Option.isNone_some, Option.isSome_none, Bool.false_or, bne_self_eq_false,
      Bool.false_eq_true, if_false, List.zip_nil_left, List.foldl_nil]
    refine ⟨?_, ?_, rfl, rfl⟩
    · rw [modW_weave_other _ _ (by omega), modW_weave_same]
    · rw [modW_weave_same]
end Sys2Proof.Proofs
end
section
/-! SUPPORT. The checks and the conditions of lane accesses, and what a bundle's access leaves of a machine (O12, O13). -/
namespace Sys2Proof.Proofs
open Sys2Proof.Machine Sys2Proof.Claims Sys2Proof.Laws

/-! ## What changes in the executing weave alone -/

/-- `t` is `s` but for the executing weave, which is `y`, the agenda and the numbering of results. -/
structure OnlyMe (s t : State) (y : Weave) : Prop where
  base : t.base = s.base
  rest : { t.core with weaves := s.core.weaves, agenda := s.core.agenda, nextId := s.core.nextId } = s.core
  others : ∀ v, v ≠ s.core.cur → t.core.weave v = s.core.weave v
  me : me t = y

namespace OnlyMe
theorem refl (s : State) : OnlyMe s s (Claims.me s) := ⟨rfl, rfl, fun _ _ => rfl, rfl⟩
theorem cur {s t : State} {y : Weave} (h : OnlyMe s t y) : t.core.cur = s.core.cur := (congrArg Core.cur h.rest :)
theorem now {s t : State} {y : Weave} (h : OnlyMe s t y) : t.core.now = s.core.now := (congrArg Core.now h.rest :)
theorem sameBut {s t : State} {y : Weave} (h : OnlyMe s t y) {f : Weave → Weave → Weave} (hf : f (Claims.me s) y = Claims.me s) :
    SameBut s t f fun _ d => d :=
  ⟨h.base, h.rest, h.others, by rw [h.me, hf], fun a => (congrArg (fun c : Core => memGet c.mem a) h.rest :)⟩
theorem modW {s t : State} {y : Weave} (h : OnlyMe s t y) (f : Weave → Weave) : OnlyMe s (t.modW f) (f y) := by
  refine ⟨h.base, h.rest, fun v hv => ?_, ?_⟩
  · exact (modW_weave_other t.core f (h.cur ▸ hv)).trans (h.others v hv)
  · exact (modW_weave_same t.core t.core.cur f).trans (congrArg f h.me)
/-- New entries of the agenda and a new number leave what `OnlyMe` speaks of. -/
theorem withAgenda {s t : State} {y : Weave} (h : OnlyMe s t y) {c : Core} (es : List Entry) (n : Nat)
    (hc : c = { t.core with agenda := es, nextId := n }) : OnlyMe s { t with core := c } y := by
  subst hc
  exact ⟨h.base, h.rest, h.others, h.me⟩
theorem putV (s : State) (d : Reg) (L : Nat) (lanes : List Nat) (f : Nat → Word) :
    ∃ flight, OnlyMe s (s.putV d L lanes f) { Claims.me s with flight := flight } := by
  obtain ⟨hbase, hrest, hothers, -, -⟩ := deliver_frame s .v d L lanes (lanes.map fun l => (l, f l))
  exact ⟨_, hbase, hrest, hothers, me_deliver _ _ _ _ _ _ (.inl rfl)⟩
end OnlyMe

/-! ## The checks of R192 and the conditions of R194 and R195 -/

/-- Where every access reaches a row, the checks give the rows (R192). -/
theorem checked_of_rows (s : State) {lanes : List Nat} {ea : Nat → Nat} {r : Nat → Reach} {own : Nat → Bool} {flat : Nat → Nat}
    (h : ∀ l ∈ lanes, r l = .row (own l) (flat l)) (f : List (Nat × Nat × Bool × Nat) → State) :
    s.checked (lanes.map fun l => (l, ea l, r l)) f = f (lanes.map fun l => (l, ea l, own l, flat l)) := by
  have hacc : (lanes.map fun l => (l, ea l, r l)) = lanes.map fun l => (l, ea l, Reach.row (own l) (flat l)) :=
    List.map_congr_left fun l hl => by rw [h l hl]
  have hwin : (lanes.map fun l => (l, ea l, Reach.row (own l) (flat l))).find? (fun p => p.2.2 == .window) = none := by
    rw [List.find?_eq_none]
    simp
  have hpriv : (lanes.map fun l => (l, ea l, Reach.row (own l) (flat l))).find? (fun p => p.2.2 == .priv) = none := by
    rw [List.find?_eq_none]
    simp
  rw [hacc, State.checked, hwin, hpriv]
  simp [List.filterMap_map]
theorem mem_cellsOf {lanes : List Nat} {cell : Nat} : cell ∈ cellsOf lanes ↔ cell < 8 ∧ ∃ l ∈ lanes, l / 16 = cell := by
  simp [cellsOf]
theorem not_inBlackout {s : State} {locals : List Nat} (h : ∀ l ∈ locals, s.rd.blackout s.core.cur (s.now + l / 16) = none ∧
    (s.rd.hasPartner s.core.cur = true → s.rd.blackout (s.core.cur + 1) (s.now + 2 + l / 16) = none)) : s.inBlackout locals = false := by
  rw [State.inBlackout, List.any_eq_false]
  intro cell hcell
  obtain ⟨-, l, hl, rfl⟩ := mem_cellsOf.mp hcell
  obtain ⟨hown, hpartner⟩ := h l hl
  rw [hown]
  cases hp : s.rd.hasPartner s.core.cur with
  | false => simp
  | true => simp [hpartner hp]
/-- An access whose rows have arrived, outside blackouts, with its paired rows across, goes on (R195, R344, R350). -/
theorem access_of_arrived {s : State} {reads locals : List Nat} (harrived : ∀ a ∈ reads, s.rd.rowArrived a = true)
    (hblack : s.inBlackout locals = false)
    (hcross : s.rd.pairDegraded s.core.cur = true → (∃ a ∈ reads, storeBase ≤ a ∧ a < towerBase ∧ flagSector a ≠ secOf s.core.cur) →
      ∃ t, s.wv.busWait = some t ∧ t ≤ s.now) (f : State → State) : s.access reads locals f = f s := by
  have hall : (reads.any fun a => !s.rd.rowArrived a) = false := by
    rw [List.any_eq_false]
    intro a ha
    simp [harrived a ha]
  rw [State.access, hall, hblack]
  split
  · rfl
  · simp only [Bool.false_eq_true, if_false]
    unfold State.crossing
    extract_lets w across
    split
    · rfl
    next hw =>
      simp only [Bool.or_eq_true, Bool.not_eq_true', not_or, Bool.not_eq_false, List.any_eq_true] at hw
      obtain ⟨hdeg, a, ha, hacross⟩ := hw
      simp only [across, Bool.and_eq_true, decide_eq_true_eq, bne_iff_ne] at hacross
      obtain ⟨⟨hlo, hhi⟩, hsec⟩ := hacross
      obtain ⟨t, ht, hle⟩ := hcross hdeg ⟨a, ha, hlo, hhi, hsec⟩
      simp only [ht, if_neg (Nat.not_lt.mpr hle)]
/-- The rows that the lanes of an access reach, as the checks hand them on: lane, address, own window, row. -/
def laneRows (lanes : List Nat) (addr : Nat → Word) (o : BitVec 5) (own : Nat → Bool) (flat : Nat → Nat) : List (Nat × Nat × Bool × Nat) :=
  lanes.map fun l => (l, eaOf (addr l) o, own l, flat l)
/-- The lanes of an access that reach a row of their own window. -/
def ownLanes (rs : List (Nat × Nat × Bool × Nat)) : List Nat := (rs.filter (·.2.2.1)).map (·.1)
theorem laneRows_lanes (lanes : List Nat) (addr : Nat → Word) (o : BitVec 5) (own : Nat → Bool) (flat : Nat → Nat) :
    (laneRows lanes addr o own flat).map (·.1) = lanes := by
  simp [laneRows, Function.comp_def]
theorem mem_laneRows {lanes : List Nat} {addr : Nat → Word} {o : BitVec 5} {own : Nat → Bool} {flat : Nat → Nat} {a : Nat}
    (h : a ∈ (laneRows lanes addr o own flat).map (·.2.2.2)) : ∃ l ∈ lanes, flat l = a := by
  simpa [laneRows] using h
theorem ownLanes_laneRows (lanes : List Nat) (addr : Nat → Word) (o : BitVec 5) (own : Nat → Bool) (flat : Nat → Nat) :
    ownLanes (laneRows lanes addr o own flat) = lanes.filter own := by
  simp [ownLanes, laneRows, List.filter_map, Function.comp_def]
/-- No LOCAL row of the access meets a blackout. -/
theorem laneRows_not_inBlackout {s : State} {k : KReg} {own : Nat → Bool} (h : NoBlackout s k own) (addr : Nat → Word) (o : BitVec 5)
    (flat : Nat → Nat) : s.inBlackout (ownLanes (laneRows (s.active k) addr o own flat)) = false := by
  refine not_inBlackout fun l hl => ?_
  rw [ownLanes_laneRows, List.mem_filter] at hl
  exact h l hl.1 hl.2
/-- A spaced access of a group issues and notes its cycle (R194). -/
theorem spaced_of_spaced {s : State} {sector pair : Bool} {f : State → State} (hunder : UnderWay s) (hspaced : Spaced s sector pair)
    (hbase : (f s).base = s.base) : s.spaced sector pair f = (f s).modW fun x => { x with
      lastSector := if sector then some s.now else x.lastSector, lastPair := if pair then some s.now else x.lastPair } := by
  obtain ⟨hsector, hpair⟩ := hspaced
  have hnear : ∀ (b : Bool) (last : Option Nat) (d : Nat), (b = true → ∀ t, last = some t → t + d ≤ s.now) →
      (b && match last with | some t => decide (s.now < t + d) | none => false) = false := by
    intro b last d hle
    cases b with
    | false => rfl
    | true =>
      cases last with
      | none => rfl
      | some t => simpa using hle rfl t rfl
  obtain ⟨b, hb⟩ := hunder
  have hsome : (f s).base.isNone = false := by rw [hbase, hb]; rfl
  unfold State.spaced
  extract_lets wv near s'
  have hs : (sector && near wv.lastSector 2) = false := hnear sector _ 2 hsector
  have hp : (pair && near wv.lastPair 4) = false := hnear pair _ 4 hpair
  rw [hs, hp]
  simp only [Bool.or_self, Bool.and_false, Bool.false_eq_true, if_false, s', hsome]
theorem OnlyMe.spaced {s : State} {sector pair : Bool} {f : State → State} {y : Weave} (hunder : UnderWay s) (hspaced : Spaced s sector pair)
    (h : OnlyMe s (f s) y) : OnlyMe s (s.spaced sector pair f)
      { y with lastSector := if sector then some s.now else y.lastSector, lastPair := if pair then some s.now else y.lastPair } := by
  rw [spaced_of_spaced hunder hspaced h.base]
  exact h.modW fun x => { x with
    lastSector := if sector then some s.now else x.lastSector, lastPair := if pair then some s.now else x.lastPair }
end Sys2Proof.Proofs
end
section
/-! SUPPORT. Plain loads (O12). -/
namespace Sys2Proof.Proofs
open Sys2Proof.Machine Sys2Proof.Claims Sys2Proof.Laws

/-! ## Reads of clean arrays -/

theorem mem_mset {α : Type} {m : Map α} {k : Nat} {x : α} {p : Nat × α} (h : p ∈ mset m k x) : p ∈ m ∨ p = (k, x) := by
  induction m with
  | nil => exact .inr (List.mem_singleton.mp h)
  | cons q m ih =>
    obtain ⟨j, y⟩ := q
    rw [mset] at h
    split at h
    · rcases List.mem_cons.mp h with rfl | h
      · exact .inl List.mem_cons_self
      · exact (ih h).imp_left (List.mem_cons_of_mem _)
    · split at h
      · rcases List.mem_cons.mp h with rfl | h
        · exact .inr rfl
        · exact .inl (List.mem_cons_of_mem _ h)
      · rcases List.mem_cons.mp h with rfl | h
        · exact .inr rfl
        · exact .inl h
theorem mem_of_mget? {α : Type} {m : Map α} {k : Nat} {x : α} (h : mget? m k = some x) : (k, x) ∈ m := by
  induction m with
  | nil => cases h
  | cons q m ih =>
    obtain ⟨j, y⟩ := q
    rw [mget?] at h
    split at h
    next hj =>
      cases h
      rw [hj]
      exact List.mem_cons_self
    next => exact List.mem_cons_of_mem _ (ih h)
/-- A machine no array of which holds an error: poison, a flipped bit, an armed injection (R328, R372, R399). -/
structure Clean (c : Core) : Prop where
  poison : c.poison = []
  flips : c.flips = []
  idle : ∀ p ∈ c.weaves, p.2.injecting = false

theorem Clean.weave {c : Core} (h : Clean c) (w : Nat) : (c.weave w).injecting = false := by
  rw [Core.weave, mget]
  cases hw : mget? c.weaves w with
  | none => rfl
  | some x => exact h.idle _ (mem_of_mget? hw)
theorem Clean.modW {c : Core} (h : Clean c) (w : Nat) {f : Weave → Weave} (hf : ∀ x, (f x).injecting = x.injecting) : Clean (c.modW w f) := by
  refine ⟨h.poison, h.flips, fun p hp => ?_⟩
  rcases mem_mset hp with hp | rfl
  · exact h.idle p hp
  · exact (hf _).trans (h.weave w)
theorem Clean.withAgenda {c : Core} (h : Clean c) (es : List Entry) (n : Nat) : Clean { c with agenda := es, nextId := n } :=
  ⟨h.poison, h.flips, h.idle⟩
theorem Clean.putV {s : State} (h : Clean s.core) (d : Reg) (L : Nat) (lanes : List Nat) (f : Nat → Word) :
    Clean (s.putV d L lanes f).core := by
  obtain ⟨es, he⟩ := deliver_eq s .v d L lanes (lanes.map fun l => (l, f l)) (.inl rfl)
  rw [State.putV, he]
  exact (h.modW s.core.cur (f := fun x => { x with flight := x.flight ++ _ }) fun _ => rfl).withAgenda _ _
theorem readRows_of_clean {c : Core} (h : Clean c) (w : Nat) (rows : List Nat) (X : Nat) : c.readRows w rows X = c :=
  readRows_clean (fun row => ⟨by rw [h.poison]; rfl, flagOf_of_none h.flips h.idle row⟩) w rows X
/-- A load from clean arrays finds at most an error of the phase buffer, which is in the agenda (R376). -/
theorem loadsRows_of_clean {c : Core} (h : Clean c) (w : Nat) (rows : List Nat) (X : Nat) :
    ∃ es, c.loadsRows w rows X = { c with agenda := c.agenda ++ es } := by
  unfold Core.loadsRows Core.readBuffer
  split
  · exact ⟨_, readRows_of_clean (h.withAgenda (c.agenda ++ _) c.nextId) w rows X⟩
  · rw [readRows_of_clean h]
    exact ⟨[], by simp⟩
theorem loads_of_clean {α : Type} (row : α → Nat) (cycle : Nat → α → Nat) (xs : List α) {c : Core} (h : Clean c) :
    ∃ es, xs.foldl (fun c x => c.loadsRows c.cur [row x] (cycle c.now x)) c = { c with agenda := c.agenda ++ es } := by
  induction xs generalizing c with
  | nil => exact ⟨[], by simp⟩
  | cons x xs ih =>
    obtain ⟨es, he⟩ := loadsRows_of_clean h c.cur [row x] (cycle c.now x)
    rw [List.foldl_cons, he]
    obtain ⟨fs, hf⟩ := ih (h.withAgenda (c.agenda ++ es) c.nextId)
    exact ⟨es ++ fs, by rw [hf]; simp [List.append_assoc]⟩

/-! ## Loads -/

/-- What reads see of vector results does not depend on the notes of later reads and of the groups' last accesses. -/
theorem readsV_notes {s t u : State} {d : Reg} {L : Nat} {lanes : List Nat} {f : Nat → Word} {x : Weave} (ht : me t = x)
    (hu : { me u with reads := x.reads, lastSector := x.lastSector, lastPair := x.lastPair } = x) (h : ReadsV s t d L lanes f) :
    ReadsV s u d L lanes f := by
  have hs : (me u).sval = (me t).sval := by rw [ht, ← hu]; rfl
  have hk : (me u).kval = (me t).kval := by rw [ht, ← hu]; rfl
  have hv : (me u).vval = (me t).vval := by rw [ht, ← hu]; rfl
  have hflight : (me u).flight = (me t).flight := by rw [ht, ← hu]
  simpa only [ReadsV, hs, hk, hv] using h
theorem find?_of_mem_map {α : Type} {lanes : List Nat} {l : Nat} (h : l ∈ lanes) (f : Nat → α) :
    (lanes.map fun l => (l, f l)).find? (fun p => p.1 == l) = some (l, f l) := by
  have hl : lanes.find? (fun j => j == l) = some l := by
    cases hj : lanes.find? (fun j => j == l) with
    | none => exact absurd (List.find?_eq_none.mp hj l h) (by simp)
    | some j => simpa using List.find?_some hj
  rw [List.find?_map]
  have hcomp : ((fun p : Nat × α => p.1 == l) ∘ fun l => (l, f l)) = fun j => j == l := rfl
  rw [hcomp, hl]
  rfl
/-- A plain load of rows that its lanes reach (R196). -/
def loadFrom (d : Reg) (L : Nat) (rs : List (Nat × Nat × Bool × Nat)) (s : State) : State :=
  (s.putV d L (rs.map (·.1)) fun l =>
    match rs.find? fun r => r.1 == l with
    | some (_, _, own, a) => s.loadRow l own a
    | none => 0).noteReads s.core.nextId ((rs.filter (·.2.2.1)).map fun (l, _, _, a) => (l, a, none)) |>.modC fun c =>
      rs.foldl (fun c (l, _, _, a) => c.loadsRows c.cur [a] (c.now + l / 16 + L)) c

section
variable {s : State} {win : Option Win} {k : KReg} {addr : Nat → Word} {o : BitVec 5} {own : Nat → Bool} {flat : Nat → Nat}

/-- A plain load whose checks and conditions hold takes its rows. -/
theorem laneLoad_eq_loadFrom (L : Nat) (d : Reg) (hreach : ReachRows s win k (fun l => (addr l + o.signExtend 64 * 8).toNat) own flat)
    (harrived : ∀ l ∈ s.active k, s.rd.rowArrived (flat l) = true) (hblack : NoBlackout s k own) (hcrossed : Crossed s k flat) :
    s.laneLoad win L addr d o k = loadFrom d L (laneRows (s.active k) addr o own flat) s := by
  refine (checked_of_rows (ea := fun l => eaOf (addr l) o) s hreach fun rs =>
    s.access (rs.map (·.2.2.2)) (ownLanes rs) (loadFrom d L rs)).trans ?_
  refine access_of_arrived (fun a ha => ?_) (laneRows_not_inBlackout hblack addr o flat) (fun hdeg ⟨a, ha, hbounds⟩ => hcrossed hdeg ?_) _
  · obtain ⟨l, hl, rfl⟩ := mem_laneRows ha
    exact harrived l hl
  · obtain ⟨l, hl, rfl⟩ := mem_laneRows ha
    exact ⟨l, hl, hbounds⟩
theorem noteReads_eq (s : State) (id : Nat) (rs : List (Nat × Nat × Option LoadConv)) :
    ∃ f : Weave → List LoadRead, s.noteReads id rs = s.modW fun x => { x with reads := f x } := ⟨_, rfl⟩
/-- A load from clean arrays: its rows land, and later reads are noted. -/
theorem loadFrom_lands (L : Nat) (d : Reg) (hclean : Clean s.core) (lanes : List Nat) :
    ∃ v flight reads, OnlyMe s (loadFrom d L (laneRows lanes addr o own flat) s) { me s with flight := flight, reads := reads } ∧
      ReadsV s (loadFrom d L (laneRows lanes addr o own flat) s) d L lanes v ∧ ∀ l ∈ lanes, v l = s.loadRow l (own l) (flat l) := by
  let rs := laneRows lanes addr o own flat
  let v := fun l => match rs.find? fun r => r.1 == l with
    | some (_, _, own, a) => s.loadRow l own a
    | none => 0
  let s₁ := s.putV d L lanes v
  let s₂ := s₁.noteReads s.core.nextId ((rs.filter (·.2.2.1)).map fun (l, _, _, a) => (l, a, none))
  obtain ⟨flight, h₁⟩ := OnlyMe.putV s d L lanes v
  obtain ⟨f, hf⟩ := noteReads_eq s₁ s.core.nextId ((rs.filter (·.2.2.1)).map fun (l, _, _, a) => (l, a, none))
  have h₂ : OnlyMe s s₂ { me s with flight := flight, reads := f { me s with flight := flight } } := by
    simp only [s₂, hf]
    exact h₁.modW fun x => { x with reads := f x }
  have hclean₂ : Clean s₂.core := by
    simp only [s₂, hf]
    exact (hclean.putV d L lanes v).modW s₁.core.cur (f := fun x => { x with reads := f x }) fun _ => rfl
  obtain ⟨es, hes⟩ := loads_of_clean (fun r : Nat × Nat × Bool × Nat => r.2.2.2) (fun now r => now + r.1 / 16 + L) rs hclean₂
  have heq : loadFrom d L rs s = { s₂ with core := { s₂.core with agenda := s₂.core.agenda ++ es } } := by
    rw [← hes, loadFrom, laneRows_lanes]
    rfl
  have h₃ := heq ▸ h₂.withAgenda (s₂.core.agenda ++ es) s₂.core.nextId rfl
  refine ⟨v, flight, _, h₃, readsV_notes h₁.me (by rw [h₃.me]) (putV_lands s d L lanes v).2, fun l hl => ?_⟩
  simp only [v, rs, laneRows, find?_of_mem_map hl]
end

/-- Settles O12: the checks and conditions hold, the rows land from clean arrays, and a form of a group notes its cycle. -/
theorem laneLoads : Obligations.LaneLoads := by
  intro s d a o k own flat i win L addr sector pair hi hunder hquiet hspaced hreach harrived hblack hcrossed
  obtain ⟨hpoison, hflips, hidle⟩ := hquiet
  obtain ⟨v, flight, reads, honly, hreads, hval⟩ := loadFrom_lands (o := o) (addr := addr) (own := own) (flat := flat) L d
    ⟨hpoison, hflips, hidle⟩ (s.active k)
  rw [← laneLoad_eq_loadFrom L d hreach harrived hblack hcrossed] at honly hreads
  have hgroup := OnlyMe.spaced (f := fun s => s.laneLoad win L addr d o k) hunder hspaced honly
  have hlands : ∀ t, Machine.exec i s = .next t → OnlyMe s t { me s with
        flight := flight, reads := reads
        lastSector := if sector then some s.now else (me s).lastSector
        lastPair := if pair then some s.now else (me s).lastPair } →
      ∃ t v, Machine.exec i s = .next t ∧ ReadsV s t d L (s.active k) v ∧ Accessed s t sector pair ∧
        ∀ l ∈ s.active k, v l = if own l then s.rd.localRow s.core.cur l (flat l) else s.rd.loadShared s.core.cur (flat l) := by
    intro t hexec ht
    exact ⟨t, v, hexec, readsV_notes honly.me (by rw [ht.me]) hreads, ⟨ht.sameBut rfl, by rw [ht.me], by rw [ht.me]⟩, hval⟩
  simp only [List.mem_cons, Prod.mk.injEq, List.not_mem_nil, or_false] at hi
  rcases hi with ⟨rfl, rfl, rfl, rfl, rfl, rfl⟩ | ⟨rfl, rfl, rfl, rfl, rfl, rfl⟩ | ⟨rfl, rfl, rfl, rfl, rfl, rfl⟩ |
    ⟨rfl, rfl, rfl, rfl, rfl, rfl⟩ | ⟨rfl, rfl, rfl, rfl, rfl, rfl⟩
  case inl | inr.inl => exact hlands _ rfl honly
  case inr.inr.inl | inr.inr.inr.inl | inr.inr.inr.inr => exact hlands _ rfl hgroup
end Sys2Proof.Proofs
end
section
/-! SUPPORT. Plain stores at issue and where their cells execute them (O13). -/
namespace Sys2Proof.Proofs
open Sys2Proof.Machine Sys2Proof.Claims Sys2Proof.Laws

/-! ## At issue -/

/-- The cells' executions of a bundle's LOCAL stores, as the issue enters them in the agenda (R15). -/
theorem skews_scheduled (id : Nat) (cells : List Nat) (c : Core) :
    let d := cells.foldl (fun c cell => c.sched (c.now + cell) bWave c.cur (.wavefrontSkewExecution c.cur id cell)) c
    (∃ es, d = { c with agenda := c.agenda ++ es }) ∧
      ∀ cell ∈ cells, ⟨.cycle (c.now + cell), bWave, c.cur, .wavefrontSkewExecution c.cur id cell⟩ ∈ d.agenda := by
  induction cells generalizing c with
  | nil => exact ⟨⟨[], by simp⟩, by simp⟩
  | cons cell cells ih =>
    obtain ⟨⟨es, he⟩, hes⟩ := ih (c.sched (c.now + cell) bWave c.cur (.wavefrontSkewExecution c.cur id cell))
    refine ⟨⟨⟨.cycle (c.now + cell), bWave, c.cur, .wavefrontSkewExecution c.cur id cell⟩ :: es, ?_⟩, fun x hx => ?_⟩
    · rw [List.foldl_cons, he]
      simp [Core.sched]
    · rw [List.foldl_cons]
      rcases List.mem_cons.mp hx with rfl | hx
      · rw [he]
        simp [Core.sched]
      · exact hes x hx

/-- The rows that the lanes of a store write whole. -/
def wholeRows (lanes : List Nat) (own : Nat → Bool) (flat : Nat → Nat) (val : Nat → Word) : List (Nat × Bool × Nat × Word × Word) :=
  lanes.map fun l => (l, own l, flat l, val l, allOnes)
/-- The phase buffer after a store of whole rows (R197). -/
def bufferedRows (buf : Map BufRow) (lanes : List Nat) (own : Nat → Bool) (flat : Nat → Nat) (val : Nat → Word) : Map BufRow :=
  (lanes.filter fun l => !own l).foldl (fun b l => bufferRow b (flat l) (val l) allOnes) buf
/-- The executing weave after a store of whole rows whose LOCAL stores have the number `id`. -/
def storing (x : Weave) (id : Nat) (lanes : List Nat) (own : Nat → Bool) (flat : Nat → Nat) (val : Nat → Word) : Weave :=
  { x with
    buf := bufferedRows x.buf lanes own flat val
    bufBad := x.bufBad.filter fun b => !(b.1 == 0 && lanes.any fun l => !own l && flat l == b.2)
    skews := x.skews ++ if lanes.any own then [⟨id, (lanes.filter own).map fun l => ⟨l, flat l, val l, allOnes⟩⟩] else [] }

/-- A store of whole rows that the phase buffer takes (R15, R197). -/
theorem storeRows_enters (s : State) (lanes : List Nat) (own : Nat → Bool) (flat : Nat → Nat) (val : Nat → Word)
    (hlanes : ∀ l ∈ lanes, l < 128) (hbuf : (bufferedRows (me s).buf lanes own flat val).length ≤ Config.bufferRows) :
    OnlyMe s (s.storeRows (wholeRows lanes own flat val)) (storing (me s) s.core.nextId lanes own flat val) ∧
    ∀ l ∈ lanes, own l = true → ⟨.cycle (s.now + l / 16), bWave, s.core.cur, .wavefrontSkewExecution s.core.cur s.core.nextId (l / 16)⟩ ∈
      (s.storeRows (wholeRows lanes own flat val)).core.agenda := by
  unfold State.storeRows
  extract_lets own' shared buf
  have hown : own' = (lanes.filter own).map fun l => (l, own l, flat l, val l, allOnes) := by
    simp only [own', wholeRows, List.filter_map]
    rfl
  have hshared : shared = (lanes.filter fun l => !own l).map fun l => (l, own l, flat l, val l, allOnes) := by
    simp only [shared, wholeRows, List.filter_map]
    rfl
  have hb : buf = bufferedRows (me s).buf lanes own flat val := by
    simp only [buf, hshared, List.foldl_map]
    rfl
  have hbad : ∀ b : Nat × Nat, (b.1 == 0 && shared.any fun (_, _, a, _, m) => a == b.2 && m == allOnes) =
      (b.1 == 0 && lanes.any fun l => !own l && flat l == b.2) := by
    intro b
    simp [hshared, List.any_map, List.any_filter, Function.comp_def]
  have hstores : (own'.map fun (p : Nat × Bool × Nat × Word × Word) => (⟨p.1, p.2.2.1, p.2.2.2.1, p.2.2.2.2⟩ : RowWrite)) =
      (lanes.filter own).map fun l => ⟨l, flat l, val l, allOnes⟩ := by
    rw [hown, List.map_map]
    rfl
  have hids : own'.map (·.1) = lanes.filter own := by
    rw [hown, List.map_map]
    exact List.map_id _
  let f := fun x : Weave => { x with
    buf := buf, bufBad := x.bufBad.filter fun b => !(b.1 == 0 && lanes.any fun l => !own l && flat l == b.2) }
  let g := fun x : Weave => { x with skews := x.skews ++ [(⟨s.core.nextId,
    own'.map fun (p : Nat × Bool × Nat × Word × Word) => ⟨p.1, p.2.2.1, p.2.2.2.1, p.2.2.2.2⟩⟩ : Skew)] }
  have h₁ : OnlyMe s (s.modW f) (f (me s)) := (OnlyMe.refl s).modW f
  rw [if_neg (Nat.not_lt.mpr (hb ▸ hbuf))]
  simp only [hbad]
  cases hany : lanes.any own with
  | false =>
    have hnone : ∀ l ∈ lanes, own l = false := by simpa using hany
    have hempty : own'.isEmpty = true := by
      rw [hown, List.filter_eq_nil_iff.mpr fun l hl => by simp [hnone l hl]]
      rfl
    have hstoring : storing (me s) s.core.nextId lanes own flat val = f (me s) := by simp [storing, f, hany, hb]
    simp only [hempty, if_true, hstoring]
    exact ⟨h₁, fun l hl h => absurd h (by simp [hnone l hl])⟩
  | true =>
    obtain ⟨l₀, hl₀, hown₀⟩ := List.any_eq_true.mp hany
    have hempty : own'.isEmpty = false := by
      rw [hown, List.isEmpty_map, List.isEmpty_eq_false_iff_exists_mem]
      exact ⟨l₀, List.mem_filter.mpr ⟨hl₀, hown₀⟩⟩
    have hstoring : storing (me s) s.core.nextId lanes own flat val = g (f (me s)) := by
      simp only [storing, f, g, hany, hb, hstores, if_true]
    obtain ⟨⟨es, he⟩, hes⟩ := skews_scheduled s.core.nextId (cellsOf (own'.map (·.1)))
      (({ s.core.modW s.core.cur f with nextId := s.core.nextId + 1 } : Core).modW s.core.cur g)
    have h₂ := (h₁.withAgenda s.core.agenda (s.core.nextId + 1) rfl).modW g
    have h₃ := h₂.withAgenda (s.core.agenda ++ es) (s.core.nextId + 1) he
    simp only [hempty, Bool.false_eq_true, if_false, hstoring]
    refine ⟨h₃, fun l hl hol => ?_⟩
    have hcell : l / 16 ∈ cellsOf (own'.map (·.1)) := by
      rw [hids]
      exact mem_cellsOf.mpr ⟨by have := hlanes l hl; omega, l, List.mem_filter.mpr ⟨hl, hol⟩, rfl⟩
    exact hes _ hcell
/-- A plain store of rows that its lanes reach (R196). -/
def storeFrom (d : Reg) (rs : List (Nat × Nat × Bool × Nat)) (s : State) : State :=
  s.storeRows (rs.map fun (l, _, own, a) => (l, own, a, s.vreg d l, allOnes))
/-- A plain store whose checks and conditions hold stores its rows. -/
theorem laneStore_eq_storeRows {s : State} {win : Option Win} {k : KReg} {addr : Nat → Word} {o : BitVec 5} {own : Nat → Bool}
    {flat : Nat → Nat} (d : Reg) (hreach : ReachRows s win k (fun l => (addr l + o.signExtend 64 * 8).toNat) own flat)
    (hblack : NoBlackout s k own) : s.laneStore win addr d o k = s.storeRows (wholeRows (s.active k) own flat (s.vreg d)) := by
  have hchecked : s.laneStore win addr d o k = s.access [] (ownLanes (laneRows (s.active k) addr o own flat))
      (storeFrom d (laneRows (s.active k) addr o own flat)) :=
    checked_of_rows (ea := fun l => eaOf (addr l) o) s hreach fun rs => s.access [] (ownLanes rs) (storeFrom d rs)
  rw [hchecked, access_of_arrived (by simp) (laneRows_not_inBlackout hblack addr o flat) (by simp), storeFrom, laneRows, List.map_map]
  rfl
theorem laneStores : Claims.LaneStores := by
  intro s d a o k own flat i win addr sector pair hi hunder hspaced hreach hblack buf hbuf
  obtain ⟨honly, hagenda⟩ := storeRows_enters s (s.active k) own flat (s.vreg d) (fun l hl => (active_sub s k hl).1) hbuf
  rw [← laneStore_eq_storeRows d hreach hblack] at honly hagenda
  have hgroup := OnlyMe.spaced (f := fun s => s.laneStore win addr d o k) hunder hspaced honly
  have hspace := spaced_of_spaced (f := fun s => s.laneStore win addr d o k) hunder hspaced honly.base
  have hstored : ∀ t, Machine.exec i s = .next t → t.core.agenda = (s.laneStore win addr d o k).core.agenda →
      OnlyMe s t { storing (me s) s.core.nextId (s.active k) own flat (s.vreg d) with
        lastSector := if sector then some s.now else (me s).lastSector
        lastPair := if pair then some s.now else (me s).lastPair } →
      ∃ t, Machine.exec i s = .next t ∧ (me t).buf = buf ∧
        (me t).skews = (me s).skews ++ (if (s.active k).any own then
          [⟨s.core.nextId, ((s.active k).filter own).map fun l => ⟨l, flat l, s.vreg d l, BitVec.allOnes 64⟩⟩] else []) ∧
        (∀ l ∈ s.active k, own l = true →
          ⟨.cycle (s.now + l / 16), bWave, s.core.cur, .wavefrontSkewExecution s.core.cur s.core.nextId (l / 16)⟩ ∈ t.core.agenda) ∧
        (me t).lastSector = (if sector then some s.now else (me s).lastSector) ∧
        (me t).lastPair = (if pair then some s.now else (me s).lastPair) ∧
        SameBut s t (fun x y => { y with
          buf := x.buf, bufBad := x.bufBad, skews := x.skews, lastSector := x.lastSector, lastPair := x.lastPair }) (fun _ d => d) ∧
        Rebuffered s t k own flat fun _ => True := by
    intro t hexec ht honly
    refine ⟨t, hexec, by rw [honly.me]; rfl, by rw [honly.me]; rfl, fun l hl hown => ht ▸ hagenda l hl hown, by rw [honly.me],
      by rw [honly.me], honly.sameBut (by simp only [storing]), fun b => ?_⟩
    rw [honly.me]
    simp [storing, imp_iff_not_or]
  simp only [List.mem_cons, Prod.mk.injEq, List.not_mem_nil, or_false] at hi
  rcases hi with ⟨rfl, rfl, rfl, rfl, rfl⟩ | ⟨rfl, rfl, rfl, rfl, rfl⟩ | ⟨rfl, rfl, rfl, rfl, rfl⟩ | ⟨rfl, rfl, rfl, rfl, rfl⟩ |
    ⟨rfl, rfl, rfl, rfl, rfl⟩
  case inl | inr.inl => exact hstored _ rfl rfl honly
  case inr.inr.inl | inr.inr.inr.inl | inr.inr.inr.inr => exact hstored _ rfl (congrArg (fun t => t.core.agenda) hspace) hgroup

/-! ## Where a cell executes them -/

section
variable {c : Core} {rs : List RowWrite}

/-- Rows written in the order of a list (R193). -/
def writeRows (c : Core) (rs : List RowWrite) : Core := rs.foldl (fun c r => c.writeRow r.addr r.val r.mask none) c

theorem Plain.writeRows (h : Plain c) (rs : List RowWrite) : Plain (writeRows c rs) := by
  induction rs generalizing c with
  | nil => exact h
  | cons r rs ih => exact ih (h.writeRow r.addr r.val r.mask none)
theorem memGet_writeRows_other (h : Plain c) {a : Nat} (ha : ∀ r ∈ rs, rowAddr a ≠ rowAddr r.addr) :
    memGet (writeRows c rs).mem a = memGet c.mem a := by
  induction rs generalizing c with
  | nil => rfl
  | cons r rs ih =>
    exact (ih (h.writeRow r.addr r.val r.mask none) fun q hq => ha q (List.mem_cons_of_mem _ hq)).trans
      (memGet_writeRow_other h r.val r.mask none (ha r List.mem_cons_self))
theorem row_writeRows_other (h : Plain c) {a : Nat} (ha : ∀ r ∈ rs, rowAddr a ≠ rowAddr r.addr) :
    (writeRows c rs).row a = c.row a := by
  induction rs generalizing c with
  | nil => rfl
  | cons r rs ih =>
    exact (ih (h.writeRow r.addr r.val r.mask none) fun q hq => ha q (List.mem_cons_of_mem _ hq)).trans
      (row_writeRow_other h r.val r.mask none (ha r List.mem_cons_self))
/-- A row holds the value of its last whole store. -/
theorem row_writeRows_last (h : Plain c) (pre : List RowWrite) {r : RowWrite} {post : List RowWrite} (hr : r.mask = allOnes)
    (hpost : ∀ q ∈ post, rowAddr q.addr ≠ rowAddr r.addr) : (writeRows c (pre ++ r :: post)).row r.addr = r.val := by
  have hpre := h.writeRows pre
  rw [writeRows, List.foldl_append, List.foldl_cons]
  refine (row_writeRows_other (hpre.writeRow r.addr r.val r.mask none) fun q hq => (hpost q hq).symm).trans ?_
  rw [row_writeRow_same hpre r.val r.mask none rfl, hr, mergeBits_allOnes]
theorem writeRows_weave (c : Core) (rs : List RowWrite) (v : Nat) : ∃ x, (writeRows c rs).weave v = { c.weave v with refill := x } := by
  induction rs generalizing c with
  | nil => exact ⟨_, rfl⟩
  | cons r rs ih =>
    obtain ⟨x, hx⟩ := ih (c.writeRow r.addr r.val r.mask none)
    obtain ⟨y, hy⟩ := writeRow_weave c r.addr r.val r.mask none v
    exact ⟨x, hx.trans (by rw [hy])⟩
end
theorem localStoresReachMemory : Claims.LocalStoresReachMemory := by
  intro s w id cell k hwf hflips hk
  have hplain : Plain s.core := ⟨hwf, hflips⟩
  let here := k.stores.filter fun r => r.lane / 16 == cell
  have hhere : ∀ r, r ∈ here ↔ r ∈ k.stores ∧ r.lane / 16 = cell := by simp [here]
  have hmem : (s.core.applySkew w id cell).mem = (writeRows s.core here).mem := by
    simp only [Core.applySkew, hk]
    rfl
  have hweave : ∀ v, v ≠ w → (s.core.applySkew w id cell).weave v = (writeRows s.core here).weave v := by
    intro v hv
    simp only [Core.applySkew, hk]
    exact modW_weave_other _ _ hv
  refine ⟨_, rfl, rfl, ?_, fun a ha => ?_, fun pre r post hsplit hcell hmask hlast => ?_, fun v hv => ?_⟩
  · exact hmem ▸ (hplain.writeRows here).wf
  · refine (congrArg (memGet · a) hmem).trans (memGet_writeRows_other hplain fun r hr => ?_)
    obtain ⟨hr, hcell⟩ := (hhere r).mp hr
    exact ha r hr hcell
  · refine (row_of_mem hmem _).trans ?_
    have hfilter : here = pre.filter (fun r => r.lane / 16 == cell) ++ r :: post.filter (fun r => r.lane / 16 == cell) := by
      simp [here, hsplit, hcell]
    rw [hfilter]
    refine row_writeRows_last hplain _ hmask fun q hq => ?_
    obtain ⟨hq, hqcell⟩ := List.mem_filter.mp hq
    exact hlast q hq (by simpa using hqcell)
  · obtain ⟨x, hx⟩ := writeRows_weave s.core here v
    refine (congrArg (fun y : Weave => { y with refill := (s.core.weave v).refill }) ((hweave v hv).trans hx)).trans rfl
/-- Settles O13, by its two parts: what a store enters at issue, and what a cell's execution of LOCAL stores writes. -/
theorem laneStoresReachMemory : Obligations.LaneStoresReachMemory := ⟨laneStores, localStoresReachMemory⟩
end Sys2Proof.Proofs
end
section
/-! SUPPORT. Reads and writes of CSRs (O24). -/
namespace Sys2Proof.Proofs
open Sys2Proof.Machine Sys2Proof.Claims Sys2Proof.Laws

/-! ## What the manual's tables say of a CSR's number -/

theorem csrSys_iff (n : BitVec 12) : csrSys n.toNat = true ↔ systemCsr n := by
  simp only [csrSys, systemCsr, Bool.or_eq_true, beq_iff_eq, BitVec.toNat_eq, or_assoc]
  rfl
/-- The numbers of the CSRs that have a writable bit. -/
def writtenCsrs : List (BitVec 12) := [0x000, 0x001, 0x002, 0x003, 0x004, 0x00F, 0x006, 0x009, 0x00B, 0x007, 0x00E, 0x012, 0x014, 0x015,
  0x016, 0x020]
theorem csrMasks_of_written : ∀ n ∈ writtenCsrs, csrMasks n.toNat = writable n := by
  simp [writtenCsrs, csrMasks, writable, span, allOnes]
theorem mem_writtenCsrs {n : BitVec 12} {k : Nat} (hn : n.toNat = k) (hk : k ∈ writtenCsrs.map BitVec.toNat) : n ∈ writtenCsrs := by
  obtain ⟨m, hm, rfl⟩ := List.mem_map.mp hk
  exact BitVec.eq_of_toNat_eq hn ▸ hm
theorem csrMasks_of_not_written {n : BitVec 12} (h : n ∉ writtenCsrs) : csrMasks n.toNat = (0, 0) := by
  unfold csrMasks
  split
  case h_17 => rfl
  all_goals
    rename_i hn
    exact absurd (mem_writtenCsrs hn (by decide)) h
theorem writable_of_not_written {n : BitVec 12} (h : n ∉ writtenCsrs) : writable n = (0, 0) := by
  simp only [writtenCsrs, List.mem_cons, List.not_mem_nil, or_false, not_or] at h
  simp only [writable, h, if_false, or_self]
theorem csrMasks_eq_writable (n : BitVec 12) : csrMasks n.toNat = writable n := by
  by_cases h : n ∈ writtenCsrs
  · exact csrMasks_of_written n h
  · rw [csrMasks_of_not_written h, writable_of_not_written h]

/-! ## The weave after a write -/

/-- The weave after a write that leaves `x` in CSR n, `flags` those that the bundle's lanes have raised and `clears` the bits written to
LEASESTAT (R40, R43, R45, R188). -/
def csrWritten (n : Nat) (x : Word) (flags : Nat) (seed : Bool) (clears : Word) (v : Weave) : Weave := { v with
  mode := if n = 0x000 then x else v.mode
  status := if n = 0x001 then mergeBits x v.status 16 else v.status
  fcsr := if n = 0x002 then x ||| word (flags * 16) else v.fcsr
  fmtsel := if n = 0x003 then x else v.fmtsel
  uevec := if n = 0x004 then x else v.uevec
  tvec := if n = 0x006 then x else v.tvec
  tcause := if n = 0x007 then x else v.tcause
  epc := if n = 0x009 then x else v.epc
  slipctr := if n = 0x00B then x else v.slipctr
  chkmask := if n = 0x00E then x.setWidth 32 else v.chkmask
  ueframe := if n = 0x00F then x else v.ueframe
  mxrp := if n = 0x012 then x else v.mxrp
  locbase := if n = 0x014 then x else v.locbase
  secbase := if n = 0x015 then x else v.secbase
  pairbase := if n = 0x016 then x else v.pairbase
  errinj := if n = 0x020 then x else v.errinj
  srd := if n = 0x002 ∧ seed = true then allLanes.map fun l => (l, srdSeed (x.toNat / 2 ^ 32) l) else v.srd
  ports := if n = 0x010 then (v.clearLease clears.toNat).ports else v.ports }

theorem setCsr_eq (n : Nat) (x : Word) (v : Weave) : v.setCsr n x = { v with
    mode := if n = 0x000 then x else v.mode
    status := if n = 0x001 then x else v.status
    fcsr := if n = 0x002 then x else v.fcsr
    fmtsel := if n = 0x003 then x else v.fmtsel
    uevec := if n = 0x004 then x else v.uevec
    tvec := if n = 0x006 then x else v.tvec
    tcause := if n = 0x007 then x else v.tcause
    epc := if n = 0x009 then x else v.epc
    slipctr := if n = 0x00B then x else v.slipctr
    chkmask := if n = 0x00E then x.setWidth 32 else v.chkmask
    ueframe := if n = 0x00F then x else v.ueframe
    mxrp := if n = 0x012 then x else v.mxrp
    locbase := if n = 0x014 then x else v.locbase
    secbase := if n = 0x015 then x else v.secbase
    pairbase := if n = 0x016 then x else v.pairbase
    errinj := if n = 0x020 then x else v.errinj } := by
  unfold Weave.setCsr
  split
  case h_17 =>
    rename_i h0 h1 h2 h3 h4 h5 h6 h7 h8 h9 ha hb hc hd he hf
    simp only [eq_false h0, eq_false h1, eq_false h2, eq_false h3, eq_false h4, eq_false h5, eq_false h6, eq_false h7, eq_false h8,
      eq_false h9, eq_false ha, eq_false hb, eq_false hc, eq_false hd, eq_false he, eq_false hf, if_false]
  all_goals rfl
theorem writeCsr_of_denied {s : State} {n : BitVec 12} {new : Word} (seed : Bool) (clears : Word)
    (h : (s.wv.priv = false ∧ systemCsr n) ∨ (s.wv.priv = false ∧ (s.rd.csr s.core.cur n.toNat ^^^ new) &&& (writable n).2 ≠ 0)) :
    s.writeCsr n.toNat new seed clears = s.privTrap 0 := by
  unfold State.writeCsr
  rw [csrMasks_eq_writable]
  dsimp only
  rcases h with ⟨hpriv, hsys⟩ | ⟨hpriv, hbits⟩
  · rw [if_pos]
    rw [(csrSys_iff n).mpr hsys, hpriv]
    rfl
  · split
    · rfl
    · rw [if_pos]
      simpa [hpriv] using hbits
theorem writeCsr_of_allowed {s : State} {n : BitVec 12} {new : Word} (seed : Bool) (clears : Word) (hsys : ¬ (s.wv.priv = false ∧ systemCsr n))
    (hbits : ¬ (s.wv.priv = false ∧ (s.rd.csr s.core.cur n.toNat ^^^ new) &&& (writable n).2 ≠ 0)) :
    s.writeCsr n.toNat new seed clears = s.modW (csrWritten n.toNat (csrFix n.toNat (s.rd.csr s.core.cur n.toNat)
      (mergeBits (s.rd.csr s.core.cur n.toNat) new ((writable n).1 ||| (writable n).2))) s.core.iss.flags seed clears) := by
  rw [← csrSys_iff] at hsys
  unfold State.writeCsr
  rw [csrMasks_eq_writable]
  dsimp only
  rw [if_neg (by simpa using fun h hp => hsys ⟨hp, h⟩), if_neg (by simpa using fun hp => not_not.mp fun h => hbits ⟨hp, h⟩)]
  congr 1
  funext v
  generalize csrFix _ _ _ = x
  by_cases h10 : n.toNat = 0x010
  · simp [h10, csrWritten, Weave.clearLease]
  by_cases h2 : n.toNat = 0x002
  · cases seed <;> simp [h2, csrWritten, setCsr_eq]
  by_cases h1 : n.toNat = 0x001
  · simp [h1, csrWritten, setCsr_eq]
  simp [h10, h2, h1, csrWritten, setCsr_eq]

/-! ## CSRs after a write -/

theorem leasestat_congr {c d : Core} {w : Nat} (hsec : d.sectors = c.sectors) (h : (d.weave w).ports = (c.weave w).ports) :
    d.leasestat w = c.leasestat w := by
  simp only [Core.leasestat, Core.leaseGroup, Core.qpos, Core.sector, hsec, h]
/-- A write to CSR n leaves every other one; TFRAME follows SECBASE (R40, R46). -/
theorem csr_written_other (c : Core) (w : Nat) {n m : Nat} (x : Word) (flags : Nat) (seed : Bool) (clears : Word) (hm : m ≠ n)
    (h15 : n = 0x015 → m ≠ 0x008) : (c.modW w (csrWritten n x flags seed clears)).csr w m = c.csr w m := by
  have hw := modW_weave_same c w (csrWritten n x flags seed clears)
  have hstat : (c.modW w (csrWritten n x flags seed clears)).leasestat w = if n = 0x010 then (c.modW w (csrWritten n x flags seed clears)).leasestat w else c.leasestat w := by
    split
    · rfl
    next h =>
      refine leasestat_congr rfl ?_
      rw [hw]
      exact if_neg h
  have hen : (c.modW w (csrWritten n x flags seed clears)).energyCsr w = c.energyCsr w := by
    simp only [Core.energyCsr, Core.ctxOf, Core.launchOf, hw]
    rfl
  unfold Core.csr
  rw [hw, hen, hstat]
  split
  all_goals simp only [csrWritten, hm.symm, if_false]
  case h_9 => rw [if_neg fun h => h15 h rfl]
  case h_11 | h_13 => rfl
/-- What a write leaves in the CSR itself. -/
theorem csr_written_same (c : Core) (w : Nat) {n : BitVec 12} (hn : n ∈ writtenCsrs) (x : Word) (flags : Nat) (seed : Bool) (clears : Word) :
    (c.modW w (csrWritten n.toNat x flags seed clears)).csr w n.toNat =
      if n = 0x001 then mergeBits x (c.weave w).status 16 else if n = 0x002 then x ||| word (flags * 16)
      else if n = 0x00E then (x.setWidth 32).setWidth 64 else x := by
  simp only [writtenCsrs, List.mem_cons, List.not_mem_nil, or_false] at hn
  rcases hn with rfl | rfl | rfl | rfl | rfl | rfl | rfl | rfl | rfl | rfl | rfl | rfl | rfl | rfl | rfl | rfl
  all_goals simp [Core.csr, modW_weave_same, csrWritten]

/-! ## The eight lowest bits (R28) -/

theorem take_filter_range (p : Nat → Bool) (k n : Nat) :
    ((List.range n).filter p).take k = (List.range n).filter fun i => p i && decide (((List.range i).filter p).length < k) := by
  induction n with
  | zero => simp
  | succ n ih =>
    rw [List.range_succ, List.filter_append, List.filter_append, List.take_append, ih]
    congr 1
    by_cases hp : p n = true
    · by_cases hk : ((List.range n).filter p).length < k
      · obtain ⟨j, hj⟩ : ∃ j, k - ((List.range n).filter p).length = j + 1 := ⟨k - ((List.range n).filter p).length - 1, by omega⟩
        simp [hp, hk, hj]
      · have hj : k - ((List.range n).filter p).length = 0 := by omega
        simp [hp, hk, hj]
    · simp [hp]
theorem sum_filter_range_lt (p : Nat → Bool) (n : Nat) : ((List.range n).filter p).foldl (fun acc i => acc + 2 ^ i) 0 < 2 ^ n := by
  induction n with
  | zero => simp
  | succ n ih =>
    rw [List.range_succ, List.filter_append, List.foldl_append, Nat.pow_succ]
    by_cases hp : p n = true
    · simp only [List.filter_cons_of_pos hp, List.filter_nil, List.foldl_cons, List.foldl_nil]
      omega
    · simp only [List.filter_cons_of_neg hp, List.filter_nil, List.foldl_nil]
      omega
theorem keepEight_eq (x : Word) : ((word (lowestEight x.toNat)).setWidth 32).setWidth 64 = keepEight x := by
  have hkeep : keepEight x = word (lowestEight x.toNat) := by
    have hbit : bitAt x.toNat = fun i => x.getLsbD i := funext fun i => bitAt_toNat x i
    rw [lowestEight, take_filter_range, hbit]
    rfl
  have hlt : lowestEight x.toNat < 2 ^ 32 := by
    rw [lowestEight, take_filter_range]
    exact sum_filter_range_lt _ 32
  rw [hkeep]
  apply BitVec.eq_of_toNat_eq
  simp [word]
  omega
theorem ofNat_mod_eight_and (x : Word) : BitVec.ofNat 64 (x.toNat % 8) &&& 7#64 = x &&& 7#64 := by
  apply BitVec.eq_of_toNat_eq
  have h : ∀ y : Nat, y &&& 7 = y % 8 := fun y => Nat.and_two_pow_sub_one_eq_mod y 3
  simp [h]
/-- The value of a CSR after a write is that of its table (R28, R42, R43, R188, R398). -/
theorem csrAfter_of_written (s : State) {n : BitVec 12} (hn : n ∈ writtenCsrs) (old x : Word) :
    (if n = 0x001 then mergeBits (csrFix n.toNat old x) (me s).status 16
      else if n = 0x002 then csrFix n.toNat old x ||| word (s.core.iss.flags * 16)
      else if n = 0x00E then ((csrFix n.toNat old x).setWidth 32).setWidth 64 else csrFix n.toNat old x) = csrAfter s n old x := by
  simp only [writtenCsrs, List.mem_cons, List.not_mem_nil, or_false] at hn
  rcases hn with rfl | rfl | rfl | rfl | rfl | rfl | rfl | rfl | rfl | rfl | rfl | rfl | rfl | rfl | rfl | rfl
  case inr.inl => simp [csrAfter, csrFix, mergeBits, span]
  case inr.inr.inl =>
    simp [csrAfter, csrFix, setBits, mergeBits, span, word, ofNat_mod_eight_and]
  case inr.inr.inr.inr.inr.inr.inr.inr.inr.inr.inl =>
    simp [csrAfter, csrFix, keepEight_eq]
  case inr.inr.inr.inr.inr.inr.inr.inr.inr.inr.inr.inr.inr.inr.inr =>
    suffices h : csrFix 0x020 old x = if 9 ≤ x.toNat / 2 ^ 56 % 16 ∨ 2 ≤ x.toNat / 2 ^ 54 % 4 then old else x by simpa [csrAfter] using h
    simp only [csrFix, bits]
    exact if_congr Iff.rfl rfl rfl
  all_goals simp [csrAfter, csrFix]
theorem mem_writtenCsrs_of_writable {n : BitVec 12} (h : (writable n).1 ||| (writable n).2 ≠ 0) : n ∈ writtenCsrs := by
  by_contra hn
  rw [writable_of_not_written hn] at h
  exact h rfl

/-! ## Generators and ports -/

/-- The seed of FCSR as the generators take it, which the flags of a bundle leave (R43). -/
theorem seed_or_flags (x : Word) {flags : Nat} (h : flags < 32) : (x ||| word (flags * 16)).toNat / 2 ^ 32 = x.toNat / 2 ^ 32 := by
  have hlt : flags * 16 / 2 ^ 32 = 0 := by omega
  have hword : (word (flags * 16)).toNat = flags * 16 := by
    simp only [word, BitVec.toNat_ofNat]
    omega
  rw [BitVec.toNat_or, hword, ← Nat.shiftRight_eq_div_pow, Nat.shiftRight_or_distrib, Nat.shiftRight_eq_div_pow (flags * 16), hlt, Nat.or_zero,
    Nat.shiftRight_eq_div_pow]
theorem clearLease_port (v : Weave) (clears : Word) {p : Nat} {q : Machine.Port} (hp : p < 4) (hq : v.ports[p]? = some q) :
    (v.clearLease clears.toNat).ports[p]? = some (if p = 3 then q else
      { q with ev := q.ev && !clears.getLsbD (16 * p + 5), tw := q.tw && !clears.getLsbD (16 * p + 3) }) := by
  simp [Weave.clearLease, List.getElem?_zip_eq_some, hq, hp, bitAt_toNat]

/-- Settles O24: a barred access traps; a write leaves what the CSR's table says, and every other CSR. -/
theorem csrReadsAndWrites : Obligations.CsrReadsAndWrites := by
  intro s d a n y old barred
  have hbar : (csrSys n.toNat && !s.wv.priv) = true ↔ barred := by
    rw [Bool.and_eq_true, csrSys_iff, Bool.not_eq_true', and_comm]
  refine ⟨fun h => congrArg Host.Outcome.next (if_pos (hbar.mpr h)), fun h =>
    ⟨_, congrArg Host.Outcome.next (if_neg (mt hbar.mp h)), putS_lands s d 1 old⟩, ?_⟩
  intro i new seed clears hi denied
  have hexec : Machine.exec i s = .next (s.writeCsr n.toNat new seed clears) := by
    simp only [List.mem_cons, Prod.mk.injEq, List.not_mem_nil, or_false] at hi
    rcases hi with ⟨rfl, rfl, rfl, rfl⟩ | ⟨rfl, rfl, rfl, rfl⟩ | ⟨rfl, rfl, rfl, rfl⟩
    · rfl
    · rfl
    · rfl
  refine ⟨fun h => ?_, fun h => ?_⟩
  · rw [hexec, writeCsr_of_denied seed clears h]
  · obtain ⟨hsys, hbits⟩ := not_or.mp h
    rw [hexec, writeCsr_of_allowed seed clears hsys hbits]
    generalize hx : csrFix n.toNat (s.rd.csr s.core.cur n.toNat) _ = x
    let f := csrWritten n.toNat x s.core.iss.flags seed clears
    have honly : OnlyMe s (s.modW f) (f (me s)) := (OnlyMe.refl s).modW f
    refine ⟨_, rfl, honly.sameBut rfl, fun hm => ?_, fun m hm h15 => ?_, fun hflags => ?_, fun h10 => ?_, fun h10 p q hp hq => ?_⟩
    · have hn := mem_writtenCsrs_of_writable hm
      refine (csr_written_same s.core s.core.cur hn x _ seed clears).trans ?_
      rw [← csrAfter_of_written s hn, ← hx]
      rfl
    · refine csr_written_other s.core s.core.cur x _ seed clears (fun h => hm (BitVec.eq_of_toNat_eq h)) fun hn hm => ?_
      exact h15 (BitVec.eq_of_toNat_eq hn) (BitVec.eq_of_toNat_eq hm)
    · rw [honly.me]
      by_cases h2 : n = 0x002
      · subst h2
        cases seed with
        | false => rfl
        | true =>
          change (allLanes.map fun l => (l, srdSeed (x.toNat / 2 ^ 32) l)) =
            allLanes.map fun l => (l, srdSeed ((x ||| word (s.core.iss.flags * 16)).toNat / 2 ^ 32) l)
          rw [seed_or_flags x hflags]
      · have h2' : n.toNat ≠ 0x002 := fun h => h2 (BitVec.eq_of_toNat_eq h)
        rw [if_neg fun h => h2 h.1]
        exact if_neg fun h => h2' h.1
    · rw [honly.me]
      exact if_neg fun h => h10 (BitVec.eq_of_toNat_eq h)
    · rw [honly.me, ← clearLease_port (me s) clears hp hq]
      subst h10
      rfl
end Sys2Proof.Proofs
end
section
/-! SUPPORT. Phases and realigns, what they reach, and the steps of a boundary (O23). -/
namespace Sys2Proof.Proofs
open Sys2Proof.Machine Sys2Proof.Claims Sys2Proof.Laws

/-! ## `phase` and `realign` -/

theorem execPhase_eq (s : State) (scope : BitVec 3) (mask : BitVec 16) : Machine.exec (.phase scope mask) s = .next (
    if s.wv.inue then s.illegal 0
    else if undeclared (s.rd.regions s.core.cur) mask.toNat then s.windowTrap 0xFF 0
    else s.modIss fun i => { i with reaches := .phase scope.toNat mask.toNat }) := rfl
theorem execRealign_timed {s : State} (safe : Bool) (n : BitVec 16) (hinue : s.wv.inue = false) (htimed : s.wv.timed = true) :
    Machine.exec (.realign safe n) s = .next (
      if (s.wv.texp + n.toNat) * Config.tickCycles ≤ s.now then
        if s.core.power.stretched = some (s.now / Config.tickCycles) then
          s.modIss fun i => { i with reaches := .realign (s.now / Config.tickCycles + 1) (s.wv.texp + n.toNat) safe }
        else s.timing 8
      else s.modIss fun i => { i with reaches := .realign (s.wv.texp + n.toNat) (s.wv.texp + n.toNat) safe }) := by
  change Machine.execRealign safe n s = _
  unfold Machine.execRealign
  simp only [hinue, htimed, Bool.false_eq_true, if_false, Bool.not_true]
theorem phaseAndRealign : Claims.PhaseAndRealign := by
  intro s scope mask n safe reaches tick texp
  refine ⟨?phase, ?undeclared, ?handler, ?untimed, ?early, ?stretched, ?late⟩
  case phase =>
    intro hinue hdecl
    rw [execPhase_eq, hinue, hdecl]
    exact ⟨_, rfl, rfl⟩
  case undeclared =>
    intro hinue hdecl
    rw [execPhase_eq, hinue, hdecl]
    rfl
  case handler =>
    intro hinue
    refine ⟨?_, ?_⟩
    · rw [execPhase_eq, hinue]
      rfl
    · change Machine.execRealign safe n s = _
      unfold Machine.execRealign
      simp only [hinue, if_true]
  case untimed =>
    intro hinue htimed
    refine ⟨_, ?_, rfl⟩
    change Machine.execRealign safe n s = _
    unfold Machine.execRealign
    simp only [hinue, htimed, Bool.false_eq_true, if_false, Bool.not_false, if_true]
    rfl
  case early =>
    intro hinue htimed hearly
    rw [execRealign_timed safe n hinue htimed, if_neg (Nat.not_le.mpr hearly)]
    exact ⟨_, rfl, rfl⟩
  case stretched =>
    intro hinue htimed hlate hstretched
    rw [execRealign_timed safe n hinue htimed, if_pos hlate, if_pos hstretched]
    exact ⟨_, rfl, rfl⟩
  case late =>
    intro hinue htimed hlate hstretched
    rw [execRealign_timed safe n hinue htimed, if_pos hlate, if_neg hstretched]

/-! ## What a bundle reaches -/

theorem realignRefresh_weave (c : Core) (w tick v : Nat) : (c.realignRefresh w tick).weave v = c.weave v := by
  unfold Core.realignRefresh
  split <;> rfl
theorem takeRealign_weave (c : Core) (w tick texp : Nat) (safe : Bool) : (c.takeRealign w tick texp safe).weave w = { c.weave w with
    texp := if (c.weave w).timed then texp else (c.weave w).texp
    clockSafe := if safe then some tick else (c.weave w).clockSafe } := by
  unfold Core.takeRealign
  extract_lets timed d
  have hd : d.weave w = { c.weave w with
      texp := if timed then texp else (c.weave w).texp
      clockSafe := if safe then some tick else (c.weave w).clockSafe } := modW_weave_same c w fun x => { x with
    texp := if timed then texp else x.texp
    clockSafe := if safe then some tick else x.clockSafe }
  have hrefresh : (if timed then d.realignRefresh w tick else d).weave w = d.weave w := by
    split
    · exact realignRefresh_weave d w tick w
    · rfl
  exact hrefresh.trans hd
theorem launch?_modL_same {c : Core} {n : Nat} {l : Launch} (h : c.launch? n = some l) (f : Launch → Launch) :
    (c.modL n f).launch? n = some (f l) := by
  have h' : mget? c.launches n = some l := h
  simp only [Core.modL, h']
  exact mget?_mset_same _ _ _
@[simp] theorem modL_weave (c : Core) (n : Nat) (f : Launch → Launch) (v : Nat) : (c.modL n f).weave v = c.weave v := by
  unfold Core.modL
  split <;> rfl
@[simp] theorem modL_agenda (c : Core) (n : Nat) (f : Launch → Launch) : (c.modL n f).agenda = c.agenda := by
  unfold Core.modL
  split <;> rfl
@[simp] theorem modL_now (c : Core) (n : Nat) (f : Launch → Launch) : (c.modL n f).now = c.now := by
  unfold Core.modL
  split <;> rfl
/-- The boundary of a scope that the arrivals of a launch's weaves in a unit wait for. -/
def collective (scope unit : Nat) (b : Boundary) : Bool := b.bar.isNone && b.scope == scope && b.unit == unit
/-- The weaves that wait for it once weave w has arrived. -/
def arrivedWith (l : Launch) (scope w : Nat) : List Nat :=
  insertNat (((l.bounds.find? (collective scope (unitOf scope w))).map (·.waiting)).getD []) w
theorem find?_arrived (bs : List Boundary) (scope unit : Nat) (ws : List Nat) :
    (bs.filter (fun b => !collective scope unit b) ++ [(⟨none, scope, unit, ws⟩ : Boundary)]).find? (collective scope unit) =
      some ⟨none, scope, unit, ws⟩ := by
  rw [List.find?_append, List.find?_eq_none.mpr]
  · simp [collective]
  · simp
/-- An arrival at a collective boundary (R26, R127). -/
theorem arriveAt_eq {c : Core} {w n : Nat} {l : Launch} (scope delay : Nat) (hw : (c.weave w).launch = some n) (hl : c.launch? n = some l) :
    let d := c.modL n fun l => { l with bounds := l.bounds.filter (fun b => !collective scope (unitOf scope w) b) ++
      [⟨none, scope, unitOf scope w, arrivedWith l scope w⟩] }
    c.arriveAt w scope delay = if (l.participants scope (unitOf scope w)).all (arrivedWith l scope w).contains then
      d.sched (d.now + delay) bPublish n (.collectiveBoundaryCompletion n scope (unitOf scope w)) else d := by
  have hof : c.launchOf w = some l := by rw [Core.launchOf, hw]; exact hl
  have hmodL : ∀ f : Launch → Launch, c.modL n f = { c with launches := mset c.launches n (f l) } := by
    intro f
    have hl' : mget? c.launches n = some l := hl
    simp only [Core.modL, hl']
  unfold Core.arriveAt
  simp only [hw, hof, hmodL]
  rfl
theorem boundariesReached : Claims.BoundariesReached := by
  intro c w scope mask tick texp safe x
  refine ⟨rfl, fun hscope n l hw hl => ?_, ?_⟩
  · intro d here waiting
    let c' := c.modW w fun x => { x with wait := .boundary false scope mask none }
    have hc' : c'.weave w = { x with wait := .boundary false scope mask none } :=
      modW_weave_same c w fun x => { x with wait := .boundary false scope mask none }
    have hw' : (c'.weave w).launch = some n := by rw [hc']; exact hw
    have hd := arriveAt_eq (c := c') scope (Config.boundaryCycles scope) hw' hl
    have hd' : d = c'.arriveAt w scope (Config.boundaryCycles scope) := if_neg hscope
    rw [← hd'] at hd
    extract_lets e at hd
    have hsched : d.weave w = e.weave w ∧ d.launch? n = e.launch? n := by
      rw [hd]
      split
      · exact ⟨rfl, rfl⟩
      · exact ⟨rfl, rfl⟩
    have hall : (l.participants scope (unitOf scope w)).all (arrivedWith l scope w).contains = true ↔
        ∀ v ∈ l.participants scope (unitOf scope w), v ∈ waiting := by
      rw [show waiting = arrivedWith l scope w from rfl]
      simp
    refine ⟨?weave, ?bound, fun hv => ?completes, fun ⟨v, hv, hout⟩ => ?waits⟩
    case weave => rw [hsched.1, modL_weave, hc']
    case bound =>
      rw [hsched.2, show e.launch? n = _ from launch?_modL_same (c := c') hl _]
      exact find?_arrived l.bounds scope (unitOf scope w) _
    case completes =>
      rw [hd, if_pos (hall.mpr hv), show e.now = c.now from modL_now c' n _]
      exact List.mem_append_right _ (List.mem_singleton.mpr rfl)
    case waits =>
      rw [hd, if_neg fun h => hout (hall.mp h v hv)]
      exact modL_agenda c' n _
  · refine (modW_weave_same _ w fun x => { x with fixedAt := some (tick * Config.tickCycles), realignTo := some tick }).trans ?_
    rw [takeRealign_weave]

/-! ## The steps of a boundary -/

/-- ATOM and CONTAINED clear. -/
def cleared (x : Weave) : Weave := (x.setSt 4 false).setSt 3 false
theorem cleared_status (x : Weave) : bitAt (cleared x).status.toNat 3 = false ∧ bitAt (cleared x).status.toNat 4 = false := by
  simp only [bitAt_toNat]
  simp [cleared, Weave.setSt, setBits, mergeBits, word, bnat]
@[simp] theorem applyDiv_weave (c : Core) (w p div v : Nat) : (c.applyDiv w p div).weave v = c.weave v := by
  unfold Core.applyDiv
  extract_lets port sec
  split <;> rfl
@[simp] theorem applyDiv_now (c : Core) (w p div : Nat) : (c.applyDiv w p div).now = c.now := by
  unfold Core.applyDiv
  extract_lets port sec
  split <;> rfl
theorem swapAtBoundary_weave_same (c : Core) (w : Nat) : (c.swapAtBoundary w).weave w = { c.weave w with pendSwap := none } := by
  unfold Core.swapAtBoundary
  cases h : (c.weave w).pendSwap with
  | none => exact congrArg (fun o => { c.weave w with pendSwap := o }) h
  | some id => exact modW_weave_same c w fun x => { x with pendSwap := none }
theorem swapAtBoundary_now (c : Core) (w : Nat) : (c.swapAtBoundary w).now = c.now := by
  unfold Core.swapAtBoundary
  split <;> rfl
/-- The divisors that a port is to take at the boundary. -/
def divided (c : Core) (w p : Nat) (d : Option Nat) : Core :=
  match d with
  | some d => (c.applyDiv w p d).sched c.now bAfter (secOf w) (.charges (secOf w))
  | none => c
@[simp] theorem divided_weave (c : Core) (w p : Nat) (d : Option Nat) (v : Nat) : (divided c w p d).weave v = c.weave v := by
  cases d with
  | none => rfl
  | some d => exact applyDiv_weave c w p d v
@[simp] theorem divided_now (c : Core) (w p : Nat) (d : Option Nat) : (divided c w p d).now = c.now := by
  cases d with
  | none => rfl
  | some d => exact applyDiv_now c w p d
/-- Step 3 of R27 in a weave. -/
def pended (x : Weave) : Weave := { x with
  bank := if x.pendBswap then !x.bank else x.bank
  pendBswap := false
  pendDiv := [none, none, none]
  pendHinv := []
  handles := x.handles.map fun h => if x.pendHinv.any fun (va, size, _) => h.overlaps va size then { h with pages := [] } else h }
theorem pendings_eq (c : Core) (w : Nat) : c.pendings w = ([0, 1, 2].foldl (fun e p => divided e w p ((c.weave w).pendDiv.getD p none))
    (c.swapAtBoundary w)).modW w pended := rfl
theorem pendings_weave_same (c : Core) (w : Nat) : (c.pendings w).weave w = pended { c.weave w with pendSwap := none } := by
  simp only [pendings_eq, modW_weave_same, List.foldl_cons, List.foldl_nil, divided_weave, swapAtBoundary_weave_same]
theorem pendings_now (c : Core) (w : Nat) : (c.pendings w).now = c.now := by
  rw [pendings_eq]
  change Core.now (List.foldl _ _ _) = _
  simp only [List.foldl_cons, List.foldl_nil, divided_now, swapAtBoundary_now]
/-- The parts of a weave that its checkpoint holds and that a boundary's statement speaks of (R27). -/
theorem capture_weave_same (c : Core) (w pc : Nat) (loops : List LoopLevel) :
    ∃ k, (c.capture w pc loops).weave w = { c.weave w with ckpt := some k, consumed := [], consumedOver := false } ∧
      k.pc = pc ∧ k.loops = loops ∧ k.s = (c.weave w).s ∧ k.cycle = c.now ∧ k.fcsr = (c.weave w).fcsr ∧ k.place = (c.weave w).place ∧
      k.status = (c.weave w).status ∧ k.v = maskedV (c.weave w).v (c.weave w).chkmask :=
  ⟨_, setW_weave_same c w _, rfl, rfl, rfl, rfl, rfl, rfl, rfl, rfl⟩
theorem swapPlaces_getElem? (place : List Bool) (mask : Nat) {i : Nat} (hi : i < 16) :
    (swapPlaces place mask)[i]? = place[i]?.map fun b => b != bitAt mask i := by
  have hr : (List.range 16)[i]? = some i := by simp [hi]
  rw [swapPlaces, List.getElem?_map, List.zip, List.getElem?_zipWith, hr]
  cases place[i]? <;> rfl
/-- A weave after the steps of a boundary, with its checkpoint. -/
theorem boundaryTail_weave_same (c : Core) (w mask pc : Nat) (loops : List LoopLevel) :
    let z := cleared (pended { c.weave w with place := swapPlaces (c.weave w).place mask, pendSwap := none })
    ∃ k, (c.boundaryTail w mask pc loops).weave w = Weave.countPhase { z with ckpt := some k, consumed := [], consumedOver := false } ∧
      k.pc = pc ∧ k.loops = loops ∧ k.s = z.s ∧ k.cycle = c.now ∧ k.fcsr = z.fcsr ∧ k.place = z.place ∧
      k.status = z.status ∧ k.v = maskedV z.v z.chkmask := by
  intro z
  let c₁ := c.modW w fun x => { x with place := swapPlaces x.place mask }
  have h₁ : c₁.weave w = { c.weave w with place := swapPlaces (c.weave w).place mask } :=
    modW_weave_same c w fun x => { x with place := swapPlaces x.place mask }
  let c₂ := (c₁.pendings w).modW w cleared
  have h₂ : c₂.weave w = z := by
    rw [modW_weave_same, pendings_weave_same, h₁]
  have hnow : c₂.now = c.now := pendings_now c₁ w
  obtain ⟨k, hk, hpc, hloops, hs, hcycle, hfcsr, hplace, hstatus, hv⟩ := capture_weave_same c₂ w pc loops
  rw [h₂] at hk hs hfcsr hplace hstatus hv
  refine ⟨k, ?_, hpc, hloops, hs, hcycle.trans hnow, hfcsr, hplace, hstatus, hv⟩
  exact (modW_weave_same _ w Weave.countPhase).trans (congrArg Weave.countPhase hk)
theorem boundarySteps : Claims.BoundarySteps := by
  intro c w mask pc loops x y
  obtain ⟨k, hy, hpc, hloops, hs, hcycle, hfcsr, hplace, hstatus, hv⟩ := boundaryTail_weave_same c w mask pc loops
  have hy : y = _ := hy
  rw [hy]
  refine ⟨rfl, ?_, ?_, rfl, rfl, rfl, rfl, rfl, rfl, rfl, fun i hi _ => swapPlaces_getElem? x.place mask hi,
    k, rfl, hpc, hloops, hs, hcycle, hfcsr, hplace, ?_, ?_, fun r l hbit => ?_⟩
  · exact (cleared_status _).1
  · exact (cleared_status _).2
  · rw [hstatus]
    exact (cleared_status _).1
  · rw [hstatus]
    exact (cleared_status _).2
  · rw [hv]
    exact mget?_filter _ fun _ => hbit
end Sys2Proof.Proofs
end
section
/-! SUPPORT. The completion of a boundary of several weaves (O23). -/
namespace Sys2Proof.Proofs
open Sys2Proof.Machine Sys2Proof.Claims Sys2Proof.Laws

/-! ## Lists of weaves -/

theorem mem_insertNat {l : List Nat} {m n : Nat} : m ∈ insertNat l n ↔ m = n ∨ m ∈ l := by
  induction l with
  | nil => simp [insertNat]
  | cons k l ih =>
    rw [insertNat]
    split
    · simp
    · split
      next h => simp [h]
      next => simp [ih, or_left_comm]
theorem insertNat_ascends {l : List Nat} (h : l.Pairwise (· < ·)) (n : Nat) : (insertNat l n).Pairwise (· < ·) := by
  induction l with
  | nil => simp [insertNat]
  | cons k l ih =>
    obtain ⟨hk, hl⟩ := List.pairwise_cons.mp h
    rw [insertNat]
    split
    next hlt => exact List.pairwise_cons.mpr ⟨fun m hm => (List.mem_cons.mp hm).elim (fun e => e ▸ hlt) fun hm => hlt.trans (hk m hm), h⟩
    next hle =>
      split
      · exact h
      · refine List.pairwise_cons.mpr ⟨fun m hm => ?_, ih hl⟩
        rcases mem_insertNat.mp hm with rfl | hm
        · omega
        · exact hk m hm
/-- The weaves of a boundary, each once. -/
theorem insertNats (ws : List Nat) : (ws.foldl insertNat []).Nodup ∧ ∀ w, w ∈ ws.foldl insertNat [] ↔ w ∈ ws := by
  suffices h : ∀ l : List Nat, l.Pairwise (· < ·) → (ws.foldl insertNat l).Pairwise (· < ·) ∧ ∀ w, w ∈ ws.foldl insertNat l ↔ w ∈ l ∨ w ∈ ws by
    obtain ⟨hsorted, hmem⟩ := h [] List.Pairwise.nil
    exact ⟨hsorted.imp fun h => Nat.ne_of_lt h, fun w => (hmem w).trans (by simp)⟩
  induction ws with
  | nil => exact fun l h => ⟨h, by simp⟩
  | cons x ws ih =>
    intro l h
    obtain ⟨hsorted, hmem⟩ := ih (insertNat l x) (insertNat_ascends h x)
    refine ⟨hsorted, fun w => (hmem w).trans ?_⟩
    rw [mem_insertNat, List.mem_cons]
    tauto
theorem mem_insertPub {p q : Nat × Nat} {l : List (Nat × Nat)} : q ∈ insertPub p l ↔ q = p ∨ q ∈ l := by
  induction l with
  | nil => simp [insertPub]
  | cons r l ih =>
    rw [insertPub]
    split
    · simp
    · simp [ih, or_left_comm]
theorem mem_insertPubs {q : Nat × Nat} (ps l : List (Nat × Nat)) : q ∈ ps.foldl (fun l p => insertPub p l) l ↔ q ∈ l ∨ q ∈ ps := by
  induction ps generalizing l with
  | nil => simp
  | cons p ps ih =>
    rw [List.foldl_cons, ih, mem_insertPub, List.mem_cons]
    tauto

/-! ## What the steps keep -/

/-- The parts of a weave by which it waits for boundaries and has passed them, with what it has buffered. -/
def phasePart (x : Weave) : Word × Wait × Map BufRow × List BufGlobal := (x.phaseno, x.wait, x.buf, x.gbuf)

/-- The cycle, the launches and every weave's part of the phases are as before. -/
structure KeepsPhase (c d : Core) : Prop where
  now : d.now = c.now
  launches : d.launches = c.launches
  part : ∀ v, phasePart (d.weave v) = phasePart (c.weave v)

namespace KeepsPhase
theorem refl (c : Core) : KeepsPhase c c := ⟨rfl, rfl, fun _ => rfl⟩
theorem trans {c d e : Core} (h : KeepsPhase c d) (g : KeepsPhase d e) : KeepsPhase c e :=
  ⟨g.now.trans h.now, g.launches.trans h.launches, fun v => (g.part v).trans (h.part v)⟩
theorem foldl {α : Type} {f : Core → α → Core} (h : ∀ c x, KeepsPhase c (f c x)) (xs : List α) : ∀ c, KeepsPhase c (xs.foldl f c) := by
  induction xs with
  | nil => exact refl
  | cons x xs ih => exact fun c => (h c x).trans (ih _)
theorem of_rows {c d : Core} (h : RowsWritten c d) : KeepsPhase c d :=
  ⟨h.now, h.launches, h.weaveField phasePart fun _ => rfl⟩
theorem setW (c : Core) (w : Nat) {x : Weave} (h : phasePart x = phasePart (c.weave w)) : KeepsPhase c (c.setW w x) := by
  refine ⟨rfl, rfl, fun v => ?_⟩
  by_cases hv : v = w
  · subst hv
    rw [setW_weave_same, h]
  · rw [setW_weave_other _ _ hv]
theorem refreshView (c : Core) (w : Nat) : KeepsPhase c (c.refreshView w) := setW c w rfl
theorem bankPassed (c : Core) (n sec : Nat) : KeepsPhase c (c.bankPassed n sec) := by
  unfold Core.bankPassed
  refine foldl (fun c k => foldl (fun c m => ?_) _ c) _ c
  dsimp only
  split
  · split
    · exact ⟨rfl, rfl, fun _ => rfl⟩
    · exact ⟨rfl, rfl, fun _ => rfl⟩
  · exact refl c
end KeepsPhase

/-! ## Publications -/

theorem publish_eq (c : Core) (w scope : Nat) : ∃ d, KeepsPhase c d ∧ c.publish w scope = d.modW w fun x => { x with buf := [] } := by
  unfold Core.publish
  extract_lets wv c'
  have h : RowsWritten c c' := .of_rest rfl rfl
  refine ⟨_, .of_rows (h.trans (.foldl (fun e p => ?_) wv.buf c')), rfl⟩
  exact (writeShared_written e p.1 _ _ _ _ _ _).trans (ownView_written _ w p.1)
/-- A publication of a weave that holds no global rows leaves its phase buffer empty. -/
theorem publishAll_part {c : Core} (p : Nat × Nat) (hg : (c.weave p.1).gbuf = []) :
    let d := c.publishAll p.1 p.2
    d.now = c.now ∧ d.launches = c.launches ∧
    ∀ v, phasePart (d.weave v) = if v = p.1 then ((c.weave v).phaseno, (c.weave v).wait, [], []) else phasePart (c.weave v) := by
  obtain ⟨e, he, heq⟩ := publish_eq c p.1 p.2
  have hall : c.publishAll p.1 p.2 = (e.modW p.1 fun x => { x with buf := [] }).modW p.1 fun x => { x with gbuf := [] } := by
    unfold Core.publishAll
    rw [hg, heq]
    rfl
  intro d
  have hd : d = _ := hall
  rw [hd]
  refine ⟨he.now, he.launches, fun v => ?_⟩
  have hpart := he.part v
  split
  next hv =>
    subst hv
    rw [modW_weave_same, modW_weave_same]
    simp only [phasePart, Prod.mk.injEq] at hpart ⊢
    exact ⟨hpart.1, hpart.2.1, trivial⟩
  next hv =>
    rw [modW_weave_other _ _ hv, modW_weave_other _ _ hv]
    exact hpart
/-- Publications empty the buffers of their weaves. -/
theorem publishAlls_part (ps : List (Nat × Nat)) {c : Core} (hg : ∀ v, (c.weave v).gbuf = []) :
    let d := ps.foldl (fun c p => c.publishAll p.1 p.2) c
    d.now = c.now ∧ d.launches = c.launches ∧ ∀ v, (d.weave v).phaseno = (c.weave v).phaseno ∧ (d.weave v).wait = (c.weave v).wait ∧
      ((∃ p ∈ ps, p.1 = v) ∨ (c.weave v).buf = [] → (d.weave v).buf = []) := by
  induction ps generalizing c with
  | nil => exact ⟨rfl, rfl, fun v => ⟨rfl, rfl, by simp⟩⟩
  | cons p ps ih =>
    obtain ⟨hnow, hlaunches, hpart⟩ := publishAll_part p (hg p.1)
    have hfields : ∀ v, ((c.publishAll p.1 p.2).weave v).phaseno = (c.weave v).phaseno ∧
        ((c.publishAll p.1 p.2).weave v).wait = (c.weave v).wait ∧
        ((c.publishAll p.1 p.2).weave v).buf = (if v = p.1 then [] else (c.weave v).buf) ∧ ((c.publishAll p.1 p.2).weave v).gbuf = [] := by
      intro v
      have h := hpart v
      split at h
      next hv =>
        simp only [phasePart, Prod.mk.injEq] at h
        simpa [hv] using h
      next hv =>
        simp only [phasePart, Prod.mk.injEq, hg v] at h
        simpa [hv] using h
    obtain ⟨hnow', hlaunches', hfields'⟩ := ih (c := c.publishAll p.1 p.2) fun v => (hfields v).2.2.2
    refine ⟨hnow'.trans hnow, hlaunches'.trans hlaunches, fun v => ?_⟩
    obtain ⟨hphase, hwait, hbuf, -⟩ := hfields v
    obtain ⟨hphase', hwait', hbuf'⟩ := hfields' v
    refine ⟨hphase'.trans hphase, hwait'.trans hwait, fun h => hbuf' ?_⟩
    rw [hbuf]
    rcases h with ⟨q, hq, rfl⟩ | h
    · rcases List.mem_cons.mp hq with rfl | hq
      · exact .inr (if_pos rfl)
      · exact .inl ⟨q, hq, rfl⟩
    · exact .inr (by rw [h, ite_self])

/-! ## The passage of a weave -/

/-- The cycle, the launches and the other weaves are as before. -/
structure KeepsOthers (w : Nat) (c d : Core) : Prop where
  now : d.now = c.now
  launches : d.launches = c.launches
  others : ∀ v, v ≠ w → d.weave v = c.weave v

namespace KeepsOthers
theorem trans {w : Nat} {c d e : Core} (h : KeepsOthers w c d) (g : KeepsOthers w d e) : KeepsOthers w c e :=
  ⟨g.now.trans h.now, g.launches.trans h.launches, fun v hv => (g.others v hv).trans (h.others v hv)⟩
theorem setW (w : Nat) (c : Core) (x : Weave) : KeepsOthers w c (c.setW w x) := ⟨rfl, rfl, fun _ hv => setW_weave_other c x hv⟩
theorem modW (w : Nat) (c : Core) (f : Weave → Weave) : KeepsOthers w c (c.modW w f) := setW w c _
theorem swapAtBoundary (w : Nat) (c : Core) : KeepsOthers w c (c.swapAtBoundary w) := by
  unfold Core.swapAtBoundary
  split
  · exact (modW w c fun x => { x with pendSwap := none }).trans ⟨rfl, rfl, fun _ _ => rfl⟩
  · exact ⟨rfl, rfl, fun _ _ => rfl⟩
theorem divided (w : Nat) (c : Core) (p : Nat) (d : Option Nat) : KeepsOthers w c (Proofs.divided c w p d) := by
  refine ⟨divided_now c w p d, ?_, fun v _ => divided_weave c w p d v⟩
  cases d with
  | none => rfl
  | some d =>
    change (c.applyDiv w p d).launches = _
    unfold Core.applyDiv
    extract_lets port sec
    split <;> rfl
theorem pendings (w : Nat) (c : Core) : KeepsOthers w c (c.pendings w) := by
  rw [pendings_eq]
  exact ((((swapAtBoundary w c).trans (divided w _ 0 _)).trans (divided w _ 1 _)).trans (divided w _ 2 _)).trans (modW w _ pended)
theorem boundaryTail (w : Nat) (c : Core) (mask pc : Nat) (loops : List LoopLevel) : KeepsOthers w c (c.boundaryTail w mask pc loops) :=
  ((((modW w c _).trans (pendings w _)).trans (modW w _ _)).trans (setW w _ _)).trans (modW w _ _)
theorem passBoundary (w : Nat) (c : Core) (mask : Nat) : KeepsOthers w c (c.passBoundary w mask) := by
  unfold Core.passBoundary
  extract_lets wv c₁ c₂
  have h : KeepsOthers w c c₂ := (boundaryTail w c mask _ _).trans (modW w _ _)
  split
  · exact h.trans ⟨rfl, rfl, fun _ _ => rfl⟩
  · exact h
end KeepsOthers

/-- A weave that has passed a boundary stands at a landing point, outside handlers (R35, R321). -/
def landed (now : Nat) (x : Weave) : Weave :=
  if x.inHandler then x else { x with landing := some (x.landing.getD 1), passed := some now }
theorem landed_part (now : Nat) (x : Weave) : phasePart (landed now x) = phasePart x := by
  unfold landed
  split <;> rfl
/-- A weave that passes a boundary counts it, and keeps its wait and its buffers. -/
theorem passBoundary_part (c : Core) (w mask : Nat) : phasePart ((c.passBoundary w mask).weave w) =
    ((c.weave w).phaseno + 1, (c.weave w).wait, (c.weave w).buf, (c.weave w).gbuf) := by
  let c₁ := c.boundaryTail w mask (c.weave w).pc.toNat (c.weave w).loops
  have hsched : (c.passBoundary w mask).weave w = (c₁.modW w (landed c₁.now)).weave w := by
    unfold Core.passBoundary
    extract_lets wv e₁ e₂
    split <;> rfl
  obtain ⟨k, hk, -⟩ := boundaryTail_weave_same c w mask (c.weave w).pc.toNat (c.weave w).loops
  rw [hsched, modW_weave_same, landed_part, hk]
  rfl
/-- The passage of one of a boundary's weaves, after the publications (R27). -/
def passOne (scope : Nat) (c : Core) (w : Nat) : Core :=
  let mask := (c.weave w).maskOf scope
  let c := if scope = 0 then c else c.refreshView w
  let c := match (c.weave w).launch with
    | some n => if scope = 0 then c else c.bankPassed n (secOf w)
    | none => c
  let c := c.passBoundary w mask
  c.modW w fun x => { x with wait := x.wait.complete scope c.now, aside := x.aside.complete scope c.now }
theorem passOne_part (scope : Nat) (c : Core) (w : Nat) :
    let d := passOne scope c w
    d.now = c.now ∧ d.launches = c.launches ∧ ∀ v, phasePart (d.weave v) =
      if v = w then ((c.weave w).phaseno + 1, (c.weave w).wait.complete scope c.now, (c.weave w).buf, (c.weave w).gbuf)
      else phasePart (c.weave v) := by
  intro d
  have hd : d = passOne scope c w := rfl
  unfold passOne at hd
  extract_lets mask c₁ c₂ c₃ at hd
  have h₁ : KeepsPhase c c₁ := by
    unfold c₁
    split
    · exact .refl c
    · exact .refreshView c w
  have h₂ : KeepsPhase c c₂ := by
    refine h₁.trans ?_
    unfold c₂
    split
    · split
      · exact .refl c₁
      · exact .bankPassed c₁ _ _
    · exact .refl c₁
  have h₃ := KeepsOthers.passBoundary w c₂ mask
  have hpass := passBoundary_part c₂ w mask
  have hpart := h₂.part w
  rw [hd]
  refine ⟨h₃.now.trans h₂.now, h₃.launches.trans h₂.launches, fun v => ?_⟩
  split
  next hv =>
    subst hv
    rw [modW_weave_same]
    have hnow : c₃.now = c.now := h₃.now.trans h₂.now
    simp only [phasePart, Prod.mk.injEq] at hpass hpart ⊢
    obtain ⟨hphase, hwait, hbuf, hgbuf⟩ := hpass
    obtain ⟨hphase₂, hwait₂, hbuf₂, hgbuf₂⟩ := hpart
    exact ⟨by rw [← hphase₂, ← hphase], by rw [← hwait₂, ← hwait, hnow], hbuf.trans hbuf₂, hgbuf.trans hgbuf₂⟩
  next hv =>
    rw [modW_weave_other _ _ hv, h₃.others v hv]
    exact h₂.part v
theorem passAll_part (scope : Nat) (ws : List Nat) (hnodup : ws.Nodup) (c : Core) :
    let d := ws.foldl (passOne scope) c
    d.launches = c.launches ∧ ∀ v, phasePart (d.weave v) =
      if v ∈ ws then ((c.weave v).phaseno + 1, (c.weave v).wait.complete scope c.now, (c.weave v).buf, (c.weave v).gbuf)
      else phasePart (c.weave v) := by
  induction ws generalizing c with
  | nil => exact ⟨rfl, fun v => by simp⟩
  | cons w ws ih =>
    obtain ⟨hw, hnodup⟩ := List.nodup_cons.mp hnodup
    obtain ⟨hnow, hlaunches, hpart⟩ := passOne_part scope c w
    obtain ⟨hlaunches', hpart'⟩ := ih hnodup (passOne scope c w)
    refine ⟨hlaunches'.trans hlaunches, fun v => (hpart' v).trans ?_⟩
    have hv := hpart v
    by_cases hvw : v = w
    · subst hvw
      rw [if_neg hw, if_pos List.mem_cons_self, hv, if_pos rfl]
    · rw [if_neg hvw] at hv
      by_cases hmem : v ∈ ws
      · rw [if_pos hmem, if_pos (List.mem_cons_of_mem w hmem), hnow]
        simp only [phasePart, Prod.mk.injEq] at hv ⊢
        obtain ⟨hphase, hwait, hbuf, hgbuf⟩ := hv
        exact ⟨by rw [hphase], by rw [hwait], hbuf, hgbuf⟩
      · rw [if_neg hmem, if_neg (by simp [hvw, hmem]), hv]

/-! ## The completion -/

/-- Phase buffers that fail: each of their weaves is cancelled in this cycle, and nothing goes from the agenda (R376). -/
theorem failAll (ws : List Nat) (c : Core) :
    let d := ws.foldl (fun c w => (c.modW w fun x => { x with bufBad := [] }).sched c.now bLand w
      (.cancelAt w 5 (unitCode ⟨0, secOf w, w % 4⟩) 0 false)) c
    d.now = c.now ∧ d.launches = c.launches ∧ d.mem = c.mem ∧ (∀ e ∈ c.agenda, e ∈ d.agenda) ∧
      ∀ w ∈ ws, ⟨.cycle c.now, bLand, w, .cancelAt w 5 (unitCode ⟨0, secOf w, w % 4⟩) 0 false⟩ ∈ d.agenda := by
  induction ws generalizing c with
  | nil => exact ⟨rfl, rfl, rfl, fun _ h => h, by simp⟩
  | cons x ws ih =>
    obtain ⟨hnow, hlaunches, hmem, hkeeps, hagenda⟩ := ih ((c.modW x fun y => { y with bufBad := [] }).sched c.now bLand x
      (.cancelAt x 5 (unitCode ⟨0, secOf x, x % 4⟩) 0 false))
    refine ⟨hnow, hlaunches, hmem, fun e he => hkeeps e (List.mem_append_left _ he), fun w hw => ?_⟩
    rcases List.mem_cons.mp hw with rfl | hw
    · exact hkeeps _ (List.mem_append_right _ (List.mem_singleton.mpr rfl))
    · exact hagenda w hw
theorem complete_of_boundary (via : Bool) (scope m now : Nat) :
    (Wait.boundary via scope m none).complete scope now = .boundary via scope m (some now) := if_pos rfl
theorem completeBoundary_passes {s : State} {n : Nat} {l : Launch} {b : Boundary} (hl : s.core.launch? n = some l)
    (hgood : ∀ w ∈ b.waiting, (s.core.weave w).bufBad = []) (hg : ∀ v, (s.core.weave v).gbuf = []) :
    Passed s { s with core := s.core.completeBoundary n b } n l b := by
  have hany : (b.waiting.any fun w => !(s.core.weave w).bufBad.isEmpty) = false := by
    rw [List.any_eq_false]
    intro w hw
    simp [hgood w hw]
  let ws := b.waiting.foldl insertNat []
  obtain ⟨hnodup, hmem⟩ := insertNats b.waiting
  let c₁ := s.core.modL n fun l => { l with bounds := l.bounds.erase b }
  let c₂ := c₁.publishDue (ws.map fun w => (w, b.scope))
  have heq : s.core.completeBoundary n b = ws.foldl (passOne b.scope) c₂ := by
    unfold Core.completeBoundary
    rw [hany]
    rfl
  have hw₁ : ∀ v, c₁.weave v = s.core.weave v := modL_weave _ _ _
  have hg₁ : ∀ v, (c₁.weave v).gbuf = [] := fun v => by rw [hw₁, hg]
  obtain ⟨hnow₂, hlaunches₂, hpart₂⟩ := publishAlls_part (((ws.map fun w => (w, b.scope)) ++ c₁.duePublishers).foldl (fun l p => insertPub p l) [])
    hg₁
  obtain ⟨hlaunches, hpart⟩ := passAll_part b.scope ws hnodup c₂
  refine ⟨?_, fun w hw => ?_⟩
  · have hlaunch : (s.core.completeBoundary n b).launch? n = c₁.launch? n := by
      rw [heq, Core.launch?, Core.launch?, hlaunches]
      exact congrArg (mget? · n) hlaunches₂
    rw [hlaunch, launch?_modL_same hl]
    rfl
  · have hws : w ∈ ws := (hmem w).mpr hw
    have h := hpart w
    rw [← heq, if_pos hws] at h
    simp only [phasePart, Prod.mk.injEq] at h
    obtain ⟨hphase, hwait, hbuf, -⟩ := h
    obtain ⟨hphase₂, hwait₂, hbuf₂⟩ := hpart₂ w
    refine ⟨?_, hbuf.trans (hbuf₂ (.inl ⟨(w, b.scope), ?_, rfl⟩)), fun via m hvia => ?_⟩
    · rw [hphase]
      exact congrArg (· + 1) (hphase₂.trans (by rw [hw₁]))
    · rw [mem_insertPubs]
      exact .inr (List.mem_append_left _ (List.mem_map.mpr ⟨w, hws, rfl⟩))
    · have hwait' : (c₂.weave w).wait = .boundary via b.scope m none := hwait₂.trans (by rw [hw₁, hvia])
      have hnow : c₂.now = s.now := hnow₂.trans (modL_now _ _ _)
      rw [hwait, hwait', hnow, complete_of_boundary]
theorem completeBoundary_fails {s : State} {n : Nat} {b : Boundary} (hbad : ∃ w ∈ b.waiting, (s.core.weave w).bufBad ≠ []) :
    (s.core.completeBoundary n b).launches = s.core.launches ∧ (s.core.completeBoundary n b).mem = s.core.mem ∧
      ∀ w ∈ b.waiting, (s.core.weave w).bufBad ≠ [] →
        ⟨.cycle s.now, bLand, w, .cancelAt w 5 (unitCode ⟨0, secOf w, w % 4⟩) 0 false⟩ ∈ (s.core.completeBoundary n b).agenda := by
  have hany : (b.waiting.any fun w => !(s.core.weave w).bufBad.isEmpty) = true := by
    obtain ⟨w, hw, hne⟩ := hbad
    exact List.any_eq_true.mpr ⟨w, hw, by simpa using hne⟩
  unfold Core.completeBoundary
  rw [hany]
  obtain ⟨-, hlaunches, hmem, -, hagenda⟩ := failAll (b.waiting.filter fun w => !(s.core.weave w).bufBad.isEmpty) s.core
  exact ⟨hlaunches, hmem, fun w hw hne => hagenda w (List.mem_filter.mpr ⟨hw, by simpa using hne⟩)⟩
theorem boundaryCompletion : Claims.BoundaryCompletion := by
  intro s n scope unit i bar hi
  let mine (b : Boundary) : Bool := b.bar == bar && b.scope == scope && b.unit == unit
  have hexec : Machine.exec i s = .next (s.modC fun c => match c.launch? n with
      | none => c
      | some l => match l.bounds.find? mine with
        | none => c
        | some b => c.completeBoundary n b) := by
    rcases hi with ⟨rfl, rfl⟩ | ⟨k, rfl, rfl⟩
    · have hmine : mine = fun b => b.bar.isNone && b.scope == scope && b.unit == unit :=
        funext fun b => by simp only [mine]; cases b.bar <;> rfl
      rw [hmine]
      rfl
    · rfl
  refine ⟨_, hexec, rfl, fun hnone => ?_, fun l b hl hb => ?_⟩
  · cases hl : s.core.launch? n with
    | none => simp only [State.modC, hl]
    | some l =>
      rw [hl] at hnone
      have hnone : l.bounds.find? mine = none := hnone
      simp only [State.modC, hl, hnone]
  · simp only [State.modC, hl, show l.bounds.find? mine = some b from hb]
    exact ⟨completeBoundary_passes hl, completeBoundary_fails⟩

/-- Settles O23, by its four parts. -/
theorem phasesAndBoundaries : Obligations.PhasesAndBoundaries := ⟨phaseAndRealign, boundariesReached, boundarySteps, boundaryCompletion⟩
end Sys2Proof.Proofs
end
section
/-! SUPPORT. Writes of frames: the rows that they leave, and what stays (R316, R318; O29). -/
namespace Sys2Proof.Proofs
open Sys2Proof.Machine Sys2Proof.Claims Sys2Proof.Laws

/-! ## Rows of a frame -/

/-- `d` is `c` but for rows whose address satisfies `p`, with their views, and it is plain. -/
structure Framed (p : Nat → Prop) (c d : Core) : Prop where
  written : Proofs.RowsWritten c d
  plain : Plain d
  bytes : ∀ a, ¬ p (rowAddr a) → memGet d.mem a = memGet c.mem a
  rows : ∀ a, ¬ p (rowAddr a) → d.row a = c.row a

namespace Framed
theorem refl {c : Core} (h : Plain c) (p : Nat → Prop) : Framed p c c := ⟨.refl c, h, fun _ _ => rfl, fun _ _ => rfl⟩
theorem mono {p q : Nat → Prop} {c d : Core} (h : Framed p c d) (hpq : ∀ r, p r → q r) : Framed q c d :=
  ⟨h.written, h.plain, fun a ha => h.bytes a fun hp => ha (hpq _ hp), fun a ha => h.rows a fun hp => ha (hpq _ hp)⟩
theorem trans {p : Nat → Prop} {c d e : Core} (h : Framed p c d) (g : Framed p d e) : Framed p c e :=
  ⟨h.written.trans g.written, g.plain, fun a ha => (g.bytes a ha).trans (h.bytes a ha), fun a ha => (g.rows a ha).trans (h.rows a ha)⟩
end Framed

@[simp] theorem ownView_mem (c : Core) (w addr : Nat) : (c.ownView w addr).mem = c.mem := by
  unfold Core.ownView
  split
  · rfl
  · split <;> rfl
@[simp] theorem ownView_flips (c : Core) (w addr : Nat) : (c.ownView w addr).flips = c.flips := by
  unfold Core.ownView
  split
  · rfl
  · split <;> rfl
theorem frameRow_mem (c : Core) (w addr : Nat) (x : Word) :
    (c.frameRow w addr x).mem = (c.writeRow (rowAddr addr) x allOnes none).mem := ownView_mem _ w addr
theorem frameRow_framed {c : Core} (h : Plain c) (w addr : Nat) (x : Word) : Framed (· = rowAddr addr) c (c.frameRow w addr x) := by
  have hne : ∀ a, rowAddr a ≠ rowAddr addr → rowAddr a ≠ rowAddr (rowAddr addr) := fun a ha => by rwa [rowAddr_rowAddr]
  refine ⟨frameRow_written c w addr x, ⟨?_, ?_⟩, fun a ha => ?_, fun a ha => ?_⟩
  · rw [frameRow_mem]
    exact (h.writeRow _ _ _ _).wf
  · exact (ownView_flips _ w addr).trans (h.writeRow (rowAddr addr) x allOnes none).flips
  · rw [frameRow_mem]
    exact memGet_writeRow_other h _ _ _ (hne a ha)
  · exact (row_of_mem (frameRow_mem c w addr x) a).trans (row_writeRow_other h _ _ _ (hne a ha))
theorem row_frameRow_same {c : Core} (h : Plain c) (w addr : Nat) (x : Word) : (c.frameRow w addr x).row addr = x := by
  rw [row_of_mem (frameRow_mem c w addr x), row_writeRow_same h x allOnes none (rowAddr_rowAddr addr).symm, mergeBits_allOnes]

/-- Rows from an aligned address upward. -/
def rowsAt (addr n r : Nat) : Prop := addr ≤ r ∧ r < addr + 8 * n

theorem frameRows_framed {c : Core} (h : Plain c) (w : Nat) {addr : Nat} (ha : addr % 8 = 0) (xs : List Word) :
    Framed (rowsAt addr xs.length) c (c.frameRows w addr xs) ∧ ∀ i x, xs[i]? = some x → (c.frameRows w addr xs).row (addr + 8 * i) = x := by
  induction xs generalizing c addr with
  | nil => exact ⟨.refl h _, by simp⟩
  | cons x xs ih =>
    have hx := frameRow_framed h w addr x
    have hrow : rowAddr addr = addr := by unfold rowAddr; omega
    obtain ⟨hxs, hrows⟩ := ih hx.plain (addr := addr + 8) (by omega)
    refine ⟨(hx.mono fun r hr => ?_).trans (hxs.mono fun r hr => ?_), fun i y hi => ?_⟩
    · simp only [rowsAt, List.length_cons]
      omega
    · simp only [rowsAt, List.length_cons] at hr ⊢
      omega
    · cases i with
      | zero =>
        obtain rfl : x = y := by simpa using hi
        refine (hxs.rows addr ?_).trans (row_frameRow_same h w addr x)
        simp only [rowsAt]
        omega
      | succ i =>
        have := hrows i y (by simpa using hi)
        rwa [show addr + 8 + 8 * i = addr + 8 * (i + 1) by omega] at this

/-! ## Latches (R318, R319) -/

/-- The data block of a latch. -/
theorem frameData_framed (w base : Nat) (hbase : base % 8 = 0) (data : Map Word) (hdata : ∀ p ∈ data, p.1 < 128) {c : Core} (h : Plain c) :
    Framed (rowsAt base 128) c (data.foldl (fun c (lane, d) => c.frameRow w (base + 8 * lane) d) c) := by
  induction data generalizing c with
  | nil => exact .refl h _
  | cons p data ih =>
    have hp := hdata p List.mem_cons_self
    have hx := frameRow_framed h w (base + 8 * p.1) p.2
    refine (hx.mono fun r hr => ?_).trans (ih (fun q hq => hdata q (List.mem_cons_of_mem _ hq)) hx.plain)
    have : rowAddr (base + 8 * p.1) = base + 8 * p.1 := by unfold rowAddr; omega
    simp only [rowsAt]
    omega
/-- Latch entry i of a frame: the rows of its descriptor and of its data block. -/
def latchAt (f i r : Nat) : Prop := rowsAt (f + 256 + 32 * i) 4 r ∨ rowsAt (f + 1024 + 1024 * i) 128 r
/-- Latch entry i, as an entry writes it. -/
def frameLatch (w f T : Nat) (fl : List Result) (c : Core) (i : Nat) : Core :=
  match fl[i]? with
  | none => c.frameRows w (f + 256 + 32 * i) [0, 0, 0, 0]
  | some x =>
    let c := c.frameRows w (f + 256 + 32 * i) (latchRows (latchRec T x) x.lanes)
    x.data.foldl (fun c (lane, d) => c.frameRow w (f + 1024 + 1024 * i + 8 * lane) d) c
theorem frameLatch_framed (w : Nat) {f : Nat} (hf : f % 8 = 0) (T : Nat) {fl : List Result} (hfl : ∀ r ∈ fl, ∀ p ∈ r.data, p.1 < 128) {c : Core}
    (h : Plain c) (i : Nat) (hi : i < 16) : Framed (latchAt f i) c (frameLatch w f T fl c i) ∧
    ∀ r, fl[i]? = some r → (frameLatch w f T fl c i).row (f + 256 + 32 * i) =
      word (1 + (latchRec T r).file * 2 + r.reg.toNat * 16 + wrap (latchRec T r).delay 8 * 2 ^ 16) := by
  have hdesc : (f + 256 + 32 * i) % 8 = 0 := by omega
  unfold frameLatch
  split
  next hnone =>
    obtain ⟨hz, -⟩ := frameRows_framed h w hdesc [0, 0, 0, 0]
    exact ⟨hz.mono fun r hr => .inl hr, fun r hr => by rw [hnone] at hr; cases hr⟩
  next x hx =>
    obtain ⟨hd, hrows⟩ := frameRows_framed h w hdesc (latchRows (latchRec T x) x.lanes)
    have hdata := frameData_framed w (f + 1024 + 1024 * i) (by omega) x.data (hfl x (List.mem_of_getElem? hx)) hd.plain
    refine ⟨(hd.mono fun r hr => .inl hr).trans (hdata.mono fun r hr => .inr hr), fun r hr => ?_⟩
    obtain rfl : x = r := by rw [hx] at hr; exact Option.some.inj hr
    refine (hdata.rows _ ?_).trans (hrows 0 _ rfl)
    have : rowAddr (f + 256 + 32 * i) = f + 256 + 32 * i := by unfold rowAddr; omega
    simp only [rowsAt]
    omega
/-- The rows of a frame's latch entries. -/
def latchesAt (f r : Nat) : Prop := rowsAt (f + 256) 64 r ∨ rowsAt (f + 1024) 2048 r
theorem frameLatchList_framed (w : Nat) {f : Nat} (hf : f % 8 = 0) (T : Nat) {fl : List Result} (hfl : ∀ r ∈ fl, ∀ p ∈ r.data, p.1 < 128) {c : Core}
    (h : Plain c) (k : Nat) (hk : k ≤ 16) : Framed (latchesAt f) c ((List.range k).foldl (frameLatch w f T fl) c) ∧
    ∀ i r, i < k → fl[i]? = some r → ((List.range k).foldl (frameLatch w f T fl) c).row (f + 256 + 32 * i) =
      word (1 + (latchRec T r).file * 2 + r.reg.toNat * 16 + wrap (latchRec T r).delay 8 * 2 ^ 16) := by
  induction k with
  | zero => exact ⟨.refl h _, by simp⟩
  | succ k ih =>
    obtain ⟨hall, hrows⟩ := ih (by omega)
    obtain ⟨hone, hrow⟩ := frameLatch_framed w hf T hfl hall.plain k (by omega)
    rw [List.range_succ, List.foldl_append, List.foldl_cons, List.foldl_nil]
    refine ⟨hall.trans (hone.mono fun r hr => ?_), fun i r hi hr => ?_⟩
    · simp only [latchAt, latchesAt, rowsAt] at hr ⊢
      omega
    · rcases Nat.lt_succ_iff_lt_or_eq.mp hi with hlt | rfl
      · refine (hone.rows _ ?_).trans (hrows i r hlt hr)
        have : rowAddr (f + 256 + 32 * i) = f + 256 + 32 * i := by unfold rowAddr; omega
        simp only [latchAt, rowsAt]
        omega
      · exact hrow r hr

/-- The machine whose frame at f has its latch entries, before the results are noted as framed. -/
def latched (c : Core) (w f : Nat) : Core := (List.range 16).foldl (frameLatch w f c.now (inFlightAt (c.weave w).flight c.now)) c
/-- The note of the results that a frame holds. -/
def noteFramed (f : Nat) (fl : List Result) (x : Weave) : Weave := { x with framed := fl.zipIdx.map fun (r, i) => (r.id, f, i) }
theorem frameLatches_eq (c : Core) (w f : Nat) : c.frameLatches w f c.now = ((inFlightAt (c.weave w).flight c.now).length,
    (latched c w f).modW w (noteFramed f (inFlightAt (c.weave w).flight c.now))) := rfl
end Sys2Proof.Proofs
end
section
/-! SUPPORT. Entry to a trap: its frame, its weave and its handler's issue (R315, R316; O29). -/
namespace Sys2Proof.Proofs
open Sys2Proof.Machine Sys2Proof.Claims Sys2Proof.Laws

/-! ## The parts of an entry -/

/-- A weave but for what the writing of its frame changes. -/
def unframed (x y : Weave) : Weave := { y with refill := x.refill, views := x.views, framed := x.framed }
theorem RowsWritten.unframed {c d : Core} (h : Proofs.RowsWritten c d) {x : Weave} {w : Nat} (hx : Proofs.unframed x (c.weave w) = x) :
    Proofs.unframed x (d.weave w) = x := by
  have := congrArg (Proofs.unframed x) (h.weave w)
  exact this.trans hx
/-- A word of a loop level in a frame, 0 where there is no such level. -/
def levelWord (f : LoopLevel → Word) (loops : List LoopLevel) (i : Nat) : Word := ((loops[i]?).map f).getD 0
/-- The loop levels of a frame (R316). -/
def frameLevels (loops : List LoopLevel) : List Word := (List.range 6).flatMap fun i =>
  match loops[i]? with
  | some l => [levelRow0 l, levelRow1 l]
  | none => [0, 0]
theorem frameLevels_eq (loops : List LoopLevel) : frameLevels loops =
    (List.range 6).flatMap fun i => [levelWord levelRow0 loops i, levelWord levelRow1 loops i] := by
  have h : ∀ i, (match loops[i]? with
      | some l => [levelRow0 l, levelRow1 l]
      | none => [0, 0]) = [levelWord levelRow0 loops i, levelWord levelRow1 loops i] := by
    intro i
    unfold levelWord
    cases loops[i]? <;> rfl
  simp only [frameLevels, h]
/-- The first two words of the cause rows of a trap (R314). -/
def causeWord (ti : TrapInfo) : Word := word (ti.cause + ti.slot % 256 * 2 ^ 8 + ti.code * 2 ^ 16)
/-- The segment that a trap's frame holds; SIGFAIL starts it anew (R24, R317). -/
def trapSeg (c e : Core) (w : Nat) (ti : TrapInfo) : Segment :=
  if ti.cause = 0x09 then { (c.weave w).seg with count := 0, crc := 0xFFFFFFFF } else e.segAt w
/-- The first rows of a trap frame (R316); `c` is the machine at the entry, `e` that with the latches in the frame. -/
def trapRows (c e : Core) (w : Nat) (ti : TrapInfo) : List Word :=
  let x := c.weave w
  let seg := trapSeg c e w ti
  [causeWord ti, word ti.epc, x.status, word (x.loops.length + (InFlight c w).length * 2 ^ 8 + bnat x.bank * 2 ^ 16)] ++
    frameLevels x.loops ++
    [segRow0 seg true, segRow1 seg, word (c.now - x.startCycle), ti.info0, ti.info1, x.phaseno,
      word (wrap (e.tdelta w) 64), x.sval c.now 1, x.sval c.now 2, 0, 0, 0, 0, 0, 0, 0]
/-- The handles' rows of a trap frame. -/
def trapHandles (x : Weave) (ti : TrapInfo) : List Word :=
  if ti.preempt then x.handles.flatMap fun h => [handleRow0 h, handleRow1 h] else List.replicate 32 0
def trapLatched (c : Core) (w : Nat) : Core := (c.frameLatches w (trapFrame w) c.now).2
/-- The machine once the trap frame is written. -/
def trapFramed (c : Core) (w : Nat) (ti : TrapInfo) : Core :=
  ((trapLatched c w).frameRows w (trapFrame w) (trapRows c (trapLatched c w) w ti)).frameRows w (trapFrame w + 768) (trapHandles (c.weave w) ti)
/-- STATUS after the entry to a trap from a weave (R315). -/
def trapStatus (x : Weave) (ti : TrapInfo) : Word :=
  let st := (((x.setSt 5 x.priv).setSt 6 x.uee).setSt 0 true).setSt 1 false
  if ti.preempt then (st.setSt 4 true).status else st.status
/-- The registers that an entry to a trap sets (R315). -/
def trapWeave (c : Core) (w : Nat) (ti : TrapInfo) (z : Weave) : Weave := { z with
  tcause := causeWord ti
  epc := word ti.epc
  status := trapStatus (c.weave w) ti
  seg := { (trapSeg c (trapLatched c w) w ti) with nocyc := true }
  pc := BitVec.ofNat 14 (c.weave w).tvec.toNat
  pendTrap := none
  trapSched := if ti.preempt then 0 else ti.at_ + 1
  preempt := if ti.preempt then false else z.preempt
  preempted := ti.preempt || z.preempted
  fixedAt := some (c.now + 16 + 2 * (InFlight c w).length) }
def trapped (c : Core) (w : Nat) (ti : TrapInfo) : Core :=
  (((trapFramed c w ti).dropFlight w).leaveHeld w).modW w (trapWeave c w ti)
theorem enterTrap_eq (c : Core) (w : Nat) (ti : TrapInfo) : c.enterTrap w ti =
    if ti.fatal then ((trapped c w ti).unsched fun a => a == .issue w || a == .lateIssue w).sched c.now bAfter w (.fatalContextError w)
    else (trapped c w ti).schedIssue w (c.now + 16 + 2 * (InFlight c w).length) := by
  unfold Core.enterTrap trapped trapFramed
  rfl

/-! ## What the frame's rows leave -/

/-- The rows of a whole frame at f (R316). -/
def frameAt (f r : Nat) : Prop := f ≤ r ∧ r < f + 17408
/-- `d` is `c` with rows of a frame of weave w at f written, its latch descriptors among them. -/
structure HasLatches (c d : Core) (w f : Nat) : Prop where
  plain : Plain d
  now : d.now = c.now
  launches : d.launches = c.launches
  weave : unframed (c.weave w) (d.weave w) = c.weave w
  bytes : ∀ a, ¬ frameAt f (rowAddr a) → memGet d.mem a = memGet c.mem a
  latches : ∀ i r, (InFlight c w)[i]? = some r → d.row (f + 256 + 32 * i) =
    word (1 + 2 * fileCode r.file + 16 * r.reg.toNat + 2 ^ 16 * wrap (latchRec c.now r).delay 8)

theorem frameLatches_has {c : Core} {w f : Nat} (hold : Holdable c w) (hwf : Memory.wf c.mem = true) (hf : f % 8 = 0) :
    HasLatches c (c.frameLatches w f c.now).2 w f := by
  obtain ⟨hlen, -, hdata, hflips⟩ := hold
  obtain ⟨hall, hrows⟩ := frameLatchList_framed w hf c.now hdata ⟨hwf, hflips⟩ 16 (Nat.le_refl 16)
  rw [frameLatches_eq]
  refine ⟨⟨hall.plain.wf, hall.plain.flips⟩, hall.written.now, hall.written.launches, ?_, fun a ha => ?_, fun i r hr => ?_⟩
  · have hw : unframed (c.weave w) ((latched c w f).weave w) = c.weave w := RowsWritten.unframed hall.written rfl
    rw [modW_weave_same]
    exact hw
  · refine hall.bytes a fun hl => ha ?_
    simp only [latchesAt, frameAt, rowsAt] at hl ⊢
    omega
  · have hi : i < (InFlight c w).length := (List.getElem?_eq_some_iff.mp hr).1
    have h := hrows i r (by omega) hr
    refine Eq.trans h (congrArg word ?_)
    simp only [latchRec]
    ring
theorem HasLatches.frameRows {c d : Core} {w f : Nat} (h : HasLatches c d w f) {addr : Nat} (ha : addr % 8 = 0) (xs : List Word)
    (hin : f ≤ addr ∧ addr + 8 * xs.length ≤ f + 17408) (hout : addr + 8 * xs.length ≤ f + 256 ∨ f + 768 ≤ addr) (hf : f % 8 = 0)
    (hlen : (InFlight c w).length ≤ 16) : HasLatches c (d.frameRows w addr xs) w f := by
  obtain ⟨hframed, -⟩ := frameRows_framed h.plain w ha xs
  refine ⟨hframed.plain, hframed.written.now.trans h.now, hframed.written.launches.trans h.launches, RowsWritten.unframed hframed.written h.weave,
    fun a hout => ?_, fun i r hr => ?_⟩
  · refine (hframed.bytes a fun hl => hout ?_).trans (h.bytes a hout)
    simp only [frameAt, rowsAt] at hl ⊢
    omega
  · have hi : i < (InFlight c w).length := (List.getElem?_eq_some_iff.mp hr).1
    refine (hframed.rows _ ?_).trans (h.latches i r hr)
    have : rowAddr (f + 256 + 32 * i) = f + 256 + 32 * i := by unfold rowAddr; omega
    simp only [rowsAt]
    omega

theorem trapFrame_aligned (w : Nat) : trapFrame w % 8 = 0 := by
  unfold trapFrame storeFlat storeBase sysOff
  omega
theorem trapRows_eq (c e : Core) (w : Nat) (ti : TrapInfo) : trapRows c e w ti =
    let x := c.weave w
    let a := levelWord levelRow0 x.loops
    let b := levelWord levelRow1 x.loops
    [causeWord ti, word ti.epc, x.status, word (x.loops.length + (InFlight c w).length * 2 ^ 8 + bnat x.bank * 2 ^ 16),
      a 0, b 0, a 1, b 1, a 2, b 2, a 3, b 3, a 4, b 4, a 5, b 5,
      segRow0 (trapSeg c e w ti) true, segRow1 (trapSeg c e w ti), word (c.now - x.startCycle), ti.info0, ti.info1, x.phaseno,
      word (wrap (e.tdelta w) 64), x.sval c.now 1, x.sval c.now 2, 0, 0, 0, 0, 0, 0, 0] := by
  rw [trapRows, frameLevels_eq]
  rfl
theorem trapRows_length (c e : Core) (w : Nat) (ti : TrapInfo) : (trapRows c e w ti).length = 32 := by
  rw [trapRows_eq]
  rfl
theorem trapHandles_length {x : Weave} (h : x.handles.length = 16) (ti : TrapInfo) : (trapHandles x ti).length = 32 := by
  unfold trapHandles
  split
  · simp [h]
  · rfl
/-- A trap frame once it is written. -/
theorem trapFramed_has {c : Core} {w : Nat} (hold : Holdable c w) (hwf : Memory.wf c.mem = true) (ti : TrapInfo) :
    HasLatches c (trapFramed c w ti) w (trapFrame w) ∧
    ∀ i x, (trapRows c (trapLatched c w) w ti)[i]? = some x → (trapFramed c w ti).row (trapFrame w + 8 * i) = x := by
  have hf := trapFrame_aligned w
  have h₁ : HasLatches c (trapLatched c w) w (trapFrame w) := frameLatches_has hold hwf hf
  obtain ⟨hlen, hhandles, -, -⟩ := hold
  have hlen₂ := trapRows_length c (trapLatched c w) w ti
  have hlen₃ := trapHandles_length hhandles ti
  have h₂ := h₁.frameRows hf (trapRows c (trapLatched c w) w ti) (by omega) (by omega) hf hlen
  have h₃ := h₂.frameRows (addr := trapFrame w + 768) (by omega) (trapHandles (c.weave w) ti) (by omega) (by omega) hf hlen
  obtain ⟨-, hrows⟩ := frameRows_framed h₁.plain w hf (trapRows c (trapLatched c w) w ti)
  obtain ⟨hframed, -⟩ := frameRows_framed h₂.plain w (addr := trapFrame w + 768) (by omega) (trapHandles (c.weave w) ti)
  refine ⟨h₃, fun i x hi => (hframed.rows _ ?_).trans (hrows i x hi)⟩
  have hi' : i < 32 := hlen₂ ▸ (List.getElem?_eq_some_iff.mp hi).1
  have : rowAddr (trapFrame w + 8 * i) = trapFrame w + 8 * i := by unfold rowAddr; omega
  simp only [rowsAt]
  omega

/-! ## Bits of STATUS -/

theorem setBits_getLsbD (x : Word) {n : Nat} (hn : n < 64) (b : Bool) (m : Nat) :
    (setBits x n n (bnat b)).getLsbD m = if m = n then b else x.getLsbD m := by
  have hmask : ∀ k : Nat, (word (k * 2 ^ n)).getLsbD m = (decide (m < 64) && (k * 2 ^ n).testBit m) := fun k => BitVec.getLsbD_ofNat _ _ _
  have hsize : n + 1 - n = 1 := by omega
  rw [setBits, mergeBits, BitVec.getLsbD_or, BitVec.getLsbD_and, BitVec.getLsbD_and, BitVec.getLsbD_not, hmask, hmask, hsize]
  by_cases hm : m = n
  · subst hm
    cases b <;> simp [bnat, hn]
  · have hne : n ≠ m := fun h => hm h.symm
    by_cases h64 : m < 64
    · cases b <;> simp [bnat, hm, hne, h64, Nat.testBit_two_pow_of_ne]
    · cases b <;> simp [hm, h64, BitVec.getLsbD_of_ge x m (by omega)]
theorem setSt_getLsbD (x : Weave) {n : Nat} (hn : n < 64) (b : Bool) (m : Nat) :
    (x.setSt n b).status.getLsbD m = if m = n then b else x.status.getLsbD m := setBits_getLsbD x.status hn b m
theorem trapStatus_getLsbD (x : Weave) (ti : TrapInfo) (m : Nat) : (trapStatus x ti).getLsbD m =
    if m = 4 ∧ ti.preempt = true then true else if m = 1 then false else if m = 0 then true else if m = 6 then x.uee
    else if m = 5 then x.priv else x.status.getLsbD m := by
  unfold trapStatus
  cases hp : ti.preempt with
  | false => simp [setSt_getLsbD]
  | true => simp [setSt_getLsbD]

/-! ## The entry -/

/-- A weave whose held bundle gives way to a handler, with nothing in flight. -/
def leaving (x : Weave) : Weave := { x with
  flight := []
  walkWaited := none
  busWait := none
  ldh := .none
  realignTo := none
  aside := if x.wait = .none then x.aside else x.wait
  wait := .none }
theorem leaves_weave_same (c : Core) (w : Nat) : ((c.dropFlight w).leaveHeld w).weave w = leaving (c.weave w) := by
  unfold Core.leaveHeld
  extract_lets d
  have hd : d.weave w = { c.weave w with flight := [] } := dropFlight_weave_same c w
  refine (modW_weave_same (d.unsched fun a => a == .ldhReturn w) w fun x => { x with
    walkWaited := none, busWait := none, ldh := .none, realignTo := none
    aside := if x.wait = .none then x.aside else x.wait, wait := .none }).trans ?_
  rw [unsched_weave, hd]
  rfl
theorem trapped_weave (c : Core) (w : Nat) (ti : TrapInfo) :
    (trapped c w ti).weave w = trapWeave c w ti (leaving ((trapFramed c w ti).weave w)) := by
  rw [trapped, modW_weave_same, leaves_weave_same]
theorem leaves_mem (c : Core) (w : Nat) : ((c.dropFlight w).leaveHeld w).mem = c.mem := by
  unfold Core.leaveHeld Core.dropFlight
  rfl
theorem trapped_mem (c : Core) (w : Nat) (ti : TrapInfo) : (trapped c w ti).mem = (trapFramed c w ti).mem := by
  unfold trapped
  exact leaves_mem (trapFramed c w ti) w
theorem enterTrap_weave (c : Core) (w : Nat) (ti : TrapInfo) :
    (c.enterTrap w ti).weave w = trapWeave c w ti (leaving ((trapFramed c w ti).weave w)) := by
  rw [enterTrap_eq]
  split
  · exact trapped_weave c w ti
  · exact trapped_weave c w ti
theorem enterTrap_mem (c : Core) (w : Nat) (ti : TrapInfo) : (c.enterTrap w ti).mem = (trapFramed c w ti).mem := by
  rw [enterTrap_eq]
  split
  · exact trapped_mem c w ti
  · exact trapped_mem c w ti
end Sys2Proof.Proofs
end
section
/-! SUPPORT. Traps as they are taken: what stands before the entry of a weave that is alone (O29). -/
namespace Sys2Proof.Proofs
open Sys2Proof.Machine Sys2Proof.Claims Sys2Proof.Laws

/-! ## Before the entry -/

/-- `d` is `c` but for what ends before weave w enters a handler: its slip, its wait on a semaphore and its landing point. -/
structure Readies (w : Nat) (c d : Core) : Prop where
  now : d.now = c.now
  mem : d.mem = c.mem
  flips : d.flips = c.flips
  launches : d.launches = c.launches
  weave : ∃ ctr seg slip land, d.weave w = { c.weave w with slipctr := ctr, seg := seg, slipping := slip, landing := land }

namespace Readies
theorem of_weaves {w : Nat} {c d : Core} (hnow : d.now = c.now) (hmem : d.mem = c.mem) (hflips : d.flips = c.flips)
    (hlaunches : d.launches = c.launches) (hw : d.weaves = c.weaves) : Readies w c d :=
  ⟨hnow, hmem, hflips, hlaunches, _, _, _, _, weave_congr hw w⟩
theorem trans {w : Nat} {c d e : Core} (h : Readies w c d) (g : Readies w d e) : Readies w c e := by
  obtain ⟨_, _, _, _, hd⟩ := h.weave
  obtain ⟨ctr, seg, slip, land, he⟩ := g.weave
  exact ⟨g.now.trans h.now, g.mem.trans h.mem, g.flips.trans h.flips, g.launches.trans h.launches, ctr, seg, slip, land, by rw [he, hd]⟩
theorem modW {w : Nat} (c : Core) {f : Weave → Weave}
    (h : ∀ x, ∃ ctr seg slip land, f x = { x with slipctr := ctr, seg := seg, slipping := slip, landing := land }) : Readies w c (c.modW w f) := by
  obtain ⟨ctr, seg, slip, land, hf⟩ := h (c.weave w)
  exact ⟨rfl, rfl, rfl, rfl, ctr, seg, slip, land, (modW_weave_same c w f).trans hf⟩
/-- A field of the weave that its readiness leaves. -/
theorem field {α : Type} {w : Nat} {c d : Core} (h : Readies w c d) (g : Weave → α)
    (hg : ∀ x ctr seg slip land, g { x with slipctr := ctr, seg := seg, slipping := slip, landing := land } = g x := by intros; rfl) :
    g (d.weave w) = g (c.weave w) := by
  obtain ⟨ctr, seg, slip, land, hd⟩ := h.weave
  rw [hd, hg]
theorem inFlight {w : Nat} {c d : Core} (h : Readies w c d) : InFlight d w = InFlight c w := by
  rw [InFlight, InFlight, h.now, h.field Weave.flight]
theorem holdable {w : Nat} {c d : Core} (h : Readies w c d) (hc : Holdable c w) : Holdable d w := by
  rw [Holdable, h.inFlight, h.flips, h.field Weave.handles]
  exact hc
theorem undoServed {w : Nat} {c : Core} (h : (c.weave w).served = none) : c.undoServed w = c := by
  unfold Core.undoServed
  rw [h]
theorem endSlip {w : Nat} {c : Core} (hredun : (c.weave w).redun = false) : Readies w c (c.endSlip w) := by
  unfold Core.endSlip
  split
  · exact .of_weaves rfl rfl rfl rfl rfl
  next t _ =>
    have hmod : Readies w c (c.modW w fun x => { x.slipped (c.now - t) true with slipping := none }) :=
      .modW c fun x => ⟨slipAdd x.slipctr (c.now - t) 1, { x.seg with first := x.seg.first + (c.now - t) }, none, x.landing, by
        rw [Weave.slipped]
        simp⟩
    have hpartner : (c.modW w fun x => { x.slipped (c.now - t) true with slipping := none }).hasPartner w = false := by
      rw [Core.hasPartner, hmod.field Weave.redun, hredun, Bool.false_and]
    rw [Core.partnerTime, hpartner]
    exact hmod
/-- A weave that is alone is ready for a handler. -/
theorem alone {w : Nat} {c : Core} (h : Alone c w) : Readies w c (((c.undoServed w).dropWaiter w).endSlip w) := by
  obtain ⟨hredun, hserved⟩ := h
  rw [undoServed hserved]
  have hdrop : Readies w c (c.dropWaiter w) := .of_weaves rfl rfl rfl rfl rfl
  exact hdrop.trans (endSlip ((hdrop.field Weave.redun).trans hredun))
end Readies

/-- An entry from a readied machine, seen from the machine before. -/
theorem enterTrap_enters {c₀ c : Core} {w : Nat} (hready : Readies w c₀ c) (hold : Holdable c w) (hwf : Memory.wf c.mem = true)
    (ti : TrapInfo) : Entered c₀ (c.enterTrap w ti) w ti := by
  obtain ⟨⟨hplain, hnow, -, hz, hbytes, hlatches⟩, hrows⟩ := trapFramed_has hold hwf ti
  have hrow : ∀ a, (c.enterTrap w ti).row a = (trapFramed c w ti).row a := row_of_mem (enterTrap_mem c w ti)
  have hy := enterTrap_weave c w ti
  have hcell : ∀ i a v, (trapRows c (trapLatched c w) w ti)[i]? = some v → trapFrame w + 8 * i = a → (c.enterTrap w ti).row a = v :=
    fun i a v hi ha => (hrow a).trans (ha ▸ hrows i v hi)
  rw [trapRows_eq] at hcell
  simp only [hready.inFlight, hready.now, hready.field Weave.loops, hready.field Weave.status, hready.field Weave.bank,
    hready.field Weave.startCycle, hready.field Weave.phaseno, hready.field Weave.sval] at hcell
  simp only [hready.inFlight, hready.now] at hlatches
  unfold Entered
  extract_lets x y n f cause
  have hstatus : ∀ m, y.status.getLsbD m = _ := fun m => (congrArg (fun y : Weave => y.status.getLsbD m) hy).trans
    ((congrArg (·.getLsbD m) (hready.field fun x => trapStatus x ti)).trans (trapStatus_getLsbD x ti m))
  simp only [Weave.priv, Weave.uee, Weave.atom, bitAt_toNat, hstatus]
  refine ⟨?_, ?_, ?_, ?priv, ?uee, ?ppriv, ?puee, ?atom, ?bits, ?s, ?v, ?k, ?loops, ?fcsr, ?flight, ?_, ?_, ?_, ?_, ?levels, ?_, ?_, ?_, ?_, ?_, ?_,
    ?latches, ?outside, ?issue, ?fatal⟩
  case priv => rfl
  case uee => rfl
  case ppriv => simp
  case puee => simp
  case atom => exact fun hp => if_pos ⟨trivial, hp⟩
  case bits =>
    intro i h0 h1 h5 h6 h4
    rw [if_neg fun h => by simp [h4 h.1] at h, if_neg h1, if_neg h0, if_neg h6, if_neg h5]
  case s => exact ((congrArg Weave.s hy).trans (congrArg Weave.s hz :)).trans (hready.field Weave.s)
  case v => exact ((congrArg Weave.v hy).trans (congrArg Weave.v hz :)).trans (hready.field Weave.v)
  case k => exact ((congrArg Weave.k hy).trans (congrArg Weave.k hz :)).trans (hready.field Weave.k)
  case loops => exact ((congrArg Weave.loops hy).trans (congrArg Weave.loops hz :)).trans (hready.field Weave.loops)
  case fcsr => exact ((congrArg Weave.fcsr hy).trans (congrArg Weave.fcsr hz :)).trans (hready.field Weave.fcsr)
  case flight => exact congrArg Weave.flight hy
  case levels =>
    intro i l hi hl
    have h₀ : levelWord levelRow0 x.loops i = levelRow0 l := by rw [levelWord, hl]; rfl
    have h₁ : levelWord levelRow1 x.loops i = levelRow1 l := by rw [levelWord, hl]; rfl
    rw [← h₀, ← h₁]
    refine ⟨hcell (4 + 2 * i) _ _ ?_ (by omega), hcell (5 + 2 * i) _ _ ?_ (by omega)⟩
    · interval_cases i <;> rfl
    · interval_cases i <;> rfl
  case latches => exact fun i r hr => (hrow _).trans (hlatches i r hr)
  case outside =>
    intro a ha
    rw [enterTrap_mem, ← hready.mem]
    refine hbytes a fun hin => ?_
    have hf := trapFrame_aligned w
    simp only [frameAt, rowAddr] at hin
    omega
  case issue =>
    intro hfatal
    have hfixed := congrArg Weave.fixedAt hy
    simp only [trapWeave, hready.inFlight, hready.now] at hfixed
    refine ⟨hfixed, ?_⟩
    rw [enterTrap_eq, hfatal, hready.inFlight, hready.now]
    exact schedIssue_mem_agenda _ w _
  case fatal =>
    intro hfatal
    rw [enterTrap_eq, hfatal, hready.now]
    exact List.mem_append_right _ (List.mem_singleton.mpr rfl)
  · exact congrArg Weave.tcause hy
  · exact congrArg Weave.epc hy
  · exact (congrArg Weave.pc hy).trans (congrArg (fun v : Word => BitVec.ofNat 14 v.toNat) (hready.field Weave.tvec))
  · exact hcell 0 _ _ rfl rfl
  · exact (hcell 1 _ _ rfl rfl).trans (congrArg Weave.epc hy).symm
  · exact hcell 2 _ _ rfl rfl
  · exact hcell 3 _ _ rfl rfl
  · exact hcell 18 _ _ rfl rfl
  · exact hcell 19 _ _ rfl rfl
  · exact hcell 20 _ _ rfl rfl
  · exact hcell 21 _ _ rfl rfl
  · exact hcell 23 _ _ rfl rfl
  · exact hcell 24 _ _ rfl rfl
theorem takeTrap_enters {c₀ c : Core} {w : Nat} (hready₀ : Readies w c₀ c) (ti : TrapInfo) (halone : Alone c w) (hold : Holdable c w)
    (hwf : Memory.wf c.mem = true) :
    Entered c₀ (c.takeTrap w ti) w { ti with fatal := ti.fatal || ((c.weave w).priv && ti.cause != 0x13) } := by
  have hready := Readies.alone halone
  unfold Core.takeTrap
  extract_lets d ti' d'
  have hd : Readies w c d := hready
  have hti : ti' = { ti with fatal := ti.fatal || ((c.weave w).priv && ti.cause != 0x13) } := by
    simp only [ti', hd.field Weave.priv]
  have hpartner : d.hasPartner w = false := by
    rw [Core.hasPartner, hd.field Weave.redun, halone.1, Bool.false_and]
  have hd' : d' = d := by
    simp only [d', Core.mirrorTrap, hpartner]
    rfl
  obtain ⟨hlen, -⟩ := hd.holdable hold
  rw [hd', if_pos (show (inFlightAt (d.weave w).flight d.now).length ≤ 16 from hlen), ← hti]
  exact enterTrap_enters (hready₀.trans hd) (hd.holdable hold) (hd.mem ▸ hwf) ti'
theorem raiseAt_eq {s : State} (h : s.core.iss.fpx = 0) (cause slot code : Nat) (info0 info1 : Word) (fatal : Bool) :
    s.raiseAt cause slot code info0 info1 fatal = ⟨Core.takeTrap { s.rd with iss := s.core.iss } s.rd.cur
      ⟨cause, slot, code, info0, info1, s.core.iss.pc, fatal, false, s.rd.now⟩, none⟩ := by
  unfold State.raiseAt
  simp only [h, ne_eq, not_true_eq_false, false_and, if_false]
theorem raiseAt_enters {s : State} (hfpx : s.core.iss.fpx = 0) (halone : Alone s.rd s.core.cur) (hcur : s.rd.cur = s.core.cur)
    (hold : Holdable s.rd s.core.cur) (hwf : Memory.wf s.rd.mem = true) (cause code : Nat) :
    let t := s.raiseAt cause s.core.iss.slot code 0 0 false
    t.base = none ∧ Entered s.rd t.core s.core.cur
      ⟨cause, s.core.iss.slot, code, 0, 0, s.core.iss.pc, s.wv.priv && cause != 0x13, false, s.rd.now⟩ := by
  intro t
  have ht : t = _ := raiseAt_eq hfpx cause s.core.iss.slot code 0 0 false
  have hready : Readies s.core.cur s.rd { s.rd with iss := s.core.iss } := .of_weaves rfl rfl rfl rfl rfl
  rw [ht, hcur]
  exact ⟨rfl, takeTrap_enters hready _ halone (hready.holdable hold) hwf⟩
theorem trapsEnter : Claims.TrapsEnter := by
  refine ⟨fun s code hfpx halone hcur hold hwf => ⟨?trap, fun hatt => ?bkpt⟩, fun s w ti hti hwf => ⟨fun hold => ?entry, fun hfull => ?full⟩⟩
  case trap =>
    obtain ⟨hbase, hentered⟩ := raiseAt_enters hfpx halone hcur hold hwf 0x14 code.toNat
    refine ⟨_, rfl, hbase, ?_⟩
    simpa using hentered
  case bkpt =>
    obtain ⟨hbase, hentered⟩ := raiseAt_enters hfpx halone hcur hold hwf 0x13 code.toNat
    refine ⟨_, congrArg Host.Outcome.next (if_neg (by rw [hatt]; decide)), hbase, ?_⟩
    simpa using hentered
  case entry =>
    refine ⟨_, rfl, ?_⟩
    simp only [State.modC, hti]
    rw [if_pos (show (inFlightAt (s.core.weave w).flight s.core.now).length ≤ 16 from hold.1)]
    exact enterTrap_enters (.of_weaves rfl rfl rfl rfl rfl) hold hwf ti
  case full =>
    refine ⟨_, rfl, ?_⟩
    simp only [State.modC, hti]
    rw [if_neg (show ¬ (inFlightAt (s.core.weave w).flight s.core.now).length ≤ 16 from Nat.not_le.mpr hfull)]
    exact ⟨List.mem_append_right _ (List.mem_singleton.mpr rfl), rfl, rfl⟩
end Sys2Proof.Proofs
end
section
/-! SUPPORT. Entry to a user event or a throttle event (R33, R316, R473; O29). -/
namespace Sys2Proof.Proofs
open Sys2Proof.Machine Sys2Proof.Claims Sys2Proof.Laws

/-! ## The parts of an entry -/

theorem Readies.eventFrame {w : Nat} {c d : Core} (h : Readies w c d) : d.eventFrame w = c.eventFrame w := by
  have hlaunches : d.launch? = c.launch? := funext fun n => by rw [Core.launch?, Core.launch?, h.launches]
  have hlaunch : d.launchOf w = c.launchOf w := by rw [Core.launchOf, Core.launchOf, h.field Weave.launch, hlaunches]
  have hhalf : ∀ off, d.halfHeld w off = c.halfHeld w off := fun off => by simp only [Core.halfHeld, hlaunch]
  unfold Core.eventFrame
  simp only [hhalf, h.field Weave.ueframe, h.field Weave.secbase]
/-- The cause of an event: of a semaphore, or 256 for a throttle event (R33). -/
def eventCause (ev : Nat) : Word := if ev = 256 then word 0xFF02 else word (ev * 256 + 1)
def eventLatched (c : Core) (w f : Nat) : Core := (c.frameLatches w f c.now).2
/-- The first rows of an event's frame. -/
def eventRows (c : Core) (w ev : Nat) : List Word :=
  let x := c.weave w
  [eventCause ev, word x.pc.toNat, x.status, word (x.loops.length + (InFlight c w).length * 2 ^ 8 + bnat x.bank * 2 ^ 16)]
/-- The machine with the first rows of the frame. -/
def eventHead (c : Core) (w ev f : Nat) : Core := (eventLatched c w f).frameRows w f (eventRows c w ev)
/-- The rows of an event's frame from 128 on. -/
def eventTail (c : Core) (w ev f : Nat) : List Word :=
  let seg := (eventLatched c w f).segAt w
  [segRow0 seg true, segRow1 seg, word (c.now - (c.weave w).startCycle), 0, 0, (c.weave w).phaseno,
    word (wrap ((eventHead c w ev f).tdelta w) 64)]
/-- The machine once the frame is written. -/
def eventFramed (c : Core) (w ev f : Nat) : Core :=
  ((eventHead c w ev f).frameRows w (f + 128) (eventTail c w ev f)).frameRows w (f + 200) (List.replicate 7 0)
/-- The registers that an entry to an event sets (R33). -/
def eventWeave (c : Core) (w ev f : Nat) (z : Weave) : Weave := { (z.swapShadow.setSt 2 true) with
  uecause := eventCause ev
  seg := { (eventLatched c w f).segAt w with nocyc := true }
  pc := BitVec.ofNat 14 (c.weave w).uevec.toNat
  events := if ev = 256 then z.events else mdel z.events ev
  throttle := if ev = 256 then none else z.throttle
  eventSched := c.now + 1
  fixedAt := some (c.now + 16 + 2 * (InFlight c w).length) }
def evented (c : Core) (w ev f : Nat) : Core := (((eventFramed c w ev f).dropFlight w).leaveHeld w).modW w (eventWeave c w ev f)
theorem evented_weave (c : Core) (w ev f : Nat) :
    (evented c w ev f).weave w = eventWeave c w ev f (leaving ((eventFramed c w ev f).weave w)) := by
  refine (modW_weave_same _ w (eventWeave c w ev f)).trans (congrArg (eventWeave c w ev f) ?_)
  exact leaves_weave_same (eventFramed c w ev f) w
theorem evented_mem (c : Core) (w ev f : Nat) : (evented c w ev f).mem = (eventFramed c w ev f).mem := by
  rw [evented, modW_mem]
  exact leaves_mem (eventFramed c w ev f) w
/-- The entry of a ready weave whose frame is there and holds its results in flight. -/
theorem enterEvent_eq {c₀ : Core} {w f : Nat} (ev : Nat) :
    let c := ((c₀.undoServed w).dropWaiter w).endSlip w
    c.eventFrame w = some f → (InFlight c w).length ≤ 16 → c.now = c₀.now → (evented c w ev f).hasPartner w = false →
    c₀.enterEvent w ev = (evented c w ev f).schedIssue w (c.now + 16 + 2 * (InFlight c w).length) := by
  intro c hframe hlen hnow hpartner
  unfold Core.enterEvent
  simp only [show ((c₀.undoServed w).dropWaiter w).endSlip w = c from rfl, hframe, ← hnow]
  rw [if_neg (show ¬ 16 < (inFlightAt (c.weave w).flight c.now).length from Nat.not_lt.mpr hlen)]
  have hif : ∀ d e : Core, (if (evented c w ev f).hasPartner w then d else e) = e := by
    intro d e
    rw [hpartner]
    rfl
  exact congrArg (fun d : Core => d.schedIssue w (c.now + 16 + 2 * (InFlight c w).length)) (hif _ _)
/-- An event's frame once it is written: its rows. -/
theorem eventFramed_has {c : Core} {w f : Nat} (hold : Holdable c w) (hwf : Memory.wf c.mem = true) (hf : f % 8 = 0) (ev : Nat) :
    HasLatches c (eventFramed c w ev f) w f ∧
    (∀ i x, (eventRows c w ev)[i]? = some x → (eventFramed c w ev f).row (f + 8 * i) = x) ∧
    ∀ i x, (eventTail c w ev f)[i]? = some x → (eventFramed c w ev f).row (f + 128 + 8 * i) = x := by
  have h₁ : HasLatches c (eventLatched c w f) w f := frameLatches_has hold hwf hf
  have hn : (InFlight c w).length ≤ 16 := hold.1
  have hhead : (eventRows c w ev).length = 4 := rfl
  have htail : (eventTail c w ev f).length = 7 := rfl
  have hzero : (List.replicate 7 (0 : Word)).length = 7 := rfl
  have h₂ : HasLatches c (eventHead c w ev f) w f := h₁.frameRows hf (eventRows c w ev) (by omega) (by omega) hf hn
  have h₃ := h₂.frameRows (addr := f + 128) (by omega) (eventTail c w ev f) (by omega) (by omega) hf hn
  have h₄ : HasLatches c (eventFramed c w ev f) w f := h₃.frameRows (by omega) (List.replicate 7 0) (by omega) (by omega) hf hn
  obtain ⟨-, hrows⟩ := frameRows_framed h₁.plain w hf (eventRows c w ev)
  obtain ⟨hkeep₁, htails⟩ := frameRows_framed h₂.plain w (addr := f + 128) (by omega) (eventTail c w ev f)
  obtain ⟨hkeep₂, -⟩ := frameRows_framed h₃.plain w (addr := f + 200) (by omega) (List.replicate 7 0)
  refine ⟨h₄, fun i x hi => ?_, fun i x hi => ?_⟩
  · have hi' : i < 4 := hhead ▸ (List.getElem?_eq_some_iff.mp hi).1
    have hrow : rowAddr (f + 8 * i) = f + 8 * i := by unfold rowAddr; omega
    refine (hkeep₂.rows _ ?_).trans ((hkeep₁.rows _ ?_).trans (hrows i x hi))
    · simp only [rowsAt]
      omega
    · simp only [rowsAt]
      omega
  · have hi' : i < 7 := htail ▸ (List.getElem?_eq_some_iff.mp hi).1
    have hrow : rowAddr (f + 128 + 8 * i) = f + 128 + 8 * i := by unfold rowAddr; omega
    refine (hkeep₂.rows _ ?_).trans (htails i x hi)
    simp only [rowsAt]
    omega

/-! ## The entry -/

/-- A field that the writing of a frame leaves. -/
theorem kept_of_unframed {α : Type} {x y : Weave} (h : unframed x y = x) (g : Weave → α)
    (hg : ∀ y, g (unframed x y) = g y := by intros; rfl) : g y = g x := (hg y).symm.trans (congrArg g h)

/-- A field that an entry to an event leaves. -/
theorem kept_by_event {α : Type} {c : Core} {w ev f : Nat} {y z : Weave} (h : y = eventWeave c w ev f (leaving z)) (g : Weave → α)
    (hg : ∀ z, g (eventWeave c w ev f (leaving z)) = g z := by intros; rfl) : g y = g z := (congrArg g h).trans (hg z)
theorem eventWeave_status (c : Core) (w ev f : Nat) (z : Weave) (m : Nat) :
    (eventWeave c w ev f (leaving z)).status.getLsbD m = if m = 2 then true else z.status.getLsbD m :=
  setSt_getLsbD (leaving z).swapShadow (by omega) true m
theorem eventWeave_s (c : Core) (w ev f : Nat) (z : Weave) : (eventWeave c w ev f (leaving z)).s = z.s.take 24 ++ z.shadow := rfl
theorem eventWeave_shadow (c : Core) (w ev f : Nat) (z : Weave) : (eventWeave c w ev f (leaving z)).shadow = z.s.drop 24 := rfl
/-- The entry to an event, seen from the machine before (R33). -/
theorem enterEvent_enters {c₀ : Core} {w f : Nat} (halone : Alone c₀ w) (hold₀ : Holdable c₀ w) (hwf : Memory.wf c₀.mem = true)
    (hframe : c₀.eventFrame w = some f) (hf : f % 8 = 0) (ev : Nat) :
    EventEntered c₀ (c₀.enterEvent w ev) w f (eventCause ev) ∧
    (ev ≠ 256 → mget? ((c₀.enterEvent w ev).weave w).events ev = none) ∧
    (ev = 256 → ((c₀.enterEvent w ev).weave w).throttle = none) := by
  have hready : Readies w c₀ (((c₀.undoServed w).dropWaiter w).endSlip w) := Readies.alone halone
  have heq := enterEvent_eq (c₀ := c₀) (w := w) (f := f) ev
  generalize hc : ((c₀.undoServed w).dropWaiter w).endSlip w = c at hready heq
  have hold := hready.holdable hold₀
  obtain ⟨⟨-, -, -, hz, hbytes, -⟩, hrows, htails⟩ := eventFramed_has hold (hready.mem ▸ hwf) hf ev
  have hy₀ := evented_weave c w ev f
  have hredun : ((evented c w ev f).weave w).redun = false := by
    rw [kept_by_event hy₀ Weave.redun, kept_of_unframed hz Weave.redun, hready.field Weave.redun]
    exact halone.1
  have hpartner : (evented c w ev f).hasPartner w = false := by rw [Core.hasPartner, hredun, Bool.false_and]
  have ht : c₀.enterEvent w ev = _ := heq (hready.eventFrame.trans hframe) hold.1 hready.now hpartner
  have hy : (c₀.enterEvent w ev).weave w = eventWeave c w ev f (leaving ((eventFramed c w ev f).weave w)) := by
    rw [ht, schedIssue_weave]
    exact hy₀
  have hmem : (c₀.enterEvent w ev).mem = (eventFramed c w ev f).mem := by
    rw [ht, schedIssue_mem, evented_mem]
  have hrow : ∀ a, (c₀.enterEvent w ev).row a = (eventFramed c w ev f).row a := row_of_mem hmem
  have hstatus : ∀ m, ((c₀.enterEvent w ev).weave w).status.getLsbD m = if m = 2 then true else (c₀.weave w).status.getLsbD m := by
    intro m
    rw [← hready.field Weave.status, ← kept_of_unframed hz Weave.status, hy]
    exact eventWeave_status c w ev f _ m
  have hs : ((eventFramed c w ev f).weave w).s = (c₀.weave w).s := (kept_of_unframed hz Weave.s).trans (hready.field Weave.s)
  have hshadow : ((eventFramed c w ev f).weave w).shadow = (c₀.weave w).shadow :=
    (kept_of_unframed hz Weave.shadow).trans (hready.field Weave.shadow)
  have hcell : ∀ i a v, (eventRows c w ev)[i]? = some v → f + 8 * i = a → (c₀.enterEvent w ev).row a = v :=
    fun i a v hi ha => (hrow a).trans (ha ▸ hrows i v hi)
  simp only [eventRows, hready.inFlight, hready.field Weave.pc, hready.field Weave.status, hready.field Weave.loops, hready.field Weave.bank] at hcell
  unfold EventEntered
  extract_lets x y n
  simp only [y]
  refine ⟨⟨?inue, congrArg Weave.uecause hy, ?pc, ?bits, ?scalars, ?shadow, ?vectors, ?masks, ?loops, congrArg Weave.flight hy, ?tcause, ?epc,
    hcell 0 _ _ rfl rfl, hcell 1 _ _ rfl rfl, hcell 2 _ _ rfl rfl, hcell 3 _ _ rfl rfl, ?start, ?outside, ?issue⟩, ?events, ?throttle⟩
  case inue =>
    simp only [Weave.inue, bitAt_toNat, hstatus]
    rfl
  case pc => exact (congrArg Weave.pc hy).trans (congrArg (fun v : Word => BitVec.ofNat 14 v.toNat) (hready.field Weave.uevec))
  case bits => exact fun i hi => (hstatus i).trans (if_neg hi)
  case scalars => rw [hy, eventWeave_s, hs, hshadow]
  case shadow => rw [hy, eventWeave_shadow, hs]
  case vectors => rw [kept_by_event hy Weave.v, kept_of_unframed hz Weave.v, hready.field Weave.v]
  case masks => rw [kept_by_event hy Weave.k, kept_of_unframed hz Weave.k, hready.field Weave.k]
  case loops => rw [kept_by_event hy Weave.loops, kept_of_unframed hz Weave.loops, hready.field Weave.loops]
  case tcause => rw [kept_by_event hy Weave.tcause, kept_of_unframed hz Weave.tcause, hready.field Weave.tcause]
  case epc => rw [kept_by_event hy Weave.epc, kept_of_unframed hz Weave.epc, hready.field Weave.epc]
  case start =>
    refine ((hrow _).trans (htails 2 _ rfl)).trans ?_
    rw [hready.now, hready.field Weave.startCycle]
    rfl
  case outside =>
    intro a ha
    rw [hmem, ← hready.mem]
    refine hbytes a fun hin => ?_
    simp only [frameAt, rowAddr] at hin
    omega
  case issue =>
    rw [ht, hready.inFlight, hready.now]
    exact schedIssue_mem_agenda _ w _
  case events =>
    intro hev
    rw [hy]
    simp only [eventWeave, if_neg hev]
    exact mget?_filter_none _ fun x => by simp
  case throttle =>
    intro hev
    rw [hy]
    exact if_pos hev
theorem userEventEntry_enters {s : State} {w f sem : Nat} (huee : (s.core.weave w).uee = true) (hinue : (s.core.weave w).inue = false)
    (hpriv : (s.core.weave w).priv = false) (halone : Alone s.core w) (hold : Holdable s.core w) (hwf : Memory.wf s.core.mem = true)
    (hframe : s.core.eventFrame w = some f) (hf : f % 8 = 0) (hsem : sem < 256) (hpending : (mget? (s.core.weave w).events sem).isSome = true) :
    ∃ t, Machine.exec (.userEventEntry w sem) s = .next t ∧ EventEntered s.core t.core w f (BitVec.ofNat 64 (sem * 256 + 1)) ∧
      mget? (t.core.weave w).events sem = none := by
  have hne : sem ≠ 256 := by omega
  obtain ⟨hentered, hevents, -⟩ := enterEvent_enters halone hold hwf hframe hf sem
  rw [eventCause, if_neg hne] at hentered
  have hadmits : ((s.core.weave w).admitsEvent && (mget? (s.core.weave w).events sem).isSome) = true := by
    rw [Weave.admitsEvent, huee, hinue, hpriv, hpending]
    rfl
  refine ⟨{ s with core := s.core.enterEvent w sem }, ?_, hentered, hevents hne⟩
  exact congrArg (fun d : Core => Host.Outcome.next { s with core := d }) (if_pos hadmits)
theorem throttleEventEntry_enters {s : State} {w f : Nat} (huee : (s.core.weave w).uee = true) (hinue : (s.core.weave w).inue = false)
    (hpriv : (s.core.weave w).priv = false) (halone : Alone s.core w) (hold : Holdable s.core w) (hwf : Memory.wf s.core.mem = true)
    (hframe : s.core.eventFrame w = some f) (hf : f % 8 = 0) (hpending : (s.core.weave w).throttle.isSome = true) :
    ∃ t, Machine.exec (.throttleEventEntry w) s = .next t ∧ EventEntered s.core t.core w f 0xFF02 ∧ (t.core.weave w).throttle = none := by
  obtain ⟨hentered, -, hthrottle⟩ := enterEvent_enters halone hold hwf hframe hf 256
  rw [eventCause, if_pos rfl] at hentered
  have hadmits : ((s.core.weave w).admitsEvent && (s.core.weave w).throttle.isSome) = true := by
    rw [Weave.admitsEvent, huee, hinue, hpriv, hpending]
    rfl
  refine ⟨{ s with core := s.core.enterEvent w 256 }, ?_, hentered, hthrottle rfl⟩
  exact congrArg (fun d : Core => Host.Outcome.next { s with core := d }) (if_pos hadmits)
end Sys2Proof.Proofs
end
section
/-! SUPPORT. Entry to PREEMPT: the trap, and what the end of the weave's leases leaves (R226, R228, R330; O29). -/
namespace Sys2Proof.Proofs
open Sys2Proof.Machine Sys2Proof.Claims Sys2Proof.Laws

/-! ## What the bookkeeping of leases keeps -/

/-- `d` is `c` but for leases: engines, ports, warnings and entries of the agenda other than issues. -/
structure KeepsEntries (c d : Core) : Prop where
  mem : d.mem = c.mem
  weave : ∀ v, ∃ ports warn, d.weave v = { c.weave v with ports := ports, evictWarn := warn }
  issues : ∀ e w, e.act = .issue w → e ∈ c.agenda → e ∈ d.agenda

namespace KeepsEntries
theorem of_weaves {c d : Core} (hmem : d.mem = c.mem) (hw : d.weaves = c.weaves)
    (hissues : ∀ e w, e.act = .issue w → e ∈ c.agenda → e ∈ d.agenda) : KeepsEntries c d :=
  ⟨hmem, fun v => ⟨_, _, weave_congr hw v⟩, hissues⟩
theorem refl (c : Core) : KeepsEntries c c := .of_weaves rfl rfl fun _ _ _ he => he
theorem trans {c d e : Core} (h : KeepsEntries c d) (g : KeepsEntries d e) : KeepsEntries c e := by
  refine ⟨g.mem.trans h.mem, fun v => ?_, fun e w he hc => g.issues e w he (h.issues e w he hc)⟩
  obtain ⟨_, _, hd⟩ := h.weave v
  obtain ⟨ports, warn, he⟩ := g.weave v
  exact ⟨ports, warn, by rw [he, hd]⟩
theorem foldl {α : Type} {f : Core → α → Core} (h : ∀ c x, KeepsEntries c (f c x)) (xs : List α) : ∀ c, KeepsEntries c (xs.foldl f c) := by
  induction xs with
  | nil => exact refl
  | cons x xs ih => exact fun c => (h c x).trans (ih _)
theorem modEng (c : Core) (sec kind idx : Nat) (f : Engine → Engine) : KeepsEntries c (c.modEng sec kind idx f) :=
  .of_weaves rfl rfl fun _ _ _ he => he
theorem sched (c : Core) (t b n : Nat) (a : Act) : KeepsEntries c (c.sched t b n a) :=
  .of_weaves rfl rfl fun _ _ _ he => List.mem_append_left _ he
theorem unsched (c : Core) {p : Act → Bool} (hp : ∀ w, p (.issue w) = false) : KeepsEntries c (c.unsched p) :=
  .of_weaves rfl rfl fun e w he hc => List.mem_filter.mpr ⟨hc, by rw [he, hp]; rfl⟩
theorem modW (c : Core) (w : Nat) {f : Weave → Weave}
    (hf : ∀ x, ∃ ports warn, f x = { x with ports := ports, evictWarn := warn }) : KeepsEntries c (c.modW w f) := by
  refine ⟨modW_mem c w f, fun v => ?_, fun e _ _ he => he⟩
  by_cases hv : v = w
  · rw [hv, modW_weave_same]
    exact hf _
  · exact ⟨_, _, modW_weave_other c f hv⟩
theorem modPort (c : Core) (w p : Nat) (f : Machine.Port → Machine.Port) : KeepsEntries c (c.modPort w p f) :=
  .modW c w fun x => ⟨lmod x.ports p f, x.evictWarn, rfl⟩
end KeepsEntries

/-! ## The operations on leases -/

theorem abandonTest_keepsEntries (c : Core) (sec kind idx : Nat) : KeepsEntries c (c.abandonTest sec kind idx) :=
  .of_weaves rfl rfl fun _ _ _ he => he
theorem yieldTests_keepsEntries (c : Core) (sec : Nat) : KeepsEntries c (c.yieldTests sec) := by
  unfold Core.yieldTests
  extract_lets deck
  split
  · exact .refl c
  · refine .foldl (fun d p => ?_) _ c
    obtain ⟨k, i⟩ := p
    dsimp only
    split
    · exact abandonTest_keepsEntries d _ _ _
    · exact .refl d
theorem wake_keepsEntries (c : Core) (sec kind idx : Nat) (r : LeaseReq) : KeepsEntries c (c.wake sec kind idx r) := by
  unfold Core.wake
  extract_lets c₁ c₂ c₃
  have h₁ : KeepsEntries c c₁ := (abandonTest_keepsEntries c sec kind idx).trans (.unsched _ fun _ => rfl)
  have h₂ : KeepsEntries c₁ c₂ := (KeepsEntries.modEng c₁ sec kind idx _).trans (yieldTests_keepsEntries _ sec)
  have h₃ : KeepsEntries c₂ c₃ := .modPort c₂ _ _ _
  exact ((h₁.trans h₂).trans h₃).trans (.sched c₃ _ _ _ _)
theorem grantDeck_keepsEntries (deck n : Nat) : ∀ (stopped : List Nat) (c : Core), KeepsEntries c (c.grantDeck deck n stopped) := by
  induction n with
  | zero => exact fun _ c => .refl c
  | succ n ih =>
    intro stopped c
    unfold Core.grantDeck
    extract_lets secs best
    clear_value best
    rcases best with _ | ⟨m, k, i, r⟩
    · exact .refl c
    · dsimp only
      split
      · exact ih _ c
      · split
        · exact .refl c
        · exact ((KeepsEntries.modEng c m k i _).trans (wake_keepsEntries _ m k i r)).trans (ih _ _)
theorem sleep_keepsEntries (c : Core) (sec kind idx : Nat) : KeepsEntries c (c.sleep sec kind idx) :=
  (KeepsEntries.modEng c sec kind idx _).trans (grantDeck_keepsEntries _ _ _ _)
theorem withdraw_keepsEntries (c : Core) (w p : Nat) : KeepsEntries c (c.withdraw w p) := by
  unfold Core.withdraw
  extract_lets x sec e d
  have hd : KeepsEntries c d := .unsched c fun _ => rfl
  split
  · exact hd.trans (.modEng d _ _ _ _)
  · split
    · exact (hd.trans (.unsched d fun _ => rfl)).trans (sleep_keepsEntries _ _ _ _)
    · exact hd
theorem evictRequest_keepsEntries (c : Core) (w p : Nat) : KeepsEntries c (c.evictRequest w p) :=
  (withdraw_keepsEntries c w p).trans (.modPort _ w p _)
theorem warnEvict_keepsEntries (c : Core) (sec kind idx : Nat) (trap : Bool) : KeepsEntries c (c.warnEvict sec kind idx trap) := by
  unfold Core.warnEvict
  extract_lets e d₁
  split
  · exact .refl c
  next w p _ =>
    split
    · exact .refl c
    · extract_lets d₂ d₃
      have h₂ : KeepsEntries c d₂ := (KeepsEntries.modEng c sec kind idx _).trans (.modPort d₁ w p _)
      have h₃ : KeepsEntries d₂ d₃ := by
        simp only [d₃]
        split
        · exact .modW d₂ w fun x => ⟨x.ports, true, rfl⟩
        · exact .refl d₂
      exact (h₂.trans h₃).trans (.sched d₃ _ _ _ _)
theorem preemptLeases_keepsEntries (c : Core) (w : Nat) : KeepsEntries c (c.preemptLeases w) := by
  refine .foldl (fun d p => ?_) _ c
  dsimp only
  split
  · exact evictRequest_keepsEntries d w p
  · split
    · exact warnEvict_keepsEntries d _ _ _ _
    · exact .refl d

/-! ## The entry -/

/-- A weave that has entered a trap that is not fatal has entered it still after the bookkeeping of its leases. -/
theorem entered_keepsEntries {c d e : Core} {w : Nat} {ti : TrapInfo} (h : Entered c d w ti) (hfatal : ti.fatal = false)
    (hkeep : KeepsEntries d e) : Entered c e w ti := by
  obtain ⟨ports, warn, hweave⟩ := hkeep.weave w
  have hissue := hkeep.issues ⟨.cycle (c.now + 16 + 2 * (InFlight c w).length), bIssue, w, .issue w⟩ w rfl
  unfold Entered at h ⊢
  rw [hweave, funext (row_of_mem hkeep.mem), hkeep.mem]
  obtain ⟨tcause, epc, pc, priv, uee, ppriv, puee, atom, bits, scalars, vectors, masks, loops, fcsr, flight, row0, row1, row2, row3, levels,
    start, info0, info1, phaseno, s1, s2, latches, outside, fixed, -⟩ := h
  exact ⟨tcause, epc, pc, priv, uee, ppriv, puee, atom, bits, scalars, vectors, masks, loops, fcsr, flight, row0, row1, row2, row3, levels,
    start, info0, info1, phaseno, s1, s2, latches, outside, fun hf => (fixed hf).imp_right hissue, fun hf => absurd hf (by simp [hfatal])⟩
theorem enterPreempt_enters {c : Core} {w info : Nat} (hlanding : (c.weave w).landing = some info) (hpriv : (c.weave w).priv = false)
    (halone : Alone c w) (hold : Holdable c w) (hwf : Memory.wf c.mem = true) :
    Entered c (c.enterPreempt w) w ⟨0x12, 0xFF, 0, word info, 0, (c.weave w).pc.toNat, false, true, c.now⟩ := by
  obtain ⟨hredun, hserved⟩ := halone
  unfold Core.enterPreempt
  extract_lets x k d
  have hready : Readies w c d := .modW c fun x => ⟨_, _, _, _, rfl⟩
  have hpriv' : (d.weave w).priv = false := (hready.field Weave.priv).trans hpriv
  have hk : k = info := by rw [show k = (c.weave w).landing.getD 1 from rfl, hlanding]; rfl
  have hentered := takeTrap_enters hready ⟨0x12, 0xFF, 0, word k, 0, x.pc.toNat, false, true, d.now⟩
    ⟨(hready.field Weave.redun).trans hredun, (hready.field Weave.served).trans hserved⟩ (hready.holdable hold) (hready.mem ▸ hwf)
  rw [hpriv', hk, hready.now] at hentered
  rw [hk, hready.now]
  exact entered_keepsEntries hentered rfl (preemptLeases_keepsEntries _ w)
theorem preempt_enters {s : State} {w info : Nat} (hpreempt : (s.core.weave w).preempt = true) (hlanding : (s.core.weave w).landing = some info)
    (hpriv : (s.core.weave w).priv = false) (hinue : (s.core.weave w).inue = false) (halone : Alone s.core w) (hold : Holdable s.core w)
    (hwf : Memory.wf s.core.mem = true) : ∃ t, Machine.exec (.preempt w) s = .next t ∧
      Entered s.core t.core w ⟨0x12, 0xFF, 0, BitVec.ofNat 64 info, 0, (s.core.weave w).pc.toNat, false, true, s.now⟩ := by
  have hadmits : ((s.core.weave w).preempt && (s.core.weave w).landing.isSome && !(s.core.weave w).priv && !(s.core.weave w).inue) = true := by
    rw [hpreempt, hlanding, hpriv, hinue]
    rfl
  obtain ⟨t, hexec, hcore⟩ : ∃ t, Machine.exec (.preempt w) s = .next t ∧ t.core = s.core.enterPreempt w :=
    ⟨_, rfl, if_pos hadmits⟩
  refine ⟨t, hexec, ?_⟩
  rw [hcore]
  exact enterPreempt_enters hlanding hpriv halone hold hwf
end Sys2Proof.Proofs
end
section
/-! SUPPORT. Requests of a pre-emption: what is preloaded goes, every running sequencer has PREEMPT pending (R35, R419; O29). -/
namespace Sys2Proof.Proofs
open Sys2Proof.Machine Sys2Proof.Claims Sys2Proof.Laws

/-! ## What is preloaded -/

theorem dropPreload_launch?_same (c : Core) (m : Nat) : (c.dropPreload m).launch? m = none := mget?_filter_none _ fun x => by simp
theorem dropPreload_launch?_other (c : Core) {m n : Nat} (h : n ≠ m) : (c.dropPreload m).launch? n = c.launch? n :=
  mget?_filter _ fun x => by simp [h]
/-- What a launch's pre-emption drops from its sectors: the launch that is preloaded there, and nothing of weaves and memory (R419). -/
theorem dropPreloadOf_drops {c : Core} {n : Nat} {l : Launch} (hl : c.launch? n = some l) (hother : c.preloadOn l ≠ some n) :
    let d := c.dropPreloadOf n
    d.weaves = c.weaves ∧ d.mem = c.mem ∧ d.now = c.now ∧ d.wall = c.wall ∧ d.launch? n = some l ∧
      ∀ m, c.preloadOn l = some m → d.launch? m = none := by
  intro d
  have hd : d = c.dropPreloadOf n := rfl
  rw [Core.dropPreloadOf, hl, Option.bind_some] at hd
  cases hm : c.preloadOn l with
  | none =>
    rw [hm] at hd
    rw [hd]
    exact ⟨rfl, rfl, rfl, rfl, hl, fun _ h => by cases h⟩
  | some m =>
    rw [hm] at hd hother
    have hne : n ≠ m := fun h => hother (congrArg some h.symm)
    rw [hd]
    exact ⟨rfl, rfl, rfl, rfl, (dropPreload_launch?_other c hne).trans hl, fun k hk => Option.some.inj hk ▸ dropPreload_launch?_same c m⟩

/-! ## The request -/

/-- A weave for which PREEMPT has become pending. -/
def preemptPending (x : Weave) : Weave := { x with preempt := true, landing := none }
/-- PREEMPT becomes pending for a weave of a launch that has not halted. -/
def askPreempt (l : Launch) (c : Core) (w : Nat) : Core := if l.halted.contains w then c else c.modW w preemptPending
theorem askPreempt_weave_same (l : Launch) (c : Core) {w : Nat} (h : l.halted.contains w = false) :
    (askPreempt l c w).weave w = preemptPending (c.weave w) := by
  rw [askPreempt, h]
  exact modW_weave_same c w preemptPending
theorem askPreempt_weave_other (l : Launch) (c : Core) {w v : Nat} (h : v ≠ w) : (askPreempt l c w).weave v = c.weave v := by
  unfold askPreempt
  split
  · rfl
  · exact modW_weave_other c preemptPending h
theorem askPreempts_launches (l : Launch) (ws : List Nat) (c : Core) :
    (ws.foldl (askPreempt l) c).launches = c.launches ∧ (ws.foldl (askPreempt l) c).mem = c.mem ∧
      (ws.foldl (askPreempt l) c).now = c.now ∧ (ws.foldl (askPreempt l) c).wall = c.wall := by
  induction ws generalizing c with
  | nil => exact ⟨rfl, rfl, rfl, rfl⟩
  | cons w ws ih =>
    have hone : (askPreempt l c w).launches = c.launches ∧ (askPreempt l c w).mem = c.mem ∧ (askPreempt l c w).now = c.now ∧
        (askPreempt l c w).wall = c.wall := by
      unfold askPreempt
      split <;> exact ⟨rfl, rfl, rfl, rfl⟩
    obtain ⟨hl, hm, hn, hw⟩ := ih (askPreempt l c w)
    obtain ⟨hl₁, hm₁, hn₁, hw₁⟩ := hone
    exact ⟨hl.trans hl₁, hm.trans hm₁, hn.trans hn₁, hw.trans hw₁⟩
theorem askPreempts_weave_other (l : Launch) (ws : List Nat) {v : Nat} (h : v ∉ ws) (c : Core) :
    (ws.foldl (askPreempt l) c).weave v = c.weave v := by
  induction ws generalizing c with
  | nil => rfl
  | cons w ws ih =>
    exact (ih (List.not_mem_of_not_mem_cons h) _).trans (askPreempt_weave_other l c (List.ne_of_not_mem_cons h))
/-- A pending PREEMPT stays pending while others become it. -/
theorem askPreempts_keeps (l : Launch) (ws : List Nat) {v : Nat} {c : Core} (h : (c.weave v).preempt = true) :
    ((ws.foldl (askPreempt l) c).weave v).preempt = true := by
  induction ws generalizing c with
  | nil => exact h
  | cons w ws ih =>
    refine ih ?_
    by_cases hv : v = w
    · subst hv
      cases hh : l.halted.contains v with
      | true =>
        rw [askPreempt, hh]
        exact h
      | false => rw [askPreempt_weave_same l c hh, preemptPending]
    · rwa [askPreempt_weave_other l c hv]
theorem askPreempts_pends (l : Launch) {ws : List Nat} {v : Nat} (hv : v ∈ ws) (hrun : l.halted.contains v = false) (c : Core) :
    ((ws.foldl (askPreempt l) c).weave v).preempt = true := by
  induction ws generalizing c with
  | nil => cases hv
  | cons w ws ih =>
    rcases List.mem_cons.mp hv with rfl | hmem
    · refine askPreempts_keeps l ws ?_
      rw [askPreempt_weave_same l c hrun, preemptPending]
    · exact ih hmem _

theorem launch?_modL_other (c : Core) {n m : Nat} (h : m ≠ n) (f : Launch → Launch) : (c.modL n f).launch? m = c.launch? m := by
  unfold Core.modL
  split
  · exact mget?_mset_other _ _ h
  · rfl
@[simp] theorem schedWall_weave (c : Core) (t b n w : Nat) (a : Act) : (c.schedWall t b n a).weave w = c.weave w := rfl
@[simp] theorem modL_wall (c : Core) (n : Nat) (f : Launch → Launch) : (c.modL n f).wall = c.wall := by
  unfold Core.modL
  split <;> rfl
@[simp] theorem modL_mem (c : Core) (n : Nat) (f : Launch → Launch) : (c.modL n f).mem = c.mem := by
  unfold Core.modL
  split <;> rfl
/-- A launch that is in its part of the machine's work, and no pre-emption of it is on its way. -/
def preemptable (l : Launch) : Prop := l.preempting = none ∧ l.started.isSome = true ∧ l.ended = false
theorem requestPreempt_eq {c : Core} {n : Nat} {l : Launch} (hl : c.launch? n = some l) (hrun : preemptable l) :
    c.requestPreempt n = ((l.weaves.foldl (askPreempt l) c).modL n fun x => { x with preempting := some (l.weaves.foldl (askPreempt l) c).now }).schedWall
      (10 * Config.msUnits) bCp n (.preemptLandingTimeout n) := by
  obtain ⟨hnone, hstarted, hended⟩ := hrun
  unfold Core.requestPreempt
  simp only [hl]
  rw [if_neg (by rw [hnone, hended, ← Option.not_isSome, hstarted]; decide)]
  rfl
theorem evictLaunch_eq {c : Core} {n : Nat} {l : Launch} (hl : c.launch? n = some l) (hrun : preemptable l) :
    c.evictLaunch n = (c.dropPreloadOf n).requestPreempt n := by
  obtain ⟨hnone, hstarted, hended⟩ := hrun
  unfold Core.evictLaunch
  simp only [hl]
  rw [if_neg (by rw [hnone, hended, ← Option.not_isSome, hstarted]; decide)]
theorem preemptionRequest_asks {s : State} {n : Nat} {l : Launch} (hl : s.core.launch? n = some l) (hnone : l.preempting = none)
    (hstarted : l.started.isSome = true) (hended : l.ended = false) (hother : s.core.preloadOn l ≠ some n) :
    ∃ t, Machine.exec (.preemptionRequest n) s = .next t ∧ t.core.mem = s.core.mem ∧
      ((t.core.launch? n).map fun l => l.preempting) = some (some s.now) ∧
      (∀ w ∈ l.weaves, l.halted.contains w = false → (t.core.weave w).preempt = true) ∧
      (∀ w, w ∉ l.weaves → t.core.weave w = s.core.weave w) ∧ (∀ m, s.core.preloadOn l = some m → t.core.launch? m = none) ∧
      ⟨.wall (s.core.wall + 10 * Config.msUnits), bCp, n, .preemptLandingTimeout n⟩ ∈ t.core.agenda := by
  have hrun : preemptable l := ⟨hnone, hstarted, hended⟩
  obtain ⟨hweaves, hmem, hnow, hwall, hl', hdropped⟩ := dropPreloadOf_drops hl hother
  generalize hd : s.core.dropPreloadOf n = d at hweaves hmem hnow hwall hl' hdropped
  obtain ⟨hlaunches, hmem', hnow', hwall'⟩ := askPreempts_launches l l.weaves d
  have hpends : ∀ w ∈ l.weaves, l.halted.contains w = false → ((l.weaves.foldl (askPreempt l) d).weave w).preempt = true :=
    fun w hw hh => askPreempts_pends l hw hh d
  have hothers : ∀ w, w ∉ l.weaves → (l.weaves.foldl (askPreempt l) d).weave w = d.weave w := fun w hw => askPreempts_weave_other l l.weaves hw d
  have hrequest := requestPreempt_eq hl' hrun
  generalize l.weaves.foldl (askPreempt l) d = e at hlaunches hmem' hnow' hwall' hpends hothers hrequest
  have hlaunch : ∀ m, e.launch? m = d.launch? m := fun m => by rw [Core.launch?, Core.launch?, hlaunches]
  refine ⟨{ s with core := s.core.evictLaunch n }, rfl, ?_⟩
  dsimp only
  rw [evictLaunch_eq hl hrun, hd, hrequest]
  refine ⟨?mem, ?preempting, ?weaves, ?others, ?preloaded, ?timeout⟩
  case mem => rw [schedWall_mem, modL_mem, hmem', hmem]
  case preempting =>
    have h := launch?_modL_same ((hlaunch n).trans hl') fun x => { x with preempting := some e.now }
    refine (congrArg (Option.map fun l : Launch => l.preempting) h).trans ?_
    rw [hnow', hnow]
    rfl
  case weaves =>
    intro w hw hh
    rw [schedWall_weave, modL_weave]
    exact hpends w hw hh
  case others =>
    intro w hw
    rw [schedWall_weave, modL_weave, hothers w hw]
    exact weave_congr hweaves w
  case preloaded =>
    intro m hm
    have hne : m ≠ n := fun h => hother (h ▸ hm)
    refine (launch?_modL_other e hne _).trans ?_
    rw [hlaunch, hdropped m hm]
  case timeout =>
    refine List.mem_append_right _ (List.mem_singleton.mpr ?_)
    rw [modL_wall, hwall', hwall]

/-! ## The obligation -/

theorem eventsEnter : Claims.EventsEnter := by
  refine ⟨fun s w f huee hinue hpriv halone hold hwf hframe hf => ⟨fun sem hsem hpending => ?event, fun hpending => ?throttle⟩,
    fun s w info hpreempt hlanding hpriv hinue halone hold hwf => ?preempt, fun s n l hl hnone hstarted hended hother => ?request⟩
  case event => exact userEventEntry_enters huee hinue hpriv halone hold hwf hframe hf hsem hpending
  case throttle => exact throttleEventEntry_enters huee hinue hpriv halone hold hwf hframe hf hpending
  case preempt => exact preempt_enters hpreempt hlanding hpriv hinue halone hold hwf
  case request => exact preemptionRequest_asks hl hnone hstarted hended hother
/-- Settles O29: what each entry saves and where it goes on, from the rows that its frame holds; a request, from the fold over the
launch's weaves. -/
theorem trapsAndEvents : Obligations.TrapsAndEvents := ⟨trapsEnter, eventsEnter⟩
end Sys2Proof.Proofs
end
section
/-! SUPPORT. Rounding (O10, O11). First what RoundTo does with a value of the format's own grid, then what the bits of a finite element
decode to, then overflow and infinite inputs. -/
namespace Sys2Proof.Proofs
open Sys2Proof.Machine Sys2Proof.Claims Sys2Proof.Laws

/-! ## A value of the grid -/

theorem splitAt_same (m : Nat) (e : Int) : splitAt m e e false = (m, .exact, 0) := by
  simp [splitAt]
theorem roundAway_exact (mode : Nat) (srd : Option Nat) (neg : Bool) (q t : Nat) : roundAway mode srd neg q .exact t = false := rfl

/-- A zero keeps its sign (R60). -/
theorem roundTo_zero (f : FSpec) (r : Rnd) (neg : Bool) (e : Int) : roundTo f r (.num neg 0 e false) = (signBit f neg, 0) := rfl

/-- A value in whole units of its own grain, up to the largest finite one, is delivered in every mode with no flag, unless it is
flushed (R60). -/
theorem roundTo_of_onGrid {f : FSpec} {r : Rnd} {neg : Bool} {m : Nat} {e : Int} (hftz : r.ftz = false) (hm : m ≠ 0)
    (hgrain : max (log2Val m e) (1 - (f.bias : Int)) - f.p = e) (hmax : aboveMax f m e = false) :
    roundTo f r (.num neg m e false) = (encodeFinite f neg m e, 0) := by
  simp [roundTo, hm, hftz, hgrain, splitAt_same, roundAway_exact, hmax]

/-! ## Normal values

A fraction t below 2^p and a biased exponent e from 1 on: (2^p + t) × 2^(e − bias − p) (R49). -/

theorem log2_significand {p t : Nat} (ht : t < 2 ^ p) : Nat.log2 (2 ^ p + t) = p :=
  (Nat.log2_eq_iff (by omega)).mpr ⟨Nat.le_add_right _ _, by omega⟩
theorem log2Val_normal (f : FSpec) {t : Nat} (e : Int) (ht : t < 2 ^ f.p) : log2Val (2 ^ f.p + t) (e - f.bias - f.p) = e - f.bias := by
  rw [log2Val, log2_significand ht]
  omega
theorem encodeFinite_normal {f : FSpec} (neg : Bool) {e t : Nat} (he : 1 ≤ e) (ht : t < 2 ^ f.p) :
    encodeFinite f neg (2 ^ f.p + t) (e - f.bias - f.p) = signBit f neg + (e * 2 ^ f.p + t) := by
  have hnonzero : 2 ^ f.p + t ≠ 0 := by omega
  have hnormal : ¬ (e : Int) - f.bias < 1 - f.bias := by omega
  have hshift : (e : Int) - f.bias - (e - f.bias - f.p) - f.p = 0 := by omega
  have hexp : ((e : Int) - f.bias + f.bias).toNat = e := by omega
  have hp : (f.p : Int) ≤ (e : Int) - f.bias - (e - f.bias - f.p) := by omega
  simp only [encodeFinite, hnonzero, log2Val_normal f e ht, hnormal, hp, hshift, hexp, if_false, if_true]
  simp [Nat.add_assoc]
theorem aboveMax_normal {f : FSpec} {e t : Nat} (ht : t < 2 ^ f.p) (hmax : e * 2 ^ f.p + t ≤ maxBits f) :
    aboveMax f (2 ^ f.p + t) (e - f.bias - f.p) = false := by
  have hM := Nat.div_add_mod' (maxBits f) (2 ^ f.p)
  have hr : maxBits f % 2 ^ f.p < 2 ^ f.p := Nat.mod_lt _ (Nat.two_pow_pos _)
  generalize hE : maxBits f / 2 ^ f.p = E at hM
  have heE : e ≤ E := hE ▸ (Nat.le_div_iff_mul_le (Nat.two_pow_pos _)).mpr (by omega)
  simp only [aboveMax, hE]
  generalize maxBits f % 2 ^ f.p = r at hM hr
  by_cases hsame : e = E
  · subst hsame
    simp
    omega
  · have hge : ¬ (E : Int) - f.bias - f.p ≤ e - f.bias - f.p := by omega
    obtain ⟨k, hk⟩ : ∃ k, ((E : Int) - f.bias - f.p - (e - f.bias - f.p)).toNat = k + 1 := ⟨E - e - 1, by omega⟩
    have htwice : (2 ^ f.p + r) * 2 ≤ (2 ^ f.p + r) * 2 ^ (k + 1) :=
      Nat.mul_le_mul_left _ (Nat.le_self_pow (Nat.succ_ne_zero k) 2)
    simp only [hge, hk, if_false, decide_eq_false_iff_not]
    omega
theorem roundTo_normal {f : FSpec} {r : Rnd} (neg : Bool) {e t : Nat} (hftz : r.ftz = false) (he : 1 ≤ e) (ht : t < 2 ^ f.p)
    (hmax : e * 2 ^ f.p + t ≤ maxBits f) :
    roundTo f r (.num neg (2 ^ f.p + t) (e - f.bias - f.p) false) = (signBit f neg + (e * 2 ^ f.p + t), 0) := by
  have hgrain : max (log2Val (2 ^ f.p + t) (e - f.bias - f.p)) (1 - (f.bias : Int)) - f.p = e - f.bias - f.p := by
    rw [log2Val_normal f e ht, max_eq_left (by omega)]
  rw [roundTo_of_onGrid hftz (by omega) hgrain (aboveMax_normal ht hmax), encodeFinite_normal neg he ht]

/-! ## Subnormal values

A fraction t below 2^p in units of the smallest subnormal: t × 2^(1 − bias − p) (R49). -/

theorem log2Val_subnormal (f : FSpec) {t : Nat} (h0 : t ≠ 0) (ht : t < 2 ^ f.p) :
    log2Val t (1 - f.bias - f.p) < 1 - (f.bias : Int) := by
  have hlog : Nat.log2 t < f.p := (Nat.log2_lt h0).mpr ht
  rw [log2Val]
  omega
theorem encodeFinite_subnormal {f : FSpec} (neg : Bool) {t : Nat} (h0 : t ≠ 0) (ht : t < 2 ^ f.p) :
    encodeFinite f neg t (1 - f.bias - f.p) = signBit f neg + t := by
  simp [encodeFinite, h0, log2Val_subnormal f h0 ht]
theorem aboveMax_subnormal {f : FSpec} {t : Nat} (ht : t < 2 ^ f.p) (hmax : 2 ^ f.p ≤ maxBits f) :
    aboveMax f t (1 - f.bias - f.p) = false := by
  have hE : 1 ≤ maxBits f / 2 ^ f.p := (Nat.one_le_div_iff (Nat.two_pow_pos _)).mpr hmax
  simp only [aboveMax]
  generalize maxBits f / 2 ^ f.p = E at hE
  generalize maxBits f % 2 ^ f.p = r
  by_cases hone : E = 1
  · subst hone
    simp
    omega
  · have hge : ¬ (E : Int) - f.bias - f.p ≤ 1 - f.bias - f.p := by omega
    have hscaled := Nat.le_mul_of_pos_right (2 ^ f.p + r) (Nat.two_pow_pos ((E : Int) - f.bias - f.p - (1 - f.bias - f.p)).toNat)
    simp only [hge, if_false, decide_eq_false_iff_not]
    omega
theorem roundTo_subnormal {f : FSpec} {r : Rnd} (neg : Bool) {t : Nat} (hftz : r.ftz = false) (ht : t < 2 ^ f.p)
    (hmax : 2 ^ f.p ≤ maxBits f) : roundTo f r (.num neg t (1 - f.bias - f.p) false) = (signBit f neg + t, 0) := by
  by_cases h0 : t = 0
  · subst h0
    exact roundTo_zero f r neg _
  · have hgrain : max (log2Val t (1 - f.bias - f.p)) (1 - (f.bias : Int)) - f.p = 1 - f.bias - f.p := by
      rw [max_eq_right (log2Val_subnormal f h0 ht).le]
    rw [roundTo_of_onGrid hftz h0 hgrain (aboveMax_subnormal ht hmax), encodeFinite_subnormal neg h0 ht]

/-! ## The bits of a finite element -/

/-- The layout of R49 and R58: a sign, at least two bits of exponent, at least one of fraction, and nothing else. -/
structure Laid (f : FSpec) : Prop where
  width : f.w = f.p + f.eb + 1
  exponent : 2 ≤ f.eb
  fraction : 1 ≤ f.p

theorem laid_of_scalar {f : FSpec} (h : f ∈ scalarFormats) : Laid f := by
  simp only [scalarFormats, List.mem_cons, List.not_mem_nil, or_false] at h
  rcases h with rfl | rfl | rfl | rfl | rfl | rfl | rfl | rfl | rfl <;> constructor <;> decide
theorem Laid.width_pred {f : FSpec} (hf : Laid f) : f.w - 1 = f.p + f.eb := by
  rw [hf.width, Nat.add_sub_cancel]
theorem Laid.two_pow_width_pred {f : FSpec} (hf : Laid f) : 2 ^ (f.w - 1) = 2 ^ f.eb * 2 ^ f.p := by
  rw [hf.width_pred, pow_add, Nat.mul_comm]

/-- An element is its sign, its exponent field and its fraction field. -/
theorem bits_eq_fields {f : FSpec} (hf : Laid f) {x : Nat} (hx : x < 2 ^ f.w) :
    x = signBit f (bitAt x (f.w - 1)) + (x / 2 ^ f.p % 2 ^ f.eb * 2 ^ f.p + x % 2 ^ f.p) := by
  have hfields : x % 2 ^ (f.w - 1) = x / 2 ^ f.p % 2 ^ f.eb * 2 ^ f.p + x % 2 ^ f.p := by
    rw [hf.width_pred, pow_add, Nat.mod_mul, Nat.mul_comm, Nat.add_comm]
  have htop : x / 2 ^ (f.w - 1) < 2 := by
    rwa [Nat.div_lt_iff_lt_mul (Nat.two_pow_pos _), ← pow_succ', hf.width_pred, ← hf.width]
  have hsign : signBit f (bitAt x (f.w - 1)) = 2 ^ (f.w - 1) * (x / 2 ^ (f.w - 1)) := by
    generalize hs : x / 2 ^ (f.w - 1) = s at htop
    interval_cases s <;> simp [signBit, bitAt, hs]
  rw [hsign, ← hfields, Nat.div_add_mod]

/-- The largest finite magnitude has a biased exponent of at least 1. -/
theorem normal_le_maxBits {f : FSpec} (hf : Laid f) : 2 ^ f.p ≤ maxBits f := by
  have hfrac : 2 ^ 1 ≤ 2 ^ f.p := Nat.pow_le_pow_right two_pos hf.fraction
  have hexp : 2 ^ 2 * 2 ^ f.p ≤ 2 ^ f.eb * 2 ^ f.p := Nat.mul_le_mul_right _ (Nat.pow_le_pow_right two_pos hf.exponent)
  rw [maxBits, hf.two_pow_width_pred, Nat.sub_mul]
  split <;> omega

/-- Fields that are no infinity and no NaN are at most the largest finite magnitude (R50). -/
theorem fields_le_maxBits {f : FSpec} (hf : Laid f) {e t : Nat} (he : e < 2 ^ f.eb) (ht : t < 2 ^ f.p)
    (hieee : ¬ (f.special = .ieee ∧ e = 2 ^ f.eb - 1)) (he4m3 : ¬ (f.special = .e4m3 ∧ e = 2 ^ f.eb - 1 ∧ t = 2 ^ f.p - 1)) :
    e * 2 ^ f.p + t ≤ maxBits f := by
  have hfrac : 2 ^ 1 ≤ 2 ^ f.p := Nat.pow_le_pow_right two_pos hf.fraction
  have hbelow : e ≠ 2 ^ f.eb - 1 → e * 2 ^ f.p + 2 ^ f.p ≤ 2 ^ f.eb * 2 ^ f.p - 2 ^ f.p := fun hne => by
    rw [← Nat.succ_mul, ← Nat.sub_one_mul]
    exact Nat.mul_le_mul_right _ (by omega)
  have htop : e = 2 ^ f.eb - 1 → e * 2 ^ f.p = 2 ^ f.eb * 2 ^ f.p - 2 ^ f.p := fun h => by rw [h, Nat.sub_one_mul]
  have hroom : 1 * 2 ^ f.p ≤ 2 ^ f.eb * 2 ^ f.p := Nat.mul_le_mul_right _ (Nat.two_pow_pos _)
  rw [maxBits, hf.two_pow_width_pred, Nat.sub_one_mul]
  by_cases hall : e = 2 ^ f.eb - 1
  · have hlast := htop hall
    split
    case h_1 h => exact absurd ⟨h, hall⟩ hieee
    case h_2 h =>
      have hnan : t ≠ 2 ^ f.p - 1 := fun hlt => he4m3 ⟨h, hall, hlt⟩
      omega
    case h_3 => omega
  · have hlast := hbelow hall
    split <;> omega

/-- What the bits of a finite element are and what they decode to: a subnormal or a normal value, at most the largest (R49, R50). -/
theorem fields_of_decodeFp_num {f : FSpec} (hf : Laid f) {x : Nat} (hx : x < 2 ^ f.w) {n : Bool} {m : Nat} {g : Int}
    (hnum : decodeFp f x = .num n m g false) :
    ∃ e t, t < 2 ^ f.p ∧ x = signBit f n + (e * 2 ^ f.p + t) ∧ e * 2 ^ f.p + t ≤ maxBits f ∧
      (e = 0 ∧ m = t ∧ g = 1 - f.bias - f.p ∨ 1 ≤ e ∧ m = 2 ^ f.p + t ∧ g = e - f.bias - f.p) := by
  have hbits := bits_eq_fields hf hx
  have ht : x % 2 ^ f.p < 2 ^ f.p := Nat.mod_lt _ (Nat.two_pow_pos _)
  have he : x / 2 ^ f.p % 2 ^ f.eb < 2 ^ f.eb := Nat.mod_lt _ (Nat.two_pow_pos _)
  simp only [decodeFp] at hnum
  generalize x % 2 ^ f.p = t at hnum hbits ht
  generalize x / 2 ^ f.p % 2 ^ f.eb = e at hnum hbits he
  by_cases hieee : f.special = .ieee ∧ e = 2 ^ f.eb - 1
  · rw [if_pos hieee] at hnum
    split at hnum <;> cases hnum
  rw [if_neg hieee] at hnum
  by_cases he4m3 : f.special = .e4m3 ∧ e = 2 ^ f.eb - 1 ∧ t = 2 ^ f.p - 1
  · rw [if_pos he4m3] at hnum
    cases hnum
  rw [if_neg he4m3] at hnum
  have hmax := fields_le_maxBits hf he ht hieee he4m3
  by_cases h0 : e = 0
  · rw [if_pos h0] at hnum
    cases hnum
    exact ⟨e, _, ht, hbits, hmax, .inl ⟨h0, rfl, rfl⟩⟩
  · rw [if_neg h0] at hnum
    cases hnum
    exact ⟨e, t, ht, hbits, hmax, .inr ⟨Nat.one_le_iff_ne_zero.mpr h0, rfl, rfl⟩⟩

/-- RoundTo changes no representable value, in any mode, where nothing is flushed (R60). -/
theorem roundTo_decodeFp {f : FSpec} (hf : Laid f) {r : Rnd} (hftz : r.ftz = false) {x : Nat} (hx : x < 2 ^ f.w) {n : Bool} {m : Nat}
    {g : Int} (hnum : decodeFp f x = .num n m g false) : roundTo f r (decodeFp f x) = (x, 0) := by
  rw [hnum]
  obtain ⟨e, t, ht, hbits, hmax, ⟨rfl, rfl, rfl⟩ | ⟨he, rfl, rfl⟩⟩ := fields_of_decodeFp_num hf hx hnum
  case inl => rw [roundTo_subnormal n hftz ht (normal_le_maxBits hf), hbits, Nat.zero_mul, Nat.zero_add]
  case inr => rw [roundTo_normal n hftz he ht hmax, ← hbits]

/-- Settles O10, by the two kinds of finite elements: a subnormal and a normal value both stand on their own grain. -/
theorem representableValuesRoundToThemselves : Obligations.RepresentableValuesRoundToThemselves :=
  fun _ _ hf hx ⟨_, _, _, hnum⟩ => roundTo_decodeFp (laid_of_scalar hf) rfl hx hnum

/-! ## Overflow and infinite inputs -/

/-- The "∞" column of R61: an infinity where the format has one, the NaN of E4M3, the largest finite value of the rest. -/
def infinityOf (f : FSpec) (neg : Bool) : Nat :=
  match f.special with
  | .ieee => infBits f neg
  | .e4m3 => defaultNan f
  | .none => signBit f neg + maxBits f

theorem overflowBits_saturated (f : FSpec) (mode : Nat) (neg : Bool) : overflowBits f mode true neg = signBit f neg + maxBits f := rfl
/-- Without saturation the mode and the sign choose the column of R61's table. -/
theorem overflowBits_unsaturated (f : FSpec) {mode : Nat} (neg : Bool) (hmode : mode ∈ [0, 1, 2, 3, 4]) :
    overflowBits f mode false neg =
      if mode = 0 ∨ mode = 4 ∨ mode = 2 ∧ neg = false ∨ mode = 3 ∧ neg = true then infinityOf f neg
      else signBit f neg + maxBits f := by
  simp only [List.mem_cons, List.not_mem_nil, or_false] at hmode
  rcases hmode with rfl | rfl | rfl | rfl | rfl
  case inl | inr.inl | inr.inr.inr.inr => rfl
  case inr.inr.inl | inr.inr.inr.inl => cases neg <;> rfl
theorem roundTo_inf_saturated (f : FSpec) {r : Rnd} (neg : Bool) (hsat : r.sat = true) :
    roundTo f r (.inf neg) = (signBit f neg + maxBits f, 0) := by
  rw [roundTo, if_pos hsat]
theorem roundTo_inf_unsaturated (f : FSpec) {r : Rnd} (neg : Bool) (hsat : r.sat = false) :
    roundTo f r (.inf neg) = (infinityOf f neg, if f.special = .e4m3 then fNV else 0) := by
  rw [roundTo, if_neg (Bool.eq_false_iff.mp hsat), infinityOf]
  cases f.special <;> rfl

/-- Settles O11, by saturation: with it all is the largest finite value, without it the mode and the format decide. -/
theorem overflowAndInfinities : Obligations.OverflowAndInfinities := by
  intro f mode sat ftz neg srd _ hmode
  cases sat with
  | true => exact ⟨overflowBits_saturated f mode neg, roundTo_inf_saturated f neg rfl⟩
  | false =>
    refine ⟨(overflowBits_unsaturated f neg hmode).trans ?_, (roundTo_inf_unsaturated f neg rfl).trans ?_⟩ <;>
      simp only [true_and] <;> rfl
end Sys2Proof.Proofs
end
section
/-! SUPPORT. Class S: what its functions give, in the words of the manual's table (O1, O2, O3). -/
namespace Sys2Proof.Proofs
open Sys2Proof.Machine Sys2Proof.Claims Sys2Proof.Laws

/-! ## Shifts -/

theorem shiftLeft_eq_mul (x : Word) (n : Nat) : x <<< n = BitVec.ofNat 64 (x.toNat * 2 ^ n) := by
  rw [← Nat.shiftLeft_eq, ← BitVec.toNat_inj, BitVec.toNat_shiftLeft, BitVec.toNat_ofNat]
theorem ushiftRight_eq_div (x : Word) (n : Nat) : x >>> n = BitVec.ofNat 64 (x.toNat / 2 ^ n) := by
  rw [← Nat.shiftRight_eq_div_pow, ← BitVec.toNat_inj, BitVec.toNat_ushiftRight, BitVec.toNat_ofNat, Nat.mod_eq_of_lt]
  exact Nat.lt_of_le_of_lt (Nat.shiftRight_le _ _) x.isLt
theorem sshiftRight_eq_div (x : Word) (n : Nat) : x.sshiftRight n = BitVec.ofInt 64 (x.toInt / (2 ^ n : Nat)) := by
  rw [BitVec.sshiftRight, Int.shiftRight_eq_div_pow]

theorem mul_eq_ofNat (x y : Word) : x * y = BitVec.ofNat 64 (x.toNat * y.toNat) := by
  rw [← BitVec.toNat_inj, BitVec.toNat_mul, BitVec.toNat_ofNat]

/-! ## Comparisons -/

theorem sMin_eq (x y : Word) : sMin x y = if x.toInt < y.toInt then x else y := by
  unfold sMin
  rcases Int.lt_trichotomy x.toInt y.toInt with h | h | h
  · rw [if_pos h.le, if_pos h]
  · rw [BitVec.toInt_inj.mp h, ite_self, ite_self]
  · rw [if_neg (not_le.mpr h), if_neg (not_lt.mpr h.le)]
theorem sMax_eq (x y : Word) : sMax x y = if x.toInt < y.toInt then y else x := by
  unfold sMax
  rcases Int.lt_trichotomy x.toInt y.toInt with h | h | h
  · rw [if_pos h.le, if_pos h]
  · rw [BitVec.toInt_inj.mp h, ite_self, ite_self]
  · rw [if_neg (not_le.mpr h), if_neg (not_lt.mpr h.le)]
theorem sMinu_eq (x y : Word) : sMinu x y = if x.toNat < y.toNat then x else y := by
  unfold sMinu
  rcases Nat.lt_trichotomy x.toNat y.toNat with h | h | h
  · rw [if_pos h.le, if_pos h]
  · rw [BitVec.toNat_inj.mp h, ite_self, ite_self]
  · rw [if_neg (not_le.mpr h), if_neg (not_lt.mpr h.le)]
theorem sMaxu_eq (x y : Word) : sMaxu x y = if x.toNat < y.toNat then y else x := by
  unfold sMaxu
  rcases Nat.lt_trichotomy x.toNat y.toNat with h | h | h
  · rw [if_pos h.le, if_pos h]
  · rw [BitVec.toNat_inj.mp h, ite_self, ite_self]
  · rw [if_neg (not_le.mpr h), if_neg (not_lt.mpr h.le)]
theorem b2w_decide (p : Prop) [Decidable p] : b2w (decide p) = if p then 1 else 0 := by
  by_cases h : p <;> simp [b2w, h]
theorem sSeq_eq (x y : Word) : sSeq x y = if x = y then 1 else 0 := b2w_decide (x = y)
theorem sSne_eq (x y : Word) : sSne x y = if x = y then 0 else 1 := by
  by_cases h : x = y <;> simp [sSne, b2w, h]

/-! ## Counts of bits -/

theorem popcount_toNat (x : Word) : popcount x.toNat 64 = ones x := by
  simp only [popcount, ones, bitAt_toNat]
theorem length_takeWhile_range (p : Nat → Bool) (n : Nat) :
    ((List.range n).takeWhile fun i => !p i).length = ((List.range n).find? p).getD n := by
  induction n with
  | zero => rfl
  | succ n ih =>
    rw [List.range_succ, List.takeWhile_append, List.find?_append]
    cases h : (List.range n).find? p with
    | some i =>
      have hi : i < n := List.mem_range.mp (List.mem_of_find?_eq_some h)
      rw [h, Option.getD_some] at ih
      rw [if_neg (by rw [ih, List.length_range]; omega), ih]
      rfl
    | none =>
      rw [h, Option.getD_none] at ih
      rw [if_pos (by rw [ih, List.length_range])]
      cases hp : p n <;> simp [hp]
theorem trailingZeros_toNat (x : Word) : trailingZeros x.toNat 64 = zerosBelow x := by
  rw [zerosBelow, length_takeWhile_range, trailingZeros]
  simp only [bitAt_toNat]
theorem leadingZeros_toNat (x : Word) : leadingZeros x.toNat 64 = zerosAbove x := by
  rw [zerosAbove, length_takeWhile_range, leadingZeros]
  split
  next h0 =>
    have hnone : (List.range 64).find? (fun i => x.getLsbD (63 - i)) = none := by
      simp [← BitVec.testBit_toNat, h0]
    rw [hnone]
    rfl
  next h0 =>
    have hlog : x.toNat.log2 < 64 := (Nat.log2_lt h0).mpr x.isLt
    have hsome : (List.range 64).find? (fun i => x.getLsbD (63 - i)) = some (63 - x.toNat.log2) := by
      rw [List.find?_range_eq_some]
      refine ⟨?_, List.mem_range.mpr (by omega), fun j hj => ?_⟩
      · rw [show 63 - (63 - x.toNat.log2) = x.toNat.log2 by omega]
        exact Nat.testBit_log2 h0
      · have hlt : x.toNat < 2 ^ (63 - j) := (Nat.log2_lt h0).mp (by omega)
        rw [← BitVec.testBit_toNat, Nat.testBit_lt_two_pow hlt]
        rfl
    rw [hsome]
    rfl

/-! ## The forms -/

/-- The forms of a table each land their value in s[d] at issue + 1. -/
def AllLand (s : State) (d : Reg) (forms : List (Instr × Word)) : Prop :=
  ∀ i v, (i, v) ∈ forms → ∃ t, Machine.exec i s = .next t ∧ LandsS s t d 1 v

theorem AllLand.nil (s : State) (d : Reg) : AllLand s d [] := fun _ _ h => absurd h List.not_mem_nil
/-- A form that puts a value into s[d] lands what the table says the value is. -/
theorem AllLand.cons {s : State} {d : Reg} {i : Instr} {v : Word} {forms : List (Instr × Word)} {x : Word}
    (hexec : Machine.exec i s = .next (s.putS d 1 x)) (hx : x = v) (h : AllLand s d forms) : AllLand s d ((i, v) :: forms) := by
  intro j y hj
  rcases List.mem_cons.mp hj with hj | hj
  · obtain ⟨rfl, rfl⟩ := Prod.mk.injEq .. ▸ hj
    exact ⟨_, hexec, hx ▸ putS_lands s d 1 x⟩
  · exact h j y hj

/-- Settles O1, form by form: what the model computes is what the table of R109 says. -/
theorem scalarRegisterForms : Obligations.ScalarRegisterForms := by
  intro s d a b c x y n
  change AllLand s d _
  refine .cons rfl rfl <| .cons rfl rfl <| .cons rfl rfl <| .cons rfl rfl <| .cons rfl rfl <| .cons rfl rfl <|
    .cons rfl (shiftLeft_eq_mul x n) <| .cons rfl (ushiftRight_eq_div x n) <| .cons rfl (sshiftRight_eq_div x n) <| .cons rfl rfl <|
    .cons rfl (mul_eq_ofNat x y) <| .cons rfl rfl <| .cons rfl rfl <|
    .cons rfl (sMin_eq x y) <| .cons rfl (sMax_eq x y) <| .cons rfl (sMinu_eq x y) <| .cons rfl (sMaxu_eq x y) <|
    .cons rfl (b2w_decide _) <| .cons rfl (b2w_decide _) <| .cons rfl (sSeq_eq x y) <| .cons rfl (sSne_eq x y) <|
    .cons rfl (ite_not ..) <|
    .cons rfl (congrArg word (leadingZeros_toNat x)) <| .cons rfl (congrArg word (trailingZeros_toNat x)) <|
    .cons rfl (congrArg word (popcount_toNat x)) <| .nil s d

/-! ## Bit fields (R110) -/

theorem bfPos_eq (y : Word) : bfPos y.toNat = fieldPos y := by simp [bfPos, bits, fieldPos]
theorem fieldPos_lt (y : Word) : fieldPos y < 64 := Nat.mod_lt _ (by decide)
theorem bfPos_lt (y : Word) : ¬ 64 ≤ bfPos y.toNat := by rw [bfPos_eq]; exact Nat.not_le.mpr (fieldPos_lt y)
theorem bfHi_eq (y : Word) : min (bfPos y.toNat + bfLen y.toNat) 64 - 1 = fieldHi y := by
  rw [bfPos_eq]
  simp [bfLen, bits, fieldHi]
theorem fieldPos_le_fieldHi (y : Word) : fieldPos y ≤ fieldHi y ∧ fieldHi y < 64 := by
  have h := fieldPos_lt y
  unfold fieldHi
  omega
/-- The field of a value that a control word names. -/
def field (x y : Word) : Nat := x.toNat / 2 ^ fieldPos y % 2 ^ (fieldHi y + 1 - fieldPos y)
theorem sBfx_eq (x y : Word) : sBfx x y = BitVec.ofNat 64 (field x y) := by
  rw [sBfx, iBfx, if_neg (bfPos_lt y), bfHi_eq, bfPos_eq]
  rfl
theorem word_wrap (z : Int) : word (wrap z 64) = BitVec.ofInt 64 z := by
  rw [← BitVec.toNat_inj, word, wrap, BitVec.toNat_ofNat, BitVec.toNat_ofInt]
  omega
theorem field_testBit (x y : Word) (i : Nat) :
    (field x y).testBit i = (decide (i < fieldHi y + 1 - fieldPos y) && x.getLsbD (i + fieldPos y)) := by
  rw [field, Nat.testBit_mod_two_pow, Nat.testBit_div_two_pow, BitVec.testBit_toNat]
/-- The sign of a field is its highest bit. -/
theorem signed_field (x y : Word) : signed (field x y) (fieldHi y - fieldPos y + 1) =
    if x.getLsbD (fieldHi y) then (field x y : Int) - 2 ^ (fieldHi y + 1 - fieldPos y) else field x y := by
  obtain ⟨hle, hlt⟩ := fieldPos_le_fieldHi y
  have hlen : fieldHi y - fieldPos y + 1 = fieldHi y + 1 - fieldPos y := by omega
  have hbit : (field x y).testBit (fieldHi y - fieldPos y) = x.getLsbD (fieldHi y) := by
    rw [field_testBit, show fieldHi y - fieldPos y + fieldPos y = fieldHi y by omega, decide_eq_true (by omega), Bool.true_and]
  have hsize : field x y < 2 ^ (fieldHi y - fieldPos y + 1) := hlen ▸ Nat.mod_lt _ (Nat.two_pow_pos _)
  rw [signed, Nat.add_sub_cancel, ← hbit, ← hlen]
  by_cases h : field x y < 2 ^ (fieldHi y - fieldPos y)
  · rw [if_pos h, Nat.testBit_lt_two_pow h]
    rfl
  · rw [if_neg h, Nat.testBit_of_two_pow_le_and_two_pow_add_one_gt (Nat.not_lt.mp h) hsize]
    simp
theorem sBfxs_eq (x y : Word) : sBfxs x y = BitVec.ofInt 64
    (if x.getLsbD (fieldHi y) then (field x y : Int) - 2 ^ (fieldHi y + 1 - fieldPos y) else field x y) := by
  rw [sBfxs, iBfxs, if_neg (bfPos_lt y), bfHi_eq, bfPos_eq, word_wrap, ← signed_field]
  rfl
/-- The sum of two words without a common bit has the bits of both. -/
theorem getLsbD_word_add {m n : Nat} (h : ∀ i, i < 64 → (m.testBit i && n.testBit i) = false) {i : Nat} (hi : i < 64) :
    (word (m + n)).getLsbD i = (m.testBit i || n.testBit i) := by
  have hand : BitVec.ofNat 64 m &&& BitVec.ofNat 64 n = 0#64 := by
    refine BitVec.eq_of_getLsbD_eq fun j hj => ?_
    rw [BitVec.getLsbD_and, BitVec.getLsbD_ofNat, BitVec.getLsbD_ofNat, decide_eq_true hj, Bool.true_and, Bool.true_and, h j hj,
      BitVec.getLsbD_zero]
  rw [word, BitVec.ofNat_add, BitVec.add_eq_or_of_and_eq_zero _ _ hand, BitVec.getLsbD_or, BitVec.getLsbD_ofNat, BitVec.getLsbD_ofNat,
    decide_eq_true hi, Bool.true_and, Bool.true_and]
theorem bfi_getLsbD (d x y : Word) {i : Nat} (hi : i < 64) : (word (iBfi 64 d.toNat x.toNat y.toNat)).getLsbD i =
    if fieldPos y ≤ i ∧ i ≤ fieldHi y then x.getLsbD (i - fieldPos y) else d.getLsbD i := by
  obtain ⟨hle, hlt⟩ := fieldPos_le_fieldHi y
  have hmask : ∀ j, ((2 ^ (fieldHi y - fieldPos y + 1) - 1) * 2 ^ fieldPos y).testBit j = decide (fieldPos y ≤ j ∧ j ≤ fieldHi y) := by
    intro j
    rw [Nat.testBit_mul_two_pow, Nat.testBit_two_pow_sub_one]
    by_cases hj : fieldPos y ≤ j
    · simp [hj]
      omega
    · simp [hj]
  have hsize : (2 ^ (fieldHi y - fieldPos y + 1) - 1) * 2 ^ fieldPos y < 2 ^ 64 := by
    calc (2 ^ (fieldHi y - fieldPos y + 1) - 1) * 2 ^ fieldPos y < 2 ^ (fieldHi y - fieldPos y + 1) * 2 ^ fieldPos y :=
          Nat.mul_lt_mul_of_pos_right (Nat.sub_lt (Nat.two_pow_pos _) Nat.one_pos) (Nat.two_pow_pos _)
      _ = 2 ^ (fieldHi y - fieldPos y + 1 + fieldPos y) := (Nat.pow_add ..).symm
      _ ≤ 2 ^ 64 := Nat.pow_le_pow_right (by decide) (by omega)
  have hkept : ∀ j, j < 64 → (iAndn 64 d.toNat ((2 ^ (fieldHi y - fieldPos y + 1) - 1) * 2 ^ fieldPos y)).testBit j =
      (d.getLsbD j && !decide (fieldPos y ≤ j ∧ j ≤ fieldHi y)) := by
    intro j hj
    rw [iAndn, Nat.testBit_and, show ∀ m, 2 ^ 64 - 1 - m = 2 ^ 64 - (m + 1) by omega, Nat.testBit_two_pow_sub_succ hsize, hmask,
      decide_eq_true hj, Bool.true_and, BitVec.testBit_toNat]
  have hput : ∀ j, (x.toNat % 2 ^ (fieldHi y - fieldPos y + 1) * 2 ^ fieldPos y).testBit j =
      (decide (fieldPos y ≤ j ∧ j ≤ fieldHi y) && x.getLsbD (j - fieldPos y)) := by
    intro j
    rw [Nat.testBit_mul_two_pow, Nat.testBit_mod_two_pow, BitVec.testBit_toNat]
    by_cases hj : fieldPos y ≤ j
    · simp [hj]
      congr 1
      simp
      omega
    · simp [hj]
  rw [iBfi, if_neg (bfPos_lt y), bfHi_eq, bfPos_eq, getLsbD_word_add ?disjoint hi, hkept i hi, hput]
  case disjoint =>
    intro j hj
    rw [hkept j hj, hput]
    cases decide (fieldPos y ≤ j ∧ j ≤ fieldHi y) <;> simp
  by_cases h : fieldPos y ≤ i ∧ i ≤ fieldHi y
  · simp [h]
  · simp [h]

/-! ## Funnel shifts (R111) -/

theorem word_iFsh (x y t : Nat) : word (iFsh 64 x y t) = BitVec.ofNat 64 ((x * 2 ^ 64 + y) / 2 ^ t) := by
  rw [← BitVec.toNat_inj, word, iFsh, BitVec.toNat_ofNat, BitVec.toNat_ofNat, Nat.mod_mod]

/-- Settles O2: the field's bits for the three field forms, one division for both funnel shifts. -/
theorem scalarFieldForms : Obligations.ScalarFieldForms := by
  intro s d a b c n x y pos hi f
  refine ⟨⟨_, rfl, ?bfx⟩, ⟨_, rfl, ?bfxs⟩, ⟨_, _, rfl, putS_lands .., fun i hi => bfi_getLsbD _ x y hi⟩, ⟨_, rfl, ?fsh⟩, ⟨_, rfl, ?fshi⟩⟩
  case bfx => exact sBfx_eq x y ▸ putS_lands ..
  case bfxs => exact sBfxs_eq x y ▸ putS_lands ..
  case fsh => exact word_iFsh .. ▸ putS_lands ..
  case fshi => exact word_iFsh .. ▸ putS_lands ..

/-! ## Immediates and loop levels (R112, R113) -/

theorem toInt_eq_if {n : Nat} (x : BitVec n) : x.toInt = if x.toNat < 2 ^ (n - 1) then (x.toNat : Int) else (x.toNat : Int) - 2 ^ n := by
  cases n with
  | zero => simp [BitVec.eq_nil x]
  | succ n =>
    have hn : 2 * x.toNat < 2 ^ (n + 1) ↔ x.toNat < 2 ^ n := by rw [Nat.pow_succ]; omega
    rw [BitVec.toInt_eq_toNat_cond, Nat.add_sub_cancel]
    simp only [hn]
    rfl
theorem imm11_eq (s : State) (m : BitVec 11) : s.imm11 m = immediate s 11 m.toNat := by
  unfold State.imm11 immediate
  cases s.core.iss.lit with
  | none => exact congrArg (BitVec.ofInt 64) (toInt_eq_if m)
  | some l => rfl
theorem imm16_eq (s : State) (h : BitVec 16) : s.imm16 h = immediate s 16 h.toNat := by
  unfold State.imm16 immediate
  cases s.core.iss.lit with
  | none => exact congrArg (BitVec.ofInt 64) (toInt_eq_if h)
  | some l => rfl
theorem movhi_eq (x : Word) (h : BitVec 16) : x * 65536 + h.setWidth 64 = BitVec.ofNat 64 (x.toNat * 2 ^ 16 + h.toNat) := by
  rw [← BitVec.toNat_inj]
  simp [BitVec.toNat_add, BitVec.toNat_mul]
/-- A field of a loop level, 0 where the level is inactive. -/
theorem level_field (x : Weave) (n : Nat) {f : LoopLevel → BitVec 32} (h0 : f LoopLevel.none = 0) :
    (f (x.level n)).setWidth 64 = ((x.loops[n]?).map fun l => BitVec.ofNat 64 (f l).toNat).getD 0 := by
  rw [Weave.level]
  cases x.loops[n]? with
  | none => simp [h0]
  | some l => exact (BitVec.ofNat_toNat ..).symm

/-- Settles O3, form by form. -/
theorem scalarImmediateForms : Obligations.ScalarImmediateForms := by
  intro s d a m n h level x imm lv
  change AllLand s d _
  have hm : s.imm11 m = imm := imm11_eq s m
  refine .cons rfl (hm ▸ rfl) <| .cons rfl (hm ▸ rfl) <| .cons rfl (hm ▸ rfl) <| .cons rfl (hm ▸ rfl) <|
    .cons rfl (shiftLeft_eq_mul x n.toNat) <| .cons rfl (ushiftRight_eq_div x n.toNat) <| .cons rfl (sshiftRight_eq_div x n.toNat) <|
    .cons rfl (hm ▸ b2w_decide (x.toInt < (s.imm11 m).toInt)) <| .cons rfl (hm ▸ b2w_decide (x.toNat < (s.imm11 m).toNat)) <|
    .cons rfl (imm16_eq s h) <| .cons rfl (movhi_eq _ h) <|
    .cons rfl (level_field s.wv _ (f := LoopLevel.index) rfl) <| .cons rfl (level_field s.wv _ (f := LoopLevel.remaining) rfl) <| .nil s d
end Sys2Proof.Proofs
end
section
/-! SUPPORT. Branches and hardware loops (O18, O19). -/
namespace Sys2Proof.Proofs
open Sys2Proof.Machine Sys2Proof.Claims Sys2Proof.Laws

/-! ## Branches (R114) -/

theorem signedOf_toNat {n : Nat} (x : BitVec n) : signedOf n x.toNat = x.toInt := (toInt_eq_if x).symm
/-- What a branch form does with its condition and its target (R114). -/
def Goes (s : State) (i : Instr) (taken : Bool) (target : Int) : Prop :=
  (taken = true → 0 ≤ target ∧ target ≤ 16383 → ∃ t, Machine.exec i s = .next t ∧ Redirects s t (some target.toNat)) ∧
  (taken = false → Machine.exec i s = .next s) ∧
  (taken = true → ¬ (0 ≤ target ∧ target ≤ 16383) → Machine.exec i s = .next (s.illegal (BitVec.ofInt 64 target)))
theorem branch_inBank (s : State) {target : Int} (h : 0 ≤ target ∧ target ≤ 16383) : Redirects s (s.branch true target) (some target.toNat) := by
  rw [State.branch, if_neg (by decide), if_pos ⟨h.1, by omega⟩]
  rfl
theorem branch_outside (s : State) {target : Int} (h : ¬ (0 ≤ target ∧ target ≤ 16383)) :
    s.branch true target = s.illegal (BitVec.ofInt 64 target) := by
  rw [State.branch, if_neg (by decide), if_neg (by omega)]
theorem goes_of_branch {s : State} {i : Instr} {taken taken' : Bool} {target target' : Int}
    (hexec : Machine.exec i s = .next (s.branch taken target)) (htaken : taken = taken') (htarget : target = target') :
    Goes s i taken' target' := by
  subst htaken htarget
  refine ⟨fun htaken hin => ⟨_, hexec, ?_⟩, fun htaken => ?_, fun htaken hout => ?_⟩
  · exact htaken ▸ branch_inBank s hin
  · rw [hexec, htaken]
    rfl
  · rw [hexec, htaken, branch_outside s hout]
/-- A trap drops what the bundle's earlier syllables did to the machine (R31). -/
theorem illegal_putS {s : State} (h : UnderWay s) (d : Reg) (L : Nat) (x info : Word) : (s.putS d L x).illegal info = s.illegal info := by
  obtain ⟨b, hb⟩ := h
  obtain ⟨⟨hbase, hrest, -⟩, -⟩ := putS_lands s d L x
  have hiss : (s.putS d L x).core.iss = s.core.iss := (congrArg Core.iss hrest :)
  have hrd : (s.putS d L x).rd = s.rd := by simp only [State.rd, hbase, hb, Option.getD_some]
  simp only [State.illegal, State.raise, State.raiseAt, hiss, hrd]

/-- Settles O18: every branch form is the model's one branch, at its condition and its target. -/
theorem branches : Obligations.Branches := by
  intro s d a o n P x y far near link inBank
  have hfar : s.rel o.toInt = far := congrArg (P + ·) (signedOf_toNat o).symm
  have hnear : s.rel n.toInt = near := congrArg (P + ·) (signedOf_toNat n).symm
  have hjr : ((x + o.signExtend 64).toNat : Int) = ((x + BitVec.ofInt 64 (signedOf 16 o.toNat)).toNat : Int) := by
    rw [signedOf_toNat]
    rfl
  have hne : ∀ u v : Word, (u != v) = decide (u ≠ v) := fun u v => (decide_not ..).symm
  refine ⟨fun i taken target hi => ?_, fun hin => ?_, fun hunder hout => ?_⟩
  · change Goes s i taken target
    simp only [List.mem_cons, Prod.mk.injEq, List.not_mem_nil, or_false] at hi
    rcases hi with ⟨rfl, rfl, rfl⟩ | ⟨rfl, rfl, rfl⟩ | ⟨rfl, rfl, rfl⟩ | ⟨rfl, rfl, rfl⟩ | ⟨rfl, rfl, rfl⟩ | ⟨rfl, rfl, rfl⟩ |
      ⟨rfl, rfl, rfl⟩ | ⟨rfl, rfl, rfl⟩ | ⟨rfl, rfl, rfl⟩ | ⟨rfl, rfl, rfl⟩ | ⟨rfl, rfl, rfl⟩
    · exact goes_of_branch rfl rfl hfar
    · exact goes_of_branch rfl rfl hjr
    · exact goes_of_branch rfl rfl rfl
    · exact goes_of_branch rfl rfl hfar
    · exact goes_of_branch rfl (hne x 0) hfar
    · exact goes_of_branch rfl rfl hnear
    · exact goes_of_branch rfl (hne y x) hnear
    · exact goes_of_branch rfl rfl hnear
    · exact goes_of_branch rfl rfl hnear
    · exact goes_of_branch rfl rfl hnear
    · exact goes_of_branch rfl rfl hnear
  · exact ⟨_, s.putS a 1 link, congrArg (fun z => Host.Outcome.next ((s.putS a 1 link).branch true z)) hfar, putS_lands s a 1 link,
      branch_inBank _ hin⟩
  · rw [← illegal_putS hunder a 1 link, ← branch_outside _ hout]
    exact congrArg (fun z => Host.Outcome.next ((s.putS a 1 link).branch true z)) hfar

/-! ## Loops (R115 to R117) -/

theorem openLoop_eq (s : State) (count e : Nat) : s.openLoop count e =
    if s.core.iss.pc + e < s.core.iss.pc + s.core.iss.len ∨ 16383 < s.core.iss.pc + e then s.illegal 0
    else if 6 ≤ s.wv.loops.length then s.loopStack
    else if count = 0 then s.modIss fun i => { i with skip := some (s.after (s.core.iss.pc + e)) }
    else s.modW fun x => { x with loops := x.loops ++ [⟨BitVec.ofNat 14 (s.core.iss.pc + s.core.iss.len), BitVec.ofNat 14 (s.core.iss.pc + e),
      BitVec.ofNat 32 count, 0⟩] } := rfl
theorem loopsOpen : Claims.LoopsOpen := by
  intro s a o c e i count off hi S T
  have hexec : Machine.exec i s = .next (s.openLoop count off) := by
    simp only [List.mem_cons, Prod.mk.injEq, List.not_mem_nil, or_false] at hi
    rcases hi with ⟨rfl, rfl, rfl⟩ | ⟨rfl, rfl, rfl⟩
    · rfl
    · rfl
  have hends : S ≤ T ∧ T ≤ 16383 ↔ ¬ (T < S ∨ 16383 < T) := by omega
  rw [hexec, openLoop_eq, hends]
  refine ⟨fun hin hroom hcount => ?_, fun hin hroom hcount => ?_, fun hout => ?_, fun hin hfull => ?_⟩
  · rw [if_neg hin, if_neg (Nat.not_le.mpr hroom), if_neg hcount.ne']
    have honly := (OnlyMe.refl s).modW fun x => { x with loops := x.loops ++ [⟨BitVec.ofNat 14 S, BitVec.ofNat 14 T, BitVec.ofNat 32 count, 0⟩] }
    exact ⟨_, rfl, by rw [honly.me], rfl, honly.sameBut rfl⟩
  · rw [if_neg hin, if_neg (Nat.not_le.mpr hroom), if_pos hcount]
    rfl
  · rw [if_pos hout]
  · rw [if_neg hin, if_pos hfull]
    rfl
theorem stepLoopStack_append (pc : Nat) (ls : List LoopLevel) (l : LoopLevel) : stepLoopStack pc (ls ++ [l]) =
    if l.stop.toNat = pc then
      if 1 < l.remaining.toNat then (ls ++ [{ l with remaining := l.remaining - 1, index := l.index + 1 }], some l.start.toNat)
      else stepLoopStack pc ls
    else (ls ++ [l], none) := by
  simp only [stepLoopStack, List.reverse_append, List.reverse_cons, List.reverse_nil, List.nil_append, List.singleton_append, stepLoops]
  split
  · split
    · simp
    · rfl
  · simp
theorem loopsStep : Claims.LoopsStep := by
  refine ⟨fun pc => rfl, fun pc ls l => ?_⟩
  rw [stepLoopStack_append]
  refine ⟨fun hne => if_neg hne, fun heq hleft => ?_, fun heq hlast => ?_⟩
  · rw [if_pos heq, if_pos hleft]
  · rw [if_pos heq, if_neg (Nat.not_lt.mpr hlast)]
theorem execLbrk_eq (s : State) (cond : LbrkCond) (a : Reg) : Machine.exec (.lbrk cond a) s =
    if lbrkTaken cond (s.sreg a) then
      match s.wv.loops.getLast? with
      | none => .next s.loopStack
      | some l => .next ((s.modW fun x => { x with loops := x.loops.dropLast }).modIss fun i =>
          { i with target := some (s.after l.stop.toNat) })
    else .next s := by
  change Machine.execLbrk cond a s = _
  unfold Machine.execLbrk
  rfl
theorem loopsBreak : Claims.LoopsBreak := by
  intro s cond a holds
  have htaken : lbrkTaken cond (s.sreg a) = true ↔ holds := by
    cases cond with
    | always => simp [lbrkTaken, holds]
    | nz => simp [lbrkTaken, holds]
    | z => simp [lbrkTaken, holds]
  rw [execLbrk_eq, ← htaken]
  refine ⟨fun hnot => if_neg hnot, fun hholds ls l hl => ?_, fun hholds hl => ?_⟩
  · rw [if_pos hholds, hl, List.getLast?_concat]
    have honly := (OnlyMe.refl s).modW fun x => { x with loops := x.loops.dropLast }
    obtain ⟨hbase, hrest, hothers, hme, hmem⟩ := honly.sameBut (f := fun x y => { y with loops := x.loops }) rfl
    exact ⟨_, rfl, congrArg Weave.loops honly.me, rfl, hbase, congrArg (fun c : Core => { c with iss := s.core.iss }) hrest, hothers, hme, hmem⟩
  · rw [if_pos hholds, hl]
    simp only [List.getLast?_nil, State.loopStack, hl]
    rfl
/-- Settles O19, by its three parts. -/
theorem loops : Obligations.Loops := ⟨loopsOpen, loopsStep, loopsBreak⟩
end Sys2Proof.Proofs
end
section
/-! SUPPORT. What the operations on semaphores leave in semaphores, weaves and sectors (O21, O22). -/
namespace Sys2Proof.Proofs
open Sys2Proof.Machine Sys2Proof.Claims Sys2Proof.Laws

/-! ## Semaphores of a machine -/

theorem sem_congr {c d : Core} (h : d.sectors = c.sectors) (sec n : Nat) : d.sem sec n = c.sem sec n := by
  simp only [Core.sem, Core.sector, h]
@[simp] theorem modSem_sem_same (c : Core) (sec n : Nat) (f : Sem → Sem) : (c.modSem sec n f).sem sec n = f (c.sem sec n) := by
  rw [Core.sem, Core.modSem, modSec_sector_same, mget_mset_same]
  rfl
theorem modSem_sem_other (c : Core) (sec : Nat) {n m : Nat} (f : Sem → Sem) (h : m ≠ n) : (c.modSem sec n f).sem sec m = c.sem sec m := by
  rw [Core.sem, Core.modSem, modSec_sector_same, mget_mset_other _ _ _ h]
  rfl
/-- An update of a sector that leaves its semaphores. -/
theorem modSec_sem {f : Sector → Sector} (hf : ∀ x, (f x).sems = x.sems) (c : Core) (k sec n : Nat) :
    (c.modSec k f).sem sec n = c.sem sec n := by
  by_cases h : sec = k
  · subst h
    rw [Core.sem, modSec_sector_same, hf]
    rfl
  · rw [Core.sem, modSec_sector_other _ _ h]
    rfl
/-- Of a sector, an update of a semaphore leaves all but the semaphores. -/
theorem modSem_sector (c : Core) (sec n : Nat) (f : Sem → Sem) :
    { (c.modSem sec n f).sector sec with sems := (c.sector sec).sems } = c.sector sec := by
  rw [Core.modSem, modSec_sector_same]
theorem modSem_sector_other (c : Core) {sec k : Nat} (n : Nat) (f : Sem → Sem) (h : k ≠ sec) :
    (c.modSem sec n f).sector k = c.sector k := modSec_sector_other _ _ h
@[simp] theorem modSem_weave (c : Core) (sec n : Nat) (f : Sem → Sem) (w : Nat) : (c.modSem sec n f).weave w = c.weave w := rfl

/-! ## ATOM (R326) -/

theorem or_of_setBit (x y : Word) : mergeBits x y y = x ||| y := by
  refine BitVec.eq_of_getLsbD_eq fun i hi => ?_
  simp only [mergeBits, BitVec.getLsbD_or, BitVec.getLsbD_and, BitVec.getLsbD_not, decide_eq_true hi]
  cases x.getLsbD i <;> cases y.getLsbD i <;> rfl
theorem setSt_atom (x : Weave) : x.setSt 4 true = { x with status := x.status ||| 16 } := by
  rw [Weave.setSt, ← or_of_setBit]
  rfl

/-! ## Signals (R124, R125) -/

/-- The event of semaphore n is pending in a weave, from this cycle on where it was not. -/
def withEvent (n now : Nat) (x : Weave) : Weave :=
  { x with events := if (mget? x.events n).isSome then x.events else mset x.events n now }
theorem withEvent_pending (n now : Nat) (x : Weave) : (mget? (withEvent n now x).events n).isSome = true := by
  unfold withEvent
  by_cases h : (mget? x.events n).isSome = true
  · simp [h]
  · simp [h, mget?_mset_same]
theorem withEvent_withEvent (n now : Nat) (x : Weave) : withEvent n now (withEvent n now x) = withEvent n now x := by
  have h := withEvent_pending n now x
  rw [withEvent, if_pos h]
/-- The event of semaphore n becomes pending in weaves. -/
def fired (n : Nat) (ws : List Nat) (c : Core) : Core := ws.foldl (fun c w => c.modW w (withEvent n c.now)) c
theorem fired_eq (n : Nat) (ws : List Nat) (c : Core) :
    { fired n ws c with weaves := c.weaves } = c ∧
    ∀ v, (fired n ws c).weave v = if v ∈ ws then withEvent n c.now (c.weave v) else c.weave v := by
  induction ws generalizing c with
  | nil => exact ⟨rfl, fun v => rfl⟩
  | cons w ws ih =>
    obtain ⟨hrest, hweave⟩ := ih (c.modW w (withEvent n c.now))
    refine ⟨(congrArg (fun d : Core => { d with weaves := c.weaves }) hrest :), fun v => (hweave v).trans ?_⟩
    by_cases hv : v = w
    · subst hv
      have hnow : (c.modW v (withEvent n c.now)).now = c.now := rfl
      rw [hnow, modW_weave_same, withEvent_withEvent, ite_self, if_pos List.mem_cons_self]
    · rw [modW_weave_other _ _ hv]
      simp only [List.mem_cons, hv, false_or]
      rfl
theorem fireArms_eq (c : Core) (sec n : Nat) :
    c.fireArms sec n = (fired n (c.sem sec n).arms c).modSem sec n fun x => { x with arms := [] } := rfl
theorem fireArms_weave (c : Core) (sec n v : Nat) :
    (c.fireArms sec n).weave v = if v ∈ (c.sem sec n).arms then withEvent n c.now (c.weave v) else c.weave v :=
  (fired_eq n _ c).2 v
theorem fireArms_rest (c : Core) (sec n : Nat) :
    { c.fireArms sec n with weaves := c.weaves } = c.modSem sec n fun x => { x with arms := [] } :=
  (congrArg (fun d : Core => d.modSem sec n fun x => { x with arms := [] }) (fired_eq n (c.sem sec n).arms c).1 :)
theorem fireArms_sem (c : Core) (sec n m : Nat) :
    (c.fireArms sec n).sem sec m = (c.modSem sec n fun x => { x with arms := [] }).sem sec m :=
  sem_congr (congrArg Core.sectors (fireArms_rest c sec n) :) sec m
theorem fireArms_cur (c : Core) (sec n : Nat) : (c.fireArms sec n).cur = c.cur := (congrArg Core.cur (fireArms_rest c sec n) :)
theorem fireArms_mem (c : Core) (sec n : Nat) : (c.fireArms sec n).mem = c.mem := (congrArg Core.mem (fireArms_rest c sec n) :)
theorem semaphoreSignals : Claims.SemaphoreSignals := by
  intro c sec n amount x y
  refine ⟨fun h0 => if_pos h0, fun hpos => ?_⟩
  let c' := if 0x7FFFFFFF < x.count + amount then c.modSem sec n fun x => { x with count := 0x7FFFFFFF, ov := true }
    else c.modSem sec n fun x => { x with count := x.count + amount }
  have hc' : c'.sem sec n =
      { x with count := min (x.count + amount) (2 ^ 31 - 1), ov := x.ov || decide (2 ^ 31 - 1 < x.count + amount) } := by
    unfold c'
    split
    next hover => rw [modSem_sem_same, Nat.min_eq_right (by omega), decide_eq_true (by omega), Bool.or_true]; rfl
    next hfits => rw [modSem_sem_same, Nat.min_eq_left (by omega), decide_eq_false (by omega), Bool.or_false]
  have hy : y = (if x.count < 0x7FFFFFFF then c'.fireArms sec n else c').sem sec n := by
    simp only [y, Core.signalSem, if_neg hpos.ne']
    rfl
  rw [hy]
  split
  next hrises =>
    rw [fireArms_sem, modSem_sem_same, hc']
    exact ⟨rfl, rfl, rfl, (if_pos hrises).symm, rfl⟩
  next hstays =>
    rw [hc']
    exact ⟨rfl, rfl, rfl, (if_neg hstays).symm, rfl⟩

/-! ## Updates (R121, R122, R124) -/

theorem execSsig_eq (s : State) (a : Reg) (n : BitVec 8) : Machine.exec (.ssig a n) s = .next (
    if semMax < (s.rd.sem s.sec n.toNat).count + (s.sreg a).toNat then s.semOvf n (s.sreg a)
    else if s.sreg a = 0 then s.setAtom
    else s.setAtom.modC fun c => ((c.modSem (secOf c.cur) n.toNat fun x => { x with count := x.count + (s.sreg a).toNat }).fireArms
      (secOf c.cur) n.toNat).serviceSem (secOf c.cur) n.toNat) := rfl
theorem execSinit_eq (s : State) (a : Reg) (n : BitVec 8) : Machine.exec (.sinit a n) s = .next (
    if semMax < (s.sreg a).toNat then s.semOvf n (s.sreg a)
    else s.setAtom.modC fun c => (c.modSem (secOf c.cur) n.toNat fun x =>
      { x with count := (s.sreg a).toNat, ab := false, ov := false, arms := [] }).serviceSem (secOf c.cur) n.toNat) := rfl
theorem me_setAtom (s : State) : me s.setAtom = { me s with status := (me s).status ||| 16 } :=
  (modW_weave_same s.core s.core.cur fun x => x.setSt 4 true).trans (setSt_atom _)
/-- An update of a semaphore of the executing weave's sector, with the service that follows. -/
theorem sameButSem_modSem {s t : State} {f : Weave → Weave → Weave} (n : BitVec 8) (g : Sem → Sem) {c : Core} (es : List Entry)
    (ht : t = { s with core := { c.modSem (secOf s.core.cur) n.toNat g with agenda := es } })
    (hc : { c with weaves := s.core.weaves } = s.core) (hothers : ∀ v, v ≠ s.core.cur → c.weave v = s.core.weave v)
    (hme : f (me s) (c.weave s.core.cur) = me s) : SameButSem s t n f := by
  have hcur : c.cur = s.core.cur := (congrArg Core.cur hc :)
  have hsectors : c.sectors = s.core.sectors := (congrArg Core.sectors hc :)
  have hsector : ∀ k, c.sector k = s.core.sector k := fun k => by rw [Core.sector, hsectors]; rfl
  subst ht
  refine ⟨⟨rfl, ?rest, hothers, ?me, fun a => (congrArg (fun d : Core => memGet d.mem a) hc :)⟩, fun k hk => ?_, fun m hm => ?_, ?_⟩
  case rest => exact (congrArg (fun d : Core => { d with sectors := s.core.sectors, agenda := s.core.agenda, nextId := s.core.nextId }) hc :)
  case me => exact (congrArg (fun v => f (me s) (c.weave v)) hcur).trans hme
  · exact (modSem_sector_other c n.toNat g hk).trans (hsector k)
  · exact (modSem_sem_other c _ g hm).trans (sem_congr hsectors _ _)
  · rw [← hsector]
    exact modSem_sector c _ _ _
theorem semaphoreUpdates : Claims.SemaphoreUpdates := by
  intro s a n v st
  have hatom : { s.setAtom.core with weaves := s.core.weaves } = s.core := rfl
  have hstatus : ∀ {t : State}, me t = me s.setAtom → st s t := fun h => by
    simp only [st, h, me_setAtom]
  refine ⟨fun hfits => ?sig, fun hover => ?sigOver, fun hfits => ?init, fun hover => ?initOver, ?note⟩
  case sig =>
    rw [execSsig_eq, if_neg (show ¬ semMax < _ from Nat.not_lt.mpr hfits)]
    by_cases hv : v = 0
    · rw [if_pos hv]
      exact ⟨_, rfl, hstatus rfl, by rw [hv]; rfl, fun h => absurd hv h, fun h => absurd hv h, fun _ _ => rfl, rfl⟩
    rw [if_neg hv]
    let d := s.setAtom.core.modSem s.sec n.toNat fun x => { x with count := x.count + v.toNat }
    let e := d.fireArms s.sec n.toNat
    have hsem : ∀ m, e.sem s.sec m = (d.modSem s.sec n.toNat fun x => { x with arms := [] }).sem s.sec m := fireArms_sem d s.sec n.toNat
    have hcur : e.cur = s.core.cur := fireArms_cur d s.sec n.toNat
    have hsemOf : semOf { s with core := e.serviceSem s.sec n.toNat } n =
        { semOf s n with count := (semOf s n).count + v.toNat, arms := [] } := by
      change e.sem (secOf e.cur) n.toNat = _
      rw [hcur]
      exact (hsem n.toNat).trans (by rw [modSem_sem_same, modSem_sem_same]; rfl)
    have hweave : ∀ w, e.weave w = if w ∈ (semOf s n).arms then withEvent n.toNat s.core.now (s.setAtom.core.weave w)
        else s.setAtom.core.weave w := by
      intro w
      have harms : (d.sem s.sec n.toNat).arms = (semOf s n).arms := by rw [modSem_sem_same]; rfl
      have h := fireArms_weave d s.sec n.toNat w
      rw [harms] at h
      exact h
    refine ⟨{ s with core := e.serviceSem s.sec n.toNat }, rfl, ?_, by rw [hsemOf], fun _ => by rw [hsemOf], fun _ w hw => ?_,
      fun m hm => ?_, fireArms_mem d s.sec n.toNat⟩
    · change (e.weave e.cur).status = _
      rw [hcur, hweave]
      have hme := congrArg Weave.status (me_setAtom s)
      split
      · exact hme
      · exact hme
    · change (mget? (e.weave w).events n.toNat).isSome = true
      rw [hweave, if_pos hw]
      exact withEvent_pending ..
    · refine (hsem m).trans ?_
      rw [modSem_sem_other _ _ _ hm, modSem_sem_other _ _ _ hm]
      rfl
  case sigOver => rw [execSsig_eq, if_pos (show semMax < _ from hover)]; rfl
  case init =>
    rw [execSinit_eq, if_neg (show ¬ semMax < _ from Nat.not_lt.mpr hfits)]
    have hsem := modSem_sem_same s.setAtom.core s.sec n.toNat fun x => { x with count := v.toNat, ab := false, ov := false, arms := [] }
    refine ⟨_, rfl, hstatus rfl, (congrArg Sem.count hsem :), (congrArg Sem.ab hsem :), (congrArg Sem.ov hsem :), (congrArg Sem.arms hsem :), ?_⟩
    refine sameButSem_modSem n _ _ rfl hatom (fun w hw => modW_weave_other _ _ hw) ?_
    exact congrArg (fun y : Weave => { y with status := (me s).status }) (me_setAtom s)
  case initOver => rw [execSinit_eq, if_pos (show semMax < _ from hover)]; rfl
  case note =>
    have hsem := modSem_sem_same s.core s.sec n.toNat fun x => { x with arms := insertNat x.arms s.core.cur }
    refine ⟨_, rfl, ?_, (congrArg Sem.count hsem :), ?_⟩
    · exact (congrArg Sem.arms hsem :) ▸ mem_insertNat.mpr (.inl rfl)
    · exact sameButSem_modSem (c := s.core) n (fun x => { x with arms := insertNat x.arms s.core.cur }) s.core.agenda rfl rfl (fun _ _ => rfl) rfl

/-! ## Reads (R118, R123) -/

/-- New entries of the agenda leave what is said of a result that lands. -/
theorem landsS_sched {s t : State} {d : Reg} {L : Nat} {x : Word} (h : LandsS s t d L x) (hd : d ≠ 0) (at_ b n : Nat) (a : Act) :
    LandsS s { t with core := t.core.sched at_ b n a } d L x := by
  obtain ⟨⟨hbase, hrest, hothers, hme, hmem⟩, hreads, -⟩ := h
  exact ⟨⟨hbase, hrest, hothers, hme, hmem⟩, hreads, fun h0 => absurd h0 hd⟩
theorem bnat_mul_pow (b : Bool) (p : Nat) : bnat b * 2 ^ p = if b then 2 ^ p else 0 := by
  cases b with
  | true => exact Nat.one_mul _
  | false => exact Nat.zero_mul _
theorem semaphoreRead : Claims.SemaphoreRead := by
  intro s d n x bit
  have hword : semWord x s.core.cur = BitVec.ofNat 64 (x.count + bit (x.arms.contains s.core.cur) 61 + bit x.ov 62 + bit x.ab 63) := by
    rw [semWord, bnat_mul_pow, bnat_mul_pow, bnat_mul_pow]
    rfl
  let u := s.putS d 1 (semWord x s.core.cur)
  have hlands : LandsS s u d 1 (BitVec.ofNat 64 (x.count + bit (x.arms.contains s.core.cur) 61 + bit x.ov 62 + bit x.ab 63)) := by
    rw [← hword]
    exact putS_lands ..
  have hexec : Machine.exec (.sread d n) s = .next (u.modC fun c => if d = 0 then c else
      c.sched c.now bSample c.cur (.sample c.cur n.toNat (c.nextId - 1))) := rfl
  by_cases hd : d = 0
  · refine ⟨u, ?_, hlands, fun h => absurd hd h⟩
    rw [hexec, State.modC, if_pos hd]
  · obtain ⟨es, he⟩ := deliver_eq s .s d 1 [0] [(0, semWord x s.core.cur)] (.inr hd)
    have hu : u.core.now = s.now ∧ u.core.cur = s.core.cur ∧ u.core.nextId = s.core.nextId + 1 := by
      rw [show u = _ from he]
      exact ⟨rfl, rfl, rfl⟩
    obtain ⟨hnow, hcur, hid⟩ := hu
    refine ⟨_, hexec, ?_, fun _ => ?_⟩
    · rw [State.modC, if_neg hd]
      exact landsS_sched hlands hd _ _ _ _
    · rw [State.modC, if_neg hd, hnow, hcur, hid]
      exact List.mem_append_right _ (List.mem_singleton.mpr rfl)
/-- Settles O22, by its three parts. -/
theorem semaphoreCounts : Obligations.SemaphoreCounts := ⟨semaphoreUpdates, semaphoreRead, semaphoreSignals⟩
end Sys2Proof.Proofs
end
section
/-! SUPPORT. The waits of weaves on semaphores and the order of their service (O21). -/
namespace Sys2Proof.Proofs
open Sys2Proof.Machine Sys2Proof.Claims Sys2Proof.Laws

/-! ## The wait order (R119) -/

theorem mem_insertWaiter {x y : Waiter} {ys : List Waiter} : y ∈ insertWaiter x ys ↔ y = x ∨ y ∈ ys := by
  induction ys with
  | nil => exact List.mem_singleton.trans (by simp)
  | cons z zs ih =>
    rw [insertWaiter]
    split
    · exact List.mem_cons
    · rw [List.mem_cons, ih, List.mem_cons]
      exact or_left_comm
/-- A filter on the waiters of every semaphore of a sector. -/
def keepWaiters (p : Waiter → Bool) (sec : Nat) (c : Core) : Core :=
  c.modSec sec fun x => { x with sems := x.sems.map fun q => (q.1, { q.2 with waiters := q.2.waiters.filter p }) }
theorem keepWaiters_sem (p : Waiter → Bool) (sec : Nat) (c : Core) (n : Nat) :
    (keepWaiters p sec c).sem sec n = { c.sem sec n with waiters := (c.sem sec n).waiters.filter p } := by
  have h := mget?_map_value (fun q : Nat × Sem => { q.2 with waiters := q.2.waiters.filter p }) (c.sector sec).sems n
  rw [Core.sem, keepWaiters, modSec_sector_same]
  refine (congrArg (fun o : Option Sem => o.getD Sem.reset) h).trans ?_
  rw [Core.sem, mget]
  cases mget? (c.sector sec).sems n with
  | none => rfl
  | some x => rfl
theorem dropWaiter_eq (c : Core) (w : Nat) : c.dropWaiter w = keepWaiters (fun y => !isWeave w y) (secOf w) c := by
  have hsame : (fun z : Waiter => match z with | .weave v _ _ => v != w | _ => true) = fun y => !isWeave w y :=
    funext fun y => by cases y <;> rfl
  exact congrArg (fun p => keepWaiters p (secOf w) c) hsame
theorem dropWaiter_sem (c : Core) (w n : Nat) : (c.dropWaiter w).sem (secOf w) n =
    { c.sem (secOf w) n with waiters := (c.sem (secOf w) n).waiters.filter fun y => !isWeave w y } := by
  rw [dropWaiter_eq, keepWaiters_sem]
/-- The amount that a weave waits for, replaced. -/
def reamount (w amount : Nat) : Waiter → Waiter
  | .weave v b since => if v = w then .weave v amount since else .weave v b since
  | y => y
theorem reamount_mine (w amount b since : Nat) : reamount w amount (.weave w b since) = .weave w amount since := if_pos rfl
theorem amountIn_reamount {w amount : Nat} {y : Waiter} (h : isWeave w (reamount w amount y) = true) :
    amountIn (reamount w amount y) = amount := by
  cases y with
  | weave v b since =>
    by_cases hv : v = w
    · rw [reamount, if_pos hv]
      rfl
    · rw [reamount, if_neg hv] at h
      exact absurd (beq_iff_eq.mp h) hv
  | job => exact absurd h Bool.false_ne_true
  | txs => exact absurd h Bool.false_ne_true
theorem await_zero (c : Core) (w n : Nat) : c.await w n 0 = c.dropWaiter w := if_pos rfl
theorem await_pos (c : Core) (w n : Nat) {amount : Nat} (h : amount ≠ 0) : c.await w n amount =
    (if c.weaveWaits (secOf w) n w = true then
        c.modSem (secOf w) n fun y => { y with waiters := y.waiters.map (reamount w amount) }
      else c.addWaiter (secOf w) n (.weave w amount c.now)).serviceSem (secOf w) n := by
  have hsame : (fun z : Waiter => match z with | .weave v _ t => if v = w then .weave v amount t else z | _ => z) = reamount w amount :=
    funext fun y => by cases y <;> rfl
  rw [Core.await, if_neg h]
  exact congrArg (fun f : Waiter → Waiter => (if c.weaveWaits (secOf w) n w = true then
        c.modSem (secOf w) n fun y => { y with waiters := y.waiters.map f }
      else c.addWaiter (secOf w) n (.weave w amount c.now)).serviceSem (secOf w) n) hsame
theorem await_keeps {c : Core} {w n amount : Nat} (h : amount ≠ 0) (hw : c.weaveWaits (secOf w) n w = true) :
    (c.await w n amount).sem (secOf w) n =
      { c.sem (secOf w) n with waiters := (c.sem (secOf w) n).waiters.map (reamount w amount) } := by
  rw [await_pos c w n h, if_pos hw]
  exact modSem_sem_same c (secOf w) n fun y => { y with waiters := y.waiters.map (reamount w amount) }
theorem await_joins {c : Core} {w n amount : Nat} (h : amount ≠ 0) (hw : c.weaveWaits (secOf w) n w = false) :
    (c.await w n amount).sem (secOf w) n =
      { c.sem (secOf w) n with waiters := insertWaiter (.weave w amount c.now) (c.sem (secOf w) n).waiters } := by
  rw [await_pos c w n h, if_neg (ne_true_of_eq_false hw)]
  exact modSem_sem_same c (secOf w) n fun y => { y with waiters := insertWaiter (.weave w amount c.now) y.waiters }
theorem await_tested (c : Core) (w n : Nat) {amount : Nat} (h : amount ≠ 0) :
    ⟨.cycle c.now, bService, secOf w * 256 + n, .swaitServed (secOf w) n⟩ ∈ (c.await w n amount).agenda := by
  rw [Core.await, if_neg h]
  split
  · exact List.mem_append_right _ (List.mem_singleton.mpr rfl)
  · exact List.mem_append_right _ (List.mem_singleton.mpr rfl)

/-! ## The consumption record (R326) -/

theorem consume_eq (x : Weave) (n amount : Nat) : ∃ m b st,
    x.consume n amount = { x with consumed := m, consumedOver := b, status := st } ∧ ((mget? m n).isSome = true ∨ b = true) := by
  unfold Weave.consume
  split
  · exact ⟨_, _, _, rfl, .inl (by rw [mget?_mset_same]; rfl)⟩
  · split
    · exact ⟨_, _, _, rfl, .inl (by rw [mget?_mset_same]; rfl)⟩
    · exact ⟨_, _, _, rfl, .inr rfl⟩
theorem refreshView_eq (c : Core) (w : Nat) : ∃ vs, c.refreshView w = c.modW w fun x => { x with views := vs } := ⟨_, rfl⟩

/-! ## The waits (R119, R120) -/

theorem execSwait_served {s : State} {a : Reg} {n : BitVec 8} {r : Served} (h : s.wv.served = some r) :
    Machine.exec (.swait a n) s = .next ((s.modW fun y => { y with served := none }).modIss fun i =>
      { i with outside := !r.overflow && s.wv.consumedOver }) := by
  change execSwait a n s = _
  rw [execSwait, h]
theorem execSwait_eq {s : State} {a : Reg} {n : BitVec 8} (h : s.wv.served = none) : Machine.exec (.swait a n) s = .next (
    if semMax < (s.sreg a).toNat then s.semOvf n (s.sreg a)
    else if !s.core.iss.late then s.hold 3 fun c => c.await s.core.cur n.toNat (s.sreg a).toNat
    else if (s.rd.sem s.sec n.toNat).ab then s.engJob 0 3 n.toNat
    else if (s.rd.sem s.sec n.toNat).ov then s.semOvf n (s.sreg a)
    else if s.sreg a = 0 then
      (s.both fun c => (c.refreshView s.core.cur).modW s.core.cur fun y => y.consume n.toNat 0).modIss fun i =>
        { i with outside := (s.wv.consume n.toNat 0).consumedOver && !s.wv.consumedOver }
    else s.hold 3 id) := by
  change execSwait a n s = _
  rw [execSwait, h]
theorem hold_of_fpx {s : State} (hfpx : s.core.iss.fpx = 0) (cond : Nat) (f : Core → Core) :
    s.hold cond f = { core := f { s.rd with iss := { s.core.iss with held := some cond } }, base := none } := by
  rw [State.hold, hfpx]
  rfl
theorem hold_underWay {s : State} (hbase : s.base = some s.core) (hfpx : s.core.iss.fpx = 0) (cond : Nat) (f : Core → Core) :
    s.hold cond f = { core := f { s.core with iss := { s.core.iss with held := some cond } }, base := none } := by
  rw [hold_of_fpx hfpx, State.rd, hbase]
  rfl
theorem await_iss (c : Core) (w n amount : Nat) : (c.await w n amount).iss = c.iss := by
  unfold Core.await
  split
  · rfl
  · split
    · rfl
    · rfl
theorem await_cur (c : Core) (w n amount : Nat) : (c.await w n amount).cur = c.cur := by
  unfold Core.await
  split
  · rfl
  · split
    · rfl
    · rfl
theorem await_count (c : Core) (w n amount : Nat) : ((c.await w n amount).sem (secOf w) n).count = (c.sem (secOf w) n).count := by
  by_cases h : amount = 0
  · subst h
    rw [await_zero, dropWaiter_sem]
  · cases hw : c.weaveWaits (secOf w) n w with
    | true => rw [await_keeps h hw]
    | false => rw [await_joins h hw]
theorem semaphoreWaits : Claims.SemaphoreWaits := by
  intro s a n amt x mine held tested
  have hmine : mine = isWeave s.core.cur := funext fun y => by cases y <;> rfl
  refine ⟨fun hserved => ?served, fun hnone hfits hlate hbase hfpx => ?waits, fun hnone hzero hlate hab hov => ?zero,
    fun hnone hpos hfits hlate hab hov hbase hfpx => ?held, fun hnone hover => ?tooMuch, fun hnone hfits hlate hab => ?aborted,
    fun hnone hfits hlate hab hov => ?overflown⟩
  case served =>
    obtain ⟨r, hr⟩ := Option.isSome_iff_exists.mp hserved
    have hme := modW_weave_same s.core s.core.cur fun y => { y with served := none }
    refine ⟨_, execSwait_served hr, (congrArg Weave.served hme :), rfl, rfl, rfl, fun v hv => ?_, ?_, fun _ => rfl⟩
    · exact modW_weave_other s.core (fun y => { y with served := none }) hv
    · exact (congrArg (fun y : Weave => { y with served := (me s).served }) hme :)
  case waits =>
    let c : Core := { s.core with iss := { s.core.iss with held := some 3 } }
    let t : State := { core := c.await s.core.cur n.toNat amt.toNat, base := none }
    have hcur : t.core.cur = s.core.cur := await_cur ..
    have hsem : Claims.semOf t n = (c.await s.core.cur n.toNat amt.toNat).sem s.sec n.toNat := by rw [Claims.semOf, hcur]; rfl
    refine ⟨t, ?_, ⟨rfl, congrArg Iss.held (await_iss ..), hsem ▸ await_count c s.core.cur n.toNat amt.toNat⟩, fun hpos => ?_, fun hzero => ?_⟩
    · rw [execSwait_eq hnone, if_neg (show ¬ semMax < _ from Nat.not_lt.mpr hfits), hlate]
      exact congrArg Host.Outcome.next ((if_pos rfl).trans (hold_underWay hbase hfpx 3 _))
    · have hamt : amt.toNat ≠ 0 := fun h0 => hpos (BitVec.eq_of_toNat_eq h0)
      refine ⟨await_tested c s.core.cur n.toNat hamt, fun hnew => ?_, fun hkeeps => ?_⟩
      · rw [hsem]
        exact (congrArg Sem.waiters (await_joins (c := c) hamt hnew)).symm ▸ mem_insertWaiter.mpr (.inl rfl)
      · rw [hsem]
        refine (congrArg Sem.waiters (await_keeps (c := c) hamt hkeeps)).symm ▸ ⟨fun b since hb => ?_, fun y hy hmy => ?_⟩
        · exact List.mem_map.mpr ⟨_, hb, reamount_mine ..⟩
        · obtain ⟨z, -, rfl⟩ := List.mem_map.mp hy
          exact amountIn_reamount (hmine ▸ hmy)
    · rw [hsem, hzero, hmine]
      change ((c.await s.core.cur n.toNat 0).sem (secOf s.core.cur) n.toNat).waiters.any _ = false
      rw [await_zero, dropWaiter_sem, List.any_filter]
      exact List.any_eq_false.mpr fun y _ => by cases isWeave s.core.cur y <;> decide
  case zero =>
    obtain ⟨vs, hvs⟩ := refreshView_eq s.core s.core.cur
    obtain ⟨m, b, st, hconsume, hin⟩ := consume_eq { me s with views := vs } n.toNat 0
    have hme : ((s.core.refreshView s.core.cur).modW s.core.cur fun y => y.consume n.toNat 0).weave s.core.cur =
        { me s with views := vs, consumed := m, consumedOver := b, status := st } := by
      rw [modW_weave_same, hvs, modW_weave_same]
      exact hconsume
    refine ⟨(s.both fun c => (c.refreshView s.core.cur).modW s.core.cur fun y => y.consume n.toNat 0).modIss fun i =>
      { i with outside := (s.wv.consume n.toNat 0).consumedOver && !s.wv.consumedOver }, ?_, rfl, rfl, fun T r => ?_, rfl, ?_, fun v hv => ?_, ?_⟩
    · rw [execSwait_eq hnone, show s.sreg a = 0 from hzero, hlate, show (s.rd.sem s.sec n.toNat).ab = false from hab,
        show (s.rd.sem s.sec n.toNat).ov = false from hov]
      rfl
    · exact (congrArg (fun y : Weave => y.sval T r) hme :)
    · exact hin.imp (fun h => (congrArg (fun y : Weave => (mget? y.consumed n.toNat).isSome) hme :).trans h)
        fun h => (congrArg Weave.consumedOver hme :).trans h
    · refine (modW_weave_other (s.core.refreshView s.core.cur) (fun y => y.consume n.toNat 0) hv).trans ?_
      rw [hvs]
      exact modW_weave_other _ _ hv
    · exact (congrArg (fun y : Weave => { y with views := (me s).views, consumed := (me s).consumed, consumedOver := (me s).consumedOver, status := (me s).status }) hme :)
  case held =>
    refine ⟨{ core := { s.core with iss := { s.core.iss with held := some 3 } }, base := none }, ?_, ⟨rfl, rfl, rfl⟩, rfl⟩
    rw [execSwait_eq hnone, if_neg (show ¬ semMax < _ from Nat.not_lt.mpr hfits), hlate, show (s.rd.sem s.sec n.toNat).ab = false from hab,
      show (s.rd.sem s.sec n.toNat).ov = _ from hov]
    exact congrArg Host.Outcome.next ((if_neg hpos).trans (hold_underWay hbase hfpx 3 id))
  case tooMuch => rw [execSwait_eq hnone, if_pos (show semMax < _ from hover)]; rfl
  case aborted =>
    rw [execSwait_eq hnone, if_neg (show ¬ semMax < _ from Nat.not_lt.mpr hfits), hlate, show (s.rd.sem s.sec n.toNat).ab = true from hab]
    rfl
  case overflown =>
    rw [execSwait_eq hnone, if_neg (show ¬ semMax < _ from Nat.not_lt.mpr hfits), hlate, show (s.rd.sem s.sec n.toNat).ab = false from hab,
      show (s.rd.sem s.sec n.toNat).ov = _ from hov]
    rfl

/-! ## The service of one waiter (R119, R231, R290) -/

def serveOne (sec n : Nat) (c : Core) : Waiter → Core
  | .weave w amount _ => c.serveWeave sec n w amount
  | .job eng _ => c.serveJob sec n eng
  | .txs _ unit _ => c.serveTxs sec n unit
theorem serveWaiters_cons (c : Core) (sec n : Nat) (x : Waiter) (rest : List Waiter) : c.serveWaiters sec n (x :: rest) =
    if amountIn x ≤ (c.sem sec n).count then
      (serveOne sec n (c.modSem sec n fun y => { y with waiters := rest }) x).serveWaiters sec n rest
    else c := by
  cases x <;> rfl
theorem sched_sem (c : Core) (t b k : Nat) (a : Act) (sec n : Nat) : (c.sched t b k a).sem sec n = c.sem sec n := rfl
theorem serveWeave_weave_same (c : Core) (sec n w amount : Nat) :
    ((c.serveWeave sec n w amount).weave w).served.map (fun y => (y.sem, y.amount)) = some (n, amount) := by
  let d := (c.modSem sec n fun x => { x with count := x.count - amount }).modW w fun x => { x with
    served := some ⟨n, amount, (c.weave w).views, (c.weave w).viewBase, (c.weave w).consumed, (c.weave w).consumedOver, (c.weave w).atom⟩ }
  obtain ⟨vs, hvs⟩ := refreshView_eq d w
  obtain ⟨m, b, st, hconsume, -⟩ := consume_eq ((d.refreshView w).weave w) n amount
  have hserved : ((c.serveWeave sec n w amount).weave w).served = ((d.refreshView w).weave w).served := by
    change (((d.refreshView w).modW w fun x => x.consume n amount).weave w).served = _
    rw [modW_weave_same, hconsume]
  rw [hserved, hvs, modW_weave_same, modW_weave_same]
  rfl
theorem serveWeave_weave_other (c : Core) (sec n amount : Nat) {w v : Nat} (h : v ≠ w) :
    (c.serveWeave sec n w amount).weave v = c.weave v := by
  let d := (c.modSem sec n fun x => { x with count := x.count - amount }).modW w fun x => { x with
    served := some ⟨n, amount, (c.weave w).views, (c.weave w).viewBase, (c.weave w).consumed, (c.weave w).consumedOver, (c.weave w).atom⟩ }
  obtain ⟨vs, hvs⟩ := refreshView_eq d w
  refine (modW_weave_other (d.refreshView w) (fun x => x.consume n amount) h).trans ?_
  rw [hvs, modW_weave_other _ _ h]
  exact modW_weave_other _ _ h
theorem serveWeave_tested (c : Core) (sec n w amount : Nat) :
    ⟨.cycle c.now, bLate, w, .lateIssue w⟩ ∈ (c.serveWeave sec n w amount).agenda :=
  List.mem_append_right _ (List.mem_singleton.mpr rfl)
/-- The unit's view refreshed for the job that runs its `twait`, if there is one. -/
theorem refreshFor_eq (c : Core) (o : Option Job) :
    { (match o with | some j => c.refreshView j.weave | none => c) with weaves := c.weaves } = c ∧
    ∀ v, ((match o with | some j => c.refreshView j.weave | none => c).weave v).served = (c.weave v).served := by
  cases o with
  | none => exact ⟨rfl, fun _ => rfl⟩
  | some j =>
    obtain ⟨vs, hvs⟩ := refreshView_eq c j.weave
    refine ⟨rfl, fun v => ?_⟩
    change ((c.refreshView j.weave).weave v).served = _
    rw [hvs]
    by_cases hv : v = j.weave
    · rw [hv, modW_weave_same]
    · rw [modW_weave_other _ _ hv]
/-- What the service of a waiter leaves: all but the amount of its semaphore, and but what the waiter itself is given. -/
theorem serveOne_sem (sec n : Nat) (c : Core) (x : Waiter) :
    (serveOne sec n c x).sem sec n = { c.sem sec n with count := (c.sem sec n).count - amountIn x } := by
  cases x with
  | weave w amount since => exact modSem_sem_same c sec n fun x => { x with count := x.count - amount }
  | job eng since =>
    let d := c.modSem sec n fun x => { x with count := x.count - 1 }
    have hd : d.sem sec n = { c.sem sec n with count := (c.sem sec n).count - 1 } := modSem_sem_same ..
    cases eng with
    | pool s k i =>
      change ((d.modSec s _).sched _ _ _ _).sem sec n = _
      rw [sched_sem]
      refine (modSec_sem ?_ d s sec n).trans hd
      exact fun _ => rfl
    | copy w st => exact hd
  | txs s unit since =>
    let d := c.modSem sec n fun x => { x with count := x.count - 1 }
    have hd : d.sem sec n = { c.sem sec n with count := (c.sem sec n).count - 1 } := modSem_sem_same ..
    change ((Core.modSec _ sec _).sched _ _ _ _).sem sec n = _
    rw [sched_sem]
    refine (modSec_sem ?_ _ sec sec n).trans ?_
    · exact fun _ => rfl
    exact (sem_congr (congrArg Core.sectors (refreshFor_eq d _).1 :) sec n).trans hd
theorem serveOne_now (sec n : Nat) (c : Core) (x : Waiter) : (serveOne sec n c x).now = c.now := by
  cases x with
  | weave w amount since => rfl
  | job eng since =>
    cases eng with
    | pool s k i => rfl
    | copy w st => rfl
  | txs s unit since => exact (congrArg Core.now (refreshFor_eq (c.modSem sec n fun x => { x with count := x.count - 1 }) _).1 :)
/-- The service of another waiter. -/
theorem serveOne_other (sec n : Nat) (c : Core) {w : Nat} {x : Waiter} (hx : isWeave w x = false) :
    ((serveOne sec n c x).weave w).served = (c.weave w).served ∧
    ∀ t, ⟨t, bLate, w, .lateIssue w⟩ ∈ c.agenda → ⟨t, bLate, w, .lateIssue w⟩ ∈ (serveOne sec n c x).agenda := by
  cases x with
  | weave v amount since =>
    have hv : v ≠ w := ne_of_beq_false hx
    refine ⟨congrArg Weave.served (serveWeave_weave_other c sec n amount hv.symm), fun t ht => List.mem_append_left _ ?_⟩
    refine List.mem_filter.mpr ⟨ht, ?_⟩
    simp [Ne.symm hv]
  | job eng since =>
    cases eng with
    | pool s k i => exact ⟨rfl, fun t ht => List.mem_append_left _ ht⟩
    | copy v st => exact ⟨rfl, fun t ht => List.mem_append_left _ ht⟩
  | txs s unit since =>
    let d := c.modSem sec n fun x => { x with count := x.count - 1 }
    refine ⟨(refreshFor_eq d _).2 w, fun t ht => List.mem_append_left _ ?_⟩
    exact (congrArg (_ ∈ ·) (congrArg Core.agenda (refreshFor_eq d _).1 :)).mpr ht

/-! ## The service of a semaphore (R119, R120) -/

theorem serveWaiters_sem (sec n : Nat) (xs : List Waiter) : ∀ c : Core, (c.sem sec n).waiters = xs →
    ((c.serveWaiters sec n xs).sem sec n).count = (servedBy (c.sem sec n).count xs).2 ∧
    ((c.serveWaiters sec n xs).sem sec n).waiters = xs.drop (servedBy (c.sem sec n).count xs).1 := by
  induction xs with
  | nil => exact fun c h => ⟨rfl, h⟩
  | cons x xs ih =>
    intro c h
    rw [serveWaiters_cons, servedBy]
    by_cases hcovers : amountIn x ≤ (c.sem sec n).count
    · rw [if_pos hcovers, if_pos hcovers]
      have hsem := serveOne_sem sec n (c.modSem sec n fun y => { y with waiters := xs }) x
      rw [modSem_sem_same] at hsem
      have hrest := ih _ (congrArg Sem.waiters hsem)
      rw [congrArg Sem.count hsem] at hrest
      exact hrest
    · rw [if_neg hcovers, if_neg hcovers]
      exact ⟨rfl, h⟩
/-- The services of waiters none of which is a weave w. -/
theorem serveWaiters_other (sec n : Nat) {w : Nat} (xs : List Waiter) : ∀ c : Core, (∀ x ∈ xs, isWeave w x = false) →
    ((c.serveWaiters sec n xs).weave w).served = (c.weave w).served ∧
    ∀ t, ⟨t, bLate, w, .lateIssue w⟩ ∈ c.agenda → ⟨t, bLate, w, .lateIssue w⟩ ∈ (c.serveWaiters sec n xs).agenda := by
  induction xs with
  | nil => exact fun c _ => ⟨rfl, fun _ h => h⟩
  | cons x xs ih =>
    intro c h
    obtain ⟨hx, hxs⟩ := List.forall_mem_cons.mp h
    rw [serveWaiters_cons]
    split
    · let d := c.modSem sec n fun y => { y with waiters := xs }
      obtain ⟨hserved, hagenda⟩ := serveOne_other sec n d hx
      obtain ⟨hserved', hagenda'⟩ := ih (serveOne sec n d x) hxs
      exact ⟨hserved'.trans hserved, fun t ht => hagenda' t (hagenda t ht)⟩
    · exact ⟨rfl, fun _ ht => ht⟩
/-- A weave that waits once and whose amount is covered in its turn is served, and its bundle is tested again. -/
theorem serveWaiters_served (sec n : Nat) {w amount since : Nat} (xs : List Waiter) : ∀ c : Core,
    .weave w amount since ∈ xs.take (servedBy (c.sem sec n).count xs).1 → (xs.filter (isWeave w)).length = 1 →
    ((c.serveWaiters sec n xs).weave w).served.map (fun y => (y.sem, y.amount)) = some (n, amount) ∧
    ⟨.cycle c.now, bLate, w, .lateIssue w⟩ ∈ (c.serveWaiters sec n xs).agenda := by
  induction xs with
  | nil => exact fun c h => absurd h List.not_mem_nil
  | cons x xs ih =>
    intro c h hone
    rw [servedBy] at h
    rw [serveWaiters_cons]
    by_cases hcovers : amountIn x ≤ (c.sem sec n).count
    · rw [if_pos hcovers] at h
      rw [if_pos hcovers]
      let d := c.modSem sec n fun y => { y with waiters := xs }
      by_cases hx : isWeave w x = true
      · have hrest : ∀ y ∈ xs, isWeave w y = false := by
          rw [List.filter_cons_of_pos hx, List.length_cons, Nat.succ.injEq, List.length_eq_zero_iff, List.filter_eq_nil_iff] at hone
          exact fun y hy => eq_false_of_ne_true (hone y hy)
        have heq : x = .weave w amount since := by
          refine ((List.mem_cons.mp h).resolve_right fun hmem => ?_).symm
          exact absurd (hrest _ (List.mem_of_mem_take hmem)) (by simp [isWeave])
        subst heq
        obtain ⟨hserved, hagenda⟩ := serveWaiters_other sec n xs (serveOne sec n d (.weave w amount since)) hrest
        exact ⟨hserved ▸ serveWeave_weave_same d sec n w amount, hagenda _ (serveWeave_tested d sec n w amount)⟩
      · rw [List.filter_cons_of_neg hx] at hone
        have hsem := serveOne_sem sec n d x
        rw [modSem_sem_same] at hsem
        have hmem := (List.mem_cons.mp h).resolve_left fun heq => hx (heq ▸ beq_self_eq_true w)
        have hrest := ih (serveOne sec n d x) (by rw [congrArg Sem.count hsem]; exact hmem) hone
        rw [serveOne_now] at hrest
        exact hrest
    · rw [if_neg hcovers] at h
      exact absurd h List.not_mem_nil

/-! ## A semaphore with AB or OV (R120) -/

/-- The weave that waits, where the waiter is one. -/
def weaveOf : Waiter → Option Nat
  | .weave w _ _ => some w
  | _ => none
def unitOfTxs : Waiter → Option Nat
  | .txs _ u _ => some u
  | _ => none
def noWeave : Waiter → Bool
  | .weave _ _ _ => false
  | _ => true
def noTxs : Waiter → Bool
  | .txs _ _ _ => false
  | _ => true
/-- The bundle of a weave is tested again in this cycle. -/
def retest (c : Core) (w : Nat) : Core := (c.unsched fun a => a == .issue w || a == .lateIssue w).sched c.now bLate w (.lateIssue w)
/-- Waiting `twait`s are tested again where AB is set (R290). -/
def retestUnits (sec n : Nat) (x : Sem) (c : Core) : Core :=
  if x.ab then (x.waiters.filterMap unitOfTxs).foldl (fun c u => c.sched c.now bLate (36 + u) (.txs sec u))
    (c.modSem sec n fun y => { y with waiters := y.waiters.filter noTxs })
  else c
theorem execSwaitServed_eq (s : State) (sec n : Nat) : Machine.exec (.swaitServed sec n) s = .next (s.modC fun c =>
    let x := c.sem sec n
    let c := if x.ab || x.ov then c.modSem sec n fun y => { y with waiters := y.waiters.filter noWeave } else c
    let c := if x.ab || x.ov then (x.waiters.filterMap weaveOf).foldl retest c else c
    let c := retestUnits sec n x c
    c.serveWaiters sec n (c.sem sec n).waiters) := rfl
theorem retest_sem (ws : List Nat) (sec n : Nat) : ∀ c : Core, (ws.foldl retest c).sem sec n = c.sem sec n ∧ (ws.foldl retest c).now = c.now := by
  induction ws with
  | nil => exact fun _ => ⟨rfl, rfl⟩
  | cons w ws ih => exact fun c => ih (retest c w)
theorem retest_tested {w : Nat} (ws : List Nat) : ∀ c : Core, w ∈ ws ∨ ⟨.cycle c.now, bLate, w, .lateIssue w⟩ ∈ c.agenda →
    ⟨.cycle c.now, bLate, w, .lateIssue w⟩ ∈ (ws.foldl retest c).agenda := by
  induction ws with
  | nil => exact fun c h => h.resolve_left List.not_mem_nil
  | cons v ws ih =>
    intro c h
    refine ih (retest c v) (or_iff_not_imp_left.mpr fun hws => ?_)
    by_cases hv : w = v
    · subst hv
      exact List.mem_append_right _ (List.mem_singleton.mpr rfl)
    · have hc := h.resolve_left fun hmem => (List.mem_cons.mp hmem).elim hv hws
      exact List.mem_append_left _ (List.mem_filter.mpr ⟨hc, by simp [hv]⟩)
theorem retestUnits_eq (sec n : Nat) (x : Sem) (c : Core) :
    (∀ y ∈ ((retestUnits sec n x c).sem sec n).waiters, y ∈ (c.sem sec n).waiters) ∧ ∀ e ∈ c.agenda, e ∈ (retestUnits sec n x c).agenda := by
  have hfold : ∀ (us : List Nat) (c : Core), (us.foldl (fun c u => c.sched c.now bLate (36 + u) (.txs sec u)) c).sem sec n = c.sem sec n ∧
      ∀ e ∈ c.agenda, e ∈ (us.foldl (fun c u => c.sched c.now bLate (36 + u) (.txs sec u)) c).agenda := by
    intro us
    induction us with
    | nil => exact fun c => ⟨rfl, fun _ h => h⟩
    | cons u us ih => exact fun c => ⟨(ih _).1, fun e he => (ih _).2 e (List.mem_append_left _ he)⟩
  unfold retestUnits
  split
  · obtain ⟨hsem, hagenda⟩ := hfold (x.waiters.filterMap unitOfTxs) (c.modSem sec n fun y => { y with waiters := y.waiters.filter noTxs })
    refine ⟨fun y hy => ?_, hagenda⟩
    rw [hsem, modSem_sem_same] at hy
    exact List.mem_of_mem_filter hy
  · exact ⟨fun _ h => h, fun _ h => h⟩
theorem semaphoreService : Claims.SemaphoreService := by
  intro s sec n x
  refine ⟨_, execSwaitServed_eq s sec n, rfl, fun hab hov => ?_, fun hstop w hw => ?_⟩
  · have hc : ∀ c : Core, retestUnits sec n (s.core.sem sec n) c = c := fun c => if_neg (ne_true_of_eq_false hab)
    have hstop : ¬ ((s.core.sem sec n).ab || (s.core.sem sec n).ov) = true := by
      rw [show (s.core.sem sec n).ab = false from hab, show (s.core.sem sec n).ov = false from hov]
      decide
    simp only [State.modC, hc, if_neg hstop]
    obtain ⟨hcount, hwaiters⟩ := serveWaiters_sem sec n x.waiters s.core rfl
    exact ⟨hcount, hwaiters, fun w amount since => serveWaiters_served sec n x.waiters s.core⟩
  · have hstop : ((s.core.sem sec n).ab || (s.core.sem sec n).ov) = true := Bool.or_eq_true_iff.mpr hstop
    simp only [State.modC, if_pos hstop]
    let c := s.core.modSem sec n fun y => { y with waiters := y.waiters.filter noWeave }
    let d := ((s.core.sem sec n).waiters.filterMap weaveOf).foldl retest c
    obtain ⟨hkeeps, hagenda⟩ := retestUnits_eq sec n (s.core.sem sec n) d
    have hnone : ∀ y ∈ ((retestUnits sec n (s.core.sem sec n) d).sem sec n).waiters, isWeave w y = false := by
      intro y hy
      have hy := hkeeps y hy
      rw [(retest_sem _ sec n c).1, modSem_sem_same] at hy
      cases y with
      | weave => exact absurd (List.mem_filter.mp hy).2 Bool.false_ne_true
      | job => rfl
      | txs => rfl
    have hwaits : w ∈ (s.core.sem sec n).waiters.filterMap weaveOf := by
      obtain ⟨y, hy, hmine⟩ := List.any_eq_true.mp hw
      refine List.mem_filterMap.mpr ⟨y, hy, ?_⟩
      cases y with
      | weave v => exact congrArg some (beq_iff_eq.mp hmine)
      | job => exact absurd hmine Bool.false_ne_true
      | txs => exact absurd hmine Bool.false_ne_true
    refine ⟨List.any_eq_false.mpr fun y hy => ?_, ?_⟩
    · rw [(serveWaiters_sem sec n _ _ rfl).2] at hy
      exact ne_true_of_eq_false (hnone y (List.mem_of_mem_drop hy))
    · exact (serveWaiters_other sec n _ _ hnone).2 _ (hagenda _ (retest_tested _ c (.inl hwaits)))
/-- Settles O21, by the waits and the service. -/
theorem semaphoreWaitsAndService : Obligations.SemaphoreWaitsAndService := ⟨semaphoreWaits, semaphoreService⟩
end Sys2Proof.Proofs
end
section
/-! SUPPORT. What arrivals, drops and initialisations leave of a barrier (O20). -/
namespace Sys2Proof.Proofs
open Sys2Proof.Machine Sys2Proof.Claims Sys2Proof.Laws

/-! ## Instances of a launch (R129) -/

theorem bar_setInst (l : Launch) (bar scope w : Nat) (x : BarInst) :
    (l.setInst bar scope w x).bar bar = { l.bar bar with insts := mset (l.bar bar).insts (barKey scope (unitOf scope w)) x } :=
  mget_mset_same ..
theorem inst_setInst {l : Launch} {bar scope : Nat} (h : (l.bar bar).scope = scope) (w : Nat) (x : BarInst) :
    (l.setInst bar scope w x).inst bar w = x := by
  subst h
  rw [Launch.inst, bar_setInst]
  exact mget_mset_same ..
theorem scope_setInst (l : Launch) (bar scope w : Nat) (x : BarInst) : ((l.setInst bar scope w x).bar bar).scope = (l.bar bar).scope := by
  rw [bar_setInst]
/-- An update of a launch changes the launches alone. -/
theorem modL_eq (c : Core) (n : Nat) (f : Launch → Launch) : ∃ ls, c.modL n f = { c with launches := ls } := by
  unfold Core.modL
  split
  · exact ⟨_, rfl⟩
  · exact ⟨_, rfl⟩

/-! ## Counting in a round of a barrier (R131) -/

/-- A round is changed, and is complete where `full` says so. -/
def counted (c : Core) (n bar scope w : Nat) (y : BarInst) (full : Prop) [Decidable full] : Core :=
  if full then (c.modL n fun l => l.setInst bar scope w y).completeInst n bar scope w y else c.modL n fun l => l.setInst bar scope w y
/-- A complete round as it starts anew. -/
def anew (y : BarInst) : BarInst := { y with a := 0, arrived := [], viaBarr := [], gen := !y.gen }
theorem completeInst_eq (c : Core) (n bar scope w : Nat) (y : BarInst) : c.completeInst n bar scope w y =
    let d := c.modL n fun l => { l.setInst bar scope w (anew y) with bounds := l.bounds ++ [⟨some bar, scope, unitOf scope w, y.viaBarr⟩] }
    d.sched (d.now + if (d.launch? n).any (·.redun) then max 2 (Config.boundaryCycles scope) else Config.boundaryCycles scope) bPublish n
      (.barrierCompletion n bar scope (unitOf scope w)) := rfl
theorem counted_eq (c : Core) (n bar scope w : Nat) (y : BarInst) (full : Prop) [Decidable full] :
    ∃ ls es, counted c n bar scope w y full = { c with launches := ls, agenda := es } := by
  obtain ⟨ls, hls⟩ := modL_eq c n fun l => l.setInst bar scope w y
  unfold counted
  split
  · obtain ⟨ls', hls'⟩ := modL_eq (c.modL n fun l => l.setInst bar scope w y) n fun l =>
      { l.setInst bar scope w (anew y) with bounds := l.bounds ++ [⟨some bar, scope, unitOf scope w, y.viaBarr⟩] }
    rw [completeInst_eq, hls', hls]
    exact ⟨_, _, rfl⟩
  · exact ⟨_, _, hls⟩
/-- The round and its completion, where a round is changed. -/
theorem counted_inst {c : Core} {n : Nat} {l : Launch} (hl : c.launch? n = some l) {bar scope : Nat} (hscope : (l.bar bar).scope = scope)
    (w : Nat) (y : BarInst) (full : Prop) [Decidable full] :
    (¬ full → ((counted c n bar scope w y full).launch? n).map (fun l => l.inst bar w) = some y) ∧
    (full → ((counted c n bar scope w y full).launch? n).map (fun l => l.inst bar w) = some (anew y) ∧
      ⟨.cycle (c.now + if l.redun then max 2 (Config.boundaryCycles scope) else Config.boundaryCycles scope), bPublish, n,
        .barrierCompletion n bar scope (unitOf scope w)⟩ ∈ (counted c n bar scope w y full).agenda) := by
  have hset := launch?_modL_same hl fun l => l.setInst bar scope w y
  unfold counted
  refine ⟨fun hnot => ?_, fun hfull => ?_⟩
  · rw [if_neg hnot, hset]
    exact congrArg some (inst_setInst hscope w y)
  · rw [if_pos hfull, completeInst_eq]
    have hanew := launch?_modL_same hset fun l =>
      { l.setInst bar scope w (anew y) with bounds := l.bounds ++ [⟨some bar, scope, unitOf scope w, y.viaBarr⟩] }
    refine ⟨(congrArg (Option.map fun l => l.inst bar w) hanew).trans ?_, ?_⟩
    · exact congrArg some (inst_setInst (l := l.setInst bar scope w y) ((scope_setInst l bar scope w y).trans hscope) w (anew y))
    · refine List.mem_append_right _ (List.mem_singleton.mpr ?_)
      rw [modL_now, modL_now, hanew]
      rfl

/-! ## Arrivals, drops, initialisations -/

theorem myLaunch_eq {s : State} {n : Nat} {l : Launch} (hw : s.wv.launch = some n) (hl : s.rd.launchOf s.core.cur = some l) :
    s.myLaunch = some (n, l) := by
  rw [State.myLaunch, hw, hl]
theorem arrival_good {s : State} {n : Nat} {l : Launch} (h : s.myLaunch = some (n, l)) {bar : BitVec 6} (via : Bool) (f : Nat → State → State)
    (hgood : ¬ ((l.inst bar.toNat s.core.cur).e = 0 ∨ (l.inst bar.toNat s.core.cur).dropped.contains s.core.cur = true ∨
      (l.inst bar.toNat s.core.cur).arrived.contains s.core.cur = true)) :
    s.arrival bar via f =
      let x := l.inst bar.toNat s.core.cur
      let y : BarInst := { x with
        a := x.a + 1, arrived := insertNat x.arrived s.core.cur, viaBarr := if via then insertNat x.viaBarr s.core.cur else x.viaBarr }
      f (if via then (l.bar bar.toNat).scope else x.a + 1)
        (s.modC fun c => counted c n bar.toNat (l.bar bar.toNat).scope s.core.cur y (y.a = y.e)) := by
  rw [State.arrival, h]
  exact if_neg hgood
theorem arrival_bad {s : State} {n : Nat} {l : Launch} (h : s.myLaunch = some (n, l)) {bar : BitVec 6} (via : Bool) (f : Nat → State → State)
    (hbad : (l.inst bar.toNat s.core.cur).e = 0 ∨ (l.inst bar.toNat s.core.cur).dropped.contains s.core.cur = true ∨
      (l.inst bar.toNat s.core.cur).arrived.contains s.core.cur = true) :
    s.arrival bar via f = s.barrierOver bar (l.inst bar.toNat s.core.cur) := by
  rw [State.arrival, h]
  exact if_pos hbad
theorem execBarr_eq (s : State) (bar : BitVec 6) : Machine.exec (.barr bar) s = .next (if s.wv.inue then s.illegal 0
    else s.arrival bar true fun scope s => s.modIss fun i => { i with reaches := .barr scope }) := rfl
theorem execBarv_eq (s : State) (d : Reg) (bar : BitVec 6) :
    Machine.exec (.barv d bar) s = .next (s.arrival bar false fun a s => s.setAtom.putS d 1 (word a)) := rfl
theorem execBdrop_eq {s : State} {n : Nat} {l : Launch} (h : s.myLaunch = some (n, l)) (bar : BitVec 6) :
    Machine.exec (.bdrop bar) s = .next (
      let x := l.inst bar.toNat s.core.cur
      let y : BarInst := { x with dropped := insertNat x.dropped s.core.cur, e := x.e - 1 }
      if x.e = 0 ∨ x.dropped.contains s.core.cur ∨ x.arrived.contains s.core.cur then s.barrierOver bar x
      else s.setAtom.modC fun c => counted c n bar.toNat (l.bar bar.toNat).scope s.core.cur y (0 < y.e ∧ y.a = y.e)) := by
  change execBdrop bar s = _
  rw [execBdrop, h]
  rfl
/-- A launch as `binit` leaves it (R130). -/
def initialised (bar scope w e : Nat) (x : BarInst) (l : Launch) : Launch :=
  let l := l.setInst bar scope w { x with e := e, a := 0, arrived := [], viaBarr := [], dropped := [] }
  { l with bars := mset l.bars bar { l.bar bar with scope := scope } }
theorem initialised_bar (bar scope w e : Nat) (x : BarInst) (l : Launch) :
    ((initialised bar scope w e x l).bar bar).scope = scope ∧
    (initialised bar scope w e x l).inst bar w = { x with e := e, a := 0, arrived := [], viaBarr := [], dropped := [] } := by
  let y : BarInst := { x with e := e, a := 0, arrived := [], viaBarr := [], dropped := [] }
  have hbar : (initialised bar scope w e x l).bar bar = { (l.setInst bar scope w y).bar bar with scope := scope } := mget_mset_same ..
  refine ⟨by rw [hbar], ?_⟩
  rw [Launch.inst, hbar, bar_setInst]
  exact mget_mset_same ..
theorem execBinit_eq {s : State} {n : Nat} {l : Launch} (h : s.myLaunch = some (n, l)) (scope : BitVec 3) (a : Reg) (bar : BitVec 6) :
    Machine.exec (.binit scope a bar) s = .next (
      let x := mget (l.bar bar.toNat).insts (barKey scope.toNat (unitOf scope.toNat s.core.cur)) BarInst.reset
      if x.a ≠ 0 ∨ (s.sreg a).toNat = 0 ∨ (l.participants scope.toNat (unitOf scope.toNat s.core.cur)).length < (s.sreg a).toNat then
        s.barrierOver bar x
      else s.setAtom.modC fun c => c.modL n (initialised bar.toNat scope.toNat s.core.cur (s.sreg a).toNat x)) := by
  change execBinit scope a bar s = _
  rw [execBinit, h]
  rfl
/-- What counting in a round leaves, with a change of the executing weave. -/
theorem sameBut_counted (s : State) (g : Weave → Weave) (ls : Map Launch) (es : List Entry) {f : Weave → Weave → Weave}
    (hf : f (me s) (g (me s)) = me s) :
    SameBut s { s with core := { s.core.modW s.core.cur g with launches := ls, agenda := es } } f
      fun c d => { d with launches := c.launches, iss := c.iss } :=
  ⟨rfl, rfl, fun _ hv => modW_weave_other s.core g hv, (congrArg (f (me s)) (modW_weave_same s.core s.core.cur g)).trans hf, fun _ => rfl⟩
/-- Results of scalar instructions leave what the agenda holds. -/
theorem putS_mem_agenda (s : State) (d : Reg) (L : Nat) (x : Word) {e : Entry} (h : e ∈ s.core.agenda) :
    e ∈ (s.putS d L x).core.agenda := by
  by_cases hd : d = 0
  · subst hd
    rw [show s.putS 0 L x = s from deliver_discard s .s L [0] [(0, x)] (by decide)]
    exact h
  · obtain ⟨es, he⟩ := deliver_eq s .s d L [0] [(0, x)] (.inr hd)
    rw [show s.putS d L x = _ from he]
    exact List.mem_append_left _ h
/-- Settles O20, by the round that each of the four operations leaves. -/
theorem barriers : Obligations.Barriers := by
  intro s d a bar scope n l w x sc turned bad new e size completes same hlaunch hlaunchOf hl
  have hmine := myLaunch_eq hlaunch hlaunchOf
  have hinst : ∀ {t : State} {y : BarInst}, (t.core.launch? n).map (fun l => l.inst bar.toNat w) = some y → instOf t n bar.toNat w = y :=
    fun h => congrArg (·.getD BarInst.reset) h
  refine ⟨fun hue hgood => ?barr, fun hgood => ?barv, fun hgood => ?bdrop, fun hnew hpos hfits => ?binit, fun hbad hue => ?barrOver,
    fun hue => ?barrIllegal, fun hbad => ?barvOver, fun hbad => ?bdropOver, fun hbad => ?binitOver⟩
  case barr =>
    let y : BarInst := { x with a := x.a + 1, arrived := insertNat x.arrived w, viaBarr := insertNat x.viaBarr w }
    obtain ⟨ls, es, heq⟩ := counted_eq s.core n bar.toNat sc w y (y.a = y.e)
    obtain ⟨hcounts, hcompletes⟩ := counted_inst hl (rfl : (l.bar bar.toNat).scope = sc) w y (y.a = y.e)
    rw [heq] at hcounts hcompletes
    refine ⟨{ s with core := { s.core with launches := ls, agenda := es, iss := { s.core.iss with reaches := .barr sc } } }, ?_,
      ⟨rfl, rfl, fun _ _ => rfl, rfl, fun _ => rfl⟩, rfl, fun h => hinst (hcounts h), fun h => ?_⟩
    · rw [execBarr_eq, hue, if_neg Bool.false_ne_true, arrival_good hmine true _ hgood]
      exact congrArg (fun c : Core => Host.Outcome.next { s with core := { c with iss := { c.iss with reaches := .barr sc } } }) heq
    · obtain ⟨hanew, hdue⟩ := hcompletes h
      exact ⟨hinst hanew, hdue⟩
  case barv =>
    let y : BarInst := { x with a := x.a + 1, arrived := insertNat x.arrived w }
    obtain ⟨ls, es, heq⟩ := counted_eq s.core n bar.toNat sc w y (y.a = y.e)
    obtain ⟨hcounts, hcompletes⟩ := counted_inst hl (rfl : (l.bar bar.toNat).scope = sc) w y (y.a = y.e)
    rw [heq] at hcounts hcompletes
    let r : State := { s with core := { s.core with launches := ls, agenda := es } }
    obtain ⟨⟨hbase, hrest, hothers, hme, hmem⟩, ⟨-, -, -, hreads⟩, -⟩ := putS_lands r.setAtom d 1 (word (x.a + 1))
    have hatom : me r.setAtom = { me s with status := (me s).status ||| 16 } := me_setAtom r
    rw [hatom] at hme
    have hlaunches : ∀ m, (r.setAtom.putS d 1 (word (x.a + 1))).core.launch? m = r.core.launch? m :=
      fun m => (congrArg (fun c : Core => c.launch? m) hrest :)
    refine ⟨r.setAtom.putS d 1 (word (x.a + 1)), ?_, (congrArg Weave.status hme :),
      ⟨hbase, ?_, fun v hv => ?_, (congrArg (fun y : Weave => { y with status := (me s).status }) hme :), hmem⟩, fun hd hsettled => ?_,
      fun h => hinst ?_, fun h => ⟨hinst ?_, ?_⟩⟩
    · rw [execBarv_eq, arrival_good hmine false _ hgood]
      exact congrArg (fun c : Core => Host.Outcome.next (State.putS (State.setAtom { s with core := c }) d 1 (word (x.a + 1)))) heq
    · exact (congrArg (fun c : Core => { c with
        weaves := s.core.weaves, agenda := s.core.agenda, launches := s.core.launches, iss := s.core.iss }) hrest :)
    · exact (hothers v hv).trans (modW_weave_other s.core (fun y => y.setSt 4 true) hv)
    · refine hreads hd ?_
      unfold Settled
      rw [hatom]
      exact hsettled
    · rw [hlaunches]
      exact hcounts h
    · rw [hlaunches]
      exact (hcompletes h).1
    · exact putS_mem_agenda r.setAtom d 1 _ (hcompletes h).2
  case bdrop =>
    let y : BarInst := { x with dropped := insertNat x.dropped w, e := x.e - 1 }
    obtain ⟨ls, es, heq⟩ := counted_eq s.setAtom.core n bar.toNat sc w y (0 < y.e ∧ y.a = y.e)
    obtain ⟨hcounts, hcompletes⟩ := counted_inst (c := s.setAtom.core) hl (rfl : (l.bar bar.toNat).scope = sc) w y (0 < y.e ∧ y.a = y.e)
    rw [heq] at hcounts hcompletes
    have he : 0 < x.e := Nat.pos_of_ne_zero fun h => hgood (.inl h)
    refine ⟨{ s with core := { s.setAtom.core with launches := ls, agenda := es } }, ?_, (congrArg Weave.status (me_setAtom s) :),
      sameBut_counted s (fun y => y.setSt 4 true) ls es ?_, fun h => hinst (hcounts ?_), fun h hone => ?_⟩
    · rw [execBdrop_eq hmine]
      exact (congrArg Host.Outcome.next (if_neg hgood)).trans (congrArg (fun c : Core => Host.Outcome.next { s with core := c }) heq)
    · exact congrArg (fun y : Weave => { y with status := (me s).status }) (setSt_atom (me s))
    · change ¬ (0 < x.e - 1 ∧ x.a = x.e - 1)
      omega
    · obtain ⟨hanew, hdue⟩ := hcompletes ⟨(by omega : 0 < x.e - 1), h⟩
      exact ⟨hinst hanew, hdue⟩
  case binit =>
    obtain ⟨ls, hls⟩ := modL_eq s.setAtom.core n (initialised bar.toNat scope.toNat w e new)
    have hset := launch?_modL_same (c := s.setAtom.core) hl (initialised bar.toNat scope.toNat w e new)
    obtain ⟨hscope, hnewInst⟩ := initialised_bar bar.toNat scope.toNat w e new l
    rw [hls] at hset
    refine ⟨{ s with core := { s.setAtom.core with launches := ls, agenda := s.core.agenda } }, ?_,
      sameBut_counted s (fun y => y.setSt 4 true) ls s.core.agenda ?_, (congrArg Weave.status (me_setAtom s) :), ?_, hinst ?_⟩
    · rw [execBinit_eq hmine]
      refine (congrArg Host.Outcome.next (if_neg ?_)).trans (congrArg (fun c : Core => Host.Outcome.next { s with core := c }) hls)
      exact fun h => h.elim (· hnew) fun h => h.elim hpos.ne' (Nat.not_lt.mpr hfits)
    · exact congrArg (fun y : Weave => { y with status := (me s).status }) (setSt_atom (me s))
    · exact (congrArg (Option.map fun l => (l.bar bar.toNat).scope) hset).trans (congrArg some hscope)
    · exact (congrArg (Option.map fun l => l.inst bar.toNat w) hset).trans (congrArg some hnewInst)
  case barrOver =>
    rw [execBarr_eq, hue, if_neg Bool.false_ne_true, arrival_bad hmine true _ hbad]
    rfl
  case barrIllegal => rw [execBarr_eq, hue, if_pos rfl]
  case barvOver =>
    rw [execBarv_eq, arrival_bad hmine false _ hbad]
    rfl
  case bdropOver =>
    rw [execBdrop_eq hmine]
    exact congrArg Host.Outcome.next (if_pos hbad)
  case binitOver =>
    rw [execBinit_eq hmine]
    exact congrArg Host.Outcome.next (if_pos hbad)
end Sys2Proof.Proofs
end
section
/-! SUPPORT. Probes, their walks, waits and releases of handles (O25). -/
namespace Sys2Proof.Proofs
open Sys2Proof.Machine Sys2Proof.Claims Sys2Proof.Laws

theorem getElem?_lmod {α : Type} (xs : List α) (i j : Nat) (f : α → α) :
    (lmod xs i f)[j]? = (xs[j]?).map fun x => if j = i then f x else x := by
  unfold lmod
  by_cases h : j < xs.length
  · simp [h]
  · simp [h]

/-! ## Weaves with the same registers -/

/-- Two weaves hold the same registers and the same results in flight. -/
structure SameRegs (x y : Weave) : Prop where
  s : y.s = x.s
  v : y.v = x.v
  k : y.k = x.k
  flight : y.flight = x.flight

namespace SameRegs
theorem refl (x : Weave) : SameRegs x x := ⟨rfl, rfl, rfl, rfl⟩
theorem sval {x y : Weave} (h : SameRegs x y) (T : Nat) (r : Reg) : y.sval T r = x.sval T r := by
  rw [Weave.sval, h.s, h.flight]
  rfl
theorem vval {x y : Weave} (h : SameRegs x y) (T : Nat) (r : Reg) (l : Nat) : y.vval T r l = x.vval T r l := by
  rw [Weave.vval, h.v, h.flight]
  rfl
theorem kval {x y : Weave} (h : SameRegs x y) (T : Nat) (r : KReg) (l : Nat) : y.kval T r l = x.kval T r l := by
  rw [Weave.kval, h.k, h.flight]
  rfl
theorem settled {s t : State} (h : SameRegs (me s) (me t)) (file : File) (reg : BitVec 5) (lane cell X : Nat) :
    Settled t file reg lane cell X ↔ Settled s file reg lane cell X := by
  rw [Settled, h.flight]
  rfl
/-- What reads see of a result is about the registers of the executing weave alone. -/
theorem readsS {s t s' t' : State} (hs : SameRegs (me s) (me s')) (ht : SameRegs (me t) (me t')) (hnow : s'.now = s.now)
    {d : Reg} {L : Nat} {x : Word} (h : ReadsS s t d L x) : ReadsS s' t' d L x := by
  obtain ⟨hsval, hvval, hkval, hreads⟩ := h
  refine ⟨fun T r hr => ?_, fun T r l => ?_, fun T k l => ?_, fun hd hsettled T hT => ?_⟩
  · rw [ht.sval, hs.sval, hsval T r (hnow ▸ hr)]
  · rw [ht.vval, hs.vval, hvval]
  · rw [ht.kval, hs.kval, hkval]
  · rw [hnow] at hsettled hT
    rw [ht.sval, hreads hd ((hs.settled ..).mp hsettled) T hT]
end SameRegs

/-! ## Handles of the executing weave -/

theorem walking_iff (x : Handle) : x.walking = true ↔ x.walk.isSome = true ∨ ∃ p ∈ x.pend, p.1 ≠ 0 := by
  simp [Handle.walking]
theorem holds_iff (x : Handle) (base len : Word) (r w : Bool) (gen : Nat) : x.holds ⟨base, len, r, w, gen⟩ = true ↔ cached x base len r w := by
  cases r <;> cases w <;> simp [Handle.holds, cached, and_assoc]
theorem permReads_eq (perm : Perm) : permReads perm = decide (perm ≠ .w) := by cases perm <;> rfl
theorem permWrites_eq (perm : Perm) : permWrites perm = decide (perm ≠ .r) := by cases perm <;> rfl
/-- The result of a probe (R137). -/
def probeResult (x : Handle) (wk : Walk) : Nat := if x.walking then 2 else if x.holds wk then 0 else 1
/-- What a probe gives its handle at issue. -/
def probed (res : Nat) (wk : Walk) (now : Nat) (y : Handle) : Handle :=
  { y with gen := wk.gen, pend := y.pend ++ [(res, wk)], walk := y.walk.map fun v => { v with gen := 0 }, walkSince := now }
theorem execProbe_eq (s : State) (perm : Perm) (d : Reg) (h : HReg) (a b : Reg) :
    let x := s.wv.handles.getD h.toNat Handle.reset
    let wk : Walk := ⟨s.sreg a, s.sreg b, decide (perm ≠ .w), decide (perm ≠ .r), x.gen + 1⟩
    let u := s.putS d 64 (word (probeResult x wk))
    Machine.exec (.probe perm d h a b) s = .next (u.modC fun c =>
      (c.modH c.cur h.toNat (probed (probeResult x wk) wk c.now)).sched (c.now + 64) bLand h.toNat (.probeUpdate c.cur h.toNat wk.gen)) := by
  rw [← permReads_eq, ← permWrites_eq]
  rfl
theorem execProbew_eq (s : State) (d : Reg) (h : HReg) : Machine.exec (.probew d h) s = .next (
    let x := s.wv.handles.getD h.toNat Handle.reset
    let f := x.fail.getD ⟨0, 5, 0⟩
    if x.walking then s.hold 11 fun c => c.modW c.cur fun v => { v with walkWaited := some (v.walkWaited.getD c.now) }
    else if x.valid then (s.modW fun v => { v with walkWaited := none }).putS d 1 (word (s.now - s.wv.walkWaited.getD s.now))
    else (s.raise 0x05 (word (h.toNat + f.level * 16 + f.reason * 256)) f.va).modC fun c =>
      c.modW c.cur fun v => { v with walkWaited := none }) := rfl
theorem modH_handles (c : Core) (w n i : Nat) (f : Handle → Handle) :
    ((c.modH w n f).weave w).handles[i]? = ((c.weave w).handles[i]?).map fun y => if i = n then f y else y := by
  rw [Core.modH, modW_weave_same]
  exact getElem?_lmod ..
/-- A handle after its walk (R137). -/
def walked (r : Except WalkFail (List PageTr)) (h : Handle) : Handle :=
  match r with
  | .error f => { h with walk := none, valid := false, fail := some f }
  | .ok ps => { h with walk := none, valid := true, pages := ps, fail := none }
theorem afterWalk_eq (w n : Nat) (r : Except WalkFail (List PageTr) × Core) :
    (match r with
      | (.error f, c) => c.modH w n fun h => { h with walk := none, valid := false, fail := some f }
      | (.ok ps, c) => c.modH w n fun h => { h with walk := none, valid := true, pages := ps, fail := none }) = r.2.modH w n (walked r.1) := by
  obtain ⟨o, c⟩ := r
  cases o with
  | error f => rfl
  | ok ps => rfl
theorem execProbeWalkCompletion_eq {s : State} {w n : Nat} {h : Handle} {wk : Walk} (hh : (s.core.weave w).handles[n]? = some h)
    (hwk : h.walk = some wk) : Machine.exec (.probeWalkCompletion w n) s = .next (s.modC fun c =>
      let r := c.walkHandle (c.ctxOf w) wk.base wk.len wk.r wk.w
      r.2.modH w n (walked r.1)) := by
  change execProbeWalkCompletion w n s = _
  rw [execProbeWalkCompletion, State.modC, List.getD_eq_getElem?_getD, hh, Option.getD_some, hwk]
  exact congrArg (fun c => Host.Outcome.next { s with core := c }) (afterWalk_eq w n (s.core.walkHandle (s.core.ctxOf w) wk.base wk.len wk.r wk.w))
/-- Settles O25, by the five instructions. -/
theorem handles : Obligations.Handles := by
  refine ⟨fun s perm d h a b => ?probe, fun s w n h wk hh hwk => ?walk, fun s d h => ⟨fun hidle hvalid => ?done, fun hwalking hfpx => ?waits,
    fun hidle hbad => ?fails, ?release⟩⟩
  case probe =>
    intro x r w walking
    let wk : Walk := ⟨s.sreg a, s.sreg b, r, w, x.gen + 1⟩
    let u := s.putS d 64 (word (probeResult x wk))
    obtain ⟨⟨hbase, hrest, hothers, hme, hmem⟩, hreads, -⟩ := putS_lands s d 64 (word (probeResult x wk))
    have hcur : u.core.cur = s.core.cur := (congrArg Core.cur hrest :)
    have hnow : u.core.now = s.core.now := (congrArg Core.now hrest :)
    let g := probed (probeResult x wk) wk u.core.now
    let t := u.modC fun c => (c.modH c.cur h.toNat g).sched (c.now + 64) bLand h.toNat (.probeUpdate c.cur h.toNat wk.gen)
    have hmine : me t = { me u with handles := lmod (me u).handles h.toNat g } :=
      modW_weave_same u.core u.core.cur fun y => { y with handles := lmod y.handles h.toNat g }
    have hsame : SameRegs (me u) (me t) := by
      rw [hmine]
      exact ⟨rfl, rfl, rfl, rfl⟩
    have hhandles : (me u).handles = (me s).handles := (congrArg Weave.handles hme :)
    have hcached : x.holds wk = true ↔ cached x (s.sreg a) (s.sreg b) r w := holds_iff ..
    refine ⟨t, probeResult x wk, execProbe_eq s perm d h a b, (SameRegs.refl (me s)).readsS hsame rfl hreads,
      fun hw => if_pos ((walking_iff x).mpr hw), fun hw hc => ?_, fun hw hc => ?_, fun hlen => ?_, ?_, hbase, hrest, fun v hv => ?_, ?_, hmem⟩
    · exact (if_neg fun h => hw ((walking_iff x).mp h)).trans (if_pos (hcached.mpr hc))
    · exact (if_neg fun h => hw ((walking_iff x).mp h)).trans (if_neg fun h => hc (hcached.mp h))
    · rw [Claims.handleOf, Claims.handleOf, hmine, hhandles, List.getD_eq_getElem?_getD, List.getD_eq_getElem?_getD, getElem?_lmod,
        List.getElem?_eq_getElem hlen, Option.map_some, if_pos rfl]
      rfl
    · rw [← hcur, State.now, ← hnow]
      exact List.mem_append_right _ (List.mem_singleton.mpr rfl)
    · exact (modW_weave_other u.core (fun y => { y with handles := lmod y.handles h.toNat g }) (hcur ▸ hv)).trans (hothers v hv)
    · rw [hmine]
      exact (congrArg (fun y : Weave => { y with handles := (me s).handles }) hme :)
  case walk =>
    intro r
    have hhandles := modH_handles r.2 w n n (walked r.1)
    refine ⟨_, execProbeWalkCompletion_eq hh hwk, rfl, rfl, fun ps hps => hhandles.trans ?_, fun f hf => hhandles.trans ?_⟩
    · simp only [hps, if_true, walked]
    · simp only [hf, if_true, walked]
  case done =>
    let u := s.modW fun v => { v with walkWaited := none }
    have hmine : me u = { me s with walkWaited := none } := modW_weave_same s.core s.core.cur fun v => { v with walkWaited := none }
    obtain ⟨⟨hbase, hrest, hothers, hme, hmem⟩, hreads, -⟩ := putS_lands u d 1 (word (s.now - s.wv.walkWaited.getD s.now))
    rw [hmine] at hme
    have hsame : SameRegs (me u) (me s) := by
      rw [hmine]
      exact ⟨rfl, rfl, rfl, rfl⟩
    refine ⟨u.putS d 1 (word (s.now - s.wv.walkWaited.getD s.now)), ?_, (congrArg Weave.walkWaited hme :), hsame.readsS (SameRegs.refl _) rfl hreads,
      hbase, (congrArg (fun c : Core => { c with weaves := s.core.weaves }) hrest :), fun v hv => ?_,
      (congrArg (fun y : Weave => { y with walkWaited := (me s).walkWaited }) hme :), hmem⟩
    · rw [execProbew_eq]
      exact congrArg Host.Outcome.next ((if_neg fun h => hidle ((walking_iff _).mp h)).trans (if_pos hvalid))
    · exact (hothers v hv).trans (modW_weave_other s.core (fun v => { v with walkWaited := none }) hv)
  case waits =>
    refine ⟨{ core := Core.modW { s.rd with iss := { s.core.iss with held := some 11 } } s.rd.cur fun v =>
      { v with walkWaited := some (v.walkWaited.getD s.rd.now) }, base := none }, ?_, rfl, rfl, rfl⟩
    rw [execProbew_eq]
    exact congrArg Host.Outcome.next ((if_pos ((walking_iff _).mpr hwalking)).trans (hold_of_fpx hfpx 11 _))
  case fails =>
    let f := (s.wv.handles.getD h.toNat Handle.reset).fail.getD ⟨0, 5, 0⟩
    let u := s.raise 0x05 (word (h.toNat + f.level * 16 + f.reason * 256)) f.va
    refine ⟨u.modW fun v => { v with walkWaited := none }, ?_, rfl, ?_⟩
    · rw [execProbew_eq]
      exact congrArg Host.Outcome.next
        ((if_neg fun h => hidle ((walking_iff _).mp h)).trans (if_neg (ne_true_of_eq_false hbad)))
    · exact congrArg Weave.walkWaited (modW_weave_same u.core u.core.cur fun v => { v with walkWaited := none })
  case release =>
    let g (x : Handle) : Handle := { x with valid := false, pages := [] }
    have hmine : me (s.modC fun c => c.modH c.cur h.toNat g) = { me s with handles := lmod (me s).handles h.toNat g } :=
      modW_weave_same s.core s.core.cur fun y => { y with handles := lmod y.handles h.toNat g }
    refine ⟨_, rfl, ⟨rfl, rfl, fun v hv => ?_, (congrArg (fun y : Weave => { y with handles := (me s).handles }) hmine :), fun _ => rfl⟩, fun i => ?_⟩
    · exact modW_weave_other s.core (fun y => { y with handles := lmod y.handles h.toNat g }) hv
    · exact modH_handles s.core s.core.cur h.toNat i g
end Sys2Proof.Proofs
end
section
/-! SUPPORT. What a return from a handler leaves of the machine and of its weave (O28). -/
namespace Sys2Proof.Proofs
open Sys2Proof.Machine Sys2Proof.Claims Sys2Proof.Laws

/-! ## Results that come back (R320) -/

/-- `d` is `c` but for results of the weave that land after cycle ret, injections that have fired, the agenda and the numbering. -/
structure Rejoins (w ret : Nat) (c d : Core) : Prop where
  cur : d.cur = c.cur
  iss : d.iss = c.iss
  mem : d.mem = c.mem
  weave : ∃ flight errinj, d.weave w = { c.weave w with flight := flight, errinj := errinj } ∧
    ∀ r ∈ flight, r ∈ (c.weave w).flight ∨ ∀ cell, ret + 1 ≤ r.lands cell

namespace Rejoins
theorem of_weave {w ret : Nat} {c d : Core} (hcur : d.cur = c.cur) (hiss : d.iss = c.iss) (hmem : d.mem = c.mem) (errinj : Word)
    (hweave : d.weave w = { c.weave w with errinj := errinj }) : Rejoins w ret c d :=
  ⟨hcur, hiss, hmem, (c.weave w).flight, errinj, hweave, fun _ hr => .inl hr⟩
theorem refl (w ret : Nat) (c : Core) : Rejoins w ret c c := of_weave rfl rfl rfl _ rfl
theorem trans {w ret : Nat} {c d e : Core} (h : Rejoins w ret c d) (g : Rejoins w ret d e) : Rejoins w ret c e := by
  obtain ⟨flight, errinj, hd, hflight⟩ := h.weave
  obtain ⟨flight', errinj', he, hflight'⟩ := g.weave
  refine ⟨g.cur.trans h.cur, g.iss.trans h.iss, g.mem.trans h.mem, flight', errinj', by rw [he, hd], fun r hr => ?_⟩
  refine (hflight' r hr).elim (fun hin => hflight r ?_) .inr
  rw [hd] at hin
  exact hin
theorem foldl {α : Type} {w ret : Nat} {f : Core → α → Core} (h : ∀ c x, Rejoins w ret c (f c x)) (xs : List α) :
    ∀ c, Rejoins w ret c (xs.foldl f c) := by
  induction xs with
  | nil => exact refl w ret
  | cons x xs ih => exact fun c => (h c x).trans (ih _)
end Rejoins
theorem putResult_rejoins {w ret : Nat} (c : Core) {x : Result} (hx : x.floor = ret + 1) : Rejoins w ret c (c.putResult w x) := by
  obtain ⟨es, h⟩ := putResult_eq c w x
  have hw : (c.putResult w x).weave w = { c.weave w with flight := (c.weave w).flight ++ [x] } := by
    rw [h]
    exact modW_weave_same c w fun v => { v with flight := v.flight ++ [x] }
  refine ⟨by rw [h]; rfl, by rw [h]; rfl, by rw [h]; rfl, _, _, hw, fun r hr => (List.mem_append.mp hr).imp id fun hr cell => ?_⟩
  rw [List.mem_singleton.mp hr, ← hx]
  exact Nat.le_max_right ..
theorem inject_rejoins (c : Core) (w ret : Nat) (ls : List LatchRec) : Rejoins w ret c (c.inject w ret ls) := by
  refine .foldl (fun d l => ?_) ls c
  split
  · exact .refl w ret d
  · exact .trans (d := { d with nextId := d.nextId + 1 }) (.of_weave rfl rfl rfl _ rfl) (putResult_rejoins _ rfl)
theorem fired_rejoins (c : Core) (w ret : Nat) (v : Option Nat) : Rejoins w ret c (c.fired v) := by
  cases v with
  | none => exact .refl w ret c
  | some v =>
    by_cases h : w = v
    · subst h
      exact .of_weave rfl rfl rfl _ (modW_weave_same c w fun x => { x with errinj := x.errinj &&& word (2 ^ 63 - 1) })
    · exact .of_weave rfl rfl rfl _ (modW_weave_other c (fun x => { x with errinj := x.errinj &&& word (2 ^ 63 - 1) }) h)
theorem readRows_rejoins (c : Core) (w ret : Nat) (rows : List Nat) (X : Nat) : Rejoins w ret c (c.readRows w rows X) := by
  refine .foldl (fun d row => ?_) rows c
  split
  · exact .of_weave rfl rfl rfl _ rfl
  · split
    · exact .refl w ret d
    · exact (fired_rejoins d w ret _).trans (.of_weave rfl rfl rfl _ rfl)

/-! ## Returns (R145, R149) -/

theorem latchCount_eq (c : Core) (w f : Nat) :
    c.latchCount w f = ((List.range 16).filter fun i => (c.loadShared w (f + 256 + 32 * i)).getLsbD 0).length := by
  have hvalid : ∀ i, (c.readLatch w f i).isSome = (c.loadShared w (f + 256 + 32 * i)).getLsbD 0 := by
    intro i
    rw [Core.readLatch, latchOf, ← bitAt_toNat]
    cases bitAt (c.loadShared w (f + 256 + 32 * i)).toNat 0 <;> rfl
  rw [Core.latchCount, Core.readLatches, List.length_filterMap_eq_countP, List.countP_eq_length_filter]
  simp only [hvalid]
/-- A weave without what a return gives it: its place in time and in the program, its results, and what it waits for. -/
def stripped (x : Weave) : Weave := { x with
  pc := 0, fixedAt := none, slipping := none, texp := 0, slipctr := 0, wait := .none, aside := .none, seg := Weave.reset.seg, flight := []
  errinj := 0 }
theorem of_stripped {x y : Weave} (h : stripped x = stripped y) :
    x.status = y.status ∧ x.s = y.s ∧ x.shadow = y.shadow ∧ x.loops = y.loops ∧ x.v = y.v ∧ x.k = y.k :=
  ⟨(congrArg Weave.status h :), (congrArg Weave.s h :), (congrArg Weave.shadow h :), (congrArg Weave.loops h :), (congrArg Weave.v h :), (congrArg Weave.k h :)⟩
/-- What a return gives its weave before the results come back; `td` is the frame's distance of TEXP (R320). -/
def returnWeave (ret pc sched : Nat) (td : Int) (x : Weave) : Weave := { x with
  pc := BitVec.ofNat 14 pc
  fixedAt := some ret
  slipping := none
  texp := if x.timed then (((ret / Config.tickCycles : Nat) : Int) + td).toNat else x.texp
  slipctr := if x.timed ∧ sched ≠ 0 then slipAdd x.slipctr (ret - (sched - 1)) 1 else x.slipctr
  wait := if x.inHandler ∨ x.wait ≠ .none then x.wait else x.aside
  aside := if x.inHandler ∨ x.wait ≠ .none then x.aside else .none
  seg := { x.seg with first := ret } }
theorem returnTo_eq (c : Core) (w f ret pc sched : Nat) : c.returnTo w f ret pc sched =
    ((c.modW w (returnWeave ret pc sched (signed (c.loadShared w (f + 176)).toNat 64))).inject w ret (c.readLatches w f)).readRows w
      (c.frameReads w f) ret := rfl
theorem returnTo_rejoins (c : Core) (w f ret pc sched : Nat) : ∃ td,
    Rejoins w ret (c.modW w (returnWeave ret pc sched td)) (c.returnTo w f ret pc sched) :=
  ⟨_, returnTo_eq c w f ret pc sched ▸ (inject_rejoins _ w ret _).trans (readRows_rejoins _ w ret _ ret)⟩
theorem fixNext_mem_agenda (s : State) (ret : Nat) :
    ⟨.cycle ret, bIssue, s.core.cur, .issue s.core.cur⟩ ∈ (s.fixNext ret).core.agenda :=
  schedIssue_mem_agenda { s.core with iss := { s.core.iss with done := true } } s.core.cur ret
theorem me_fixNext (s : State) (ret : Nat) : me (s.fixNext ret) = me s := by
  simp only [me, State.fixNext, State.modC, State.modIss, Core.schedIssue, sched_cur, unsched_cur, sched_weave, unsched_weave]
  rfl
theorem fixNext_mem (s : State) (ret : Nat) : (s.fixNext ret).core.mem = s.core.mem := by
  simp only [State.fixNext, State.modC, schedIssue_mem, modIss_mem]
theorem fixNext_done (s : State) (ret : Nat) : (s.fixNext ret).core.iss.done = true := rfl
/-- A machine whose results have come back to a weave `y` that is sent to a PC: the return, but for the fields of the weave. -/
theorem fixNext_returned {s : State} {f ret pc : Nat} {c d : Core} {y : Weave} (h : Rejoins s.core.cur ret c d) (hcur : c.cur = s.core.cur)
    (hmem : c.mem = s.core.mem) (hweave : c.weave s.core.cur = y) (hpc : y.pc = BitVec.ofNat 14 pc) (hfixed : y.fixedAt = some ret)
    (hflight : y.flight = (me s).flight) (hv : y.v = (me s).v) (hk : y.k = (me s).k)
    (hret : ret = s.rd.now + 8 + 2 * s.rd.latchCount s.core.cur f) (hnow : s.core.now = s.rd.now) :
    let t := ({ s with core := d } : State).fixNext ret
    Returned s t f pc ∧ stripped (me t) = stripped y := by
  obtain ⟨hcur', -, hmem', flight, errinj, hd, hresults⟩ := h
  rw [hweave] at hd hresults
  rw [hcur] at hcur'
  have hme : me (({ s with core := d } : State).fixNext ret) = { y with flight := flight, errinj := errinj } :=
    (me_fixNext ..).trans ((congrArg d.weave hcur').trans hd)
  have hret' : s.now + 8 + 2 * ((List.range 16).filter fun i => (s.rd.loadShared s.core.cur (f + 256 + 32 * i)).getLsbD 0).length = ret := by
    rw [← latchCount_eq, hret, State.now, hnow]
  have hdue := fixNext_mem_agenda { s with core := d } ret
  unfold Returned
  simp only [hret', hme, fixNext_mem, hmem', hmem, fixNext_done]
  refine ⟨⟨hpc, hfixed, trivial, ?_, fun r hr => ?_, hv, hk, fun a => trivial⟩, rfl⟩
  · rw [← hcur']
    exact hdue
  · rw [← hflight]
    exact hresults r hr
/-- The machine as a return from the frame at `f` leaves it, with a change of the weave that goes before. -/
def returning (s : State) (g : Weave → Weave) (f ret pc sched : Nat) : State :=
  ({ s with core := (s.core.modW s.core.cur g).returnTo s.core.cur f ret pc sched } : State).fixNext ret
theorem returning_returned {s : State} {g : Weave → Weave} (hv : ∀ x, (g x).v = x.v) (hk : ∀ x, (g x).k = x.k)
    (hflight : ∀ x, (g x).flight = x.flight) {f ret : Nat} (hret : ret = s.rd.now + 8 + 2 * s.rd.latchCount s.core.cur f)
    (hnow : s.core.now = s.rd.now) (pc sched : Nat) :
    Returned s (returning s g f ret pc sched) f pc ∧ (me (returning s g f ret pc sched)).status = (g (me s)).status ∧
    (me (returning s g f ret pc sched)).s = (g (me s)).s ∧ (me (returning s g f ret pc sched)).shadow = (g (me s)).shadow ∧
    (me (returning s g f ret pc sched)).loops = (g (me s)).loops := by
  obtain ⟨td, hrejoins⟩ := returnTo_rejoins (s.core.modW s.core.cur g) s.core.cur f ret pc sched
  obtain ⟨hreturned, hsame⟩ := fixNext_returned (y := returnWeave ret pc sched td (g (me s))) hrejoins rfl rfl
    (by rw [modW_weave_same, modW_weave_same]; rfl) rfl rfl (hflight _) (hv _) (hk _) hret hnow
  obtain ⟨hstatus, hs, hshadow, hloops, -, -⟩ := of_stripped hsame
  exact ⟨hreturned, hstatus, hs, hshadow, hloops⟩
/-- The change of the weave by which `eret` reverses its entry (R149). -/
def outOfTrap (priv uee : Bool) (levels : List LoopLevel) (seg : Segment) (x : Weave) : Weave :=
  { ((x.setSt 0 priv).setSt 1 uee) with loops := levels, seg := seg, trapSched := 0 }
theorem execEret_priv {s : State} (h : s.wv.priv = true) :
    let w := s.core.cur
    let ret := s.rd.now + 8 + 2 * s.rd.latchCount w (trapFrame w)
    ∃ seg sched, Machine.exec .eret s = .next (returning s (outOfTrap (s.wv.status.getLsbD 5) (s.wv.status.getLsbD 6)
      (s.rd.readLevels w (trapFrame w) ((s.rd.loadShared w (trapFrame w + 24)).toNat % 8)) seg) (trapFrame w) ret
      (s.wv.epc.toNat % 16384) sched) := by
  intro w ret
  refine ⟨segOfRows (s.rd.loadShared w (trapFrame w + 128)) (s.rd.loadShared w (trapFrame w + 136)) ret s.wv.seg.startPc, s.wv.trapSched, ?_⟩
  change execEret s = _
  rw [execEret, h, ← bitAt_toNat, ← bitAt_toNat]
  rfl
/-- The change of the weave by which `evret` reverses its entry (R145). -/
def outOfEvent (depth : Nat) (seg : Segment) (x : Weave) : Weave :=
  { (x.swapShadow.setSt 2 false) with loops := x.loops.take depth, seg := seg, eventSched := 0 }
theorem execEvret_eq {s : State} (h : s.wv.inue = true) {f : Nat} (hf : s.rd.eventFrame s.core.cur = some f) :
    let w := s.core.cur
    let ret := s.rd.now + 8 + 2 * s.rd.latchCount w f
    ∃ seg sched, Machine.exec .evret s = .next (returning s (outOfEvent ((s.rd.loadShared w (f + 24)).toNat % 8) seg) f ret
      ((s.rd.loadShared w (f + 8)).toNat % 16384) sched) := by
  intro w ret
  let seg := segOfRows (s.rd.loadShared w (f + 128)) (s.rd.loadShared w (f + 136)) ret s.wv.seg.startPc
  refine ⟨seg, (s.modW (outOfEvent ((s.rd.loadShared w (f + 24)).toNat % 8) seg)).wv.eventSched, ?_⟩
  change execEvret s = _
  rw [execEvret, h, hf]
  rfl
/-- Settles O28: both returns go through `returning`, with their own change of the weave. -/
theorem returns : Obligations.Returns := by
  intro s w f
  refine ⟨fun hpriv => ?user, fun hpriv hnow => ?eret, fun hue => ?outside, fun hue hnone => ?noFrame, fun f hue hframe hnow => ?evret⟩
  case user =>
    change execEret s = _
    rw [execEret, hpriv]
    rfl
  case eret =>
    obtain ⟨seg, sched, hexec⟩ := execEret_priv hpriv
    let g := outOfTrap (s.wv.status.getLsbD 5) (s.wv.status.getLsbD 6)
      (s.rd.readLevels w f ((s.rd.loadShared w (f + 24)).toNat % 8)) seg
    obtain ⟨hreturned, hst, hs, -, hloops⟩ := returning_returned (g := g) (fun _ => rfl) (fun _ => rfl) (fun _ => rfl) (f := f) rfl hnow
      (s.wv.epc.toNat % 16384) sched
    have hstatus : ∀ i, (g (me s)).status.getLsbD i =
        if i = 1 then s.wv.status.getLsbD 6 else if i = 0 then s.wv.status.getLsbD 5 else (me s).status.getLsbD i := fun i =>
      (setSt_getLsbD ((me s).setSt 0 _) (by decide : 1 < 64) _ i).trans (by rw [setSt_getLsbD _ (by decide)])
    refine ⟨_, hexec, hreturned, ?_, ?_, fun i hi => ?_, hloops, hs⟩
    · rw [Weave.priv, bitAt_toNat, hst]
      exact hstatus 0
    · rw [Weave.uee, bitAt_toNat, hst]
      exact hstatus 1
    · rw [hst]
      exact (hstatus i).trans ((if_neg (by omega)).trans (if_neg (by omega)))
  case outside =>
    change execEvret s = _
    rw [execEvret, hue]
    rfl
  case noFrame =>
    change execEvret s = _
    rw [execEvret, hue, hnone]
    rfl
  case evret =>
    obtain ⟨seg, sched, hexec⟩ := execEvret_eq hue hframe
    let g := outOfEvent ((s.rd.loadShared w (f + 24)).toNat % 8) seg
    obtain ⟨hreturned, hst, hs, hshadow, hloops⟩ := returning_returned (g := g) (fun _ => rfl) (fun _ => rfl) (fun _ => rfl) (f := f) rfl hnow
      ((s.rd.loadShared w (f + 8)).toNat % 16384) sched
    have hstatus : ∀ i, (g (me s)).status.getLsbD i = if i = 2 then false else (me s).status.getLsbD i :=
      setSt_getLsbD (me s).swapShadow (by decide : 2 < 64) false
    refine ⟨_, hexec, hreturned, ?_, fun i hi => ?_, hs, hshadow, hloops⟩
    · rw [Weave.inue, bitAt_toNat, hst]
      exact hstatus 2
    · rw [hst]
      exact (hstatus i).trans (if_neg hi)
end Sys2Proof.Proofs
end
section
/-! SUPPORT. A store through a handle without write permission whose row has no cached translation (O27). -/
namespace Sys2Proof.Proofs
open Sys2Proof.Machine Sys2Proof.Claims Sys2Proof.Laws

/-- Weave 0 with a valid read-only handle in h2, none of its pages cached; s3 holds an offset inside it. -/
def readOnlyUncached : State :=
  let c : Core := { State.reset.core with weaves := [(0, { Weave.reset with
    handles := Weave.reset.handles.set 2 { Handle.reset with base := 0x40000, len := 0x1000, r := true, valid := true }
    s := Weave.reset.s.set 3 8 })] }
  ⟨c, some c⟩
/-- The condition that an outcome's bundle is held for. -/
def heldFor : Out → Option Nat
  | .next t => t.core.iss.held
  | _ => none
/-- The store is held for its walk: the model asks for the translation before it looks at the permission. -/
theorem readOnlyUncached_holds : heldFor (Machine.exec (.sth 4 2 3) readOnlyUncached) = some 0 := by decide +kernel
theorem readOnlyUncached_trap : heldFor (.next (readOnlyUncached.raiseFatal 0x06 2 (readOnlyUncached.sreg 3))) = none := by decide +kernel
/-- Refutes O27: an `sth` inside a valid handle without write permission is held for its walk at use where the row's translation is not
cached (`State.walkHeld`), and so does not take HANDLE at once. -/
theorem not_sequencerMemoryAndRecords : ¬ Obligations.SequencerMemoryAndRecords := by
  rintro ⟨hmemory, -⟩
  obtain ⟨-, -, hstore, -⟩ := hmemory readOnlyUncached 0 3 4 2 0
  have hlocked : ¬ (readOnlyUncached.wv.handles.getD 2 Handle.reset).w = true := by decide +kernel
  have htrap := congrArg heldFor (hstore (by decide +kernel) fun h => hlocked h.2)
  exact absurd (readOnlyUncached_holds.symm.trans (htrap.trans readOnlyUncached_trap)) (by decide)
end Sys2Proof.Proofs
end
section
/-! SUPPORT. Engines, ports and the operations of leases (R219 to R228), for O35. -/
namespace Sys2Proof.Proofs
open Sys2Proof.Machine Sys2Proof.Claims Sys2Proof.Laws

/-! ## Engines of a machine -/

theorem eng_congr {c d : Core} (h : d.sectors = c.sectors) (sec kind i : Nat) : d.eng sec kind i = c.eng sec kind i := by
  simp only [Core.eng, Core.sector, h]
/-- An update of a sector that leaves its engines. -/
theorem modSec_eng {f : Sector → Sector} (hf : ∀ x, (f x).engines = x.engines) (c : Core) (n sec kind i : Nat) :
    (c.modSec n f).eng sec kind i = c.eng sec kind i := by
  by_cases h : sec = n
  · subst h
    rw [Core.eng, modSec_sector_same, hf]
    rfl
  · rw [Core.eng, modSec_sector_other _ _ h]
    rfl
theorem length_lmod {α : Type} (xs : List α) (i : Nat) (f : α → α) : (lmod xs i f).length = xs.length := by
  simp [lmod]
theorem getD_lmod {α : Type} (xs : List α) (i j : Nat) (f : α → α) (d : α) :
    (lmod xs i f).getD j d = if j = i ∧ j < xs.length then f (xs.getD j d) else xs.getD j d := by
  rw [List.getD_eq_getElem?_getD, getElem?_lmod, List.getD_eq_getElem?_getD]
  by_cases hj : j < xs.length
  · rw [List.getElem?_eq_getElem hj]
    by_cases hi : j = i
    · rw [if_pos ⟨hi, hj⟩, Option.map_some, if_pos hi]
      rfl
    · rw [if_neg fun h => hi h.1, Option.map_some, if_neg hi]
  · rw [List.getElem?_eq_none (Nat.le_of_not_lt hj), if_neg fun h => hj h.2]
    rfl
theorem hasEngine_iff (c : Core) (sec kind i : Nat) : HasEngine c sec kind i ↔ i < ((c.sector sec).engines.getD kind []).length := by
  rw [HasEngine, List.getD_eq_getElem?_getD]
  cases h : (c.sector sec).engines[kind]? with
  | none => simp
  | some es => simp
theorem eng_of_none {c : Core} {sec kind i : Nat} (h : ¬ HasEngine c sec kind i) : c.eng sec kind i = Engine.reset := by
  rw [hasEngine_iff] at h
  rw [Core.eng, List.getD_eq_getElem?_getD, List.getElem?_eq_none (Nat.le_of_not_lt h)]
  rfl
theorem modEng_eng_other (c : Core) {sec kind i sec' kind' i' : Nat} (f : Engine → Engine) (h : (sec', kind', i') ≠ (sec, kind, i)) :
    (c.modEng sec kind i f).eng sec' kind' i' = c.eng sec' kind' i' := by
  by_cases hsec : sec' = sec
  · subst hsec
    rw [Core.eng, Core.modEng, modSec_sector_same, getD_lmod]
    split
    next hkind =>
      rw [getD_lmod, if_neg fun hi => h (by rw [hkind.1, hi.1])]
      rfl
    next => rfl
  · rw [Core.eng, Core.modEng, modSec_sector_other _ _ hsec]
    rfl
theorem modEng_eng_same {c : Core} {sec kind i : Nat} (h : HasEngine c sec kind i) (f : Engine → Engine) :
    (c.modEng sec kind i f).eng sec kind i = f (c.eng sec kind i) := by
  have hi := (hasEngine_iff c sec kind i).mp h
  have hkind : kind < (c.sector sec).engines.length := by
    by_contra hge
    rw [List.getD_eq_getElem?_getD, List.getElem?_eq_none (Nat.le_of_not_lt hge)] at hi
    exact absurd hi (Nat.not_lt_zero i)
  rw [Core.eng, Core.modEng, modSec_sector_same, getD_lmod, if_pos ⟨rfl, hkind⟩, getD_lmod, if_pos ⟨rfl, hi⟩]
  rfl
theorem modEng_hasEngine (c : Core) (sec kind i : Nat) (f : Engine → Engine) (sec' kind' i' : Nat) :
    HasEngine (c.modEng sec kind i f) sec' kind' i' ↔ HasEngine c sec' kind' i' := by
  rw [hasEngine_iff, hasEngine_iff]
  by_cases hsec : sec' = sec
  · subst hsec
    rw [Core.modEng, modSec_sector_same, getD_lmod]
    split
    · rw [length_lmod]
    · exact Iff.rfl
  · rw [Core.modEng, modSec_sector_other _ _ hsec]

/-! ## Ports of a weave -/

/-- A port of a weave, as the machine holds it. -/
def portAt (c : Core) (w p : Nat) : Machine.Port := (c.weave w).ports.getD p Port.reset
theorem portAt_congr {c d : Core} (h : d.weaves = c.weaves) (w p : Nat) : portAt d w p = portAt c w p := by
  rw [portAt, weave_congr h]
  rfl
theorem modPort_ports (c : Core) (w p v : Nat) (f : Machine.Port → Machine.Port) :
    ((c.modPort w p f).weave v).ports = if v = w then lmod (c.weave w).ports p f else (c.weave v).ports := by
  by_cases hv : v = w
  · rw [if_pos hv, hv]
    exact congrArg Weave.ports (modW_weave_same c w fun x => { x with ports := lmod x.ports p f })
  · rw [if_neg hv]
    exact congrArg Weave.ports (modW_weave_other c (fun x => { x with ports := lmod x.ports p f }) hv)
theorem modPort_portAt_same {c : Core} {w p : Nat} (h : p < (c.weave w).ports.length) (f : Machine.Port → Machine.Port) :
    portAt (c.modPort w p f) w p = f (portAt c w p) := by
  rw [portAt, modPort_ports, if_pos rfl, getD_lmod, if_pos ⟨rfl, h⟩]
  rfl
theorem modPort_length (c : Core) (w p v : Nat) (f : Machine.Port → Machine.Port) :
    ((c.modPort w p f).weave v).ports.length = (c.weave v).ports.length := by
  rw [modPort_ports]
  split
  next hv => rw [length_lmod, hv]
  next => rfl
/-- A port without what a request's course changes of it: KIND, the engine, WK and Q. -/
def settledPart (x : Machine.Port) : Machine.Port := { x with kind := 7, inst := 0, wk := false, q := false }
theorem modPort_settledPart (c : Core) (w p : Nat) {f : Machine.Port → Machine.Port} (hf : ∀ x, settledPart (f x) = settledPart x) (v q : Nat) :
    settledPart (portAt (c.modPort w p f) v q) = settledPart (portAt c v q) := by
  rw [portAt, modPort_ports]
  split
  next hv =>
    rw [getD_lmod, hv]
    split
    · exact hf _
    · rfl
  next => rfl

/-! ## Grants to other instances (R221 to R223) -/

/-- From `c` to `d` the ports have kept all but the course of their requests; memory and the time stand. -/
structure KeepsPorts (c d : Core) : Prop where
  now : d.now = c.now
  cur : d.cur = c.cur
  mem : d.mem = c.mem
  length : ∀ w, (d.weave w).ports.length = (c.weave w).ports.length
  port : ∀ w p, settledPart (portAt d w p) = settledPart (portAt c w p)
/-- From `c` to `d` an engine has kept all but its field test. -/
structure KeepsEngine (sec kind i : Nat) (c d : Core) : Prop where
  has : HasEngine c sec kind i → HasEngine d sec kind i
  eng : ∃ testing, d.eng sec kind i = { c.eng sec kind i with testing := testing }

namespace KeepsPorts
theorem of_weaves {c d : Core} (hnow : d.now = c.now) (hcur : d.cur = c.cur) (hmem : d.mem = c.mem) (hweaves : d.weaves = c.weaves) :
    KeepsPorts c d where
  now := hnow
  cur := hcur
  mem := hmem
  length := fun w => by rw [weave_congr hweaves]
  port := fun w p => by rw [portAt, weave_congr hweaves]; rfl
theorem refl (c : Core) : KeepsPorts c c := of_weaves rfl rfl rfl rfl
theorem trans {c d e : Core} (h : KeepsPorts c d) (g : KeepsPorts d e) : KeepsPorts c e where
  now := g.now.trans h.now
  cur := g.cur.trans h.cur
  mem := g.mem.trans h.mem
  length := fun w => (g.length w).trans (h.length w)
  port := fun w p => (g.port w p).trans (h.port w p)
theorem foldl {α : Type} {f : Core → α → Core} (h : ∀ c x, KeepsPorts c (f c x)) (xs : List α) : ∀ c, KeepsPorts c (xs.foldl f c) := by
  induction xs with
  | nil => exact refl
  | cons x xs ih => exact fun c => (h c x).trans (ih _)
theorem modEng (c : Core) (sec kind i : Nat) (f : Engine → Engine) : KeepsPorts c (c.modEng sec kind i f) := of_weaves rfl rfl rfl rfl
theorem sched (c : Core) (t b n : Nat) (a : Act) : KeepsPorts c (c.sched t b n a) := of_weaves rfl rfl rfl rfl
theorem unsched (c : Core) (p : Act → Bool) : KeepsPorts c (c.unsched p) := of_weaves rfl rfl rfl rfl
theorem modPort (c : Core) (w p : Nat) {f : Machine.Port → Machine.Port} (hf : ∀ x, settledPart (f x) = settledPart x) :
    KeepsPorts c (c.modPort w p f) where
  now := rfl
  cur := rfl
  mem := rfl
  length := fun v => modPort_length c w p v f
  port := modPort_settledPart c w p hf
end KeepsPorts
namespace KeepsEngine
theorem of_sectors {sec kind i : Nat} {c d : Core} (h : d.sectors = c.sectors) : KeepsEngine sec kind i c d where
  has := fun hc => by rwa [hasEngine_iff, Core.sector, h, ← Core.sector, ← hasEngine_iff]
  eng := ⟨_, eng_congr h sec kind i⟩
theorem refl (sec kind i : Nat) (c : Core) : KeepsEngine sec kind i c c := of_sectors rfl
theorem trans {sec kind i : Nat} {c d e : Core} (h : KeepsEngine sec kind i c d) (g : KeepsEngine sec kind i d e) :
    KeepsEngine sec kind i c e where
  has := fun hc => g.has (h.has hc)
  eng := by
    obtain ⟨_, hd⟩ := h.eng
    obtain ⟨testing, he⟩ := g.eng
    exact ⟨testing, by rw [he, hd]⟩
theorem foldl {α : Type} {sec kind i : Nat} {f : Core → α → Core} (h : ∀ c x, KeepsEngine sec kind i c (f c x)) (xs : List α) :
    ∀ c, KeepsEngine sec kind i c (xs.foldl f c) := by
  induction xs with
  | nil => exact refl sec kind i
  | cons x xs ih => exact fun c => (h c x).trans (ih _)
theorem modEng_other {sec kind i : Nat} (c : Core) {sec' kind' i' : Nat} (f : Engine → Engine) (h : (sec, kind, i) ≠ (sec', kind', i')) :
    KeepsEngine sec kind i c (c.modEng sec' kind' i' f) where
  has := (modEng_hasEngine ..).mpr
  eng := ⟨_, modEng_eng_other c f h⟩
theorem modEng_testing (c : Core) (sec kind i sec' kind' i' : Nat) (b : Bool) :
    KeepsEngine sec kind i c (c.modEng sec' kind' i' fun e => { e with testing := b }) where
  has := (modEng_hasEngine ..).mpr
  eng := by
    by_cases h : (sec, kind, i) = (sec', kind', i')
    · obtain ⟨rfl, rfl, rfl⟩ := h
      by_cases hh : HasEngine c sec kind i
      · exact ⟨b, modEng_eng_same hh _⟩
      · exact ⟨_, by rw [eng_of_none hh, eng_of_none fun h => hh ((modEng_hasEngine ..).mp h)]⟩
    · exact ⟨_, modEng_eng_other c _ h⟩
end KeepsEngine
theorem abandonTest_keepsEngine (c : Core) (sec kind i sec' kind' i' : Nat) : KeepsEngine sec kind i c (c.abandonTest sec' kind' i') :=
  (KeepsEngine.modEng_testing c sec kind i sec' kind' i' false).trans (.of_sectors rfl)
theorem yieldTests_keepsEngine (c : Core) (sec kind i sec' : Nat) : KeepsEngine sec kind i c (c.yieldTests sec') := by
  unfold Core.yieldTests
  extract_lets deck
  split
  · exact .refl sec kind i c
  · refine .foldl (fun d p => ?_) _ c
    obtain ⟨k, j⟩ := p
    dsimp only
    split
    · exact abandonTest_keepsEngine ..
    · exact .refl sec kind i d
/-- From `c` to `d` weaves, memory and the time stand. -/
structure SameWeaves (c d : Core) : Prop where
  now : d.now = c.now
  cur : d.cur = c.cur
  mem : d.mem = c.mem
  weaves : d.weaves = c.weaves
theorem SameWeaves.trans {c d e : Core} (h : SameWeaves c d) (g : SameWeaves d e) : SameWeaves c e :=
  ⟨g.now.trans h.now, g.cur.trans h.cur, g.mem.trans h.mem, g.weaves.trans h.weaves⟩
theorem SameWeaves.foldl {α : Type} {f : Core → α → Core} (h : ∀ c x, SameWeaves c (f c x)) (xs : List α) : ∀ c, SameWeaves c (xs.foldl f c) := by
  induction xs with
  | nil => exact fun c => ⟨rfl, rfl, rfl, rfl⟩
  | cons x xs ih => exact fun c => (h c x).trans (ih _)
theorem SameWeaves.keepsPorts {c d : Core} (h : SameWeaves c d) : KeepsPorts c d := .of_weaves h.now h.cur h.mem h.weaves
theorem yieldTests_sameWeaves (c : Core) (sec : Nat) : SameWeaves c (c.yieldTests sec) := by
  unfold Core.yieldTests
  extract_lets deck
  split
  · exact ⟨rfl, rfl, rfl, rfl⟩
  · refine .foldl (fun d p => ?_) _ c
    obtain ⟨k, j⟩ := p
    dsimp only
    split
    · exact ⟨rfl, rfl, rfl, rfl⟩
    · exact ⟨rfl, rfl, rfl, rfl⟩
/-- An engine that wakes for a request (R223). -/
def woken (kind now : Nat) (r : LeaseReq) (e : Engine) : Engine :=
  { e with waking := some (r.weave, r.port), asked := some r, wokeAt := now, div := 1, charge := Config.weight kind }
/-- A port whose request an engine wakes for. -/
def wakes (kind i : Nat) (x : Machine.Port) : Machine.Port := { x with kind := kind, inst := i, wk := true, q := false }
/-- The machine before the request's port is told that its engine wakes. -/
def waking (c : Core) (sec kind i : Nat) (r : LeaseReq) : Core :=
  ((((c.abandonTest sec kind i).unsched fun a => a == .leasePromotion sec kind i r.weave r.port).modEng sec kind i (woken kind c.now r)).yieldTests sec)
theorem wake_eq (c : Core) (sec kind i : Nat) (r : LeaseReq) : c.wake sec kind i r =
    ((waking c sec kind i r).modPort r.weave r.port (wakes kind i)).sched ((waking c sec kind i r).now + Config.wake kind) bLand
      (engRank (.pool sec kind i)) (.leaseGrant sec kind i) := rfl
theorem waking_sameWeaves (c : Core) (sec kind i : Nat) (r : LeaseReq) : SameWeaves c (waking c sec kind i r) := by
  let d := ((c.abandonTest sec kind i).unsched fun a => a == .leasePromotion sec kind i r.weave r.port).modEng sec kind i (woken kind c.now r)
  have hd : SameWeaves c d := ⟨rfl, rfl, rfl, rfl⟩
  exact hd.trans (yieldTests_sameWeaves d sec)
theorem wakes_settledPart (kind i : Nat) (x : Machine.Port) : settledPart (wakes kind i x) = settledPart x := rfl
theorem wake_keepsPorts (c : Core) (sec kind i : Nat) (r : LeaseReq) : KeepsPorts c (c.wake sec kind i r) := by
  rw [wake_eq]
  exact ((waking_sameWeaves c sec kind i r).keepsPorts.trans (.modPort _ r.weave r.port (wakes_settledPart kind i))).trans (.sched _ _ _ _ _)
/-- An engine wakes; another one keeps its lease. -/
theorem wake_keepsEngine {c : Core} {sec kind i sec' kind' i' : Nat} (h : (sec, kind, i) ≠ (sec', kind', i')) (r : LeaseReq) :
    KeepsEngine sec kind i c (c.wake sec' kind' i' r) := by
  let d := (c.abandonTest sec' kind' i').unsched fun a => a == .leasePromotion sec' kind' i' r.weave r.port
  have hd : KeepsEngine sec kind i c d := (abandonTest_keepsEngine c sec kind i sec' kind' i').trans (.of_sectors rfl)
  have hwaking : KeepsEngine sec kind i c (waking c sec' kind' i' r) :=
    (hd.trans (.modEng_other d (woken kind' c.now r) h)).trans (yieldTests_keepsEngine ..)
  rw [wake_eq]
  exact hwaking.trans (.of_sectors rfl)
/-- The engine that wakes. -/
theorem wake_eng {c : Core} {sec kind i : Nat} (h : HasEngine c sec kind i) (r : LeaseReq) :
    ∃ testing, (c.wake sec kind i r).eng sec kind i = { woken kind c.now r (c.eng sec kind i) with testing := testing } := by
  let d := (c.abandonTest sec kind i).unsched fun a => a == .leasePromotion sec kind i r.weave r.port
  obtain ⟨hhas, _, heng⟩ := (abandonTest_keepsEngine c sec kind i sec kind i).trans (.of_sectors (d := d) rfl)
  obtain ⟨testing, hyield⟩ := (yieldTests_keepsEngine (d.modEng sec kind i (woken kind c.now r)) sec kind i sec).eng
  refine ⟨testing, ?_⟩
  rw [modEng_eng_same (hhas h), heng] at hyield
  exact hyield
theorem mem_budgetWaiters {c : Core} {sec kind i : Nat} {r : LeaseReq} (h : (kind, i, r) ∈ c.budgetWaiters sec) :
    (c.eng sec kind i).free = true ∧ (c.eng sec kind i).queue.head? = some r := by
  obtain ⟨⟨k, j⟩, -, hwaits⟩ := List.mem_filterMap.mp h
  dsimp only at hwaits
  split at hwaits
  next hfree =>
    obtain ⟨r', hhead, heq⟩ := Option.map_eq_some_iff.mp hwaits
    obtain ⟨rfl, rfl, rfl⟩ : k = kind ∧ j = i ∧ r' = r := by simpa using heq
    exact ⟨(Bool.and_eq_true_iff.mp hfree).1, hhead⟩
  next => exact absurd hwaits (by simp)
theorem firstWaiter_mem {xs : List (Nat × Nat × LeaseReq)} {x : Nat × Nat × LeaseReq} (h : firstWaiter xs = some x) : x ∈ xs := by
  induction xs with
  | nil => exact absurd h (by simp [firstWaiter])
  | cons y ys ih =>
    rw [firstWaiter] at h
    split at h
    next z hz =>
      split at h
      · exact List.mem_cons_of_mem _ (ih (hz.trans h))
      · exact Option.some.inj h ▸ List.mem_cons_self
    next => exact Option.some.inj h ▸ List.mem_cons_self
/-- The first of the waiters of several sectors, in key order. -/
def bestWaiter (secs : List (Nat × Nat × Nat × LeaseReq)) : Option (Nat × Nat × Nat × LeaseReq) :=
  secs.foldl (fun (acc : Option (Nat × Nat × Nat × LeaseReq)) x =>
    match acc with
    | none => some x
    | some y => if reqBefore x.2.2.2 y.2.2.2 then some x else some y) none
/-- A fold that keeps its accumulator or takes the element finds nothing but elements. -/
theorem mem_of_foldl_some {α : Type} {f : Option α → α → Option α} (hf : ∀ acc x y, f acc x = some y → acc = some y ∨ x = y) (xs : List α) :
    ∀ acc y, xs.foldl f acc = some y → acc = some y ∨ y ∈ xs := by
  induction xs with
  | nil => exact fun _ _ h => .inl h
  | cons x xs ih =>
    intro acc y h
    refine (ih (f acc x) y h).elim (fun hacc => (hf acc x y hacc).imp id fun hx => ?_) fun hy => .inr (List.mem_cons_of_mem _ hy)
    exact hx ▸ List.mem_cons_self
theorem bestWaiter_mem {secs : List (Nat × Nat × Nat × LeaseReq)} {x : Nat × Nat × Nat × LeaseReq} (h : bestWaiter secs = some x) : x ∈ secs := by
  refine (mem_of_foldl_some (fun acc y z hz => ?_) secs none x h).resolve_left (by simp)
  cases acc with
  | none => exact .inr (Option.some.inj hz)
  | some a =>
    dsimp only at hz
    split at hz
    · exact .inr (Option.some.inj hz)
    · exact .inl hz
/-- An engine that no budget waiter is for: it does not sleep, or nothing waits for it. -/
def PassedOver (c : Core) (sec kind i : Nat) : Prop := (c.eng sec kind i).free = false ∨ (c.eng sec kind i).queue = []
theorem PassedOver.keeps {c d : Core} {sec kind i : Nat} (h : PassedOver c sec kind i) (hkeep : KeepsEngine sec kind i c d) :
    PassedOver d sec kind i := by
  obtain ⟨testing, heng⟩ := hkeep.eng
  rw [PassedOver, heng]
  exact h
theorem PassedOver.ne {c : Core} {sec kind i sec' kind' i' : Nat} {r : LeaseReq} (h : PassedOver c sec kind i)
    (hwaits : (kind', i', r) ∈ c.budgetWaiters sec') : (sec, kind, i) ≠ (sec', kind', i') := by
  rintro ⟨rfl, rfl, rfl⟩
  obtain ⟨hfree, hhead⟩ := mem_budgetWaiters hwaits
  rcases h with h | h
  · exact absurd (hfree.symm.trans h) (by decide)
  · exact absurd hhead (by simp [h])
theorem grantDeck_keepsPorts (deck n : Nat) : ∀ (stopped : List Nat) (c : Core), KeepsPorts c (c.grantDeck deck n stopped) := by
  induction n with
  | zero => exact fun _ c => .refl c
  | succ n ih =>
    intro stopped c
    unfold Core.grantDeck
    extract_lets secs best
    clear_value best
    rcases best with _ | ⟨m, k, j, r⟩
    · exact .refl c
    · dsimp only
      split
      · exact ih _ c
      · split
        · exact .refl c
        · exact ((KeepsPorts.modEng c m k j _).trans (wake_keepsPorts _ m k j r)).trans (ih _ _)
theorem grantDeck_keepsEngine {sec kind i : Nat} (deck n : Nat) : ∀ (stopped : List Nat) (c : Core), PassedOver c sec kind i →
    KeepsEngine sec kind i c (c.grantDeck deck n stopped) := by
  induction n with
  | zero => exact fun _ c _ => .refl sec kind i c
  | succ n ih =>
    intro stopped c hpassed
    unfold Core.grantDeck
    extract_lets secs best
    have hbest : ∀ x, best = some x → (x.2.1, x.2.2.1, x.2.2.2) ∈ c.budgetWaiters x.1 := by
      intro x hx
      obtain ⟨⟨m, y⟩, -, hm⟩ := List.mem_filterMap.mp (bestWaiter_mem hx)
      dsimp only at hm
      split at hm
      · obtain ⟨z, hz, rfl⟩ := Option.map_eq_some_iff.mp hm
        exact firstWaiter_mem hz
      · exact absurd hm (by simp)
    clear_value best
    rcases best with _ | ⟨m, k, j, r⟩
    · exact .refl sec kind i c
    · have hne := hpassed.ne (hbest _ rfl)
      dsimp only
      split
      · exact ih _ c hpassed
      · split
        · exact .refl sec kind i c
        · have hwake := (KeepsEngine.modEng_other c (fun e => { e with queue := e.queue.drop 1 }) hne).trans (wake_keepsEngine hne r)
          exact hwake.trans (ih _ _ (hpassed.keeps hwake))
theorem chargesFell_keepsPorts (c : Core) (sec : Nat) : KeepsPorts c (c.chargesFell sec) := grantDeck_keepsPorts ..
theorem chargesFell_keepsEngine {c : Core} {sec kind i : Nat} (h : PassedOver c sec kind i) (sec' : Nat) :
    KeepsEngine sec kind i c (c.chargesFell sec') := grantDeck_keepsEngine _ _ _ c h

/-! ## Sleep, withdrawal, drain (R222, R225, R226) -/

/-- An engine that sleeps. -/
def asleep (e : Engine) : Engine :=
  { e with holder := none, waking := none, asked := none, draining := none, div := 1, charge := 0, graceAt := none }
theorem sleep_eq (c : Core) (sec kind i : Nat) : c.sleep sec kind i = (c.modEng sec kind i asleep).chargesFell sec := rfl
theorem sleep_keepsPorts (c : Core) (sec kind i : Nat) : KeepsPorts c (c.sleep sec kind i) :=
  (KeepsPorts.modEng c sec kind i asleep).trans (chargesFell_keepsPorts (c.modEng sec kind i asleep) sec)
/-- An engine that nothing waits for sleeps on. -/
theorem sleep_eng {c : Core} {sec kind i : Nat} (h : HasEngine c sec kind i) (hqueue : (c.eng sec kind i).queue = []) :
    ∃ testing, (c.sleep sec kind i).eng sec kind i = { asleep (c.eng sec kind i) with testing := testing } := by
  have heng := modEng_eng_same h asleep
  obtain ⟨testing, hfell⟩ := (chargesFell_keepsEngine (.inr (by rw [heng]; exact hqueue)) sec).eng
  exact ⟨testing, by rw [sleep_eq, hfell, heng]⟩
theorem withdraw_keepsPorts (c : Core) (w p : Nat) : KeepsPorts c (c.withdraw w p) := by
  unfold Core.withdraw
  extract_lets x sec e d
  have hd : KeepsPorts c d := .unsched c _
  split
  · exact hd.trans (.modEng d ..)
  · split
    · exact (hd.trans (.unsched d _)).trans (sleep_keepsPorts ..)
    · exact hd
end Sys2Proof.Proofs
end
section
/-! SUPPORT. The lease words (R133 to R136, R220), for O35. -/
namespace Sys2Proof.Proofs
open Sys2Proof.Machine Sys2Proof.Claims Sys2Proof.Laws

/-! ## Requests (R133, R220) -/

/-- A port whose request an engine's queue holds. -/
def queued (kind i : Nat) (x : Machine.Port) : Machine.Port := { x with kind := kind, inst := i, q := true, wk := false }
theorem enqueue_eq (c : Core) (sec kind i : Nat) (r : LeaseReq) : c.enqueue sec kind i r =
    ((c.modEng sec kind i fun e => { e with queue := insertReq r e.queue }).modPort r.weave r.port (queued kind i)).schedWall Config.msUnits bLand
      (engRank (.pool sec kind i)) (.leasePromotion sec kind i r.weave r.port) := rfl
theorem enqueue_keepsPorts (c : Core) (sec kind i : Nat) (r : LeaseReq) : KeepsPorts c (c.enqueue sec kind i r) := by
  have hport : KeepsPorts c ((c.modEng sec kind i fun e => { e with queue := insertReq r e.queue }).modPort r.weave r.port (queued kind i)) :=
    (KeepsPorts.modEng c sec kind i _).trans (.modPort _ r.weave r.port fun _ => rfl)
  rw [enqueue_eq]
  exact hport.trans (.of_weaves rfl rfl rfl rfl)
theorem enqueue_eng {c : Core} {sec kind i : Nat} (h : HasEngine c sec kind i) (r : LeaseReq) :
    (c.enqueue sec kind i r).eng sec kind i = { c.eng sec kind i with queue := insertReq r (c.eng sec kind i).queue } := by
  rw [enqueue_eq]
  exact modEng_eng_same h fun e => { e with queue := insertReq r e.queue }
theorem enqueue_portAt {c : Core} {r : LeaseReq} (h : r.port < (c.weave r.weave).ports.length) (sec kind i : Nat) :
    portAt (c.enqueue sec kind i r) r.weave r.port = queued kind i (portAt c r.weave r.port) := by
  rw [enqueue_eq]
  exact modPort_portAt_same (c := c.modEng sec kind i fun e => { e with queue := insertReq r e.queue }) h (queued kind i)
/-- The port whose request an engine wakes for. -/
theorem wake_portAt {c : Core} {r : LeaseReq} (h : r.port < (c.weave r.weave).ports.length) (sec kind i : Nat) :
    portAt (c.wake sec kind i r) r.weave r.port = wakes kind i (portAt c r.weave r.port) := by
  have hweaves := (waking_sameWeaves c sec kind i r).weaves
  rw [wake_eq]
  refine (modPort_portAt_same (by rwa [weave_congr hweaves]) (wakes kind i)).trans ?_
  rw [portAt_congr hweaves]
theorem wake_mem_agenda (c : Core) (sec kind i : Nat) (r : LeaseReq) :
    ⟨.cycle (c.now + Config.wake kind), bLand, engRank (.pool sec kind i), .leaseGrant sec kind i⟩ ∈ (c.wake sec kind i r).agenda := by
  rw [wake_eq, (waking_sameWeaves c sec kind i r).now]
  exact List.mem_append_right _ (List.mem_singleton.mpr rfl)
/-- The request of a `lease` (R219). -/
def leaseRequest (s : State) (p : Nat) : LeaseReq := ⟨s.core.cur, p, ((s.rd.launchOf s.core.cur).map (·.prio)).getD 0, s.now, false⟩
/-- Where the request of a `lease` goes, if anywhere. -/
def leased (s : State) (kind p : Nat) : Option Core :=
  s.core.request s.sec kind s.core.cur p (((s.rd.launchOf s.core.cur).map (·.prio)).getD 0)
theorem leased_wakes {s : State} {kind i : Nat} (p : Nat)
    (hidle : (s.core.instances s.sec kind).find? (fun i => (s.core.eng s.sec kind i).idle) = some i) (hfits : s.core.fits s.sec kind 0 = true)
    (hfirst : ¬ ∃ y ∈ s.core.budgetWaiters s.sec, reqBefore y.2.2 (leaseRequest s p) = true) :
    leased s kind p = some (s.core.wake s.sec kind i (leaseRequest s p)) := by
  have hearlier : (s.core.budgetWaiters s.sec).any (fun y => reqBefore y.2.2 (leaseRequest s p)) = false :=
    Bool.eq_false_iff.mpr fun h => hfirst (List.any_eq_true.mp h)
  simp only [leased, Core.request, hidle, hfits]
  exact congrArg some (if_pos (congrArg (!·) hearlier))
theorem leased_queues {s : State} {kind i : Nat} (p : Nat)
    (hidle : (s.core.instances s.sec kind).find? (fun i => (s.core.eng s.sec kind i).idle) = some i)
    (hwaits : s.core.fits s.sec kind 0 = false ∨ ∃ y ∈ s.core.budgetWaiters s.sec, reqBefore y.2.2 (leaseRequest s p) = true) :
    leased s kind p = some ((s.core.abandonTest s.sec kind i).enqueue s.sec kind i (leaseRequest s p)) := by
  have hnot : ¬ (s.core.fits s.sec kind 0 && !(s.core.budgetWaiters s.sec).any fun y => reqBefore y.2.2 (leaseRequest s p)) = true := by
    rw [Bool.and_eq_true, Bool.not_eq_true']
    rintro ⟨hfits, hearlier⟩
    refine hwaits.elim (fun h => absurd (hfits.symm.trans h) (by decide)) fun h => ?_
    exact absurd ((List.any_eq_true.mpr h).symm.trans hearlier) (by decide)
  simp only [leased, Core.request, hidle]
  exact congrArg some (if_neg hnot)
/-- Where no engine is idle, the one with the shortest queue has it, if there is one. -/
theorem leased_busy {s : State} {kind : Nat} (p : Nat)
    (hbusy : (s.core.instances s.sec kind).find? (fun i => (s.core.eng s.sec kind i).idle) = none) :
    leased s kind p = (s.core.shortest s.sec kind).map fun i => s.core.enqueue s.sec kind i (leaseRequest s p) := by
  simp only [leased, Core.request, hbusy]
  rfl
/-- What a `lease` comes to: the request has its place, or no queue has room for it. -/
def placed (s : State) (p : Nat) : Option Core → State
  | none => s.engJob p 4 0
  | some c => { s with core := c }
section
variable {s : State} {p : Sys2Proof.Port} {kind : BitVec 3} (hp : p.toNat ≠ 3) (hkind : kind.toNat < 6)
include hp hkind

theorem exec_lease (hfree : (portRead s p).kind = 7) :
    Machine.exec (.lease p kind) s = .next (placed s p.toNat (leased s kind.toNat p.toNat)) := by
  have hplaced : ∀ o : Option Core, (match o with | none => s.engJob p.toNat 4 0 | some c => { s with core := c }) = placed s p.toNat o :=
    fun o => by cases o <;> rfl
  show Host.Outcome.next _ = _
  rw [if_neg (not_or.mpr ⟨hp, by omega⟩), ← hplaced]
  exact congrArg Host.Outcome.next (if_neg (not_not.mpr hfree))
theorem exec_lease_held (hheld : (portRead s p).kind ≠ 7) : Machine.exec (.lease p kind) s = .next (s.engJob p.toNat 4 0) := by
  show Host.Outcome.next _ = _
  rw [if_neg (not_or.mpr ⟨hp, by omega⟩)]
  exact congrArg Host.Outcome.next (if_pos hheld)
end

/-! ## Release (R134, R225, R226) -/

/-- A port whose lease group has its reset values (R45, R226). -/
def unleased (ev : Bool) (x : Machine.Port) : Machine.Port := { x with
  kind := 7, ev := ev, ew := false, tw := if ev then x.tw else false, q := false, wk := false, g := false, termStart := 0, termWords := 0 }
theorem resetPort_eq (c : Core) (w p : Nat) (ev : Bool) : c.resetPort w p ev = c.modPort w p (unleased ev) := rfl
/-- A lease that goes to its drain. -/
def drains (w p : Nat) (e : Engine) : Engine := { e with holder := none, draining := some (w, p) }
theorem startDrain_eq (c : Core) (w p : Nat) : ∃ es,
    c.startDrain w p = { c.modEng (secOf w) (portAt c w p).kind (portAt c w p).inst (drains w p) with agenda := es } := by
  unfold Core.startDrain
  extract_lets x sec d e
  split
  · exact ⟨_, rfl⟩
  · exact ⟨_, rfl⟩
theorem startDrain_eng {c : Core} {w p sec kind i : Nat} (hsec : secOf w = sec) (hkind : (portAt c w p).kind = kind) (hinst : (portAt c w p).inst = i)
    (h : HasEngine c sec kind i) : (c.startDrain w p).eng sec kind i = drains w p (c.eng sec kind i) := by
  obtain ⟨es, heq⟩ := startDrain_eq c w p
  rw [heq, hsec, hkind, hinst]
  exact modEng_eng_same h (drains w p)
theorem startDrain_sameWeaves (c : Core) (w p : Nat) : SameWeaves c (c.startDrain w p) := by
  obtain ⟨es, heq⟩ := startDrain_eq c w p
  rw [heq]
  exact ⟨rfl, rfl, rfl, rfl⟩
/-- A queued request that is withdrawn leaves its queue. -/
theorem withdraw_queue {c : Core} {w p : Nat} (hq : (portAt c w p).q = true)
    (h : HasEngine c (secOf w) (portAt c w p).kind (portAt c w p).inst) :
    ((c.withdraw w p).eng (secOf w) (portAt c w p).kind (portAt c w p).inst).queue =
      (c.eng (secOf w) (portAt c w p).kind (portAt c w p).inst).queue.filter fun r => !(r.weave == w && r.port == p) := by
  have heq : c.withdraw w p = (c.unsched fun a => a == .leasePromotion (secOf w) (portAt c w p).kind (portAt c w p).inst w p).modEng (secOf w)
      (portAt c w p).kind (portAt c w p).inst fun e => { e with queue := e.queue.filter fun r => !(r.weave == w && r.port == p) } := if_pos hq
  rw [heq]
  exact congrArg Engine.queue (modEng_eng_same h _)

/-- The machine after a `rel` of a leased port. -/
def released (c : Core) (p : Nat) (x : Machine.Port) : Core :=
  (if x.g then c.startDrain c.cur p else c.withdraw c.cur p).resetPort (if x.g then c.startDrain c.cur p else c.withdraw c.cur p).cur p false
theorem exec_rel {s : State} {p : Sys2Proof.Port} (hp : p.toNat ≠ 3) (hkind : (portRead s p).kind ≠ 7) :
    Machine.exec (.rel p) s = .next { s with core := released s.core p.toNat (portRead s p) } := by
  show Host.Outcome.next _ = _
  rw [if_neg hp]
  exact congrArg Host.Outcome.next (if_neg hkind)
theorem before_release_keepsPorts (c : Core) (p : Nat) (x : Machine.Port) :
    KeepsPorts c (if x.g then c.startDrain c.cur p else c.withdraw c.cur p) := by
  split
  · exact (startDrain_sameWeaves c c.cur p).keepsPorts
  · exact withdraw_keepsPorts c c.cur p
theorem released_eq (c : Core) (p : Nat) (x : Machine.Port) : released c p x =
    (if x.g then c.startDrain c.cur p else c.withdraw c.cur p).modPort c.cur p (unleased false) := by
  rw [released, (before_release_keepsPorts c p x).cur]
  rfl
theorem released_mem (c : Core) (p : Nat) (x : Machine.Port) : (released c p x).mem = c.mem := by
  rw [released_eq]
  exact (before_release_keepsPorts c p x).mem
theorem released_port {c : Core} {p : Nat} (h : p < (c.weave c.cur).ports.length) (x : Machine.Port) :
    ∃ y, settledPart y = settledPart (portAt c c.cur p) ∧ portAt (released c p x) c.cur p = unleased false y := by
  have hkeep := before_release_keepsPorts c p x
  rw [released_eq]
  exact ⟨_, hkeep.port c.cur p, modPort_portAt_same (by rwa [hkeep.length]) _⟩
theorem released_cur (c : Core) (p : Nat) (x : Machine.Port) : (released c p x).cur = c.cur := by
  rw [released_eq]
  exact (before_release_keepsPorts c p x).cur

/-! ## The lease group (R135, R136) -/

/-- A bit of a lease group. -/
theorem bnat_mul (b : Bool) (i : Nat) : bnat b * 2 ^ i = if b then 2 ^ i else 0 := by
  cases b
  · exact Nat.zero_mul _
  · exact Nat.one_mul _

theorem leaseWords : Claims.LeaseWords := by
  intro s p kind d w k x n prio req idle earlier bit group
  have hport : ∀ c : Core, c.cur = w → portOf { s with core := c } k = portAt c w k := fun c hc => by rw [portOf, me, hc]; rfl
  refine ⟨fun hk i hi => ?copyPort, fun hn => congrArg Host.Outcome.next (if_pos (.inr hn)), fun hk hn hx => exec_lease_held hk hn hx, fun hk hn hx hlen => ⟨fun i hidle hhas hfits hfirst => ?wakes,
    fun i hi hhas => ?queues, fun hbusy hfull => ?full⟩, fun hk hx => ?unleased, fun hk hx hsame hlen hhas => ?releases, fun hk => ?lqry, fun hk h => ?settled,
    fun hk hg hx hev hfpx => ?waits⟩
  case copyPort =>
    simp only [List.mem_cons, List.not_mem_nil, or_false] at hi
    rcases hi with rfl | rfl | rfl | rfl
    · exact congrArg Host.Outcome.next (if_pos (.inl hk))
    all_goals exact congrArg Host.Outcome.next (if_pos hk)
  case wakes =>
    have hwake := wake_keepsPorts s.core s.sec n i req
    obtain ⟨testing, heng⟩ := wake_eng hhas req
    refine ⟨_, (exec_lease hk hn hx).trans (congrArg (fun o => Host.Outcome.next (placed s k o)) (leased_wakes k hidle hfits hfirst)),
      hwake.mem, ?_, ?_, ?_, wake_mem_agenda s.core s.sec n i req⟩
    · exact (hport _ hwake.cur).trans (wake_portAt (r := req) hlen s.sec n i)
    · exact (congrArg Engine.waking heng :)
    · exact (congrArg Engine.charge heng :)
  case queues =>
    have hexec : ∀ c, leased s n k = some c → Machine.exec (.lease p kind) s = .next { s with core := c } := fun c h =>
      (exec_lease hk hn hx).trans (congrArg (fun o => Host.Outcome.next (placed s k o)) h)
    rcases hi with ⟨hidle, hwaits⟩ | ⟨hbusy, hshort⟩
    · have hkeep := enqueue_keepsPorts (s.core.abandonTest s.sec n i) s.sec n i req
      obtain ⟨hhas', _, heng⟩ := abandonTest_keepsEngine s.core s.sec n i s.sec n i
      refine ⟨_, hexec _ (leased_queues k hidle hwaits), hkeep.mem, ?_, ?_⟩
      · exact (hport _ hkeep.cur).trans (enqueue_portAt (c := s.core.abandonTest s.sec n i) (r := req) hlen s.sec n i)
      · refine (congrArg Engine.queue (enqueue_eng (hhas' hhas) req)).trans ?_
        rw [heng]
    · have hkeep := enqueue_keepsPorts s.core s.sec n i req
      have hleased := (leased_busy k (Option.eq_none_iff_forall_ne_some.mpr hbusy)).trans (congrArg (Option.map _) hshort)
      refine ⟨_, hexec _ hleased, hkeep.mem, (hport _ hkeep.cur).trans (enqueue_portAt (r := req) hlen s.sec n i), ?_⟩
      exact congrArg Engine.queue (enqueue_eng hhas req)
  case full =>
    have hleased := (leased_busy k (Option.eq_none_iff_forall_ne_some.mpr hbusy)).trans (congrArg (Option.map _) hfull)
    exact (exec_lease hk hn hx).trans (congrArg (fun o => Host.Outcome.next (placed s k o)) hleased)
  case unleased =>
    exact congrArg Host.Outcome.next ((if_neg hk).trans (if_pos hx))
  case releases =>
    have hx' : portAt s.core w k = x := hsame
    obtain ⟨y, hy, hreset⟩ := released_port (x := x) hlen
    have ht := (hport (released s.core k x) (released_cur s.core k x)).trans hreset
    have hkept : settledPart y = settledPart x := hy.trans (congrArg settledPart hx')
    refine ⟨_, exec_rel hk hx, released_mem s.core k x, ?_, ?_, ?_, fun hg => ?_, fun hg hq r hr hw => ?_⟩
    · rw [ht]
      rfl
    · rw [ht]
      exact (congrArg Machine.Port.stack hkept :)
    · rw [ht]
      exact (congrArg Machine.Port.pstd hkept :)
    · have heng := startDrain_eng (c := s.core) (w := w) (p := k) rfl (congrArg Machine.Port.kind hx') (congrArg Machine.Port.inst hx') hhas
      have hdrains : (released s.core k x).eng s.sec x.kind x.inst = drains w k (s.core.eng s.sec x.kind x.inst) := by
        rw [released_eq, if_pos hg]
        exact heng
      refine ⟨?_, ?_, ?_⟩
      all_goals
        refine (congrArg _ hdrains).trans ?_
        rfl
    · have hqueue := withdraw_queue (c := s.core) (w := w) (p := k) (hx'.symm ▸ hq) (hx'.symm ▸ hhas)
      rw [hx'] at hqueue
      have hleft : ((released s.core k x).eng s.sec x.kind x.inst).queue =
          (s.core.eng s.sec x.kind x.inst).queue.filter fun r => !(r.weave == w && r.port == k) := by
        rw [released_eq, if_neg (ne_true_of_eq_false hg)]
        exact hqueue
      have hr' := (List.mem_filter.mp (hleft ▸ hr)).2
      intro hport
      simp [hw, hport] at hr'
  case lqry =>
    have hgroup : s.rd.leaseGroup w k = group := by
      have hbit : ∀ b i, bnat b * 2 ^ i = bit b i := bnat_mul
      simp only [group, ← hbit, Core.leaseGroup, if_neg hk, Nat.pow_zero, Nat.mul_one]
      rfl
    refine ⟨_, congrArg Host.Outcome.next (if_neg hk), ?_⟩
    rw [← hgroup]
    exact putS_lands s d 1 _
  case settled =>
    refine congrArg Host.Outcome.next ((if_neg hk).trans (if_pos ?_))
    rw [Bool.or_eq_true, Bool.or_eq_true, beq_iff_eq, or_assoc]
    exact h
  case waits =>
    refine congrArg Host.Outcome.next ((if_neg hk).trans ((if_neg ?_).trans (hold_of_fpx hfpx 2 id)))
    rw [Bool.or_eq_true, Bool.or_eq_true, beq_iff_eq, or_assoc]
    exact not_or.mpr ⟨ne_true_of_eq_false hg, not_or.mpr ⟨hx, ne_true_of_eq_false hev⟩⟩
end Sys2Proof.Proofs
end
section
/-! SUPPORT. The course of leases: grants, promotions, terms, drains, handovers and graces (R219, R221 to R225, R228), for O35. -/
namespace Sys2Proof.Proofs
open Sys2Proof.Machine Sys2Proof.Claims Sys2Proof.Laws

/-! ## Rows that are cleared (R224, R259) -/

theorem memGet_memWrite_zero {m : List Host.Cell} (h : Memory.wf m = true) (a n : Nat) {b : Nat} (hb : a ≤ b ∧ b < a + n) :
    memGet (memWrite m a n 0) b = 0 := by
  induction n generalizing m a with
  | zero => omega
  | succ n ih =>
    have hwf := memSet_keeps_wf h a (BitVec.ofNat 8 0)
    by_cases hab : b = a
    · rw [memWrite, memGet_memWrite_other hwf _ _ _ (by omega), hab, memGet_memSet_same h]
      rfl
    · exact ih hwf (a + 1) (by omega)
/-- Rows cleared in the order of a list. -/
def clearRows (c : Core) (rows : List Nat) : Core := rows.foldl (fun c a => c.writeRow a 0 allOnes none) c
theorem clearRows_written (c : Core) (rows : List Nat) : RowsWritten c (clearRows c rows) :=
  .foldl (fun d a => writeRow_written d a 0 allOnes none) rows c
theorem memGet_writeRow_zero {c : Core} (h : Plain c) {a b : Nat} (hb : rowAddr b = rowAddr a ∨ memGet c.mem b = 0) :
    memGet (c.writeRow a 0 allOnes none).mem b = 0 := by
  by_cases hrow : rowAddr b = rowAddr a
  · rw [writeRow_mem h.flips, mergeBits_allOnes]
    exact memGet_memWrite_zero h.wf (rowAddr a) 8 (by unfold rowAddr at *; omega)
  · rw [memGet_writeRow_other h 0 allOnes none hrow]
    exact hb.resolve_left hrow
/-- A byte of a cleared row, and a byte that was 0 before, reads 0. -/
theorem memGet_clearRows {c : Core} (h : Plain c) (rows : List Nat) {b : Nat} (hb : (∃ a ∈ rows, rowAddr b = rowAddr a) ∨ memGet c.mem b = 0) :
    memGet (clearRows c rows).mem b = 0 := by
  induction rows generalizing c with
  | nil => exact hb.resolve_left (by simp)
  | cons a rows ih =>
    refine ih (h.writeRow a 0 allOnes none) ?_
    rcases hb with ⟨a', ha', hrow⟩ | hzero
    · rcases List.mem_cons.mp ha' with rfl | hin
      · exact .inr (memGet_writeRow_zero h (.inl hrow))
      · exact .inl ⟨a', hin, hrow⟩
    · exact .inr (memGet_writeRow_zero h (.inr hzero))
/-- The rows of a TXS scratchpad. -/
def unitRows (sec i : Nat) : List Nat := (List.range 2048).map fun j => txsFlat sec i (2 * j)
theorem mem_unitRows {sec i a : Nat} (ha : a < 16384) : ∃ r ∈ unitRows sec i, rowAddr (txsFlat sec i 0 + a) = rowAddr r := by
  refine ⟨txsFlat sec i (2 * (a / 8)), List.mem_map.mpr ⟨a / 8, List.mem_range.mpr (by omega), rfl⟩, ?_⟩
  simp only [txsFlat, rowAddr, txsBase]
  omega

/-! ## Grants (R224) -/

/-- An engine that a port holds. -/
def holding (kind now w p : Nat) (e : Engine) : Engine := { e with
  holder := some (w, p), waking := none, asked := none, draining := none, wokeAt := now, div := 1, charge := Config.weight kind, graceAt := none }
/-- A port that holds its engine, from the start of a term. -/
def leasing (kind i now : Nat) (x : Machine.Port) : Machine.Port := { x with
  kind := kind, inst := i, wk := false, q := false, g := true, termStart := now, termWords := 0, rowb := none }
/-- The internal state of an engine, cleared. -/
def unitReset (kind i : Nat) (x : Sector) : Sector :=
  match kind with
  | 0 => { x with mxa := Mxa.reset }
  | 1 => { x with gxe := lmod x.gxe i fun _ => Gxe.reset }
  | 2 => { x with txs := lmod x.txs i fun _ => Txs.reset }
  | _ => x
theorem unitReset_engines (kind i : Nat) (x : Sector) : (unitReset kind i x).engines = x.engines := by
  unfold unitReset
  split <;> rfl
/-- The machine at a grant, but for the rows of a TXS. -/
def granting (c : Core) (sec kind i w p : Nat) : Core :=
  ((c.modEng sec kind i (holding kind c.now w p)).modPort w p (leasing kind i c.now)).modSec sec (unitReset kind i)
def grantedRows (c : Core) (sec kind i w p : Nat) : Core :=
  if kind = 2 then clearRows (granting c sec kind i w p) (unitRows sec i) else granting c sec kind i w p
theorem grant_eq (c : Core) (sec kind i w p : Nat) : c.grant sec kind i w p =
    (grantedRows c sec kind i w p).sched ((grantedRows c sec kind i w p).now + Config.termCycles) bLand (engRank (.pool sec kind i))
      (.termEnd sec kind i) := by
  simp only [grantedRows, clearRows, unitRows, List.foldl_map]
  rfl
theorem grantedRows_written (c : Core) (sec kind i w p : Nat) : RowsWritten (granting c sec kind i w p) (grantedRows c sec kind i w p) := by
  unfold grantedRows
  split
  · exact clearRows_written _ _
  · exact .refl _
/-- What a grant leaves of the engine, of the port, of the agenda and of memory. -/
structure Grants (sec kind i w p : Nat) (c d : Core) : Prop where
  eng : d.eng sec kind i = holding kind c.now w p (c.eng sec kind i)
  port : portAt d w p = leasing kind i c.now (portAt c w p)
  ends : ⟨.cycle (c.now + Config.termCycles), bLand, engRank (.pool sec kind i), .termEnd sec kind i⟩ ∈ d.agenda
  mem : kind ≠ 2 → d.mem = c.mem
  cleared : kind = 2 → Plain c → ∀ a, a < 16384 → memGet d.mem (txsFlat sec i 0 + a) = 0
theorem grant_grants {c : Core} {sec kind i w p : Nat} (h : HasEngine c sec kind i) (hp : p < (c.weave w).ports.length) :
    Grants sec kind i w p c (c.grant sec kind i w p) := by
  have hrows := grantedRows_written c sec kind i w p
  have hnow : (grantedRows c sec kind i w p).now = c.now := hrows.now
  have hports : ((grantedRows c sec kind i w p).weave w).ports = ((granting c sec kind i w p).weave w).ports :=
    hrows.weaveField Weave.ports (fun _ => rfl) w
  have hsectors : (grantedRows c sec kind i w p).sectors = (granting c sec kind i w p).sectors :=
    hrows.field Core.sectors fun _ _ _ _ _ _ _ => rfl
  rw [grant_eq]
  refine ⟨?_, ?_, ?_, fun hkind => ?_, fun hkind hplain a ha => ?_⟩
  · refine (eng_congr hsectors sec kind i).trans ((modSec_eng (unitReset_engines kind i) _ sec sec kind i).trans ?_)
    exact modEng_eng_same h (holding kind c.now w p)
  · refine (congrArg (fun ps : List Machine.Port => ps.getD p Port.reset) hports).trans ?_
    exact modPort_portAt_same (c := c.modEng sec kind i (holding kind c.now w p)) hp (leasing kind i c.now)
  · rw [hnow]
    exact List.mem_append_right _ (List.mem_singleton.mpr rfl)
  · exact (congrArg Core.mem (if_neg hkind) :)
  · refine (congrArg (fun d : Core => memGet d.mem (txsFlat sec i 0 + a)) (if_pos hkind)).trans ?_
    exact memGet_clearRows (c := granting c sec kind i w p) ⟨hplain.wf, hplain.flips⟩ (unitRows sec i) (.inl (mem_unitRows ha))
/-! ## Promotions, terms and drains (R219, R221, R222, R225) -/

theorem mem_insertReq (r : LeaseReq) (rs : List LeaseReq) : r ∈ insertReq r rs := by
  induction rs with
  | nil => exact List.mem_cons_self
  | cons y ys ih =>
    rw [insertReq]
    split
    · exact List.mem_cons_self
    · exact List.mem_cons_of_mem _ ih
/-- A waiting request is entered again, promoted. -/
theorem leasePromotion_promotes {s : State} {sec kind i w p : Nat} (h : HasEngine s.core sec kind i) {r : LeaseReq}
    (hr : (s.core.eng sec kind i).queue.find? (fun r => r.weave == w && r.port == p) = some r) :
    ∃ t, Machine.exec (.leasePromotion sec kind i w p) s = .next t ∧ { r with promoted := true } ∈ (t.core.eng sec kind i).queue ∧
      t.core.weaves = s.core.weaves ∧ t.core.mem = s.core.mem := by
  refine ⟨_, rfl, ?_, rfl, rfl⟩
  refine (congrArg (fun e : Engine => { r with promoted := true } ∈ e.queue) (modEng_eng_same h _)).mpr ?_
  simp only [hr]
  exact mem_insertReq _ _
/-- A port at the start of another term. -/
def renewed (now : Nat) (x : Machine.Port) : Machine.Port := { x with termStart := now, termWords := 0 }
/-- A port whose term is over. -/
def termOver (x : Machine.Port) : Machine.Port := { x with tw := true, g := false, termStart := 0, termWords := 0 }
/-- The machine where a lease is renewed. -/
def renewal (c : Core) (sec kind i w p : Nat) : Core :=
  (c.modPort w p (renewed c.now)).sched (c.now + Config.termCycles) bLand (engRank (.pool sec kind i)) (.termEnd sec kind i)
/-- The machine where a lease goes to its drain at the end of its term. -/
def termDrain (c : Core) (w p : Nat) : Core := (c.modPort w p termOver).startDrain w p
/-- The request that a port whose term is over enters. -/
def termRequest (c : Core) (w p : Nat) : LeaseReq := ⟨w, p, ((c.launchOf w).map (·.prio)).getD 0, (termDrain c w p).now, false⟩
section
variable {s : State} {sec kind i w p : Nat} (hholder : (s.core.eng sec kind i).holder = some (w, p))
  (hterm : (portAt s.core w p).termStart + Config.termCycles ≤ s.now ∨ Config.termWords ≤ (portAt s.core w p).termWords)
include hholder hterm

/-- A term that is over, and that nobody waits for the end of. -/
theorem exec_termEnd_renews (hqueue : (s.core.eng sec kind i).queue = []) :
    Machine.exec (.termEnd sec kind i) s = .next { s with core := renewal s.core sec kind i w p } := by
  refine congrArg (fun c : Core => Host.Outcome.next { s with core := c }) ?_
  simp only [hholder]
  exact (if_neg fun h => hterm.elim (Nat.not_le_of_lt h.1) (Nat.not_le_of_lt h.2)).trans (if_pos (by rw [hqueue]; rfl))
/-- A term that is over, and that others wait for the end of. -/
theorem exec_termEnd_drains (hqueue : (s.core.eng sec kind i).queue ≠ []) (hgrace : (s.core.eng sec kind i).graceAt = none) :
    Machine.exec (.termEnd sec kind i) s =
      .next { s with core := (termDrain s.core w p).enqueue sec kind i (termRequest s.core w p) } := by
  refine congrArg (fun c : Core => Host.Outcome.next { s with core := c }) ?_
  simp only [hholder]
  refine (if_neg fun h => hterm.elim (Nat.not_le_of_lt h.1) (Nat.not_le_of_lt h.2)).trans ((if_neg ?_).trans ((if_neg ?_).trans rfl))
  · rwa [List.isEmpty_iff]
  · rw [hgrace]
    exact Bool.false_ne_true
end
theorem termEnd_renews {s : State} {sec kind i w p : Nat} (hp : p < (s.core.weave w).ports.length)
    (hholder : (s.core.eng sec kind i).holder = some (w, p))
    (hterm : (portAt s.core w p).termStart + Config.termCycles ≤ s.now ∨ Config.termWords ≤ (portAt s.core w p).termWords)
    (hqueue : (s.core.eng sec kind i).queue = []) : ∃ t, Machine.exec (.termEnd sec kind i) s = .next t ∧
      ⟨.cycle (s.now + Config.termCycles), bLand, engRank (.pool sec kind i), .termEnd sec kind i⟩ ∈ t.core.agenda ∧
      portAt t.core w p = renewed s.now (portAt s.core w p) ∧ t.core.eng sec kind i = s.core.eng sec kind i :=
  ⟨_, exec_termEnd_renews hholder hterm hqueue, List.mem_append_right _ (List.mem_singleton.mpr rfl),
    modPort_portAt_same hp (renewed s.core.now), eng_congr rfl sec kind i⟩
theorem termEnd_drains {s : State} {sec kind i w p : Nat} (hhas : HasEngine s.core sec kind i) (hp : p < (s.core.weave w).ports.length)
    (hholder : (s.core.eng sec kind i).holder = some (w, p))
    (hterm : (portAt s.core w p).termStart + Config.termCycles ≤ s.now ∨ Config.termWords ≤ (portAt s.core w p).termWords)
    (hqueue : (s.core.eng sec kind i).queue ≠ []) (hgrace : (s.core.eng sec kind i).graceAt = none) (hsec : secOf w = sec)
    (hkind : (portAt s.core w p).kind = kind) (hinst : (portAt s.core w p).inst = i) : ∃ t, Machine.exec (.termEnd sec kind i) s = .next t ∧
      (t.core.eng sec kind i).holder = none ∧ (t.core.eng sec kind i).draining = some (w, p) ∧ (portAt t.core w p).tw = true ∧
      (portAt t.core w p).g = false ∧ (portAt t.core w p).q = true ∧ t.core.mem = s.core.mem := by
  let c := s.core.modPort w p termOver
  let r := termRequest s.core w p
  have hover : portAt c w p = termOver (portAt s.core w p) := modPort_portAt_same hp termOver
  have hdrain := startDrain_sameWeaves c w p
  have hdrained : (c.startDrain w p).eng sec kind i = drains w p (s.core.eng sec kind i) :=
    startDrain_eng (c := c) hsec ((congrArg Machine.Port.kind hover).trans hkind) ((congrArg Machine.Port.inst hover).trans hinst) hhas
  have hhas' : HasEngine (c.startDrain w p) sec kind i := by
    obtain ⟨es, heq⟩ := startDrain_eq c w p
    rw [heq]
    exact (modEng_hasEngine c _ _ _ (drains w p) sec kind i).mpr hhas
  have hlen : p < ((c.startDrain w p).weave w).ports.length := by
    rw [weave_congr hdrain.weaves, modPort_length]
    exact hp
  have hport : portAt ((c.startDrain w p).enqueue sec kind i r) w p = queued kind i (termOver (portAt s.core w p)) :=
    (enqueue_portAt (r := r) hlen sec kind i).trans (congrArg (queued kind i) ((portAt_congr hdrain.weaves w p).trans hover))
  have heng := (enqueue_eng hhas' r).trans (by rw [hdrained])
  refine ⟨_, exec_termEnd_drains hholder hterm hqueue hgrace, ?_, ?_, ?_, ?_, ?_, ?_⟩
  · exact (congrArg Engine.holder heng :)
  · exact (congrArg Engine.draining heng :)
  · exact (congrArg Machine.Port.tw hport :)
  · exact (congrArg Machine.Port.g hport :)
  · exact (congrArg Machine.Port.q hport :)
  · exact (enqueue_keepsPorts (c.startDrain w p) sec kind i r).mem.trans hdrain.mem

/-- A drained engine that nothing waits for sleeps. -/
theorem drainEnd_sleeps {s : State} {sec kind i : Nat} (hhas : HasEngine s.core sec kind i)
    (hdrains : (s.core.eng sec kind i).draining.isSome = true) (hjobs : (s.core.eng sec kind i).jobs = [])
    (hqueue : (s.core.eng sec kind i).queue = []) : ∃ t, Machine.exec (.drainEnd sec kind i) s = .next t ∧
      (t.core.eng sec kind i).free = true ∧ (t.core.eng sec kind i).charge = 0 ∧ t.core.mem = s.core.mem := by
  let c := s.core.unsched fun a => a == .graceEnd sec kind i
  obtain ⟨testing, heng⟩ := sleep_eng (c := c) hhas hqueue
  have hexec : Machine.exec (.drainEnd sec kind i) s = .next { s with core := c.sleep sec kind i } := by
    refine congrArg (fun c : Core => Host.Outcome.next { s with core := c }) ((if_neg ?_).trans (if_pos ?_))
    · simp [hjobs, Option.isSome_iff_ne_none.mp hdrains]
    · simp [hqueue]
  refine ⟨_, hexec, ?_, ?_, (sleep_keepsPorts c sec kind i).mem⟩
  · exact (congrArg Engine.free heng :)
  · exact (congrArg Engine.charge heng :)
/-- A drained engine that goes on to the head of its queue. -/
def handing (kind : Nat) (e : Engine) : Engine := { e with charge := Config.weight kind, div := 1, graceAt := none }
theorem drainEnd_hands {s : State} {sec kind i : Nat} (hhas : HasEngine s.core sec kind i)
    (hdrains : (s.core.eng sec kind i).draining.isSome = true) (hjobs : (s.core.eng sec kind i).jobs = [])
    (hqueue : (s.core.eng sec kind i).queue ≠ []) (hretired : (s.core.eng sec kind i).retired = false)
    (hfits : s.core.fits sec kind (s.core.eng sec kind i).charge = true) : ∃ t, Machine.exec (.drainEnd sec kind i) s = .next t ∧
      (t.core.eng sec kind i).charge = Config.weight kind ∧
      ⟨.cycle (s.now + 16), bLand, engRank (.pool sec kind i), .leaseHandover sec kind i⟩ ∈ t.core.agenda := by
  let c := s.core.unsched fun a => a == .graceEnd sec kind i
  let d := c.modEng sec kind i (handing kind)
  have heng : d.eng sec kind i = handing kind (s.core.eng sec kind i) := modEng_eng_same (c := c) hhas (handing kind)
  have hpassed : PassedOver d sec kind i := by
    refine .inl ?_
    rw [heng]
    obtain ⟨o, ho⟩ := Option.isSome_iff_exists.mp hdrains
    simp [handing, Engine.free, ho]
  obtain ⟨testing, hfell⟩ := (chargesFell_keepsEngine hpassed sec).eng
  have hexec : Machine.exec (.drainEnd sec kind i) s =
      .next { s with core := (d.chargesFell sec).sched (d.now + 16) bLand (engRank (.pool sec kind i)) (.leaseHandover sec kind i) } := by
    refine congrArg (fun c : Core => Host.Outcome.next { s with core := c }) ((if_neg ?_).trans (if_neg ?_))
    · simp [hjobs, Option.isSome_iff_ne_none.mp hdrains]
    · have hfits' : c.fits sec kind (s.core.eng sec kind i).charge = true := hfits
      simp [hqueue, hretired, hfits', c]
  refine ⟨_, hexec, ?_, ?_⟩
  · refine (congrArg Engine.charge hfell).trans ?_
    exact (congrArg Engine.charge heng :)
  · exact List.mem_append_right _ (List.mem_singleton.mpr rfl)
/-- The head of the queue is handed the engine. -/
theorem leaseHandover_grants {s : State} {sec kind i w p : Nat} (hhas : HasEngine s.core sec kind i) (hp : p < (s.core.weave w).ports.length)
    {r : LeaseReq} {rest : List LeaseReq} (hqueue : (s.core.eng sec kind i).queue = r :: rest) (hw : r.weave = w) (hport : r.port = p) :
    ∃ c d, Machine.exec (.leaseHandover sec kind i) s = .next { s with core := d } ∧ Grants sec kind i w p c d ∧ c.now = s.now ∧
      c.eng sec kind i = { s.core.eng sec kind i with queue := rest } ∧ portAt c w p = portAt s.core w p := by
  subst hw hport
  let c := s.core.unsched fun a => a == .leasePromotion sec kind i r.weave r.port
  let d := c.modEng sec kind i fun e => { e with queue := rest }
  have hhas' : HasEngine d sec kind i := (modEng_hasEngine c sec kind i (fun e => { e with queue := rest }) sec kind i).mpr hhas
  refine ⟨d, d.grant sec kind i r.weave r.port, ?_, grant_grants hhas' hp, rfl, ?_, rfl⟩
  · refine congrArg (fun c : Core => Host.Outcome.next { s with core := c }) ?_
    simp only [hqueue]
    rfl
  · exact modEng_eng_same (c := c) hhas fun e => { e with queue := rest }
end Sys2Proof.Proofs
end
section
/-! SUPPORT. The end of a grace: an engine that stops and its lease with it (R228), for O35. -/
namespace Sys2Proof.Proofs
open Sys2Proof.Machine Sys2Proof.Claims Sys2Proof.Laws

/-! ## What a stop leaves (R228, R232) -/

/-- From `c` to `d` memory and the number of ports stand, and an engine has kept all but jobs that have left. -/
structure Stops (sec kind i : Nat) (c d : Core) : Prop where
  mem : d.mem = c.mem
  length : ∀ w, (d.weave w).ports.length = (c.weave w).ports.length
  has : HasEngine c sec kind i → HasEngine d sec kind i
  eng : ∃ jobs, d.eng sec kind i = { c.eng sec kind i with jobs := jobs } ∧ jobs ⊆ (c.eng sec kind i).jobs

namespace Stops
variable {sec kind i : Nat}

theorem of_engines {c d : Core} (hmem : d.mem = c.mem) (hlength : ∀ w, (d.weave w).ports.length = (c.weave w).ports.length)
    (hengines : ∀ n, (d.sector n).engines = (c.sector n).engines) : Stops sec kind i c d where
  mem := hmem
  length := hlength
  has := fun h => by rwa [hasEngine_iff, hengines, ← hasEngine_iff]
  eng := ⟨_, by rw [Core.eng, hengines]; rfl, List.Subset.refl _⟩
theorem of_same {c d : Core} (hmem : d.mem = c.mem) (hweaves : d.weaves = c.weaves) (hsectors : d.sectors = c.sectors) : Stops sec kind i c d :=
  of_engines hmem (fun w => by rw [weave_congr hweaves]) fun n => by rw [Core.sector, hsectors]; rfl
theorem refl (c : Core) : Stops sec kind i c c := of_same rfl rfl rfl
theorem trans {c d e : Core} (h : Stops sec kind i c d) (g : Stops sec kind i d e) : Stops sec kind i c e where
  mem := g.mem.trans h.mem
  length := fun w => (g.length w).trans (h.length w)
  has := fun hc => g.has (h.has hc)
  eng := by
    obtain ⟨jobs, hd, hjobs⟩ := h.eng
    obtain ⟨left, he, hleft⟩ := g.eng
    refine ⟨left, by rw [he, hd], fun j hj => hjobs ?_⟩
    have := hleft hj
    rwa [hd] at this
theorem foldl {α : Type} {f : Core → α → Core} (h : ∀ c x, Stops sec kind i c (f c x)) (xs : List α) : ∀ c, Stops sec kind i c (xs.foldl f c) := by
  induction xs with
  | nil => exact refl
  | cons x xs ih => exact fun c => (h c x).trans (ih _)
theorem sched (c : Core) (t b n : Nat) (a : Act) : Stops sec kind i c (c.sched t b n a) := of_same rfl rfl rfl
theorem unsched (c : Core) (p : Act → Bool) : Stops sec kind i c (c.unsched p) := of_same rfl rfl rfl
theorem modSec (c : Core) (n : Nat) {f : Sector → Sector} (hf : ∀ x, (f x).engines = x.engines) : Stops sec kind i c (c.modSec n f) :=
  of_engines rfl (fun _ => rfl) fun m => by
    by_cases hm : m = n
    · rw [hm, modSec_sector_same, hf]
    · rw [modSec_sector_other _ _ hm]
theorem modW (c : Core) (w : Nat) {f : Weave → Weave} (hf : ∀ x, (f x).ports = x.ports) : Stops sec kind i c (c.modW w f) :=
  of_engines rfl (fun v => by
    by_cases hv : v = w
    · rw [hv, modW_weave_same, hf]
    · rw [modW_weave_other c f hv]) fun _ => rfl
theorem modPort (c : Core) (w p : Nat) (f : Machine.Port → Machine.Port) : Stops sec kind i c (c.modPort w p f) :=
  of_engines rfl (fun v => modPort_length c w p v f) fun _ => rfl
theorem setJobs (c : Core) {js : List Job} (hjs : js ⊆ (c.eng sec kind i).jobs) : Stops sec kind i c (c.setJobs (.pool sec kind i) js) where
  mem := rfl
  length := fun _ => rfl
  has := (modEng_hasEngine c sec kind i (fun x => { x with jobs := js }) sec kind i).mpr
  eng := by
    by_cases h : HasEngine c sec kind i
    · exact ⟨js, modEng_eng_same h fun x => { x with jobs := js }, hjs⟩
    · have hnone : ¬ HasEngine (c.modEng sec kind i fun x => { x with jobs := js }) sec kind i := fun h' => h ((modEng_hasEngine ..).mp h')
      exact ⟨_, (eng_of_none hnone).trans (eng_of_none h).symm, List.Subset.refl _⟩
end Stops
section
variable {sec kind i : Nat}

theorem abortSem_stops (c : Core) (m n : Nat) : Stops sec kind i c (c.abortSem m n) := by
  unfold Core.abortSem
  split
  · refine Stops.trans (d := c.modSem m n fun x => { x with ab := true }) (.modSec c m ?_) (.sched _ _ _ _ _)
    exact fun _ => rfl
  · exact .refl c
theorem releaseRows_stops (c : Core) (j : Job) (m : Nat) : Stops sec kind i c (c.releaseRows j m) := by
  refine .foldl (fun d r => ?_) _ c
  split
  · exact .refl d
  · exact .modSec d _ fun _ => rfl
theorem kickSector_stops (c : Core) (m : Nat) : Stops sec kind i c (c.kickSector m) := by
  refine .foldl (fun d e => ?_) _ c
  split
  · split
    · exact .sched d _ _ _ _
    · exact .refl d
  · exact .refl d
theorem testLaunch_stops (c : Core) (n : Nat) : Stops sec kind i c (c.testLaunch n) := by
  unfold Core.testLaunch
  split
  · split
    · exact .sched c _ _ _ _
    · exact .refl c
  · exact .refl c
theorem stopTxs_stops (c : Core) : Stops sec kind i c (c.stopTxs (.pool sec kind i)) := by
  have hrest : ∀ x : Sector, ({ x with sems := x.sems.map fun (n, y) =>
      (n, { y with waiters := y.waiters.filter fun z => match z with | .txs _ u _ => u != i | _ => true }) } : Sector).engines = x.engines := fun _ => rfl
  exact (Stops.unsched c fun a => a == .txs sec i).trans (.modSec _ sec hrest)
theorem dropEngWaiter_stops (c : Core) : Stops sec kind i c (c.dropEngWaiter (.pool sec kind i)) := by
  refine .modSec c sec ?_
  exact fun _ => rfl
theorem jobEnded_stops (c : Core) (j : Job) : Stops sec kind i c (c.jobEnded j) := by
  unfold Core.jobEnded
  split
  · extract_lets rest d
    have hd : Stops sec kind i c d := .modW c j.weave fun _ => rfl
    split
    · exact hd.trans (.sched d _ _ _ _)
    · exact hd
  · exact .refl c
/-- What follows where a job has left its queue. -/
theorem removeJob_after {c : Core} {id : Nat} {j : Job} (hj : c.job? (.pool sec kind i) id = some j) :
    Stops sec kind i (c.setJobs (.pool sec kind i) ((c.eng sec kind i).jobs.filter fun j => j.id != id)) (c.removeJob (.pool sec kind i) id) := by
  unfold Core.removeJob
  split
  next hnone => exact absurd (hj.symm.trans hnone) (by simp)
  next j hj' =>
  extract_lets head c₁ c₂ c₃ c₄ c₅
  have h₁₂ : Stops sec kind i c₁ c₂ := .unsched c₁ _
  have h₂₃ : Stops sec kind i c₂ c₃ := by
    unfold c₃
    split
    · exact dropEngWaiter_stops c₂
    · exact .refl c₂
  have h₃₄ : Stops sec kind i c₃ c₄ := by
    unfold c₄
    split
    · exact stopTxs_stops c₃
    · exact .refl c₃
  have h₄₅ : Stops sec kind i c₄ c₅ :=
    (((releaseRows_stops c₄ j sec).trans (kickSector_stops _ sec)).trans (testLaunch_stops _ j.launch)).trans (jobEnded_stops _ j)
  refine ((h₁₂.trans h₂₃).trans (h₃₄.trans h₄₅)).trans ?_
  dsimp only
  split
  · exact .sched c₅ _ _ _ _
  · exact .refl c₅
theorem removeJob_stops (c : Core) (id : Nat) : Stops sec kind i c (c.removeJob (.pool sec kind i) id) := by
  cases hj : c.job? (.pool sec kind i) id with
  | none =>
    unfold Core.removeJob
    rw [hj]
    exact .refl c
  | some j => exact (Stops.setJobs c (List.filter_subset_self _)).trans (removeJob_after hj)
/-- A job that is removed is in its queue no longer. -/
theorem removeJob_removes {c : Core} (h : HasEngine c sec kind i) {id : Nat} :
    ∀ j ∈ ((c.removeJob (.pool sec kind i) id).eng sec kind i).jobs, j.id ≠ id := by
  intro j hin
  cases hj : c.job? (.pool sec kind i) id with
  | none =>
    unfold Core.removeJob at hin
    rw [hj] at hin
    simpa using List.find?_eq_none.mp hj j hin
  | some k =>
    obtain ⟨jobs, heng, hjobs⟩ := (removeJob_after hj).eng
    rw [heng] at hin
    have hleft := hjobs hin
    rw [show (c.setJobs (.pool sec kind i) _).eng sec kind i = _ from modEng_eng_same h _] at hleft
    simpa using (List.mem_filter.mp hleft).2
/-- A drop is a removal, after AB of the signal semaphore. -/
theorem dropJob_eq {c : Core} {id : Nat} {j : Job} (hj : c.job? (.pool sec kind i) id = some j) :
    c.dropJob (.pool sec kind i) id = (if j.suppress then c else c.abortSem sec j.sig).removeJob (.pool sec kind i) id := by
  rw [Core.dropJob, hj]
  rfl
theorem aborted_stops (c : Core) (j : Job) : Stops sec kind i c (if j.suppress then c else c.abortSem sec j.sig) := by
  split
  · exact .refl c
  · exact abortSem_stops c sec j.sig
theorem dropJob_stops (c : Core) (id : Nat) : Stops sec kind i c (c.dropJob (.pool sec kind i) id) := by
  cases hj : c.job? (.pool sec kind i) id with
  | none =>
    rw [Core.dropJob, hj]
    exact .refl c
  | some j =>
    rw [dropJob_eq hj]
    exact (aborted_stops c j).trans (removeJob_stops _ id)
theorem dropJob_removes {c : Core} (h : HasEngine c sec kind i) (id : Nat) :
    ∀ j ∈ ((c.dropJob (.pool sec kind i) id).eng sec kind i).jobs, j.id ≠ id := by
  cases hj : c.job? (.pool sec kind i) id with
  | none =>
    rw [Core.dropJob, hj]
    exact fun j hin => by simpa using List.find?_eq_none.mp hj j hin
  | some j =>
    rw [dropJob_eq hj]
    exact removeJob_removes ((aborted_stops c j).has h)
/-- Jobs that are dropped one after another have all left. -/
theorem dropAll_removes {c : Core} (h : HasEngine c sec kind i) (js : List Job) {j : Job}
    (hj : j ∈ ((js.foldl (fun c j => c.dropJob (.pool sec kind i) j.id) c).eng sec kind i).jobs) : ∀ k ∈ js, j.id ≠ k.id := by
  induction js generalizing c with
  | nil => exact fun k hk => absurd hk List.not_mem_nil
  | cons x js ih =>
    have hdrop := dropJob_stops (sec := sec) (kind := kind) (i := i) c x.id
    have hrest : Stops sec kind i (c.dropJob (.pool sec kind i) x.id) _ := .foldl (fun d (j : Job) => dropJob_stops d j.id) js _
    obtain ⟨jobs, heng, hjobs⟩ := hrest.eng
    have hin : j ∈ jobs := by
      have hj' := hj
      rw [List.foldl_cons, heng] at hj'
      exact hj'
    refine List.forall_mem_cons.mpr ⟨dropJob_removes h x.id j (hjobs hin), ih (hdrop.has h) hj⟩
theorem cutMm_stops (c : Core) (j : Job) : Stops sec kind i c (c.cutMm j) := by
  unfold Core.cutMm
  split
  · exact .sched c _ _ _ _
  · exact .refl c
theorem dropJobs_stops (c : Core) (p : Job → Bool) : Stops sec kind i c (c.dropJobs (.pool sec kind i) p) :=
  .foldl (fun d (j : Job) => dropJob_stops d j.id) _ c
theorem dropJobs_all {c : Core} (h : HasEngine c sec kind i) : ((c.dropJobs (.pool sec kind i) fun _ => true).eng sec kind i).jobs = [] := by
  obtain ⟨jobs, heng, hjobs⟩ := (dropJobs_stops (sec := sec) (kind := kind) (i := i) c fun _ => true).eng
  refine List.eq_nil_iff_forall_not_mem.mpr fun j hj => ?_
  have hin : j ∈ (c.eng sec kind i).jobs := by
    rw [heng] at hj
    exact hjobs hj
  exact dropAll_removes h _ hj j (List.mem_filter.mpr ⟨hin, rfl⟩) rfl
/-- An engine that stops has no jobs. -/
theorem stopEngine_stops (c : Core) (h : HasEngine c sec kind i) : Stops sec kind i c (c.stopEngine sec kind i) ∧
    ((c.stopEngine sec kind i).eng sec kind i).jobs = [] := by
  have hcut : Stops sec kind i c (((c.jobsOf (.pool sec kind i)).filter fun j => j.started.isSome).foldl (fun c j => c.cutMm j) c) :=
    .foldl cutMm_stops _ c
  exact ⟨hcut.trans (dropJobs_stops _ _), dropJobs_all (hcut.has h)⟩
theorem endRep_stops (c : Core) (e : EngId) (lease : Option (Nat × Nat)) : Stops sec kind i c (c.endRep e lease) := by
  rcases lease with _ | ⟨w, p⟩
  · exact .refl c
  · unfold Core.endRep
    dsimp only
    split
    · split
      · exact (abortSem_stops c _ _).trans (.modPort _ w p _)
      · exact .modPort c w p _
    · exact .refl c
end

/-! ## The end of a grace (R228) -/

/-- An engine at the end of its grace. -/
def graceOver (e : Engine) : Engine := { e with graceAt := none, draining := none }
/-- The machine where a grace ends, before the lease does. -/
def graceStop (c : Core) (sec kind i : Nat) : Core :=
  ((((c.modEng sec kind i graceOver).unsched fun a => a == .termEnd sec kind i).stopEngine sec kind i).endRep (.pool sec kind i)
    (c.eng sec kind i).holder).endRep (.pool sec kind i) (c.eng sec kind i).draining
theorem exec_graceEnd {s : State} {sec kind i w p : Nat} (hgrace : (s.core.eng sec kind i).graceAt.isSome = true)
    (hholder : (s.core.eng sec kind i).holder = some (w, p)) : Machine.exec (.graceEnd sec kind i) s =
      .next { s with core := ((graceStop s.core sec kind i).resetPort w p true).sleep sec kind i } := by
  refine congrArg (fun c : Core => Host.Outcome.next { s with core := c }) ((if_neg ?_).trans ?_)
  · simp [Option.isSome_iff_ne_none.mp hgrace]
  · simp only [graceStop, hholder]
    rfl
/-- The engine has stopped, and has kept all but its jobs, its grace and its drain. -/
theorem graceStop_stops {c : Core} {sec kind i : Nat} (h : HasEngine c sec kind i) : (graceStop c sec kind i).mem = c.mem ∧
    (∀ w, ((graceStop c sec kind i).weave w).ports.length = (c.weave w).ports.length) ∧ HasEngine (graceStop c sec kind i) sec kind i ∧
    (graceStop c sec kind i).eng sec kind i = { graceOver (c.eng sec kind i) with jobs := [] } := by
  let d := (c.modEng sec kind i graceOver).unsched fun a => a == .termEnd sec kind i
  have hd : HasEngine d sec kind i := (modEng_hasEngine c sec kind i graceOver sec kind i).mpr h
  have hover : d.eng sec kind i = graceOver (c.eng sec kind i) := modEng_eng_same h graceOver
  obtain ⟨hstop, hnone⟩ := stopEngine_stops d hd
  have hends : Stops sec kind i (d.stopEngine sec kind i) (graceStop c sec kind i) := (endRep_stops _ _ _).trans (endRep_stops _ _ _)
  have hall := hstop.trans hends
  obtain ⟨jobs, heng, -⟩ := hall.eng
  obtain ⟨left, hleft, hsub⟩ := hends.eng
  rw [hnone] at hsub
  have hjobs : ((graceStop c sec kind i).eng sec kind i).jobs = [] := by
    rw [hleft]
    exact List.subset_nil.mp hsub
  refine ⟨hall.mem, hall.length, hall.has hd, ?_⟩
  rw [heng] at hjobs ⊢
  rw [hover]
  exact congrArg (fun js => { graceOver (c.eng sec kind i) with jobs := js }) hjobs
theorem graceEnd_ends {s : State} {sec kind i w p : Nat} (h : HasEngine s.core sec kind i) (hp : p < (s.core.weave w).ports.length)
    (hgrace : (s.core.eng sec kind i).graceAt.isSome = true) (hholder : (s.core.eng sec kind i).holder = some (w, p))
    (hqueue : (s.core.eng sec kind i).queue = []) : ∃ t, Machine.exec (.graceEnd sec kind i) s = .next t ∧
      (t.core.eng sec kind i).free = true ∧ (t.core.eng sec kind i).jobs = [] ∧ (portAt t.core w p).ev = true ∧
      (portAt t.core w p).g = false ∧ t.core.mem = s.core.mem := by
  obtain ⟨hmem, hlength, hhas, heng⟩ := graceStop_stops h
  let c := (graceStop s.core sec kind i).resetPort w p true
  have hc : c.eng sec kind i = { graceOver (s.core.eng sec kind i) with jobs := [] } := heng
  have hport : portAt c w p = unleased true (portAt (graceStop s.core sec kind i) w p) := modPort_portAt_same (by rwa [hlength]) (unleased true)
  have hkeep := sleep_keepsPorts c sec kind i
  have hkept := hkeep.port w p
  rw [hport] at hkept
  obtain ⟨testing, hslept⟩ := sleep_eng (c := c) hhas (by rw [hc]; exact hqueue)
  rw [hc] at hslept
  refine ⟨_, exec_graceEnd hgrace hholder, ?_, ?_, ?_, ?_, hkeep.mem.trans hmem⟩
  · exact (congrArg Engine.free hslept :)
  · exact (congrArg Engine.jobs hslept :)
  · exact (congrArg Machine.Port.ev hkept :)
  · exact (congrArg Machine.Port.g hkept :)

/-! ## The course of leases -/

/-- What a grant leaves, as the obligation says it. -/
theorem Grants.holds {sec kind i w p now : Nat} {c d : Core} (h : Grants sec kind i w p c d) (hnow : c.now = now) :
    (d.eng sec kind i).holder = some (w, p) ∧ (d.eng sec kind i).waking = none ∧ (d.eng sec kind i).draining = none ∧
    (d.eng sec kind i).charge = Config.weight kind ∧ (portAt d w p).g = true ∧ (portAt d w p).wk = false ∧ (portAt d w p).q = false ∧
    (portAt d w p).kind = kind ∧ (portAt d w p).inst = i ∧ (portAt d w p).termStart = now ∧
    ⟨.cycle (now + Config.termCycles), bLand, engRank (.pool sec kind i), .termEnd sec kind i⟩ ∈ d.agenda := by
  subst hnow
  obtain ⟨heng, hport, hends, -, -⟩ := h
  rw [heng, hport]
  exact ⟨rfl, rfl, rfl, rfl, rfl, rfl, rfl, rfl, rfl, rfl, hends⟩
theorem leaseGrant_grants {s : State} {sec kind i w p : Nat} (hwaking : (s.core.eng sec kind i).waking = some (w, p)) :
    Machine.exec (.leaseGrant sec kind i) s = .next { s with core := s.core.grant sec kind i w p } := by
  refine congrArg (fun c : Core => Host.Outcome.next { s with core := c }) ?_
  simp only [hwaking]
theorem leasesRunTheirCourse : Claims.LeasesRunTheirCourse := by
  intro s sec kind i w p e x port rank ends holds hhas hp
  refine ⟨fun hwaking => ?_, fun r hr => leasePromotion_promotes hhas hr, fun hholder hterm => ⟨fun hqueue => ?_, fun hqueue hgrace hsec hkind hinst => ?_⟩,
    drainEnd_sleeps hhas, drainEnd_hands hhas, fun r rest hqueue hw hport => ?_, fun hgrace hholder hqueue => graceEnd_ends hhas hp hgrace hholder hqueue⟩
  · have hgrants := grant_grants hhas hp
    exact ⟨_, leaseGrant_grants hwaking, hgrants.holds rfl, hgrants.mem, fun hkind a ha hwf hflips => hgrants.cleared hkind ⟨hwf, hflips⟩ a ha⟩
  · exact termEnd_renews hp hholder hterm hqueue
  · exact termEnd_drains hhas hp hholder hterm hqueue hgrace hsec hkind hinst
  · obtain ⟨c, d, hexec, hgrants, hnow, heng, -⟩ := leaseHandover_grants hhas hp hqueue hw hport
    refine ⟨_, hexec, hgrants.holds hnow, ?_⟩
    have hd := hgrants.eng
    rw [heng] at hd
    exact (congrArg Engine.queue hd :)
/-- Settles O35, by what grants to other instances leave of an engine and of a port, and by what stops and drops leave of its jobs. -/
theorem leases : Obligations.Leases := ⟨leaseWords, leasesRunTheirCourse⟩
end Sys2Proof.Proofs
end
section
/-! SUPPORT. Class V: what its forms leave in each element, in the words of the manual's tables (O4, O5, O6). -/
namespace Sys2Proof.Proofs
open Sys2Proof.Machine Sys2Proof.Claims Sys2Proof.Laws

/-! ## Tables of forms -/

/-- Every form of a table does what its entry says. -/
def Table {α : Type} (p : Instr → α → Prop) (forms : List (Instr × α)) : Prop := ∀ i a, (i, a) ∈ forms → p i a

theorem Table.nil {α : Type} {p : Instr → α → Prop} : Table p [] := fun _ _ h => absurd h List.not_mem_nil
theorem Table.cons {α : Type} {p : Instr → α → Prop} {i : Instr} {a : α} {forms : List (Instr × α)} (hi : p i a) (h : Table p forms) :
    Table p ((i, a) :: forms) := by
  intro j b hj
  rcases List.mem_cons.mp hj with hj | hj
  · obtain ⟨rfl, rfl⟩ := Prod.mk.injEq .. ▸ hj
    exact hi
  · exact h j b hj

/-! ## Signed elements -/

theorem one_le_width (z : Sz) : 1 ≤ z.width := by cases z <;> decide
theorem two_pow_eq_twice {w : Nat} (hw : 1 ≤ w) : 2 ^ w = 2 * 2 ^ (w - 1) := by
  rw [← pow_succ', Nat.sub_add_cancel hw]
theorem signed_eq_signedOf (x w : Nat) : signed x w = signedOf w x := by simp [signed, signedOf]
theorem wrap_eq_modOf (x : Int) (w : Nat) : wrap x w = modOf w x := by simp [wrap, modOf]
theorem modOf_lt (w : Nat) (x : Int) : modOf w x < 2 ^ w := by
  have hpos : (0 : Int) < 2 ^ w := by positivity
  have hlt := Int.emod_lt_of_pos x hpos
  have hcast : ((2 ^ w : Nat) : Int) = 2 ^ w := by push_cast; rfl
  rw [modOf, Int.toNat_lt' (Nat.two_pow_pos w), hcast]
  exact hlt
theorem wrap_mod (x : Int) (w : Nat) : wrap x w % 2 ^ w = modOf w x := by
  rw [wrap_eq_modOf, Nat.mod_eq_of_lt (modOf_lt w x)]
theorem signedOf_inj {w x y : Nat} (hx : x < 2 ^ w) (hy : y < 2 ^ w) (h : signedOf w x = signedOf w y) : x = y := by
  have hcast : ((2 ^ w : Nat) : Int) = 2 ^ w := by push_cast; rfl
  simp only [signedOf, ← hcast] at h
  split at h <;> split at h <;> omega
/-- A signed element of w bits lies from −2^(w − 1) to 2^(w − 1) − 1. -/
theorem signedOf_bounds {w x : Nat} (hw : 1 ≤ w) (hx : x < 2 ^ w) :
    -((2 ^ (w - 1) : Nat) : Int) ≤ signedOf w x ∧ signedOf w x < ((2 ^ (w - 1) : Nat) : Int) := by
  have htwice := two_pow_eq_twice hw
  have hcast : ((2 ^ w : Nat) : Int) = 2 ^ w := by push_cast; rfl
  simp only [signedOf, ← hcast]
  split <;> omega

/-! ## The operations on elements (R163) -/

theorem iMulh_mod (w x y : Nat) : iMulh w x y % 2 ^ w = modOf w (signedOf w x * signedOf w y / 2 ^ w) := by
  rw [iMulh, wrap_mod, signed_eq_signedOf, signed_eq_signedOf]
  norm_num
theorem iMulhu_lt {w x y : Nat} (hx : x < 2 ^ w) (hy : y < 2 ^ w) : iMulhu w x y < 2 ^ w := by
  rw [iMulhu, Nat.div_lt_iff_lt_mul (Nat.two_pow_pos w)]
  exact Nat.mul_lt_mul'' hx hy
theorem iSar_mod (w x t : Nat) : iSar w x t % 2 ^ w = modOf w (signedOf w x / 2 ^ t) := by
  rw [iSar, wrap_mod, signed_eq_signedOf]
  norm_num
/-- The bits that a rotation drops on the left come back on the right. -/
theorem iRot_mod {w t : Nat} (x : Nat) (ht : t ≤ w) : iRot w x t % 2 ^ w = (x * 2 ^ t + x * 2 ^ t / 2 ^ w) % 2 ^ w := by
  have hsplit : 2 ^ w = 2 ^ (w - t) * 2 ^ t := by rw [← pow_add, Nat.sub_add_cancel ht]
  have hback : x * 2 ^ t / 2 ^ w = x / 2 ^ (w - t) := by
    rw [hsplit, Nat.mul_div_mul_right _ _ (Nat.two_pow_pos t)]
  rw [iRot, hback, Nat.mod_add_mod]
/-- A choice by ≤ is one by < where equal keys choose between equal values. -/
theorem ite_le_eq_ite_lt {α : Type} {m n : Int} {x y : α} (h : m = n → x = y) : (if m ≤ n then x else y) = if m < n then x else y := by
  rcases lt_trichotomy m n with hlt | heq | hgt
  · rw [if_pos hlt.le, if_pos hlt]
  · rw [h heq, ite_self, ite_self]
  · rw [if_neg (not_le.mpr hgt), if_neg (not_lt.mpr hgt.le)]
theorem iMin_eq {w x y : Nat} (hx : x < 2 ^ w) (hy : y < 2 ^ w) : iMin w x y = if signedOf w x < signedOf w y then x else y := by
  rw [iMin, signed_eq_signedOf, signed_eq_signedOf, ite_le_eq_ite_lt (signedOf_inj hx hy)]
theorem iMax_eq {w x y : Nat} (hx : x < 2 ^ w) (hy : y < 2 ^ w) : iMax w x y = if signedOf w x < signedOf w y then y else x := by
  rw [iMax, signed_eq_signedOf, signed_eq_signedOf, ite_le_eq_ite_lt fun h => (signedOf_inj hx hy h).symm]
theorem ite_lt_of_lt {p : Prop} [Decidable p] {x y m : Nat} (hx : x < m) (hy : y < m) : (if p then x else y) < m := by
  split
  · exact hx
  · exact hy
theorem iAbsd_eq (w x y : Nat) : iAbsd w x y = (signedOf w x - signedOf w y).natAbs := by
  rw [iAbsd, signed_eq_signedOf, signed_eq_signedOf]
theorem iAbsd_lt {w x y : Nat} (hw : 1 ≤ w) (hx : x < 2 ^ w) (hy : y < 2 ^ w) : iAbsd w x y < 2 ^ w := by
  have htwice := two_pow_eq_twice hw
  have hbx := signedOf_bounds hw hx
  have hby := signedOf_bounds hw hy
  rw [iAbsd_eq]
  omega
theorem satS_eq_clamp (x : Int) (w : Nat) : satS x w = clamp w x := by
  have hpos : (1 : Int) ≤ 2 ^ (w - 1) := one_le_pow₀ (by norm_num)
  simp only [satS, sat, clamp, Nat.cast_pow, Nat.cast_ofNat]
  generalize (2 : Int) ^ (w - 1) = m at hpos
  split
  · omega
  · split <;> omega
theorem iAddsat_mod (w x y : Nat) : iAddsat w x y % 2 ^ w = modOf w (clamp w (signedOf w x + signedOf w y)) := by
  rw [iAddsat, wrap_mod, satS_eq_clamp, signed_eq_signedOf, signed_eq_signedOf]
theorem iSubsat_mod (w x y : Nat) : iSubsat w x y % 2 ^ w = modOf w (clamp w (signedOf w x - signedOf w y)) := by
  rw [iSubsat, wrap_mod, satS_eq_clamp, signed_eq_signedOf, signed_eq_signedOf]

/-! ## Lane forms of two operands -/

/-- A form of lanes lands an element-wise result: element j of lane l becomes `e l j`. -/
def LandsElems (s : State) (d : Reg) (L : Nat) (lanes : List Nat) (w : Nat) (e : Nat → Nat → Nat) (i : Instr) : Prop :=
  ∃ t v, Machine.exec i s = .next t ∧ LandsV s t d L lanes v ∧ ∀ l, Elems w (v l) (e l)

section
variable {s : State} {z : Sz} {d a b : Reg} {k : KReg} {i : Instr} {L : Nat}

/-- A form of two operands lands what its function gives on elements of the width (R159, R160). -/
theorem laneBin_lands {g : Nat → Nat → Nat → Nat} {f : Nat → Nat → Nat} (hexec : Machine.exec i s = .next (s.laneBin z L g d a b k))
    (hg : ∀ x y, x < 2 ^ z.width → y < 2 ^ z.width → g z.width x y % 2 ^ z.width = f x y) :
    LandsElems s d L (s.active k) z.width (fun l j => f (elem (s.vreg a l) z.width j) (elem (s.vreg b l) z.width j)) i :=
  ⟨_, _, hexec, putV_lands .., fun _ _ hj => (elem_mapElems2 _ _ _ hj).trans (hg _ _ (elem_lt ..) (elem_lt ..))⟩
/-- The same where the function stays within the width. -/
theorem laneBin_lands_of_lt {g : Nat → Nat → Nat → Nat} {f : Nat → Nat → Nat} (hexec : Machine.exec i s = .next (s.laneBin z L g d a b k))
    (hlt : ∀ x y, x < 2 ^ z.width → y < 2 ^ z.width → g z.width x y < 2 ^ z.width)
    (hg : ∀ x y, x < 2 ^ z.width → y < 2 ^ z.width → g z.width x y = f x y) :
    LandsElems s d L (s.active k) z.width (fun l j => f (elem (s.vreg a l) z.width j) (elem (s.vreg b l) z.width j)) i :=
  laneBin_lands hexec fun x y hx hy => (Nat.mod_eq_of_lt (hlt x y hx hy)).trans (hg x y hx hy)
end

/-- Settles O4, form by form: what each element becomes is what the table of R163 says. -/
theorem laneRegisterForms : Obligations.LaneRegisterForms := by
  intro s z d a b k w i L f hi
  have hw : 1 ≤ w := one_le_width z
  have hshift (y : Nat) : y % w ≤ w := (Nat.mod_lt y hw).le
  refine (?table : Table (fun i (p : Nat × (Nat → Nat → Nat)) => LandsElems s d p.1 (s.active k) w
    (fun l j => p.2 (elem (s.vreg a l) w j) (elem (s.vreg b l) w j)) i) _) i (L, f) hi
  exact .cons (laneBin_lands rfl fun _ _ _ _ => Nat.mod_mod _ _) <|
    .cons (laneBin_lands rfl fun _ _ _ _ => wrap_mod _ _) <|
    .cons (laneBin_lands rfl fun _ _ _ _ => Nat.mod_mod _ _) <|
    .cons (laneBin_lands rfl fun x y _ _ => iMulh_mod w x y) <|
    .cons (laneBin_lands_of_lt rfl (fun _ _ => iMulhu_lt) fun _ _ _ _ => rfl) <|
    .cons (laneBin_lands_of_lt rfl (fun _ _ hx _ => Nat.and_le_left.trans_lt hx) fun _ _ _ _ => rfl) <|
    .cons (laneBin_lands_of_lt rfl (fun _ _ => Nat.or_lt_two_pow) fun _ _ _ _ => rfl) <|
    .cons (laneBin_lands_of_lt rfl (fun _ _ => Nat.xor_lt_two_pow) fun _ _ _ _ => rfl) <|
    .cons (laneBin_lands_of_lt rfl (fun _ _ hx _ => Nat.and_le_left.trans_lt hx) fun _ _ _ _ => rfl) <|
    .cons (laneBin_lands rfl fun _ _ _ _ => Nat.mod_mod _ _) <|
    .cons (laneBin_lands_of_lt rfl (fun _ _ hx _ => (Nat.div_le_self _ _).trans_lt hx) fun _ _ _ _ => rfl) <|
    .cons (laneBin_lands rfl fun x y _ _ => iSar_mod w x (y % w)) <|
    .cons (laneBin_lands rfl fun x y _ _ => iRot_mod x (hshift y)) <|
    .cons (laneBin_lands_of_lt rfl (fun _ _ hx hy => ite_lt_of_lt hx hy) fun _ _ => iMin_eq) <|
    .cons (laneBin_lands_of_lt rfl (fun _ _ hx hy => ite_lt_of_lt hy hx) fun _ _ => iMax_eq) <|
    .cons (laneBin_lands_of_lt rfl (fun _ _ hx hy => ite_lt_of_lt hx hy) fun _ _ _ _ => Nat.min_def.symm) <|
    .cons (laneBin_lands_of_lt rfl (fun _ _ hx hy => ite_lt_of_lt hy hx) fun _ _ _ _ => Nat.max_def.symm) <|
    .cons (laneBin_lands_of_lt rfl (fun _ _ => iAbsd_lt hw) fun x y _ _ => iAbsd_eq w x y) <|
    .cons (laneBin_lands rfl fun x y _ _ => iAddsat_mod w x y) <|
    .cons (laneBin_lands rfl fun x y _ _ => iSubsat_mod w x y) .nil
end Sys2Proof.Proofs
end
section
/-! SUPPORT. Compares, predicates, immediates, bit fields and bit counts of class V (O5, O6). -/
namespace Sys2Proof.Proofs
open Sys2Proof.Machine Sys2Proof.Claims Sys2Proof.Laws

/-! ## Compares and predicate forms (R165, R172) -/

/-- A compare lands whether its relation holds of every element (R165). -/
theorem laneCmp_lands {s : State} {z : Sz} {kd k : KReg} {a b : Reg} {i : Instr} {g : Nat → Nat → Nat → Bool} {r : Nat → Nat → Prop}
    (hexec : Machine.exec i s = .next (s.laneCmp z g kd a b k))
    (hg : ∀ l j, g z.width (elem (s.vreg a l) z.width j) (elem (s.vreg b l) z.width j) = true ↔ r l j) :
    ∃ t v, Machine.exec i s = .next t ∧ LandsK s t kd 1 (s.active k) v ∧ ∀ l, v l = true ↔ ∀ j, j < 64 / z.width → r l j :=
  ⟨_, _, hexec, putK_lands .., fun l => by simp only [List.all_eq_true, List.mem_range, hg]⟩
/-- A predicate form lands in every lane (R172). -/
theorem putK_lands_of_eq {s : State} {kd : KReg} {i : Instr} {u v : Nat → Bool} (hexec : Machine.exec i s = .next (s.putK kd 1 allLanes u))
    (hu : ∀ l, u l = v l) : ∃ t, Machine.exec i s = .next t ∧ LandsK s t kd 1 allLanes v :=
  ⟨_, hexec, (funext hu : u = v) ▸ putK_lands ..⟩
theorem bne_zero_eq_decide (x : Word) : (x != 0) = decide (x ≠ 0) := by
  simp [bne, beq_eq_decide]

/-- Settles O5, form by form. -/
theorem predicateForms : Obligations.PredicateForms := by
  intro s z kd ka kb k a b u w
  refine ⟨?compares, ?predicates⟩
  case compares =>
    change Table (fun i (r : Nat → Nat → Prop) => ∃ t v, Machine.exec i s = .next t ∧ LandsK s t kd 1 (s.active k) v ∧
        ∀ l, v l = true ↔ ∀ j, j < 64 / w → r (elem (s.vreg a l) w j) (elem (s.vreg b l) w j)) _
    exact .cons (laneCmp_lands rfl fun _ _ => beq_iff_eq) <|
      .cons (laneCmp_lands rfl fun l j => by rw [decide_eq_true_iff, signed_eq_signedOf, signed_eq_signedOf]) <|
      .cons (laneCmp_lands rfl fun _ _ => decide_eq_true_iff) .nil
  case predicates =>
    change Table (fun i (v : Nat → Bool) => ∃ t, Machine.exec i s = .next t ∧ LandsK s t kd 1 allLanes v) _
    exact .cons (putK_lands_of_eq rfl fun _ => rfl) <|
      .cons (putK_lands_of_eq rfl fun _ => rfl) <|
      .cons (putK_lands_of_eq rfl fun _ => congrFun (congrFun Bool.bne_eq_xor _) _) <|
      .cons (putK_lands_of_eq rfl fun _ => rfl) <|
      .cons (putK_lands_of_eq rfl fun _ => rfl) <|
      .cons (putK_lands_of_eq rfl fun _ => rfl) <|
      .cons (putK_lands_of_eq rfl fun _ => bne_zero_eq_decide _) .nil

/-! ## Immediates (R164, R168, R169, R171) -/

/-- A map over the elements of every lane lands what its function gives. -/
theorem mapElems_lands {s : State} {z : Sz} {d a : Reg} {i : Instr} {lanes : List Nat} {g : Nat → Nat → Nat} {e : Nat → Nat → Nat}
    (hexec : Machine.exec i s = .next (s.putV d 1 lanes fun l => mapElems z.width (g l) (s.vreg a l)))
    (hg : ∀ l j, elem (s.vreg a l) z.width j < 2 ^ z.width → g l (elem (s.vreg a l) z.width j) % 2 ^ z.width = e l j) :
    LandsElems s d 1 lanes z.width e i :=
  ⟨_, _, hexec, putV_lands .., fun l j hj => (elem_mapElems _ _ hj).trans (hg l j (elem_lt ..))⟩
theorem putV_lands_of_eq {s : State} {d : Reg} {i : Instr} {lanes : List Nat} {u v : Nat → Word}
    (hexec : Machine.exec i s = .next (s.putV d 1 lanes u)) (hu : ∀ l, u l = v l) :
    ∃ t, Machine.exec i s = .next t ∧ LandsV s t d 1 lanes v :=
  ⟨_, hexec, (funext hu : u = v) ▸ putV_lands ..⟩
theorem toInt_eq_signedOf {n : Nat} (x : BitVec n) : x.toInt = signedOf n x.toNat := toInt_eq_if x
theorem bits_field (x pos len : Nat) : bits x (pos + len) pos = x / 2 ^ pos % 2 ^ (len + 1) := by
  rw [bits, show pos + len + 1 - pos = len + 1 by omega]

theorem laneImmediateForms : Claims.LaneImmediateForms := by
  intro s z d a b m n pos len h w y
  have hm : wrap m.toInt w = y := by rw [wrap_eq_modOf, toInt_eq_signedOf]
  have hy : y < 2 ^ w := modOf_lt w _
  refine ⟨?elements, ?words⟩
  case elements =>
    change Table (fun i (f : Nat → Nat) => LandsElems s d 1 allLanes w (fun l j => f (elem (s.vreg a l) w j)) i) _
    exact .cons (mapElems_lands rfl fun _ _ _ => (Nat.mod_mod _ _).trans (hm ▸ rfl)) <|
      .cons (mapElems_lands rfl fun _ _ hx => (Nat.mod_eq_of_lt (Nat.and_le_left.trans_lt hx)).trans (hm ▸ rfl)) <|
      .cons (mapElems_lands rfl fun _ _ hx => (Nat.mod_eq_of_lt (Nat.or_lt_two_pow hx (hm ▸ hy))).trans (hm ▸ rfl)) <|
      .cons (mapElems_lands rfl fun _ _ hx => (Nat.mod_eq_of_lt (Nat.xor_lt_two_pow hx (hm ▸ hy))).trans (hm ▸ rfl)) <|
      .cons (mapElems_lands rfl fun _ _ _ => Nat.mod_mod _ _) <|
      .cons (mapElems_lands rfl fun _ _ hx => Nat.mod_eq_of_lt ((Nat.div_le_self _ _).trans_lt hx)) <|
      .cons (mapElems_lands rfl fun _ _ _ => iSar_mod w _ n.toNat) .nil
  case words =>
    change Table (fun i (v : Nat → Word) => ∃ t, Machine.exec i s = .next t ∧ LandsV s t d 1 allLanes v) _
    exact .cons (putV_lands_of_eq rfl fun l => congrArg word (bits_field ..)) <|
      .cons (putV_lands_of_eq rfl fun l => word_iFsh ..) <|
      .cons (putV_lands_of_eq rfl fun l => congrArg (BitVec.ofInt 64) (toInt_eq_signedOf h)) <|
      .cons (putV_lands_of_eq rfl fun l => rfl) .nil

/-! ## Bit fields (R167) -/

theorem bits_wide {w x y : Nat} (hpos : bfPos y < w) : bits x (min (bfPos y + bfLen y) w - 1) (bfPos y) =
    x / 2 ^ bfPos y % 2 ^ (min (bfPos y + bfLen y) w - bfPos y) := by
  have hlen : 1 ≤ bfLen y := Nat.le_add_left ..
  rw [bits, Nat.sub_add_cancel (by omega)]
theorem iBfx_eq (w x y : Nat) : iBfx w x y =
    if w ≤ bfPos y then 0 else x / 2 ^ bfPos y % 2 ^ (min (bfPos y + bfLen y) w - bfPos y) := by
  unfold iBfx
  split
  next => rfl
  next h => exact bits_wide (Nat.not_le.mp h)
theorem iBfx_lt {w x y : Nat} (hx : x < 2 ^ w) : iBfx w x y < 2 ^ w := by
  rw [iBfx_eq]
  refine ite_lt_of_lt (Nat.two_pow_pos w) ?_
  exact ((Nat.mod_le _ _).trans (Nat.div_le_self _ _)).trans_lt hx
theorem iBfxs_mod (w x y : Nat) : iBfxs w x y % 2 ^ w = if w ≤ bfPos y then 0 else
    modOf w (signedOf (min (bfPos y + bfLen y) w - bfPos y) (x / 2 ^ bfPos y % 2 ^ (min (bfPos y + bfLen y) w - bfPos y))) := by
  have hlen : 1 ≤ bfLen y := Nat.le_add_left ..
  unfold iBfxs
  split
  next => exact Nat.zero_mod _
  next h =>
    have hpos := Nat.not_le.mp h
    rw [wrap_mod, bits_wide hpos, signed_eq_signedOf,
      show min (bfPos y + bfLen y) w - 1 - bfPos y + 1 = min (bfPos y + bfLen y) w - bfPos y by omega]
/-- A value is what stands above a field, the field and what stands below it. -/
theorem field_split (x pos n : Nat) : 2 ^ (pos + n) * (x / 2 ^ (pos + n)) + (x / 2 ^ pos % 2 ^ n * 2 ^ pos + x % 2 ^ pos) = x := by
  have hlow : x % 2 ^ (pos + n) = x / 2 ^ pos % 2 ^ n * 2 ^ pos + x % 2 ^ pos := by
    rw [pow_add, Nat.mod_mul, Nat.mul_comm, Nat.add_comm]
  rw [← hlow, Nat.div_add_mod]
/-- The bits that are not in a field are what stands above and below it. -/
theorem and_not_field {w x pos n : Nat} (hx : x < 2 ^ w) (hn : pos + n ≤ w) :
    x &&& (2 ^ w - 1 - (2 ^ n - 1) * 2 ^ pos) = 2 ^ (pos + n) * (x / 2 ^ (pos + n)) + x % 2 ^ pos := by
  have hmask : (2 ^ n - 1) * 2 ^ pos < 2 ^ w := by
    calc (2 ^ n - 1) * 2 ^ pos < 2 ^ n * 2 ^ pos :=
          Nat.mul_lt_mul_of_pos_right (Nat.sub_lt (Nat.two_pow_pos _) Nat.one_pos) (Nat.two_pow_pos _)
      _ = 2 ^ (pos + n) := by rw [pow_add, Nat.mul_comm]
      _ ≤ 2 ^ w := Nat.pow_le_pow_right two_pos hn
  have hlow : x % 2 ^ pos < 2 ^ (pos + n) :=
    (Nat.mod_lt _ (Nat.two_pow_pos _)).trans_le (Nat.pow_le_pow_right two_pos (Nat.le_add_right ..))
  refine Nat.eq_of_testBit_eq fun j => ?_
  rw [Nat.testBit_and, Nat.sub_sub, Nat.add_comm 1, Nat.testBit_two_pow_sub_succ hmask, Nat.testBit_mul_two_pow,
    Nat.testBit_two_pow_sub_one, Nat.testBit_two_pow_mul_add _ hlow, Nat.testBit_mod_two_pow, Nat.testBit_div_two_pow]
  by_cases hj : j < w
  · by_cases hin : j < pos + n
    · by_cases hbelow : j < pos
      · simp [hj, hin, hbelow, Nat.not_le.mpr hbelow]
      · have hat : pos ≤ j := Nat.not_lt.mp hbelow
        have : j - pos < n := by omega
        simp [hj, hin, hbelow, hat, this]
    · have : ¬ j - pos < n := by omega
      simp [hj, hin, this, Nat.sub_add_cancel (Nat.not_lt.mp hin)]
  · have hzero : x.testBit j = false := Nat.testBit_lt_two_pow (hx.trans_le (Nat.pow_le_pow_right two_pos (Nat.not_lt.mp hj)))
    have hin : ¬ j < pos + n := by omega
    simp [hin, hzero, Nat.sub_add_cancel (Nat.not_lt.mp hin)]
/-- An insertion takes the old field out and puts the new one in, within the width. -/
theorem insert_field {w d x pos n : Nat} (hd : d < 2 ^ w) (hn : pos + n ≤ w) :
    ((d &&& (2 ^ w - 1 - (2 ^ n - 1) * 2 ^ pos)) + x % 2 ^ n * 2 ^ pos) % 2 ^ w =
      d - d / 2 ^ pos % 2 ^ n * 2 ^ pos + x % 2 ^ n * 2 ^ pos := by
  have hsplit := field_split d pos n
  have hnew : x % 2 ^ n * 2 ^ pos + d % 2 ^ pos < 2 ^ (pos + n) := by
    have hfield : x % 2 ^ n + 1 ≤ 2 ^ n := Nat.mod_lt _ (Nat.two_pow_pos n)
    calc x % 2 ^ n * 2 ^ pos + d % 2 ^ pos < x % 2 ^ n * 2 ^ pos + 2 ^ pos := Nat.add_lt_add_left (Nat.mod_lt _ (Nat.two_pow_pos _)) _
      _ = (x % 2 ^ n + 1) * 2 ^ pos := by ring
      _ ≤ 2 ^ n * 2 ^ pos := Nat.mul_le_mul_right _ hfield
      _ = 2 ^ (pos + n) := by rw [pow_add, Nat.mul_comm]
  have habove : 2 ^ (pos + n) * (d / 2 ^ (pos + n)) + 2 ^ (pos + n) ≤ 2 ^ w := by
    have hlt : d / 2 ^ (pos + n) < 2 ^ (w - (pos + n)) := by
      rw [Nat.div_lt_iff_lt_mul (Nat.two_pow_pos _), ← pow_add, Nat.sub_add_cancel hn]
      exact hd
    calc 2 ^ (pos + n) * (d / 2 ^ (pos + n)) + 2 ^ (pos + n) = 2 ^ (pos + n) * (d / 2 ^ (pos + n) + 1) := by ring
      _ ≤ 2 ^ (pos + n) * 2 ^ (w - (pos + n)) := Nat.mul_le_mul_left _ hlt
      _ = 2 ^ w := by rw [← pow_add, Nat.add_sub_cancel' hn]
  rw [and_not_field hd hn, Nat.mod_eq_of_lt (by omega)]
  omega
theorem iBfi_mod {w d x y : Nat} (hd : d < 2 ^ w) : iBfi w d x y % 2 ^ w = if w ≤ bfPos y then d else
    d - d / 2 ^ bfPos y % 2 ^ (min (bfPos y + bfLen y) w - bfPos y) * 2 ^ bfPos y +
      x % 2 ^ (min (bfPos y + bfLen y) w - bfPos y) * 2 ^ bfPos y := by
  have hlen : 1 ≤ bfLen y := Nat.le_add_left ..
  unfold iBfi
  split
  next => exact Nat.mod_eq_of_lt hd
  next h =>
    dsimp only
    rw [show min (bfPos y + bfLen y) w - 1 - bfPos y + 1 = min (bfPos y + bfLen y) w - bfPos y by omega, iAndn]
    exact insert_field hd (by omega)

/-! ## Bit counts and reversals (R170) -/

theorem leadingZeros_eq_takeWhile {w x : Nat} (hx : x < 2 ^ w) :
    leadingZeros x w = ((List.range w).takeWhile fun n => !x.testBit (w - 1 - n)).length := by
  rw [length_takeWhile_range, leadingZeros]
  split
  next h0 =>
    have hnone : (List.range w).find? (fun n => x.testBit (w - 1 - n)) = none := by simp [h0]
    rw [hnone]
    rfl
  next h0 =>
    have hlog : x.log2 < w := (Nat.log2_lt h0).mpr hx
    have hsome : (List.range w).find? (fun n => x.testBit (w - 1 - n)) = some (w - 1 - x.log2) := by
      rw [List.find?_range_eq_some]
      refine ⟨?_, List.mem_range.mpr (by omega), fun j hj => ?_⟩
      · rw [show w - 1 - (w - 1 - x.log2) = x.log2 by omega]
        exact Nat.testBit_log2 h0
      · rw [Nat.testBit_lt_two_pow ((Nat.log2_lt h0).mp (by omega))]
        rfl
    rw [hsome]
    rfl
theorem leadingZeros_lt (x w : Nat) : leadingZeros x w < 2 ^ w := by
  refine lt_of_le_of_lt ?_ Nat.lt_two_pow_self
  unfold leadingZeros
  split <;> omega
theorem popcount_eq (x w : Nat) : popcount x w = ((List.range w).filter fun n => x.testBit n).length := by
  simp only [popcount, bitAt_eq_testBit]
theorem popcount_lt (x w : Nat) : popcount x w < 2 ^ w :=
  ((List.length_filter_le _ _).trans (List.length_range).le).trans_lt Nat.lt_two_pow_self

/-- Digits taken one after the other, the first the highest, by Horner's scheme. -/
def horner (B : Nat) (f : Nat → Nat) (n : Nat) : Nat := (List.range n).foldl (fun acc i => acc * B + f i) 0
theorem horner_succ (B : Nat) (f : Nat → Nat) (n : Nat) : horner B f (n + 1) = horner B f n * B + f n := by
  simp [horner, List.range_succ]
theorem horner_eq_sum (B : Nat) (f : Nat → Nat) (n : Nat) : horner B f n = ((List.range n).map fun i => f i * B ^ (n - 1 - i)).sum := by
  induction n with
  | zero => rfl
  | succ n ih =>
    have hshift : ((List.range n).map fun i => f i * B ^ (n - 1 - i) * B) = (List.range n).map fun i => f i * B ^ (n + 1 - 1 - i) :=
      List.map_congr_left fun i hi => by
        have : n + 1 - 1 - i = n - 1 - i + 1 := by have := List.mem_range.mp hi; omega
        rw [this, pow_succ, Nat.mul_assoc]
    rw [horner_succ, ih, ← List.sum_map_mul_right, hshift, List.range_succ, List.map_append, List.sum_append]
    simp
theorem horner_lt {B : Nat} {f : Nat → Nat} (hf : ∀ i, f i < B) (n : Nat) : horner B f n < B ^ n := by
  induction n with
  | zero => exact Nat.one_pos
  | succ n ih =>
    calc horner B f (n + 1) < horner B f n * B + B := by rw [horner_succ]; exact Nat.add_lt_add_left (hf n) _
      _ = (horner B f n + 1) * B := by ring
      _ ≤ B ^ n * B := Nat.mul_le_mul_right _ ih
      _ = B ^ (n + 1) := (pow_succ ..).symm
theorem revBits_lt (x w : Nat) : revBits x w < 2 ^ w := horner_lt (fun _ => Nat.mod_lt _ two_pos) w
theorem revBits_eq_sum (x w : Nat) : revBits x w = ((List.range w).map fun n => if x.testBit n then 2 ^ (w - 1 - n) else 0).sum := by
  refine (horner_eq_sum 2 (fun i => x / 2 ^ i % 2) w).trans (congrArg List.sum (List.map_congr_left fun i _ => ?_))
  rw [← Nat.toNat_testBit]
  cases x.testBit i <;> simp
theorem revBytes_eq_sum (x w : Nat) :
    revBytes x w = ((List.range (w / 8)).map fun n => x / 256 ^ n % 256 * 256 ^ (w / 8 - 1 - n)).sum :=
  horner_eq_sum 256 (fun i => x / 256 ^ i % 256) (w / 8)
theorem revBytes_lt (x w : Nat) : revBytes x w < 2 ^ w :=
  calc revBytes x w < 256 ^ (w / 8) := horner_lt (fun _ => Nat.mod_lt _ (by decide)) _
    _ = 2 ^ (8 * (w / 8)) := (pow_mul 2 8 (w / 8)).symm
    _ ≤ 2 ^ w := Nat.pow_le_pow_right two_pos (Nat.mul_div_le w 8)

/-! ## The forms of bit fields and counts -/

theorem laneFieldForms : Claims.LaneFieldForms := by
  intro s z d a b k w A B D pos wide
  have hpos (l : Nat) : bfPos (s.vreg b l).toNat = pos l := bfPos_eq _
  have hwide (l : Nat) : min (pos l + bfLen (s.vreg b l).toNat) w - pos l = wide l := rfl
  refine ⟨⟨_, rfl, putV_lands ..⟩, ⟨_, _, rfl, putV_lands .., fun l j hj => ?broadcast⟩, ?forms⟩
  case broadcast =>
    rw [elem_mapElems _ _ hj, elem, Nat.mul_zero, pow_zero, Nat.div_one, Nat.mod_mod]
  case forms =>
    change Table (fun i (e : Nat → Nat → Nat) => LandsElems s d 1 (s.active k) w e i) _
    exact .cons (mapElems_lands rfl fun l j hx => by rw [Nat.mod_eq_of_lt (iBfx_lt hx), iBfx_eq, hpos, hwide]) <|
      .cons (mapElems_lands rfl fun l j _ => by rw [iBfxs_mod, hpos, hwide]) <|
      .cons ⟨_, _, rfl, putV_lands .., fun l j hj => by rw [elem_mapElems2 _ _ _ hj, iBfi_mod (elem_lt ..), hpos, hwide]⟩ <|
      .cons ⟨_, _, rfl, putV_lands .., fun l j hj => (elem_mapElems3 _ _ _ _ hj).trans (Nat.mod_mod _ _)⟩ <|
      .cons (mapElems_lands rfl fun _ _ hx => (Nat.mod_eq_of_lt (leadingZeros_lt _ w)).trans (leadingZeros_eq_takeWhile hx)) <|
      .cons (mapElems_lands rfl fun _ _ _ => (Nat.mod_eq_of_lt (popcount_lt _ w)).trans (popcount_eq _ w)) <|
      .cons (mapElems_lands rfl fun _ _ _ => (Nat.mod_eq_of_lt (revBits_lt _ w)).trans (revBits_eq_sum _ w)) <|
      .cons (mapElems_lands rfl fun _ _ _ => (Nat.mod_eq_of_lt (revBytes_lt _ w)).trans (revBytes_eq_sum _ w)) .nil

/-- Settles O6, by the forms with immediates and the forms with bit fields. -/
theorem laneImmediateAndFieldForms : Obligations.LaneImmediateAndFieldForms := ⟨laneImmediateForms, laneFieldForms⟩
end Sys2Proof.Proofs
end
section
/-! SUPPORT. Sums and products of finite values (O9). -/
namespace Sys2Proof.Proofs
open Sys2Proof.Machine Sys2Proof.Claims Sys2Proof.Laws

/-- A sign and a magnitude as an integer. -/
def signedMant (n : Bool) (m : Nat) : Int := if n then -(m : Int) else m

theorem valQ_eq_signedMant (n : Bool) (m : Nat) (e : Int) : valQ n m e = (signedMant n m : ℚ) * 2 ^ e := by
  cases n <;> simp [valQ, signedMant]
theorem signedMant_natAbs (x : Int) : signedMant (x < 0) x.natAbs = x := by
  by_cases h : x < 0
  · simp only [signedMant, h, decide_true, if_true]
    omega
  · simp only [signedMant, h, decide_false, Bool.false_eq_true, if_false]
    omega
/-- A value does not change when it is counted in smaller units. -/
theorem valQ_shift (n : Bool) (m : Nat) {e g : Int} (h : g ≤ e) :
    valQ n m e = (signedMant n (m * 2 ^ (e - g).toNat) : ℚ) * 2 ^ g := by
  have hpow : (2 : ℚ) ^ e = 2 ^ (e - g).toNat * 2 ^ g := by
    rw [← zpow_natCast, ← zpow_add₀ two_ne_zero, Int.toNat_of_nonneg (sub_nonneg.mpr h), sub_add_cancel]
  rw [valQ_eq_signedMant, hpow]
  cases n <;> simp [signedMant, mul_assoc]
theorem valQ_mul (n₁ n₂ : Bool) (m₁ m₂ : Nat) (e₁ e₂ : Int) :
    valQ (n₁ != n₂) (m₁ * m₂) (e₁ + e₂) = valQ n₁ m₁ e₁ * valQ n₂ m₂ e₂ := by
  have hpow : (2 : ℚ) ^ (e₁ + e₂) = 2 ^ e₁ * 2 ^ e₂ := zpow_add₀ two_ne_zero ..
  cases n₁ <;> cases n₂ <;> simp [valQ, hpow] <;> ring
/-- The sum of two values, counted in the smaller of their units. -/
def alignedSum (n₁ : Bool) (m₁ : Nat) (e₁ : Int) (n₂ : Bool) (m₂ : Nat) (e₂ : Int) : Int :=
  signedMant n₁ (m₁ * 2 ^ (e₁ - min e₁ e₂).toNat) + signedMant n₂ (m₂ * 2 ^ (e₂ - min e₁ e₂).toNat)
theorem valQ_add (n₁ n₂ : Bool) (m₁ m₂ : Nat) (e₁ e₂ : Int) :
    valQ n₁ m₁ e₁ + valQ n₂ m₂ e₂ = (alignedSum n₁ m₁ e₁ n₂ m₂ e₂ : ℚ) * 2 ^ min e₁ e₂ := by
  rw [valQ_shift n₁ m₁ (min_le_left e₁ e₂), valQ_shift n₂ m₂ (min_le_right e₁ e₂), alignedSum, Int.cast_add, add_mul]
theorem addNum_eq (mode : Nat) (n₁ n₂ : Bool) (m₁ m₂ : Nat) (e₁ e₂ : Int) : addNum mode n₁ m₁ e₁ n₂ m₂ e₂ =
    if alignedSum n₁ m₁ e₁ n₂ m₂ e₂ = 0 then .zero (zeroSumSign mode n₁ n₂ (m₁ == 0 && m₂ == 0))
    else .num (alignedSum n₁ m₁ e₁ n₂ m₂ e₂ < 0) (alignedSum n₁ m₁ e₁ n₂ m₂ e₂).natAbs (min e₁ e₂) false := rfl
theorem addNum_exact (mode : Nat) (n₁ n₂ : Bool) (m₁ m₂ : Nat) (e₁ e₂ : Int) :
    ∃ n m e, addNum mode n₁ m₁ e₁ n₂ m₂ e₂ = .num n m e false ∧ valQ n m e = valQ n₁ m₁ e₁ + valQ n₂ m₂ e₂ := by
  rw [addNum_eq, valQ_add]
  by_cases h : alignedSum n₁ m₁ e₁ n₂ m₂ e₂ = 0
  · exact ⟨_, 0, 0, if_pos h, by simp [valQ, h]⟩
  · exact ⟨_, _, _, if_neg h, by rw [valQ_eq_signedMant, signedMant_natAbs]⟩
theorem addFp_exact (mode : Nat) (n₁ n₂ : Bool) (m₁ m₂ : Nat) (e₁ e₂ : Int) :
    ∃ n m e, addFp mode (.num n₁ m₁ e₁ false) (.num n₂ m₂ e₂ false) = (.num n m e false, 0) ∧
      valQ n m e = valQ n₁ m₁ e₁ + valQ n₂ m₂ e₂ := by
  obtain ⟨n, m, e, hadd, hval⟩ := addNum_exact mode n₁ n₂ m₁ m₂ e₁ e₂
  exact ⟨n, m, e, congrArg (·, 0) hadd, hval⟩
/-- Of finite values a fused sum is the sum with the product, which is no invalid operation. -/
theorem fmaFp_of_finite (mode : Nat) (n₁ n₂ n₃ : Bool) (m₁ m₂ m₃ : Nat) (e₁ e₂ e₃ : Int) :
    fmaFp mode (.num n₁ m₁ e₁ false) (.num n₂ m₂ e₂ false) (.num n₃ m₃ e₃ false) =
      addFp mode (.num (n₁ != n₂) (m₁ * m₂) (e₁ + e₂) false) (.num n₃ m₃ e₃ false) := by
  simp [fmaFp, mulFp, addFp, sigFlag, Fp.isSig]

/-- Settles O9: a sum is counted in the smaller unit, a product's unit is the product of the units. -/
theorem finiteArithmeticIsExact : Obligations.FiniteArithmeticIsExact := by
  intro mode n₁ n₂ n₃ m₁ m₂ m₃ e₁ e₂ e₃ x y z
  refine ⟨addFp_exact .., ⟨_, _, _, rfl, valQ_mul ..⟩, ?_⟩
  rw [fmaFp_of_finite]
  obtain ⟨n, m, e, hadd, hval⟩ := addFp_exact mode (n₁ != n₂) n₃ (m₁ * m₂) m₃ (e₁ + e₂) e₃
  exact ⟨n, m, e, hadd, by rw [hval, valQ_mul]⟩
end Sys2Proof.Proofs
end
section
/-! SUPPORT. Class F: what its forms leave in lanes, flags and generators (O7, O8). -/
namespace Sys2Proof.Proofs
open Sys2Proof.Machine Sys2Proof.Claims Sys2Proof.Laws

/-! ## Flags of many elements -/

theorem foldl_or {α : Type} (f : α → Nat) (xs : List α) (n : Nat) : xs.foldl (fun acc x => acc ||| f x) n = n ||| orAll (xs.map f) := by
  induction xs generalizing n with
  | nil => exact (Nat.or_zero n).symm
  | cons x xs ih =>
    have hall : orAll ((x :: xs).map f) = f x ||| orAll (xs.map f) := by
      simp only [orAll, List.foldl_map] at ih ⊢
      rw [List.foldl_cons, ih, Nat.zero_or]
    rw [List.foldl_cons, ih, hall, Nat.or_assoc]
theorem foldl_or_zero {α : Type} (f : α → Nat) (xs : List α) : xs.foldl (fun acc x => acc ||| f x) 0 = orAll (xs.map f) :=
  (foldl_or f xs 0).trans (Nat.zero_or _)
theorem orAll_cons (x : Nat) (xs : List Nat) : orAll (x :: xs) = x ||| orAll xs := by
  have h := foldl_or id xs x
  rw [List.map_id] at h
  simpa [orAll] using h
theorem orAll_append (xs ys : List Nat) : orAll (xs ++ ys) = orAll xs ||| orAll ys := by
  have h := foldl_or id ys (orAll xs)
  rw [List.map_id] at h
  simpa [orAll] using h
theorem orAll_flatMap {α : Type} (f : α → List Nat) (xs : List α) : orAll (xs.flatMap f) = orAll (xs.map fun x => orAll (f x)) := by
  induction xs with
  | nil => rfl
  | cons x xs ih => rw [List.flatMap_cons, orAll_append, ih, List.map_cons, orAll_cons]
/-- One flag is raised when one element raises it. -/
theorem orAll_ite {α : Type} (p : α → Bool) (n : Nat) (xs : List α) :
    orAll (xs.map fun x => if p x then n else 0) = if xs.any p then n else 0 := by
  induction xs with
  | nil => rfl
  | cons x xs ih =>
    rw [List.map_cons, orAll_cons, ih, List.any_cons]
    cases p x <;> cases xs.any p <;> simp

/-! ## Raising flags (R188, R189) -/

/-- `u` is `s` with the flags `fl` in FCSR and in the bundle's notes, and with other lane generators. -/
structure Raised (s u : State) (fl : Nat) (srd : Map (BitVec 32)) : Prop where
  base : u.base = s.base
  rest : { u.core with weaves := s.core.weaves, iss := s.core.iss } = s.core
  others : ∀ v, v ≠ s.core.cur → u.core.weave v = s.core.weave v
  weave : me u = { me s with fcsr := (me s).fcsr ||| BitVec.ofNat 64 (fl * 16), srd := srd }
  iss : u.core.iss = { s.core.iss with
    flags := s.core.iss.flags ||| fl
    fpx := s.core.iss.fpx ||| (fl &&& s.wv.te)
    fpxSlot := if s.core.iss.fpx = 0 then s.core.iss.slot else s.core.iss.fpxSlot }

/-- The flags `fl` in a weave's FCSR.FLAGS. -/
def orFcsr (fl : Nat) (x : Weave) : Weave := { x with fcsr := x.fcsr ||| word (fl * 16) }
/-- What `withFlags` hands to its continuation. -/
def flagged (s : State) (fl : Nat) : State :=
  (s.modW (orFcsr fl)).modIss fun i => { i with
    flags := i.flags ||| fl, fpx := i.fpx ||| (fl &&& s.wv.te), fpxSlot := if i.fpx = 0 then i.slot else i.fpxSlot }
theorem withFlags_eq (s : State) (fl : Nat) (f : State → State) : s.withFlags fl f = f (flagged s fl) := rfl

theorem flagged_raised (s : State) (fl : Nat) : Raised s (flagged s fl) fl (me s).srd where
  base := rfl
  rest := rfl
  others _ hv := modW_weave_other s.core (orFcsr fl) hv
  weave := modW_weave_same s.core s.core.cur (orFcsr fl)
  iss := rfl

section
variable {s u t : State} {fl : Nat} {srd : Map (BitVec 32)}

theorem Raised.cur (h : Raised s u fl srd) : u.core.cur = s.core.cur := (congrArg Core.cur h.rest :)
theorem Raised.now (h : Raised s u fl srd) : u.now = s.now := (congrArg Core.now h.rest :)
theorem Raised.mem (h : Raised s u fl srd) : u.core.mem = s.core.mem := (congrArg Core.mem h.rest :)
theorem Raised.modW_srd (h : Raised s u fl srd) (f : Weave → Map (BitVec 32)) :
    Raised s (u.modW fun x => { x with srd := f x }) fl (f (me u)) where
  base := h.base
  rest := h.rest
  others v hv := (modW_weave_other u.core _ (h.cur ▸ hv)).trans (h.others v hv)
  weave := by
    refine (modW_weave_same u.core u.core.cur _).trans ?_
    change { me u with srd := f (me u) } = _
    rw [h.weave]
  iss := h.iss
/-- Results that land after flags are raised leave them as raised, and the generators. -/
theorem Raised.raises (h : Raised s u fl srd) (hland : SameButFlight u t) : Raises s t fl ∧ (me t).srd = srd := by
  obtain ⟨hbase, hrest, hothers, hme, hmem⟩ := hland
  have hme' : me t = { me u with flight := (me t).flight } := (congrArg (fun x : Weave => { x with flight := (me t).flight }) hme :)
  have hiss : t.core.iss = u.core.iss := (congrArg Core.iss hrest :)
  rw [h.weave] at hme'
  refine ⟨⟨⟨hbase.trans h.base, ?rest, fun v hv => ?others, ?me, fun a => (hmem a).trans (by rw [h.mem])⟩, ?fcsr, hiss.trans h.iss⟩, ?srd⟩
  case rest =>
    have hagenda : s.core.agenda = u.core.agenda := (congrArg Core.agenda h.rest :).symm
    have hnextId : s.core.nextId = u.core.nextId := (congrArg Core.nextId h.rest :).symm
    rw [hagenda, hnextId]
    exact (congrArg (fun c : Core => { c with weaves := s.core.weaves, iss := s.core.iss }) hrest :).trans h.rest
  case others => exact (hothers v (h.cur ▸ hv)).trans (h.others v hv)
  case me => rw [hme']
  case fcsr => rw [hme']
  case srd => rw [hme']
theorem Raised.readsV (h : Raised s u fl srd) {d : Reg} {L : Nat} {lanes : List Nat} {f : Nat → Word} (hreads : ReadsV u t d L lanes f) :
    ReadsV s t d L lanes f := by
  unfold ReadsV Settled at *
  rw [h.weave, h.now] at hreads
  exact hreads
theorem Raised.readsK (h : Raised s u fl srd) {d : KReg} {L : Nat} {lanes : List Nat} {f : Nat → Bool} (hreads : ReadsK u t d L lanes f) :
    ReadsK s t d L lanes f := by
  unfold ReadsK Settled at *
  rw [h.weave, h.now] at hreads
  exact hreads
end

/-- Lane results land after flags are raised, and the flags stand. -/
theorem flagged_putV_lands (s : State) (fl : Nat) (d : Reg) (L : Nat) (lanes : List Nat) (f : Nat → Word) :
    ReadsV s ((flagged s fl).putV d L lanes f) d L lanes f ∧ Raises s ((flagged s fl).putV d L lanes f) fl ∧
      (me ((flagged s fl).putV d L lanes f)).srd = (me s).srd := by
  obtain ⟨hframe, hreads⟩ := putV_lands (flagged s fl) d L lanes f
  exact ⟨(flagged_raised s fl).readsV hreads, (flagged_raised s fl).raises hframe⟩
theorem flagged_putK_lands (s : State) (fl : Nat) (d : KReg) (L : Nat) (lanes : List Nat) (f : Nat → Bool) :
    ReadsK s ((flagged s fl).putK d L lanes f) d L lanes f ∧ Raises s ((flagged s fl).putK d L lanes f) fl ∧
      (me ((flagged s fl).putK d L lanes f)).srd = (me s).srd := by
  obtain ⟨hframe, hreads, -⟩ := putK_lands (flagged s fl) d L lanes f
  exact ⟨(flagged_raised s fl).readsK hreads, (flagged_raised s fl).raises hframe⟩

/-! ## Forms that compute bits and flags of elements -/

/-- A float form lands `(g l j).1` in element j of lane l and raises the flags of all elements. -/
def LandsFloat (s : State) (d : Reg) (L : Nat) (lanes : List Nat) (w : Nat) (g : Nat → Nat → Nat × Nat) (i : Instr) : Prop :=
  ∃ t v, Machine.exec i s = .next t ∧ ReadsV s t d L lanes v ∧ (∀ l, Elems w (v l) fun j => (g l j).1 % 2 ^ w) ∧
    Raises s t (orAll (lanes.flatMap fun l => (List.range (64 / w)).map fun j => (g l j).2)) ∧ (me t).srd = (me s).srd

theorem elem_elemsF {w i : Nat} (f : Nat → Nat × Nat) (hi : i < 64 / w) : elem (elemsF w f).1 w i = (f i).1 % 2 ^ w := by
  have hfit : w * (64 / w) ≤ 64 := Nat.mul_div_le 64 w
  rw [elemsF, elem_packElems _ _ _ (by simpa using hfit)]
  simp [hi]
theorem flags_elemsF (w : Nat) (f : Nat → Nat × Nat) : (elemsF w f).2 = orAll ((List.range (64 / w)).map fun j => (f j).2) := by
  change orFlags _ = _
  rw [orFlags, foldl_or_zero, List.map_map]
  rfl
theorem laneF_eq (s : State) (L : Nat) (d : Reg) (lanes : List Nat) (f : Nat → Word × Nat) :
    s.laneF L d lanes f = (flagged s (orAll (lanes.map fun l => (f l).2))).putV d L lanes fun l => (f l).1 := by
  simp only [State.laneF, withFlags_eq, laneFlags, foldl_or_zero, List.map_map, Function.comp_def, State.putV]
/-- A form that computes bits and flags of elements lands the bits and raises the flags (R160, R174, R188). -/
theorem laneF_lands {s : State} {i : Instr} {L : Nat} {d : Reg} {lanes : List Nat} {w : Nat} {f g : Nat → Nat → Nat × Nat}
    (hexec : Machine.exec i s = .next (s.laneF L d lanes fun l => elemsF w (f l))) (hf : ∀ l j, f l j = g l j) :
    LandsFloat s d L lanes w g i := by
  obtain rfl : f = g := funext fun l => funext fun j => hf l j
  have hflags : orAll (lanes.flatMap fun l => (List.range (64 / w)).map fun j => (f l j).2) =
      orAll (lanes.map fun l => (elemsF w (f l)).2) := by
    rw [orAll_flatMap]
    simp only [flags_elemsF]
  rw [LandsFloat, hflags]
  obtain ⟨hreads, hraises⟩ := flagged_putV_lands s (orAll (lanes.map fun l => (elemsF w (f l)).2)) d L lanes fun l => (elemsF w (f l)).1
  exact ⟨_, _, hexec.trans (congrArg _ (laneF_eq ..)), hreads, fun _ _ hj => elem_elemsF _ hj, hraises⟩

/-! ## Lane arithmetic (R174 to R181, R186) -/

theorem minMaxFp_flag (isMax : Bool) (x y : Fp) : (minMaxFp isMax x y).2 = sigFlag [x, y] := by
  unfold minMaxFp
  cases x.isNan <;> cases y.isNan <;> rfl
/-- `vfscl`: the two exponent bytes each have a bias of 127, and one that is 255 gives NaN (R180). -/
theorem scale_eq (f : FSpec) (r : Rnd) (x : Fp) (a b : Nat) :
    (if a = 255 ∨ b = 255 then (defaultNan f, 0) else roundTo f r (scaleFp x ((a : Int) + b - 254))) =
    if a = 255 ∨ b = 255 then (defaultNan f, 0)
      else ((roundTo f r (scaleFp x ((a : Int) - 127 + ((b : Int) - 127)))).1,
        0 ||| (roundTo f r (scaleFp x ((a : Int) - 127 + ((b : Int) - 127)))).2) := by
  rw [show (a : Int) - 127 + ((b : Int) - 127) = a + b - 254 by omega, Nat.zero_or]

theorem scaleBy_eq (f : FSpec) (r : Rnd) (x : Fp) (e : BitVec 9) : roundTo f r (scaleFp x e.toInt) =
    ((roundTo f r (scaleFp x (signedOf 9 e.toNat))).1, 0 ||| (roundTo f r (scaleFp x (signedOf 9 e.toNat))).2) := by
  rw [toInt_eq_signedOf, Nat.zero_or]

theorem laneFloatForms : Claims.LaneFloatForms := by
  intro s f d a b k e m X Y Z sp R N scale i L lanes g hi
  refine (?table : Table (fun i (p : Nat × List Nat × (Nat → Nat → Nat × Nat)) => LandsFloat s d p.1 p.2.1 sp.w p.2.2 i) _)
    i (L, lanes, g) hi
  exact .cons (laneF_lands rfl fun _ _ => rfl) <|
    .cons (laneF_lands rfl fun _ _ => rfl) <|
    .cons (laneF_lands rfl fun _ _ => rfl) <|
    .cons (laneF_lands rfl fun _ _ => rfl) <|
    .cons (laneF_lands rfl fun _ _ => rfl) <|
    .cons (laneF_lands rfl fun _ _ => rfl) <|
    .cons (laneF_lands rfl fun _ _ => congrArg (_, ·) (minMaxFp_flag ..)) <|
    .cons (laneF_lands rfl fun _ _ => congrArg (_, ·) (minMaxFp_flag ..)) <|
    .cons (laneF_lands rfl fun _ _ => rfl) <|
    .cons (laneF_lands rfl fun _ _ => rfl) <|
    .cons (laneF_lands rfl fun _ _ => rfl) <|
    .cons (laneF_lands rfl fun _ _ => rfl) <|
    .cons (laneF_lands rfl fun _ _ => rfl) <|
    .cons (laneF_lands rfl fun _ _ => rfl) <|
    .cons (laneF_lands rfl fun _ _ => rfl) <|
    .cons (laneF_lands rfl fun l j => scale_eq sp s.wv.arithRnd (X l j) (scale l (2 * j)) (scale l (2 * j + 1))) <|
    .cons (laneF_lands rfl fun l j => scaleBy_eq sp s.wv.arithRnd (X l j) e) <|
    .cons (laneF_lands rfl fun _ _ => rfl) .nil

/-! ## The packed dot product (R187) -/

theorem foldl_add_eq_sum {α : Type} (f : α → Int) (xs : List α) (n : Int) : xs.foldl (fun acc x => acc + f x) n = n + (xs.map f).sum := by
  induction xs generalizing n with
  | nil => simp
  | cons x xs ih => rw [List.foldl_cons, ih, List.map_cons, List.sum_cons, add_assoc]
theorem packedDotProduct : Claims.PackedDotProduct := by
  intro s f d a b k sp q half el float int g
  refine laneF_lands (w := 32) rfl fun l j => ?_
  by_cases hf : f = .i
  · simp only [if_pos hf, g]
    refine congrArg (·, 0) ?_
    rw [foldl_add_eq_sum, wrap_eq_modOf]
    simp only [signed_eq_signedOf]
    rfl
  · simp only [if_neg hf, g]
    rfl

/-- Settles O7, by the arithmetic forms and the dot product. -/
theorem laneFloatArithmetic : Obligations.LaneFloatArithmetic := ⟨laneFloatForms, packedDotProduct⟩
end Sys2Proof.Proofs
end
section
/-! SUPPORT. Compares and conversions of class F (O8). -/
namespace Sys2Proof.Proofs
open Sys2Proof.Machine Sys2Proof.Claims Sys2Proof.Laws

/-! ## Compares (R177) -/

/-- The flags of a compare: NV when one element of one lane raises it. -/
def cmpFlags (lanes : List Nat) (n : Nat) (nv : Nat → Nat → Bool) : Nat :=
  if lanes.any fun l => (List.range n).any fun j => nv l j then fNV else 0
theorem foldl_cmpFlags (lanes : List Nat) (n : Nat) (g : Nat → Nat → Bool × Nat) {nv : Nat → Nat → Bool}
    (hnv : ∀ l j, (g l j).2 = if nv l j then fNV else 0) :
    (lanes.map fun l => (l, (List.range n).map (g l))).foldl (fun acc p => p.2.foldl (fun acc q => acc ||| q.2) acc) 0 =
      cmpFlags lanes n nv := by
  have hlane (l : Nat) : orAll (((List.range n).map (g l)).map (·.2)) = if (List.range n).any fun j => nv l j then fNV else 0 := by
    rw [List.map_map, ← orAll_ite]
    exact congrArg orAll (List.map_congr_left fun j _ => hnv l j)
  rw [cmpFlags, ← orAll_ite]
  simp only [foldl_or, Nat.zero_or, List.map_map]
  exact congrArg orAll (List.map_congr_left fun l _ => hlane l)
theorem cmpFlags_eq (lanes : List Nat) (n : Nat) (nv : Nat → Nat → Bool) [Decidable (∃ l ∈ lanes, ∃ j, j < n ∧ nv l j = true)] :
    cmpFlags lanes n nv = if ∃ l ∈ lanes, ∃ j, j < n ∧ nv l j = true then 16 else 0 := by
  refine if_congr ?_ rfl rfl
  simp only [List.any_eq_true, List.mem_range]
theorem eqFp_eq (x y : Fp) : eqFp x y = (!(x.isNan || y.isNan) && !ltFp x y && !ltFp y x) := by
  rw [eqFp, Bool.not_or]
theorem sigFlag_pair (x y : Fp) : sigFlag [x, y] = if x.isSig || y.isSig then fNV else 0 := by
  simp [sigFlag]

/-- A relation of the values of element j of lane l in two registers. -/
def relates (s : State) (f : FFmt) (a b : Reg) (r : Fp → Fp → Bool) (l j : Nat) : Bool := r (laneIn s f a l j) (laneIn s f b l j)

section
variable {s : State} {f : FFmt} {kd : KReg} {a b : Reg} {k : KReg} {i : Instr} {g : Fp → Fp → Bool × Nat} {rel nv : Fp → Fp → Bool}

theorem fCmp_eq (hrel : ∀ x y, (g x y).1 = rel x y) (hnv : ∀ x y, (g x y).2 = if nv x y then fNV else 0) :
    s.fCmp f g kd a b k = (flagged s (cmpFlags (s.active k) (64 / (specOf f).w) (relates s f a b nv))).putK kd 4 (s.active k)
      fun l => (List.range (64 / (specOf f).w)).all (relates s f a b rel l) := by
  rw [← foldl_cmpFlags _ _ (fun l j => g (laneIn s f a l j) (laneIn s f b l j)) (nv := relates s f a b nv)
    fun l j => hnv _ _, State.fCmp, withFlags_eq]
  simp only [State.putK, List.map_map, Function.comp_def, List.all_map, hrel, List.map_id']
  rfl
/-- A float compare lands whether its relation holds of every element, and raises NV where one element does (R177). -/
def LandsCompare (s : State) (f : FFmt) (kd : KReg) (a b : Reg) (k : KReg) (rel nv : Fp → Fp → Bool) (i : Instr) : Prop :=
  ∃ t v, Machine.exec i s = .next t ∧ ReadsK s t kd 4 (s.active k) v ∧
    (∀ l ∈ s.active k, v l = true ↔ ∀ j, j < 64 / (specOf f).w → relates s f a b rel l j = true) ∧
    Raises s t (cmpFlags (s.active k) (64 / (specOf f).w) (relates s f a b nv)) ∧ (me t).srd = (me s).srd
theorem fCmp_lands (hexec : Machine.exec i s = .next (s.fCmp f g kd a b k)) (hrel : ∀ x y, (g x y).1 = rel x y)
    (hnv : ∀ x y, (g x y).2 = if nv x y then fNV else 0) : LandsCompare s f kd a b k rel nv i := by
  obtain ⟨hreads, hraises⟩ := flagged_putK_lands s (cmpFlags (s.active k) (64 / (specOf f).w) (relates s f a b nv)) kd 4 (s.active k)
    fun l => (List.range (64 / (specOf f).w)).all (relates s f a b rel l)
  refine ⟨_, _, hexec.trans (congrArg _ (fCmp_eq hrel hnv)), hreads, fun l _ => ?_, hraises⟩
  simp only [List.all_eq_true, List.mem_range]
end

theorem laneFloatCompares : Claims.LaneFloatCompares := by
  intro s f kd a b k w unordered i rel nv hi
  rw [← cmpFlags_eq (s.active k) (64 / w) fun l j => nv (laneIn s f a l j) (laneIn s f b l j)]
  refine (?table : Table (fun i (p : (Fp → Fp → Bool) × (Fp → Fp → Bool)) => LandsCompare s f kd a b k p.1 p.2 i) _) i (rel, nv) hi
  exact .cons (fCmp_lands rfl (fun _ _ => eqFp_eq ..) sigFlag_pair) <|
    .cons (fCmp_lands rfl (fun _ _ => rfl) fun _ _ => rfl) <|
    .cons (fCmp_lands rfl (fun x y => congrArg (ltFp x y || ·) (eqFp_eq x y)) fun _ _ => rfl) <|
    .cons (fCmp_lands rfl (fun _ _ => rfl) sigFlag_pair) .nil

/-! ## Conversions (R182 to R185) -/

theorem length_cvtElems (f : Nat → BitVec 32 → Nat × Nat × BitVec 32) (xs : List Nat) (g : BitVec 32) :
    (cvtElems f xs g).1.length = xs.length := by
  induction xs generalizing g with
  | nil => rfl
  | cons x xs ih => exact congrArg (· + 1) (ih (f x g).2.2)

/-- The generators after a conversion: each lane that rounds has its own (R62). -/
def stepGens (x : Weave) (lanes : List Nat) (gen : Nat → BitVec 32) : Map (BitVec 32) :=
  lanes.foldl (fun m l => if x.gen l = gen l then m else mset m l (gen l)) x.srd
theorem foldl_gens_other (x : Weave) (gen : Nat → BitVec 32) {l : Nat} (lanes : List Nat) (hl : l ∉ lanes) (m : Map (BitVec 32)) :
    mget (lanes.foldl (fun m l => if x.gen l = gen l then m else mset m l (gen l)) m) l (srdSeed 0 l) = mget m l (srdSeed 0 l) := by
  induction lanes generalizing m with
  | nil => rfl
  | cons j js ih =>
    obtain ⟨hj, hjs⟩ := not_or.mp (List.mem_cons.not.mp hl)
    rw [List.foldl_cons, ih hjs]
    split
    next => rfl
    next => exact mget_mset_other _ _ _ hj
theorem foldl_gens_same (x : Weave) (gen : Nat → BitVec 32) {l : Nat} {lanes : List Nat} (hnodup : lanes.Nodup) (hl : l ∈ lanes)
    {m : Map (BitVec 32)} (hm : mget m l (srdSeed 0 l) = x.gen l) :
    mget (lanes.foldl (fun m l => if x.gen l = gen l then m else mset m l (gen l)) m) l (srdSeed 0 l) = gen l := by
  induction lanes generalizing m with
  | nil => exact absurd hl List.not_mem_nil
  | cons j js ih =>
    obtain ⟨hj, hjs⟩ := List.nodup_cons.mp hnodup
    rw [List.foldl_cons]
    by_cases hlj : l = j
    · subst hlj
      rw [foldl_gens_other x gen js hj]
      split
      next h => exact hm.trans h
      next => exact mget_mset_same ..
    · refine ih hjs ((List.mem_cons.mp hl).resolve_left hlj) ?_
      split
      next => exact hm
      next => exact (mget_mset_other _ _ _ hlj).trans hm
theorem nodup_active (s : State) (k : KReg) : (s.active k).Nodup := List.nodup_range.filter _
theorem gen_stepGens (x : Weave) (gen : Nat → BitVec 32) {lanes : List Nat} (hnodup : lanes.Nodup) (l : Nat) :
    Weave.gen { x with srd := stepGens x lanes gen } l = if l ∈ lanes then gen l else x.gen l := by
  split
  next hl => exact foldl_gens_same x gen hnodup hl rfl
  next hl => exact foldl_gens_other x gen lanes hl _

/-- What a conversion gives of one lane: bits, flags and the generator after them. -/
def converted (s : State) (ws wd : Nat) (g : BitVec 32 → Nat → Nat × Nat × BitVec 32) (a : Reg) (l : Nat) : List Nat × Nat × BitVec 32 :=
  cvtElems (fun x gen => g gen x) ((List.range (64 / max ws wd)).map (elem (s.vreg a l) ws)) ((me s).gen l)

section
variable {s : State} {ws wd : Nat} {g : BitVec 32 → Nat → Nat × Nat × BitVec 32} {d a : Reg} {k : KReg}

theorem length_converted (l : Nat) : (converted s ws wd g a l).1.length = 64 / max ws wd := by
  rw [converted, length_cvtElems, List.length_map, List.length_range]
theorem converted_fits : wd * (64 / max ws wd) ≤ 64 :=
  (Nat.mul_le_mul_right _ (le_max_right ws wd)).trans (Nat.mul_div_le 64 _)
theorem elem_converted (l : Nat) (j : Nat) :
    elem (packElems wd (converted s ws wd g a l).1) wd j = (converted s ws wd g a l).1.getD j 0 % 2 ^ wd := by
  rw [elem_packElems _ _ _ (length_converted l ▸ converted_fits), List.getD_eq_getElem?_getD]
theorem packElems_lt (w : Nat) (es : List Nat) : (packElems w es).toNat < 2 ^ (w * es.length) :=
  (BitVec.toNat_ofNat .. ▸ Nat.mod_le _ _).trans_lt (packed_lt w es)

/-- The machine when a conversion's results are put in flight: the flags of all lanes raised, their generators stepped. -/
def convRaised (s : State) (lanes : List Nat) (out : Nat → List Nat × Nat × BitVec 32) : State :=
  (flagged s (orAll (lanes.map fun l => (out l).2.1))).modW fun x => { x with srd := stepGens x lanes fun l => (out l).2.2 }
theorem convRaised_raised (s : State) (lanes : List Nat) (out : Nat → List Nat × Nat × BitVec 32) :
    Raised s (convRaised s lanes out) (orAll (lanes.map fun l => (out l).2.1)) (stepGens (me s) lanes fun l => (out l).2.2) := by
  have hflagged := flagged_raised s (orAll (lanes.map fun l => (out l).2.1))
  have h := hflagged.modW_srd fun x => stepGens x lanes fun l => (out l).2.2
  rw [hflagged.weave] at h
  exact h
theorem fConv_eq : s.fConv ws wd g d a k =
    (convRaised s (s.active k) (converted s ws wd g a)).putV d 2 (s.active k) fun l => packElems wd (converted s ws wd g a l).1 := by
  simp only [State.fConv, withFlags_eq, foldl_or_zero, List.map_map, List.foldl_map, Function.comp_def, State.putV, convRaised, stepGens]
  rfl

/-- A conversion lands its elements, raises the flags of all and steps the generators of its lanes (R182). -/
theorem fConv_lands {i : Instr} (hexec : Machine.exec i s = .next (s.fConv ws wd g d a k)) :
    ∃ t v, Machine.exec i s = .next t ∧ ReadsV s t d 2 (s.active k) v ∧
      (∀ l ∈ s.active k, (∀ j, j < 64 / max ws wd → elem (v l) wd j = (converted s ws wd g a l).1.getD j 0 % 2 ^ wd) ∧
        (v l).toNat < 2 ^ (64 / max ws wd * wd) ∧ (me t).gen l = (converted s ws wd g a l).2.2) ∧
      (∀ l, l ∉ s.active k → (me t).gen l = (me s).gen l) ∧
      Raises s t (orAll ((s.active k).map fun l => (converted s ws wd g a l).2.1)) := by
  have hraised := convRaised_raised s (s.active k) (converted s ws wd g a)
  obtain ⟨hframe, hreads⟩ := putV_lands (convRaised s (s.active k) (converted s ws wd g a)) d 2 (s.active k) fun l =>
    packElems wd (converted s ws wd g a l).1
  obtain ⟨hraises, hsrd⟩ := hraised.raises hframe
  have hgen := gen_stepGens (me s) (fun l => (converted s ws wd g a l).2.2) (nodup_active s k)
  refine ⟨_, _, hexec.trans (congrArg _ fConv_eq), hraised.readsV hreads, fun l hl => ⟨fun j _ => elem_converted l j, ?size, ?stepped⟩,
    fun l hl => ?kept, hraises⟩
  case size =>
    have h := packElems_lt wd (converted s ws wd g a l).1
    rwa [length_converted, Nat.mul_comm] at h
  case stepped =>
    rw [Weave.gen, hsrd]
    exact (hgen l).trans (if_pos hl)
  case kept =>
    rw [Weave.gen, hsrd]
    exact (hgen l).trans (if_neg hl)
end

theorem laneConversions : Claims.LaneConversions := by
  intro s tgt src z sat d a k i ws wd g hi
  refine fConv_lands ((?table : Table (fun i (p : Nat × Nat × (BitVec 32 → Nat → Nat × Nat × BitVec 32)) =>
    Machine.exec i s = .next (s.fConv p.1 p.2.1 p.2.2 d a k)) _) i (ws, wd, g) hi)
  exact .cons rfl <| .cons rfl <| .cons (by simp only [← signed_eq_signedOf]; rfl) .nil

/-- Settles O8, by the compares and the conversions. -/
theorem laneFloatComparesAndConversions : Obligations.LaneFloatComparesAndConversions := ⟨laneFloatCompares, laneConversions⟩
end Sys2Proof.Proofs
end
section
/-! SUPPORT. What changes in the executing weave alone, over several acts (O14, O15, O17). -/
namespace Sys2Proof.Proofs
open Sys2Proof.Machine Sys2Proof.Claims Sys2Proof.Laws

theorem OnlyMe.trans {s u t : State} {x y : Weave} (h : OnlyMe s u x) (g : OnlyMe u t y) : OnlyMe s t y where
  base := g.base.trans h.base
  rest := (congrArg (fun c : Core => { c with weaves := s.core.weaves, agenda := s.core.agenda, nextId := s.core.nextId }) g.rest :).trans
    h.rest
  others v hv := (g.others v (h.cur ▸ hv)).trans (h.others v hv)
  me := g.me
/-- What reads see of vector results is about the registers of the executing weave alone. -/
theorem SameRegs.readsV {s t s' : State} (hs : SameRegs (me s) (me s')) (hnow : s'.now = s.now) {d : Reg} {L : Nat} {lanes : List Nat}
    {f : Nat → Word} (h : ReadsV s t d L lanes f) : ReadsV s' t d L lanes f := by
  obtain ⟨hsval, hkval, hvval, hreads⟩ := h
  refine ⟨fun T r => ?_, fun T k l => ?_, fun T r l hr => ?_, fun l hl hsettled T hT => ?_⟩
  · rw [hs.sval, hsval]
  · rw [hs.kval, hkval]
  · rw [hs.vval, hvval T r l (hnow ▸ hr)]
  · rw [hnow] at hsettled hT
    exact hreads l hl ((hs.settled ..).mp hsettled) T hT

theorem onlyMe_setAtom (s : State) : OnlyMe s s.setAtom { me s with status := (me s).status ||| 16 } := by
  have h := (OnlyMe.refl s).modW fun x => x.setSt 4 true
  rwa [setSt_atom] at h

end Sys2Proof.Proofs
end
section
/-! SUPPORT. Class X: Twill moves and reductions (O16). -/
namespace Sys2Proof.Proofs
open Sys2Proof.Machine Sys2Proof.Claims Sys2Proof.Laws

/-! ## Twill moves (R204 to R206) -/

/-- A register value of position p of cell c. -/
def cellVal (s : State) (a : Reg) (c p : Nat) : Word := s.vreg a (16 * c + p)
theorem cellVal_of_lane (s : State) (a : Reg) {l c p : Nat} (h : l = 16 * c + p) : s.vreg a l = cellVal s a c p := by rw [cellVal, h]
/-- What a shift brings to a lane: the neighbour's value, and at the end that has no neighbour the edge's (R204). -/
theorem shifted_eq (s : State) (neg : Bool) (edge : TwEdge) (a : Reg) {l : Nat} (hl : l < 128) :
    s.shifted neg edge a l =
      if neg then
        if l / 16 < 7 then cellVal s a (l / 16 + 1) (l % 16)
        else match edge with | .z => 0 | .h => cellVal s a 7 (l % 16) | .w => cellVal s a 0 (l % 16)
      else
        if 0 < l / 16 then cellVal s a (l / 16 - 1) (l % 16)
        else match edge with | .z => 0 | .h => cellVal s a 0 (l % 16) | .w => cellVal s a 7 (l % 16) := by
  cases neg with
  | true =>
    by_cases hc : l / 16 < 7
    · simp only [State.shifted, if_true, if_pos hc, beq_iff_eq, if_neg hc.ne]
      exact cellVal_of_lane s a (by omega)
    · have h7 : l / 16 = 7 := by omega
      simp only [State.shifted, if_true, h7, beq_self_eq_true, lt_irrefl, if_false]
      cases edge with
      | z => rfl
      | h | w => exact cellVal_of_lane s a (by omega)
  | false =>
    by_cases hc : 0 < l / 16
    · simp only [State.shifted, Bool.false_eq_true, if_false, if_pos hc, beq_iff_eq, if_neg hc.ne']
      exact cellVal_of_lane s a (by omega)
    · have h0 : l / 16 = 0 := by omega
      simp only [State.shifted, Bool.false_eq_true, if_false, h0, beq_self_eq_true, lt_irrefl, if_true]
      cases edge with
      | z => rfl
      | h | w => exact cellVal_of_lane s a (by omega)

theorem twillForms : Claims.TwillForms := by
  intro s d a b k n cell neg edge A shift
  refine ⟨⟨_, _, rfl, putV_lands .., fun l hl => shifted_eq s neg edge a hl⟩, ?rotated, ⟨_, rfl, ?permuted⟩, ⟨_, rfl, putV_lands ..⟩⟩
  case rotated =>
    have hlane : ∀ l, l / 16 * 16 + (l + n.toNat) % 16 = 16 * (l / 16) + (l % 16 + n.toNat) % 16 := by omega
    exact putV_lands_of_eq rfl fun l => cellVal_of_lane s a (hlane l)
  case permuted =>
    have hlane : ∀ l, s.vreg a (l / 16 * 16 + (s.vreg b l).toNat % 16) = A (l / 16) ((s.vreg b l).toNat % 16) :=
      fun l => cellVal_of_lane s a (by rw [Nat.mul_comm])
    exact funext hlane ▸ putV_lands ..

/-! ## Reductions (R207 to R210) -/

/-- The model's step of a reduction is the claim's: equal integers are one value. -/
theorem redStep_eq_step2 (op : RedOp) (x y : Word) : redStep op x y = step2 op x y := by
  cases op with
  | max => exact ite_le_eq_ite_lt fun h => (BitVec.toInt_inj.mp h).symm
  | min =>
    change (if x.toInt ≤ y.toInt then x else y) = if y.toInt < x.toInt then y else x
    rw [← ite_not]
    simp only [not_le]
  | add | or | faddd | fadds | fmaxs | fmins => rfl
/-- One level of the tree combines the neighbours of a list of 2m values. -/
theorem pairUp_map_range (op : RedOp) (f : Nat → Word) (m : Nat) :
    pairUp op ((List.range (2 * m)).map f) = (List.range m).map fun i => step2 op (f (2 * i)) (f (2 * i + 1)) := by
  induction m generalizing f with
  | zero => rfl
  | succ m ih =>
    have hrange : (List.range (2 * (m + 1))).map f = f 0 :: f 1 :: (List.range (2 * m)).map fun i => f (i + 2) := by
      rw [Nat.mul_succ, List.range_succ_eq_map, List.range_succ_eq_map]
      simp [Function.comp_def]
    rw [hrange, pairUp, redStep_eq_step2, ih, List.range_succ_eq_map]
    simp [Function.comp_def, Nat.mul_succ, Nat.add_right_comm]
/-- The lowest level of the tree may be combined first. -/
theorem tree_succ (op : RedOp) (f : Nat → Word) (n i : Nat) :
    tree op f (n + 1) i = tree op (fun j => step2 op (f (2 * j)) (f (2 * j + 1))) n i := by
  induction n generalizing i with
  | zero => rfl
  | succ n ih => rw [tree, ih, ih, tree]
theorem redTree_map_range (op : RedOp) (f : Nat → Word) (n : Nat) : redTree op n ((List.range (2 ^ n)).map f) = tree op f n 0 := by
  induction n generalizing f with
  | zero => rfl
  | succ n ih => rw [redTree, pow_succ', pairUp_map_range, ih, ← tree_succ]

theorem reductionForms : Claims.ReductionForms := by
  intro s op d a b k along identity
  have halong : ∀ p, s.alongWeave op a p = along p := by
    intro p
    simp only [State.alongWeave, along, List.foldl_map, redStep_eq_step2]
  have hidentity : redIdInt op = identity := by cases op <;> rfl
  refine ⟨⟨_, _, rfl, putV_lands .., fun l _ => ?along⟩, ⟨_, rfl, putS_lands ..⟩, ?tree⟩
  case along =>
    rw [← halong, List.getD_eq_getElem?_getD, getElem?_map_range _ (Nat.mod_lt l (by decide)), Option.getD_some]
  case tree =>
    refine ⟨_, rfl, ?_⟩
    rw [← hidentity, ← redTree_map_range]
    exact putS_lands ..

/-- Settles O16, by the moves of the Twill and the reductions. -/
theorem twillAndReductions : Obligations.TwillAndReductions := ⟨twillForms, reductionForms⟩
end Sys2Proof.Proofs
end
section
/-! SUPPORT. Gauze messages: sends, receives, polls and arrivals (O17). -/
namespace Sys2Proof.Proofs
open Sys2Proof.Machine Sys2Proof.Claims Sys2Proof.Laws

/-! ## Sends (R211 to R213) -/

/-- The machine when the message m of a send stands in the network and in the send buffer. -/
def sentCore (s : State) (m : GzMsg) : Core :=
  let c := s.setAtom.core.fresh.2
  let c := c.modW c.cur fun x => { x with gzSend := x.gzSend ++ [m.id] }
  { c with gzNet := c.gzNet ++ [m] }
/-- The machine after a send: the first hop is due, or inside a sector the arrival and the end of the buffer entry (R213). -/
def sent (s : State) (m : GzMsg) : Core :=
  let c := sentCore s m
  if m.path.isEmpty then (c.sched (c.now + 24) bHost (m.rank * 8 + m.chan) (.gauzeMessageArrival m.src m.id)).sched
    (c.now + 24) bLand m.id (.gauzeFree m.src m.id)
  else c.sched (c.now + 8) bHost (m.rank * 8 + m.chan) (.gauzeHop m.id)
theorem sent_eq (s : State) (m : GzMsg) : ∃ es, sent s m = { sentCore s m with agenda := s.core.agenda ++ es } ∧
    (m.path = [] → ⟨.cycle (s.now + 24), bHost, m.rank * 8 + m.chan, .gauzeMessageArrival m.src m.id⟩ ∈ es) ∧
    (m.path ≠ [] → ⟨.cycle (s.now + 8), bHost, m.rank * 8 + m.chan, .gauzeHop m.id⟩ ∈ es) := by
  by_cases hpath : m.path = []
  · refine ⟨[_, ⟨.cycle (s.now + 24), bLand, m.id, .gauzeFree m.src m.id⟩], ?_, fun _ => List.mem_cons_self, fun h => absurd hpath h⟩
    rw [sent, if_pos (List.isEmpty_iff.mpr hpath)]
    exact congrArg (fun es => ({ sentCore s m with agenda := es } : Core)) (List.append_assoc s.core.agenda [_] [_])
  · refine ⟨[_], ?_, fun h => absurd h hpath, fun _ => List.mem_cons_self⟩
    rw [sent, if_neg (List.isEmpty_iff.not.mpr hpath)]
    rfl
theorem execGzs_eq {s : State} (ch : BitVec 3) (a : Reg) {b : Reg} (k : KReg) {l : Launch} {dst : Nat}
    (hlaunch : s.rd.launchOf s.core.cur = some l) (hone : bitAt (s.sreg b).toNat 63 = false)
    (hnamed : l.named (s.sreg b).toNat = some dst) (hroom : s.wv.gzSend.length < 2) :
    Machine.exec (.gzs ch a b k) s = .next { s with core := sent s ⟨s.core.nextId, s.core.cur, dst, l.rankOf s.core.cur, ch.toNat,
      (s.active k).map fun n => (n, s.vreg a n), gauzePath (secOf s.core.cur) (secOf dst), none, 0⟩ } := by
  change execGzs ch a b k s = _
  simp only [execGzs, hlaunch, hone, Bool.false_eq_true, if_false, hnamed, if_neg (Nat.not_le.mpr hroom)]
  change _ = Host.Outcome.next { s with core := sent s ⟨s.setAtom.core.fresh.1, s.setAtom.core.fresh.2.cur, dst,
    l.rankOf s.setAtom.core.fresh.2.cur, ch.toNat, _, gauzePath (secOf s.setAtom.core.fresh.2.cur) (secOf dst), none, 0⟩ }
  rfl

theorem gauzeSend : Claims.GauzeSend := by
  intro s ch a b k l dst v w path m hlaunch hone hnamed hroom
  have honly := ((onlyMe_setAtom s).withAgenda s.core.agenda (s.core.nextId + 1) rfl).modW fun x => { x with gzSend := x.gzSend ++ [m.id] }
  obtain ⟨es, hsent, harrival, hhop⟩ := sent_eq s m
  let t : State := { s with core := { sentCore s m with agenda := s.core.agenda ++ es } }
  have hexec : Machine.exec (.gzs ch a b k) s = .next t :=
    (execGzs_eq ch a k hlaunch hone hnamed hroom).trans (congrArg (fun c => Host.Outcome.next { s with core := c }) hsent)
  have hme : me t = { me s with status := (me s).status ||| 16, gzSend := (me s).gzSend ++ [m.id] } := honly.me
  refine ⟨t, hexec, rfl, by rw [hme], by rw [hme], ?due, honly.base, ?rest, honly.others, by rw [hme], fun _ => rfl⟩
  case due =>
    split
    next hpath => exact List.mem_append_right _ (harrival hpath)
    next hpath => exact List.mem_append_right _ (hhop hpath)
  case rest => exact (congrArg (fun c : Core => { c with gzNet := s.core.gzNet }) honly.rest :)

/-! ## Receives and polls (R211, R214, R215) -/

/-- A message comes before another at a receiver: it completed earlier, or in the same cycle from a lower rank (R214). -/
def Precedes (m n : GzMsg) : Prop := m.doneAt < n.doneAt ∨ m.doneAt = n.doneAt ∧ m.rank < n.rank

theorem Precedes.not_symm {m n : GzMsg} (h : Precedes m n) : ¬ Precedes n m := by
  unfold Precedes at *
  omega
theorem earliest_cons (m : GzMsg) {ms : List GzMsg} {n : GzMsg} (h : earliest ms = some n) :
    (Precedes n m → earliest (m :: ms) = some n) ∧ (¬ Precedes n m → earliest (m :: ms) = some m) := by
  simp only [earliest, h]
  exact ⟨fun hp => if_pos hp, fun hp => if_neg hp⟩
theorem earliest_mem {ms : List GzMsg} {n : GzMsg} (h : earliest ms = some n) : n ∈ ms := by
  induction ms generalizing n with
  | nil => cases h
  | cons m ms ih =>
    cases he : earliest ms with
    | none =>
      simp only [earliest, he, Option.some.injEq] at h
      exact h ▸ List.mem_cons_self
    | some e =>
      obtain ⟨hlater, hfirst⟩ := earliest_cons m he
      by_cases hp : Precedes e m
      · rw [hlater hp, Option.some.injEq] at h
        exact List.mem_cons_of_mem _ (ih (h ▸ he))
      · rw [hfirst hp, Option.some.injEq] at h
        exact h ▸ List.mem_cons_self
/-- A message that comes before every other is the one that a receive takes. -/
theorem earliest_of_precedes {ms : List GzMsg} {m : GzMsg} (hm : m ∈ ms) (h : ∀ n ∈ ms, Precedes m n ∨ n = m) : earliest ms = some m := by
  induction ms with
  | nil => cases hm
  | cons x xs ih =>
    by_cases hxs : m ∈ xs
    · obtain ⟨hlater, hfirst⟩ := earliest_cons x (ih hxs fun n hn => h n (List.mem_cons_of_mem _ hn))
      rcases h x List.mem_cons_self with hp | rfl
      · exact hlater hp
      · exact hfirst fun hp => hp.not_symm hp
    · obtain rfl : m = x := (List.mem_cons.mp hm).resolve_right hxs
      cases he : earliest xs with
      | none => simp only [earliest, he]
      | some e =>
        have hmem := earliest_mem he
        refine (earliest_cons m he).2 fun hp => ?_
        rcases h e (List.mem_cons_of_mem _ hmem) with hq | rfl
        · exact hp.not_symm hq
        · exact hxs hmem

/-- The channels of a receiver without the message that it takes. -/
def taken (ch id : Nat) (x : Weave) : Weave := { x with gauze := lmod x.gauze ch fun q => q.filter fun y => y.id != id }
theorem execGzr_eq {s : State} {ch : BitVec 3} (d : Reg) {b : Reg} (k : KReg) {m : GzMsg}
    (hsource : s.rd.gauzeSource s.core.cur (s.sreg b).toNat = true)
    (hm : earliest (s.wv.matching ch.toNat (s.sreg b).toNat) = some m) :
    Machine.exec (.gzr ch d b k) s = .next ((s.setAtom.modW (taken ch.toNat m.id)).putV d 2
      ((s.active k).filter fun l => (mget? m.rows l).isSome) fun l => mget m.rows l 0) := by
  change execGzr ch d b k s = _
  simp only [execGzr, hsource, hm]
  rfl
theorem execGzp_eq {s : State} (ch : BitVec 3) (d : Reg) {b : Reg} (hsource : s.rd.gauzeSource s.core.cur (s.sreg b).toNat = true) :
    Machine.exec (.gzp ch d b) s = .next (s.putS d 1 (word ((s.wv.matching ch.toNat (s.sreg b).toNat).length +
      bnat ((s.wv.gauze.getD ch.toNat []).length == 4) * 256))) := by
  change execGzp ch d b s = _
  simp only [execGzp, hsource]
  rfl
theorem bnat_beq_mul (m n k : Nat) : bnat (m == n) * k = if m = n then k else 0 := by
  by_cases h : m = n <;> simp [bnat, h]
/-- A message that is taken leaves its channel, and the other channels stay. -/
theorem taken_gauze (x : Weave) (ch id : Nat) :
    (∀ n, n ≠ ch → (taken ch id x).gauze.getD n [] = x.gauze.getD n []) ∧
    ∀ y ∈ (taken ch id x).gauze.getD ch [], y ∈ x.gauze.getD ch [] ∧ y.id ≠ id := by
  refine ⟨fun n hn => (getD_lmod ..).trans (if_neg fun h => hn h.1), fun y hy => ?_⟩
  rw [taken, getD_lmod] at hy
  split at hy
  next => simpa using hy
  next hout =>
    have hlen : ¬ ch < x.gauze.length := fun h => hout ⟨rfl, h⟩
    rw [List.getD_eq_default _ _ (Nat.le_of_not_lt hlen)] at hy
    cases hy

theorem gauzeReceive : Claims.GauzeReceive := by
  intro s ch d b k v q matching hsource
  refine ⟨⟨_, execGzp_eq ch d hsource, ?poll⟩, fun m hm hfirst => ?receive⟩
  case poll =>
    rw [bnat_beq_mul]
    exact putS_lands ..
  case receive =>
    have hearliest : earliest (s.wv.matching ch.toNat v) = some m :=
      earliest_of_precedes hm fun n hn => (or_assoc.mpr (hfirst n hn) :)
    let u := s.setAtom.modW (taken ch.toNat m.id)
    let lanes := (s.active k).filter fun l => (mget? m.rows l).isSome
    have hu : OnlyMe s u (taken ch.toNat m.id { me s with status := (me s).status ||| 16 }) := (onlyMe_setAtom s).modW _
    have hsame : SameRegs (me u) (me s) := by
      rw [hu.me]
      exact ⟨rfl, rfl, rfl, rfl⟩
    obtain ⟨flight, hland⟩ := OnlyMe.putV u d 2 lanes fun l => mget m.rows l 0
    have ht := hu.trans hland
    rw [hu.me] at ht
    obtain ⟨-, hreads⟩ := putV_lands u d 2 lanes fun l => mget m.rows l 0
    obtain ⟨hother, hchannel⟩ := taken_gauze (me s) ch.toNat m.id
    refine ⟨_, _, execGzr_eq d k hsource hearliest, hsame.readsV hu.now.symm hreads, fun l y hy => ?_, ?_, ?_, ?_, ht.sameBut rfl⟩
    · rw [mget, hy, Option.getD_some]
    · rw [ht.me]
      rfl
    · rw [ht.me]
      exact hother
    · rw [ht.me]
      exact hchannel

/-! ## Arrivals (R213) -/

theorem gauzeFull_iff (c : Core) (m : GzMsg) : c.gauzeFull m = true ↔ 4 ≤ ((c.weave m.dst).gauze.getD m.chan []).length := by
  simp [Core.gauzeFull]
/-- A message at the end of its path waits for its full channel or behind an earlier one of its source and channel. -/
def gauzeWaits (c : Core) (m : GzMsg) : Bool :=
  c.gauzeFull m || c.gzNet.any fun x => x.src == m.src && x.dst == m.dst && x.chan == m.chan && decide (x.id < m.id)
theorem gauzeWaits_iff (c : Core) (m : GzMsg) : gauzeWaits c m = true ↔ 4 ≤ ((c.weave m.dst).gauze.getD m.chan []).length ∨
    ∃ x ∈ c.gzNet, x.src = m.src ∧ x.dst = m.dst ∧ x.chan = m.chan ∧ x.id < m.id := by
  simp only [gauzeWaits, Bool.or_eq_true, gauzeFull_iff, List.any_eq_true, Bool.and_eq_true, beq_iff_eq, decide_eq_true_eq, and_assoc]
/-- The machine when a message has completed at its receiver. -/
def completed (c : Core) (m : GzMsg) : Core :=
  ({ c with gzNet := c.gzNet.filter fun x => x.id != m.id } : Core).modW m.dst fun x => { x with
    gauze := lmod x.gauze m.chan fun q => q ++ [{ m with doneAt := c.now }] }
/-- A message that completes goes to its channel; besides, a launch that waits for it may complete (R216). -/
theorem gauzeArrive_completes {c : Core} (w : Nat) {m : GzMsg} (hm : c.gzNet.find? (fun x => x.id == m.id) = some m)
    (h : ¬ gauzeWaits c m = true) : ∃ es, c.gauzeArrive w m.id = { completed c m with agenda := c.agenda ++ es } := by
  rw [gauzeWaits] at h
  have hdone : (completed c m).agenda = c.agenda := rfl
  simp only [Core.gauzeArrive, hm, if_neg h]
  split
  · split
    · exact ⟨_, rfl⟩
    · exact ⟨[], by rw [List.append_nil]; rfl⟩
  · exact ⟨[], by rw [List.append_nil]; rfl⟩

theorem gauzeArrival : Claims.GauzeArrival := by
  intro s w id m hm hchan q waits
  have hid : m.id = id := by simpa using List.find?_some hm
  subst hid
  have hwaits : gauzeWaits s.core m = true ↔ waits := gauzeWaits_iff s.core m
  refine ⟨_, rfl, fun hgo => ?_, fun hstay => ?_⟩
  · obtain ⟨es, he⟩ := gauzeArrive_completes w hm (hwaits.not.mpr hgo)
    have hweave : ((completed s.core m).weave m.dst).gauze =
        lmod (s.core.weave m.dst).gauze m.chan fun q => q ++ [{ m with doneAt := s.now }] := by
      rw [completed, modW_weave_same]
      rfl
    simp only [State.modC, he]
    refine ⟨?_, rfl⟩
    change ((completed s.core m).weave m.dst).gauze.getD m.chan [] = _
    rw [hweave, getD_lmod, if_pos ⟨rfl, hchan⟩]
  · have h := hwaits.mpr hstay
    rw [gauzeWaits] at h
    simp only [State.modC, Core.gauzeArrive, hm, if_pos h]
    exact ⟨rfl, rfl, by simp [Core.sched, State.now]⟩

/-- Settles O17, by sends, receives with polls, and arrivals. -/
theorem gauzeMessages : Obligations.GauzeMessages := ⟨gauzeSend, gauzeReceive, gauzeArrival⟩
end Sys2Proof.Proofs
end
section
/-! SUPPORT. Atomics of lanes as a bundle enters them (O15). -/
namespace Sys2Proof.Proofs
open Sys2Proof.Machine Sys2Proof.Claims Sys2Proof.Laws

/-- Entries that a fold puts into the agenda one by one, where none of them depends on the agenda. -/
theorem foldl_entries {α : Type} (g : Core → α → Entry) (hg : ∀ c es x, g { c with agenda := es } x = g c x) (xs : List α) (c : Core) :
    xs.foldl (fun c x => { c with agenda := c.agenda ++ [g c x] }) c = { c with agenda := c.agenda ++ xs.map (g c) } := by
  induction xs generalizing c with
  | nil => simp
  | cons x xs ih =>
    rw [List.foldl_cons, ih]
    simp [hg]
theorem OnlyMe.deliverV (s : State) (d : Reg) (L : Nat) (lanes : List Nat) (data : Map Word) :
    OnlyMe s (s.deliver .v d L lanes data) { Claims.me s with
      flight := (Claims.me s).flight ++ [⟨s.core.nextId, s.core.iss.slot, s.now, .v, d, s.now + L, 0, lanes, data, false⟩] } := by
  obtain ⟨hbase, hrest, hothers, -, -⟩ := deliver_frame s .v d L lanes data
  exact ⟨hbase, hrest, hothers, me_deliver s .v d L lanes data (.inl rfl)⟩
theorem Clean.deliverV {s : State} (h : Clean s.core) (d : Reg) (L : Nat) (lanes : List Nat) (data : Map Word) :
    Clean (s.deliver .v d L lanes data).core := by
  obtain ⟨es, he⟩ := deliver_eq s .v d L lanes data (.inl rfl)
  rw [he]
  exact (h.modW s.core.cur (f := fun x => { x with flight := x.flight ++ _ }) fun _ => rfl).withAgenda _ _
theorem deliverV_nextId (s : State) (d : Reg) (L : Nat) (lanes : List Nat) (data : Map Word) :
    (s.deliver .v d L lanes data).core.nextId = s.core.nextId + 1 := by
  obtain ⟨es, he⟩ := deliver_eq s .v d L lanes data (.inl rfl)
  rw [he]

/-! ## Atomics at issue (R202, R203) -/

/-- The entry of a cell's application of a bundle's atomics. -/
def applyEntry (id : Nat) (c : Core) (cell : Nat) : Entry :=
  ⟨.cycle (c.now + cell + 2), bAtomic, c.cur * 8 + cell, .laneAtomicApply c.cur id cell⟩
/-- The executing weave when a bundle's atomics `ops` are entered under the number id, with the result rid. -/
def entering (id now rid : Nat) (ops : List Atomic) (x : Weave) : Weave := { x with atomics := x.atomics ++ [⟨id, now, some rid, ops⟩] }
/-- The machine when the atomics of the lanes are entered, from one whose result for them is in flight. -/
def enterAtomics (rows : List (Nat × Nat × Bool × Nat)) (ops : List Atomic) (lanes : List Nat) (s : State) : State :=
  s.modC fun c =>
    let id := c.nextId
    let c := c.fresh.2.modW c.cur (entering id c.now (c.nextId - 1) ops)
    let c := rows.foldl (fun c (l, _, _, flat) => c.readRows c.cur [flat] (c.now + l / 16 + 8)) c
    (cellsOf lanes).foldl (fun c cell =>
      c.sched (c.now + cell + 2) bAtomic (c.cur * 8 + cell) (.laneAtomicApply c.cur id cell)) c
theorem foldl_readRows_of_clean {α : Type} {c : Core} (h : Clean c) (row : α → Nat) (cycle : Core → α → Nat) (xs : List α) :
    xs.foldl (fun c x => c.readRows c.cur [row x] (cycle c x)) c = c := by
  induction xs with
  | nil => rfl
  | cons x xs ih => rw [List.foldl_cons, readRows_of_clean h, ih]
theorem enterAtomics_eq {s : State} (h : Clean s.core) (rows : List (Nat × Nat × Bool × Nat)) (ops : List Atomic) (lanes : List Nat) :
    let c := s.core.fresh.2.modW s.core.cur (entering s.core.nextId s.now (s.core.nextId - 1) ops)
    enterAtomics rows ops lanes s =
      { s with core := { c with agenda := c.agenda ++ (cellsOf lanes).map (applyEntry s.core.nextId c) } } := by
  intro c
  have hc : Clean c := (h.withAgenda s.core.agenda (s.core.nextId + 1)).modW s.core.cur fun _ => rfl
  rw [← foldl_entries (applyEntry s.core.nextId) (fun _ _ _ => rfl)]
  have hreads := foldl_readRows_of_clean hc (fun r : Nat × Nat × Bool × Nat => r.2.2.2) (fun c r => c.now + r.1 / 16 + 8) rows
  exact congrArg (fun d : Core => ({ s with core := (cellsOf lanes).foldl (fun c cell =>
    c.sched (c.now + cell + 2) bAtomic (c.cur * 8 + cell) (.laneAtomicApply c.cur s.core.nextId cell)) d } : State)) hreads

section
variable {s : State} {d a : Reg} {k : KReg} {flat : Nat → Nat}

/-- The rows that the active lanes' atomics reach, as the checks hand them on. -/
def atomicRows (s : State) (a : Reg) (k : KReg) (flat : Nat → Nat) : List (Nat × Nat × Bool × Nat) :=
  (s.active k).map fun l => (l, (s.vreg a l).toNat, false, flat l)
/-- A bundle's atomics on those rows. -/
def atomicOps (s : State) (k : KReg) (flat : Nat → Nat) (op : Nat) (y z : Nat → Word) : List Atomic :=
  (s.active k).map fun l => ⟨l, flat l, op, y l, z l⟩
/-- The machine after atomics whose checks and conditions hold, but for the note of the group's access. -/
def atomicIssued (s : State) (op : Nat) (d a : Reg) (y z : Nat → Word) (k : KReg) (flat : Nat → Nat) : State :=
  if s.active k = [] then s
  else enterAtomics (atomicRows s a k flat) (atomicOps s k flat op y z) (s.active k) (s.deliver .v d 8 (s.active k) []).setAtom

theorem atomicIssued_base (op : Nat) (d : Reg) (y z : Nat → Word) : (atomicIssued s op d a y z k flat).base = s.base := by
  obtain ⟨hbase, -⟩ := deliver_frame s .v d 8 (s.active k) []
  unfold atomicIssued
  split
  · rfl
  · exact hbase
/-- Atomics whose checks and conditions hold are entered, and the group's access is noted (R192, R194, R195). -/
theorem atomic_eq_atomicIssued (op : Nat) (d : Reg) (y z : Nat → Word) (hunder : UnderWay s) (hspaced : Spaced s true false)
    (hreach : ReachRows s (some .sec) k (fun l => (s.vreg a l).toNat) (fun _ => false) flat)
    (harrived : ∀ l ∈ s.active k, s.rd.rowArrived (flat l) = true) (hcrossed : Crossed s k flat) :
    s.atomic op d a y z k = (atomicIssued s op d a y z k flat).modW fun x => { x with lastSector := some s.now } := by
  have hlanes : (atomicRows s a k flat).map (·.1) = s.active k := by simp [atomicRows, Function.comp_def]
  have hflat : ∀ {r}, r ∈ (atomicRows s a k flat).map (·.2.2.2) → ∃ l ∈ s.active k, flat l = r := by simp [atomicRows]
  have hempty : (atomicRows s a k flat).isEmpty = true ↔ s.active k = [] := by simp [atomicRows]
  let issue (rs : List (Nat × Nat × Bool × Nat)) (s : State) : State :=
    if rs.isEmpty then s
    else enterAtomics rs (rs.map fun r => ⟨r.1, r.2.2.2, op, y r.1, z r.1⟩) (rs.map (·.1)) (s.deliver .v d 8 (rs.map (·.1)) []).setAtom
  have hissue : issue (atomicRows s a k flat) s = atomicIssued s op d a y z k flat := by
    simp only [issue, hempty, hlanes, atomicIssued]
    simp only [atomicRows, List.map_map]
    rfl
  have hchecked : s.checked ((s.active k).map fun l => (l, (s.vreg a l).toNat, s.reachOf (some .sec) l (s.vreg a l).toNat)) (fun rs =>
      s.access (rs.map (·.2.2.2)) [] (issue rs)) = atomicIssued s op d a y z k flat := by
    rw [checked_of_rows (ea := fun l => (s.vreg a l).toNat) s hreach]
    refine (access_of_arrived (fun r hr => ?_) rfl (fun hdeg ⟨r, hr, hbounds⟩ => hcrossed hdeg ?_) _).trans hissue
    · obtain ⟨l, hl, rfl⟩ := hflat hr
      exact harrived l hl
    · obtain ⟨l, hl, rfl⟩ := hflat hr
      exact ⟨l, hl, hbounds⟩
  refine (spaced_of_spaced (f := fun s => s.checked ((s.active k).map fun l => (l, (s.vreg a l).toNat,
    s.reachOf (some .sec) l (s.vreg a l).toNat)) fun rs => s.access (rs.map (·.2.2.2)) [] (issue rs)) hunder hspaced ?_).trans ?_
  · exact (congrArg State.base hchecked).trans (atomicIssued_base op d y z)
  · rw [hchecked]
    rfl

/-- What the entry of atomics leaves of the machine (R202). -/
theorem atomicIssued_onlyMe (hclean : Clean s.core) (op : Nat) (d : Reg) (y z : Nat → Word) (h : s.active k ≠ []) :
    OnlyMe s (atomicIssued s op d a y z k flat) { me s with
      flight := (me s).flight ++ [⟨s.core.nextId, s.core.iss.slot, s.now, .v, d, s.now + 8, 0, s.active k, [], false⟩]
      status := (me s).status ||| 16
      atomics := (me s).atomics ++ [⟨s.core.nextId + 1, s.now, some s.core.nextId, atomicOps s k flat op y z⟩] } ∧
    ∀ l ∈ s.active k, ⟨.cycle (s.now + l / 16 + 2), bAtomic, s.core.cur * 8 + l / 16,
      .laneAtomicApply s.core.cur (s.core.nextId + 1) (l / 16)⟩ ∈ (atomicIssued s op d a y z k flat).core.agenda := by
  let u := (s.deliver .v d 8 (s.active k) []).setAtom
  have hdeliver := OnlyMe.deliverV s d 8 (s.active k) []
  have hu := hdeliver.trans (onlyMe_setAtom _)
  rw [hdeliver.me] at hu
  have hcur : u.core.cur = s.core.cur := hu.cur
  have hnow : u.now = s.now := hu.now
  have hid : u.core.nextId = s.core.nextId + 1 := deliverV_nextId s d 8 (s.active k) []
  have hcleanU : Clean u.core := (hclean.deliverV d 8 (s.active k) []).modW _ (f := fun x => x.setSt 4 true) fun _ => rfl
  have hissued := enterAtomics_eq hcleanU (atomicRows s a k flat) (atomicOps s k flat op y z) (s.active k)
  rw [hid, hnow, Nat.add_sub_cancel] at hissued
  rw [atomicIssued, if_neg h, hissued]
  refine ⟨?entered, fun l hl => List.mem_append_right _ (List.mem_map.mpr ⟨l / 16, ?cell, ?entry⟩)⟩
  case entered =>
    have hfresh := hu.withAgenda u.core.agenda (u.core.nextId + 1) (c := u.core.fresh.2) rfl
    have hmod := hfresh.modW (entering (s.core.nextId + 1) s.now s.core.nextId (atomicOps s k flat op y z))
    exact hmod.withAgenda _ _ rfl
  case cell => exact mem_cellsOf.mpr ⟨by have := (active_sub s k hl).1; omega, l, hl, rfl⟩
  case entry =>
    change (⟨.cycle (u.core.now + _ + 2), _, u.core.cur * 8 + _, .laneAtomicApply u.core.cur _ _⟩ : Entry) = _
    rw [hcur, show u.core.now = s.now from hnow]
end

theorem sectorAtomicsEnter : Claims.SectorAtomicsEnter := by
  intro s op d a b k flat i code y z hi hunder hquiet hspaced hreach harrived hcrossed
  obtain ⟨hpoison, hflips, hidle⟩ := hquiet
  have hatomic := atomic_eq_atomicIssued (a := a) code d y z hunder hspaced hreach harrived hcrossed
  have hexec : Machine.exec i s = .next (s.atomic code d a y z k) := by
    simp only [List.mem_cons, Prod.mk.injEq, List.not_mem_nil, or_false] at hi
    rcases hi with ⟨rfl, rfl, rfl, rfl⟩ | ⟨rfl, rfl, rfl, rfl⟩ | ⟨rfl, rfl, rfl, rfl⟩
    · rfl
    · rfl
    · rfl
  refine ⟨_, hexec.trans (congrArg _ hatomic), ?last, fun h => ?nothing, fun h => ?entered⟩
  case last => exact (congrArg Weave.lastSector (modW_weave_same _ _ fun x => { x with lastSector := some s.now }) :)
  case nothing =>
    rw [show atomicIssued s code d a y z k flat = s from if_pos h]
    exact ((OnlyMe.refl s).modW fun x => { x with lastSector := some s.now }).sameBut rfl
  case entered =>
    obtain ⟨honly, hdue⟩ := atomicIssued_onlyMe (a := a) (flat := flat) ⟨hpoison, hflips, hidle⟩ code d y z h
    have ht := honly.modW fun x => { x with lastSector := some s.now }
    exact ⟨by rw [ht.me]; rfl, hdue, by rw [ht.me], by rw [ht.me], ht.sameBut rfl⟩
end Sys2Proof.Proofs
end
section
/-! SUPPORT. Atomics of lanes where they apply: the rows that they change, and the old values that they give (O15). -/
namespace Sys2Proof.Proofs
open Sys2Proof.Machine Sys2Proof.Claims Sys2Proof.Laws

/-! ## A lane of a result that takes a value (R203, R319) -/

/-- A result after lane `lane` of the results with the number `rid` has taken the value x. -/
def tookLane (rid lane : Nat) (x : Word) (r : Result) : Result := if r.id = rid then r.putLane lane (some (some x)) else r
theorem tookLane_id (rid lane : Nat) (x : Word) (r : Result) : (tookLane rid lane x r).id = r.id := by
  unfold tookLane
  split
  · rfl
  · rfl
theorem putLane_laneVal_same (r : Result) (lane : Nat) (x : Word) : (r.putLane lane (some (some x))).laneVal lane = some (some x) := by
  have hlane : (insertNat r.lanes lane).contains lane = true := List.contains_iff_mem.mpr (mem_insertNat.mpr (.inl rfl))
  simp only [Result.laneVal, Result.putLane, Option.isSome_some, if_true, hlane, putData, mget?_mset_same]
theorem putLane_laneVal_other (r : Result) {lane other : Nat} (h : other ≠ lane) (x : Word) :
    (r.putLane lane (some (some x))).laneVal other = r.laneVal other := by
  have hother : (insertNat r.lanes lane).contains other = r.lanes.contains other := by
    rw [Bool.eq_iff_iff, List.contains_iff_mem, List.contains_iff_mem, mem_insertNat, or_iff_right h]
  simp only [Result.laneVal, Result.putLane, Option.isSome_some, if_true, hother, putData, mget?_mset_other _ _ h]

/-- The lane of every result in flight with the number has the value x. -/
def LaneHolds (rid : Option Nat) (lane : Nat) (x : Word) (flight : List Result) : Prop :=
  ∀ r ∈ flight, some r.id = rid → r.laneVal lane = some (some x)
theorem laneHolds_took (rid lane : Nat) (x : Word) (flight : List Result) :
    LaneHolds (some rid) lane x (flight.map (tookLane rid lane x)) := by
  intro r hr hid
  obtain ⟨q, -, rfl⟩ := List.mem_map.mp hr
  rw [tookLane_id, Option.some.injEq] at hid
  rw [tookLane, if_pos hid]
  exact putLane_laneVal_same q lane x
theorem LaneHolds.took_other {rid : Option Nat} {lane other : Nat} {x : Word} {flight : List Result} (h : LaneHolds rid lane x flight)
    (hother : other ≠ lane) (n : Nat) (y : Word) : LaneHolds rid lane x (flight.map (tookLane n other y)) := by
  intro r hr hid
  obtain ⟨q, hq, rfl⟩ := List.mem_map.mp hr
  rw [tookLane_id] at hid
  refine Eq.trans ?_ (h q hq hid)
  unfold tookLane
  split
  · exact putLane_laneVal_other q hother.symm y
  · rfl

/-! ## The value on its way: flight, latches, frames (R319) -/

/-- A row of a frame that takes lane `lane` of the result with the number `rid` (R318, R319). -/
def laneRow (x : Weave) (rid lane row : Nat) : Prop := ∃ p ∈ x.framed, p.1 = rid ∧
  (row = rowAddr (p.2.1 + 256 + 32 * p.2.2 + 8 * (1 + lane / 64)) ∨ row = rowAddr (p.2.1 + 1024 + 1024 * p.2.2 + 8 * lane))
/-- A weave whose results in flight and latches have a lane of theirs changed. -/
def laneChanged (rid lane : Nat) (x : LaneVal) (wv : Weave) : Weave := { wv with
  flight := wv.flight.map fun r => if r.id = rid then r.putLane lane x else r
  ckpt := wv.ckpt.map fun k => { k with latches := k.latches.map fun l =>
    if l.rid = rid then { l with data := putData l.data lane x } else l }
  dbg := { wv.dbg with latches := wv.dbg.latches.map fun l =>
    if l.rid = rid then { l with words := putWr l.words lane x.isSome, data := putData l.data lane x } else l } }
/-- A lane of a result that changes: the weave's results and latches, and the rows of the frame that take it. -/
theorem putLane_framed {c : Core} (h : Plain c) (w rid lane : Nat) (x : LaneVal) :
    ∃ es, Framed (laneRow (c.weave w) rid lane) (({ c with agenda := es } : Core).modW w (laneChanged rid lane x))
      (c.putLane w rid lane x) := by
  unfold Core.putLane
  extract_lets wv c₁ c₂
  obtain ⟨es, hes⟩ : ∃ es, c₁ = { c with agenda := es } := by
    unfold c₁
    split
    · exact ⟨_, rfl⟩
    · exact ⟨c.agenda, rfl⟩
  refine ⟨es, ?_⟩
  rw [← hes]
  have hc₂ : Plain c₂ := ⟨by unfold c₂; rw [hes]; exact h.wf, by unfold c₂; rw [hes]; exact h.flips⟩
  split
  · exact .refl hc₂ _
  next n frame i hfound =>
    extract_lets at_ c₃
    have hmem : (n, frame, i) ∈ wv.framed := List.mem_of_find?_eq_some hfound
    have hid : n = rid := by simpa using List.find?_some hfound
    have h₃ : Framed (laneRow wv rid lane) c₂ c₃ := by
      unfold c₃
      split
      · exact .refl hc₂ _
      · exact (frameRow_framed hc₂ w at_ _).mono fun r hr => ⟨_, hmem, hid, .inl hr⟩
    split
    · exact h₃.trans ((frameRow_framed h₃.plain w _ _).mono fun r hr => ⟨_, hmem, hid, .inr hr⟩)
    · exact h₃

/-- A late value of one weave's result, with the bundles that may have read the lane (log 13). -/
def arrive (c : Core) (v rid lane : Nat) (x : Word) : Core := (c.noteFix v rid lane x none).putLane v rid lane (some (some x))
theorem noteFix_eq (c : Core) (w rid lane : Nat) (x : Word) (row : Option (Nat × Word × Word)) :
    ∃ es fs, c.noteFix w rid lane x row = { c with agenda := es, fixes := fs } := by
  unfold Core.noteFix
  extract_lets
  split
  · exact ⟨_, _, rfl⟩
  · exact ⟨_, _, rfl⟩

/-- What late values for a lane of a result leave of a machine: of rows all but those of frames that take the lane, of weaves what
frames they have and the mode, and every result in flight of a weave not in `vs`. -/
structure Arrived (vs : List Nat) (rid lane : Nat) (x : Word) (c d : Core) : Prop where
  plain : Plain d
  row : ∀ addr, (∀ v ∈ vs, ¬ laneRow (c.weave v) rid lane (rowAddr addr)) → d.row addr = c.row addr
  framed : ∀ u, (d.weave u).framed = (c.weave u).framed
  modes : KeepsModes c d
  flight : ∀ u, (d.weave u).flight = if u ∈ vs then (c.weave u).flight.map (tookLane rid lane x) else (c.weave u).flight

theorem arrive_arrived {c : Core} (h : Plain c) (v rid lane : Nat) (x : Word) : Arrived [v] rid lane x c (arrive c v rid lane x) := by
  obtain ⟨es, fs, hfix⟩ := noteFix_eq c v rid lane x none
  rw [arrive, hfix]
  obtain ⟨es', hput⟩ := putLane_framed (c := { c with agenda := es, fixes := fs }) ⟨h.wf, h.flips⟩ v rid lane (some (some x))
  refine ⟨hput.plain, fun addr haddr => ?_, fun u => ?_, ?_, fun u => ?_⟩
  · exact hput.rows addr (haddr v List.mem_cons_self)
  · refine (hput.written.weaveField Weave.framed (fun _ => rfl) u).trans ?_
    by_cases hu : u = v
    · subst hu
      rw [modW_weave_same]
      rfl
    · rw [modW_weave_other _ _ hu]
      rfl
  · exact .trans (.of_weaves rfl) (putLane_keepsModes _ v rid lane _)
  · refine (hput.written.weaveField Weave.flight (fun _ => rfl) u).trans ?_
    simp only [List.mem_singleton]
    by_cases hu : u = v
    · subst hu
      rw [modW_weave_same, if_pos rfl]
      rfl
    · rw [modW_weave_other _ _ hu, if_neg hu]
      rfl
theorem Arrived.cons {v rid lane : Nat} {x : Word} {vs : List Nat} {c d e : Core} (h : Arrived [v] rid lane x c d)
    (g : Arrived vs rid lane x d e) (hv : v ∉ vs) : Arrived (v :: vs) rid lane x c e := by
  refine ⟨g.plain, fun addr haddr => ?_, fun u => (g.framed u).trans (h.framed u), h.modes.trans g.modes, fun u => ?_⟩
  · refine (g.row addr fun u hu => ?_).trans (h.row addr fun u hu => ?_)
    · rw [laneRow, h.framed]
      exact haddr u (List.mem_cons_of_mem _ hu)
    · exact haddr u (List.mem_cons.mpr (.inl (List.mem_singleton.mp hu)))
  · rw [g.flight, h.flight]
    by_cases hu : u = v
    · subst hu
      simp [hv]
    · simp [hu]
/-- The old value of an atomic reaches its result in the weave and in its redundant partner (R385). -/
theorem produce_arrived {c : Core} (h : Plain c) (w rid lane : Nat) (x : Word) :
    Arrived (c.withPartner w) rid lane x c (c.produce w rid lane x none) := by
  have hw := arrive_arrived h w rid lane x
  unfold Core.produce Core.withPartner
  split
  · exact hw.cons (arrive_arrived hw.plain (w + 1) rid lane x) (by simp)
  · exact hw

/-! ## One atomic (R202, R203) -/

theorem withPartner_congr {c d : Core} (h : KeepsModes c d) (w : Nat) : d.withPartner w = c.withPartner w := by
  have hpartner : d.hasPartner w = c.hasPartner w := by simp only [Core.hasPartner, Weave.redun, h w]
  rw [Core.withPartner, hpartner]
  rfl
theorem mem_withPartner (c : Core) (w : Nat) : w ∈ c.withPartner w := by
  unfold Core.withPartner
  split
  · exact List.mem_cons_self
  · exact List.mem_cons_self
theorem unframed_mono {c : Core} {w : Nat} {rid : Option Nat} {ops ops' : List Atomic} {addr : Nat} (h : Unframed c w rid ops addr)
    (hsub : ops' ⊆ ops) : Unframed c w rid ops' addr := fun v hv p hp hid o ho => h v hv p hp hid o (hsub ho)
theorem not_laneRow_of_unframed {c : Core} {w n : Nat} {ops : List Atomic} {addr : Nat} (h : Unframed c w (some n) ops addr) {v : Nat}
    (hv : v ∈ c.withPartner w) {o : Atomic} (ho : o ∈ ops) : ¬ laneRow (c.weave v) n o.lane (rowAddr addr) := by
  rintro ⟨p, hp, hid, hrow⟩
  obtain ⟨hdesc, hdata⟩ := h v hv p hp (congrArg some hid) o ho
  exact hrow.elim hdesc hdata

/-- A machine after one atomic of a weave: the same frames and modes. -/
structure Applied (w : Nat) (rid : Option Nat) (o : Atomic) (c d : Core) : Prop where
  plain : Plain d
  row : ∀ addr, Unframed c w rid [o] addr → d.row addr = rowAfter [o] addr (c.row addr)
  framed : ∀ u, (d.weave u).framed = (c.weave u).framed
  modes : KeepsModes c d
  flight : (d.weave w).flight = match rid with
    | some n => (c.weave w).flight.map (tookLane n o.lane (c.row o.addr))
    | none => (c.weave w).flight

theorem Plain.writeShared {c : Core} (h : Plain c) (addr : Nat) (val mask : Word) (scope unit writer : Nat) (job : Option Nat) :
    Plain (c.writeShared addr val mask scope unit writer job) := by
  have hrow := h.writeRow (rowAddr addr) val mask job
  exact ⟨hrow.wf, hrow.flips⟩
/-- The write of an atomic changes its row as the operation says, and no other. -/
theorem row_writeShared {c : Core} (h : Plain c) (a addr : Nat) (f : Word → Word) (unit writer : Nat) :
    (c.writeShared a (f (c.row a)) allOnes 1 unit writer none).row addr = if rowAddr a == rowAddr addr then f (c.row addr) else c.row addr := by
  have hmem : (c.writeShared a (f (c.row a)) allOnes 1 unit writer none).mem = (c.writeRow (rowAddr a) (f (c.row a)) allOnes none).mem := rfl
  rw [row_of_mem hmem]
  by_cases ha : rowAddr a = rowAddr addr
  · rw [if_pos (beq_iff_eq.mpr ha), row_writeRow_same h _ _ _ (by rw [rowAddr_rowAddr, ha]), mergeBits_allOnes, row_congr ha]
  · rw [if_neg (beq_iff_eq.not.mpr ha), row_writeRow_other h _ _ _ (by rw [rowAddr_rowAddr]; exact Ne.symm ha)]
theorem rowAfter_cons (o : Atomic) (ops : List Atomic) (addr : Nat) (x : Word) :
    rowAfter (o :: ops) addr x = rowAfter ops addr (rowAfter [o] addr x) := by
  by_cases h : (rowAddr o.addr == rowAddr addr) = true <;> simp [rowAfter, h]
theorem rowAfter_singleton (o : Atomic) (addr : Nat) (x : Word) :
    rowAfter [o] addr x = if rowAddr o.addr == rowAddr addr then atomicNew o.op x o.y o.z else x := by
  by_cases h : (rowAddr o.addr == rowAddr addr) = true <;> simp [rowAfter, h]
theorem applyAtomic_applied {c : Core} (h : Plain c) (w : Nat) (rid : Option Nat) (o : Atomic) :
    Applied w rid o c (c.applyAtomic w rid o) := by
  let d := c.writeShared o.addr (atomicNew o.op (c.row o.addr) o.y o.z) allOnes 1 (secOf w) (w + 1) none
  have hd : Plain d := h.writeShared ..
  have hwritten : RowsWritten c d := writeShared_written ..
  have hmodes : KeepsModes c d := writeShared_keepsModes c o.addr _ allOnes 1 _ _ none
  have hrow : ∀ addr, d.row addr = rowAfter [o] addr (c.row addr) := fun addr =>
    (row_writeShared h o.addr addr (fun x => atomicNew o.op x o.y o.z) (secOf w) (w + 1)).trans (rowAfter_singleton ..).symm
  cases rid with
  | none =>
    exact ⟨hd, fun addr _ => hrow addr, hwritten.weaveField Weave.framed fun _ => rfl, hmodes,
      hwritten.weaveField Weave.flight (fun _ => rfl) w⟩
  | some n =>
    have hframed := hwritten.weaveField Weave.framed fun _ => rfl
    have harrived := produce_arrived hd w n o.lane (c.row o.addr)
    rw [withPartner_congr hmodes] at harrived
    refine ⟨harrived.plain, fun addr haddr => ?_, fun u => (harrived.framed u).trans (hframed u), hmodes.trans harrived.modes, ?_⟩
    · refine (harrived.row addr fun v hv => ?_).trans (hrow addr)
      rw [laneRow, hframed]
      exact not_laneRow_of_unframed haddr hv List.mem_cons_self
    · refine (harrived.flight w).trans ?_
      rw [if_pos (mem_withPartner c w), hwritten.weaveField Weave.flight (fun _ => rfl) w]
theorem Applied.unframed {w : Nat} {rid : Option Nat} {o : Atomic} {c d : Core} (h : Applied w rid o c d) {ops : List Atomic}
    {addr : Nat} (haddr : Unframed c w rid ops addr) : Unframed d w rid ops addr := by
  intro v hv p hp
  rw [withPartner_congr h.modes] at hv
  rw [h.framed] at hp
  exact haddr v hv p hp

/-! ## The atomics of a bundle in a cell (R203) -/

/-- Atomics of a weave applied in the order of a list. -/
def applyOps (w : Nat) (rid : Option Nat) (ops : List Atomic) (c : Core) : Core := ops.foldl (fun c o => c.applyAtomic w rid o) c

theorem applyOps_row {w : Nat} {rid : Option Nat} {ops : List Atomic} {c : Core} (h : Plain c) {addr : Nat}
    (haddr : Unframed c w rid ops addr) : (applyOps w rid ops c).row addr = rowAfter ops addr (c.row addr) := by
  induction ops generalizing c with
  | nil => rfl
  | cons o ops ih =>
    have ho := applyAtomic_applied h w rid o
    refine (ih ho.plain (ho.unframed (unframed_mono haddr (List.subset_cons_self ..)))).trans ?_
    rw [ho.row addr (unframed_mono haddr (by simp)), ← rowAfter_cons]
theorem applyOps_plain (w : Nat) (rid : Option Nat) (ops : List Atomic) {c : Core} (h : Plain c) : Plain (applyOps w rid ops c) := by
  induction ops generalizing c with
  | nil => exact h
  | cons o ops ih => exact ih (applyAtomic_applied h w rid o).plain
/-- Atomics of other lanes leave a lane's value. -/
theorem applyOps_laneHolds {w : Nat} {rid : Option Nat} {ops : List Atomic} {c : Core} (h : Plain c) {lane : Nat} {x : Word}
    (hother : ∀ o ∈ ops, o.lane ≠ lane) (hx : LaneHolds rid lane x (c.weave w).flight) :
    LaneHolds rid lane x ((applyOps w rid ops c).weave w).flight := by
  induction ops generalizing c with
  | nil => exact hx
  | cons o ops ih =>
    have ho := applyAtomic_applied h w rid o
    refine ih ho.plain (fun q hq => hother q (List.mem_cons_of_mem _ hq)) ?_
    rw [ho.flight]
    cases rid with
    | none => exact hx
    | some n => exact hx.took_other (hother o List.mem_cons_self) n _
/-- The old value of an atomic is that of its row when the atomics before it have applied. -/
theorem applyOps_oldValue {w : Nat} {rid : Option Nat} {c : Core} (h : Plain c) (pre : List Atomic) {o : Atomic} {post : List Atomic}
    (haddr : Unframed c w rid pre o.addr) (hpost : ∀ q ∈ post, q.lane ≠ o.lane) :
    LaneHolds rid o.lane (rowAfter pre o.addr (c.row o.addr)) ((applyOps w rid (pre ++ o :: post) c).weave w).flight := by
  have hpre := applyOps_plain w rid pre h
  have ho := applyAtomic_applied hpre w rid o
  rw [applyOps, List.foldl_append, List.foldl_cons, ← applyOps_row h haddr]
  refine applyOps_laneHolds ho.plain hpost ?_
  rw [ho.flight]
  cases rid with
  | none => exact fun r _ hid => absurd hid (by simp)
  | some n => exact laneHolds_took n o.lane _ _

theorem sectorAtomicsApply : Claims.SectorAtomicsApply := by
  intro s w id cell k hwf hflips hk here hunframed
  have hplain : Plain s.core := ⟨hwf, hflips⟩
  have hmem : (s.core.applyAtomics w id cell).mem = (applyOps w k.result here s.core).mem := by
    simp only [Core.applyAtomics, hk]
    rfl
  have hflight : ((s.core.applyAtomics w id cell).weave w).flight = ((applyOps w k.result here s.core).weave w).flight := by
    simp only [Core.applyAtomics, hk, modW_weave_same]
    rfl
  refine ⟨_, rfl, rfl, fun addr haddr => ?_, fun pre o post hsplit hpost => ?_⟩
  · exact (row_of_mem hmem addr).trans (applyOps_row hplain haddr)
  · have ho : o ∈ here := hsplit ▸ List.mem_append_right _ List.mem_cons_self
    have hpre : pre ⊆ here := hsplit ▸ List.subset_append_left ..
    have hold := applyOps_oldValue hplain pre (unframed_mono (hunframed o ho) hpre) hpost
    rw [← hsplit, ← hflight] at hold
    exact hold

/-- Settles O15, by what a bundle enters at issue and what a cell applies. -/
theorem sectorAtomics : Obligations.SectorAtomics := ⟨sectorAtomicsEnter, sectorAtomicsApply⟩
end Sys2Proof.Proofs
end
section
/-! SUPPORT. Rotate-merge and window conversion (O14). -/
namespace Sys2Proof.Proofs
open Sys2Proof.Machine Sys2Proof.Claims Sys2Proof.Laws

theorem winSize_eq (x : Win) : winSize x = if x = .loc then 0x10000 else 0x400000 := by cases x <;> rfl
/-- A value lies in a window when the window exists and the value is within its bounds (R190, R201). -/
theorem inWindow_iff (s : State) (x : Win) (v : Word) : s.inWindow x v = true ↔ (x = .pair → s.rd.pairHeld s.core.cur = true) ∧
    s.wv.winBase x ≤ v.toNat ∧ v.toNat < s.wv.winBase x + if x = .loc then 0x10000 else 0x400000 := by
  simp only [State.inWindow, Bool.and_eq_true, Bool.or_eq_true, bne_iff_ne, decide_eq_true_eq, winSize_eq, and_assoc, imp_iff_not_or, ne_eq]

theorem windowForms : Claims.WindowForms := by
  intro s x d a b kd k n base size within merge
  have hwithin : ∀ l, s.inWindow x (s.vreg a l) = true ↔ within l := fun l => inWindow_iff s x (s.vreg a l)
  refine ⟨putV_lands_of_eq rfl fun _ => rfl, putV_lands_of_eq rfl fun _ => rfl, putV_lands_of_eq rfl fun _ => rfl,
    ⟨_, _, rfl, putV_lands .., fun l => ⟨fun h => ?_, fun h => ?_⟩⟩, ⟨_, _, rfl, putK_lands .., hwithin⟩⟩
  · exact if_pos ((hwithin l).mpr h)
  · exact if_neg ((hwithin l).not.mpr h)
end Sys2Proof.Proofs
end
section
/-! SUPPORT. Typed loads and stores (O14). -/
namespace Sys2Proof.Proofs
open Sys2Proof.Machine Sys2Proof.Claims Sys2Proof.Laws

/-! ## Conversions of lanes (R62, R198) -/

/-- What a typed access converts in one lane: bits, flags and the generator after them. -/
def typedOut (s : State) (t : Typed) (src dst : Nat) (sat : Bool) (es : Nat → List Nat) (l : Nat) : List Nat × Nat × BitVec 32 :=
  cvtElems (fun x g => cvtElem src dst t.mode sat s.wv.ftz g x) (es l) ((me s).gen l)
theorem typedConv_eq (s : State) (t : Typed) (src dst : Nat) (sat : Bool) (lanes : List Nat) (es : Nat → List Nat)
    (f : List (Nat × List Nat) → State → State) : s.typedConv t src dst sat (lanes.map fun l => (l, es l)) f =
      f (lanes.map fun l => (l, (typedOut s t src dst sat es l).1)) (convRaised s lanes (typedOut s t src dst sat es)) := by
  simp only [State.typedConv, withFlags_eq, foldl_or_zero, List.map_map, List.foldl_map, Function.comp_def, convRaised, stepGens]
  rfl
theorem convRaised_clean {s : State} (h : Clean s.core) (lanes : List Nat) (out : Nat → List Nat × Nat × BitVec 32) :
    Clean (convRaised s lanes out).core := by
  have hflagged : Clean (flagged s (orAll (lanes.map fun l => (out l).2.1))).core := by
    obtain ⟨hpoison, hflips, hidle⟩ := h.modW s.core.cur (f := orFcsr (orAll (lanes.map fun l => (out l).2.1))) fun _ => rfl
    exact ⟨hpoison, hflips, hidle⟩
  exact hflagged.modW s.core.cur (f := fun x => { x with srd := stepGens x lanes fun l => (out l).2.2 }) fun _ => rfl
/-- What changes in the executing weave alone, after flags are raised, leaves the rest as it was before. -/
theorem Raised.sameBut {s u t : State} {fl : Nat} {srd : Map (BitVec 32)} {y : Weave} (h : Raised s u fl srd) (g : OnlyMe u t y)
    {f : Weave → Weave → Weave} (hf : f (me s) y = me s) : SameBut s t f fun c d => { d with iss := c.iss } := by
  refine ⟨g.base.trans h.base, ?_, fun v hv => (g.others v (h.cur ▸ hv)).trans (h.others v hv), by rw [g.me, hf], fun a => ?_⟩
  · have hagenda : s.core.agenda = u.core.agenda := (congrArg Core.agenda h.rest :).symm
    have hnextId : s.core.nextId = u.core.nextId := (congrArg Core.nextId h.rest :).symm
    rw [hagenda, hnextId]
    exact (congrArg (fun c : Core => { c with weaves := s.core.weaves, iss := s.core.iss }) g.rest :).trans h.rest
  · exact (congrArg (fun c : Core => memGet c.mem a) g.rest :).trans (by rw [h.mem])
/-- The generator of a lane that has converted. -/
theorem gen_of_stepGens {s : State} {k : KReg} {out : Nat → List Nat × Nat × BitVec 32} {y : Weave}
    (h : y.srd = stepGens (me s) (s.active k) fun l => (out l).2.2) {l : Nat} (hl : l ∈ s.active k) : y.gen l = (out l).2.2 := by
  rw [Weave.gen, h]
  exact (gen_stepGens (me s) (fun l => (out l).2.2) (nodup_active s k) l).trans (if_pos hl)

/-! ## Loads (R198, R199) -/

/-- A load whose values are found lands them, notes the reads of later cells and checks its rows. -/
def landLoad (d : Reg) (L : Nat) (lanes : List Nat) (v : Nat → Word) (notes : List (Nat × Nat × Option LoadConv))
    (rows : List (Nat × Nat × Bool × Nat)) (s : State) : State :=
  ((s.putV d L lanes v).noteReads s.core.nextId notes).modC fun c =>
    rows.foldl (fun c (l, _, _, a) => c.loadsRows c.cur [a] (c.now + l / 16 + L)) c
theorem landLoad_lands {s : State} (hclean : Clean s.core) (d : Reg) (L : Nat) (lanes : List Nat) (v : Nat → Word)
    (notes : List (Nat × Nat × Option LoadConv)) (rows : List (Nat × Nat × Bool × Nat)) :
    ∃ flight reads, OnlyMe s (landLoad d L lanes v notes rows s) { me s with flight := flight, reads := reads } ∧
      ReadsV s (landLoad d L lanes v notes rows s) d L lanes v := by
  obtain ⟨flight, hput⟩ := OnlyMe.putV s d L lanes v
  obtain ⟨f, hf⟩ := noteReads_eq (s.putV d L lanes v) s.core.nextId notes
  have hnote := hput.modW fun x => { x with reads := f x }
  have hcleanNote := (hclean.putV d L lanes v).modW (s.putV d L lanes v).core.cur (f := fun x => { x with reads := f x }) fun _ => rfl
  obtain ⟨es, hes⟩ := loads_of_clean (fun r : Nat × Nat × Bool × Nat => r.2.2.2) (fun now r => now + r.1 / 16 + L) rows hcleanNote
  have hland : OnlyMe s (landLoad d L lanes v notes rows s)
      { me s with flight := flight, reads := f { me s with flight := flight } } := by
    rw [landLoad, hf]
    exact hnote.withAgenda _ _ hes
  exact ⟨flight, _, hland, readsV_notes hput.me (by rw [hland.me]) (putV_lands s d L lanes v).2⟩

section
variable {s : State} {k : KReg} {own : Nat → Bool} {flat : Nat → Nat}

/-- The elements that a typed load takes from a lane's row, and those that a typed store takes from a lane (R198). -/
def rowElems (s : State) (t : Typed) (ea : Nat → Nat) (own : Nat → Bool) (flat : Nat → Nat) (l : Nat) : List Nat :=
  (List.range t.n).map fun i => elem (s.loadRow l (own l) (flat l)) t.ws (t.first (ea l) + i)
def laneElems (s : State) (t : Typed) (d : Reg) (l : Nat) : List Nat := (List.range t.n).map fun i => elem (s.vreg d l) t.wl i

/-- What a typed access does when it issues: its descriptor, the checks and conditions of its rows, then `g` (R192, R195, R199). -/
def typedChecked (slot : BitVec 3) (a : Reg) (o : BitVec 5) (k : KReg) (reads : List (Nat × Nat × Bool × Nat) → List Nat)
    (g : State → List (Nat × Nat × Bool × Nat) → State → State) (s : State) : State :=
  if !typedOk (s.wv.descriptor slot.toNat) then s.illegal 0
  else s.checked ((s.active k).map fun l => (l, eaOf (s.vreg a l) o, s.reachOf none l (eaOf (s.vreg a l) o))) fun rs =>
    s.access (reads rs) (ownLanes rs) (g s rs)
/-- A typed access, spaced as both groups want it (R194). -/
def typedAccess (s : State) (slot : BitVec 3) (a : Reg) (o : BitVec 5) (k : KReg) (reads : List (Nat × Nat × Bool × Nat) → List Nat)
    (g : State → List (Nat × Nat × Bool × Nat) → State → State) : State :=
  s.spaced true true fun s => typedChecked slot a o k reads g s
/-- What lets a typed access issue: its spacing, a descriptor that is accepted, rows that the checks find, no blackout. -/
structure TypedIssues (s : State) (slot : BitVec 3) (a : Reg) (o : BitVec 5) (k : KReg) (own : Nat → Bool) (flat : Nat → Nat) : Prop where
  under : UnderWay s
  spaced : Spaced s true true
  ok : typedOk (s.wv.descriptor slot.toNat) = true
  reach : ReachRows s none k (fun l => (s.vreg a l + o.signExtend 64 * 8).toNat) own flat
  black : NoBlackout s k own
/-- A typed access whose checks and conditions hold acts on its rows, and notes its cycle for both groups. -/
theorem typedAccess_eq {slot : BitVec 3} {a : Reg} {o : BitVec 5} {reads : List (Nat × Nat × Bool × Nat) → List Nat}
    {g : State → List (Nat × Nat × Bool × Nat) → State → State} (h : TypedIssues s slot a o k own flat)
    (hreads : ∀ r ∈ reads (laneRows (s.active k) (s.vreg a) o own flat),
      s.rd.rowArrived r = true ∧ Crossed s k flat ∧ ∃ l ∈ s.active k, flat l = r)
    (hbase : (g s (laneRows (s.active k) (s.vreg a) o own flat) s).base = s.base) :
    typedAccess s slot a o k reads g = (g s (laneRows (s.active k) (s.vreg a) o own flat) s).modW fun x => { x with
      lastSector := some s.now, lastPair := some s.now } := by
  have hf : typedChecked slot a o k reads g s = g s (laneRows (s.active k) (s.vreg a) o own flat) s := by
    refine (if_neg (by simp [h.ok])).trans ?_
    refine (checked_of_rows (ea := fun l => eaOf (s.vreg a l) o) s h.reach _).trans ?_
    refine access_of_arrived (fun r hr => (hreads r hr).1) (laneRows_not_inBlackout h.black (s.vreg a) o flat) ?_ _
    rintro hdeg ⟨r, hr, hbounds⟩
    obtain ⟨-, hcrossed, l, hl, rfl⟩ := hreads r hr
    exact hcrossed hdeg ⟨l, hl, hbounds⟩
  rw [← hf] at hbase ⊢
  exact spaced_of_spaced h.under h.spaced hbase

/-- The machine when a typed load's values are put in flight. -/
def typedLoaded (s : State) (t : Typed) (d a : Reg) (o : BitVec 5) (k : KReg) (own : Nat → Bool) (flat : Nat → Nat)
    (out : Nat → List Nat × Nat × BitVec 32) (notes : List (Nat × Nat × Option LoadConv)) : State :=
  landLoad d 14 (s.active k) (fun l => packElems t.wl (out l).1) notes (laneRows (s.active k) (s.vreg a) o own flat)
    (convRaised s (s.active k) out)
/-- `ldf` is a typed access that reads its rows and lands what they convert to. -/
theorem execLdf_eq (s : State) (slot : BitVec 3) (d a : Reg) (o : BitVec 5) (k : KReg) (own : Nat → Bool) (flat : Nat → Nat) :
    let fd := s.wv.descriptor slot.toNat
    let t := s.wv.typed fd
    let out := typedOut s t (fdSF fd) (fdLF fd) (fdSAT fd) (rowElems s t (fun l => eaOf (s.vreg a l) o) own flat)
    ∃ g, Machine.exec (.ldf slot d a o k) s = .next (typedAccess s slot a o k (fun rs => rs.map (·.2.2.2)) g) ∧
      ∃ notes, g s (laneRows (s.active k) (s.vreg a) o own flat) s = typedLoaded s t d a o k own flat out notes := by
  intro fd t out
  refine ⟨_, rfl, ?_⟩
  simp only [laneRows, List.map_map, Function.comp_def]
  change ∃ notes, s.typedConv t (fdSF fd) (fdLF fd) (fdSAT fd)
    ((s.active k).map fun l => (l, rowElems s t (fun l => eaOf (s.vreg a l) o) own flat l)) _ = _
  simp only [typedConv_eq, List.map_map, Function.comp_def, List.map_id']
  exact ⟨_, rfl⟩
end

/-! ## Masked stores (R197, R199) -/

/-- The rows of a store that writes some bits of each. -/
def maskedRows (lanes : List Nat) (own : Nat → Bool) (flat : Nat → Nat) (val mask : Nat → Word) : List (Nat × Bool × Nat × Word × Word) :=
  lanes.map fun l => (l, own l, flat l, val l, mask l)
/-- The phase buffer after a masked store (R197). -/
def bufferedMasked (buf : Map BufRow) (lanes : List Nat) (own : Nat → Bool) (flat : Nat → Nat) (val mask : Nat → Word) : Map BufRow :=
  (lanes.filter fun l => !own l).foldl (fun b l => bufferRow b (flat l) (val l) (mask l)) buf
/-- The executing weave after a masked store whose LOCAL stores have the number `id`. -/
def storingMasked (x : Weave) (id : Nat) (lanes : List Nat) (own : Nat → Bool) (flat : Nat → Nat) (val mask : Nat → Word) : Weave :=
  { x with
    buf := bufferedMasked x.buf lanes own flat val mask
    bufBad := x.bufBad.filter fun b => !(b.1 == 0 && lanes.any fun l => !own l && (flat l == b.2 && mask l == allOnes))
    skews := x.skews ++ if lanes.any own then [⟨id, (lanes.filter own).map fun l => ⟨l, flat l, val l, mask l⟩⟩] else [] }

/-- The machine when the rows of a store that lie in shared stores are in the phase buffer (R197). -/
def sharedStored (ws : List (Nat × Bool × Nat × Word × Word)) (buf : Map BufRow) (s : State) : State :=
  s.modW fun x => { x with
    buf := buf
    bufBad := x.bufBad.filter fun b => !(b.1 == 0 && (ws.filter (!·.2.1)).any fun (_, _, a, _, m) => a == b.2 && m == allOnes) }
/-- The LOCAL rows of a store, under a new number, with their cells' executions (R15). -/
def skewStored (ws : List (Nat × Bool × Nat × Word × Word)) (s : State) : State :=
  let c := s.core.fresh.2.modW s.core.fresh.2.cur fun x =>
    { x with skews := x.skews ++ [⟨s.core.fresh.1, ws.map fun (l, _, a, v, m) => ⟨l, a, v, m⟩⟩] }
  { s with core := (cellsOf (ws.map (·.1))).foldl (fun c cell =>
    c.sched (c.now + cell) bWave c.cur (.wavefrontSkewExecution c.cur s.core.fresh.1 cell)) c }
theorem storeRows_eq (s : State) (ws : List (Nat × Bool × Nat × Word × Word)) {buf : Map BufRow}
    (hbuf : (ws.filter (!·.2.1)).foldl (fun b (_, _, a, v, m) => bufferRow b a v m) (me s).buf = buf) (hlen : buf.length ≤ Config.bufferRows) :
    s.storeRows ws = if (ws.filter (·.2.1)).isEmpty then sharedStored ws buf s
      else skewStored (ws.filter (·.2.1)) (sharedStored ws buf s) := by
  subst hbuf
  refine (if_neg (Nat.not_lt.mpr hlen)).trans ?_
  split
  next => rfl
  next => rfl
theorem skewStored_onlyMe (s : State) (ws : List (Nat × Bool × Nat × Word × Word)) : OnlyMe s (skewStored ws s) { me s with
    skews := (me s).skews ++ [⟨s.core.nextId, ws.map fun (l, _, a, v, m) => ⟨l, a, v, m⟩⟩] } := by
  obtain ⟨⟨es, he⟩, -⟩ := skews_scheduled s.core.nextId (cellsOf (ws.map (·.1))) (s.core.fresh.2.modW s.core.fresh.2.cur fun x =>
    { x with skews := x.skews ++ [⟨s.core.nextId, ws.map fun (l, _, a, v, m) => ⟨l, a, v, m⟩⟩] })
  have hfresh := (OnlyMe.refl s).withAgenda s.core.agenda (s.core.nextId + 1) (c := s.core.fresh.2) rfl
  have hskew := hfresh.modW fun x => { x with skews := x.skews ++ [⟨s.core.nextId, ws.map fun (l, _, a, v, m) => ⟨l, a, v, m⟩⟩] }
  exact hskew.withAgenda _ _ he
/-- A masked store that the phase buffer takes (R15, R197); `storeRows_enters` says it of whole rows. -/
theorem storeRows_masked (s : State) (lanes : List Nat) (own : Nat → Bool) (flat : Nat → Nat) (val mask : Nat → Word)
    (hlen : (bufferedMasked (me s).buf lanes own flat val mask).length ≤ Config.bufferRows) :
    OnlyMe s (s.storeRows (maskedRows lanes own flat val mask)) (storingMasked (me s) s.core.nextId lanes own flat val mask) := by
  have hshared : (maskedRows lanes own flat val mask).filter (!·.2.1) = maskedRows (lanes.filter fun l => !own l) own flat val mask := by
    rw [maskedRows, List.filter_map]
    rfl
  have hown : (maskedRows lanes own flat val mask).filter (·.2.1) = maskedRows (lanes.filter own) own flat val mask := by
    rw [maskedRows, List.filter_map]
    rfl
  have hany : (maskedRows (lanes.filter own) own flat val mask).isEmpty = !lanes.any own := by
    rw [Bool.eq_iff_iff]
    simp [maskedRows, List.filter_eq_nil_iff]
  have hbuf : ((maskedRows lanes own flat val mask).filter (!·.2.1)).foldl (fun b (_, _, a, v, m) => bufferRow b a v m) (me s).buf =
      bufferedMasked (me s).buf lanes own flat val mask := by
    rw [hshared, maskedRows, List.foldl_map]
    rfl
  rw [storeRows_eq s _ hbuf hlen, hown, hany]
  have hbad : ∀ b : Nat × Nat, ((maskedRows lanes own flat val mask).filter (!·.2.1)).any (fun (_, _, a, _, m) => a == b.2 && m == allOnes) =
      lanes.any fun l => !own l && (flat l == b.2 && mask l == allOnes) := by
    intro b
    rw [hshared, maskedRows, List.any_map, List.any_filter]
    rfl
  have hstored : OnlyMe s (sharedStored (maskedRows lanes own flat val mask) (bufferedMasked (me s).buf lanes own flat val mask) s)
      { storingMasked (me s) s.core.nextId lanes own flat val mask with skews := (me s).skews } := by
    simp only [sharedStored, hbad]
    exact (OnlyMe.refl s).modW _
  cases h : lanes.any own with
  | false =>
    rw [show storingMasked (me s) s.core.nextId lanes own flat val mask = { storingMasked (me s) s.core.nextId lanes own flat val mask with
      skews := (me s).skews } by simp [storingMasked, h]]
    exact hstored
  | true =>
    have hskew := hstored.trans (skewStored_onlyMe _ (maskedRows (lanes.filter own) own flat val mask))
    rw [hstored.me] at hskew
    rw [storingMasked, if_pos h]
    simp only [maskedRows, List.map_map, Function.comp_def] at hskew
    exact hskew

/-! ## Stores (R198, R199) -/

/-- The bits that a lane's converted elements have in the row, and the bits of the row that they take (R198). -/
def storeBits (t : Typed) (ea : Nat) (es : List Nat) : Word := packElems t.ws es <<< (t.ws * t.first ea)
def storeMask (t : Typed) (ea : Nat) : Word := word ((2 ^ (t.n * t.ws) - 1) * 2 ^ (t.ws * t.first ea))
/-- The machine when a typed store's bits are stored. -/
def typedStored (s : State) (t : Typed) (a : Reg) (o : BitVec 5) (k : KReg) (own : Nat → Bool) (flat : Nat → Nat)
    (out : Nat → List Nat × Nat × BitVec 32) : State :=
  (convRaised s (s.active k) out).storeRows (maskedRows (s.active k) own flat (fun l => storeBits t (eaOf (s.vreg a l) o) (out l).1)
    fun l => storeMask t (eaOf (s.vreg a l) o))
/-- `stf` is a typed access that reads no row and stores what its lanes convert to. -/
theorem execStf_eq (s : State) (slot : BitVec 3) (d a : Reg) (o : BitVec 5) (k : KReg) (own : Nat → Bool) (flat : Nat → Nat) :
    let fd := s.wv.descriptor slot.toNat
    let t := s.wv.typed fd
    let out := typedOut s t (fdLF fd) (fdSF fd) (fdSAT fd) (laneElems s t d)
    ∃ g, Machine.exec (.stf slot d a o k) s = .next (typedAccess s slot a o k (fun _ => []) g) ∧
      g s (laneRows (s.active k) (s.vreg a) o own flat) s = typedStored s t a o k own flat out := by
  intro fd t out
  refine ⟨_, rfl, ?_⟩
  have hfound : ∀ l ∈ s.active k, ((s.active k).map fun l => (l, (out l).1)).find? (fun p => p.1 == l) = some (l, (out l).1) :=
    fun l hl => find?_of_mem_map hl _
  simp only [laneRows, List.map_map, Function.comp_def]
  change s.typedConv t (fdLF fd) (fdSF fd) (fdSAT fd) ((s.active k).map fun l => (l, laneElems s t d l)) _ = _
  rw [typedConv_eq]
  refine congrArg (convRaised s (s.active k) out).storeRows ?_
  rw [List.filterMap_map, maskedRows, List.filterMap_eq_map_iff_forall_eq_some]
  intro l hl
  rw [Function.comp_apply, hfound l hl]
  rfl

/-! ## The accesses -/

section
variable {s : State} {slot : BitVec 3} {d a : Reg} {o : BitVec 5} {k : KReg} {own : Nat → Bool} {flat : Nat → Nat} {t : Typed}
  {out : Nat → List Nat × Nat × BitVec 32} {i : Instr} {g : State → List (Nat × Nat × Bool × Nat) → State → State}

/-- A typed load lands its elements, raises the flags of all lanes and steps their generators. -/
theorem typedLoad_lands (hclean : Clean s.core) (h : TypedIssues s slot a o k own flat)
    (harrived : ∀ l ∈ s.active k, s.rd.rowArrived (flat l) = true) (hcrossed : Crossed s k flat)
    (hexec : Machine.exec i s = .next (typedAccess s slot a o k (fun rs => rs.map (·.2.2.2)) g))
    (hg : ∃ notes, g s (laneRows (s.active k) (s.vreg a) o own flat) s = typedLoaded s t d a o k own flat out notes) :
    ∃ u, Machine.exec i s = .next u ∧ ReadsV s u d 14 (s.active k) (fun l => packElems t.wl (out l).1) ∧
      (∀ l ∈ s.active k, (me u).gen l = (out l).2.2) ∧
      (me u).fcsr = (me s).fcsr ||| BitVec.ofNat 64 (orAll ((s.active k).map fun l => (out l).2.1) * 16) ∧
      SameBut s u (fun x y => { y with
        flight := x.flight, reads := x.reads, srd := x.srd, fcsr := x.fcsr, lastSector := x.lastSector, lastPair := x.lastPair })
        (fun c d => { d with iss := c.iss }) := by
  obtain ⟨notes, hg⟩ := hg
  have hraised := convRaised_raised s (s.active k) out
  obtain ⟨flight, reads, honly, hreads⟩ := landLoad_lands (convRaised_clean hclean (s.active k) out) d 14 (s.active k)
    (fun l => packElems t.wl (out l).1) notes (laneRows (s.active k) (s.vreg a) o own flat)
  rw [← typedLoaded, ← hg] at honly hreads
  have haccess := typedAccess_eq (reads := fun rs => rs.map (·.2.2.2)) h (fun r hr => by
    obtain ⟨l, hl, rfl⟩ := mem_laneRows hr
    exact ⟨harrived l hl, hcrossed, l, hl, rfl⟩) (honly.base.trans hraised.base)
  have hu := honly.modW fun x => { x with lastSector := some s.now, lastPair := some s.now }
  refine ⟨_, hexec.trans (congrArg _ haccess), hraised.readsV (readsV_notes honly.me (by rw [hu.me]) hreads),
    fun l hl => gen_of_stepGens (by rw [hu.me, hraised.weave]) hl, by rw [hu.me, hraised.weave], hraised.sameBut hu (by rw [hraised.weave])⟩
/-- A typed store enters its bits as a masked store does, raises the flags of all lanes and steps their generators. -/
theorem typedStore_enters (h : TypedIssues s slot a o k own flat)
    {val mask : Nat → Word} (hlen : (bufferedMasked (me s).buf (s.active k) own flat val mask).length ≤ Config.bufferRows)
    (hexec : Machine.exec i s = .next (typedAccess s slot a o k (fun _ => []) g))
    (hg : g s (laneRows (s.active k) (s.vreg a) o own flat) s =
      (convRaised s (s.active k) out).storeRows (maskedRows (s.active k) own flat val mask)) :
    ∃ u, Machine.exec i s = .next u ∧ (me u).buf = bufferedMasked (me s).buf (s.active k) own flat val mask ∧
      (me u).skews = (me s).skews ++ (if (s.active k).any own then
        [⟨s.core.nextId, ((s.active k).filter own).map fun l => ⟨l, flat l, val l, mask l⟩⟩] else []) ∧
      (∀ l ∈ s.active k, (me u).gen l = (out l).2.2) ∧
      (me u).fcsr = (me s).fcsr ||| BitVec.ofNat 64 (orAll ((s.active k).map fun l => (out l).2.1) * 16) ∧
      SameBut s u (fun x y => { y with
        buf := x.buf, bufBad := x.bufBad, skews := x.skews, srd := x.srd, fcsr := x.fcsr, lastSector := x.lastSector,
        lastPair := x.lastPair }) (fun c d => { d with iss := c.iss }) ∧
      Rebuffered s u k own flat fun l => mask l = BitVec.allOnes 64 := by
  have hraised := convRaised_raised s (s.active k) out
  have hid : (convRaised s (s.active k) out).core.nextId = s.core.nextId := (congrArg Core.nextId hraised.rest :)
  have honly := storeRows_masked (convRaised s (s.active k) out) (s.active k) own flat val mask (by rw [hraised.weave]; exact hlen)
  rw [hraised.weave, hid, ← hg] at honly
  have haccess := typedAccess_eq (reads := fun _ => []) h (fun _ hr => absurd hr List.not_mem_nil)
    (honly.base.trans hraised.base)
  have hu := honly.modW fun x => { x with lastSector := some s.now, lastPair := some s.now }
  refine ⟨_, hexec.trans (congrArg _ haccess), by rw [hu.me]; rfl, by rw [hu.me]; rfl, fun l hl => gen_of_stepGens (by rw [hu.me]; rfl) hl,
    by rw [hu.me]; rfl, hraised.sameBut hu rfl, fun b => ?_⟩
  rw [hu.me]
  simp [storingMasked, imp_iff_not_or, allOnes]
end

theorem typedLaneAccesses : Claims.TypedLaneAccesses := by
  intro s slot d a o k own flat fd ea ws wl n first mode conv row loaded stored bits mask buf hunder hquiet hspaced hok hreach hblack
  obtain ⟨hpoison, hflips, hidle⟩ := hquiet
  have h : TypedIssues s slot a o k own flat := ⟨hunder, hspaced, hok, hreach, hblack⟩
  refine ⟨fun harrived hcrossed => ?load, fun hlen => ?store⟩
  case load =>
    obtain ⟨g, hexec, hg⟩ := execLdf_eq s slot d a o k own flat
    obtain ⟨t, hnext, hreads, hgen, hfcsr, hframe⟩ := typedLoad_lands (out := loaded) ⟨hpoison, hflips, hidle⟩ h
      harrived hcrossed hexec hg
    exact ⟨t, _, hnext, hreads, fun l hl => ⟨rfl, hgen l hl⟩, hfcsr, hframe⟩
  case store =>
    obtain ⟨g, hexec, hg⟩ := execStf_eq s slot d a o k own flat
    exact typedStore_enters (out := stored) (val := bits) (mask := mask) h hlen hexec hg

/-- Settles O14, by the typed accesses and the window forms. -/
theorem typedAndWindowForms : Obligations.TypedAndWindowForms := ⟨typedLaneAccesses, windowForms⟩
end Sys2Proof.Proofs
end
